-- ==== Sys2Proof/Word.lean ====
section
/-! DEFINITION. The words and index ranges of the Cimbrel CM-4410. A bit vector stands where the manual speaks of a
field of fixed width that wraps or saturates; a `Fin` stands where it gives an index range `0..n-1`. -/

namespace Sys2Proof

/-- One byte of a span frame. -/
abbrev Byte := BitVec 8
/-- Handset identity (scope, "HID"): 32 bits. -/
abbrev Hid := BitVec 32
/-- A value of the millisecond count (R15). -/
abbrev Time := BitVec 32
/-- A counter value (R17): 32 bits, saturating. -/
abbrev Count := BitVec 32
/-- The tag of a management request (R18). -/
abbrev Tag := BitVec 16
/-- A transaction number 0..4095 (R140). -/
abbrev Txn := BitVec 12
/-- A VOX sequence number (R89). -/
abbrev Seq := BitVec 8

/-- Cell port number 0..3. -/
abbrev PortIx := Fin 4
/-- Port number as counted by R186: 0..3 the cell ports, 4 the trunk. -/
abbrev LinkIx := Fin 5
/-- Global cell index 0..63. -/
abbrev CellIx := Fin 64
/-- Trunk channel 0..127, also the context index. -/
abbrev Channel := Fin 128
/-- Registry record index 0..1023. -/
abbrev RecIx := Fin 1024
/-- Zone number 0..15. -/
abbrev ZoneIx := Fin 16
/-- Gate number 0..31. -/
abbrev GateIx := Fin 32
/-- Enrolment filter number 0..7. -/
abbrev FilterIx := Fin 8
/-- Page entry number 0..15. -/
abbrev PageIx := Fin 16
/-- Clearance 0..3, a lower number more trusted. -/
abbrev Clearance := Fin 4
/-- Handset group 0..31. -/
abbrev Group := Fin 32
/-- Reported quality 0..63. -/
abbrev Quality := Fin 64
/-- Radio slot 0..11. -/
abbrev Slot := Fin 12
/-- Call priority or downlink control priority 0..3. -/
abbrev Priority := Fin 4

/-- A counter that has reached its last value stays there (R17). -/
def Count.bump (c : Count) : Count := if c = BitVec.allOnes 32 then c else c + 1

end Sys2Proof
end

