-- ==== Sys2Proof/Config.lean ====
section
/-! DEFINITION. What the part fixes (capacities and thresholds) and the free value of a result code. The free values of
sent frames are functions of State's types and stand in Machine/Frames.lean; the device's own CONFIG table (R184) is state. -/

namespace Sys2Proof

/-- Capacity of the handover request queue (R113). -/
abbrev Config.hrqCapacity : Nat := 32
/-- Capacity of the pending-answer list (R139). -/
abbrev Config.answerCapacity : Nat := 64
/-- Capacity of the notice queue (R36). -/
abbrev Config.noticeCapacity : Nat := 64
/-- Capacity of a control queue (R148). -/
abbrev Config.controlCapacity : Nat := 24
/-- Capacity of a close set (R151). -/
abbrev Config.closeCapacity : Nat := 256
/-- Capacity of a cell port's voice lane (R11). -/
abbrev Config.laneCapacity : Nat := 8
/-- Capacity of the trunk voice lane (R12). -/
abbrev Config.trunkVoiceCapacity : Nat := 32
/-- Capacity of the trunk reply queue (R13). -/
abbrev Config.replyCapacity : Nat := 256
/-- Capacity of the management input queue (R14). -/
abbrev Config.mgmtCapacity : Nat := 4
/-- Contexts that may be in execution at once (R117). -/
abbrev Config.inExecutionLimit : Nat := 16
/-- Capacity of a candidate list (R100). -/
abbrev Config.candidateCapacity : Nat := 4
/-- Neighbours of a cell, at most (R58). -/
abbrev Config.neighbourCapacity : Nat := 8
/-- First visitor record (R19): records 0..895 are subscribers. -/
abbrev Config.firstVisitor : Nat := 896
/-- Pairs of a MEAS-REP that the evaluator receives, at most (R8). -/
abbrev Config.pairLimit : Nat := 6

/-- Thresholds of HRQ_HIGH (R157). -/
abbrev Config.hrqOn : Nat := 24
abbrev Config.hrqOff : Nat := 16
/-- Thresholds of TXN_HIGH (R157). -/
abbrev Config.txnOn : Nat := 56
abbrev Config.txnOff : Nat := 48
/-- Thresholds of NOTICE_FULL (R157). -/
abbrev Config.noticeOn : Nat := 64
abbrev Config.noticeOff : Nat := 56

/-- A bound on the tries of one chain of rescues (R122, R133, R150), DEDUCED, log 18: each try removes a candidate from
one of 128 lists of at most 4 entries, or evicts one of at most 96 queued LEG-OPENs. -/
abbrev Config.rescueFuel : Nat := 1024
/-- A bound on the takes that follow one event (R117), DEDUCED, log 18: a take removes one of at most 32 requests, and
at most 128 contexts can wait for room. -/
abbrev Config.takeFuel : Nat := 256

/-- FREE VALUE (log 15): the result code of a FIELD-MODIFY that names a field number its table does not have. R182
numbers the fields and states no result for another number. Arguments: the table's position in R181's list, the number. -/
opaque Config.unknownFieldResult : Nat → Nat → Byte

end Sys2Proof
end

