-- ==== Sys2Proof/Syntax.lean ====
section
/-! DEFINITION. The commands of the Cimbrel CM-4410: one constructor for each row of spec/opcode_table.json. A frame's
fields are carried as the bytes it holds, so that the range checks of R7 belong to the machine; table indices and
written values are naturals, so that BAD_INDEX and BAD_VALUE do too. -/

namespace Sys2Proof

/-- The tables and views a management request may name (R181). `unknown` stands for any other table code. -/
inductive TableId where
  | subscriber | cell | neighbours | zone | gate | filter | config | registry | context | cellState
  | unknown
deriving DecidableEq, Repr

/-- The kinds of a zone (R41). -/
inductive ZoneKind where
  | openZone | gated | closed
deriving DecidableEq, Repr

/-- The modes of a gate (R42). -/
inductive GateMode where
  | any | inCallOnly
deriving DecidableEq, Repr

/-- The sync policy of CONFIG (R144). -/
inductive SyncPolicy where
  | discard | fail
deriving DecidableEq, Repr

/-- A gate's group as written (R42): any-group, or a number that the write judges. -/
inductive GroupOperand where
  | any
  | num (n : Nat)
deriving DecidableEq, Repr

/-- The kinds of a sweep as SWEEP-START carries them (R174). `other` is a kind that is not listed. -/
inductive SweepOperand where
  | revalidate | expireVisitors | purgeGroup | other
deriving DecidableEq, Repr

/-- Four flags, one for each hold source, in the order of R157 and R158. Each is set or clear: DESIGN CHOICE (log 34). -/
structure SourceSet where
  hrqHigh : Bool
  txnHigh : Bool
  noticeFull : Bool
  management : Bool
deriving DecidableEq, Repr

/-- The fields of a CELL write (R56), in the order of R182. Present and resume are yes or no: DESIGN CHOICE (log 34). -/
structure CellWrite where
  present : Bool
  zone : Nat
  capacity : Nat
  guard : Nat
  upper : Nat
  lower : Nat
  hysteresis : Nat
  floor : Nat
  shift : Nat
  dwell : Nat
  resume : Bool
deriving DecidableEq, Repr

/-- One entry of a NEIGHBOURS write (R58), before it is judged. -/
structure NeighbourWrite where
  cell : Nat
  margin : Int
deriving DecidableEq, Repr

/-- The items of a CONFIG write (R184). `sync = none` is a policy that is not listed. -/
structure ConfigWrite where
  presencePeriod : Nat
  deferBackoff : Nat
  legTime : Nat
  bridgeTime : Nat
  settleInterval : Nat
  retryInterval : Nat
  rescueLimit : Nat
  pageInterval : Nat
  drainTime : Nat
  restartTime : Nat
  sync : Option SyncPolicy
deriving DecidableEq, Repr

/-- What a TABLE-WRITE carries: every field of one entry (R182). An enumerated field that holds none of the listed
values is `none`. A field that is yes or no is a Bool, so that a coding which is neither, and which R183 would refuse for a
FILTER's enabled, is not carried: DESIGN CHOICE (log 34). `misfit` names a table whose entry the operands do not form, a
read-only view, or no table. -/
inductive TableEntry where
  | subscriber (hid : Hid) (clearance group : Nat)
  | filter (enabled : Bool) (mask value : Hid) (clearance group : Nat)
  | cell (w : CellWrite)
  | neighbours (list : List NeighbourWrite)
  | zone (present : Bool) (kind : Option ZoneKind) (level : Nat)
  | gate (present : Bool) (zone : Nat) (group : GroupOperand) (level : Nat) (mode : Option GateMode)
  | config (w : ConfigWrite)
  | misfit (table : TableId)
deriving DecidableEq, Repr

/-- One field of a CELL record (R182). Present and resume are yes or no: DESIGN CHOICE (log 34). -/
inductive CellField where
  | present (b : Bool)
  | zone (n : Nat)
  | capacity (n : Nat)
  | guard (n : Nat)
  | upper (n : Nat)
  | lower (n : Nat)
  | hysteresis (n : Nat)
  | floor (n : Nat)
  | shift (n : Nat)
  | dwell (n : Nat)
  | resume (b : Bool)
deriving DecidableEq, Repr

/-- One item of CONFIG (R184). -/
inductive ConfigField where
  | presencePeriod (n : Nat)
  | deferBackoff (n : Nat)
  | legTime (n : Nat)
  | bridgeTime (n : Nat)
  | settleInterval (n : Nat)
  | retryInterval (n : Nat)
  | rescueLimit (n : Nat)
  | pageInterval (n : Nat)
  | drainTime (n : Nat)
  | restartTime (n : Nat)
  | sync (p : Option SyncPolicy)
deriving DecidableEq, Repr

/-- What a FIELD-MODIFY writes: one numbered field of one table (R182). `other` is a table that has no such field:
NEIGHBOURS, a view, an unknown table, or a number outside the table's list. A field that is yes or no is a Bool: DESIGN
CHOICE (log 34). -/
inductive FieldWrite where
  | subscriberHid (h : Hid)
  | subscriberClearance (n : Nat)
  | subscriberGroup (n : Nat)
  | filterEnabled (b : Bool)
  | filterMask (m : Hid)
  | filterValue (v : Hid)
  | filterClearance (n : Nat)
  | filterGroup (n : Nat)
  | cell (f : CellField)
  | zonePresent (b : Bool)
  | zoneKind (k : Option ZoneKind)
  | zoneLevel (n : Nat)
  | gatePresent (b : Bool)
  | gateZone (n : Nat)
  | gateGroup (g : GroupOperand)
  | gateLevel (n : Nat)
  | gateMode (m : Option GateMode)
  | config (f : ConfigField)
  | other (table : TableId) (field : Nat)
deriving DecidableEq, Repr

/-- The commands. Rows of the opcode table in its order. The clear option of COUNTERS_READ is set or clear: DESIGN CHOICE
(log 34). -/
inductive Instr where
  -- resets and lines (R1 to R4)
  | powerOnReset
  | cellPortLineUp (p : PortIx)
  | cellPortLineDown (p : PortIx)
  | trunkLineUp
  | trunkLineDown
  -- frames from the radio head of cell `c` (R7, R9)
  | attachReq (c : CellIx) (hid : Hid) (claimed q : Byte)
  | detachInd (c : CellIx) (hid : Hid)
  | presence (c : CellIx) (hid : Hid) (q : Byte)
  | callReq (c : CellIx) (hid : Hid)
  | measRep (c : CellIx) (hid : Hid) (channel qs : Byte) (pairs : List (Byte × Byte))
  | legAck (c : CellIx) (txn : BitVec 16) (channel outcome arg : Byte)
  | legLost (c : CellIx) (channel cause : Byte)
  | pageRsp (c : CellIx) (hid : Hid) (q : Byte)
  | voxUplink (c : CellIx) (channel seq : Byte) (payload : List Byte)
  -- frames from the call server (R7, R9)
  | voxDownlink (channel seq : Byte) (payload : List Byte)
  | callOpen (channel : Byte) (hid : Hid) (priority : Byte)
  | callClear (channel : Byte)
  | pageReq (hid : Hid) (attempts : Byte)
  | mgmtReq (tag : Tag) (op : Byte) (operands : List Byte)
  -- execution of a management request (R180, R181)
  | badOperation (tag : Tag)
  | readCaps (tag : Tag)
  | tableWrite (tag : Tag) (index : Nat) (entry : TableEntry)
  | tableRead (tag : Tag) (table : TableId) (index : Nat)
  | fieldModify (tag : Tag) (index : Nat) (field : FieldWrite)
  | tableClear (tag : Tag) (table : TableId) (index : Nat)
  | cellEnable (tag : Tag) (cell : Nat)
  | cellDisable (tag : Tag) (cell : Nat)
  | cellDrain (tag : Tag) (cell : Nat)
  | cellRestart (tag : Tag) (cell : Nat)
  | holdSet (tag : Tag)
  | holdClear (tag : Tag)
  | holdEnable (tag : Tag) (enables : SourceSet)
  | holdStatus (tag : Tag) (clear : SourceSet)
  | sweepStart (tag : Tag) (kind : SweepOperand) (group : Nat)
  | sweepSuspend (tag : Tag)
  | sweepResume (tag : Tag)
  | sweepAbort (tag : Tag)
  | sweepStatus (tag : Tag)
  | evict (tag : Tag) (hid : Hid)
  | countersRead (tag : Tag) (group : Nat) (clear : Bool)
  | restart (tag : Tag)
  -- deadlines (R16)
  | presenceDeadlineExpiry (i : RecIx)
  | guardDeadlineExpiry (x : Channel)
  | bridgeDeadlineExpiry (x : Channel)
  | rescueDeadlineExpiry (x : Channel)
  | pendingDeadlineExpiry (t : Txn)
  | drainDeadlineExpiry (c : CellIx)
  | restartDeadlineExpiry (c : CellIx)
  | pageOccasion (e : PageIx)
  -- the part's own events
  | cellPortTransmitComplete (p : PortIx)
  | trunkTransmitComplete
  | sweepStep
  | hrqTake
  | waitingForRoomPost
  | noticeRefill
  -- a received frame, as the bytes of the line (R6)
  | receivedFrameDiscarded (link : LinkIx) (bytes : List Byte)
deriving DecidableEq, Repr

end Sys2Proof
end

