-- ==== Sys2Proof/Decode.lean ====
section
/-! DEFINITION. The decoder of command words. Every row of spec/opcode_table.json has an empty list of bit fields, so no
word spells a command (log 20). The bytes of received frames are read by Machine/Frames.lean (R6, R18). -/

namespace Sys2Proof

/-- The command that a word spells by the table's bits: the table gives no row any bits. -/
def decodeTableWord (_nbits _w : Nat) : Option Instr := none

end Sys2Proof
end

