-- ==== Sys2Proof/Machine/Table.lean ====
section
/-! DEFINITION. Indexed tables of records as plain data: a list of (index, value) in one canonical form (indices
strictly rising, no value equal to the table's blank value). An unlisted index holds the blank value. -/

namespace Sys2Proof.Machine

/-- A table of `n` records. -/
structure Table (n : Nat) (α : Type) where
  entries : List (Fin n × α)
deriving DecidableEq, Repr

/-- The table in which every index holds the blank value. -/
def Table.empty (n : Nat) (α : Type) : Table n α := ⟨[]⟩

/-- The first value listed for an index. -/
def lookupIx {n : Nat} {α : Type} (i : Fin n) : List (Fin n × α) → Option α
  | [] => none
  | e :: es => if e.1 = i then some e.2 else lookupIx i es

/-- Puts an entry before the first entry of a higher index. -/
def insertIx {n : Nat} {α : Type} (i : Fin n) (v : α) : List (Fin n × α) → List (Fin n × α)
  | [] => [(i, v)]
  | e :: es => if i < e.1 then (i, v) :: e :: es else e :: insertIx i v es

/-- The value of index `i`, where `d` is the table's blank value. -/
def Table.get {n : Nat} {α : Type} (d : α) (t : Table n α) (i : Fin n) : α :=
  (lookupIx i t.entries).getD d

/-- Writes index `i`; writing the value it holds changes nothing, and writing the blank value removes the entry. -/
def Table.set {n : Nat} {α : Type} [DecidableEq α] (d : α) (t : Table n α) (i : Fin n) (v : α) : Table n α :=
  let others := t.entries.filter fun e => !decide (e.1 = i)
  if t.get d i = v then t else ⟨if v = d then others else insertIx i v others⟩

/-- The lowest index whose value satisfies `p`, among those that are listed. -/
def Table.find {n : Nat} {α : Type} (d : α) (t : Table n α) (p : Fin n → α → Bool) : Option (Fin n) :=
  (t.entries.map (·.1)).find? fun i => p i (t.get d i)

/-- How many listed indices hold a value that satisfies `p`. -/
def Table.count {n : Nat} {α : Type} (d : α) (t : Table n α) (p : α → Bool) : Nat :=
  (t.entries.map (·.1)).countP fun i => p (t.get d i)

/-- Rewrites every listed value. `f` keeps the blank value blank. -/
def Table.update {n : Nat} {α : Type} [DecidableEq α] (d : α) (t : Table n α) (f : Fin n → α → α) : Table n α :=
  (t.entries.map (·.1)).foldl (fun u i => u.set d i (f i (u.get d i))) t

/-- The canonical form, as a Boolean: indices strictly rising and no blank value listed. -/
def canonical {n : Nat} {α : Type} [DecidableEq α] (d : α) : List (Fin n × α) → Bool
  | [] => true
  | [e] => decide (e.2 ≠ d)
  | e :: f :: es => decide (e.2 ≠ d) && decide (e.1 < f.1) && canonical d (f :: es)

/-- The table is in canonical form. -/
def Table.wf {n : Nat} {α : Type} [DecidableEq α] (d : α) (t : Table n α) : Bool := canonical d t.entries

/-- The indices `k, k+1, …, n-1` as a list. -/
def indicesFrom (n : Nat) : Nat → List (Fin n)
  | 0 => []
  | k + 1 => if h : n - (k + 1) < n then ⟨n - (k + 1), h⟩ :: indicesFrom n k else []

/-- All indices, ascending. -/
def allIndices (n : Nat) : List (Fin n) := indicesFrom n n

end Sys2Proof.Machine
end

