-- ==== Sys2Proof/Machine/State.lean ====
section
/-! DEFINITION. The state of the Cimbrel CM-4410 as plain data, its value after power-on reset, and the reasons a step
could stop. A field the manual marks "present only when" is carried by the constructor of the state that has it. -/

namespace Sys2Proof.Machine

/-! ### Answers and refusals shared by the blocks -/

/-- The refusal codes of R53. -/
inductive DenialCode where
  | cellUnknown | cellUnavailable | zoneAbsent | zoneClosed | clearance | gateMiss | gateMode
  | unknownHandset | poolFull | notAttached | handsetBusy | cellFull | hold | noTransaction
deriving DecidableEq, Repr

/-- The table an index names (R45). -/
inductive IndexKind where
  | cell | zone | gate | none
deriving DecidableEq, Repr

/-- A refusal: code, index 0..63 and index kind together (R45, R54). -/
structure Denial where
  code : DenialCode
  index : Nat
  kind : IndexKind
deriving DecidableEq, Repr

/-- The result an ATTACH-ACK carries (R27). -/
inductive AttachResult where
  | accepted
  | defer (seconds : Nat)
  | refused (d : Denial)
  | revoked (d : Denial)
deriving DecidableEq, Repr

/-- The code a CALL-REQ-REJ carries (R81). -/
inductive CallReject where
  | denied (d : Denial)
  | busy
deriving DecidableEq, Repr

/-- The causes a LEG_FAILED answer can carry, and TIMEOUT (R80, R145, R146). -/
inductive FailCause where
  | noSlot | noHandset | radioFault | sync | timeout | linkDown | queueFull | legLost | cellDisabled | cellDrained
deriving DecidableEq, Repr

/-- The results of a CALL-ACK (R80, table). -/
inductive CallResult where
  | connected
  | channelBusy
  | denied (d : Denial)
  | legFailed (c : FailCause)
  | legTimeout
  | cleared
  | notOpen
deriving DecidableEq, Repr

/-- The causes of a drop (R84). -/
inductive DropCause where
  | radioLost | rescueFailed | rescueTimeout | handsetDetached | handsetReattached | cellDrained | cellDisabled
  | linkDown
deriving DecidableEq, Repr

/-- The causes of a cell loss (R70). -/
inductive LossCause where
  | cellDisabled | cellDrained | linkDown
deriving DecidableEq, Repr

/-! ### Registry (R19) -/

/-- What a record holds of a handset that is not ABSENT. -/
structure Attachment where
  claimed : Clearance
  cell : CellIx
  quality : Quality
deriving DecidableEq, Repr

/-- The location state, with the fields it has (R19). -/
inductive Location where
  | absent
  | attached (a : Attachment) (deadline : Time)
  | engaged (a : Attachment) (x : Channel)
deriving DecidableEq, Repr

/-- The fields of a present record. `filterHit` is a visitor's. -/
structure Enrolled where
  hid : Hid
  clearance : Clearance
  group : Group
  filterHit : Option FilterIx
  loc : Location
deriving DecidableEq, Repr

/-- Whether a record is present; a HID may be kept after it stops being present (R21). -/
inductive Holder where
  | empty
  | kept (hid : Hid)
  | present (e : Enrolled)
deriving DecidableEq, Repr

/-- A registry record (R19). -/
structure Record where
  holder : Holder
  lastChange : Time
  dirty : Bool
  queued : Bool
deriving DecidableEq, Repr

/-- A record after power-on reset (R20). `lastChange` is the model's, DESIGN CHOICE (log 12), unsafe. -/
def Record.blank : Record := ⟨.empty, 0, false, false⟩

/-- An enrolment filter (R22). -/
structure Filter where
  enabled : Bool
  mask : Hid
  value : Hid
  clearance : Clearance
  group : Group
deriving DecidableEq, Repr

def Filter.blank : Filter := ⟨false, 0, 0, 0, 0⟩

/-! ### Access checker (R41, R42) -/

structure Zone where
  present : Bool
  kind : ZoneKind
  level : Clearance
deriving DecidableEq, Repr

def Zone.blank : Zone := ⟨false, .openZone, 0⟩

/-- The group a gate serves; `any` is any-group. -/
inductive GateGroup where
  | any
  | only (g : Group)
deriving DecidableEq, Repr

structure Gate where
  present : Bool
  zone : ZoneIx
  group : GateGroup
  level : Clearance
  mode : GateMode
deriving DecidableEq, Repr

def Gate.blank : Gate := ⟨false, 0, .only 0, 0, .any⟩

/-! ### Cell table (R55) -/

/-- The state a cell enters when its drain ends (R67). -/
inductive FollowOn where
  | outOfService | restarting
deriving DecidableEq, Repr

/-- The service state with the deadline it holds (R55, R64). -/
inductive Service where
  | outOfService
  | inService
  | draining (next : FollowOn) (deadline : Time)
  | restarting (deadline : Time)
deriving DecidableEq, Repr

/-- A neighbour list entry (R58): margin in whole units, −8..+15. -/
structure Neighbour where
  cell : CellIx
  margin : Int
deriving DecidableEq, Repr

structure CellRec where
  present : Bool
  zone : ZoneIx
  capacity : Nat
  guard : Nat
  upper : Nat
  lower : Nat
  hysteresis : Nat
  floor : Nat
  shift : Nat
  dwell : Nat
  resume : Bool
  neighbours : List Neighbour
  service : Service
  occupancy : Nat
  congested : Bool
deriving DecidableEq, Repr

/-- The power-on value of every cell record (R55). -/
def CellRec.blank : CellRec :=
  { present := false, zone := 0, capacity := 12, guard := 1, upper := 10, lower := 8, hysteresis := 3, floor := 12,
    shift := 2, dwell := 2, resume := false, neighbours := [], service := .outOfService, occupancy := 0,
    congested := false }

/-! ### Call contexts (R74, R100, R113, R123) -/

/-- A leg: cell and radio slot. -/
structure Leg where
  cell : CellIx
  slot : Slot
deriving DecidableEq, Repr

/-- The kinds of a handover request (R113). -/
inductive ReqKind where
  | rescue | drain | quality | relief
deriving DecidableEq, Repr

/-- The role a LEG-OPEN carries (R78, R120). -/
inductive Role where
  | initial | handover | rescue
deriving DecidableEq, Repr

/-- A context's target (R123), less its transaction or slot. -/
structure Target where
  cell : CellIx
  role : Role
  kind : ReqKind
deriving DecidableEq, Repr

/-- The state of a context that is not IDLE, with the fields it has (R74, R75). -/
inductive Phase where
  | opening (cell : CellIx) (txn : Txn)
  | active (serving : Leg) (guard : Option Time)
  | preparing (serving : Leg) (guard : Option Time) (target : Target) (txn : Txn)
  | bridging (serving : Leg) (guard : Option Time) (target : Target) (slot : Slot) (deadline : Time)
  | rescuing (attempt : Option (Target × Txn)) (deadline : Time)
deriving DecidableEq, Repr

/-- A candidate list entry (R100). -/
structure Candidate where
  cell : CellIx
  f : Nat
  dwell : Nat
  miss : Nat
deriving DecidableEq, Repr

/-- A context that is not IDLE (R74). An IDLE context is `none` in the context table. -/
structure Call where
  handset : RecIx
  priority : Priority
  phase : Phase
  fs : Nat
  candidates : List Candidate
  posted : Bool
  nextSeq : Option Seq
  staleRun : Nat
  handovers : Count
  lossCause : Option Byte
deriving DecidableEq, Repr

/-- A waiting handover request (R113). -/
structure Request where
  channel : Channel
  target : CellIx
  kind : ReqKind
  posted : Time
deriving DecidableEq, Repr

/-- The handover request queue: its two classes, each oldest first (R113). -/
structure Hrq where
  urgent : List Request
  normal : List Request
deriving DecidableEq, Repr

/-- An entry of the pending-answer list (R139). -/
structure Answer where
  txn : Txn
  channel : Channel
  cell : CellIx
  deadline : Time
  cancelled : Bool
deriving DecidableEq, Repr

/-! ### Frames toward the radio heads (R148, R152) -/

/-- A control frame with its destination cell. Priority, owner and transaction are fixed by the frame (R148). -/
inductive CtlFrame where
  | hoCmd (dest : CellIx) (txn : Txn) (x : Channel) (hid : Hid) (target : CellIx) (slot : Slot)
  | legOpen (dest : CellIx) (txn : Txn) (x : Channel) (hid : Hid) (role : Role)
  | cellRestart (dest : CellIx)
  | legCloseAll (dest : CellIx)
  | attachAck (dest : CellIx) (hid : Hid) (result : AttachResult)
  | callReqRej (dest : CellIx) (hid : Hid) (code : CallReject)
  | page (dest : CellIx) (hid : Hid)
deriving DecidableEq, Repr

/-- A VOX frame's channel, sequence and payload (R18). -/
structure Vox where
  channel : Channel
  seq : Seq
  payload : List Byte
deriving DecidableEq, Repr

/-- A frame in transmission on a cell port. A LEG-CLOSE is formed from a close-set pair as it is taken (R152). -/
inductive CellTx where
  | vox (dest : CellIx) (v : Vox)
  | control (f : CtlFrame)
  | legClose (dest : CellIx) (x : Channel)
deriving DecidableEq, Repr

inductive Link where
  | down | up
deriving DecidableEq, Repr

/-- A cell port (R1, R10, R11, R148, R151). -/
structure CellPort where
  link : Link
  lane : List (CellIx × Vox)
  ctl : List CtlFrame
  closes : List (CellIx × Channel)
  tx : Option CellTx
deriving DecidableEq, Repr

def CellPort.blank : CellPort := ⟨.down, [], [], [], none⟩

/-- Port counters (R17). The trunk has no unknown-cell counter; its field stays 0. -/
structure PortCounters where
  received : Count
  checkFailures : Count
  malformed : Count
  unknownCell : Count
  strayVoice : Count
deriving DecidableEq, Repr

def PortCounters.blank : PortCounters := ⟨0, 0, 0, 0, 0⟩

/-! ### Hold, pages, sweep, CONFIG, counters -/

/-- A hold source (R157 to R160). -/
structure Source where
  raw : Bool
  enable : Bool
  sticky : Bool
deriving DecidableEq, Repr

structure Hold where
  hrqHigh : Source
  txnHigh : Source
  noticeFull : Source
  management : Source
deriving DecidableEq, Repr

/-- The outcomes of a page (R171). -/
inductive PageOutcome where
  | found (c : CellIx)
  | refused (d : Denial)
  | noAnswer
  | busy
  | notAttached
  | listFull
deriving DecidableEq, Repr

/-- The state of a page entry in use (R164). -/
inductive PageStatus where
  | paging (attempts : Nat) (next : Time)
  | settled (outcome : PageOutcome) (queued : Bool)
deriving DecidableEq, Repr

structure PageEntry where
  hid : Hid
  record : RecIx
  cells : List CellIx
  repeatFlag : Bool
  status : PageStatus
deriving DecidableEq, Repr

/-- A waiting notice (R36, R38, R171). -/
inductive Notice where
  | location (i : RecIx)
  | callReq (hid : Hid) (i : RecIx) (c : CellIx)
  | pageOutcome (e : PageIx)
  | immediate (hid : Hid) (outcome : PageOutcome)
deriving DecidableEq, Repr

/-- What a LOCATION notice says of where a handset is (R37). -/
inductive LocationReport where
  | removed
  | absent
  | attached (c : CellIx)
  | engaged (c : CellIx) (x : Channel)
deriving DecidableEq, Repr

/-- The content of a NOTICE frame as it is built (R37, R38, R171). -/
inductive NoticeBody where
  | location (i : RecIx) (hid : Option Hid) (report : LocationReport) (lastChange : Time)
  | callReq (hid : Hid) (i : RecIx) (c : CellIx)
  | pageOutcome (hid : Hid) (entry : Option PageIx) (outcome : Option PageOutcome) (repeatFlag : Bool)
deriving DecidableEq, Repr

inductive SweepKind where
  | revalidate
  | expireVisitors
  | purgeGroup (g : Group)
deriving DecidableEq, Repr

/-- The state of the sweep engine; `suspended true` is marked as suspended by the hold (R173). -/
inductive SweepState where
  | idle
  | running
  | suspended (byHold : Bool)
deriving DecidableEq, Repr

inductive SweepEnd where
  | none | completed | aborted
deriving DecidableEq, Repr

structure Sweep where
  state : SweepState
  kind : Option SweepKind
  cursor : Nat
  changed : Nat
  lastEnd : SweepEnd
deriving DecidableEq, Repr

/-- The CONFIG table (R184), each item in the unit its row names. -/
structure ConfigTable where
  presencePeriod : Nat
  deferBackoff : Nat
  legTime : Nat
  bridgeTime : Nat
  settleInterval : Nat
  retryInterval : Nat
  rescueLimit : Nat
  pageInterval : Nat
  drainTime : Nat
  restartTime : Nat
  sync : SyncPolicy
deriving DecidableEq, Repr

/-- The defaults of R184. -/
def ConfigTable.default : ConfigTable :=
  { presencePeriod := 20, deferBackoff := 5, legTime := 400, bridgeTime := 200, settleInterval := 30,
    retryInterval := 10, rescueLimit := 1500, pageInterval := 640, drainTime := 30, restartTime := 10,
    sync := .discard }

/-- Handovers committed, by kind (R138). -/
structure KindCounts where
  rescue : Count
  drain : Count
  quality : Count
  relief : Count
deriving DecidableEq, Repr

/-- The codes of the handover refusal counter (R138). -/
inductive HoCode where
  | hold | cellUnknown | cellUnavailable | zoneAbsent | zoneClosed | clearance | gateMiss | gateMode | cellFull
  | noTransaction | queueFull
deriving DecidableEq, Repr

/-- Handover refusals, by code (R138). -/
structure HoCounts where
  hold : Count
  cellUnknown : Count
  cellUnavailable : Count
  zoneAbsent : Count
  zoneClosed : Count
  clearance : Count
  gateMiss : Count
  gateMode : Count
  cellFull : Count
  noTransaction : Count
  queueFull : Count
deriving DecidableEq, Repr

/-- Drops, by cause (R84). -/
structure DropCounts where
  radioLost : Count
  rescueFailed : Count
  rescueTimeout : Count
  handsetDetached : Count
  handsetReattached : Count
  cellDrained : Count
  cellDisabled : Count
  linkDown : Count
deriving DecidableEq, Repr

/-- The device counters (R186). -/
structure DeviceCounters where
  committed : KindCounts
  refusals : HoCounts
  fallbacks : Count
  rescuesSucceeded : Count
  drops : DropCounts
  legsLost : Count
  syncErrors : Count
  strayAnswers : Count
  untimelyReports : Count
  replyOverflow : Count
  pageOutcomesLost : Count
deriving DecidableEq, Repr

def DeviceCounters.blank : DeviceCounters :=
  { committed := ⟨0, 0, 0, 0⟩, refusals := ⟨0, 0, 0, 0, 0, 0, 0, 0, 0, 0, 0⟩, fallbacks := 0, rescuesSucceeded := 0,
    drops := ⟨0, 0, 0, 0, 0, 0, 0, 0⟩, legsLost := 0, syncErrors := 0, strayAnswers := 0, untimelyReports := 0,
    replyOverflow := 0, pageOutcomesLost := 0 }

/-! ### Management answers (R181) -/

/-- The service states as a management answer names them. -/
inductive ServiceName where
  | outOfService | inService | draining | restarting
deriving DecidableEq, Repr

/-- The CELL-STATE view (R73). -/
structure CellStateView where
  present : Bool
  service : ServiceName
  followOn : Option FollowOn
  deadline : Option Time
  occupancy : Nat
  congested : Bool
  link : Link
deriving DecidableEq, Repr

/-- The hold status record (R160). -/
structure HoldStatus where
  sources : Hold
  active : Bool
deriving DecidableEq, Repr

/-- The sweep status record (R178). -/
structure SweepStatus where
  sweep : Sweep
  locked : Bool
deriving DecidableEq, Repr

/-- The capability record (R185). -/
structure Capabilities where
  formatVersion : Nat
  partCode : Nat
  revision : Nat
  cells : Nat
  cellPorts : Nat
  slotsPerCell : Nat
  subscribers : Nat
  visitors : Nat
  contexts : Nat
  candidates : Nat
  neighbours : Nat
  zones : Nat
  gates : Nat
  filters : Nat
  hrq : Nat
  pendingAnswers : Nat
  controlQueue : Nat
  closeSet : Nat
  pageList : Nat
  noticeQueue : Nat
  inExecution : Nat
deriving DecidableEq, Repr

/-- The result codes of R181. `unstated` carries the free value of log 15. -/
inductive MgmtResult where
  | ok | okClamped | badOperation | badTable | badIndex | badValue | duplicate | inUse | structural | wrongState
  | linkDown | sweepActive | sweepLocked | hold | busy
  | unstated (code : Byte)
deriving DecidableEq, Repr

/-- The data of a MGMT-RSP, by operation and result (R181 to R186). -/
inductive RspData where
  | none
  | field (n : Nat)
  | recordIndex (i : RecIx)
  | caps (c : Capabilities)
  | subscriber (e : Option (Hid × Clearance × Group))
  | filter (f : Filter)
  | cell (w : CellWrite)
  | neighbours (l : List Neighbour)
  | zone (z : Zone)
  | gate (g : Gate)
  | config (c : ConfigTable)
  | registry (r : Record)
  | context (c : Option Call) (waiting : Option Request)
  | cellState (v : CellStateView)
  | service (s : ServiceName)
  | hold (h : HoldStatus)
  | sweep (s : SweepStatus)
  | portCounters (c : PortCounters)
  | trunkCounters (received checkFailures malformed strayVoice : Count)
  | deviceCounters (d : DeviceCounters)
  /-- The data of a result that is not stated (log 15). -/
  | unstated
deriving DecidableEq, Repr

/-- The result and data of one response. -/
structure MgmtAnswer where
  result : MgmtResult
  data : RspData
deriving DecidableEq, Repr

/-! ### Trunk port (R4, R12, R13, R14) -/

/-- A frame of the trunk reply queue (R13). -/
inductive Reply where
  | callAck (x : Channel) (r : CallResult)
  | callDrop (x : Channel) (c : DropCause)
  | mgmtRsp (tag : Tag) (a : MgmtAnswer)
deriving DecidableEq, Repr

/-- A frame in transmission on the trunk. A notice carries the time it was built (R37). -/
inductive TrunkTx where
  | vox (v : Vox)
  | reply (r : Reply)
  | notice (b : NoticeBody) (builtAt : Time)
deriving DecidableEq, Repr

/-- A stored MGMT-REQ, with its operands as received (R14, R18). -/
structure MgmtFrame where
  tag : Tag
  op : Byte
  operands : List Byte
deriving DecidableEq, Repr

structure Trunk where
  link : Link
  voice : List Vox
  replies : List Reply
  tx : Option TrunkTx
  mgmtIn : List MgmtFrame
deriving DecidableEq, Repr

def Trunk.blank : Trunk := ⟨.down, [], [], none, []⟩

/-! ### The machine -/

/-- The whole state. `mgmtMuted` says that the trunk went DOWN while the request in execution was in execution, so that its
response is discarded (R4). `pending` is the model's own: the commands that are waiting, first in first out. -/
structure State where
  now : Time
  ports : Table 4 CellPort
  counters : Table 5 PortCounters
  trunk : Trunk
  mgmtNow : Option MgmtFrame
  mgmtMuted : Bool
  records : Table 1024 Record
  filters : Table 8 Filter
  notices : List Notice
  zones : Table 16 Zone
  gates : Table 32 Gate
  cells : Table 64 CellRec
  calls : Table 128 (Option Call)
  hrq : Hrq
  answers : List Answer
  txnCounter : Txn
  hold : Hold
  pages : Table 16 (Option PageEntry)
  sweep : Sweep
  config : ConfigTable
  device : DeviceCounters
  pending : List Instr
deriving DecidableEq, Repr

/-- Reasons a step could fault. The spec gives every command an effect in every state, so no meaning raises one. -/
inductive Fault where
  /-- Raised by no command; safe (a fault only stops). -/
  | none
deriving DecidableEq, Repr

/-- Reasons a step could be refused. -/
inductive Refusal where
  /-- Raised by an arm of `exec` whose command has no meaning yet; none is left. Safe (it only stops). -/
  | notModelled (mnemonic : String)
deriving DecidableEq, Repr

/-- The hold after power-on reset (R163): raw states off, enables set, sticky flags clear. -/
def Hold.reset : Hold :=
  ⟨⟨false, true, false⟩, ⟨false, true, false⟩, ⟨false, true, false⟩, ⟨false, true, false⟩⟩

/-- The sweep engine after power-on reset (R179). -/
def Sweep.reset : Sweep := ⟨.idle, none, 0, 0, .none⟩

/-- The part after power-on reset: R1, R15, R17, R20, R22, R40, R41, R42, R55, R87, R113, R139, R140, R148, R151, R163,
R164, R179, R184. -/
def State.reset : State :=
  { now := 0
    ports := Table.empty 4 CellPort
    counters := Table.empty 5 PortCounters
    trunk := Trunk.blank
    mgmtNow := none
    mgmtMuted := false
    records := Table.empty 1024 Record
    filters := Table.empty 8 Filter
    notices := []
    zones := Table.empty 16 Zone
    gates := Table.empty 32 Gate
    cells := Table.empty 64 CellRec
    calls := Table.empty 128 (Option Call)
    hrq := ⟨[], []⟩
    answers := []
    txnCounter := 0
    hold := Hold.reset
    pages := Table.empty 16 (Option PageEntry)
    sweep := Sweep.reset
    config := ConfigTable.default
    device := DeviceCounters.blank
    pending := [] }

end Sys2Proof.Machine
end

