-- ==== Sys2Proof/Machine/Flags.lean ====
section
/-! DEFINITION. Flags with hysteresis and the tests on time: the congested flag (R59, R63), the hold sources (R157 to
R160), deadlines (R15) and the sequence order of voice (R89). -/

namespace Sys2Proof.Machine

/-- A deadline has passed when (now − deadline) mod 2^32 is less than 2^31 (R15). -/
def passed (now deadline : Time) : Bool := decide ((now - deadline).toNat < 2147483648)

/-- "Now + t", in milliseconds (R15). -/
def State.after (s : State) (ms : Nat) : Time := s.now + BitVec.ofNat 32 ms

/-- A sequence is at or after another when their difference mod 256 is below 128 (R89). -/
def atOrAfter (a b : Seq) : Bool := decide ((a - b).toNat < 128)

/-- The flag after a reserve that leaves occupancy `occ` (R63). -/
def congestedAfterReserve (r : CellRec) (occ : Nat) : Bool := r.congested || decide (r.upper ≤ occ)

/-- The flag after a release that leaves occupancy `occ` (R63). -/
def congestedAfterRelease (r : CellRec) (occ : Nat) : Bool := r.congested && !decide (occ ≤ r.lower)

/-- The flag judged against the watermarks as they stand (R59, R72). -/
def congestedJudged (r : CellRec) : Bool :=
  if r.upper ≤ r.occupancy then true else if r.occupancy ≤ r.lower then false else r.congested

/-- A source as its owner reports a fill (R157); turning on sets the sticky flag (R160). -/
def judgeSource (on off fill : Nat) (src : Source) : Source :=
  let raw := if src.raw then !decide (fill ≤ off) else decide (on ≤ fill)
  { src with raw := raw, sticky := src.sticky || (raw && !src.raw) }

/-- A source that is on and enabled (R159). -/
def Source.acts (src : Source) : Bool := src.raw && src.enable

/-- The combined hold (R159). -/
def Hold.active (h : Hold) : Bool := h.hrqHigh.acts || h.txnHigh.acts || h.noticeFull.acts || h.management.acts

/-- A sticky flag after a clear that names its source: it stays set while the raw state is on (R160). -/
def Source.clearSticky (named : Bool) (src : Source) : Source :=
  if named then { src with sticky := src.raw && src.sticky } else src

/-- A sweep is under way in SWEEP_RUNNING and SWEEP_SUSPENDED (R173). -/
def Sweep.underWay (w : Sweep) : Bool :=
  match w.state with
  | .idle => false
  | .running => true
  | .suspended _ => true

/-- The zone and gate write lock: set while a REVALIDATE sweep is under way (R177). -/
def Sweep.locked (w : Sweep) : Bool := w.underWay && decide (w.kind = some .revalidate)

end Sys2Proof.Machine
end

