-- ==== Sys2Proof/Machine/Operands.lean ====
section
/-! DEFINITION. The checked fields of received frames (R7) and the values a management write carries (R41, R42, R57,
R58, R183, R184), as tests that answer the value in its range. -/

namespace Sys2Proof.Machine

/-- A field in its range `0..n-1`. -/
def inRange (n v : Nat) : Option (Fin n) := if h : v < n then some ⟨v, h⟩ else none

/-- A byte in its range (R7). -/
def byteIn (n : Nat) (b : Byte) : Option (Fin n) := inRange n b.toNat

/-- The outcome of a LEG-ACK (R7, R18). -/
inductive AckOutcome where
  | ready (slot : Slot)
  | fail (cause : FailCause)
deriving DecidableEq, Repr

/-- Bytes 7 and 8 of a LEG-ACK (R18): 00h READY with a slot 0..11, 01h FAIL with cause 01h, 02h or 03h. -/
def ackOutcome (outcome arg : Byte) : Option AckOutcome :=
  if outcome = 0 then (byteIn 12 arg).map .ready
  else if outcome = 1 then
    if arg = 1 then some (.fail .noSlot)
    else if arg = 2 then some (.fail .noHandset)
    else if arg = 3 then some (.fail .radioFault)
    else none
  else none

/-- Bytes 4 and 5 of a LEG-ACK: the upper four bits must be zero (R18). -/
def ackTxn (t : BitVec 16) : Option Txn := if t.toNat < 4096 then some (BitVec.ofNat 12 t.toNat) else none

/-- The first six pairs of a MEAS-REP, each in range (R7, R8). -/
def pairsIn : List (Byte × Byte) → Option (List (CellIx × Quality))
  | [] => some []
  | p :: ps =>
    match byteIn 64 p.1, byteIn 64 p.2, pairsIn ps with
    | some c, some q, some rest => some ((c, q) :: rest)
    | _, _, _ => none

/-- A value clamped into a range (R57, R184). -/
def clampTo (lo hi v : Nat) : Nat := max lo (min v hi)

/-- A group as a gate holds it (R42). -/
def gateGroupIn : GroupOperand → Option GateGroup
  | .any => some .any
  | .num n => (inRange 32 n).map .only

/-- The number of the first entry of a NEIGHBOURS write that is refused (R58), counting from `n`; `seen` holds the cells
of the entries before it. A ninth entry is refused. -/
def firstBadNeighbour (owner : CellIx) : Nat → List Nat → List NeighbourWrite → Option Nat
  | _, _, [] => none
  | n, seen, e :: es =>
    if Config.neighbourCapacity < n ∨ 63 < e.cell ∨ e.margin < -8 ∨ 15 < e.margin ∨ e.cell = owner.val ∨ e.cell ∈ seen then
      some n
    else firstBadNeighbour owner (n + 1) (e.cell :: seen) es

/-- The entries of a NEIGHBOURS write that is taken. -/
def neighboursOf : List NeighbourWrite → List Neighbour
  | [] => []
  | e :: es =>
    match inRange 64 e.cell with
    | some c => ⟨c, e.margin⟩ :: neighboursOf es
    | none => neighboursOf es

/-- CONFIG as a write leaves it: every numeric item clamped into its range (R184). -/
def configClamped (w : ConfigTable) : ConfigTable :=
  { presencePeriod := clampTo 1 255 w.presencePeriod
    deferBackoff := clampTo 1 60 w.deferBackoff
    legTime := clampTo 50 2000 w.legTime
    bridgeTime := clampTo 20 1000 w.bridgeTime
    settleInterval := clampTo 0 255 w.settleInterval
    retryInterval := clampTo 0 255 w.retryInterval
    rescueLimit := clampTo 200 5000 w.rescueLimit
    pageInterval := clampTo 100 2000 w.pageInterval
    drainTime := clampTo 1 255 w.drainTime
    restartTime := clampTo 1 255 w.restartTime
    sync := w.sync }

end Sys2Proof.Machine
end

