-- ==== Sys2Proof/Machine/Ops.lean ====
section
/-! DEFINITION. The named operations over the tables, counters and queues of the part: each queue's append with its
limit, offers to control queues with eviction, close sets, withdrawal and cancellation, replies and notices. -/

namespace Sys2Proof.Machine

/-! ### Reading and writing tables -/

def State.port (s : State) (p : PortIx) : CellPort := s.ports.get CellPort.blank p
def State.setPort (s : State) (p : PortIx) (v : CellPort) : State :=
  { s with ports := s.ports.set CellPort.blank p v }

def State.counter (s : State) (l : LinkIx) : PortCounters := s.counters.get PortCounters.blank l
def State.setCounter (s : State) (l : LinkIx) (v : PortCounters) : State :=
  { s with counters := s.counters.set PortCounters.blank l v }

def State.record (s : State) (i : RecIx) : Record := s.records.get Record.blank i
def State.setRecord (s : State) (i : RecIx) (v : Record) : State :=
  { s with records := s.records.set Record.blank i v }

def State.filter (s : State) (f : FilterIx) : Filter := s.filters.get Filter.blank f
def State.setFilter (s : State) (f : FilterIx) (v : Filter) : State :=
  { s with filters := s.filters.set Filter.blank f v }

def State.zone (s : State) (z : ZoneIx) : Zone := s.zones.get Zone.blank z
def State.setZone (s : State) (z : ZoneIx) (v : Zone) : State := { s with zones := s.zones.set Zone.blank z v }

def State.gate (s : State) (g : GateIx) : Gate := s.gates.get Gate.blank g
def State.setGate (s : State) (g : GateIx) (v : Gate) : State := { s with gates := s.gates.set Gate.blank g v }

def State.cell (s : State) (c : CellIx) : CellRec := s.cells.get CellRec.blank c
def State.setCell (s : State) (c : CellIx) (v : CellRec) : State := { s with cells := s.cells.set CellRec.blank c v }

/-- The call of a channel; `none` is an IDLE context. -/
def State.call (s : State) (x : Channel) : Option Call := s.calls.get none x
def State.setCall (s : State) (x : Channel) (v : Option Call) : State := { s with calls := s.calls.set none x v }

/-- The page entry of a number; `none` is a free entry. -/
def State.page (s : State) (e : PageIx) : Option PageEntry := s.pages.get none e
def State.setPage (s : State) (e : PageIx) (v : Option PageEntry) : State := { s with pages := s.pages.set none e v }

/-- Rewrites the call of a channel that is not IDLE. -/
def State.modCall (s : State) (x : Channel) (f : Call → Call) : State := s.setCall x ((s.call x).map f)

/-! ### Addresses and counters -/

/-- The cell port of a cell: its index divided by 16 (R55). -/
def portOf (c : CellIx) : PortIx := ⟨c.val / 16, by omega⟩

/-- The global index of the cell at a port and local address (scope, "Cell index"). -/
def cellAt (p : PortIx) (a : Fin 16) : CellIx := ⟨p.val * 16 + a.val, by omega⟩

/-- The local address of a cell: index minus 16 × port (R10). -/
def localAddress (c : CellIx) : Fin 16 := ⟨c.val % 16, by omega⟩

/-- The counter set of a cell port (R186). -/
def linkOf (p : PortIx) : LinkIx := ⟨p.val, by omega⟩

/-- The counter set of the trunk (R186). -/
def trunkLink : LinkIx := 4

def countReceived (l : LinkIx) (s : State) : State :=
  s.setCounter l { s.counter l with received := (s.counter l).received.bump }
def countCheckFailure (l : LinkIx) (s : State) : State :=
  s.setCounter l { s.counter l with checkFailures := (s.counter l).checkFailures.bump }
def countMalformed (l : LinkIx) (s : State) : State :=
  s.setCounter l { s.counter l with malformed := (s.counter l).malformed.bump }
def countUnknownCell (l : LinkIx) (s : State) : State :=
  s.setCounter l { s.counter l with unknownCell := (s.counter l).unknownCell.bump }
def countStrayVoice (l : LinkIx) (s : State) : State :=
  s.setCounter l { s.counter l with strayVoice := (s.counter l).strayVoice.bump }

/-- Handovers committed, for one kind (R131). -/
def KindCounts.bump (k : ReqKind) (c : KindCounts) : KindCounts :=
  match k with
  | .rescue => { c with rescue := c.rescue.bump }
  | .drain => { c with drain := c.drain.bump }
  | .quality => { c with quality := c.quality.bump }
  | .relief => { c with relief := c.relief.bump }

/-- Handover refusals, for one code (R119). -/
def HoCounts.bump (k : HoCode) (c : HoCounts) : HoCounts :=
  match k with
  | .hold => { c with hold := c.hold.bump }
  | .cellUnknown => { c with cellUnknown := c.cellUnknown.bump }
  | .cellUnavailable => { c with cellUnavailable := c.cellUnavailable.bump }
  | .zoneAbsent => { c with zoneAbsent := c.zoneAbsent.bump }
  | .zoneClosed => { c with zoneClosed := c.zoneClosed.bump }
  | .clearance => { c with clearance := c.clearance.bump }
  | .gateMiss => { c with gateMiss := c.gateMiss.bump }
  | .gateMode => { c with gateMode := c.gateMode.bump }
  | .cellFull => { c with cellFull := c.cellFull.bump }
  | .noTransaction => { c with noTransaction := c.noTransaction.bump }
  | .queueFull => { c with queueFull := c.queueFull.bump }

/-- Drops, for one cause (R84). -/
def DropCounts.bump (k : DropCause) (c : DropCounts) : DropCounts :=
  match k with
  | .radioLost => { c with radioLost := c.radioLost.bump }
  | .rescueFailed => { c with rescueFailed := c.rescueFailed.bump }
  | .rescueTimeout => { c with rescueTimeout := c.rescueTimeout.bump }
  | .handsetDetached => { c with handsetDetached := c.handsetDetached.bump }
  | .handsetReattached => { c with handsetReattached := c.handsetReattached.bump }
  | .cellDrained => { c with cellDrained := c.cellDrained.bump }
  | .cellDisabled => { c with cellDisabled := c.cellDisabled.bump }
  | .linkDown => { c with linkDown := c.linkDown.bump }

/-- Rewrites the device counters. -/
def State.count (s : State) (f : DeviceCounters → DeviceCounters) : State := { s with device := f s.device }

/-! ### Frames of a control queue (R148) -/

def CtlFrame.dest : CtlFrame → CellIx
  | .hoCmd c _ _ _ _ _ => c
  | .legOpen c _ _ _ _ => c
  | .cellRestart c => c
  | .legCloseAll c => c
  | .attachAck c _ _ => c
  | .callReqRej c _ _ => c
  | .page c _ => c

/-- The priority fixed by the frame (R148). -/
def CtlFrame.priority : CtlFrame → Priority
  | .hoCmd .. => 3
  | .legOpen _ _ _ _ .rescue => 3
  | .legOpen _ _ _ _ .initial => 2
  | .legOpen _ _ _ _ .handover => 2
  | .cellRestart _ => 2
  | .legCloseAll _ => 2
  | .attachAck .. => 1
  | .callReqRej .. => 1
  | .page .. => 0

/-- The owning channel, where the frame has one (R148). -/
def CtlFrame.owner : CtlFrame → Option Channel
  | .hoCmd _ _ x _ _ _ => some x
  | .legOpen _ _ x _ _ => some x
  | .cellRestart _ => none
  | .legCloseAll _ => none
  | .attachAck .. => none
  | .callReqRej .. => none
  | .page .. => none

/-- The transaction of a queue entry: a LEG-OPEN's alone (R148). -/
def CtlFrame.openTxn : CtlFrame → Option Txn
  | .legOpen _ t _ _ _ => some t
  | _ => none

/-- The channel of an HO-CMD. -/
def CtlFrame.hoChannel : CtlFrame → Option Channel
  | .hoCmd _ _ x _ _ _ => some x
  | _ => none

/-! ### Offers to a control queue (R149) -/

/-- The answer to an offer; `taken` names the entry it evicted, if any. -/
inductive OfferAnswer where
  | taken (victim : Option CtlFrame)
  | refusedFull
  | refusedLinkDown
deriving DecidableEq, Repr

/-- Takes the last entry that satisfies `p` out of a list. -/
def takeLast {α : Type} (p : α → Bool) : List α → Option (α × List α)
  | [] => none
  | a :: as =>
    match takeLast p as with
    | some (v, rest) => some (v, a :: rest)
    | none => if p a then some (a, as) else none

/-- The lowest priority present in a queue, or `b`. -/
def lowestPriority (b : Priority) (q : List CtlFrame) : Priority :=
  q.foldl (fun m f => if f.priority < m then f.priority else m) b

/-- The victim of a newcomer of priority `p` in a full queue: the newest entry of the lowest priority present below the
newcomer's (R149). -/
def victimOf (p : Priority) (q : List CtlFrame) : Option (CtlFrame × List CtlFrame) :=
  if lowestPriority p q < p then takeLast (fun f => decide (f.priority = lowestPriority p q)) q else none

/-- Offers a frame to the control queue of its destination's port (R149). -/
def offer (f : CtlFrame) (s : State) : OfferAnswer × State :=
  let p := portOf f.dest
  let port := s.port p
  match port.link with
  | .down => (.refusedLinkDown, s)
  | .up =>
    if port.ctl.length < Config.controlCapacity then (.taken none, s.setPort p { port with ctl := port.ctl ++ [f] })
    else
      match victimOf f.priority port.ctl with
      | none => (.refusedFull, s)
      | some (v, rest) => (.taken (some v), s.setPort p { port with ctl := rest ++ [f] })

/-- An offer whose refusal or eviction tells nobody: ATTACH-ACK, CALL-REQ-REJ, CELL-RESTART, LEG-CLOSE-ALL (R150). -/
def offerQuietly (f : CtlFrame) (s : State) : State := (offer f s).2

/-! ### Close sets (R151) -/

/-- Adds a pair to the close set of the cell's port, unless the port is DOWN, the pair is held, or the set is full. -/
def closeAdd (c : CellIx) (x : Channel) (s : State) : State :=
  let p := portOf c
  let port := s.port p
  match port.link with
  | .down => s
  | .up =>
    if (c, x) ∈ port.closes ∨ Config.closeCapacity ≤ port.closes.length then s
    else s.setPort p { port with closes := port.closes ++ [(c, x)] }

/-! ### Pending answers, withdrawal and cancellation (R139, R147, R154) -/

/-- The entry that holds a transaction. -/
def State.answerOf (s : State) (t : Txn) : Option Answer := s.answers.find? fun a => decide (a.txn = t)

/-- Whether the LEG-OPEN of a transaction still waits in the queue of a cell's port. -/
def openQueued (t : Txn) (c : CellIx) (s : State) : Bool :=
  (s.port (portOf c)).ctl.any fun f => decide (f.openTxn = some t)

/-- Withdraws the LEG-OPEN that carries a transaction (R154). -/
def withdrawOpen (t : Txn) (c : CellIx) (s : State) : State :=
  let port := s.port (portOf c)
  s.setPort (portOf c) { port with ctl := port.ctl.filter fun f => !decide (f.openTxn = some t) }

/-- Frees an entry; a LEG-OPEN of its transaction that still waits is withdrawn in the same event (R139). -/
def freeAnswer (a : Answer) (s : State) : State :=
  withdrawOpen a.txn a.cell { s with answers := s.answers.filter fun b => !decide (b.txn = a.txn) }

/-- Marks the entry of a transaction cancelled (R147). -/
def markCancelled (t : Txn) (s : State) : State :=
  { s with answers := s.answers.map fun a => if a.txn = t then { a with cancelled := true } else a }

/-- Cancels a transaction (R147): an entry whose LEG-OPEN still waits is freed, one already sent is marked. -/
def cancelTxn (t : Txn) (s : State) : State :=
  match s.answerOf t with
  | none => s
  | some a => if a.cancelled then s else if openQueued t a.cell s then freeAnswer a s else markCancelled t s

/-- Withdraws every queued HO-CMD of a channel from one port. -/
def withdrawHoAt (x : Channel) (s : State) (p : PortIx) : State :=
  s.setPort p { s.port p with ctl := (s.port p).ctl.filter fun f => !decide (f.hoChannel = some x) }

/-- Withdraws every queued HO-CMD of a channel (R154). -/
def withdrawHo (x : Channel) (s : State) : State := (allIndices 4).foldl (withdrawHoAt x) s

/-- The first of `n` successive numbers from `t` that no entry holds (R140). -/
def nextTxnFrom (as : List Answer) : Nat → Txn → Txn
  | 0, t => t
  | n + 1, t => if as.any fun a => decide (a.txn = t) then nextTxnFrom as n (t + 1) else t

/-- The next number (R140): found within 65 values, since at most 64 are held. -/
def State.nextTxn (s : State) : Txn := nextTxnFrom s.answers 65 s.txnCounter

/-- Whether a transaction can be allocated (R140). -/
def State.txnAvailable (s : State) : Bool := decide (s.answers.length < Config.answerCapacity)

/-- Adds the entry of an allocated number and moves the counter past it (R139, R140). -/
def allocateTxn (t : Txn) (x : Channel) (c : CellIx) (s : State) : State :=
  { s with answers := s.answers ++ [⟨t, x, c, s.after s.config.legTime, false⟩], txnCounter := t + 1 }

/-! ### Trunk queues (R12, R13) -/

/-- Hands a reply to the trunk reply queue (R13). -/
def reply (r : Reply) (s : State) : State :=
  match s.trunk.link with
  | .down => s
  | .up =>
    if s.trunk.replies.length < Config.replyCapacity then
      { s with trunk := { s.trunk with replies := s.trunk.replies ++ [r] } }
    else s.count fun d => { d with replyOverflow := d.replyOverflow.bump }

/-- Hands an uplink VOX to the trunk voice lane (R12): a full lane loses its oldest frame. -/
def trunkVoice (v : Vox) (s : State) : State :=
  match s.trunk.link with
  | .down => s
  | .up =>
    let kept :=
      if s.trunk.voice.length < Config.trunkVoiceCapacity then s.trunk.voice else s.trunk.voice.drop 1
    { s with trunk := { s.trunk with voice := kept ++ [v] } }

/-- Hands a downlink VOX to the voice lane of a cell's port (R11): a full lane loses its oldest frame. -/
def laneVoice (c : CellIx) (v : Vox) (s : State) : State :=
  let p := portOf c
  let port := s.port p
  match port.link with
  | .down => s
  | .up =>
    let kept := if port.lane.length < Config.laneCapacity then port.lane else port.lane.drop 1
    s.setPort p { port with lane := kept ++ [(c, v)] }

/-! ### Notice queue (R36, R38, R171) -/

/-- Whether the notice queue has a free place. -/
def State.noticeRoom (s : State) : Bool := decide (s.notices.length < Config.noticeCapacity)

def pushNotice (n : Notice) (s : State) : State := { s with notices := s.notices ++ [n] }

/-- Sets a record's dirty flag, and appends its LOCATION notice when it is not queued and there is room (R36). -/
def markDirty (i : RecIx) (s : State) : State :=
  let r := s.record i
  if !r.queued && s.noticeRoom then pushNotice (.location i) (s.setRecord i { r with dirty := true, queued := true })
  else s.setRecord i { r with dirty := true }

/-! ### Small queries -/

def Phase.target : Phase → Option Target
  | .opening .. => none
  | .active .. => none
  | .preparing _ _ t _ => some t
  | .bridging _ _ t _ _ => some t
  | .rescuing a _ => a.map (·.1)

def Phase.serving : Phase → Option Leg
  | .opening .. => none
  | .active l _ => some l
  | .preparing l _ _ _ => some l
  | .bridging l _ _ _ _ => some l
  | .rescuing .. => none

/-- The guard deadline, where the context holds one (R74). -/
def Phase.guardDeadline : Phase → Option Time
  | .opening .. => none
  | .active _ g => g
  | .preparing _ g _ _ => g
  | .bridging _ g _ _ _ => g
  | .rescuing .. => none

/-- In execution: the context holds a target (R117). -/
def Phase.inExecution (p : Phase) : Bool := p.target.isSome

/-- The number of contexts in execution (R117, R137). -/
def State.inExecution (s : State) : Nat :=
  s.calls.count none fun k => match k with
    | none => false
    | some k => k.phase.inExecution

/-- Requests held in the handover request queue (R113). -/
def Hrq.total (q : Hrq) : Nat := q.urgent.length + q.normal.length

/-- The queue without the request of a channel. -/
def Hrq.without (x : Channel) (q : Hrq) : Hrq :=
  { urgent := q.urgent.filter fun r => !decide (r.channel = x)
    normal := q.normal.filter fun r => !decide (r.channel = x) }

/-- The request of a channel, if one waits (R113). -/
def Hrq.requestOf (x : Channel) (q : Hrq) : Option Request :=
  (q.urgent ++ q.normal).find? fun r => decide (r.channel = x)

/-- The fields of a present record. -/
def Record.enrolled (r : Record) : Option Enrolled :=
  match r.holder with
  | .empty => none
  | .kept _ => none
  | .present e => some e

def Location.attachment : Location → Option Attachment
  | .absent => none
  | .attached a _ => some a
  | .engaged a _ => some a

/-- The HID a record holds, present or kept (R21). -/
def Record.hid (r : Record) : Option Hid :=
  match r.holder with
  | .empty => none
  | .kept h => some h
  | .present e => some e.hid

/-- Lookup by HID among the records that are present (R21). -/
def State.findHid (s : State) (h : Hid) : Option RecIx :=
  s.records.find Record.blank fun _ r => match r.enrolled with
    | none => false
    | some e => decide (e.hid = h)

/-- The entry of the candidate list with the highest F, the earliest on a tie (R94, R107, R122). -/
def bestCandidate : List Candidate → Option Candidate
  | [] => none
  | c :: cs =>
    match bestCandidate cs with
    | none => some c
    | some d => if c.f < d.f then some d else some c

/-- Sets the dwell of the entry of a cell to 0 (R121, R124). -/
def resetDwell (t : CellIx) (cs : List Candidate) : List Candidate :=
  cs.map fun c => if c.cell = t then { c with dwell := 0 } else c

end Sys2Proof.Machine
end

