-- ==== Sys2Proof/Machine/Access.lean ====
section
/-! DEFINITION. The Access Checker (chapter 3): the ordered chain of tests for one handset at one cell for one purpose. -/

namespace Sys2Proof.Machine

/-- The purposes of a check (R44). -/
inductive Purpose where
  | register | location | callSetup | handover
deriving DecidableEq, Repr

/-- The effective clearance: the larger number of claimed and subscribed (R19, R44). -/
def effective (claimed subscribed : Clearance) : Clearance := if claimed ≤ subscribed then subscribed else claimed

def denyCell (code : DenialCode) (c : CellIx) : Denial := ⟨code, c.val, .cell⟩
def denyZone (code : DenialCode) (z : ZoneIx) : Denial := ⟨code, z.val, .zone⟩
def denyGate (code : DenialCode) (g : GateIx) : Denial := ⟨code, g.val, .gate⟩
/-- A refusal that names no cell, zone or gate (R53). -/
def denyPlain (code : DenialCode) : Denial := ⟨code, 0, .none⟩

/-- Whether a gate serves a group in a zone (R48). -/
def Gate.serves (g : Gate) (z : ZoneIx) (grp : Group) : Bool :=
  g.present && decide (g.zone = z) &&
    match g.group with
    | .any => true
    | .only h => decide (h = grp)

/-- The found gate: the first, in ascending number, that serves the group in the zone (R48). -/
def findGate (s : State) (z : ZoneIx) (grp : Group) : Option GateIx :=
  (allIndices 32).find? fun g => (s.gate g).serves z grp

/-- The tests on the found gate: clearance, then mode (R49, R50). -/
def gateVerdict (s : State) (e : Clearance) (g : GateIx) (p : Purpose) : Option Denial :=
  if e ≤ (s.gate g).level then
    match (s.gate g).mode with
    | .any => none
    | .inCallOnly => if p = .handover then none else some (denyGate .gateMode g)
  else some (denyGate .clearance g)

/-- The tests on the zone (R47, R48). -/
def zoneVerdict (s : State) (e : Clearance) (grp : Group) (z : ZoneIx) (p : Purpose) : Option Denial :=
  if (s.zone z).present then
    match (s.zone z).kind with
    | .closed => some (denyZone .zoneClosed z)
    | .openZone => if e ≤ (s.zone z).level then none else some (denyZone .clearance z)
    | .gated =>
      match findGate s z grp with
      | none => some (denyZone .gateMiss z)
      | some g => gateVerdict s e g p
  else some (denyZone .zoneAbsent z)

/-- The access check (R46 to R50): `none` admits, `some` is the refusal of the first test that fails. -/
def accessCheck (s : State) (e : Clearance) (grp : Group) (c : CellIx) (p : Purpose) : Option Denial :=
  if (s.cell c).present then
    if (s.cell c).service = .inService then zoneVerdict s e grp (s.cell c).zone p
    else some (denyCell .cellUnavailable c)
  else some (denyCell .cellUnknown c)

/-- The check of a record with the claimed clearance it stores (R44). -/
def checkStored (s : State) (e : Enrolled) (a : Attachment) (c : CellIx) (p : Purpose) : Option Denial :=
  accessCheck s (effective a.claimed e.clearance) e.group c p

end Sys2Proof.Machine
end

