-- ==== Sys2Proof/Machine/Cells.lean ====
section
/-! DEFINITION. The Cell Table (chapter 4): reserves, releases, the end of a drain, and the tests of the evaluator and
the handover controller on a cell. -/

namespace Sys2Proof.Machine

/-- A cell that is present and IN_SERVICE (R104). -/
def CellRec.live (r : CellRec) : Bool := r.present && decide (r.service = .inService)

/-- The margin of a cell in a neighbour list, if it is listed (R58). -/
def marginOf (c : CellIx) : List Neighbour → Option Int
  | [] => none
  | n :: ns => if n.cell = c then some n.margin else marginOf c ns

/-- The slots below which a reserve for an initial leg passes (R61). -/
def initialLimit (r : CellRec) (p : Priority) : Nat := if p = 3 then r.capacity else r.capacity - r.guard

/-- A reserve at a cell, with the number of slots below which it passes (R60 to R63). -/
def reserve (c : CellIx) (limit : Nat) (s : State) : Except DenialCode State :=
  let r := s.cell c
  if r.service = .inService then
    if r.occupancy < limit then
      .ok (s.setCell c { r with occupancy := r.occupancy + 1, congested := congestedAfterReserve r (r.occupancy + 1) })
    else .error .cellFull
  else .error .cellUnavailable

/-- Entering the follow-on of a drain (R68, R69): RESTARTING offers a CELL-RESTART and sets the restart deadline. -/
def enterFollowOn (c : CellIx) (next : FollowOn) (s : State) : State :=
  match next with
  | .outOfService => s.setCell c { s.cell c with service := .outOfService }
  | .restarting =>
    offerQuietly (.cellRestart c)
      (s.setCell c { s.cell c with service := .restarting (s.after (s.config.restartTime * 1000)) })

/-- A release that leaves occupancy 0 while the cell is DRAINING ends the drain (R68). -/
def endDrainIfEmpty (c : CellIx) (s : State) : State :=
  match (s.cell c).service with
  | .outOfService => s
  | .inService => s
  | .draining next _ => if (s.cell c).occupancy = 0 then enterFollowOn c next s else s
  | .restarting _ => s

/-- A release at a cell (R60, R63, R68). -/
def releaseSlot (c : CellIx) (s : State) : State :=
  let r := s.cell c
  endDrainIfEmpty c
    (s.setCell c { r with occupancy := r.occupancy - 1, congested := congestedAfterRelease r (r.occupancy - 1) })

/-- The service state by its name. -/
def Service.name : Service → ServiceName
  | .outOfService => .outOfService
  | .inService => .inService
  | .draining .. => .draining
  | .restarting _ => .restarting

/-- The state a present cell takes when its port's link decides (R64, R69, R73). -/
def serviceByLink (s : State) (c : CellIx) : Service :=
  match (s.port (portOf c)).link with
  | .up => .inService
  | .down => .outOfService

end Sys2Proof.Machine
end

