-- ==== Sys2Proof/Machine/Pages.lean ====
section
/-! DEFINITION. The Page List (chapter 10): occasions, settled outcomes, and the registry's reports of location state. -/

namespace Sys2Proof.Machine

/-- An entry in PAGING (R164). -/
def PageEntry.paging (p : PageEntry) : Bool :=
  match p.status with
  | .paging .. => true
  | .settled .. => false

/-- The entry in PAGING that satisfies a test. -/
def State.pagingEntry (s : State) (q : PageEntry → Bool) : Option PageIx :=
  s.pages.find none fun _ v => match v with
    | none => false
    | some p => p.paging && q p

/-- Settles an outcome on an entry: it becomes OUTCOME_PENDING and its notice is offered (R171). -/
def settlePage (e : PageIx) (o : PageOutcome) (s : State) : State :=
  match s.page e with
  | none => s
  | some p =>
    if s.noticeRoom then pushNotice (.pageOutcome e) (s.setPage e (some { p with status := .settled o true }))
    else s.setPage e (some { p with status := .settled o false })

/-- An outcome in the immediate form (R171): lost and counted when the notice queue is full. -/
def immediateOutcome (h : Hid) (o : PageOutcome) (s : State) : State :=
  if s.noticeRoom then pushNotice (.immediate h o) s
  else s.count fun d => { d with pageOutcomesLost := d.pageOutcomesLost.bump }

/-- The registry's report of a new location state (R35, R170). -/
def pageReport (i : RecIx) (h : Hid) (loc : Location) (s : State) : State :=
  match s.pagingEntry fun p => decide (p.record = i) && decide (p.hid = h) with
  | none => s
  | some e =>
    match loc with
    | .absent => settlePage e .notAttached s
    | .attached .. => s
    | .engaged .. => settlePage e .busy s

/-- Offers a PAGE to each cell of a set that is present and IN_SERVICE, and counts the offers that were taken (R166). -/
def offerPages (h : Hid) : List CellIx → Nat → State → Nat × State
  | [], n, s => (n, s)
  | c :: cs, n, s =>
    if (s.cell c).live then
      match offer (.page c h) s with
      | (.taken _, t) => offerPages h cs (n + 1) t
      | (.refusedFull, t) => offerPages h cs n t
      | (.refusedLinkDown, t) => offerPages h cs n t
    else offerPages h cs n s

/-- A page occasion (R166). -/
def occasion (e : PageIx) (s : State) : State :=
  match s.page e with
  | none => s
  | some p =>
    match p.status with
    | .settled .. => s
    | .paging 0 _ => settlePage e .noAnswer s
    | .paging (a + 1) _ =>
      let (taken, t) := offerPages p.hid p.cells 0 s
      let next := t.after t.config.pageInterval
      if taken = 0 then t.setPage e (some { p with repeatFlag := true, status := .paging (a + 1) next })
      else t.setPage e (some { p with repeatFlag := false, status := .paging a next })

/-- The cell set of a new entry: the current cell, then its neighbours in list order (R164). -/
def pageCells (s : State) (c : CellIx) : List CellIx := c :: (s.cell c).neighbours.map (·.cell)

/-- The free entry of lowest number. -/
def State.freePage (s : State) : Option PageIx := (allIndices 16).find? fun e => (s.page e).isNone

/-- A PAGE-REQ for HID `h` with `a` attempts (R165). -/
def pageRequest (h : Hid) (a : Nat) (s : State) : State :=
  match s.findHid h with
  | none => immediateOutcome h .notAttached s
  | some i =>
    match (s.record i).enrolled with
    | none => immediateOutcome h .notAttached s
    | some r =>
      match r.loc with
      | .absent => immediateOutcome h .notAttached s
      | .engaged .. => immediateOutcome h .busy s
      | .attached att _ =>
        match s.pagingEntry fun p => decide (p.hid = h) with
        | some e =>
          match s.page e with
          | none => s
          | some p =>
            match p.status with
            | .settled .. => s
            | .paging n next => s.setPage e (some { p with status := .paging (max n a) next })
        | none =>
          match s.freePage with
          | none => immediateOutcome h .listFull s
          | some e => occasion e (s.setPage e (some ⟨h, i, pageCells s att.cell, false, .paging a s.now⟩))

end Sys2Proof.Machine
end

