-- ==== Sys2Proof/Machine/Registry.lean ====
section
/-! DEFINITION. The Handset Registry (chapter 2): changes of location, enrolment, release at the end of a call, and the
requests of management and the sweep engine. The attach, which drops a call, stands in Machine/Attach.lean. -/

namespace Sys2Proof.Machine

/-- The presence deadline set now (R26). -/
def presenceDeadline (s : State) : Time := s.after (s.config.presencePeriod * 60000)

/-- A record of the visitor pool (R19). -/
def isVisitor (i : RecIx) : Bool := decide (Config.firstVisitor ≤ i.val)

/-- The holder after a change of location: a visitor that becomes ABSENT is freed and keeps its HID (R21, R23). -/
def holderAfter (i : RecIx) (e : Enrolled) (loc : Location) : Holder :=
  if loc = .absent ∧ isVisitor i = true then .kept e.hid else .present { e with loc := loc }

/-- One change of a record's location: new location, time stamp, dirty flag and notice (R36). -/
def writeLocation (i : RecIx) (e : Enrolled) (loc : Location) (s : State) : State :=
  markDirty i (s.setRecord i { s.record i with holder := holderAfter i e loc, lastChange := s.now })

/-- A change of location that is reported to the page list (R35). The notice is raised first, DESIGN CHOICE (log 11). -/
def changeLocation (i : RecIx) (e : Enrolled) (loc : Location) (s : State) : State :=
  pageReport i e.hid loc (writeLocation i e loc s)

/-- An ATTACH-ACK to a cell (R27). -/
def sendAck (c : CellIx) (h : Hid) (r : AttachResult) (s : State) : State := offerQuietly (.attachAck c h r) s

/-- Withdraws the registration of an ATTACHED record with a refusal (R34). -/
def revoke (i : RecIx) (e : Enrolled) (a : Attachment) (d : Denial) (s : State) : State :=
  sendAck a.cell e.hid (.revoked d) (changeLocation i e .absent s)

/-- A release in the re-check form (R32). Both parts are one event: one notice covers both. -/
def releaseRecheck (i : RecIx) (s : State) : State :=
  match (s.record i).enrolled with
  | none => s
  | some e =>
    match e.loc with
    | .absent => s
    | .attached .. => s
    | .engaged a _ =>
      match checkStored s e a a.cell .location with
      | none => changeLocation i e (.attached a (presenceDeadline s)) s
      | some d => revoke i e a d s

/-- A release in the detach form (R33). -/
def releaseDetach (i : RecIx) (s : State) : State :=
  match (s.record i).enrolled with
  | none => s
  | some e =>
    match e.loc with
    | .absent => s
    | .attached .. => s
    | .engaged .. => changeLocation i e .absent s

/-- A release in the re-attach form (R33): ATTACHED without a re-check. The attach that asked for it completes step 5 at
once, with the dirty flag, the time stamp and the notice (R26). -/
def releaseReattach (i : RecIx) (s : State) : State :=
  match (s.record i).enrolled with
  | none => s
  | some e =>
    match e.loc with
    | .absent => s
    | .attached .. => s
    | .engaged a _ =>
      s.setRecord i { s.record i with holder := .present { e with loc := .attached a (presenceDeadline s) } }

/-- The forms of a release (R32, R33). -/
inductive ReleaseForm where
  | recheck | reattach | detach
deriving DecidableEq, Repr

/-- A release of a call's handset (R32, R33). -/
def releaseHandset (form : ReleaseForm) (i : RecIx) (s : State) : State :=
  match form with
  | .recheck => releaseRecheck i s
  | .reattach => releaseReattach i s
  | .detach => releaseDetach i s

/-- Engage (R31): the record, found ATTACHED, becomes ENGAGED with channel `x`. -/
def engage (i : RecIx) (e : Enrolled) (a : Attachment) (x : Channel) (s : State) : State :=
  changeLocation i e (.engaged a x) s

/-- Move (R31): an ENGAGED record's current cell becomes `c`. -/
def moveHandset (i : RecIx) (c : CellIx) (s : State) : State :=
  match (s.record i).enrolled with
  | none => s
  | some e =>
    match e.loc with
    | .absent => s
    | .attached .. => s
    | .engaged a x => writeLocation i e (.engaged { a with cell := c } x) s

/-- The quality the registry holds for a record, where it holds one (R130). -/
def lastQuality (s : State) (i : RecIx) : Nat :=
  match (s.record i).enrolled with
  | none => 0
  | some e =>
    match e.loc.attachment with
    | none => 0
    | some a => a.quality.val

/-! ### Enrolment (R22, R23) -/

/-- A HID matches a filter (R22). -/
def Filter.matches (f : Filter) (h : Hid) : Bool := decide (h &&& f.mask = f.value &&& f.mask)

/-- The chosen filter: the lowest-numbered enabled filter that the HID matches (R22). -/
def chosenFilter (s : State) (h : Hid) : Option FilterIx :=
  (allIndices 8).find? fun f => (s.filter f).enabled && (s.filter f).matches h

/-- A free visitor record: not present, both flags clear (R23). -/
def Record.free (r : Record) : Bool := r.enrolled.isNone && !r.dirty && !r.queued

/-- The free visitor record of lowest index (R23). -/
def freeVisitor (s : State) : Option RecIx := (indicesFrom 1024 128).find? fun i => (s.record i).free

/-! ### Location updates (R28) -/

/-- The outcome of a location update (R28). -/
inductive UpdateOutcome where
  | refreshed
  | moved
  | revoked (d : Denial)
  | engaged
  | notAttached
deriving DecidableEq, Repr

/-- A location update of HID `h` at cell `c` with quality `q` (R28). With `tell` clear the page list has asked for it
and takes the outcome instead of the registry's report (R168). -/
def locationUpdate (tell : Bool) (c : CellIx) (h : Hid) (q : Quality) (s : State) : UpdateOutcome × State :=
  let refuse := (UpdateOutcome.notAttached, sendAck c h (.refused (denyPlain .notAttached)) s)
  match s.findHid h with
  | none => refuse
  | some i =>
    match (s.record i).enrolled with
    | none => refuse
    | some e =>
      match e.loc with
      | .absent => refuse
      | .engaged a x =>
        (.engaged, s.setRecord i { s.record i with holder := .present { e with loc := .engaged { a with quality := q } x } })
      | .attached a _ =>
        if a.cell = c then
          (.refreshed, s.setRecord i { s.record i with
            holder := .present { e with loc := .attached { a with quality := q } (presenceDeadline s) } })
        else
          match checkStored s e a c .location with
          | none => (.moved, writeLocation i e (.attached ⟨a.claimed, c, q⟩ (presenceDeadline s)) s)
          | some d =>
            let t := if tell then changeLocation i e .absent s else writeLocation i e .absent s
            (.revoked d, sendAck c h (.revoked d) t)

/-! ### Requests of management and the sweep engine (R34) -/

/-- Detach (R34): an ATTACHED record becomes ABSENT, and no frame is sent. -/
def detachRecord (i : RecIx) (s : State) : State :=
  match (s.record i).enrolled with
  | none => s
  | some e =>
    match e.loc with
    | .absent => s
    | .attached .. => changeLocation i e .absent s
    | .engaged .. => s

/-- Revoke (R34) of an ATTACHED record. -/
def revokeRecord (i : RecIx) (d : Denial) (s : State) : State :=
  match (s.record i).enrolled with
  | none => s
  | some e =>
    match e.loc with
    | .absent => s
    | .attached a _ => revoke i e a d s
    | .engaged .. => s

/-- Remove (R34): an ABSENT record stops being present, and keeps its HID while a notice is owed (R21). -/
def removeRecord (i : RecIx) (s : State) : State :=
  let r := s.record i
  match r.enrolled with
  | none => s
  | some e =>
    match e.loc with
    | .absent => s.setRecord i { r with holder := if r.dirty || r.queued then .kept e.hid else .empty }
    | .attached .. => s
    | .engaged .. => s

end Sys2Proof.Machine
end

