-- ==== Sys2Proof/Machine/Calls.lean ====
section
/-! DEFINITION. Call contexts (chapter 5): the ending of a call, drops, failed opens; and the posting of handover
requests (R114, R115), which the ending removes. -/

namespace Sys2Proof.Machine

/-! ### The handover request queue -/

/-- Sets or clears the request-posted flag of a channel's context. -/
def setPosted (x : Channel) (b : Bool) (s : State) : State := s.modCall x fun k => { k with posted := b }

/-- Removes the request of a channel, and clears the flag of its context (R115). -/
def hrqRemove (x : Channel) (s : State) : State :=
  match s.hrq.requestOf x with
  | none => s
  | some _ => setPosted x false { s with hrq := s.hrq.without x }

/-- RESCUE and DRAIN form the urgent class (R113). -/
def ReqKind.urgent : ReqKind → Bool
  | .rescue => true
  | .drain => true
  | .quality => false
  | .relief => false

/-- Appends a request at the end of its class (R113). -/
def Hrq.append (r : Request) (q : Hrq) : Hrq :=
  if r.kind.urgent then { q with urgent := q.urgent ++ [r] } else { q with normal := q.normal ++ [r] }

/-- Stores a request, and sets the flag of its context (R106, R114). -/
def hrqStore (r : Request) (q : Hrq) (s : State) : State := setPosted r.channel true { s with hrq := q.append r }

/-- A posting (R114): a waiting request of the channel is replaced; a full queue loses its newest normal request to an
urgent one; otherwise the request is stored while there is room. -/
def hrqPost (r : Request) (s : State) : State :=
  match s.hrq.requestOf r.channel with
  | some _ => hrqStore r (s.hrq.without r.channel) s
  | none =>
    if s.hrq.total < Config.hrqCapacity then hrqStore r s.hrq s
    else if r.kind.urgent then
      match s.hrq.normal.getLast? with
      | none => s
      | some d =>
        hrqStore r { s.hrq with normal := s.hrq.normal.dropLast } (setPosted d.channel false s)
    else s

/-! ### The ending of a call (R82) -/

/-- The pending opens of a context: cell and transaction. -/
def Phase.opens : Phase → List (CellIx × Txn)
  | .opening c t => [(c, t)]
  | .active .. => []
  | .preparing _ _ r t => [(r.cell, t)]
  | .bridging .. => []
  | .rescuing none _ => []
  | .rescuing (some (r, t)) _ => [(r.cell, t)]

/-- The cells of the legs of a context, less a serving leg that is lost. -/
def Phase.legCells (servingLost : Bool) (p : Phase) : List CellIx :=
  (match p.serving with
    | none => []
    | some l => if servingLost then [] else [l.cell]) ++
  (match p with
    | .bridging _ _ r _ _ => [r.cell]
    | .opening .. => []
    | .active .. => []
    | .preparing .. => []
    | .rescuing .. => [])

/-- Cancels an open and releases its reserve at the cancellation (R147). -/
def cancelOpen (s : State) (o : CellIx × Txn) : State := releaseSlot o.1 (cancelTxn o.2 s)

/-- Puts a leg into its port's close set and releases its slot (R82). -/
def closeLeg (x : Channel) (s : State) (c : CellIx) : State := releaseSlot c (closeAdd c x s)

/-- The ending of a call (R82): its request, its opens, its queued HO-CMD, its legs, its handset; then IDLE. -/
def endCall (x : Channel) (k : Call) (servingLost : Bool) (form : ReleaseForm) (s : State) : State :=
  let s := hrqRemove x s
  let s := k.phase.opens.foldl cancelOpen s
  let s := withdrawHo x s
  let s := (k.phase.legCells servingLost).foldl (closeLeg x) s
  let s := releaseHandset form k.handset s
  s.setCall x none

/-- The release form of a drop (R84). -/
def DropCause.form : DropCause → ReleaseForm
  | .radioLost => .recheck
  | .rescueFailed => .recheck
  | .rescueTimeout => .recheck
  | .handsetDetached => .detach
  | .handsetReattached => .reattach
  | .cellDrained => .recheck
  | .cellDisabled => .recheck
  | .linkDown => .recheck

/-- A drop (R84): counted, ended, and told to the call server. `servingLost` marks a serving leg already released. -/
def dropCall (x : Channel) (cause : DropCause) (servingLost : Bool) (s : State) : State :=
  match s.call x with
  | none => s
  | some k =>
    reply (.callDrop x cause)
      (endCall x k servingLost cause.form (s.count fun d => { d with drops := d.drops.bump cause }))

/-- The answer a failed open gives (R80). -/
def failedOpenResult : FailCause → CallResult
  | .timeout => .legTimeout
  | c => .legFailed c

/-- A failed open of an OPENING context at cell `c`, its entry gone or cancelled (R80): reservation, handset, answer. -/
def failedOpen (x : Channel) (k : Call) (c : CellIx) (cause : FailCause) (s : State) : State :=
  let s := releaseSlot c s
  let s := releaseRecheck k.handset s
  let s := s.setCall x none
  reply (.callAck x (failedOpenResult cause)) s

end Sys2Proof.Machine
end

