-- ==== Sys2Proof/Machine/Handover.lean ====
section
/-! DEFINITION. Handover execution (chapter 7): admission, fallback, commit, rescue; the delivery of a leg-open outcome
(R145, R146, R150); and the takes of the handover controller (R117). -/

namespace Sys2Proof.Machine

/-! ### Guard, dwell and refusals -/

/-- The guard deadline of a refusal or a fallback (R121, R124). -/
def retryDeadline (s : State) : Time := s.after (s.config.retryInterval * 100)

/-- The guard deadline of a new serving leg (R79, R130). -/
def settleDeadline (s : State) : Time := s.after (s.config.settleInterval * 100)

def countRefusal (code : HoCode) (s : State) : State := s.count fun d => { d with refusals := d.refusals.bump code }

def countFallback (s : State) : State := s.count fun d => { d with fallbacks := d.fallbacks.bump }

/-- The counter code of a refusal by the access check or the cell table (R138). The last four codes are never raised there.
-/
def hoCodeOf : DenialCode → HoCode
  | .cellUnknown => .cellUnknown
  | .cellUnavailable => .cellUnavailable
  | .zoneAbsent => .zoneAbsent
  | .zoneClosed => .zoneClosed
  | .clearance => .clearance
  | .gateMiss => .gateMiss
  | .gateMode => .gateMode
  | .cellFull => .cellFull
  | .hold => .hold
  | .noTransaction => .noTransaction
  | .unknownHandset => .cellUnknown
  | .poolFull => .cellUnknown
  | .notAttached => .cellUnknown
  | .handsetBusy => .cellUnknown

/-- A refused request leaves the context ACTIVE with a guard deadline and its target's dwell at 0 (R121). -/
def refuseRequest (x : Channel) (t : CellIx) (s : State) : State :=
  s.modCall x fun k =>
    match k.phase with
    | .active l _ =>
      { k with phase := .active l (some (retryDeadline s)), candidates := resetDwell t k.candidates }
    | .opening .. => k
    | .preparing .. => k
    | .bridging .. => k
    | .rescuing .. => k

/-! ### Opening a target leg (R119, R120) -/

/-- The outcome of one try at a target. -/
inductive TargetTry where
  | refused (code : HoCode) (s : State)
  | queueRefused (s : State)
  | admitted (t : Txn) (victim : Option CtlFrame) (s : State)

/-- The offer of a target LEG-OPEN together with the allocation of its transaction (R120, R140). -/
def offerTargetOpen (x : Channel) (h : Hid) (t : CellIx) (role : Role) (s : State) : TargetTry :=
  if s.txnAvailable then
    match offer (.legOpen t s.nextTxn x h role) s with
    | (.taken v, u) => .admitted s.nextTxn v (allocateTxn s.nextTxn x t u)
    | (.refusedFull, u) => .queueRefused (releaseSlot t u)
    | (.refusedLinkDown, u) => .queueRefused (releaseSlot t u)
  else .refused .noTransaction (releaseSlot t s)

/-- One try at target `t` for the handset `i` of channel `x`: access, congestion where the kind asks for it, capacity,
transaction, offer (R119 tests 2 to 4, R120). -/
def tryTarget (x : Channel) (i : RecIx) (t : CellIx) (role : Role) (congestionTest : Bool) (s : State) : TargetTry :=
  match (s.record i).enrolled with
  | none => .refused .cellUnknown s
  | some e =>
    match e.loc.attachment with
    | none => .refused .cellUnknown s
    | some a =>
      match checkStored s e a t .handover with
      | some d => .refused (hoCodeOf d.code) s
      | none =>
        if congestionTest && (s.cell t).congested then .refused .cellFull s
        else
          match reserve t (s.cell t).capacity s with
          | .error code => .refused (hoCodeOf code) s
          | .ok u => offerTargetOpen x e.hid t role u

/-! ### Fallback and commit -/

/-- What becomes of the target at a fallback (R124). -/
inductive TargetEnd where
  | cancel (t : Txn)
  | gone
  | close
  | lost
deriving DecidableEq, Repr

/-- The target's share of a fallback (R124): its open or leg, then its reserve once. -/
def abandonTarget (x : Channel) (t : CellIx) (how : TargetEnd) (s : State) : State :=
  match how with
  | .cancel n => cancelOpen s (t, n)
  | .gone => releaseSlot t s
  | .close => closeLeg x s t
  | .lost => releaseSlot t s

/-- A fallback (R124): the target is abandoned and the context is ACTIVE on its serving leg. -/
def fallback (x : Channel) (k : Call) (serving : Leg) (t : CellIx) (how : TargetEnd) (s : State) : State :=
  let s := abandonTarget x t how s
  let s := withdrawHo x s
  let s := s.setCall x (some { k with
    phase := .active serving (some (retryDeadline s)), candidates := resetDwell t k.candidates })
  countFallback s

/-- The F of the candidate entry of a cell, where the list holds one. -/
def candidateF (t : CellIx) (cs : List Candidate) : Option Nat :=
  (cs.find? fun c => decide (c.cell = t)).map (·.f)

/-- A commit (R130, R131): the target becomes the serving leg. `old` is the old serving leg, where it was not lost. -/
def commit (x : Channel) (k : Call) (old : Option Leg) (t : Target) (slot : Slot) (inRescue : Bool) (s : State) : State :=
  let s := match old with
    | none => s
    | some l => closeLeg x s l.cell
  let fs := (candidateF t.cell k.candidates).getD (16 * lastQuality s k.handset)
  let s := s.setCall x (some { k with
    phase := .active ⟨t.cell, slot⟩ (some (settleDeadline s)), fs := fs, candidates := [], posted := false,
    handovers := k.handovers.bump })
  let s := moveHandset k.handset t.cell s
  let s := withdrawHo x s
  s.count fun d => { d with
    committed := d.committed.bump t.kind
    rescuesSucceeded := if inRescue then d.rescuesSucceeded.bump else d.rescuesSucceeded }

/-! ### Rescue (R122, R133) -/

/-- Removes the entry of a refused or failed candidate (R122, R133). -/
def dropCandidate (x : Channel) (t : CellIx) (s : State) : State :=
  s.modCall x fun k => { k with candidates := k.candidates.filter fun c => !decide (c.cell = t) }

/-- Passing to the next candidate in rescue order (R122): `try_` makes one try; with no candidate the call is dropped. -/
def passOn (try_ : Channel → CellIx → State → State) (x : Channel) (s : State) : State :=
  match s.call x with
  | none => s
  | some k =>
    match bestCandidate k.candidates with
    | none => dropCall x .rescueFailed false s
    | some c => try_ x c.cell s

/-- The failure of an attempt (R133): its reserve released, the target and the candidate entry removed. -/
def endAttempt (x : Channel) (k : Call) (t : CellIx) (deadline : Time) (s : State) : State :=
  dropCandidate x t ((releaseSlot t s).setCall x (some { k with phase := .rescuing none deadline }))

/-- The delivery of a FAIL to the context of a transaction (R80, R126, R133). `next` passes a rescue on. -/
def deliverFail (next : Channel → State → State) (x : Channel) (t : Txn) (cause : FailCause) (s : State) : State :=
  match s.call x with
  | none => s
  | some k =>
    match k.phase with
    | .opening c n => if n = t then failedOpen x k c cause s else s
    | .active .. => s
    | .preparing l _ r n => if n = t then fallback x k l r.cell .gone s else s
    | .bridging .. => s
    | .rescuing none _ => s
    | .rescuing (some (r, n)) d => if n = t then next x (endAttempt x k r.cell d s) else s

/-- An entry resolves as FAIL (R146, R150, R155): it is freed, and the outcome is delivered unless it was cancelled. -/
def resolveFail (next : Channel → State → State) (a : Answer) (cause : FailCause) (s : State) : State :=
  if a.cancelled then freeAnswer a s else deliverFail next a.channel a.txn cause (freeAnswer a s)

/-- What an eviction tells the owner of the victim (R150): a LEG-OPEN resolves as FAIL with cause QUEUE_FULL. -/
def settleVictim (next : Channel → State → State) (victim : Option CtlFrame) (s : State) : State :=
  match victim.bind CtlFrame.openTxn with
  | none => s
  | some t =>
    match s.answerOf t with
    | none => s
    | some a => resolveFail next a .queueFull s

/-- Records the target of an admitted rescue attempt (R123, R132). -/
def beginAttempt (x : Channel) (t : CellIx) (n : Txn) (s : State) : State :=
  s.modCall x fun k =>
    match k.phase with
    | .rescuing _ d => { k with phase := .rescuing (some (⟨t, .rescue, .rescue⟩, n)) d }
    | .opening .. => k
    | .active .. => k
    | .preparing .. => k
    | .bridging .. => k

/-- A rescue attempt at cell `t`, passing on in rescue order while candidates are refused (R122, R132). The first
argument bounds the tries of the whole chain, evictions included; a chain cut there would end its call (log 18). -/
def rescueTry : Nat → Channel → CellIx → State → State
  | 0, x, _, s => dropCall x .rescueFailed false s
  | n + 1, x, t, s =>
    match s.call x with
    | none => s
    | some k =>
      match tryTarget x k.handset t .rescue false s with
      | .refused code u => passOn (rescueTry n) x (dropCandidate x t (countRefusal code u))
      | .queueRefused u => passOn (rescueTry n) x (dropCandidate x t (countRefusal .queueFull u))
      | .admitted m v u => settleVictim (passOn (rescueTry n)) v (beginAttempt x t m u)

/-- Passing a rescue to its next candidate (R122, R133). -/
def nextCandidate (x : Channel) (s : State) : State := passOn (rescueTry Config.rescueFuel) x s

/-! ### Loss of the serving leg (R94) -/

/-- The RESCUE request of a call toward its best candidate, where it has one (R94, R116). -/
def postRescue (x : Channel) (s : State) : State :=
  match s.call x with
  | none => s
  | some k =>
    match bestCandidate k.candidates with
    | none => s
    | some c => hrqPost ⟨x, c.cell, .rescue, s.now⟩ s

/-- The deadline of a rescue that begins now (R94). -/
def rescueDeadline (s : State) : Time := s.after s.config.rescueLimit

/-- Loss of the serving leg (R94). `cause` is the cause of a drop that follows at once: RADIO_LOST or LINK_DOWN (R95). -/
def servingLegLoss (x : Channel) (cause : DropCause) (s : State) : State :=
  match s.call x with
  | none => s
  | some k =>
    match k.phase with
    | .opening .. => s
    | .active l _ =>
      let s := releaseSlot l.cell s
      if k.candidates.isEmpty then dropCall x cause true s
      else postRescue x (s.setCall x (some { k with phase := .rescuing none (rescueDeadline s) }))
    | .preparing l _ t n =>
      let s := releaseSlot l.cell s
      s.setCall x (some { k with phase := .rescuing (some ({ t with role := .rescue }, n)) (rescueDeadline s) })
    | .bridging l _ t slot _ => commit x k none t slot false (releaseSlot l.cell s)
    | .rescuing .. => s

/-! ### The READY of an open (R79, R125, R133) -/

/-- Offers the HO-CMD of a PREPARING context whose target is READY (R125). -/
def offerHoCmd (x : Channel) (k : Call) (l : Leg) (g : Option Time) (t : Target) (n : Txn) (slot : Slot) (h : Hid)
    (s : State) : State :=
  match offer (.hoCmd l.cell n x h t.cell slot) s with
  | (.taken v, u) =>
    settleVictim nextCandidate v
      (u.setCall x (some { k with phase := .bridging l g t slot (u.after u.config.bridgeTime) }))
  | (.refusedFull, u) => fallback x k l t.cell .close u
  | (.refusedLinkDown, u) => fallback x k l t.cell .close u

/-- The HID of the record a context names (R120, R125). -/
def handsetHid (s : State) (i : RecIx) : Hid := ((s.record i).hid).getD 0

/-- The delivery of a READY to the context of a transaction (R79, R125, R133). -/
def deliverReady (x : Channel) (t : Txn) (slot : Slot) (s : State) : State :=
  match s.call x with
  | none => s
  | some k =>
    match k.phase with
    | .opening c n =>
      if n = t then
        reply (.callAck x .connected)
          (s.setCall x (some { k with phase := .active ⟨c, slot⟩ (some (settleDeadline s)) }))
      else s
    | .active .. => s
    | .preparing l g r n => if n = t then offerHoCmd x k l g r n slot (handsetHid s k.handset) s else s
    | .bridging .. => s
    | .rescuing none _ => s
    | .rescuing (some (r, n)) _ => if n = t then commit x k none r slot true s else s

/-! ### Takes of the handover controller (R117 to R123) -/

/-- An admitted handover or pre-emptive rescue leads to PREPARING (R123). -/
def beginPreparing (x : Channel) (t : Target) (n : Txn) (s : State) : State :=
  s.modCall x fun k =>
    match k.phase with
    | .active l g => { k with phase := .preparing l g t n }
    | .opening .. => k
    | .preparing .. => k
    | .bridging .. => k
    | .rescuing .. => k

/-- A QUALITY, RELIEF or DRAIN request of an ACTIVE context (R119 to R121). A LEG-OPEN that the queue refuses counts as a
fallback (R120; log 16). -/
def takeHandover (r : Request) (i : RecIx) (s : State) : State :=
  let ordinary := !r.kind.urgent
  if ordinary && s.hold.active then refuseRequest r.channel r.target (countRefusal .hold s)
  else
    match tryTarget r.channel i r.target .handover ordinary s with
    | .refused code u => refuseRequest r.channel r.target (countRefusal code u)
    | .queueRefused u => refuseRequest r.channel r.target (countFallback u)
    | .admitted n v u =>
      settleVictim nextCandidate v (beginPreparing r.channel ⟨r.target, .handover, r.kind⟩ n u)

/-- Candidates in rescue order: highest F first, the earliest on a tie (R122). The first argument bounds the list. -/
def rescueOrder : Nat → List Candidate → List CellIx
  | 0, _ => []
  | n + 1, cs =>
    match bestCandidate cs with
    | none => []
    | some c => c.cell :: rescueOrder n (cs.filter fun d => !decide (d.cell = c.cell))

/-- A pre-emptive rescue of an ACTIVE context (R122): the cells are tried in order, and the list is not changed. -/
def preemptiveRescue (x : Channel) (i : RecIx) (requested : CellIx) : List CellIx → State → State
  | [], s => refuseRequest x requested s
  | t :: ts, s =>
    match tryTarget x i t .rescue false s with
    | .refused code u => preemptiveRescue x i requested ts (countRefusal code u)
    | .queueRefused u => preemptiveRescue x i requested ts (countRefusal .queueFull u)
    | .admitted n v u => settleVictim nextCandidate v (beginPreparing x ⟨t, .rescue, .rescue⟩ n u)

/-- The request the controller takes next, and the queue without it (R117). -/
def Hrq.next (q : Hrq) : Option (Request × Hrq) :=
  match q.urgent with
  | r :: rs => some (r, { q with urgent := rs })
  | [] =>
    match q.normal with
    | r :: rs => some (r, { q with normal := rs })
    | [] => none

/-- A taken request is judged on its context as it stands (R118). -/
def judgeRequest (r : Request) (s : State) : State :=
  match s.call r.channel with
  | none => s
  | some k =>
    match k.phase with
    | .opening .. => s
    | .active .. =>
      match r.kind with
      | .rescue =>
        preemptiveRescue r.channel k.handset r.target
          (r.target :: (rescueOrder k.candidates.length k.candidates).filter fun c => !decide (c = r.target)) s
      | .drain => takeHandover r k.handset s
      | .quality => takeHandover r k.handset s
      | .relief => takeHandover r k.handset s
    | .preparing .. => s
    | .bridging .. => s
    | .rescuing none _ =>
      match r.kind with
      | .rescue => rescueTry Config.rescueFuel r.channel r.target s
      | .drain => s
      | .quality => s
      | .relief => s
    | .rescuing (some _) _ => s

/-- One take (R117): the request leaves the queue, its flag is cleared, and it is judged. -/
def takeOne (s : State) : State :=
  match s.hrq.next with
  | none => s
  | some (r, q) => judgeRequest r (setPosted r.channel false { s with hrq := q })

/-- A context waiting for room (R116): RESCUING, no target, flag clear. -/
def Call.waitsForRoom (k : Call) : Bool :=
  match k.phase with
  | .rescuing none _ => !k.posted
  | .rescuing (some _) _ => false
  | .opening .. => false
  | .active .. => false
  | .preparing .. => false
  | .bridging .. => false

/-- The waiting context of lowest channel (R116). -/
def firstWaiting (s : State) : Option Channel :=
  (allIndices 128).find? fun x => match s.call x with
    | none => false
    | some k => k.waitsForRoom

/-- A free place is offered to the waiting context of lowest channel, which posts its RESCUE (R116). -/
def offerPlace (s : State) : State :=
  if s.hrq.total < Config.hrqCapacity then
    match firstWaiting s with
    | none => s
    | some x => postRescue x s
  else s

/-! ### Cell loss and drain start at a context (R67, R95, R135) -/

/-- The share of a context's target in a cell loss or a drain start (R135): `legEnd` is what becomes of a READY leg. -/
def loseTarget (lost : CellIx → Bool) (legEnd : TargetEnd) (x : Channel) (s : State) : State :=
  match s.call x with
  | none => s
  | some k =>
    match k.phase with
    | .opening .. => s
    | .active .. => s
    | .preparing l _ t n => if lost t.cell then fallback x k l t.cell (.cancel n) s else s
    | .bridging l _ t _ _ => if lost t.cell then fallback x k l t.cell legEnd s else s
    | .rescuing none _ => s
    | .rescuing (some (t, n)) d =>
      if lost t.cell then nextCandidate x (endAttempt x k t.cell d (cancelTxn n s)) else s

/-- The failed open of a cell loss (R80). -/
def LossCause.fail : LossCause → FailCause
  | .cellDisabled => .cellDisabled
  | .cellDrained => .cellDrained
  | .linkDown => .linkDown

/-- The share of a context's initial open or serving leg in a cell loss (R95). -/
def loseServing (lost : CellIx → Bool) (cause : LossCause) (x : Channel) (s : State) : State :=
  match s.call x with
  | none => s
  | some k =>
    match k.phase with
    | .opening c n => if lost c then failedOpen x k c cause.fail (cancelTxn n s) else s
    | .active .. | .preparing .. | .bridging .. | .rescuing .. =>
      match k.phase.serving with
      | none => s
      | some l =>
        if lost l.cell then
          match cause with
          | .cellDisabled => dropCall x .cellDisabled false s
          | .cellDrained => dropCall x .cellDrained false s
          | .linkDown => servingLegLoss x .linkDown s
        else s

/-- A cell loss at a context (R95): its target first, then its serving leg. -/
def lossAtContext (lost : CellIx → Bool) (cause : LossCause) (x : Channel) (s : State) : State :=
  loseServing lost cause x
    (loseTarget lost (match cause with
      | .linkDown => .lost
      | .cellDisabled => .close
      | .cellDrained => .close) x s)

/-- The candidate with the highest F whose cell is present and IN_SERVICE (R107, R108). -/
def bestLive (s : State) (cs : List Candidate) : Option Candidate :=
  bestCandidate (cs.filter fun c => (s.cell c.cell).live)

/-- A drain start at a context (R67, R109, R135). -/
def drainStartAt (c : CellIx) (x : Channel) (s : State) : State :=
  let s := loseTarget (fun d => decide (d = c)) .close x s
  match s.call x with
  | none => s
  | some k =>
    match k.phase with
    | .active l _ =>
      if l.cell = c ∧ k.posted = false then
        match bestLive s k.candidates with
        | none => s
        | some b => hrqPost ⟨x, b.cell, .drain, s.now⟩ s
      else s
    | .opening .. => s
    | .preparing .. => s
    | .bridging .. => s
    | .rescuing .. => s

end Sys2Proof.Machine
end

