-- ==== Sys2Proof/Machine/Evaluator.lean ====
section
/-! DEFINITION. The Measurement Evaluator (chapter 6): filter, candidate list, scoring, and the three posting tests. -/

namespace Sys2Proof.Machine

/-- One update of a filtered quality (R98): F + trunc((16 × q − F) / 2^k), toward zero. -/
def filterQuality (k f q : Nat) : Nat := ((f : Int) + Int.tdiv (16 * (q : Int) - (f : Int)) (2 ^ k : Nat)).toNat

/-- The entry with the lowest F, the earliest on a tie (R102). -/
def worstCandidate : List Candidate → Option Candidate
  | [] => none
  | c :: cs =>
    match worstCandidate cs with
    | none => some c
    | some d => if d.f < c.f then some d else some c

/-- Removes the first entry of a cell; the entries after it move up (R100). -/
def removeCell (t : CellIx) : List Candidate → List Candidate
  | [] => []
  | c :: cs => if c.cell = t then cs else c :: removeCell t cs

/-- A neighbour cell that is not held enters the list, if it may (R102). -/
def enterCandidate (c : CellIx) (q : Quality) (cs : List Candidate) : List Candidate :=
  let new : Candidate := ⟨c, 16 * q.val, 0, 0⟩
  if cs.length < Config.candidateCapacity then cs ++ [new]
  else
    match worstCandidate cs with
    | none => cs
    | some w => if w.f < 16 * q.val then removeCell w.cell cs ++ [new] else cs

/-- One pair of a report (R101). The second component lists the cells named so far. -/
def takePair (serving : CellIx) (r : CellRec) (st : List Candidate × List CellIx) (p : CellIx × Quality) :
    List Candidate × List CellIx :=
  let (cs, named) := st
  (if p.1 = serving ∨ p.1 ∈ named then cs
    else if cs.any fun c => decide (c.cell = p.1) then
      cs.map fun c => if c.cell = p.1 then { c with f := filterQuality r.shift c.f p.2.val, miss := 0 } else c
    else if (marginOf p.1 r.neighbours).isNone then cs
    else enterCandidate p.1 p.2 cs,
   p.1 :: named)

/-- Step 2: the pairs in report order (R101). -/
def takePairs (serving : CellIx) (r : CellRec) (pairs : List (CellIx × Quality)) (cs : List Candidate) :
    List Candidate × List CellIx :=
  pairs.foldl (takePair serving r) (cs, [])

/-- Step 3: entries not named are aged and removed at a miss of 3, and entries that are no neighbours are removed (R103). -/
def ageCandidates (r : CellRec) (named : List CellIx) (cs : List Candidate) : List Candidate :=
  ((cs.map fun c => if c.cell ∈ named then c else { c with miss := c.miss + 1 }).filter fun c => decide (c.miss < 3)).filter
    fun c => (marginOf c.cell r.neighbours).isSome

/-- The excess of a candidate over what is required of it (R104). -/
def excess (s : State) (r : CellRec) (fs : Nat) (c : Candidate) : Int :=
  let m := (marginOf c.cell r.neighbours).getD 0
  let h : Nat := if r.congested && !(s.cell c.cell).congested then 0 else r.hysteresis
  (c.f : Int) - ((fs : Int) + 16 * (m + (h : Int)))

/-- A candidate qualifies (R104). -/
def qualifies (s : State) (r : CellRec) (fs : Nat) (c : Candidate) : Bool :=
  decide (0 ≤ excess s r fs c) && (s.cell c.cell).live && !(s.cell c.cell).congested

/-- Step 4: the dwell of every entry (R105). -/
def scoreCandidates (s : State) (r : CellRec) (fs : Nat) (cs : List Candidate) : List Candidate :=
  cs.map fun c => { c with dwell := if qualifies s r fs c then min 7 (c.dwell + 1) else 0 }

/-- The entry of greatest excess, the earliest on a tie (R110). -/
def greatestExcess (s : State) (r : CellRec) (fs : Nat) : List Candidate → Option Candidate
  | [] => none
  | c :: cs =>
    match greatestExcess s r fs cs with
    | none => some c
    | some d => if excess s r fs c < excess s r fs d then some d else some c

/-- The rescue test (R107). -/
def rescueTest (s : State) (r : CellRec) (k : Call) : Option (CellIx × ReqKind) :=
  if k.fs < 16 * r.floor then
    (bestLive s (k.candidates.filter fun c => decide (k.fs < c.f))).map fun c => (c.cell, .rescue)
  else none

/-- The drain test (R108). -/
def drainTest (s : State) (r : CellRec) (k : Call) : Option (CellIx × ReqKind) :=
  match r.service with
  | .draining .. => (bestLive s k.candidates).map fun c => (c.cell, .drain)
  | .outOfService => none
  | .inService => none
  | .restarting _ => none

/-- The guard deadline counts as passed when the context holds none (R74, R110). -/
def guardPassed (now : Time) : Option Time → Bool
  | none => true
  | some d => passed now d

/-- The quality test (R110). -/
def qualityTest (s : State) (r : CellRec) (k : Call) : Option (CellIx × ReqKind) :=
  if guardPassed s.now k.phase.guardDeadline && !s.hold.active then
    (greatestExcess s r k.fs (k.candidates.filter fun c => decide (r.dwell ≤ c.dwell))).map
      fun c => (c.cell, if r.congested then .relief else .quality)
  else none

/-- Step 5: the first test that yields a request (R106). -/
def postingTest (s : State) (r : CellRec) (k : Call) : Option (CellIx × ReqKind) :=
  match rescueTest s r k with
  | some t => some t
  | none =>
    match drainTest s r k with
    | some t => some t
    | none => qualityTest s r k

/-- Steps 1 to 4 of a taken report (R97 to R105). -/
def evaluate (s : State) (serving : CellIx) (qs : Quality) (pairs : List (CellIx × Quality)) (k : Call) : Call :=
  let r := s.cell serving
  let fs := filterQuality r.shift k.fs qs.val
  let step2 := takePairs serving r pairs k.candidates
  { k with fs := fs, candidates := scoreCandidates s r fs (ageCandidates r step2.2 step2.1) }

/-- A taken report at channel `x`, whose call `k` is ACTIVE at `serving` (R97). -/
def takeReport (x : Channel) (k : Call) (serving : CellIx) (qs : Quality) (pairs : List (CellIx × Quality)) (s : State) :
    State :=
  let k' := evaluate s serving qs pairs k
  let s' := s.setCall x (some k')
  if k'.posted then s'
  else
    match postingTest s' (s'.cell serving) k' with
    | none => s'
    | some (t, kind) => hrqPost ⟨x, t, kind, s'.now⟩ s'

/-- A MEAS-REP (R96): taken when the context is ACTIVE, the cell serves it and the HID is its handset's. -/
def measReport (c : CellIx) (h : Hid) (x : Channel) (qs : Quality) (pairs : List (CellIx × Quality)) (s : State) : State :=
  let untimely := s.count fun d => { d with untimelyReports := d.untimelyReports.bump }
  match s.call x with
  | none => untimely
  | some k =>
    match k.phase with
    | .active l _ =>
      if l.cell = c ∧ ((s.record k.handset).enrolled.map (·.hid)) = some h then takeReport x k c qs pairs s else untimely
    | .opening .. => untimely
    | .preparing .. => untimely
    | .bridging .. => untimely
    | .rescuing .. => untimely

end Sys2Proof.Machine
end

