-- ==== Sys2Proof/Machine/Voice.lean ====
section
/-! DEFINITION. The Voice Path (R88 to R92) and the answer matcher's judgement of a LEG-ACK (R141 to R145) and a
LEG-LOST (R93). -/

namespace Sys2Proof.Machine

/-- Forwards a VOX to the trunk (R89): the next expected sequence moves past it and the stale run ends. -/
def forwardVoice (v : Vox) (k : Call) (s : State) : State :=
  trunkVoice v (s.setCall v.channel (some { k with nextSeq := some (v.seq + 1), staleRun := 0 }))

/-- Whether R89 forwards a sequence: at or after the next expected one. A sequence 127 past that, which is 128 past the last
forwarded and so not after it, is forwarded by the rule of forwarding: DESIGN CHOICE (log 35). -/
def inSequence (k : Call) (q : Seq) : Bool :=
  match k.nextSeq with
  | none => true
  | some n => atOrAfter q n

/-- An accepted VOX that is not forwarded (R89). -/
def staleVoice (x : Channel) (k : Call) (s : State) : State :=
  s.setCall x (some { k with staleRun := min 8 (k.staleRun + 1) })

/-- An accepted VOX from the serving cell: R89, and the resynchronisation of R90. -/
def servingVoice (v : Vox) (k : Call) (s : State) : State :=
  if inSequence k v.seq || decide (8 ≤ k.staleRun) then forwardVoice v k s else staleVoice v.channel k s

/-- An accepted VOX from the target cell in BRIDGING: the first that is forwarded commits (R91). -/
def targetVoice (v : Vox) (k : Call) (l : Leg) (t : Target) (slot : Slot) (s : State) : State :=
  if inSequence k v.seq then
    commit v.channel { k with nextSeq := some (v.seq + 1), staleRun := 0 } (some l) t slot false (forwardVoice v k s)
  else staleVoice v.channel k s

/-- An uplink VOX from cell `c` (R88). -/
def uplinkVoice (c : CellIx) (v : Vox) (s : State) : State :=
  let stray := countStrayVoice (linkOf (portOf c)) s
  match s.call v.channel with
  | none => stray
  | some k =>
    match k.phase with
    | .opening .. => stray
    | .active l _ => if l.cell = c then servingVoice v k s else stray
    | .preparing l _ _ _ => if l.cell = c then servingVoice v k s else stray
    | .bridging l _ t slot _ =>
      if l.cell = c then servingVoice v k s
      else if t.cell = c then targetVoice v k l t slot s
      else stray
    | .rescuing .. => stray

/-- A downlink VOX (R92). -/
def downlinkVoice (v : Vox) (s : State) : State :=
  let stray := countStrayVoice trunkLink s
  match s.call v.channel with
  | none => stray
  | some k =>
    match k.phase with
    | .opening .. => stray
    | .active l _ => laneVoice l.cell v s
    | .preparing l _ _ _ => laneVoice l.cell v s
    | .bridging l _ t _ _ => laneVoice t.cell v (laneVoice l.cell v s)
    | .rescuing .. => stray

/-- A cell holds a channel (R141). -/
def holdsChannel (s : State) (c : CellIx) (x : Channel) : Bool :=
  match s.call x with
  | none => false
  | some k =>
    (match k.phase with
      | .opening d _ => decide (d = c)
      | .active l _ => decide (l.cell = c)
      | .preparing l _ t _ => decide (l.cell = c) || decide (t.cell = c)
      | .bridging l _ t _ _ => decide (l.cell = c) || decide (t.cell = c)
      | .rescuing a _ => match a with
        | none => false
        | some (t, _) => decide (t.cell = c))

/-- An unwanted READY is closed unless the cell holds the channel (R142); an unwanted FAIL needs nothing. -/
def unwanted (c : CellIx) (x : Channel) (o : AckOutcome) (s : State) : State :=
  match o with
  | .ready _ => if holdsChannel s c x then s else closeAdd c x s
  | .fail _ => s

/-- A sync error under the FAIL policy (R144); under DISCARD the entry waits. -/
def syncError (a : Answer) (s : State) : State :=
  match s.config.sync with
  | .discard => s
  | .fail => resolveFail nextCandidate a .sync s

/-- A LEG-ACK from cell `c` (R143 to R145). A sync error's READY is judged on the contexts as they stand when the answer
is judged (R141), before the entry resolves: DEDUCED (log 21). -/
def legAnswer (c : CellIx) (t : Txn) (x : Channel) (o : AckOutcome) (s : State) : State :=
  match s.answerOf t with
  | none => unwanted c x o (s.count fun d => { d with strayAnswers := d.strayAnswers.bump })
  | some a =>
    if a.cell = c ∧ a.channel = x then
      let u := freeAnswer a s
      if a.cancelled then unwanted c x o u
      else
        match o with
        | .ready slot => deliverReady x t slot u
        | .fail cause => deliverFail nextCandidate x t cause u
    else syncError a (unwanted c x o (s.count fun d => { d with syncErrors := d.syncErrors.bump }))

/-- A LEG-LOST that is taken: the cause is stored and counted (R93). -/
def recordLoss (x : Channel) (cause : Byte) (s : State) : State :=
  (s.modCall x fun k => { k with lossCause := some cause }).count fun d => { d with legsLost := d.legsLost.bump }

/-- A LEG-LOST from cell `c` (R93, R94). -/
def legLostAt (c : CellIx) (x : Channel) (cause : Byte) (s : State) : State :=
  match s.call x with
  | none => s
  | some k =>
    let k' := { k with lossCause := some cause }
    match k.phase with
    | .opening d n => if d = c then failedOpen x k' d .legLost (cancelTxn n (recordLoss x cause s)) else s
    | .active l _ => if l.cell = c then servingLegLoss x .radioLost (recordLoss x cause s) else s
    | .preparing l _ _ _ => if l.cell = c then servingLegLoss x .radioLost (recordLoss x cause s) else s
    | .bridging l _ t _ _ =>
      if l.cell = c then servingLegLoss x .radioLost (recordLoss x cause s)
      else if t.cell = c then fallback x k' l t.cell .lost (recordLoss x cause s)
      else s
    | .rescuing .. => s

end Sys2Proof.Machine
end

