-- ==== Sys2Proof/Machine/Attach.lean ====
section
/-! DEFINITION. The registry's handling of ATTACH-REQ and DETACH-IND (R24 to R26, R29), which may drop a call (R85), and
the call context table's handling of CALL-OPEN, CALL-CLEAR and CALL-REQ (R76 to R83). -/

namespace Sys2Proof.Machine

/-- The subject of an attach (R24): its index and the fields its check and its attachment are made from. -/
inductive Subject where
  | found (i : RecIx) (e : Enrolled)
  | created (i : RecIx) (e : Enrolled)
  | denied (d : Denial)

/-- Step 2 of the attach (R24): lookup, else enrolment (R22, R23). -/
def attachSubject (h : Hid) (s : State) : Subject :=
  match (s.findHid h).bind fun i => ((s.record i).enrolled).map fun e => (i, e) with
  | some (i, e) => .found i e
  | none =>
    match chosenFilter s h with
    | none => .denied (denyPlain .unknownHandset)
    | some f =>
      match freeVisitor s with
      | none => .denied (denyPlain .poolFull)
      | some i => .created i ⟨h, (s.filter f).clearance, (s.filter f).group, some f, .absent⟩

/-- Steps 4 and 5 of an admitted attach (R26): a call in progress is dropped, then the record is ATTACHED at `c`. -/
def completeAttach (i : RecIx) (e : Enrolled) (c : CellIx) (h : Hid) (claimed : Clearance) (q : Quality) (s : State) :
    State :=
  let s := match e.loc with
    | .absent => s
    | .attached .. => s
    | .engaged _ x => dropCall x .handsetReattached false s
  let s := changeLocation i e (.attached ⟨claimed, c, q⟩ (presenceDeadline s)) s
  sendAck c h .accepted s

/-- Steps 3 to 5 (R25, R26). A visitor created by an attach that is refused is freed at once: it is never written. -/
def checkAndAttach (i : RecIx) (e : Enrolled) (c : CellIx) (h : Hid) (claimed : Clearance) (q : Quality) (s : State) :
    State :=
  match accessCheck s (effective claimed e.clearance) e.group c .register with
  | some d => sendAck c h (.refused d) s
  | none => completeAttach i e c h claimed q s

/-- An attach is deferred by the hold unless its handset is ATTACHED or ENGAGED (R24). -/
def deferred (s : State) : Subject → Bool
  | .found _ e => s.hold.active && decide (e.loc = .absent)
  | .created .. => s.hold.active
  | .denied _ => s.hold.active

/-- An ATTACH-REQ (R24 to R26). -/
def attach (c : CellIx) (h : Hid) (claimed : Clearance) (q : Quality) (s : State) : State :=
  let subject := attachSubject h s
  if deferred s subject then sendAck c h (.defer s.config.deferBackoff) s
  else
    match subject with
    | .denied d => sendAck c h (.refused d) s
    | .found i e => checkAndAttach i e c h claimed q s
    | .created i e => checkAndAttach i e c h claimed q s

/-- A DETACH-IND (R29), accepted from any cell. -/
def detach (h : Hid) (s : State) : State :=
  match s.findHid h with
  | none => s
  | some i =>
    match (s.record i).enrolled with
    | none => s
    | some e =>
      match e.loc with
      | .absent => s
      | .attached .. => changeLocation i e .absent s
      | .engaged _ x => dropCall x .handsetDetached false s

/-- The context of an admitted CALL-OPEN (R77). -/
def newCall (i : RecIx) (p : Priority) (a : Attachment) (t : Txn) : Call :=
  { handset := i, priority := p, phase := .opening a.cell t, fs := 16 * a.quality.val, candidates := [], posted := false,
    nextSeq := none, staleRun := 0, handovers := 0, lossCause := none }

/-- The offer of the initial LEG-OPEN with the allocation of its transaction (R78). -/
def offerInitialOpen (x : Channel) (k : Call) (h : Hid) (c : CellIx) (t : Txn) (s : State) : State :=
  match offer (.legOpen c t x h .initial) s with
  | (.taken v, u) => settleVictim nextCandidate v (allocateTxn t x c u)
  | (.refusedFull, u) => failedOpen x k c .queueFull u
  | (.refusedLinkDown, u) => failedOpen x k c .linkDown u

/-- Checks 5 and 6, the engage and the offer (R77, R78), on a state whose reserve is made. -/
def admitCall (x : Channel) (p : Priority) (i : RecIx) (e : Enrolled) (a : Attachment) (s : State) : State :=
  if s.txnAvailable then
    let k := newCall i p a s.nextTxn
    offerInitialOpen x k e.hid a.cell s.nextTxn ((engage i e a x s).setCall x (some k))
  else reply (.callAck x (.denied (denyPlain .noTransaction))) (releaseSlot a.cell s)

/-- Checks 3 to 6 of a CALL-OPEN for an ATTACHED record (R76, R77). -/
def openAttached (x : Channel) (p : Priority) (i : RecIx) (e : Enrolled) (a : Attachment) (s : State) : State :=
  if s.hold.active && !decide (p = 3) then reply (.callAck x (.denied (denyPlain .hold))) s
  else
    match checkStored s e a a.cell .callSetup with
    | some d => reply (.callAck x (.denied d)) s
    | none =>
      match reserve a.cell (initialLimit (s.cell a.cell) p) s with
      | .error code => reply (.callAck x (.denied (denyCell code a.cell))) s
      | .ok u => admitCall x p i e a u

/-- A CALL-OPEN (R76 to R78). -/
def openCall (x : Channel) (h : Hid) (p : Priority) (s : State) : State :=
  match s.call x with
  | some _ => reply (.callAck x .channelBusy) s
  | none =>
    let notAttached := reply (.callAck x (.denied (denyPlain .notAttached))) s
    match s.findHid h with
    | none => notAttached
    | some i =>
      match (s.record i).enrolled with
      | none => notAttached
      | some e =>
        match e.loc with
        | .absent => notAttached
        | .engaged .. => reply (.callAck x (.denied (denyPlain .handsetBusy))) s
        | .attached a _ => openAttached x p i e a s

/-- A CALL-CLEAR (R83). -/
def clearCall (x : Channel) (s : State) : State :=
  match s.call x with
  | none => reply (.callAck x .notOpen) s
  | some k => reply (.callAck x .cleared) (endCall x k false .recheck s)

/-- A CALL-REQ from cell `c` (R81, R38). -/
def requestCall (c : CellIx) (h : Hid) (s : State) : State :=
  let reject := fun (code : CallReject) => offerQuietly (.callReqRej c h code) s
  let notAttached := reject (.denied (denyPlain .notAttached))
  match s.findHid h with
  | none => notAttached
  | some i =>
    match (s.record i).enrolled with
    | none => notAttached
    | some e =>
      match e.loc with
      | .absent => notAttached
      | .engaged .. => notAttached
      | .attached a _ =>
        if a.cell = c then
          match checkStored s e a c .callSetup with
          | some d => reject (.denied d)
          | none => if s.noticeRoom then pushNotice (.callReq h i c) s else reject .busy
        else notAttached

/-- A PAGE-RSP from cell `c` (R168). -/
def pageResponse (c : CellIx) (h : Hid) (q : Quality) (s : State) : State :=
  match s.pagingEntry fun p => decide (p.hid = h) with
  | none => (locationUpdate true c h q s).2
  | some e =>
    match locationUpdate false c h q s with
    | (.refreshed, t) => settlePage e (.found c) t
    | (.moved, t) => settlePage e (.found c) t
    | (.revoked d, t) => settlePage e (.refused d) t
    | (.engaged, t) => t
    | (.notAttached, t) => t

end Sys2Proof.Machine
end

