-- ==== Sys2Proof/Machine/Ports.lean ====
section
/-! DEFINITION. Transmission (R10, R12, R152, R153) and the notice queue as it drains (R37 to R39). -/

namespace Sys2Proof.Machine

/-! ### Cell ports -/

/-- Takes the oldest entry of a priority out of a control queue. -/
def takeFirst (p : Priority) : List CtlFrame → Option (CtlFrame × List CtlFrame)
  | [] => none
  | f :: fs =>
    if f.priority = p then some (f, fs)
    else
      match takeFirst p fs with
      | none => none
      | some (g, rest) => some (g, f :: rest)

/-- The order among close-set pairs: lowest channel, then lowest cell (R152). -/
def pairBefore (a b : CellIx × Channel) : Bool :=
  decide (a.2 < b.2) || (decide (a.2 = b.2) && decide (a.1 < b.1))

/-- The pair a port sends first (R152). -/
def firstPair : List (CellIx × Channel) → Option (CellIx × Channel)
  | [] => none
  | p :: ps =>
    match firstPair ps with
    | none => some p
    | some q => if pairBefore q p then some q else some p

/-- Takes a pair for transmission as a LEG-CLOSE (R152). -/
def sendPair (port : CellPort) (p : CellIx × Channel) : CellPort :=
  { port with closes := port.closes.filter fun q => !decide (q = p), tx := some (.legClose p.1 p.2) }

/-- The oldest entry of a priority, taken for transmission. -/
def sendFirst (port : CellPort) (p : Priority) : Option CellPort :=
  (takeFirst p port.ctl).map fun r => { port with ctl := r.2, tx := some (.control r.1) }

/-- Steps 2 to 5 of the choice (R152). -/
def sendBelow (port : CellPort) : CellPort :=
  match firstPair port.closes with
  | some p => sendPair port p
  | none => ((sendFirst port 2).orElse fun _ => (sendFirst port 1).orElse fun _ => sendFirst port 0).getD port

/-- The pair that goes before a LEG-OPEN of priority 3 to the same cell and channel (R152, exception). -/
def pairBlocking (port : CellPort) (f : CtlFrame) : Option (CellIx × Channel) :=
  match f with
  | .legOpen d _ x _ _ => port.closes.find? fun q => decide (q = (d, x))
  | .hoCmd .. => none
  | .cellRestart _ => none
  | .legCloseAll _ => none
  | .attachAck .. => none
  | .callReqRej .. => none
  | .page .. => none

/-- The next control frame (R152). -/
def sendControl (port : CellPort) : CellPort :=
  match takeFirst 3 port.ctl with
  | none => sendBelow port
  | some (f, rest) =>
    match pairBlocking port f with
    | some p => sendPair port p
    | none => { port with ctl := rest, tx := some (.control f) }

/-- The choice of an idle port in UP (R10): the oldest voice frame, else the next control frame. -/
def chooseNext (port : CellPort) : CellPort :=
  match port.lane with
  | v :: vs => { port with lane := vs, tx := some (.vox v.1 v.2) }
  | [] => sendControl port

/-- A port that is UP and has no frame in transmission chooses one (R10). -/
def choosePort (s : State) (p : PortIx) : State :=
  let port := s.port p
  match port.link, port.tx with
  | .up, none => s.setPort p (chooseNext port)
  | .up, some _ => s
  | .down, _ => s

/-- A cell port completes a transmission and chooses its next frame (R10). -/
def completeCellTx (p : PortIx) (s : State) : State :=
  match (s.port p).link with
  | .down => s
  | .up => choosePort (s.setPort p { s.port p with tx := none }) p

/-! ### Notices as they leave (R37 to R39) -/

/-- What a LOCATION notice reports (R37). -/
def locationReport (r : Record) : LocationReport :=
  match r.enrolled with
  | none => .removed
  | some e =>
    match e.loc with
    | .absent => .absent
    | .attached a _ => .attached a.cell
    | .engaged a x => .engaged a.cell x

/-- The holder after the record's notice has left: a record that is not present drops its kept HID (R37). -/
def Holder.settled : Holder → Holder
  | .empty => .empty
  | .kept _ => .empty
  | .present e => .present e

/-- The content of a notice, read as it leaves, and the state after (R37, R38, R171). A PAGE-OUTCOME notice names an entry
in OUTCOME_PENDING in every run; the other two cases are unreachable (log 19). -/
def buildNotice (n : Notice) (s : State) : NoticeBody × State :=
  match n with
  | .location i =>
    let r := s.record i
    (.location i r.hid (locationReport r) r.lastChange,
      s.setRecord i { r with holder := r.holder.settled, dirty := false, queued := false })
  | .callReq h i c => (.callReq h i c, s)
  | .pageOutcome e =>
    match s.page e with
    | none => (.pageOutcome 0 (some e) none false, s)
    | some p =>
      match p.status with
      | .settled o _ => (.pageOutcome p.hid (some e) (some o) p.repeatFlag, s.setPage e none)
      | .paging .. => (.pageOutcome p.hid (some e) none p.repeatFlag, s)
  | .immediate h o => (.pageOutcome h none (some o) false, s)

/-- The page entry of lowest index whose outcome is pending and not in the queue (R39). -/
def waitingOutcome (s : State) : Option PageIx :=
  (allIndices 16).find? fun e => match s.page e with
    | none => false
    | some p => match p.status with
      | .paging .. => false
      | .settled _ queued => !queued

/-- The record of lowest index that is dirty and not queued (R39). -/
def waitingRecord (s : State) : Option RecIx :=
  s.records.find Record.blank fun _ r => r.dirty && !r.queued

/-- Marks the notice of an entry in OUTCOME_PENDING as queued (R171). -/
def markOutcomeQueued (e : PageIx) (s : State) : State :=
  match s.page e with
  | none => s
  | some p =>
    match p.status with
    | .paging .. => s
    | .settled o _ => s.setPage e (some { p with status := .settled o true })

/-- The refill of a free place (R39). -/
def refill (s : State) : State :=
  if s.noticeRoom then
    match waitingOutcome s with
    | some e => pushNotice (.pageOutcome e) (markOutcomeQueued e s)
    | none =>
      match waitingRecord s with
      | some i => pushNotice (.location i) (s.setRecord i { s.record i with queued := true })
      | none => s
  else s

/-! ### Trunk port -/

/-- The notice at the head of the queue leaves for transmission, and its place is refilled (R12, R37, R39). -/
def sendNotice (s : State) : State :=
  match s.notices with
  | [] => s
  | n :: ns =>
    let (body, t) := buildNotice n { s with notices := ns }
    refill { t with trunk := { t.trunk with tx := some (.notice body s.now) } }

/-- The choice of an idle trunk port in UP (R12). -/
def chooseTrunk (s : State) : State :=
  match s.trunk.link, s.trunk.tx with
  | .up, none =>
    match s.trunk.voice with
    | v :: vs => { s with trunk := { s.trunk with voice := vs, tx := some (.vox v) } }
    | [] =>
      match s.trunk.replies with
      | r :: rs => { s with trunk := { s.trunk with replies := rs, tx := some (.reply r) } }
      | [] => sendNotice s
  | .up, some _ => s
  | .down, _ => s

/-- The trunk completes a transmission and chooses its next frame (R12). -/
def completeTrunkTx (s : State) : State :=
  match s.trunk.link with
  | .down => s
  | .up => chooseTrunk { s with trunk := { s.trunk with tx := none } }

end Sys2Proof.Machine
end

