-- ==== Sys2Proof/Machine/Events.lean ====
section
/-! DEFINITION. What follows an event before the next (log 4, log 5, log 7): the offer of freed places (R116), the choice
of an idle port that was handed a frame (R10, R12), the fill reports and the hold transition (R157, R159, R161), and the
takes of the handover controller (R117). -/

namespace Sys2Proof.Machine

/-- Offers `n` freed places, one to each waiting context (R116). -/
def offerPlaces : Nat → State → State
  | 0, s => s
  | n + 1, s => offerPlaces n (offerPlace s)

/-- An idle port whose lane, queue or close set the event changed chooses its next frame (R10). -/
def kickPort (before : State) (s : State) (p : PortIx) : State :=
  if before.port p = s.port p then s else choosePort s p

/-- The idle trunk chooses when the event handed it a frame or a notice (R12). -/
def kickTrunk (before s : State) : State :=
  if before.trunk = s.trunk ∧ before.notices = s.notices then s else chooseTrunk s

/-- The owners whose fill the event changed report it, with the fill it leaves (R157). The reporting event of the request
queue is the one that stored a request, or a take: DESIGN CHOICE (log 36). -/
def reportFills (before s : State) : State :=
  { s with hold := { s.hold with
      hrqHigh :=
        if s.hrq.total = before.hrq.total then s.hold.hrqHigh
        else judgeSource Config.hrqOn Config.hrqOff s.hrq.total s.hold.hrqHigh
      txnHigh :=
        if s.answers.length = before.answers.length then s.hold.txnHigh
        else judgeSource Config.txnOn Config.txnOff s.answers.length s.hold.txnHigh
      noticeFull :=
        if s.notices.length = before.notices.length then s.hold.noticeFull
        else judgeSource Config.noticeOn Config.noticeOff s.notices.length s.hold.noticeFull } }

/-- The sweep engine takes a hold that begins (R161). -/
def Sweep.holdBegins (w : Sweep) : Sweep :=
  match w.state with
  | .idle => w
  | .running => { w with state := .suspended true }
  | .suspended _ => w

/-- The sweep engine takes a hold that ends (R161). -/
def Sweep.holdEnds (w : Sweep) : Sweep :=
  match w.state with
  | .idle => w
  | .running => w
  | .suspended true => { w with state := .running }
  | .suspended false => w

/-- Hands a transition of the combined hold to the sweep engine (R159). -/
def holdTransition (wasActive : Bool) (s : State) : State :=
  if s.hold.active = wasActive then s
  else if s.hold.active then { s with sweep := s.sweep.holdBegins }
  else { s with sweep := s.sweep.holdEnds }

/-- The end of one event that led from `before` to `s`. -/
def finish (before s : State) : State :=
  let s := offerPlaces (before.hrq.total - s.hrq.total) s
  let s := (allIndices 4).foldl (kickPort before) s
  let s := kickTrunk before s
  let s := reportFills before s
  holdTransition before.hold.active s

/-- The controller takes while a request waits and fewer than 16 contexts are in execution, each take an event (R117). -/
def takeLoop : Nat → State → State
  | 0, s => s
  | n + 1, s =>
    if s.hrq.total = 0 ∨ Config.inExecutionLimit ≤ s.inExecution then s
    else takeLoop n (finish s (takeOne s))

/-- Takes follow an event that changed the request queue or brought a context out of execution (R117). -/
def takes (before s : State) : State :=
  if s.hrq = before.hrq ∧ before.inExecution ≤ s.inExecution then s else takeLoop Config.takeFuel s

/-- One event: its own effect, its end, and the takes it leads to. The end, with its report of the fills, comes before the
takes, and each take has an end of its own: DESIGN CHOICE (log 36). -/
def event (f : State → State) (s : State) : State := takes s (finish s (f s))

/-- An event of its own at each context that is not IDLE, in ascending channel order: R67 gives a drain start this order, and
for a cell loss it is a DESIGN CHOICE (log 6). The takes follow each context's event: DEDUCED (log 5). -/
def eachContext (f : Channel → State → State) (s : State) : State :=
  (allIndices 128).foldl (fun s x => match s.call x with
    | none => s
    | some _ => event (f x) s) s

end Sys2Proof.Machine
end

