-- ==== Sys2Proof/Machine/Frames.lean ====
section
/-! DEFINITION. Span frames: the frame check (R5), the bytes of a sent frame (R5, R10, R12, R18), and the acceptance of a
received frame (R6 to R8) with its dispatch (R9). The byte places of received frames that R18 does not lay out are PRESUMED
(log 8). In sent frames the fields of known width stand high byte first, at places that are free (log 25, log 37). -/

/-- FREE VALUE (log 25): the layout of the frames of a cell port that R18 does not lay out: for each number, a place for a
field and the bytes of a gap between fields. -/
opaque Sys2Proof.Config.cellFields : Sys2Proof.Machine.CellTx → Nat → Nat × List Sys2Proof.Byte

/-- FREE VALUE (log 25): the layout of CALL-ACK, CALL-DROP and NOTICE, which R18 does not lay out, in the same form. -/
opaque Sys2Proof.Config.trunkFields : Sys2Proof.Machine.TrunkTx → Nat → Nat × List Sys2Proof.Byte

/-- FREE VALUE (log 25): the layout of the data of a response, which the spec does not give, in the same form. -/
opaque Sys2Proof.Config.responseData : Sys2Proof.Machine.RspData → Nat → Nat × List Sys2Proof.Byte

namespace Sys2Proof.Machine

/-! ### Frame check (R5) -/

/-- One bit enters the register of x^16 + x^12 + x^5 + 1. -/
def crcBit (r : BitVec 16) (b : Bool) : BitVec 16 := if r.msb != b then (r <<< 1) ^^^ 0x1021#16 else r <<< 1

/-- One byte enters, most significant bit first. -/
def crcByte (r : BitVec 16) (b : Byte) : BitVec 16 :=
  [7, 6, 5, 4, 3, 2, 1, 0].foldl (fun r i => crcBit r (b.getLsbD i)) r

/-- The frame check of some bytes: the register starts at FFFFh, and nothing is reversed or inverted. -/
def frameCheck (bytes : List Byte) : BitVec 16 := bytes.foldl crcByte 0xFFFF#16

/-- A 16-bit field, high byte first (R18). -/
def bytes16 (v : BitVec 16) : List Byte := [v.extractLsb' 8 8, v.extractLsb' 0 8]

/-- A 32-bit field, high byte first (R18). -/
def bytes32 (v : BitVec 32) : List Byte :=
  [v.extractLsb' 24 8, v.extractLsb' 16 8, v.extractLsb' 8 8, v.extractLsb' 0 8]

/-- A frame: common header, kind fields, frame check (R18). -/
def sealFrame (kind address : Byte) (fields : List Byte) : List Byte :=
  let covered := kind :: address :: (bytes16 (BitVec.ofNat 16 (fields.length + 6)) ++ fields)
  covered ++ bytes16 (frameCheck covered)

/-- The last two bytes of a frame are the check of the bytes before them (R5). -/
def checkAgrees (bytes : List Byte) : Bool :=
  decide (bytes.drop (bytes.length - 2) = bytes16 (frameCheck (bytes.take (bytes.length - 2))))

/-! ### Kind codes (R18) -/

/-- The kind code of a frame in transmission on a cell port. -/
def CellTx.kind : CellTx → Byte
  | .vox .. => 0x40
  | .legClose .. => 0x24
  | .control (.attachAck ..) => 0x21
  | .control (.callReqRej ..) => 0x22
  | .control (.legOpen ..) => 0x23
  | .control (.legCloseAll _) => 0x25
  | .control (.hoCmd ..) => 0x26
  | .control (.page ..) => 0x27
  | .control (.cellRestart _) => 0x28

/-- The destination of a frame in transmission on a cell port. -/
def CellTx.dest : CellTx → CellIx
  | .vox c _ => c
  | .legClose c _ => c
  | .control f => f.dest

/-- The address byte of a frame sent on a cell port (R10). -/
def CellTx.address (t : CellTx) : Byte := BitVec.ofNat 8 (localAddress t.dest).val

/-- The kind code of a frame in transmission on the trunk. -/
def TrunkTx.kind : TrunkTx → Byte
  | .vox _ => 0x40
  | .reply (.callAck ..) => 0x61
  | .reply (.callDrop ..) => 0x62
  | .reply (.mgmtRsp ..) => 0x64
  | .notice .. => 0x63

/-- The code of a management result (R181). -/
def MgmtResult.code : MgmtResult → Byte
  | .ok => 0x00
  | .okClamped => 0x01
  | .badOperation => 0x02
  | .badTable => 0x03
  | .badIndex => 0x04
  | .badValue => 0x05
  | .duplicate => 0x06
  | .inUse => 0x07
  | .structural => 0x08
  | .wrongState => 0x09
  | .linkDown => 0x0A
  | .sweepActive => 0x0B
  | .sweepLocked => 0x0C
  | .hold => 0x0D
  | .busy => 0x0E
  | .unstated c => c

/-! ### The bytes of a sent frame (R5, R10, R12, R18) -/

/-- Puts each field at its place among the fields after it; a place past the last of them is the last place. -/
def arrange (place : Nat → Nat) : List (List Byte) → List (List Byte)
  | [] => []
  | w :: ws =>
    let us := arrange place ws
    us.take (place ws.length) ++ w :: us.drop (place ws.length)

/-- Fields with a gap before each and after the last, the gaps cut to `room` bytes together. -/
def spread (gap : Nat → List Byte) : Nat → List (List Byte) → List Byte
  | room, [] => (gap 0).take room
  | room, w :: ws =>
    let g := (gap (ws.length + 1)).take room
    g ++ (w ++ spread gap (room - g.length) ws)

/-- Fields laid out whole, apart and in an order that the layout gives, with what else it gives between them, in at most
`limit` bytes. -/
def layOut (limit : Nat) (layout : Nat → Nat × List Byte) (ws : List (List Byte)) : List Byte :=
  (spread (fun n => (layout n).2) (limit - ws.flatten.length) (arrange (fun n => (layout n).1) ws)).take limit

/-- A field of one byte. -/
def bytes8 (n : Nat) : List Byte := [BitVec.ofNat 8 n]

/-- A number as a field of two bytes, high byte first (R18). -/
def number16 (n : Nat) : List Byte := bytes16 (BitVec.ofNat 16 n)

/-- The fields of a control frame whose width is known (R27, R78, R81, R120, R125, R166; widths: log 37). -/
def CtlFrame.parts : CtlFrame → List (List Byte)
  | .hoCmd _ n x h t slot => [number16 n.toNat, bytes8 x.val, bytes32 h, bytes8 t.val, bytes8 slot.val]
  | .legOpen _ n x h _ => [number16 n.toNat, bytes8 x.val, bytes32 h]
  | .cellRestart _ => []
  | .legCloseAll _ => []
  | .attachAck _ h _ => [bytes32 h]
  | .callReqRej _ h _ => [bytes32 h]
  | .page _ h => [bytes32 h]

/-- Where a handset is, as a LOCATION notice says it (R37). -/
def LocationReport.parts : LocationReport → List (List Byte)
  | .removed => []
  | .absent => []
  | .attached c => [bytes8 c.val]
  | .engaged c x => [bytes8 c.val, bytes8 x.val]

/-- The cell of the outcome FOUND (R171). -/
def PageOutcome.parts : PageOutcome → List (List Byte)
  | .found c => [bytes8 c.val]
  | .refused _ => []
  | .noAnswer => []
  | .busy => []
  | .notAttached => []
  | .listFull => []

/-- The fields of a notice whose width is known, less its time stamp (R37, R38, R171; log 37). -/
def NoticeBody.parts : NoticeBody → List (List Byte)
  | .location i h report changed =>
    number16 i.val :: ((h.map bytes32).toList ++ report.parts ++ [bytes32 changed])
  | .callReq h i c => [bytes32 h, number16 i.val, bytes8 c.val]
  | .pageOutcome h _ outcome _ => bytes32 h :: outcome.elim [] PageOutcome.parts

/-- The presence deadline of a record (R19). -/
def Record.deadline (r : Record) : Option Time :=
  match r.enrolled with
  | none => none
  | some e =>
    match e.loc with
    | .absent => none
    | .attached _ d => some d
    | .engaged .. => none

/-- The deadlines and transactions of a context (R74). -/
def Phase.words : Phase → List (List Byte)
  | .opening _ n => [number16 n.toNat]
  | .active _ g => (g.map bytes32).toList
  | .preparing _ g _ n => (g.map bytes32).toList ++ [number16 n.toNat]
  | .bridging _ g _ _ d => (g.map bytes32).toList ++ [bytes32 d]
  | .rescuing a d => (a.map fun p => number16 p.2.toNat).toList ++ [bytes32 d]

/-- The multi-byte fields of a context that is not IDLE (R74, R100). -/
def Call.words (k : Call) : List (List Byte) :=
  number16 k.handset.val :: number16 k.fs :: bytes32 k.handovers ::
    (k.phase.words ++ k.candidates.map fun d => number16 d.f)

/-- The device counters in the order of R186. -/
def DeviceCounters.words (d : DeviceCounters) : List (List Byte) :=
  ([d.committed.rescue, d.committed.drain, d.committed.quality, d.committed.relief,
    d.refusals.hold, d.refusals.cellUnknown, d.refusals.cellUnavailable, d.refusals.zoneAbsent, d.refusals.zoneClosed,
    d.refusals.clearance, d.refusals.gateMiss, d.refusals.gateMode, d.refusals.cellFull, d.refusals.noTransaction,
    d.refusals.queueFull, d.fallbacks, d.rescuesSucceeded,
    d.drops.radioLost, d.drops.rescueFailed, d.drops.rescueTimeout, d.drops.handsetDetached, d.drops.handsetReattached,
    d.drops.cellDrained, d.drops.cellDisabled, d.drops.linkDown,
    d.legsLost, d.syncErrors, d.strayAnswers, d.untimelyReports, d.replyOverflow, d.pageOutcomesLost] : List Count).map
    bytes32

/-- The multi-byte fields of the data of a response (R73, R74, R100, R113, R178, R181 to R186; widths: log 37). -/
def RspData.words : RspData → List (List Byte)
  | .none => []
  | .field _ => []
  | .recordIndex i => [number16 i.val]
  | .caps c => [number16 c.partCode, number16 c.subscribers, number16 c.closeSet]
  | .subscriber e => (e.map fun v => bytes32 v.1).toList
  | .filter f => [bytes32 f.mask, bytes32 f.value]
  | .cell _ => []
  | .neighbours _ => []
  | .zone _ => []
  | .gate _ => []
  | .config c => [number16 c.legTime, number16 c.bridgeTime, number16 c.rescueLimit, number16 c.pageInterval]
  | .registry r =>
    (r.hid.map bytes32).toList ++ bytes32 r.lastChange :: (r.deadline.map bytes32).toList
  | .context c waiting =>
    c.elim [] Call.words ++ (waiting.map fun r => bytes32 r.posted).toList
  | .cellState v => (v.deadline.map bytes32).toList
  | .service _ => []
  | .hold _ => []
  | .sweep w => [number16 w.sweep.cursor, number16 w.sweep.changed]
  | .portCounters c =>
    ([c.received, c.checkFailures, c.malformed, c.unknownCell, c.strayVoice] : List Count).map bytes32
  | .trunkCounters a b c d => ([a, b, c, d] : List Count).map bytes32
  | .deviceCounters d => d.words
  | .unstated => []

/-- The data of a response (R181): none, or its multi-byte fields high byte first among what is free (log 25), in at most
503 bytes (R180). -/
def RspData.bytes : RspData → List Byte
  | .none => []
  | d => layOut 503 (Config.responseData d) d.words

/-- The kind fields of a frame sent on a cell port: VOX as R18 lays it out; of the others the fields of known width, among
what is free (log 25). A LEG-CLOSE carries its channel (R152). -/
def CellTx.fields : CellTx → List Byte
  | .vox _ v => BitVec.ofNat 8 v.channel.val :: v.seq :: v.payload
  | .control f => layOut 506 (Config.cellFields (.control f)) f.parts
  | .legClose c x => layOut 506 (Config.cellFields (.legClose c x)) [bytes8 x.val]

/-- The kind fields of a frame sent on the trunk: VOX, and the header of MGMT-RSP with its data, as R18 lays them out; of
the others the fields of known width, among what is free (log 25): the channel of a CALL-ACK and a CALL-DROP (R80, R84),
and those of a notice with its time stamp (R37). -/
def TrunkTx.fields : TrunkTx → List Byte
  | .vox v => BitVec.ofNat 8 v.channel.val :: v.seq :: v.payload
  | .reply (.mgmtRsp tag a) => bytes16 tag ++ a.result.code :: a.data.bytes
  | .reply (.callAck x r) => layOut 506 (Config.trunkFields (.reply (.callAck x r))) [bytes8 x.val]
  | .reply (.callDrop x c) => layOut 506 (Config.trunkFields (.reply (.callDrop x c))) [bytes8 x.val]
  | .notice b builtAt => layOut 506 (Config.trunkFields (.notice b builtAt)) (b.parts ++ [bytes32 builtAt])

/-- The address byte of every frame sent on the trunk (R12). -/
def TrunkTx.address : TrunkTx → Byte := fun _ => 0

/-- A frame as a cell port sends it, its check formed as it is sent (R5, R10). -/
def CellTx.bytes (t : CellTx) : List Byte := sealFrame t.kind t.address t.fields

/-- A frame as the trunk sends it, its check formed as it is sent (R5, R12). -/
def TrunkTx.bytes (t : TrunkTx) : List Byte := sealFrame t.kind t.address t.fields

/-! ### Acceptance (R6) -/

/-- Whether a port is UP: ports 0 to 3, and 4 for the trunk. -/
def linkUp (l : LinkIx) (s : State) : Bool :=
  if h : l.val < 4 then decide ((s.port ⟨l.val, h⟩).link = .up) else decide (s.trunk.link = .up)

/-- A frame of `len` bytes from cell `c` whose check agrees: R6 from step 1 on, with `act` the owning block's work where
every checked field lies in its range. A port in DOWN receives nothing (R1). -/
def rxCell (c : CellIx) (len : Nat) (act : Option (State → State)) (s : State) : State :=
  let l := linkOf (portOf c)
  if linkUp l s then
    if 512 < len then countMalformed l s
    else
      match act with
      | none => countMalformed l (countReceived l s)
      | some f => if (s.cell c).present then f (countReceived l s) else countUnknownCell l (countReceived l s)
  else s

/-- A frame of `len` bytes from the trunk whose check agrees (R6). -/
def rxTrunk (len : Nat) (act : Option (State → State)) (s : State) : State :=
  if linkUp trunkLink s then
    if 512 < len then countMalformed trunkLink s
    else
      match act with
      | none => countMalformed trunkLink (countReceived trunkLink s)
      | some f => f (countReceived trunkLink s)
  else s

/-! ### The kinds each port receives (R7) and their owners (R9) -/

def rxAttach (c : CellIx) (h : Hid) (claimed q : Byte) : State → State :=
  rxCell c 12 (match byteIn 4 claimed, byteIn 64 q with
    | some cl, some qv => some (attach c h cl qv)
    | _, _ => none)

def rxDetach (c : CellIx) (h : Hid) : State → State := rxCell c 10 (some (detach h))

def rxPresence (c : CellIx) (h : Hid) (q : Byte) : State → State :=
  rxCell c 11 ((byteIn 64 q).map fun qv s => (locationUpdate true c h qv s).2)

def rxCallReq (c : CellIx) (h : Hid) : State → State := rxCell c 10 (some (requestCall c h))

/-- A MEAS-REP with more than six pairs is taken with its first six (R8). -/
def rxMeas (c : CellIx) (h : Hid) (channel qs : Byte) (pairs : List (Byte × Byte)) : State → State :=
  rxCell c (13 + 2 * pairs.length)
    (match byteIn 128 channel, byteIn 64 qs, pairsIn (pairs.take Config.pairLimit) with
      | some x, some q, some ps => some (measReport c h x q ps)
      | _, _, _ => none)

def rxLegAck (c : CellIx) (txn : BitVec 16) (channel outcome arg : Byte) : State → State :=
  rxCell c 11 (match ackTxn txn, byteIn 128 channel, ackOutcome outcome arg with
    | some t, some x, some o => some (legAnswer c t x o)
    | _, _, _ => none)

def rxLegLost (c : CellIx) (channel cause : Byte) : State → State :=
  rxCell c 8 ((byteIn 128 channel).map fun x => legLostAt c x cause)

def rxPageRsp (c : CellIx) (h : Hid) (q : Byte) : State → State :=
  rxCell c 11 ((byteIn 64 q).map fun qv => pageResponse c h qv)

def rxVoxUp (c : CellIx) (channel seq : Byte) (payload : List Byte) : State → State :=
  rxCell c (8 + payload.length) (if payload.length = 40 then
    (byteIn 128 channel).map fun x => uplinkVoice c ⟨x, seq, payload⟩ else none)

def rxVoxDown (channel seq : Byte) (payload : List Byte) : State → State :=
  rxTrunk (8 + payload.length) (if payload.length = 40 then
    (byteIn 128 channel).map fun x => downlinkVoice ⟨x, seq, payload⟩ else none)

def rxCallOpen (channel : Byte) (h : Hid) (priority : Byte) : State → State :=
  rxTrunk 12 (match byteIn 128 channel, byteIn 4 priority with
    | some x, some p => some (openCall x h p)
    | _, _ => none)

def rxCallClear (channel : Byte) : State → State := rxTrunk 7 ((byteIn 128 channel).map fun x => clearCall x)

def rxPageReq (h : Hid) (attempts : Byte) : State → State :=
  rxTrunk 11 (if 1 ≤ attempts.toNat ∧ attempts.toNat ≤ 8 then some (pageRequest h attempts.toNat) else none)

/-- The agent takes the oldest waiting request when it has none in execution (R14, R180). -/
def startRequest (s : State) : State :=
  match s.mgmtNow, s.trunk.mgmtIn with
  | none, r :: rs => { s with mgmtNow := some r, trunk := { s.trunk with mgmtIn := rs } }
  | none, [] => s
  | some _, _ => s

/-- A MGMT-REQ enters the management input queue, or is answered BUSY (R14). -/
def enqueueRequest (r : MgmtFrame) (s : State) : State :=
  if s.trunk.mgmtIn.length < Config.mgmtCapacity then
    startRequest { s with trunk := { s.trunk with mgmtIn := s.trunk.mgmtIn ++ [r] } }
  else reply (.mgmtRsp r.tag ⟨.busy, .none⟩) s

def rxMgmt (tag : Tag) (op : Byte) (operands : List Byte) : State → State :=
  rxTrunk (9 + operands.length) (some (enqueueRequest ⟨tag, op, operands⟩))

/-! ### A frame as the bytes of the line -/

/-- The pairs of a MEAS-REP, from its bytes (R18). -/
def pairUp : List Byte → List (Byte × Byte)
  | a :: b :: rest => (a, b) :: pairUp rest
  | [_] => []
  | [] => []

/-- The bytes of some pairs (R18). -/
def flattenPairs : List (Byte × Byte) → List Byte
  | [] => []
  | p :: ps => p.1 :: p.2 :: flattenPairs ps

def hidOf (a b c d : Byte) : Hid := a ++ b ++ c ++ d

def word16 (a b : Byte) : BitVec 16 := a ++ b

/-- Steps 4 and 6 of R6 for the frames of radio heads: the kind and the length it requires. `fields` are the kind
fields, bytes 4 to L−3. -/
def parseCell (c : CellIx) (kind : Byte) (fields : List Byte) : Option (State → State) :=
  if kind = 0x01 then
    match fields with
    | [a, b, d, e, cl, q] => some (rxAttach c (hidOf a b d e) cl q)
    | _ => none
  else if kind = 0x02 then
    match fields with
    | [a, b, d, e] => some (rxDetach c (hidOf a b d e))
    | _ => none
  else if kind = 0x03 then
    match fields with
    | [a, b, d, e, q] => some (rxPresence c (hidOf a b d e) q)
    | _ => none
  else if kind = 0x04 then
    match fields with
    | [a, b, d, e] => some (rxCallReq c (hidOf a b d e))
    | _ => none
  else if kind = 0x05 then
    match fields with
    | a :: b :: d :: e :: ch :: qs :: n :: rest =>
      if rest.length = 2 * n.toNat then some (rxMeas c (hidOf a b d e) ch qs (pairUp rest)) else none
    | _ => none
  else if kind = 0x06 then
    match fields with
    | [a, b, ch, o, arg] => some (rxLegAck c (word16 a b) ch o arg)
    | _ => none
  else if kind = 0x07 then
    match fields with
    | [ch, cause] => some (rxLegLost c ch cause)
    | _ => none
  else if kind = 0x08 then
    match fields with
    | [a, b, d, e, q] => some (rxPageRsp c (hidOf a b d e) q)
    | _ => none
  else if kind = 0x40 then
    match fields with
    | ch :: sq :: payload => if payload.length = 40 then some (rxVoxUp c ch sq payload) else none
    | _ => none
  else none

/-- Steps 4 and 6 of R6 for the frames of the call server. -/
def parseTrunk (kind : Byte) (fields : List Byte) : Option (State → State) :=
  if kind = 0x40 then
    match fields with
    | ch :: sq :: payload => if payload.length = 40 then some (rxVoxDown ch sq payload) else none
    | _ => none
  else if kind = 0x41 then
    match fields with
    | [ch, a, b, d, e, p] => some (rxCallOpen ch (hidOf a b d e) p)
    | _ => none
  else if kind = 0x42 then
    match fields with
    | [ch] => some (rxCallClear ch)
    | _ => none
  else if kind = 0x43 then
    match fields with
    | [a, b, d, e, n] => some (rxPageReq (hidOf a b d e) n)
    | _ => none
  else if kind = 0x44 then
    match fields with
    | a :: b :: op :: operands => some (rxMgmt (word16 a b) op operands)
    | _ => none
  else none

/-- Steps 3 to 6 of R6: length field, kind, address byte, required length. -/
def parseFrame (l : LinkIx) (bytes : List Byte) : Option (State → State) :=
  match bytes with
  | kind :: address :: hi :: lo :: rest =>
    if (word16 hi lo).toNat = bytes.length then
      let fields := rest.take (rest.length - 2)
      if hl : l.val < 4 then
        match byteIn 16 address with
        | none => none
        | some a => parseCell (cellAt ⟨l.val, hl⟩ a) kind fields
      else if address = 0 then parseTrunk kind fields
      else none
    else none
  | _ => none

/-- The end of a received frame (R6). A frame that passes every test is dispatched (R9). -/
def receive (l : LinkIx) (bytes : List Byte) (s : State) : State :=
  if linkUp l s then
    if bytes.length < 6 ∨ 512 < bytes.length then countMalformed l s
    else if checkAgrees bytes then
      match parseFrame l bytes with
      | none => countMalformed l (countReceived l s)
      | some f => f s
    else countCheckFailure l s
  else s

/-! ### The bytes of a frame command -/

/-- The link and the bytes of the frame that a frame command stands for; other commands are no frames. -/
def cellFrame (c : CellIx) (kind : Byte) (fields : List Byte) : LinkIx × List Byte :=
  (linkOf (portOf c), sealFrame kind (BitVec.ofNat 8 (localAddress c).val) fields)

def trunkFrame (kind : Byte) (fields : List Byte) : LinkIx × List Byte := (trunkLink, sealFrame kind 0 fields)

/-- The frame of a frame command (R7, R18), written from the layouts. -/
def frameBytes : Instr → Option (LinkIx × List Byte)
  | .attachReq c h cl q => some (cellFrame c 0x01 (bytes32 h ++ [cl, q]))
  | .detachInd c h => some (cellFrame c 0x02 (bytes32 h))
  | .presence c h q => some (cellFrame c 0x03 (bytes32 h ++ [q]))
  | .callReq c h => some (cellFrame c 0x04 (bytes32 h))
  | .measRep c h ch qs pairs =>
    some (cellFrame c 0x05 (bytes32 h ++ [ch, qs, BitVec.ofNat 8 pairs.length] ++ flattenPairs pairs))
  | .legAck c t ch o arg => some (cellFrame c 0x06 (bytes16 t ++ [ch, o, arg]))
  | .legLost c ch cause => some (cellFrame c 0x07 [ch, cause])
  | .pageRsp c h q => some (cellFrame c 0x08 (bytes32 h ++ [q]))
  | .voxUplink c ch sq payload => some (cellFrame c 0x40 (ch :: sq :: payload))
  | .voxDownlink ch sq payload => some (trunkFrame 0x40 (ch :: sq :: payload))
  | .callOpen ch h p => some (trunkFrame 0x41 (ch :: (bytes32 h ++ [p])))
  | .callClear ch => some (trunkFrame 0x42 [ch])
  | .pageReq h n => some (trunkFrame 0x43 (bytes32 h ++ [n]))
  | .mgmtReq tag op operands => some (trunkFrame 0x44 (bytes16 tag ++ op :: operands))
  | .powerOnReset => none
  | .cellPortLineUp _ => none
  | .cellPortLineDown _ => none
  | .trunkLineUp => none
  | .trunkLineDown => none
  | .badOperation _ => none
  | .readCaps _ => none
  | .tableWrite .. => none
  | .tableRead .. => none
  | .fieldModify .. => none
  | .tableClear .. => none
  | .cellEnable .. => none
  | .cellDisable .. => none
  | .cellDrain .. => none
  | .cellRestart .. => none
  | .holdSet _ => none
  | .holdClear _ => none
  | .holdEnable .. => none
  | .holdStatus .. => none
  | .sweepStart .. => none
  | .sweepSuspend _ => none
  | .sweepResume _ => none
  | .sweepAbort _ => none
  | .sweepStatus _ => none
  | .evict .. => none
  | .countersRead .. => none
  | .restart _ => none
  | .presenceDeadlineExpiry _ => none
  | .guardDeadlineExpiry _ => none
  | .bridgeDeadlineExpiry _ => none
  | .rescueDeadlineExpiry _ => none
  | .pendingDeadlineExpiry _ => none
  | .drainDeadlineExpiry _ => none
  | .restartDeadlineExpiry _ => none
  | .pageOccasion _ => none
  | .cellPortTransmitComplete _ => none
  | .trunkTransmitComplete => none
  | .sweepStep => none
  | .hrqTake => none
  | .waitingForRoomPost => none
  | .noticeRefill => none
  | .receivedFrameDiscarded .. => none

end Sys2Proof.Machine
end

