-- ==== Sys2Proof/Machine/Tables.lean ====
section
/-! DEFINITION. What management reads and writes (R182 to R186): one operation for each table, each answering the state
it leaves and the result and data of the response. A refused write answers the state it found. -/

namespace Sys2Proof.Machine

/-- The answer of a request that is refused: nothing changes (R181). -/
def refuse (r : MgmtResult) (d : RspData) (s : State) : State × MgmtAnswer := (s, ⟨r, d⟩)

/-- BAD_VALUE with the number of the first field or operand refused (R181). -/
def badValue (n : Nat) (s : State) : State × MgmtAnswer := refuse .badValue (.field n) s

def badIndex (s : State) : State × MgmtAnswer := refuse .badIndex .none s

/-- A write that is taken as it stands (R182). -/
def taken (s : State) : State × MgmtAnswer := (s, ⟨.ok, .none⟩)

/-- Test 3 of R181: the index lies in the table's range. -/
def atIndex (n i : Nat) (f : Fin n → State → State × MgmtAnswer) (s : State) : State × MgmtAnswer :=
  match inRange n i with
  | none => badIndex s
  | some j => f j s

/-! ### SUBSCRIBER (R183) -/

/-- The index of a subscriber record. -/
def subscriberIx (i : Fin 896) : RecIx := ⟨i.val, by omega⟩

/-- Another present record that holds a HID (R183). -/
def duplicateOf (i : RecIx) (h : Hid) (s : State) : Option RecIx :=
  s.records.find Record.blank fun j r => !decide (j = i) && decide (r.enrolled.map (·.hid) = some h)

/-- The holder after a taken subscriber write: a record not present becomes present in ABSENT (R183). -/
def subscriberHolder (r : Record) (h : Hid) (cl : Clearance) (g : Group) : Holder :=
  match r.enrolled with
  | none => .present ⟨h, cl, g, none, .absent⟩
  | some e => .present { e with hid := h, clearance := cl, group := g }

/-- The record after a taken subscriber write. Flags of a notice still owed are kept, DEDUCED (log 13). -/
def subscriberRecord (now : Time) (r : Record) (h : Hid) (cl : Clearance) (g : Group) : Record :=
  { r with holder := subscriberHolder r h cl g, lastChange := if r.enrolled.isNone then now else r.lastChange }

/-- A write that would change the HID of an ATTACHED or ENGAGED record (R183). -/
def hidInUse (r : Record) (h : Hid) : Bool :=
  match r.enrolled with
  | none => false
  | some e => !decide (e.loc = .absent) && !decide (e.hid = h)

/-- The judgement and effect of a subscriber write (R183). -/
def writeSubscriber (i : RecIx) (h : Hid) (clearance group : Nat) (s : State) : State × MgmtAnswer :=
  match inRange 4 clearance, inRange 32 group with
  | none, _ => badValue 2 s
  | some _, none => badValue 3 s
  | some cl, some g =>
    match duplicateOf i h s with
    | some j => refuse .duplicate (.recordIndex j) s
    | none =>
      if hidInUse (s.record i) h then refuse .inUse .none s
      else taken (s.setRecord i (subscriberRecord s.now (s.record i) h cl g))

/-- FIELD-MODIFY of a subscriber: a record that is not present is refused BAD_INDEX (R183). -/
def modifySubscriber (i : RecIx) (f : Enrolled → Hid × Nat × Nat) (s : State) : State × MgmtAnswer :=
  match (s.record i).enrolled with
  | none => badIndex s
  | some e => let w := f e; writeSubscriber i w.1 w.2.1 w.2.2 s

/-- The refusal a management withdrawal of a registration carries (R34, R183). -/
def unknownHandset : Denial := denyPlain .unknownHandset

/-- TABLE-CLEAR of a subscriber (R183). -/
def clearSubscriber (i : RecIx) (s : State) : State × MgmtAnswer :=
  match (s.record i).enrolled with
  | none => taken s
  | some e =>
    match e.loc with
    | .absent => taken (removeRecord i s)
    | .attached .. => taken (removeRecord i (revokeRecord i unknownHandset s))
    | .engaged .. => refuse .inUse .none s

/-- EVICT (R183). A present visitor is never ABSENT in a run; one that is would be removed (log 19). -/
def evict (h : Hid) (s : State) : State × MgmtAnswer :=
  match s.findHid h with
  | none => badIndex s
  | some i =>
    if isVisitor i then
      match (s.record i).enrolled with
      | none => badIndex s
      | some e =>
        match e.loc with
        | .absent => taken (removeRecord i s)
        | .attached .. => taken (revokeRecord i unknownHandset s)
        | .engaged .. => refuse .inUse .none s
    else badValue 1 s

/-! ### FILTER (R22, R183) -/

def writeFilter (f : FilterIx) (enabled : Bool) (mask value : Hid) (clearance group : Nat) (s : State) :
    State × MgmtAnswer :=
  match inRange 4 clearance, inRange 32 group with
  | none, _ => badValue 4 s
  | some _, none => badValue 5 s
  | some cl, some g => taken (s.setFilter f ⟨enabled, mask, value, cl, g⟩)

/-! ### ZONE and GATE (R41, R42, R177) -/

/-- The write lock of a REVALIDATE sweep (R177). -/
def unlessLocked (f : State → State × MgmtAnswer) (s : State) : State × MgmtAnswer :=
  if s.sweep.locked then refuse .sweepLocked .none s else f s

def writeZone (z : ZoneIx) (present : Bool) (kind : Option ZoneKind) (level : Nat) (s : State) : State × MgmtAnswer :=
  match kind, inRange 4 level with
  | none, _ => badValue 2 s
  | some _, none => badValue 3 s
  | some k, some l => taken (s.setZone z ⟨present, k, l⟩)

def writeGate (g : GateIx) (present : Bool) (zone : Nat) (group : GroupOperand) (level : Nat) (mode : Option GateMode)
    (s : State) : State × MgmtAnswer :=
  match inRange 16 zone, gateGroupIn group, inRange 4 level, mode with
  | none, _, _, _ => badValue 2 s
  | some _, none, _, _ => badValue 3 s
  | some _, some _, none, _ => badValue 4 s
  | some _, some _, some _, none => badValue 5 s
  | some z, some grp, some l, some m => taken (s.setGate g ⟨present, z, grp, l, m⟩)

/-- A gate's group as an operand. -/
def GateGroup.operand : GateGroup → GroupOperand
  | .any => .any
  | .only g => .num g.val

/-! ### CELL (R55 to R57, R59) -/

/-- The fields of a cell record that a CELL write carries, as stored (R56). -/
def CellRec.stored (r : CellRec) : CellWrite :=
  { present := r.present, zone := r.zone.val, capacity := r.capacity, guard := r.guard, upper := r.upper,
    lower := r.lower, hysteresis := r.hysteresis, floor := r.floor, shift := r.shift, dwell := r.dwell,
    resume := r.resume }

/-- A cell record with the fields a CELL write carries, before any clamp. -/
def CellRec.written (r : CellRec) (zone : ZoneIx) (w : CellWrite) : CellRec :=
  { r with present := w.present, zone := zone, capacity := w.capacity, guard := w.guard, upper := w.upper,
           lower := w.lower, hysteresis := w.hysteresis, floor := w.floor, shift := w.shift, dwell := w.dwell,
           resume := w.resume }

/-- The clamp of the guard (R57). -/
def CellRec.clampGuard (r : CellRec) : CellRec := { r with guard := clampTo 0 (r.capacity - 1) r.guard }
/-- The clamp of the upper watermark (R57). -/
def CellRec.clampUpper (r : CellRec) : CellRec := { r with upper := clampTo 1 r.capacity r.upper }
/-- The clamp of the lower watermark (R57). -/
def CellRec.clampLower (r : CellRec) : CellRec := { r with lower := clampTo 0 (r.upper - 1) r.lower }
/-- The clamp of k (R57). -/
def CellRec.clampShift (r : CellRec) : CellRec := { r with shift := clampTo 0 4 r.shift }
/-- The clamp of D (R57). -/
def CellRec.clampDwell (r : CellRec) : CellRec := { r with dwell := clampTo 1 7 r.dwell }

/-- The clamps a write of the capacity settles, in the order of R57. -/
def CellRec.clampLoad (r : CellRec) : CellRec := r.clampGuard.clampUpper.clampLower

/-- The congested flag judged again after a write of the watermarks (R59). -/
def CellRec.rejudged (r : CellRec) : CellRec := { r with congested := congestedJudged r }

/-- A CELL write that is taken: OK, or OK_CLAMPED with the values stored where a clamp changed one (R57). -/
def storeCell (c : CellIx) (asWritten settled : CellRec) (s : State) : State × MgmtAnswer :=
  if asWritten.stored = settled.stored then taken (s.setCell c settled)
  else (s.setCell c settled, ⟨.okClamped, .cell settled.stored⟩)

/-- The tests of the owning block on the cell's state (R56), with the record as the write would leave it: STRUCTURAL,
then IN_USE. -/
def judgeCell (structural : Bool) (held asWritten : CellRec) : Option MgmtResult :=
  if structural && !decide (held.service = .outOfService) then some .structural
  else if asWritten.capacity < held.occupancy then some .inUse
  else if asWritten.present = false ∧ 0 < held.occupancy then some .inUse
  else none

/-- Whether the structural fields of two records differ (R56). -/
def structuralDiffers (a b : CellRec) : Bool :=
  !(decide (a.present = b.present) && decide (a.zone = b.zone) && decide (a.capacity = b.capacity) &&
    decide (a.guard = b.guard))

/-- TABLE-WRITE of a cell record (R56, R57). The structural fields are compared as carried (log 14). -/
def writeCell (c : CellIx) (w : CellWrite) (s : State) : State × MgmtAnswer :=
  match inRange 16 w.zone with
  | none => badValue 2 s
  | some z =>
    if w.capacity < 1 ∨ 12 < w.capacity then badValue 3 s
    else if 15 < w.hysteresis then badValue 7 s
    else if 63 < w.floor then badValue 8 s
    else
      let held := s.cell c
      let new := held.written z w
      match judgeCell (structuralDiffers held new) held new with
      | some r => refuse r .none s
      | none => storeCell c new (new.clampLoad.clampShift.clampDwell.rejudged) s

/-- The effect of a FIELD-MODIFY of a cell record that passed its value test. -/
def storeField (c : CellIx) (structural : Bool) (asWritten settled : CellRec) (s : State) : State × MgmtAnswer :=
  match judgeCell structural (s.cell c) asWritten with
  | some r => refuse r .none s
  | none => storeCell c asWritten settled s

/-- FIELD-MODIFY of a cell record (R56, R57, R59). That a write of the capacity, whose re-clamp may change the stored
watermarks, judges the congested flag again is a DESIGN CHOICE (log 38). -/
def modifyCell (c : CellIx) (f : CellField) (s : State) : State × MgmtAnswer :=
  let r := s.cell c
  match f with
  | .present b => storeField c true { r with present := b } { r with present := b } s
  | .zone n =>
    match inRange 16 n with
    | none => badValue 2 s
    | some z => storeField c true { r with zone := z } { r with zone := z } s
  | .capacity n =>
    if n < 1 ∨ 12 < n then badValue 3 s
    else storeField c true { r with capacity := n } ({ r with capacity := n } : CellRec).clampLoad.rejudged s
  | .guard n => storeField c true { r with guard := n } ({ r with guard := n } : CellRec).clampGuard s
  | .upper n =>
    storeField c false { r with upper := n } ({ r with upper := n } : CellRec).clampUpper.clampLower.rejudged s
  | .lower n => storeField c false { r with lower := n } ({ r with lower := n } : CellRec).clampLower.rejudged s
  | .hysteresis n =>
    if 15 < n then badValue 7 s else storeField c false { r with hysteresis := n } { r with hysteresis := n } s
  | .floor n => if 63 < n then badValue 8 s else storeField c false { r with floor := n } { r with floor := n } s
  | .shift n => storeField c false { r with shift := n } ({ r with shift := n } : CellRec).clampShift s
  | .dwell n => storeField c false { r with dwell := n } ({ r with dwell := n } : CellRec).clampDwell s
  | .resume b => storeField c false { r with resume := b } { r with resume := b } s

/-- TABLE-CLEAR of a cell record (R56). -/
def clearCell (c : CellIx) (s : State) : State × MgmtAnswer :=
  if (s.cell c).service = .outOfService then
    if 0 < (s.cell c).occupancy then refuse .inUse .none s else taken (s.setCell c CellRec.blank)
  else refuse .structural .none s

/-- A write of a neighbour list (R58). -/
def writeNeighbours (c : CellIx) (l : List NeighbourWrite) (s : State) : State × MgmtAnswer :=
  match firstBadNeighbour c 1 [] l with
  | some n => badValue n s
  | none => taken (s.setCell c { s.cell c with neighbours := neighboursOf l })

/-! ### CONFIG (R184) -/

/-- The items of a CONFIG write with a listed policy. -/
def configItems (w : ConfigWrite) (p : SyncPolicy) : ConfigTable :=
  { presencePeriod := w.presencePeriod, deferBackoff := w.deferBackoff, legTime := w.legTime,
    bridgeTime := w.bridgeTime, settleInterval := w.settleInterval, retryInterval := w.retryInterval,
    rescueLimit := w.rescueLimit, pageInterval := w.pageInterval, drainTime := w.drainTime,
    restartTime := w.restartTime, sync := p }

/-- A CONFIG write that is taken (R184): `clamped` differs from `asWritten` where an item was clamped. -/
def storeConfig (asWritten clamped : ConfigTable) (s : State) : State × MgmtAnswer :=
  if asWritten = clamped then taken { s with config := clamped }
  else ({ s with config := clamped }, ⟨.okClamped, .config clamped⟩)

def writeConfig (w : ConfigWrite) (s : State) : State × MgmtAnswer :=
  match w.sync with
  | none => badValue 11 s
  | some p => storeConfig (configItems w p) (configClamped (configItems w p)) s

/-- FIELD-MODIFY of CONFIG (R184). -/
def modifyConfig (f : ConfigField) (s : State) : State × MgmtAnswer :=
  let c := s.config
  match f with
  | .presencePeriod n => storeConfig { c with presencePeriod := n } { c with presencePeriod := clampTo 1 255 n } s
  | .deferBackoff n => storeConfig { c with deferBackoff := n } { c with deferBackoff := clampTo 1 60 n } s
  | .legTime n => storeConfig { c with legTime := n } { c with legTime := clampTo 50 2000 n } s
  | .bridgeTime n => storeConfig { c with bridgeTime := n } { c with bridgeTime := clampTo 20 1000 n } s
  | .settleInterval n => storeConfig { c with settleInterval := n } { c with settleInterval := clampTo 0 255 n } s
  | .retryInterval n => storeConfig { c with retryInterval := n } { c with retryInterval := clampTo 0 255 n } s
  | .rescueLimit n => storeConfig { c with rescueLimit := n } { c with rescueLimit := clampTo 200 5000 n } s
  | .pageInterval n => storeConfig { c with pageInterval := n } { c with pageInterval := clampTo 100 2000 n } s
  | .drainTime n => storeConfig { c with drainTime := n } { c with drainTime := clampTo 1 255 n } s
  | .restartTime n => storeConfig { c with restartTime := n } { c with restartTime := clampTo 1 255 n } s
  | .sync none => badValue 11 s
  | .sync (some p) => taken { s with config := { c with sync := p } }

/-! ### The table operations (R181, R182) -/

/-- What the tests of R181 say of a table operation that does not fit its table: BAD_TABLE for a view or an unknown
table, else BAD_OPERATION. -/
def misfitResult : TableId → MgmtResult
  | .registry => .badTable
  | .context => .badTable
  | .cellState => .badTable
  | .unknown => .badTable
  | .subscriber => .badOperation
  | .cell => .badOperation
  | .neighbours => .badOperation
  | .zone => .badOperation
  | .gate => .badOperation
  | .filter => .badOperation
  | .config => .badOperation

/-- TABLE-WRITE (R182). -/
def tableWrite (i : Nat) (entry : TableEntry) (s : State) : State × MgmtAnswer :=
  match entry with
  | .subscriber h cl g => atIndex 896 i (fun j => writeSubscriber (subscriberIx j) h cl g) s
  | .filter e m v cl g => atIndex 8 i (fun j => writeFilter j e m v cl g) s
  | .cell w => atIndex 64 i (fun c => writeCell c w) s
  | .neighbours l => atIndex 64 i (fun c => writeNeighbours c l) s
  | .zone p k l => atIndex 16 i (fun z => unlessLocked (writeZone z p k l)) s
  | .gate p z g l m => atIndex 32 i (fun j => unlessLocked (writeGate j p z g l m)) s
  | .config w => atIndex 1 i (fun _ => writeConfig w) s
  | .misfit t => refuse (misfitResult t) .none s

/-- The result of a FIELD-MODIFY of an ordinary table whose field number the table does not have: FREE (log 15). -/
def unstatedField (table field : Nat) (s : State) : State × MgmtAnswer :=
  refuse (.unstated (Config.unknownFieldResult table field)) .unstated s

/-- FIELD-MODIFY of a field that a table does not have: tests 2 and 3 of R181, the state tests that come before the
value, then the unstated result. -/
def modifyUnknown (i : Nat) (table : TableId) (field : Nat) (s : State) : State × MgmtAnswer :=
  match table with
  | .subscriber => atIndex 896 i (fun j s =>
      if (s.record (subscriberIx j)).enrolled.isNone then badIndex s else unstatedField 0 field s) s
  | .cell => atIndex 64 i (fun _ => unstatedField 1 field) s
  | .neighbours => refuse .badOperation .none s
  | .zone => atIndex 16 i (fun _ => unlessLocked (unstatedField 3 field)) s
  | .gate => atIndex 32 i (fun _ => unlessLocked (unstatedField 4 field)) s
  | .filter => atIndex 8 i (fun _ => unstatedField 5 field) s
  | .config => atIndex 1 i (fun _ => unstatedField 6 field) s
  | .registry => refuse .badTable .none s
  | .context => refuse .badTable .none s
  | .cellState => refuse .badTable .none s
  | .unknown => refuse .badTable .none s

/-- FIELD-MODIFY of one field of a filter. -/
def modifyFilter (j : FilterIx) (f : Filter → Bool × Hid × Hid × Nat × Nat) (s : State) : State × MgmtAnswer :=
  let w := f (s.filter j)
  writeFilter j w.1 w.2.1 w.2.2.1 w.2.2.2.1 w.2.2.2.2 s

/-- FIELD-MODIFY (R182). -/
def fieldModify (i : Nat) (w : FieldWrite) (s : State) : State × MgmtAnswer :=
  match w with
  | .subscriberHid h =>
    atIndex 896 i (fun j => modifySubscriber (subscriberIx j) fun e => (h, e.clearance.val, e.group.val)) s
  | .subscriberClearance n =>
    atIndex 896 i (fun j => modifySubscriber (subscriberIx j) fun e => (e.hid, n, e.group.val)) s
  | .subscriberGroup n =>
    atIndex 896 i (fun j => modifySubscriber (subscriberIx j) fun e => (e.hid, e.clearance.val, n)) s
  | .filterEnabled b =>
    atIndex 8 i (fun j => modifyFilter j fun f => (b, f.mask, f.value, f.clearance.val, f.group.val)) s
  | .filterMask m =>
    atIndex 8 i (fun j => modifyFilter j fun f => (f.enabled, m, f.value, f.clearance.val, f.group.val)) s
  | .filterValue v =>
    atIndex 8 i (fun j => modifyFilter j fun f => (f.enabled, f.mask, v, f.clearance.val, f.group.val)) s
  | .filterClearance n =>
    atIndex 8 i (fun j => modifyFilter j fun f => (f.enabled, f.mask, f.value, n, f.group.val)) s
  | .filterGroup n =>
    atIndex 8 i (fun j => modifyFilter j fun f => (f.enabled, f.mask, f.value, f.clearance.val, n)) s
  | .cell f => atIndex 64 i (fun c => modifyCell c f) s
  | .zonePresent b =>
    atIndex 16 i (fun z s => unlessLocked (writeZone z b (some (s.zone z).kind) (s.zone z).level.val) s) s
  | .zoneKind k => atIndex 16 i (fun z s => unlessLocked (writeZone z (s.zone z).present k (s.zone z).level.val) s) s
  | .zoneLevel n =>
    atIndex 16 i (fun z s => unlessLocked (writeZone z (s.zone z).present (some (s.zone z).kind) n) s) s
  | .gatePresent b =>
    atIndex 32 i (fun j s => let g := s.gate j
      unlessLocked (writeGate j b g.zone.val g.group.operand g.level.val (some g.mode)) s) s
  | .gateZone n =>
    atIndex 32 i (fun j s => let g := s.gate j
      unlessLocked (writeGate j g.present n g.group.operand g.level.val (some g.mode)) s) s
  | .gateGroup q =>
    atIndex 32 i (fun j s => let g := s.gate j
      unlessLocked (writeGate j g.present g.zone.val q g.level.val (some g.mode)) s) s
  | .gateLevel n =>
    atIndex 32 i (fun j s => let g := s.gate j
      unlessLocked (writeGate j g.present g.zone.val g.group.operand n (some g.mode)) s) s
  | .gateMode m =>
    atIndex 32 i (fun j s => let g := s.gate j
      unlessLocked (writeGate j g.present g.zone.val g.group.operand g.level.val m) s) s
  | .config f => atIndex 1 i (fun _ => modifyConfig f) s
  | .other t n => modifyUnknown i t n s

/-- TABLE-CLEAR (R182). -/
def tableClear (t : TableId) (i : Nat) (s : State) : State × MgmtAnswer :=
  match t with
  | .subscriber => atIndex 896 i (fun j => clearSubscriber (subscriberIx j)) s
  | .cell => atIndex 64 i clearCell s
  | .neighbours => atIndex 64 i (fun c s => taken (s.setCell c { s.cell c with neighbours := [] })) s
  | .zone => atIndex 16 i (fun z => unlessLocked fun s => taken (s.setZone z Zone.blank)) s
  | .gate => atIndex 32 i (fun g => unlessLocked fun s => taken (s.setGate g Gate.blank)) s
  | .filter => atIndex 8 i (fun f s => taken (s.setFilter f Filter.blank)) s
  | .config => atIndex 1 i (fun _ s => taken { s with config := ConfigTable.default }) s
  | .registry => refuse .badTable .none s
  | .context => refuse .badTable .none s
  | .cellState => refuse .badTable .none s
  | .unknown => refuse .badTable .none s

/-- The follow-on of a cell, where it has one (R55). -/
def Service.followOn : Service → Option FollowOn
  | .outOfService => none
  | .inService => none
  | .draining f _ => some f
  | .restarting _ => none

/-- The deadline a service state holds (R55). -/
def Service.deadline : Service → Option Time
  | .outOfService => none
  | .inService => none
  | .draining _ d => some d
  | .restarting d => some d

/-- The CELL-STATE view (R73). -/
def cellStateView (c : CellIx) (s : State) : CellStateView :=
  let r := s.cell c
  { present := r.present, service := r.service.name, followOn := r.service.followOn, deadline := r.service.deadline,
    occupancy := r.occupancy, congested := r.congested, link := (s.port (portOf c)).link }

/-- A read answers OK with what stands, and changes nothing (R182). -/
def readAs (d : RspData) (s : State) : State × MgmtAnswer := (s, ⟨.ok, d⟩)

/-- TABLE-READ (R182). A SUBSCRIBER record that is not present is reported without its HID, also while it keeps that HID
(R19); the kept HID is in the REGISTRY view alone: DESIGN CHOICE (log 33). -/
def tableRead (t : TableId) (i : Nat) (s : State) : State × MgmtAnswer :=
  match t with
  | .subscriber => atIndex 896 i (fun j s =>
      readAs (.subscriber ((s.record (subscriberIx j)).enrolled.map fun e => (e.hid, e.clearance, e.group))) s) s
  | .cell => atIndex 64 i (fun c s => readAs (.cell (s.cell c).stored) s) s
  | .neighbours => atIndex 64 i (fun c s => readAs (.neighbours (s.cell c).neighbours) s) s
  | .zone => atIndex 16 i (fun z s => readAs (.zone (s.zone z)) s) s
  | .gate => atIndex 32 i (fun g s => readAs (.gate (s.gate g)) s) s
  | .filter => atIndex 8 i (fun f s => readAs (.filter (s.filter f)) s) s
  | .config => atIndex 1 i (fun _ s => readAs (.config s.config) s) s
  | .registry => atIndex 1024 i (fun r s => readAs (.registry (s.record r)) s) s
  | .context => atIndex 128 i (fun x s => readAs (.context (s.call x) (s.hrq.requestOf x)) s) s
  | .cellState => atIndex 64 i (fun c s => readAs (.cellState (cellStateView c s)) s) s
  | .unknown => refuse .badTable .none s

/-! ### Capabilities and counters (R185, R186) -/

/-- The capability record (R185). -/
def capabilities : Capabilities :=
  { formatVersion := 1, partCode := 4410, revision := 1, cells := 64, cellPorts := 4, slotsPerCell := 12,
    subscribers := 896, visitors := 128, contexts := 128, candidates := 4, neighbours := 8, zones := 16, gates := 32,
    filters := 8, hrq := 32, pendingAnswers := 64, controlQueue := 24, closeSet := 256, pageList := 16,
    noticeQueue := 64, inExecution := 16 }

/-- The data of a port group: the trunk has no unknown-cell counter (R17). -/
def portData (l : LinkIx) (c : PortCounters) : RspData :=
  if l = trunkLink then .trunkCounters c.received c.checkFailures c.malformed c.strayVoice else .portCounters c

/-- COUNTERS-READ (R186): the group is read, and cleared in the same event with the clear option. -/
def countersRead (group : Nat) (clear : Bool) (s : State) : State × MgmtAnswer :=
  match inRange 5 group with
  | some l => (if clear then s.setCounter l PortCounters.blank else s, ⟨.ok, portData l (s.counter l)⟩)
  | none =>
    if group = 5 then
      (if clear then { s with device := DeviceCounters.blank } else s, ⟨.ok, .deviceCounters s.device⟩)
    else badIndex s

end Sys2Proof.Machine
end

