-- ==== Sys2Proof/Machine/Management.lean ====
section
/-! DEFINITION. The management agent (R180, R181): the one response of each request, the commands on cells (R64 to R67),
hold (R158 to R160) and sweep (R174, R178), and the RESTART (R187). -/

namespace Sys2Proof.Machine

/-! ### The exchange (R180) -/

/-- What the first test of R181 can say of the operands of an operation, whose lengths the spec gives only in part: none,
a HID of four bytes, a set of sources that may be left out, or at least one byte (log 32). -/
inductive OperandForm where
  | empty | hid | optional | nonempty
deriving DecidableEq, Repr

/-- The operations of R181 by their codes, with the form of their operands; `none` is an unknown code. -/
def operandForm (code : Byte) : Option OperandForm :=
  if code ∈ ([0x01, 0x20, 0x21, 0x31, 0x32, 0x33, 0x34, 0x7F] : List Byte) then some .empty
  else if code = 0x40 then some .hid
  else if code = 0x23 then some .optional
  else if code ∈ ([0x02, 0x03, 0x04, 0x05, 0x10, 0x11, 0x12, 0x13, 0x22, 0x30, 0x50] : List Byte) then some .nonempty
  else none

/-- Operands that may have the length of their form. -/
def OperandForm.admits : OperandForm → List Byte → Bool
  | .empty, b => b.isEmpty
  | .hid, b => decide (b.length = 4)
  | .optional, _ => true
  | .nonempty, b => !b.isEmpty

/-- Operands that have the length of their form, as far as the spec gives it. -/
def OperandForm.requires : OperandForm → List Byte → Bool
  | .empty, b => b.isEmpty
  | .hid, b => decide (b.length = 4)
  | .optional, _ => false
  | .nonempty, _ => false

/-- A request passes the first test of R181 as the operation of a code: the code is its own, and its operands may have the
length of its form. -/
def asksFor (code : Byte) (r : MgmtFrame) : Bool :=
  decide (r.op = code) && match operandForm r.op with
    | none => false
    | some f => f.admits r.operands

/-- A request for the EVICT of a HID: its operand is the HID, high byte first (R18, R181). -/
def asksEvict (hid : Hid) (r : MgmtFrame) : Bool := asksFor 0x40 r && decide (r.operands = bytes32 hid)

/-- A request that may fail the first test of R181: its code is unknown, or its operands may have the wrong length. -/
def failsForm (r : MgmtFrame) : Bool :=
  match operandForm r.op with
  | none => true
  | some f => !f.requires r.operands

/-- The request in execution has the command's tag and is one the command stands for. -/
def executes (tag : Tag) (fits : MgmtFrame → Bool) (s : State) : Bool :=
  match s.mgmtNow with
  | none => false
  | some r => decide (r.tag = tag) && fits r

/-- The request in execution is done, and the agent takes the next (R180). -/
def completeRequest (s : State) : State := startRequest { s with mgmtNow := none, mgmtMuted := false }

/-- Hands the one response of the request in execution to the trunk reply queue. The response of a request that was in
execution at a line-down of the trunk is discarded (R4). -/
def sendResponse (tag : Tag) (a : MgmtAnswer) (s : State) : State :=
  if s.mgmtMuted then s else reply (.mgmtRsp tag a) s

/-- Executes the request in execution and hands its one response to the trunk reply queue, in one event (R4, R180). A command
that does not stand for the request in execution has no effect: the agent executes nothing else (log 9). -/
def respond (tag : Tag) (fits : MgmtFrame → Bool) (op : State → State × MgmtAnswer) (s : State) : State :=
  if executes tag fits s then completeRequest (sendResponse tag (op s).2 (op s).1) else s

/-! ### Cells (R64 to R67) -/

/-- The service state a command's answer carries (R64, R181). -/
def serviceAnswer (r : MgmtResult) (c : CellIx) (s : State) : State × MgmtAnswer := (s, ⟨r, .service (s.cell c).service.name⟩)

/-- The cell a command names: an index outside 0..63, or a record not present, is refused BAD_INDEX (R64). -/
def namedCell (n : Nat) (s : State) : Option CellIx := (inRange 64 n).filter fun c => (s.cell c).present

def onCell (n : Nat) (f : CellIx → State → State × MgmtAnswer) (s : State) : State × MgmtAnswer :=
  match namedCell n s with
  | none => badIndex s
  | some c => f c s

/-- CELL-ENABLE (R65). -/
def enableCell (c : CellIx) (s : State) : State × MgmtAnswer :=
  match (s.cell c).service with
  | .outOfService =>
    match (s.port (portOf c)).link with
    | .up => serviceAnswer .ok c (s.setCell c { s.cell c with service := .inService })
    | .down => refuse .linkDown .none s
  | .inService => serviceAnswer .wrongState c s
  | .draining .. => serviceAnswer .wrongState c s
  | .restarting _ => serviceAnswer .wrongState c s

/-- CELL-DISABLE (R66), less the cell loss it hands. -/
def disableCell (c : CellIx) (s : State) : State × MgmtAnswer :=
  serviceAnswer .ok c (s.setCell c { s.cell c with service := .outOfService })

/-- A cell with work on it: leaving service from here hands a cell loss (R66, R70). -/
def Service.working : Service → Bool
  | .outOfService => false
  | .inService => true
  | .draining .. => true
  | .restarting _ => false

/-- CELL-DRAIN and CELL-RESTART (R67), less the drain start they hand. With occupancy 0 the drain ends at once (R68). -/
def drainCell (next : FollowOn) (c : CellIx) (s : State) : State × MgmtAnswer :=
  match (s.cell c).service with
  | .inService =>
    serviceAnswer .ok c (endDrainIfEmpty c
      (s.setCell c { s.cell c with service := .draining next (s.after (s.config.drainTime * 1000)) }))
  | .outOfService => serviceAnswer .wrongState c s
  | .draining .. => serviceAnswer .wrongState c s
  | .restarting _ => serviceAnswer .wrongState c s

/-- The contexts' events after a CELL-DISABLE of a cell with work on it (R66, R70). -/
def disableLoss (n : Nat) (before s : State) : State :=
  match namedCell n before with
  | none => s
  | some c =>
    if (before.cell c).service.working then eachContext (lossAtContext (fun d => decide (d = c)) .cellDisabled) s else s

/-- The contexts' events at the drain start of a drain that was taken and did not end at once (R67). -/
def drainStart (n : Nat) (before s : State) : State :=
  match namedCell n before with
  | none => s
  | some c =>
    if (before.cell c).service = .inService ∧ 0 < (before.cell c).occupancy then eachContext (drainStartAt c) s else s

/-! ### Hold (R158 to R160) -/

/-- The hold status record (R160). -/
def holdRecord (s : State) : RspData := .hold ⟨s.hold, s.hold.active⟩

/-- The MANAGEMENT source on: turning on sets its sticky flag (R158, R160). -/
def holdSet (s : State) : State × MgmtAnswer :=
  let t := { s with hold := { s.hold with
    management := { s.hold.management with raw := true, sticky := s.hold.management.sticky || !s.hold.management.raw } } }
  (t, ⟨.ok, holdRecord t⟩)

/-- The MANAGEMENT source off (R158). -/
def holdClear (s : State) : State × MgmtAnswer :=
  let t := { s with hold := { s.hold with management := { s.hold.management with raw := false } } }
  (t, ⟨.ok, holdRecord t⟩)

/-- The hold with new enables (R159). -/
def Hold.withEnables (e : SourceSet) (h : Hold) : Hold :=
  { hrqHigh := { h.hrqHigh with enable := e.hrqHigh }
    txnHigh := { h.txnHigh with enable := e.txnHigh }
    noticeFull := { h.noticeFull with enable := e.noticeFull }
    management := { h.management with enable := e.management } }

def holdEnable (e : SourceSet) (s : State) : State × MgmtAnswer :=
  let t := { s with hold := s.hold.withEnables e }
  (t, ⟨.ok, holdRecord t⟩)

/-- The hold with the sticky flags of the named sources cleared, where their raw state is off (R160). -/
def Hold.cleared (c : SourceSet) (h : Hold) : Hold :=
  { hrqHigh := h.hrqHigh.clearSticky c.hrqHigh
    txnHigh := h.txnHigh.clearSticky c.txnHigh
    noticeFull := h.noticeFull.clearSticky c.noticeFull
    management := h.management.clearSticky c.management }

/-- HOLD-STATUS (R160): the record is taken before the clear. -/
def holdStatus (c : SourceSet) (s : State) : State × MgmtAnswer :=
  ({ s with hold := s.hold.cleared c }, ⟨.ok, holdRecord s⟩)

/-! ### Sweep (R173, R174, R178) -/

/-- The sweep status record (R178). -/
def sweepRecord (s : State) : RspData := .sweep ⟨s.sweep, s.sweep.locked⟩

/-- An answer with the sweep status record as it stands. -/
def sweepAnswer (r : MgmtResult) (s : State) : State × MgmtAnswer := (s, ⟨r, sweepRecord s⟩)

/-- The kind a SWEEP-START names (R174): a group carried with another kind is ignored. -/
def sweepKindOf (k : SweepOperand) (group : Nat) : Except Nat SweepKind :=
  match k with
  | .revalidate => .ok .revalidate
  | .expireVisitors => .ok .expireVisitors
  | .purgeGroup =>
    match inRange 32 group with
    | none => .error 2
    | some g => .ok (.purgeGroup g)
  | .other => .error 1

/-- SWEEP-START (R174). -/
def sweepStart (k : SweepOperand) (group : Nat) (s : State) : State × MgmtAnswer :=
  if s.sweep.underWay then sweepAnswer .sweepActive s
  else
    match sweepKindOf k group with
    | .error n => badValue n s
    | .ok kind =>
      sweepAnswer .ok { s with sweep := { s.sweep with
        state := if s.hold.active then .suspended true else .running, kind := some kind, cursor := 0, changed := 0 } }

/-- SWEEP-SUSPEND (R178). -/
def sweepSuspend (s : State) : State × MgmtAnswer :=
  match s.sweep.state with
  | .running => sweepAnswer .ok { s with sweep := { s.sweep with state := .suspended false } }
  | .idle => sweepAnswer .wrongState s
  | .suspended _ => sweepAnswer .wrongState s

/-- SWEEP-RESUME (R178). -/
def sweepResume (s : State) : State × MgmtAnswer :=
  match s.sweep.state with
  | .suspended _ =>
    if s.hold.active then sweepAnswer .hold s else sweepAnswer .ok { s with sweep := { s.sweep with state := .running } }
  | .idle => sweepAnswer .wrongState s
  | .running => sweepAnswer .wrongState s

/-- A sweep under way is aborted (R178, R179). -/
def Sweep.aborted (w : Sweep) : Sweep := if w.underWay then { w with state := .idle, lastEnd := .aborted } else w

/-- SWEEP-ABORT (R178). -/
def sweepAbort (s : State) : State × MgmtAnswer :=
  if s.sweep.underWay then sweepAnswer .ok { s with sweep := s.sweep.aborted } else sweepAnswer .wrongState s

/-! ### Sweep steps (R175, R176) -/

/-- The action of a step on the record at the cursor, and whether it revoked or detached (R176). -/
def sweepAction (k : SweepKind) (i : RecIx) (s : State) : State × Bool :=
  match (s.record i).enrolled with
  | none => (s, false)
  | some e =>
    match e.loc with
    | .absent => (s, false)
    | .engaged .. => (s, false)
    | .attached a _ =>
      match k with
      | .revalidate =>
        match checkStored s e a a.cell .location with
        | none => (s, false)
        | some d => (revokeRecord i d s, true)
      | .expireVisitors => if isVisitor i then (detachRecord i s, true) else (s, false)
      | .purgeGroup g => if e.group = g then (detachRecord i s, true) else (s, false)

/-- The sweep after a step: the cursor advances, a change is counted, and the step at record 1023 completes (R175). -/
def Sweep.stepped (changed : Bool) (w : Sweep) : Sweep :=
  { w with
    cursor := w.cursor + 1
    changed := if changed then w.changed + 1 else w.changed
    state := if 1024 ≤ w.cursor + 1 then .idle else w.state
    lastEnd := if 1024 ≤ w.cursor + 1 then .completed else w.lastEnd }

/-- One step of a running sweep (R175). A running sweep has a kind and a cursor below 1024 (log 19). -/
def stepSweep (s : State) : State :=
  if s.sweep.state = .running then
    match s.sweep.kind, inRange 1024 s.sweep.cursor with
    | some k, some i =>
      let r := sweepAction k i s
      { r.1 with sweep := r.1.sweep.stepped r.2 }
    | none, _ => s
    | some _, none => s
  else s

/-! ### RESTART (R187) -/

/-- A registry record after the RESTART (R20). -/
def restartRecord (now : Time) (i : RecIx) (r : Record) : Record :=
  match r.holder with
  | .empty => { r with dirty := false, queued := false }
  | .kept _ => { r with holder := .empty, dirty := false, queued := false }
  | .present e =>
    { holder := if isVisitor i then .empty else .present { e with loc := .absent }
      lastChange := if e.loc = .absent then r.lastChange else now
      dirty := false
      queued := false }

/-- The service state of a cell after the RESTART (R73). -/
def restartService (s : State) (c : CellIx) : Service → Service
  | .outOfService => .outOfService
  | .inService => .inService
  | .draining .. => serviceByLink s c
  | .restarting _ => serviceByLink s c

/-- A cell record after the RESTART (R73). -/
def restartCell (s : State) (c : CellIx) (r : CellRec) : CellRec :=
  { r with service := restartService s c r.service, occupancy := 0, congested := false }

/-- A cell port after the RESTART (R11, R148, R151): its queues are emptied, its link and its transmission are kept. -/
def restartPort (_ : PortIx) (p : CellPort) : CellPort := { p with lane := [], ctl := [], closes := [] }

/-- A hold source after the RESTART (R163). -/
def Source.restarted (src : Source) : Source := { src with raw := false, sticky := false }

def Hold.restarted (h : Hold) : Hold :=
  ⟨h.hrqHigh.restarted, h.txnHigh.restarted, h.noticeFull.restarted, h.management.restarted⟩

/-- The blocks' shares in the RESTART (R187). -/
def restartBlocks (s : State) : State :=
  { s with
    ports := s.ports.update CellPort.blank restartPort
    trunk := { s.trunk with voice := [] }
    records := s.records.update Record.blank (restartRecord s.now)
    notices := []
    cells := s.cells.update CellRec.blank (restartCell s)
    calls := Table.empty 128 (Option Call)
    hrq := ⟨[], []⟩
    answers := []
    txnCounter := 0
    hold := s.hold.restarted
    pages := Table.empty 16 (Option PageEntry)
    sweep := s.sweep.aborted }

/-- A LEG-CLOSE-ALL to a cell that is IN_SERVICE (R73, R187). -/
def closeAllAt (s : State) (c : CellIx) : State :=
  if (s.cell c).service = .inService then offerQuietly (.legCloseAll c) s else s

/-- The management RESTART (R187). -/
def restartAll (s : State) : State × MgmtAnswer := taken ((allIndices 64).foldl closeAllAt (restartBlocks s))

end Sys2Proof.Machine
end

