-- ==== Sys2Proof/Machine/CellFrames.lean ====
section
/-! DEFINITION. Meanings of the frames from radio heads, and of a frame given as the bytes of the line. Each goes through
the acceptance of R6 and is handed to its owning block (R9) as one event. -/

namespace Sys2Proof.Machine

/-- ATTACH_REQ (R24 to R27). -/
def execAttachReq (c : CellIx) (hid : Hid) (claimed q : Byte) (s : State) : Host.Outcome State Fault Refusal :=
  .next (event (rxAttach c hid claimed q) s)

/-- DETACH_IND (R29). -/
def execDetachInd (c : CellIx) (hid : Hid) (s : State) : Host.Outcome State Fault Refusal :=
  .next (event (rxDetach c hid) s)

/-- PRESENCE (R28). -/
def execPresence (c : CellIx) (hid : Hid) (q : Byte) (s : State) : Host.Outcome State Fault Refusal :=
  .next (event (rxPresence c hid q) s)

/-- CALL_REQ (R81). -/
def execCallReq (c : CellIx) (hid : Hid) (s : State) : Host.Outcome State Fault Refusal :=
  .next (event (rxCallReq c hid) s)

/-- MEAS_REP (R8, R96 to R110). -/
def execMeasRep (c : CellIx) (hid : Hid) (channel qs : Byte) (pairs : List (Byte × Byte)) (s : State) :
    Host.Outcome State Fault Refusal := .next (event (rxMeas c hid channel qs pairs) s)

/-- LEG_ACK (R141 to R145). -/
def execLegAck (c : CellIx) (txn : BitVec 16) (channel outcome arg : Byte) (s : State) :
    Host.Outcome State Fault Refusal := .next (event (rxLegAck c txn channel outcome arg) s)

/-- LEG_LOST (R93, R94). -/
def execLegLost (c : CellIx) (channel cause : Byte) (s : State) : Host.Outcome State Fault Refusal :=
  .next (event (rxLegLost c channel cause) s)

/-- PAGE_RSP (R168). -/
def execPageRsp (c : CellIx) (hid : Hid) (q : Byte) (s : State) : Host.Outcome State Fault Refusal :=
  .next (event (rxPageRsp c hid q) s)

/-- VOX_UPLINK (R88 to R91). -/
def execVoxUplink (c : CellIx) (channel seq : Byte) (payload : List Byte) (s : State) :
    Host.Outcome State Fault Refusal := .next (event (rxVoxUp c channel seq payload) s)

/-- RECEIVED_FRAME_DISCARDED (R6): the bytes of a frame as its port received them. -/
def execReceivedFrameDiscarded (link : LinkIx) (bytes : List Byte) (s : State) : Host.Outcome State Fault Refusal :=
  .next (event (receive link bytes) s)

end Sys2Proof.Machine
end

