-- ==== Sys2Proof/Machine/Deadlines.lean ====
section
/-! DEFINITION. Meanings of the deadline expiries (R16). An expiry acts only while its deadline is set and has passed
(log 3). -/

namespace Sys2Proof.Machine

/-- The presence deadline of a record (R30). -/
def presenceExpiry (i : RecIx) (s : State) : State :=
  match (s.record i).enrolled with
  | none => s
  | some e =>
    match e.loc with
    | .attached _ d => if passed s.now d then changeLocation i e .absent s else s
    | .absent => s
    | .engaged .. => s

/-- A phase without its guard deadline. -/
def Phase.unguarded : Phase → Phase
  | .opening c t => .opening c t
  | .active l _ => .active l none
  | .preparing l _ t n => .preparing l none t n
  | .bridging l _ t sl d => .bridging l none t sl d
  | .rescuing a d => .rescuing a d

/-- The guard deadline of a context (R74): it is removed. -/
def guardExpiry (x : Channel) (s : State) : State :=
  match s.call x with
  | none => s
  | some k =>
    match k.phase.guardDeadline with
    | none => s
    | some d => if passed s.now d then s.setCall x (some { k with phase := k.phase.unguarded }) else s

/-- The bridge deadline of a context (R128): a fallback whose target leg is READY. -/
def bridgeExpiry (x : Channel) (s : State) : State :=
  match s.call x with
  | none => s
  | some k =>
    match k.phase with
    | .bridging l _ t _ d => if passed s.now d then fallback x k l t.cell .close s else s
    | .opening .. => s
    | .active .. => s
    | .preparing .. => s
    | .rescuing .. => s

/-- The rescue deadline of a context (R134): the call is dropped RESCUE_TIMEOUT. -/
def rescueExpiry (x : Channel) (s : State) : State :=
  match s.call x with
  | none => s
  | some k =>
    match k.phase with
    | .rescuing _ d => if passed s.now d then dropCall x .rescueTimeout false s else s
    | .opening .. => s
    | .active .. => s
    | .preparing .. => s
    | .bridging .. => s

/-- The deadline of a pending answer (R146). -/
def pendingExpiry (t : Txn) (s : State) : State :=
  match s.answerOf t with
  | none => s
  | some a => if passed s.now a.deadline then resolveFail nextCandidate a .timeout s else s

/-- The drain of a cell whose deadline has passed (R68): its follow-on, else nothing. -/
def drainDue (c : CellIx) (s : State) : Option FollowOn :=
  match (s.cell c).service with
  | .draining next d => if passed s.now d then some next else none
  | .outOfService => none
  | .inService => none
  | .restarting _ => none

/-- The restart deadline of a cell (R69). -/
def restartExpiry (c : CellIx) (s : State) : State :=
  match (s.cell c).service with
  | .restarting d => if passed s.now d then s.setCell c { s.cell c with service := serviceByLink s c } else s
  | .outOfService => s
  | .inService => s
  | .draining .. => s

/-- The next occasion of a page entry (R166). -/
def pageDue (e : PageIx) (s : State) : State :=
  match s.page e with
  | none => s
  | some p =>
    match p.status with
    | .paging _ next => if passed s.now next then occasion e s else s
    | .settled .. => s

/-- PRESENCE_DEADLINE_EXPIRY (R30). -/
def execPresenceDeadlineExpiry (i : RecIx) (s : State) : Host.Outcome State Fault Refusal :=
  .next (event (presenceExpiry i) s)

/-- GUARD_DEADLINE_EXPIRY (R74). -/
def execGuardDeadlineExpiry (x : Channel) (s : State) : Host.Outcome State Fault Refusal :=
  .next (event (guardExpiry x) s)

/-- BRIDGE_DEADLINE_EXPIRY (R128). -/
def execBridgeDeadlineExpiry (x : Channel) (s : State) : Host.Outcome State Fault Refusal :=
  .next (event (bridgeExpiry x) s)

/-- RESCUE_DEADLINE_EXPIRY (R134). -/
def execRescueDeadlineExpiry (x : Channel) (s : State) : Host.Outcome State Fault Refusal :=
  .next (event (rescueExpiry x) s)

/-- PENDING_DEADLINE_EXPIRY (R146). -/
def execPendingDeadlineExpiry (t : Txn) (s : State) : Host.Outcome State Fault Refusal :=
  .next (event (pendingExpiry t) s)

/-- DRAIN_DEADLINE_EXPIRY (R68): the follow-on is entered, then an event at each context for the loss (R95). -/
def execDrainDeadlineExpiry (c : CellIx) (s : State) : Host.Outcome State Fault Refusal :=
  match drainDue c s with
  | none => .next s
  | some next =>
    .next (eachContext (lossAtContext (fun d => decide (d = c)) .cellDrained) (event (enterFollowOn c next) s))

/-- RESTART_DEADLINE_EXPIRY (R69). -/
def execRestartDeadlineExpiry (c : CellIx) (s : State) : Host.Outcome State Fault Refusal :=
  .next (event (restartExpiry c) s)

/-- PAGE_OCCASION (R166). -/
def execPageOccasion (e : PageIx) (s : State) : Host.Outcome State Fault Refusal := .next (event (pageDue e) s)

end Sys2Proof.Machine
end

