-- ==== Sys2Proof/Machine/Internal.lean ====
section
/-! DEFINITION. Meanings of the part's own events: transmissions, sweep steps, takes, freed places (log 1). -/

namespace Sys2Proof.Machine

/-- CELL_PORT_TRANSMIT_COMPLETE (R10, R152, R153). -/
def execCellPortTransmitComplete (p : PortIx) (s : State) : Host.Outcome State Fault Refusal :=
  .next (event (completeCellTx p) s)

/-- TRUNK_TRANSMIT_COMPLETE (R12, R37, R39). -/
def execTrunkTransmitComplete (s : State) : Host.Outcome State Fault Refusal := .next (event completeTrunkTx s)

/-- SWEEP_STEP (R175, R176). -/
def execSweepStep (s : State) : Host.Outcome State Fault Refusal := .next (event stepSweep s)

/-- A take while fewer than 16 contexts are in execution (R117). -/
def takeIfRoom (s : State) : State := if s.inExecution < Config.inExecutionLimit then takeOne s else s

/-- HRQ_TAKE (R117 to R123). -/
def execHrqTake (s : State) : Host.Outcome State Fault Refusal := .next (event takeIfRoom s)

/-- WAITING_FOR_ROOM_POST (R116). -/
def execWaitingForRoomPost (s : State) : Host.Outcome State Fault Refusal := .next (event offerPlace s)

/-- NOTICE_REFILL (R39). -/
def execNoticeRefill (s : State) : Host.Outcome State Fault Refusal := .next (event refill s)

end Sys2Proof.Machine
end

