-- ==== Sys2Proof/Machine/Lines.lean ====
section
/-! DEFINITION. Meanings of POWER_ON_RESET and of the line events (R1 to R4, R71, R72, R86, R155). -/

namespace Sys2Proof.Machine

/-- POWER_ON_RESET (R1). The commands that wait are the sender's, and stay. -/
def execPowerOnReset (s : State) : Host.Outcome State Fault Refusal := .next { State.reset with pending := s.pending }

/-! ### Cell port up (R3, R72) -/

/-- A cell at the link-up of its port (R72). -/
def resumeCell (p : PortIx) (c : CellIx) (r : CellRec) : CellRec :=
  if portOf c = p ∧ r.present = true ∧ r.resume = true ∧ r.service = .outOfService then
    { r with service := .inService, congested := congestedJudged r }
  else r

/-- A line-up of a cell port (R1, R3): empty queues, no frame in transmission, and the resume cells in service. -/
def cellLineUp (p : PortIx) (s : State) : State :=
  match (s.port p).link with
  | .up => s
  | .down =>
    let s := s.setPort p { CellPort.blank with link := .up }
    { s with cells := s.cells.update CellRec.blank (resumeCell p) }

/-- CELL_PORT_LINE_UP (R3). -/
def execCellPortLineUp (p : PortIx) (s : State) : Host.Outcome State Fault Refusal := .next (event (cellLineUp p) s)

/-! ### Cell port down (R2, R71, R155) -/

/-- What becomes of a flushed control frame (R155). -/
def flushFrame (s : State) (f : CtlFrame) : State :=
  match f with
  | .legOpen _ t _ _ _ =>
    match s.answerOf t with
    | none => s
    | some a => resolveFail nextCandidate a .linkDown s
  | .hoCmd _ _ x _ _ _ =>
    match s.call x with
    | none => s
    | some k =>
      match k.phase with
      | .bridging l _ t _ _ => fallback x k l t.cell .close s
      | .opening .. => s
      | .active .. => s
      | .preparing .. => s
      | .rescuing .. => s
  | .cellRestart _ => s
  | .legCloseAll _ => s
  | .attachAck .. => s
  | .callReqRej .. => s
  | .page .. => s

/-- The port's own share (R1, R2): DOWN, nothing in transmission, queues emptied; each flushed frame is settled (R155). -/
def flushPort (p : PortIx) (s : State) : State := (s.port p).ctl.foldl flushFrame (s.setPort p CellPort.blank)

/-- A cell at the link-down of its port (R71). -/
def downCell (p : PortIx) (c : CellIx) (r : CellRec) : CellRec :=
  if portOf c = p then { r with service := .outOfService } else r

/-- The cells of a port that hand a cell loss at its link-down (R71). -/
def lostAtDown (p : PortIx) (s : State) (c : CellIx) : Bool := decide (portOf c = p) && (s.cell c).service.working

/-- The port's and the cell table's shares in a line-down, as one event without takes (log 5). -/
def cellLineDown (p : PortIx) (s : State) : State :=
  let t := flushPort p s
  finish s { t with cells := t.cells.update CellRec.blank (downCell p) }

/-- CELL_PORT_LINE_DOWN (R2): the port and its cells, then an event at each context (R70, R95), then takes. -/
def execCellPortLineDown (p : PortIx) (s : State) : Host.Outcome State Fault Refusal :=
  match (s.port p).link with
  | .down => .next s
  | .up => .next (takes s (eachContext (lossAtContext (lostAtDown p s) .linkDown) (cellLineDown p s)))

/-! ### Trunk (R4, R86) -/

/-- A line-up of the trunk (R1, R4): empty queues and no frame in transmission. -/
def trunkUp (s : State) : State :=
  match s.trunk.link with
  | .up => s
  | .down => { s with trunk := { Trunk.blank with link := .up } }

/-- TRUNK_LINE_UP (R4): the trunk begins to drain the notice queue (R12). -/
def execTrunkLineUp (s : State) : Host.Outcome State Fault Refusal := .next (event trunkUp s)

/-- The ending of a context at a trunk loss (R86): an event without takes (log 5). -/
def silentEnding (s : State) (x : Channel) : State :=
  match s.call x with
  | none => s
  | some k => finish s (endCall x k false .recheck s)

/-- The trunk's own share of its line-down (R4): DOWN, its queues emptied. A request in execution goes on, and its response
will be discarded, also where the trunk is UP again by then (log 31). -/
def trunkDown (s : State) : State := { s with trunk := Trunk.blank, mgmtMuted := s.mgmtNow.isSome }

/-- TRUNK_LINE_DOWN (R4, R86): the trunk's own share, and every context is ended without an answer. -/
def execTrunkLineDown (s : State) : Host.Outcome State Fault Refusal :=
  match s.trunk.link with
  | .down => .next s
  | .up => .next ((allIndices 128).foldl silentEnding (trunkDown s))

end Sys2Proof.Machine
end

