-- ==== Sys2Proof/Machine/Requests.lean ====
section
/-! DEFINITION. Meanings of the management operations: each is the execution of the request in execution, when it stands
for that request, with its one response (R180; log 9). -/

namespace Sys2Proof.Machine

/-- BAD_OPERATION (R181). -/
def execBadOperation (tag : Tag) (s : State) : Host.Outcome State Fault Refusal :=
  .next (event (respond tag failsForm (refuse .badOperation .none)) s)

/-- READ_CAPS (R185). -/
def execReadCaps (tag : Tag) (s : State) : Host.Outcome State Fault Refusal :=
  .next (event (respond tag (asksFor 0x01) (readAs (.caps capabilities))) s)

/-- TABLE_WRITE (R182). -/
def execTableWrite (tag : Tag) (index : Nat) (entry : TableEntry) (s : State) : Host.Outcome State Fault Refusal :=
  .next (event (respond tag (asksFor 0x02) (tableWrite index entry)) s)

/-- TABLE_READ (R182). -/
def execTableRead (tag : Tag) (table : TableId) (index : Nat) (s : State) : Host.Outcome State Fault Refusal :=
  .next (event (respond tag (asksFor 0x03) (tableRead table index)) s)

/-- FIELD_MODIFY (R182). -/
def execFieldModify (tag : Tag) (index : Nat) (field : FieldWrite) (s : State) : Host.Outcome State Fault Refusal :=
  .next (event (respond tag (asksFor 0x04) (fieldModify index field)) s)

/-- TABLE_CLEAR (R182). -/
def execTableClear (tag : Tag) (table : TableId) (index : Nat) (s : State) : Host.Outcome State Fault Refusal :=
  .next (event (respond tag (asksFor 0x05) (tableClear table index)) s)

/-- CELL_ENABLE (R65). -/
def execCellEnable (tag : Tag) (cell : Nat) (s : State) : Host.Outcome State Fault Refusal :=
  .next (event (respond tag (asksFor 0x10) (onCell cell enableCell)) s)

/-- CELL_DISABLE (R66), and the events of the contexts at the loss it hands (R70, R95). -/
def execCellDisable (tag : Tag) (cell : Nat) (s : State) : Host.Outcome State Fault Refusal :=
  .next (if executes tag (asksFor 0x11) s then
    disableLoss cell s (event (respond tag (asksFor 0x11) (onCell cell disableCell)) s)
    else s)

/-- CELL_DRAIN (R67), and the events of the contexts at its drain start. -/
def execCellDrain (tag : Tag) (cell : Nat) (s : State) : Host.Outcome State Fault Refusal :=
  .next (if executes tag (asksFor 0x12) s then
    drainStart cell s (event (respond tag (asksFor 0x12) (onCell cell (drainCell .outOfService))) s)
    else s)

/-- CELL_RESTART (R67), and the events of the contexts at its drain start. -/
def execCellRestart (tag : Tag) (cell : Nat) (s : State) : Host.Outcome State Fault Refusal :=
  .next (if executes tag (asksFor 0x13) s then
    drainStart cell s (event (respond tag (asksFor 0x13) (onCell cell (drainCell .restarting))) s)
    else s)

/-- HOLD_SET (R158). -/
def execHoldSet (tag : Tag) (s : State) : Host.Outcome State Fault Refusal :=
  .next (event (respond tag (asksFor 0x20) holdSet) s)

/-- HOLD_CLEAR (R158). -/
def execHoldClear (tag : Tag) (s : State) : Host.Outcome State Fault Refusal :=
  .next (event (respond tag (asksFor 0x21) holdClear) s)

/-- HOLD_ENABLE (R159). -/
def execHoldEnable (tag : Tag) (enables : SourceSet) (s : State) : Host.Outcome State Fault Refusal :=
  .next (event (respond tag (asksFor 0x22) (holdEnable enables)) s)

/-- HOLD_STATUS (R160). -/
def execHoldStatus (tag : Tag) (clear : SourceSet) (s : State) : Host.Outcome State Fault Refusal :=
  .next (event (respond tag (asksFor 0x23) (holdStatus clear)) s)

/-- SWEEP_START (R174). -/
def execSweepStart (tag : Tag) (kind : SweepOperand) (group : Nat) (s : State) : Host.Outcome State Fault Refusal :=
  .next (event (respond tag (asksFor 0x30) (sweepStart kind group)) s)

/-- SWEEP_SUSPEND (R178). -/
def execSweepSuspend (tag : Tag) (s : State) : Host.Outcome State Fault Refusal :=
  .next (event (respond tag (asksFor 0x31) sweepSuspend) s)

/-- SWEEP_RESUME (R178). -/
def execSweepResume (tag : Tag) (s : State) : Host.Outcome State Fault Refusal :=
  .next (event (respond tag (asksFor 0x32) sweepResume) s)

/-- SWEEP_ABORT (R178). -/
def execSweepAbort (tag : Tag) (s : State) : Host.Outcome State Fault Refusal :=
  .next (event (respond tag (asksFor 0x33) sweepAbort) s)

/-- SWEEP_STATUS (R178). -/
def execSweepStatus (tag : Tag) (s : State) : Host.Outcome State Fault Refusal :=
  .next (event (respond tag (asksFor 0x34) (sweepAnswer .ok)) s)

/-- EVICT (R183). -/
def execEvict (tag : Tag) (hid : Hid) (s : State) : Host.Outcome State Fault Refusal :=
  .next (event (respond tag (asksEvict hid) (evict hid)) s)

/-- COUNTERS_READ (R186). -/
def execCountersRead (tag : Tag) (group : Nat) (clear : Bool) (s : State) : Host.Outcome State Fault Refusal :=
  .next (event (respond tag (asksFor 0x50) (countersRead group clear)) s)

/-- RESTART (R187). -/
def execRestart (tag : Tag) (s : State) : Host.Outcome State Fault Refusal :=
  .next (event (respond tag (asksFor 0x7F) restartAll) s)

end Sys2Proof.Machine
end

