-- ==== Sys2Proof/Machine/TrunkFrames.lean ====
section
/-! DEFINITION. Meanings of the frames from the call server (R9), each one event. -/

namespace Sys2Proof.Machine

/-- VOX_DOWNLINK (R92). -/
def execVoxDownlink (channel seq : Byte) (payload : List Byte) (s : State) : Host.Outcome State Fault Refusal :=
  .next (event (rxVoxDown channel seq payload) s)

/-- CALL_OPEN (R76 to R78). -/
def execCallOpen (channel : Byte) (hid : Hid) (priority : Byte) (s : State) : Host.Outcome State Fault Refusal :=
  .next (event (rxCallOpen channel hid priority) s)

/-- CALL_CLEAR (R83). -/
def execCallClear (channel : Byte) (s : State) : Host.Outcome State Fault Refusal :=
  .next (event (rxCallClear channel) s)

/-- PAGE_REQ (R165). -/
def execPageReq (hid : Hid) (attempts : Byte) (s : State) : Host.Outcome State Fault Refusal :=
  .next (event (rxPageReq hid attempts) s)

/-- MGMT_REQ (R14). -/
def execMgmtReq (tag : Tag) (op : Byte) (operands : List Byte) (s : State) : Host.Outcome State Fault Refusal :=
  .next (event (rxMgmt tag op operands) s)

end Sys2Proof.Machine
end

