-- ==== Sys2Proof/Machine/Dispatch.lean ====
section
/-! DEFINITION. One arm for each command: the meaning it calls. -/

namespace Sys2Proof.Machine

def exec (i : Instr) (s : State) : Host.Outcome State Fault Refusal :=
  match i with
  | .powerOnReset => Sys2Proof.Machine.execPowerOnReset s
  | .cellPortLineUp p => Sys2Proof.Machine.execCellPortLineUp p s
  | .cellPortLineDown p => Sys2Proof.Machine.execCellPortLineDown p s
  | .trunkLineUp => Sys2Proof.Machine.execTrunkLineUp s
  | .trunkLineDown => Sys2Proof.Machine.execTrunkLineDown s
  | .attachReq c hid claimed q => Sys2Proof.Machine.execAttachReq c hid claimed q s
  | .detachInd c hid => Sys2Proof.Machine.execDetachInd c hid s
  | .presence c hid q => Sys2Proof.Machine.execPresence c hid q s
  | .callReq c hid => Sys2Proof.Machine.execCallReq c hid s
  | .measRep c hid channel qs pairs => Sys2Proof.Machine.execMeasRep c hid channel qs pairs s
  | .legAck c txn channel outcome arg => Sys2Proof.Machine.execLegAck c txn channel outcome arg s
  | .legLost c channel cause => Sys2Proof.Machine.execLegLost c channel cause s
  | .pageRsp c hid q => Sys2Proof.Machine.execPageRsp c hid q s
  | .voxUplink c channel seq payload => Sys2Proof.Machine.execVoxUplink c channel seq payload s
  | .voxDownlink channel seq payload => Sys2Proof.Machine.execVoxDownlink channel seq payload s
  | .callOpen channel hid priority => Sys2Proof.Machine.execCallOpen channel hid priority s
  | .callClear channel => Sys2Proof.Machine.execCallClear channel s
  | .pageReq hid attempts => Sys2Proof.Machine.execPageReq hid attempts s
  | .mgmtReq tag op operands => Sys2Proof.Machine.execMgmtReq tag op operands s
  | .badOperation tag => Sys2Proof.Machine.execBadOperation tag s
  | .readCaps tag => Sys2Proof.Machine.execReadCaps tag s
  | .tableWrite tag index entry => Sys2Proof.Machine.execTableWrite tag index entry s
  | .tableRead tag table index => Sys2Proof.Machine.execTableRead tag table index s
  | .fieldModify tag index field => Sys2Proof.Machine.execFieldModify tag index field s
  | .tableClear tag table index => Sys2Proof.Machine.execTableClear tag table index s
  | .cellEnable tag cell => Sys2Proof.Machine.execCellEnable tag cell s
  | .cellDisable tag cell => Sys2Proof.Machine.execCellDisable tag cell s
  | .cellDrain tag cell => Sys2Proof.Machine.execCellDrain tag cell s
  | .cellRestart tag cell => Sys2Proof.Machine.execCellRestart tag cell s
  | .holdSet tag => Sys2Proof.Machine.execHoldSet tag s
  | .holdClear tag => Sys2Proof.Machine.execHoldClear tag s
  | .holdEnable tag enables => Sys2Proof.Machine.execHoldEnable tag enables s
  | .holdStatus tag clear => Sys2Proof.Machine.execHoldStatus tag clear s
  | .sweepStart tag kind group => Sys2Proof.Machine.execSweepStart tag kind group s
  | .sweepSuspend tag => Sys2Proof.Machine.execSweepSuspend tag s
  | .sweepResume tag => Sys2Proof.Machine.execSweepResume tag s
  | .sweepAbort tag => Sys2Proof.Machine.execSweepAbort tag s
  | .sweepStatus tag => Sys2Proof.Machine.execSweepStatus tag s
  | .evict tag hid => Sys2Proof.Machine.execEvict tag hid s
  | .countersRead tag group clear => Sys2Proof.Machine.execCountersRead tag group clear s
  | .restart tag => Sys2Proof.Machine.execRestart tag s
  | .presenceDeadlineExpiry r => Sys2Proof.Machine.execPresenceDeadlineExpiry r s
  | .guardDeadlineExpiry x => Sys2Proof.Machine.execGuardDeadlineExpiry x s
  | .bridgeDeadlineExpiry x => Sys2Proof.Machine.execBridgeDeadlineExpiry x s
  | .rescueDeadlineExpiry x => Sys2Proof.Machine.execRescueDeadlineExpiry x s
  | .pendingDeadlineExpiry t => Sys2Proof.Machine.execPendingDeadlineExpiry t s
  | .drainDeadlineExpiry c => Sys2Proof.Machine.execDrainDeadlineExpiry c s
  | .restartDeadlineExpiry c => Sys2Proof.Machine.execRestartDeadlineExpiry c s
  | .pageOccasion e => Sys2Proof.Machine.execPageOccasion e s
  | .cellPortTransmitComplete p => Sys2Proof.Machine.execCellPortTransmitComplete p s
  | .trunkTransmitComplete => Sys2Proof.Machine.execTrunkTransmitComplete s
  | .sweepStep => Sys2Proof.Machine.execSweepStep s
  | .hrqTake => Sys2Proof.Machine.execHrqTake s
  | .waitingForRoomPost => Sys2Proof.Machine.execWaitingForRoomPost s
  | .noticeRefill => Sys2Proof.Machine.execNoticeRefill s
  | .receivedFrameDiscarded link bytes => Sys2Proof.Machine.execReceivedFrameDiscarded link bytes s

end Sys2Proof.Machine
end

