-- ==== Sys2Proof/Safety.lean ====
section
/-! DEFINITION. What counts as a safe run: the limits and forms that every state keeps (`Inv`), and the relations that
say what a command leaves as it was. -/

namespace Sys2Proof.Machine

/-! ### The invariant -/

/-- The limits of a cell port: voice lane 8 (R11), control queue 24 (R148), close set 256 pairs, none twice (R151). -/
structure CellPort.Ok (p : CellPort) : Prop where
  lane : p.lane.length ≤ Config.laneCapacity
  ctl : p.ctl.length ≤ Config.controlCapacity
  closes : p.closes.length ≤ Config.closeCapacity
  once : p.closes.Nodup

/-- The limits of the trunk: voice lane 32 (R12), replies 256 (R13), waiting requests 4 (R14). -/
structure Trunk.Ok (k : Trunk) : Prop where
  voice : k.voice.length ≤ Config.trunkVoiceCapacity
  replies : k.replies.length ≤ Config.replyCapacity
  mgmtIn : k.mgmtIn.length ≤ Config.mgmtCapacity

/-- The ranges of a cell record (R55, R58) and of its occupancy (R60). A cell without occupancy is not congested (R63), and
a record that is not present is OUT_OF_SERVICE with occupancy 0 and the congested flag clear (R55). -/
structure CellRec.Ok (r : CellRec) : Prop where
  capacity : 1 ≤ r.capacity ∧ r.capacity ≤ 12
  guard : r.guard ≤ r.capacity - 1
  upper : 1 ≤ r.upper ∧ r.upper ≤ r.capacity
  lower : r.lower ≤ r.upper - 1
  hysteresis : r.hysteresis ≤ 15
  floor : r.floor ≤ 63
  shift : r.shift ≤ 4
  dwell : 1 ≤ r.dwell ∧ r.dwell ≤ 7
  neighbours : r.neighbours.length ≤ Config.neighbourCapacity
  occupancy : r.occupancy ≤ r.capacity
  empty : r.occupancy = 0 → r.congested = false
  absent : r.present = false → r.service = .outOfService ∧ r.occupancy = 0 ∧ r.congested = false

/-- A candidate list in its limits (R98, R100, R103, R105): at most 4 entries, no cell twice, never the serving cell. -/
structure CandidatesOk (serving : Option CellIx) (cs : List Candidate) : Prop where
  size : cs.length ≤ Config.candidateCapacity
  once : (cs.map (·.cell)).Nodup
  other : ∀ c, serving = some c → c ∉ cs.map (·.cell)
  ranges : ∀ d ∈ cs, d.f ≤ 1008 ∧ d.dwell ≤ 7 ∧ d.miss ≤ 2

/-- A call in its limits: Fs in 0..1008 (R98), the candidate list (R100), which is empty in OPENING (R77). -/
structure Call.Ok (k : Call) : Prop where
  fs : k.fs ≤ 1008
  list : CandidatesOk (k.phase.serving.map (·.cell)) k.candidates
  opening : ∀ c n, k.phase = .opening c n → k.candidates = []

/-- The limits of a context: an IDLE one holds nothing. -/
def ContextOk (v : Option Call) : Prop := ∀ k, v = some k → k.Ok

/-- The pending-answer list: at most 64 entries, and no transaction number twice (R139, R140). -/
structure AnswersOk (as : List Answer) : Prop where
  length : as.length ≤ Config.answerCapacity
  once : (as.map (·.txn)).Nodup

/-- A visitor record that is present is not ABSENT (R23). -/
def Record.VisitorOk (i : RecIx) (r : Record) : Prop :=
  isVisitor i = true → ∀ e, r.enrolled = some e → e.loc ≠ .absent

/-- The channels that have a request in the handover request queue. -/
def Hrq.channels (q : Hrq) : List Channel := (q.urgent ++ q.normal).map (·.channel)

/-- The handover request queue holds at most 32 requests and at most one for each channel (R113). -/
structure Hrq.Ok (q : Hrq) : Prop where
  total : q.total ≤ Config.hrqCapacity
  once : q.channels.Nodup

/-- The items of CONFIG lie in their ranges (R184). -/
def ConfigTable.Ok (c : ConfigTable) : Prop := configClamped c = c

/-- The sweep's counts lie in their ranges, and a sweep under way has a kind and a record to step (R173, R175). -/
structure Sweep.Ok (w : Sweep) : Prop where
  cursor : w.cursor ≤ 1024
  changed : w.changed ≤ w.cursor
  underWay : w.underWay = true → w.cursor < 1024 ∧ w.kind ≠ none

/-- The tables are in canonical form: equal tables are equal data. -/
structure State.TablesOk (s : State) : Prop where
  ports : s.ports.wf CellPort.blank = true
  counters : s.counters.wf PortCounters.blank = true
  records : s.records.wf Record.blank = true
  filters : s.filters.wf Filter.blank = true
  zones : s.zones.wf Zone.blank = true
  gates : s.gates.wf Gate.blank = true
  cells : s.cells.wf CellRec.blank = true
  calls : s.calls.wf none = true
  pages : s.pages.wf none = true

/-- The HID of a record that is present (R21). -/
def Record.presentHid (r : Record) : Option Hid := r.enrolled.map (·.hid)

/-- No two records that are present hold one HID (R21, R183). -/
def State.HidsOnce (s : State) : Prop :=
  ∀ i j h, (s.record i).presentHid = some h → (s.record j).presentHid = some h → i = j

/-- The invariant of the part: canonical tables, every limit and range that the manual states of its queues, lists, contexts
and records, no HID and no transaction number twice, no request that waits while the agent is free (R180), and a response to
be discarded only where a request is in execution (R4). -/
structure State.Inv (s : State) : Prop where
  tables : s.TablesOk
  ports : ∀ p, (s.port p).Ok
  trunk : s.trunk.Ok
  cells : ∀ c, (s.cell c).Ok
  visitors : ∀ i, (s.record i).VisitorOk i
  notices : s.notices.length ≤ Config.noticeCapacity
  hrq : s.hrq.Ok
  answers : AnswersOk s.answers
  contexts : ∀ x, ContextOk (s.call x)
  hids : s.HidsOnce
  agent : s.mgmtNow = none → s.trunk.mgmtIn = []
  muted : s.mgmtMuted = true → s.mgmtNow ≠ none
  config : s.config.Ok
  sweep : s.sweep.Ok

/-- The channel a record is ENGAGED with (R19). -/
def Record.channel (r : Record) : Option Channel :=
  match r.enrolled with
  | none => none
  | some e =>
    match e.loc with
    | .absent => none
    | .attached .. => none
    | .engaged _ x => some x

/-- The record a context names, where it is not IDLE (R74). -/
def State.handset (s : State) (x : Channel) : Option RecIx := (s.call x).map (·.handset)

/-- Records and contexts agree: a record is ENGAGED with a channel exactly when that channel's context, not IDLE, names the
record (R31, R32, R77, R82). -/
def State.CallsAgree (s : State) : Prop := ∀ i x, (s.record i).channel = some x ↔ s.handset x = some i

/-- Records and contexts agree, and at most 16 contexts are in execution (R117). -/
structure State.CallsOk (s : State) : Prop where
  agree : s.CallsAgree
  execution : s.inExecution ≤ Config.inExecutionLimit

/-- The bytes hold the fields, each whole and apart from the others, in some order, with other bytes between them. -/
def FieldsHeld (ws : List (List Byte)) (bytes : List Byte) : Prop :=
  ∃ us gaps last, us.Perm ws ∧ gaps.length = us.length ∧ bytes = (List.zipWith (· ++ ·) gaps us).flatten ++ last

/-- The kind fields of a frame, that is the bytes between its four header bytes and its check (R18), hold the fields. -/
def FrameHolds (ws : List (List Byte)) (frame : List Byte) : Prop :=
  ∃ header fields check, frame = header ++ fields ++ check ∧ header.length = 4 ∧ check.length = 2 ∧ FieldsHeld ws fields

/-- A frame from cell `c` passes the tests of R6 on its sender: the cell's port is UP and its record is present. -/
def Heard (c : CellIx) (s : State) : Prop := (s.port (portOf c)).link = .up ∧ (s.cell c).present = true

/-- The state with the frame counted as received on the port of cell `c` (R6). -/
def counted (c : CellIx) (s : State) : State := countReceived (linkOf (portOf c)) s

/-- The length in bytes that a kind requires (R7); `n` is the pair count of a MEAS-REP. -/
def lengthFits (kind n : Byte) (len : Nat) : Prop :=
  (kind = 0x01 → len = 12) ∧ (kind = 0x02 → len = 10) ∧ (kind = 0x03 → len = 11) ∧ (kind = 0x04 → len = 10) ∧
  (kind = 0x05 → len = 13 + 2 * n.toNat) ∧ (kind = 0x06 → len = 11) ∧ (kind = 0x07 → len = 8) ∧ (kind = 0x08 → len = 11) ∧
  (kind = 0x40 → len = 48) ∧ (kind = 0x41 → len = 12) ∧ (kind = 0x42 → len = 7) ∧ (kind = 0x43 → len = 11) ∧
  (kind = 0x44 → 9 ≤ len ∧ len ≤ 512)

/-- The kinds that a port receives (R7): ports 0 to 3 from radio heads, 4 from the call server. -/
def kindsOf (l : LinkIx) : List Byte :=
  if l.val < 4 then [0x01, 0x02, 0x03, 0x04, 0x05, 0x06, 0x07, 0x08, 0x40] else [0x40, 0x41, 0x42, 0x43, 0x44]

/-- The notice queue and the records agree (R36, R39): a record is queued exactly when a LOCATION notice names it, at most
one does, and while the queue has a free place no dirty record waits outside it. -/
structure State.NoticesOk (s : State) : Prop where
  flagged : ∀ i, (s.record i).queued = true ↔ Notice.location i ∈ s.notices
  once : ∀ i, s.notices.count (.location i) ≤ 1
  waiting : s.notices.length < Config.noticeCapacity → ∀ i, (s.record i).dirty = true → (s.record i).queued = true

/-- The notice queue and the page list agree (R39, R171): a settled outcome is queued exactly when a PAGE-OUTCOME notice
names its entry, at most one does, and while the queue has a free place no settled outcome waits outside it. -/
structure State.OutcomesOk (s : State) : Prop where
  flagged : ∀ e, (∃ p o, s.page e = some p ∧ p.status = .settled o true) ↔ Notice.pageOutcome e ∈ s.notices
  once : ∀ e, s.notices.count (.pageOutcome e) ≤ 1
  waiting : s.notices.length < Config.noticeCapacity → ∀ e p o, s.page e = some p → p.status ≠ .settled o false

/-- The handover request queue and the contexts agree. Its classes hold their kinds; each request belongs to a context that
is ACTIVE, or RESCUING without a target, whose request is a RESCUE (R94, R113, R132); the request-posted flag is set exactly
where a request of the channel waits (R106, R115); a RESCUING context without a target has a candidate left (R94, R122,
R133); with fewer than 32 requests no context waits for room (R116); and the serving cell of a context is neither the target
of its request nor its target, because no candidate list holds it (R100, R101). -/
structure State.RequestsOk (s : State) : Prop where
  urgent : ∀ r ∈ s.hrq.urgent, r.kind = .rescue ∨ r.kind = .drain
  normal : ∀ r ∈ s.hrq.normal, r.kind = .quality ∨ r.kind = .relief
  belongs : ∀ r ∈ s.hrq.urgent ++ s.hrq.normal, ∃ k, s.call r.channel = some k ∧
    ((∃ l g, k.phase = .active l g) ∨ ((∃ d, k.phase = .rescuing none d) ∧ r.kind = .rescue))
  posted : ∀ x k, s.call x = some k → (k.posted = true ↔ x ∈ s.hrq.channels)
  left : ∀ x k d, s.call x = some k → k.phase = .rescuing none d → k.candidates ≠ []
  room : s.hrq.total < Config.hrqCapacity → ∀ x k, s.call x = some k → k.waitsForRoom = false
  elsewhere : ∀ r ∈ s.hrq.urgent ++ s.hrq.normal, ∀ k l, s.call r.channel = some k → k.phase.serving = some l →
    r.target ≠ l.cell
  apart : ∀ x k l t, s.call x = some k → k.phase.serving = some l → k.phase.target = some t → t.cell ≠ l.cell

/-- The established legs at a cell: serving legs, and the target legs of BRIDGING contexts (R60). -/
def State.legsAt (s : State) (c : CellIx) : Nat :=
  ((allIndices 128).map fun x => ((s.call x).elim [] fun k => k.phase.legCells false).count c).sum

/-- The LEG-OPENs to a cell that are admitted and neither resolved, withdrawn nor cancelled (R60, R139, R147). -/
def State.opensAt (s : State) (c : CellIx) : Nat := (s.answers.filter fun a => decide (a.cell = c) && !a.cancelled).length

/-- Occupancy means what R60 says: the legs at a cell and the live opens to it. The live opens are those the contexts wait
for: each context's pending open has its entry, not cancelled, and each such entry is a pending open of its context (R139,
R147). -/
structure State.OccupancyOk (s : State) : Prop where
  occupancy : ∀ c, (s.cell c).occupancy = s.legsAt c + s.opensAt c
  opens : ∀ x c n, (∃ k, s.call x = some k ∧ (c, n) ∈ k.phase.opens) ↔
    ∃ a ∈ s.answers, a.txn = n ∧ a.channel = x ∧ a.cell = c ∧ a.cancelled = false

/-- The page list agrees with the registry (R164, R170): at most one entry in PAGING carries a HID, its record is present,
ATTACHED and holds that HID, and its attempts are at most 8. -/
structure State.PagesOk (s : State) : Prop where
  once : ∀ e f p q, s.page e = some p → s.page f = some q → p.paging = true → q.paging = true → p.hid = q.hid → e = f
  attached : ∀ e p, s.page e = some p → p.paging = true →
    ∃ r a d, (s.record p.record).enrolled = some r ∧ r.hid = p.hid ∧ r.loc = .attached a d
  attempts : ∀ e p m d, s.page e = some p → p.status = .paging m d → m ≤ 8

/-- A port, or the trunk, that is UP with no frame in transmission has nothing that waits to be sent (R10, R12). -/
structure State.IdleOk (s : State) : Prop where
  ports : ∀ p, (s.port p).link = .up → (s.port p).tx = none →
    (s.port p).lane = [] ∧ (s.port p).ctl = [] ∧ (s.port p).closes = []
  trunk : s.trunk.link = .up → s.trunk.tx = none → s.trunk.voice = [] ∧ s.trunk.replies = [] ∧ s.notices = []

/-! ### What a command leaves as it was -/

/-- The command completes: it answers a next state, and that state satisfies `P`. -/
def Runs (c : Instr) (s : State) (P : State → Prop) : Prop := ∃ t, exec c s = .next t ∧ P t

/-- How a service state may change without a management command, a line event or a restart deadline: a drain ends in its
follow-on (R68). -/
def Service.follows (a b : Service) : Prop :=
  b = a ∨ match a with
    | .draining .outOfService _ => b = .outOfService
    | .draining .restarting _ => ∃ d, b = .restarting d
    | .outOfService => False
    | .inService => False
    | .restarting _ => False

/-- What an enrolment gives a record (R22, R183). -/
def Enrolled.identity (e : Enrolled) : Hid × Clearance × Group := (e.hid, e.clearance, e.group)

/-- The identity of a record that is present. -/
def Record.identity (r : Record) : Option (Hid × Clearance × Group) := r.enrolled.map Enrolled.identity

/-- The setting is kept: the time base, what management loads (filters, zones, gates, CONFIG, of each subscriber record
presence, HID, clearance and group, and of each cell its structural and live fields and its neighbours), the waiting
commands and requests, and the links; a service state changes only by the end of a drain. -/
structure SettingKept (s t : State) : Prop where
  now : t.now = s.now
  filters : t.filters = s.filters
  zones : t.zones = s.zones
  gates : t.gates = s.gates
  config : t.config = s.config
  pending : t.pending = s.pending
  mgmtNow : t.mgmtNow = s.mgmtNow
  mgmtMuted : t.mgmtMuted = s.mgmtMuted
  mgmtIn : t.trunk.mgmtIn = s.trunk.mgmtIn
  trunkLink : t.trunk.link = s.trunk.link
  links : ∀ p, (t.port p).link = (s.port p).link
  stored : ∀ c, (t.cell c).stored = (s.cell c).stored
  neighbours : ∀ c, (t.cell c).neighbours = (s.cell c).neighbours
  service : ∀ c, (s.cell c).service.follows (t.cell c).service
  subscribers : ∀ i, isVisitor i = false → (t.record i).identity = (s.record i).identity

/-- What a record says of its handset, the flags and the kept HID of a waiting notice apart. -/
def sameRecord (r q : Record) : Prop := r.enrolled = q.enrolled ∧ r.lastChange = q.lastChange

/-- Every registry record but those that satisfy `p` says the same of its handset. -/
def RegistryKept (p : RecIx → Prop) (s t : State) : Prop := ∀ i, ¬ p i → sameRecord (t.record i) (s.record i)

/-- Every page in progress but those that satisfy `p` is as it was. -/
def PagingKept (p : PageIx → Prop) (s t : State) : Prop :=
  ∀ e q, ¬ p e → q.paging = true → (t.page e = some q ↔ s.page e = some q)

/-- The trunk's choice of its next frame (R12): the oldest voice frame, else the oldest reply, else the oldest notice,
whose place the queue may refill (R39). -/
def TrunkChose (u t : State) : Prop :=
  match u.trunk.voice, u.trunk.replies, u.notices with
  | v :: vs, _, _ =>
    t.trunk = { u.trunk with voice := vs, tx := some (.vox v) } ∧ t.notices = u.notices ∧ t.records = u.records ∧
      t.pages = u.pages
  | [], r :: rs, _ =>
    t.trunk = { u.trunk with replies := rs, tx := some (.reply r) } ∧ t.notices = u.notices ∧ t.records = u.records ∧
      t.pages = u.pages
  | [], [], n :: ns =>
    t.trunk = { u.trunk with tx := some (.notice (buildNotice n u).1 u.now) } ∧ (t.notices = ns ∨ ∃ m, t.notices = ns ++ [m])
  | [], [], [] => t.trunk = u.trunk ∧ t.notices = u.notices ∧ t.records = u.records ∧ t.pages = u.pages

/-- How a sweep follows the combined hold, active before (`was`) and after (`is`) an event (R159, R161, R173): a hold that
begins suspends a running sweep and marks it; a hold that ends sets a marked one running, unmarked; in every other case the
sweep stays. -/
def SweepFollows (was is : Bool) (w v : Sweep) : Prop :=
  v = if was = false ∧ is = true ∧ w.state = .running then { w with state := .suspended true }
    else if was = true ∧ is = false ∧ w.state = .suspended true then { w with state := .running }
    else w

/-- What the end of an event does to the state `u` that a command left, when the command began in `s`: an idle port or
trunk that was handed something chooses its next frame (log 7), the fills are reported and the sweep follows the hold
(log 4, log 36); and nothing else changes. -/
structure EventEnd (s u t : State) : Prop where
  now : t.now = u.now
  filters : t.filters = u.filters
  zones : t.zones = u.zones
  gates : t.gates = u.gates
  config : t.config = u.config
  pending : t.pending = u.pending
  mgmtNow : t.mgmtNow = u.mgmtNow
  mgmtMuted : t.mgmtMuted = u.mgmtMuted
  mgmtIn : t.trunk.mgmtIn = u.trunk.mgmtIn
  trunkLink : t.trunk.link = u.trunk.link
  counters : t.counters = u.counters
  device : t.device = u.device
  cells : t.cells = u.cells
  calls : t.calls = u.calls
  hrq : t.hrq = u.hrq
  answers : t.answers = u.answers
  txnCounter : t.txnCounter = u.txnCounter
  registry : RegistryKept (fun _ => False) u t
  paging : PagingKept (fun _ => False) u t
  ports : ∀ p, t.port p =
    if s.port p = u.port p ∨ (u.port p).link = .down ∨ (u.port p).tx ≠ none then u.port p else chooseNext (u.port p)
  trunk :
    if (s.trunk = u.trunk ∧ s.notices = u.notices) ∨ u.trunk.link = .down ∨ u.trunk.tx ≠ none then
      t.trunk = u.trunk ∧ t.notices = u.notices ∧ t.records = u.records ∧ t.pages = u.pages
    else TrunkChose u t
  hold : t.hold = (reportFills s { t with hold := u.hold }).hold
  sweep : SweepFollows s.hold.active t.hold.active u.sweep t.sweep

/-- A response is handed to the reply queue, unless it is to be discarded, and the agent takes its next request (R4, R180).
-/
def answered (tag : Tag) (a : MgmtAnswer) (s : State) : State := completeRequest (sendResponse tag a s)

/-- The request in execution has the tag, and passes the test `fits` (R180, R181). -/
def Executing (tag : Tag) (fits : MgmtFrame → Bool) (s : State) : Prop :=
  ∃ r, s.mgmtNow = some r ∧ r.tag = tag ∧ fits r = true

/-- While the request in execution is the command's, the command completes: the operation leaves `u`, and the one response
`a` is handed in the same event (R180). -/
def Answers (c : Instr) (tag : Tag) (fits : MgmtFrame → Bool) (s : State) (a : MgmtAnswer) (u : State) : Prop :=
  Executing tag fits s → Runs c s (EventEnd s (answered tag a u))

/-! ### Conditions that several statements share -/

/-- A deadline has passed (R15). -/
def due (d : Time) (s : State) : Prop := (s.now - d).toNat < 2147483648

/-- The time `ms` milliseconds from now (R15). -/
def inMs (ms : Nat) (s : State) : Time := s.now + BitVec.ofNat 32 ms

/-- A gate serves a group in a zone (R48). -/
def GateServes (s : State) (z : ZoneIx) (grp : Group) (g : GateIx) : Prop :=
  (s.gate g).present = true ∧ (s.gate g).zone = z ∧ ((s.gate g).group = .any ∨ (s.gate g).group = .only grp)

/-- The control queue of a cell's port takes a frame of priority 2 or 3 without losing a LEG-OPEN: the port is UP, and
there is room or an entry of priority 0 or 1 (R149). -/
def QueueTakes (c : CellIx) (s : State) : Prop :=
  (s.port (portOf c)).link = .up ∧
    ((s.port (portOf c)).ctl.length < 24 ∨ ∃ f ∈ (s.port (portOf c)).ctl, f.priority < 2)

/-- The control queue of a cell's port refuses a frame of priority `p`: the port is DOWN, or the queue is full of entries of
no lower priority (R149). -/
def QueueRefuses (p : Priority) (c : CellIx) (s : State) : Prop :=
  (s.port (portOf c)).link = .down ∨
    (24 ≤ (s.port (portOf c)).ctl.length ∧ ∀ f ∈ (s.port (portOf c)).ctl, p ≤ f.priority)

/-- A target cell takes a handset: access, capacity, transaction and queue (R119 tests 2 and 4, R120). -/
def TargetTakes (s : State) (e : Enrolled) (a : Attachment) (c : CellIx) : Prop :=
  checkStored s e a c .handover = none ∧ (s.cell c).occupancy < (s.cell c).capacity ∧ s.answers.length < 64 ∧
    QueueTakes c s

/-- A target cell refuses a handset with a code: access, capacity, or no transaction (R119 tests 2 and 4, R120). -/
def TargetRefuses (s : State) (e : Enrolled) (a : Attachment) (c : CellIx) (code : HoCode) : Prop :=
  (∃ v, checkStored s e a c .handover = some v ∧ code = hoCodeOf v.code) ∨
  (checkStored s e a c .handover = none ∧
    (((s.cell c).capacity ≤ (s.cell c).occupancy ∧ code = .cellFull) ∨
      ((s.cell c).occupancy < (s.cell c).capacity ∧ 64 ≤ s.answers.length ∧ code = .noTransaction)))

/-- A target cell refuses a rescue with a code: as above, or its queue refuses the LEG-OPEN, counted QUEUE_FULL (R122). -/
def RescueRefused (s : State) (e : Enrolled) (a : Attachment) (c : CellIx) (code : HoCode) : Prop :=
  TargetRefuses s e a c code ∨
  (checkStored s e a c .handover = none ∧ (s.cell c).occupancy < (s.cell c).capacity ∧ s.answers.length < 64 ∧
    QueueRefuses 3 c s ∧ code = .queueFull)

/-- The candidates that remain without one cell. -/
def without (c : CellIx) (cs : List Candidate) : List Candidate := cs.filter fun d => decide (d.cell ≠ c)

/-- A LEG-OPEN waits in the control queue of its cell's port, or is in transmission there: its cell, transaction, channel,
HID and role (R120). -/
def OpenSent (c : CellIx) (n : Txn) (x : Channel) (h : Hid) (role : Role) (t : State) : Prop :=
  .legOpen c n x h role ∈ (t.port (portOf c)).ctl ∨ (t.port (portOf c)).tx = some (.control (.legOpen c n x h role))

/-- A target is reserved and its LEG-OPEN is pending (R120, R123): one slot, one entry, one number, one frame. -/
structure TargetOpened (x : Channel) (c : CellIx) (h : Hid) (role : Role) (s t : State) : Prop where
  occupancy : (t.cell c).occupancy = (s.cell c).occupancy + 1
  answers : t.answers = s.answers ++ [⟨s.nextTxn, x, c, inMs s.config.legTime s, false⟩]
  counter : t.txnCounter = s.nextTxn + 1
  sent : OpenSent c s.nextTxn x h role t

/-- No slot, no pending answer and no number is taken. -/
structure NothingOpened (s t : State) : Prop where
  occupancy : ∀ c, (t.cell c).occupancy = (s.cell c).occupancy
  answers : t.answers = s.answers
  counter : t.txnCounter = s.txnCounter

/-- A pair waits in the close set of its port, or its LEG-CLOSE is in transmission there (R151). -/
def Closing (c : CellIx) (x : Channel) (t : State) : Prop :=
  (c, x) ∈ (t.port (portOf c)).closes ∨ (t.port (portOf c)).tx = some (.legClose c x)

/-- The close of an unwanted READY (R142), judged on the contexts of `s`. -/
def closeUnwanted (c : CellIx) (x : Channel) (s u : State) : State := if holdsChannel s c x then u else closeAdd c x u

/-- The call after a commit at cell `c` with slot `slot` (R130). -/
def committedCall (s : State) (k : Call) (c : CellIx) (slot : Slot) : Call :=
  { k with
    phase := .active ⟨c, slot⟩ (some (inMs (s.config.settleInterval * 100) s))
    fs := (candidateF c k.candidates).getD (16 * lastQuality s k.handset)
    candidates := []
    posted := false
    handovers := k.handovers.bump }

/-- The call after a fallback from cell `t` to its serving leg (R124). -/
def fallenCall (s : State) (k : Call) (l : Leg) (t : CellIx) : Call :=
  { k with
    phase := .active l (some (inMs (s.config.retryInterval * 100) s))
    candidates := k.candidates.map fun d => if d.cell = t then { d with dwell := 0 } else d }

/-- The slots released between two states: one for each time a cell is listed (R60). -/
def SlotsReleased (cs : List CellIx) (s t : State) : Prop :=
  ∀ c, (t.cell c).occupancy = (s.cell c).occupancy - cs.count c

/-- The legs of a channel put in close sets between two states (R151): those at the listed cells, where the port is UP and
has room for them all, and no other pair. -/
def LegsClosed (x : Channel) (cs : List CellIx) (s t : State) : Prop :=
  (∀ c ∈ cs, (s.port (portOf c)).link = .up → (s.port (portOf c)).closes.length + cs.length ≤ 256 → Closing c x t) ∧
  ∀ p c y, (c, y) ∈ (t.port p).closes → (c, y) ∈ (s.port p).closes ∨ (y = x ∧ c ∈ cs ∧ p = portOf c)

/-- The cancellation of a pending open (R147): its entry is freed with its LEG-OPEN where that still waits, else it is
marked. -/
def OpenCancelled (n : Txn) (s t : State) : Prop :=
  ∀ a, s.answerOf n = some a → a.cancelled = false →
    ((∃ o ∈ (s.port (portOf a.cell)).ctl, o.openTxn = some n) →
      t.answers = s.answers.filter (fun b => b.txn ≠ n) ∧ ∀ o ∈ (t.port (portOf a.cell)).ctl, o.openTxn ≠ some n) ∧
    ((∀ o ∈ (s.port (portOf a.cell)).ctl, o.openTxn ≠ some n) →
      t.answers = s.answers.map fun b => if b.txn = n then { b with cancelled := true } else b)

/-- What the release of a call's handset in the re-check form leaves in its record, where that was ENGAGED (R32): ATTACHED at
its current cell with a new deadline where the check admits it there, else ABSENT; a visitor is then freed. -/
structure RecordReleased (i : RecIx) (s t : State) : Prop where
  kept : ∀ e a x, (s.record i).enrolled = some e → e.loc = .engaged a x → checkStored s e a a.cell .location = none →
    (t.record i).enrolled = some { e with loc := .attached a (inMs (s.config.presencePeriod * 60000) s) } ∧
      (t.record i).lastChange = s.now
  revoked : ∀ e a x v, (s.record i).enrolled = some e → e.loc = .engaged a x →
    checkStored s e a a.cell .location = some v →
    (t.record i).enrolled = (if isVisitor i = true then none else some { e with loc := .absent }) ∧
      (t.record i).lastChange = s.now

/-- The same, with the ATTACH-ACK REVOKED of a refusal in the queue of the cell that was current, or in transmission there,
when its port is UP and has room for it and for the CELL-RESTARTs of drains that end in the same event. -/
structure HandsetReleased (i : RecIx) (s t : State) : Prop extends RecordReleased i s t where
  told : ∀ e a x v, (s.record i).enrolled = some e → e.loc = .engaged a x →
    checkStored s e a a.cell .location = some v → (s.port (portOf a.cell)).link = .up →
    (s.port (portOf a.cell)).ctl.length < 21 →
    .attachAck a.cell e.hid (.revoked v) ∈ (t.port (portOf a.cell)).ctl ∨
      (t.port (portOf a.cell)).tx = some (.control (.attachAck a.cell e.hid (.revoked v)))

/-- A drop with the re-check form, before the end of its event (R82, R84): IDLE, its request removed, counted, told to the
call server where the reply queue has room, its handset released. -/
structure CallDropped (x : Channel) (k : Call) (cause : DropCause) (s t : State) : Prop where
  call : t.call x = none
  others : ∀ y, y ≠ x → t.call y = s.call y
  hrq : t.hrq = s.hrq.without x
  drops : t.device.drops = s.device.drops.bump cause
  answer : s.trunk.link = .up → s.trunk.replies.length < 256 → t.trunk.replies = s.trunk.replies ++ [.callDrop x cause]
  handset : HandsetReleased k.handset s t

/-- A failed open of an OPENING context at cell `c`, before the end of its event (R80): IDLE, its reservation released once,
its handset released, and CALL-ACK LEG_FAILED with the cause where the reply queue has room. -/
structure OpenFailed (x : Channel) (k : Call) (c : CellIx) (cause : FailCause) (s t : State) : Prop where
  call : t.call x = none
  others : ∀ y, y ≠ x → t.call y = s.call y
  slots : SlotsReleased [c] s t
  closes : LegsClosed x [] s t
  answer : s.trunk.link = .up → s.trunk.replies.length < 256 →
    t.trunk.replies = s.trunk.replies ++ [.callAck x (.legFailed cause)]
  handset : HandsetReleased k.handset s t

/-- A fallback of a call from cell `c` to its serving leg (R124): its reserve or leg there is released once, the pairs of the
listed cells enter close sets, and the fallback is counted. -/
structure FellBack (x : Channel) (k : Call) (l : Leg) (c : CellIx) (closed : List CellIx) (s t : State) : Prop where
  call : t.call x = some (fallenCall s k l c)
  others : ∀ y, y ≠ x → t.call y = s.call y
  slots : SlotsReleased [c] s t
  closes : LegsClosed x closed s t
  withdrawn : ∀ p, ∀ o ∈ (t.port p).ctl, o.hoChannel ≠ some x
  device : t.device = { s.device with fallbacks := s.device.fallbacks.bump }
  hrq : t.hrq = s.hrq

/-- A call loses its serving leg and is rescued (R94): RESCUING, and its RESCUE is posted toward cell `b`; `k` is the call
that loses the leg. -/
def RescueBegins (x : Channel) (k : Call) (b : CellIx) (d : DeviceCounters) (s t : State) : Prop :=
  ∃ u, t = hrqPost ⟨x, b, .rescue, s.now⟩ u ∧ u.hrq = s.hrq ∧ u.device = d ∧ (∀ y, y ≠ x → u.call y = s.call y) ∧
    u.call x = some { k with phase := .rescuing none (inMs s.config.rescueLimit s) }

/-- An event of its own at each context that is not IDLE, in ascending channel order, with the takes that follow it: R67
gives a drain start this order; for a cell loss it is a DESIGN CHOICE (log 6), and the place of the takes is DEDUCED (log 5).
-/
def EachContext (f : Channel → State → State) (s t : State) : Prop :=
  ∃ u : Nat → State, u 0 = s ∧ u 128 = t ∧ ∀ x : Channel, ((u x.val).call x = none → u (x.val + 1) = u x.val) ∧
    ((u x.val).call x ≠ none → u (x.val + 1) = event (f x) (u x.val))

/-- A rescue attempt at cell `c`, on transaction `n`, has failed or is abandoned (R133, R135): its reserve is released once,
its entry no longer waits for an answer to it (freed, or marked cancelled), `c` leaves the candidate list, and no fallback
is counted. The best candidate left becomes the next attempt in the same event, where its
target takes it; the deadline `d` stays. That this attempt has the kind RESCUE, also where the target lost came from a
QUALITY, RELIEF or DRAIN request, is DEDUCED (log 17). The call is dropped RESCUE_FAILED where none is left, or every one
left is refused by the access check or for want of a slot. The release may queue the CELL-RESTART of a cell whose drain it
ends (R69), hence the last hypothesis of `next`. -/
structure AttemptPassed (x : Channel) (k : Call) (c : CellIx) (n : Txn) (d : Time) (s t : State) : Prop where
  freed : ∀ a, s.answerOf n = some a → a.cancelled = false → a.channel = x → a.cell = c → a ∉ t.answers
  next : ∀ b e a, bestCandidate (without c k.candidates) = some b → (s.record k.handset).enrolled = some e →
    e.loc.attachment = some a → TargetTakes s e a b.cell →
    ((∀ f g, (s.cell c).service = .draining f g → 1 < (s.cell c).occupancy) ∨ (s.port (portOf b.cell)).ctl.length < 23) →
    ∃ m, t.call x = some { k with
        candidates := without c k.candidates, phase := .rescuing (some (⟨b.cell, .rescue, .rescue⟩, m)) d } ∧
      ⟨m, x, b.cell, inMs s.config.legTime s, false⟩ ∈ t.answers ∧ OpenSent b.cell m x e.hid .rescue t ∧
      (t.cell b.cell).occupancy = (s.cell b.cell).occupancy + 1 ∧ (t.cell c).occupancy = (s.cell c).occupancy - 1 ∧
      t.device.fallbacks = s.device.fallbacks ∧ t.device.drops = s.device.drops
  ended : (∀ b ∈ without c k.candidates, ∀ e a, (s.record k.handset).enrolled = some e → e.loc.attachment = some a →
      (∃ v, checkStored s e a b.cell .handover = some v) ∨ (s.cell b.cell).capacity ≤ (s.cell b.cell).occupancy) →
    t.call x = none ∧ (t.cell c).occupancy = (s.cell c).occupancy - 1 ∧ t.device.fallbacks = s.device.fallbacks ∧
      t.device.drops = s.device.drops.bump .rescueFailed ∧ HandsetReleased k.handset s t

/-- The cancellation of an abandoned attempt of channel `x` at cell `c` (R135, R147). Where its LEG-OPEN still waits, that is
withdrawn and the entry is freed; where none waits in any queue, the entry stays, marked. -/
def AttemptCancelled (x : Channel) (c : CellIx) (n : Txn) (s t : State) : Prop :=
  ∀ a, s.answerOf n = some a → a.cancelled = false → a.channel = x → a.cell = c →
    ((∃ o ∈ (s.port (portOf c)).ctl, o.openTxn = some n) →
      { a with cancelled := true } ∉ t.answers ∧ ∀ h role, .legOpen c n x h role ∉ (t.port (portOf c)).ctl) ∧
    ((∀ p, ∀ o ∈ (s.port p).ctl, o.openTxn ≠ some n) → { a with cancelled := true } ∈ t.answers)

/-- An open resolves as FAIL without an answer, because its LEG-OPEN was evicted or flushed (R150, R155): its entry is freed
and the FAIL is delivered. An OPENING context ends, a PREPARING one falls back, and a RESCUING one passes on. -/
def OpenResolved (n : Txn) (cause : FailCause) (s t : State) : Prop :=
  (s.answerOf n = none → t = s) ∧ ∀ a, s.answerOf n = some a →
    (a.cancelled = true → t = freeAnswer a s) ∧
    (a.cancelled = false → ∀ k, s.call a.channel = some k →
      (∀ d, k.phase = .opening d n → OpenFailed a.channel k d cause s t ∧
        t.answers = s.answers.filter fun b => b.txn ≠ n) ∧
      (∀ l g r, k.phase = .preparing l g r n → FellBack a.channel k l r.cell [] s t ∧
        t.answers = s.answers.filter fun b => b.txn ≠ n) ∧
      ∀ r d, k.phase = .rescuing (some (r, n)) d → AttemptPassed a.channel k r.cell n d s t ∧
        { a with cancelled := true } ∉ t.answers)

/-- What one pair of a report does to the candidate list of a call served at `c` (R101, R102). A pair for the serving cell,
or for a cell that an earlier pair named, is ignored; a held entry takes the filtered F and miss 0; a cell that is neither
held nor a neighbour is ignored; a neighbour enters with F = 16 × q, dwell 0 and miss 0: appended below 4 entries, else in
place of the earliest entry of lowest F, where 16 × q is greater than that. -/
structure PairTaken (c : CellIx) (r : CellRec) (named : List CellIx) (p : CellIx × Quality) (cs ds : List Candidate) :
    Prop where
  ignored : p.1 = c ∨ p.1 ∈ named → ds = cs
  held : p.1 ≠ c → p.1 ∉ named → p.1 ∈ cs.map (·.cell) →
    ds = cs.map fun d => if d.cell = p.1 then { d with f := filterQuality r.shift d.f p.2.val, miss := 0 } else d
  stranger : p.1 ∉ cs.map (·.cell) → p.1 ∉ r.neighbours.map (·.cell) → ds = cs
  appended : p.1 ≠ c → p.1 ∉ named → p.1 ∉ cs.map (·.cell) → p.1 ∈ r.neighbours.map (·.cell) → cs.length < 4 →
    ds = cs ++ [⟨p.1, 16 * p.2.val, 0, 0⟩]
  replaced : p.1 ≠ c → p.1 ∉ named → p.1 ∉ cs.map (·.cell) → p.1 ∈ r.neighbours.map (·.cell) → cs.length = 4 →
    ∀ before w after, cs = before ++ w :: after → (∀ d ∈ before, w.f < d.f) → (∀ d ∈ after, w.f ≤ d.f) →
    ds = if w.f < 16 * p.2.val then before ++ after ++ [⟨p.1, 16 * p.2.val, 0, 0⟩] else cs

/-- The cells of a list that are IN_SERVICE and on one port. -/
def livesOn (s : State) (q : PortIx) (cs : List CellIx) : List CellIx :=
  cs.filter fun c => (s.cell c).live && decide (portOf c = q)

/-- The PAGEs of a HID are offered to the cells of a set (R166, R167): the control queue of each port that is UP takes, in
the order of the set, the PAGE of each of its cells that is present and IN_SERVICE, as far as it has room; nothing leaves a
queue and nothing else changes. -/
def PagesOffered (h : Hid) (cells : List CellIx) (s u : State) : Prop :=
  u = { s with ports := u.ports } ∧ ∀ q, u.port q =
    if (s.port q).link = .up then { s.port q with
      ctl := (s.port q).ctl ++ ((livesOn s q cells).map fun c => .page c h).take (24 - (s.port q).ctl.length) }
    else s.port q

/-- The PAGE of each cell of a set that is IN_SERVICE, and whose port is UP with room for it after the earlier cells of the
set, stands in the control queue of that port or is in transmission there (R166). -/
def PagesSent (h : Hid) (cells : List CellIx) (s t : State) : Prop :=
  ∀ before c after, cells = before ++ c :: after → (s.cell c).live = true → (s.port (portOf c)).link = .up →
    (s.port (portOf c)).ctl.length + (livesOn s (portOf c) before).length < 24 →
    .page c h ∈ (t.port (portOf c)).ctl ∨ (t.port (portOf c)).tx = some (.control (.page c h))

/-- An occasion of an entry with `m` attempts left, 1 or more, before the end of its event (R166): where a queue takes a PAGE
an attempt is used and the repeat flag is clear, and where none does the attempts are kept and the repeat flag is set. -/
def OccasionMade (e : PageIx) (p : PageEntry) (m : Nat) (s u : State) : Prop :=
  ((∃ c ∈ p.cells, (s.cell c).live = true ∧ (s.port (portOf c)).link = .up ∧ (s.port (portOf c)).ctl.length < 24) →
    ∃ v, PagesOffered p.hid p.cells s v ∧ u = v.setPage e (some { p with
      repeatFlag := false, status := .paging (m - 1) (inMs s.config.pageInterval s) })) ∧
  ((∀ c ∈ p.cells, (s.cell c).live = false ∨ (s.port (portOf c)).link = .down ∨ 24 ≤ (s.port (portOf c)).ctl.length) →
    u = s.setPage e (some { p with repeatFlag := true, status := .paging m (inMs s.config.pageInterval s) }))

/-- The outcome of a PAGE-REQ without an entry, before the end of its event (R171): its notice joins the notice queue, and
with 64 notices it is lost and counted. -/
def OutcomeHanded (h : Hid) (o : PageOutcome) (s u : State) : Prop :=
  u = if s.notices.length < 64 then { s with notices := s.notices ++ [.immediate h o] }
    else { s with device := { s.device with pageOutcomesLost := s.device.pageOutcomesLost.bump } }

/-- The result of a request that was taken (R181). -/
def MgmtResult.isTaken (r : MgmtResult) : Prop := r = .ok ∨ r = .okClamped

/-- The commands that are no reset, line event or management row and not the storing of a request: frames of the radio
heads, call and page frames, the deadlines but the restart deadline, and the part's own work. -/
def ordinary : Instr → Bool
  | .powerOnReset => false
  | .cellPortLineUp _ => false
  | .cellPortLineDown _ => false
  | .trunkLineUp => false
  | .trunkLineDown => false
  | .attachReq .. => true
  | .detachInd .. => true
  | .presence .. => true
  | .callReq .. => true
  | .measRep .. => true
  | .legAck .. => true
  | .legLost .. => true
  | .pageRsp .. => true
  | .voxUplink .. => true
  | .voxDownlink .. => true
  | .callOpen .. => true
  | .callClear _ => true
  | .pageReq .. => true
  | .mgmtReq .. => false
  | .badOperation _ => false
  | .readCaps _ => false
  | .tableWrite .. => false
  | .tableRead .. => false
  | .fieldModify .. => false
  | .tableClear .. => false
  | .cellEnable .. => false
  | .cellDisable .. => false
  | .cellDrain .. => false
  | .cellRestart .. => false
  | .holdSet _ => false
  | .holdClear _ => false
  | .holdEnable .. => false
  | .holdStatus .. => false
  | .sweepStart .. => false
  | .sweepSuspend _ => false
  | .sweepResume _ => false
  | .sweepAbort _ => false
  | .sweepStatus _ => false
  | .evict .. => false
  | .countersRead .. => false
  | .restart _ => false
  | .presenceDeadlineExpiry _ => true
  | .guardDeadlineExpiry _ => true
  | .bridgeDeadlineExpiry _ => true
  | .rescueDeadlineExpiry _ => true
  | .pendingDeadlineExpiry _ => true
  | .drainDeadlineExpiry _ => true
  | .restartDeadlineExpiry _ => false
  | .pageOccasion _ => true
  | .cellPortTransmitComplete _ => true
  | .trunkTransmitComplete => true
  | .sweepStep => true
  | .hrqTake => true
  | .waitingForRoomPost => true
  | .noticeRefill => true
  | .receivedFrameDiscarded .. => false

/-- The tag a management row carries, and the test that the request in execution passes when the row stands for it (R180,
R181; log 9). Other rows stand for no request. -/
def managementRow : Instr → Option (Tag × (MgmtFrame → Bool))
  | .badOperation tag => some (tag, failsForm)
  | .readCaps tag => some (tag, asksFor 0x01)
  | .tableWrite tag _ _ => some (tag, asksFor 0x02)
  | .tableRead tag _ _ => some (tag, asksFor 0x03)
  | .fieldModify tag _ _ => some (tag, asksFor 0x04)
  | .tableClear tag _ _ => some (tag, asksFor 0x05)
  | .cellEnable tag _ => some (tag, asksFor 0x10)
  | .cellDisable tag _ => some (tag, asksFor 0x11)
  | .cellDrain tag _ => some (tag, asksFor 0x12)
  | .cellRestart tag _ => some (tag, asksFor 0x13)
  | .holdSet tag => some (tag, asksFor 0x20)
  | .holdClear tag => some (tag, asksFor 0x21)
  | .holdEnable tag _ => some (tag, asksFor 0x22)
  | .holdStatus tag _ => some (tag, asksFor 0x23)
  | .sweepStart tag _ _ => some (tag, asksFor 0x30)
  | .sweepSuspend tag => some (tag, asksFor 0x31)
  | .sweepResume tag => some (tag, asksFor 0x32)
  | .sweepAbort tag => some (tag, asksFor 0x33)
  | .sweepStatus tag => some (tag, asksFor 0x34)
  | .evict tag hid => some (tag, asksEvict hid)
  | .countersRead tag _ _ => some (tag, asksFor 0x50)
  | .restart tag => some (tag, asksFor 0x7F)
  | .powerOnReset | .cellPortLineUp _ | .cellPortLineDown _ | .trunkLineUp | .trunkLineDown | .attachReq ..
  | .detachInd .. | .presence .. | .callReq .. | .measRep .. | .legAck .. | .legLost .. | .pageRsp .. | .voxUplink ..
  | .voxDownlink .. | .callOpen .. | .callClear _ | .pageReq .. | .mgmtReq .. | .presenceDeadlineExpiry _
  | .guardDeadlineExpiry _ | .bridgeDeadlineExpiry _ | .rescueDeadlineExpiry _ | .pendingDeadlineExpiry _
  | .drainDeadlineExpiry _ | .restartDeadlineExpiry _ | .pageOccasion _ | .cellPortTransmitComplete _
  | .trunkTransmitComplete | .sweepStep | .hrqTake | .waitingForRoomPost | .noticeRefill
  | .receivedFrameDiscarded .. => none

/-! ### Table writes that are taken -/

/-- Answered OK, the zone holds `v`, and nothing else changes. -/
def ZoneStored (z : ZoneIx) (v : Zone) (s : State) (r : State × MgmtAnswer) : Prop :=
  r.2 = ⟨.ok, .none⟩ ∧ r.1.zone z = v ∧ (∀ y, y ≠ z → r.1.zone y = s.zone y) ∧ r.1 = { s with zones := r.1.zones }

/-- Answered OK, the gate holds `v`, and nothing else changes. -/
def GateStored (g : GateIx) (v : Gate) (s : State) (r : State × MgmtAnswer) : Prop :=
  r.2 = ⟨.ok, .none⟩ ∧ r.1.gate g = v ∧ (∀ h, h ≠ g → r.1.gate h = s.gate h) ∧ r.1 = { s with gates := r.1.gates }

/-- Answered OK, the filter holds `v`, and nothing else changes. -/
def FilterStored (f : FilterIx) (v : Filter) (s : State) (r : State × MgmtAnswer) : Prop :=
  r.2 = ⟨.ok, .none⟩ ∧ r.1.filter f = v ∧ (∀ h, h ≠ f → r.1.filter h = s.filter h) ∧
    r.1 = { s with filters := r.1.filters }

/-- The cell record holds `v`, answered OK where that is what the write carried and else OK_CLAMPED with the values stored
(R57); and nothing else changes. -/
def CellStored (c : CellIx) (carried : CellWrite) (v : CellRec) (s : State) (r : State × MgmtAnswer) : Prop :=
  r.2 = (if carried = v.stored then ⟨.ok, .none⟩ else ⟨.okClamped, .cell v.stored⟩) ∧ r.1.cell c = v ∧
    (∀ d, d ≠ c → r.1.cell d = s.cell d) ∧ r.1 = { s with cells := r.1.cells }

/-- The congested flag judged again on the watermarks of the record (R59). -/
def judgedAgain (r : CellRec) : CellRec :=
  { r with congested :=
      if r.upper ≤ r.occupancy then true else if r.occupancy ≤ r.lower then false else r.congested }

/-- CONFIG holds `v`, answered OK where that is what the write carried and else OK_CLAMPED with the values stored (R184);
and nothing else changes. -/
def ConfigStored (carried v : ConfigTable) (s : State) (r : State × MgmtAnswer) : Prop :=
  r = ({ s with config := v }, if carried = v then ⟨.ok, .none⟩ else ⟨.okClamped, .config v⟩)

/-- Answered OK, the neighbour list of the cell is `l`, and nothing else changes. -/
def NeighboursStored (c : CellIx) (l : List Neighbour) (s : State) (r : State × MgmtAnswer) : Prop :=
  r.2 = ⟨.ok, .none⟩ ∧ r.1.cell c = { s.cell c with neighbours := l } ∧ (∀ d, d ≠ c → r.1.cell d = s.cell d) ∧
    r.1 = { s with cells := r.1.cells }

end Sys2Proof.Machine
end

