-- ==== Sys2Proof/WellFormed.lean ====
section
/-! DEFINITION. Well-formed commands: frame fields in the ranges of R7, and management operands that name an existing
table entry, cell, kind or group (R181). The machine judges every other command too, and answers or counts it. -/

namespace Sys2Proof

/-- How many entries a table has (R182); an unknown table has none. -/
def TableId.size : TableId → Nat
  | .subscriber => 896
  | .cell => 64
  | .neighbours => 64
  | .zone => 16
  | .gate => 32
  | .filter => 8
  | .config => 1
  | .registry => 1024
  | .context => 128
  | .cellState => 64
  | .unknown => 0

/-- The tables that are written (R181, R182). -/
def TableId.writable : TableId → Bool
  | .subscriber => true
  | .cell => true
  | .neighbours => true
  | .zone => true
  | .gate => true
  | .filter => true
  | .config => true
  | .registry => false
  | .context => false
  | .cellState => false
  | .unknown => false

/-- The table of a write, where the operands form its entry. -/
def TableEntry.table : TableEntry → Option TableId
  | .subscriber .. => some .subscriber
  | .filter .. => some .filter
  | .cell _ => some .cell
  | .neighbours _ => some .neighbours
  | .zone .. => some .zone
  | .gate .. => some .gate
  | .config _ => some .config
  | .misfit _ => none

/-- The table of a field, where the table has it. -/
def FieldWrite.table : FieldWrite → Option TableId
  | .subscriberHid _ => some .subscriber
  | .subscriberClearance _ => some .subscriber
  | .subscriberGroup _ => some .subscriber
  | .filterEnabled _ => some .filter
  | .filterMask _ => some .filter
  | .filterValue _ => some .filter
  | .filterClearance _ => some .filter
  | .filterGroup _ => some .filter
  | .cell _ => some .cell
  | .zonePresent _ => some .zone
  | .zoneKind _ => some .zone
  | .zoneLevel _ => some .zone
  | .gatePresent _ => some .gate
  | .gateZone _ => some .gate
  | .gateGroup _ => some .gate
  | .gateLevel _ => some .gate
  | .gateMode _ => some .gate
  | .config _ => some .config
  | .other .. => none

/-- An index lies in the range of a table that a request may name. -/
def indexFits (t : Option TableId) (i : Nat) : Bool :=
  match t with
  | none => false
  | some t => decide (i < t.size)

/-- The outcome and the slot or cause of a LEG-ACK (R7). -/
def ackFits (outcome arg : Byte) : Bool :=
  if outcome = 0 then decide (arg.toNat < 12)
  else decide (outcome = 1) && (decide (1 ≤ arg.toNat) && decide (arg.toNat ≤ 3))

/-- A sweep kind that is listed, with a group in range where it needs one (R174). -/
def sweepFits (k : SweepOperand) (group : Nat) : Bool :=
  match k with
  | .revalidate => true
  | .expireVisitors => true
  | .purgeGroup => decide (group < 32)
  | .other => false

/-- A frame field below a bound (R7). -/
def below (n : Nat) (b : Byte) : Bool := decide (b.toNat < n)

/-- Well-formed commands. -/
def Instr.wf : Instr → Bool
  | .powerOnReset => true
  | .cellPortLineUp _ => true
  | .cellPortLineDown _ => true
  | .trunkLineUp => true
  | .trunkLineDown => true
  | .attachReq _ _ claimed q => below 4 claimed && below 64 q
  | .detachInd .. => true
  | .presence _ _ q => below 64 q
  | .callReq .. => true
  | .measRep _ _ channel qs pairs =>
    below 128 channel && below 64 qs && decide (pairs.length ≤ 249) &&
      (pairs.take 6).all fun p => below 64 p.1 && below 64 p.2
  | .legAck _ txn channel outcome arg => decide (txn.toNat < 4096) && below 128 channel && ackFits outcome arg
  | .legLost _ channel _ => below 128 channel
  | .pageRsp _ _ q => below 64 q
  | .voxUplink _ channel _ payload => below 128 channel && decide (payload.length = 40)
  | .voxDownlink channel _ payload => below 128 channel && decide (payload.length = 40)
  | .callOpen channel _ priority => below 128 channel && below 4 priority
  | .callClear channel => below 128 channel
  | .pageReq _ attempts => decide (1 ≤ attempts.toNat) && decide (attempts.toNat ≤ 8)
  | .mgmtReq _ _ operands => decide (operands.length ≤ 503)
  | .badOperation _ => true
  | .readCaps _ => true
  | .tableWrite _ i e => indexFits e.table i
  | .tableRead _ t i => indexFits (some t) i
  | .fieldModify _ i f => indexFits f.table i
  | .tableClear _ t i => t.writable && indexFits (some t) i
  | .cellEnable _ c => decide (c < 64)
  | .cellDisable _ c => decide (c < 64)
  | .cellDrain _ c => decide (c < 64)
  | .cellRestart _ c => decide (c < 64)
  | .holdSet _ => true
  | .holdClear _ => true
  | .holdEnable .. => true
  | .holdStatus .. => true
  | .sweepStart _ k g => sweepFits k g
  | .sweepSuspend _ => true
  | .sweepResume _ => true
  | .sweepAbort _ => true
  | .sweepStatus _ => true
  | .evict .. => true
  | .countersRead _ g _ => decide (g ≤ 5)
  | .restart _ => true
  | .presenceDeadlineExpiry _ => true
  | .guardDeadlineExpiry _ => true
  | .bridgeDeadlineExpiry _ => true
  | .rescueDeadlineExpiry _ => true
  | .pendingDeadlineExpiry _ => true
  | .drainDeadlineExpiry _ => true
  | .restartDeadlineExpiry _ => true
  | .pageOccasion _ => true
  | .cellPortTransmitComplete _ => true
  | .trunkTransmitComplete => true
  | .sweepStep => true
  | .hrqTake => true
  | .waitingForRoomPost => true
  | .noticeRefill => true
  | .receivedFrameDiscarded _ bytes => decide (bytes.length ≤ 512)

end Sys2Proof
end

