-- ==== Sys2Proof/Certificates/Slice0/Obligations.lean ====
section
/-! DEFINITION. The statements for the provers. -/

section

open Sys2Proof Sys2Proof.Machine

/-! ### The machine as a whole -/

/-- A step takes the command at the front of the queue and runs it with the queue's rest. On an empty queue the time base
counts one millisecond, from 4,294,967,295 to 0 (R15), and nothing else changes: that this is what a step on an empty queue
does is the model's choice (log 2). -/
def Obligations.StepTakesFront : Prop :=
  (∀ (c : Instr) (rest : List Instr) (s : State), s.pending = c :: rest → step s = exec c { s with pending := rest }) ∧
  ∀ s : State, s.pending = [] → ∃ t, step s = .next t ∧ t.now.toNat = (s.now.toNat + 1) % 4294967296 ∧
    t = { s with now := t.now }

/-- Power-on reset, from every state (R1, R15, R17, R20, R22, R40 to R42, R55, R87, R113, R139, R140, R148, R151, R163,
R164, R179, R184): every port, counter, record, filter, zone, gate, cell, context, queue, hold source, page and CONFIG item
at its power-on value. The commands that wait stay (log 20). -/
def Obligations.PowerOnResetValues : Prop :=
  ∀ s : State, Runs .powerOnReset s fun t =>
    (∀ p, t.port p = ⟨.down, [], [], [], none⟩) ∧ t.trunk = ⟨.down, [], [], none, []⟩ ∧ t.now = 0 ∧
    (∀ l, t.counter l = ⟨0, 0, 0, 0, 0⟩) ∧ t.device =
      { committed := ⟨0, 0, 0, 0⟩, refusals := ⟨0, 0, 0, 0, 0, 0, 0, 0, 0, 0, 0⟩, fallbacks := 0, rescuesSucceeded := 0,
        drops := ⟨0, 0, 0, 0, 0, 0, 0, 0⟩, legsLost := 0, syncErrors := 0, strayAnswers := 0, untimelyReports := 0,
        replyOverflow := 0, pageOutcomesLost := 0 } ∧
    t.mgmtNow = none ∧ t.mgmtMuted = false ∧
    (∀ i, (t.record i).enrolled = none ∧ (t.record i).dirty = false ∧ (t.record i).queued = false) ∧
    (∀ f, t.filter f = { enabled := false, mask := 0, value := 0, clearance := 0, group := 0 }) ∧ t.notices = [] ∧
    (∀ z, t.zone z = { present := false, kind := .openZone, level := 0 }) ∧
    (∀ g, t.gate g = { present := false, zone := 0, group := .only 0, level := 0, mode := .any }) ∧
    (∀ c, t.cell c =
      { present := false, zone := 0, capacity := 12, guard := 1, upper := 10, lower := 8, hysteresis := 3, floor := 12,
        shift := 2, dwell := 2, resume := false, neighbours := [], service := .outOfService, occupancy := 0,
        congested := false }) ∧
    (∀ x, t.call x = none) ∧ t.hrq = ⟨[], []⟩ ∧ t.answers = [] ∧ t.txnCounter = 0 ∧
    t.hold.active = false ∧ t.hold.hrqHigh = ⟨false, true, false⟩ ∧ t.hold.txnHigh = ⟨false, true, false⟩ ∧
    t.hold.noticeFull = ⟨false, true, false⟩ ∧ t.hold.management = ⟨false, true, false⟩ ∧
    (∀ e, t.page e = none) ∧ t.sweep = ⟨.idle, none, 0, 0, .none⟩ ∧
    t.config =
      { presencePeriod := 20, deferBackoff := 5, legTime := 400, bridgeTime := 200, settleInterval := 30,
        retryInterval := 10, rescueLimit := 1500, pageInterval := 640, drainTime := 30, restartTime := 10,
        sync := .discard } ∧
    t.pending = s.pending

/-- The invariant holds after reset, records and contexts agree with no context in execution beyond 16, the notice queue
agrees with the records and the page list, the request queue with the contexts, the page list with the registry, occupancy
with the legs and opens, and no idle port in UP has a frame that waits. -/
def Obligations.ResetInvariant : Prop :=
  State.reset.Inv ∧ State.reset.CallsOk ∧ State.reset.NoticesOk ∧ State.reset.OutcomesOk ∧ State.reset.RequestsOk ∧
    State.reset.PagesOk ∧ State.reset.OccupancyOk ∧ State.reset.IdleOk

/-- Every step keeps the invariant: canonical tables; the limits of every queue and list; the ranges of cells, CONFIG and
the sweep; a cell record not present OUT_OF_SERVICE, with occupancy 0 and the congested flag clear (R55); one request for
each channel; no HID on two present records; no transaction number twice; no present visitor ABSENT; Fs and the candidate
list of every context in their limits, never with the serving cell; no request waiting while the agent is free; and a
response to be discarded only for a request in execution. From such a state it keeps the agreement of records and contexts
(a record is ENGAGED with a channel exactly when that channel's context names it) together with at most 16 contexts in
execution; and it keeps, of every cell port and of the trunk in UP, that with no frame in transmission nothing waits to be
sent (R10, R12). -/
def Obligations.StepKeepsInvariant : Prop :=
  ∀ s t : State, s.Inv → step s = .next t → t.Inv ∧ (s.CallsOk → t.CallsOk) ∧ (s.IdleOk → t.IdleOk)

/-- Frames of the radio heads, the call and page frames, the deadlines but the restart deadline, and the part's own work keep
the setting: the time base; what management loads, that is filters, zones, gates, CONFIG, the structural and live fields and
the neighbours of every cell, and of every subscriber record presence, HID, clearance and group; the requests of management;
and the links. The service state of a cell changes at most by the end of a drain (R64). The exceptions, which the statement
leaves out, are power-on reset, the line events, MGMT_REQ, every management row (BAD_OPERATION to RESTART: tables, cells,
hold, sweep, EVICT and the reads), the restart deadline, and RECEIVED_FRAME_DISCARDED, which may hold a MGMT-REQ. -/
def Obligations.OrdinaryCommandsKeepSetting : Prop :=
  ∀ (c : Instr) (s t : State), ordinary c = true → exec c s = .next t → SettingKept s t

/-! ### Span links and frames (chapter 1) -/

/-- The frame check (R5): 29B1h over 31h to 39h, and a check agrees exactly when the register is 0 after it. Every frame the
part sends carries an agreeing check, its kind code, its length, and the address of its destination on a cell port (R10) or
0 on the trunk (R12). The kind codes are those of R18. VOX and MGMT-RSP are laid out whole (R18). In every other frame each
transaction, HID, record index and time stamp that it carries stands high byte first (R18), and each channel, cell and slot
in a byte; the widths that the spec does not state are DEDUCED (log 37). The data of a response holds its multi-byte fields
so too. Their places, and every other field, are free values (log 25), so nothing is said of them. -/
def Obligations.SentFramesSealed : Prop :=
  (frameCheck [0x31, 0x32, 0x33, 0x34, 0x35, 0x36, 0x37, 0x38, 0x39] = 0x29B1#16 ∧
    ∀ (bytes : List Byte) (v : BitVec 16), frameCheck (bytes ++ bytes16 v) = 0 ↔ v = frameCheck bytes) ∧
  (∀ t : CellTx, (∀ c v, t = .vox c v → v.payload.length = 40) →
    ∃ hi lo rest, t.bytes = t.kind :: BitVec.ofNat 8 (t.dest.val - 16 * (portOf t.dest).val) :: hi :: lo :: rest ∧
      checkAgrees t.bytes = true ∧ hi.toNat * 256 + lo.toNat = t.bytes.length ∧ t.bytes.length ≤ 512) ∧
  (∀ t : TrunkTx, (∀ v, t = .vox v → v.payload.length = 40) →
    ∃ hi lo rest, t.bytes = t.kind :: 0 :: hi :: lo :: rest ∧ checkAgrees t.bytes = true ∧
      hi.toNat * 256 + lo.toNat = t.bytes.length ∧ t.bytes.length ≤ 512) ∧
  (∀ (c : CellIx) (v : Vox), v.payload.length = 40 →
    (CellTx.vox c v).bytes.take 46 = 0x40 :: BitVec.ofNat 8 (c.val % 16) :: 0 :: 48 :: BitVec.ofNat 8 v.channel.val ::
      v.seq :: v.payload ∧ (CellTx.vox c v).bytes.length = 48 ∧
    (TrunkTx.vox v).bytes.take 46 = 0x40 :: 0 :: 0 :: 48 :: BitVec.ofNat 8 v.channel.val :: v.seq :: v.payload ∧
      (TrunkTx.vox v).bytes.length = 48) ∧
  (∀ (c d : CellIx) (n : Txn) (x : Channel) (h : Hid) (ar : AttachResult) (cr : CallReject) (role : Role) (slot : Slot),
    ∀ e ∈ [((0x21 : Byte), CtlFrame.attachAck c h ar), (0x22, .callReqRej c h cr), (0x23, .legOpen c n x h role),
      (0x25, .legCloseAll c), (0x26, .hoCmd c n x h d slot), (0x27, .page c h), (0x28, .cellRestart c)],
      (CellTx.control e.2).bytes.head? = some e.1) ∧
  (∀ (c : CellIx) (x : Channel), (CellTx.legClose c x).bytes.head? = some 0x24) ∧
  (∀ (x : Channel) (r : CallResult) (cause : DropCause) (b : NoticeBody) (now : Time),
    (TrunkTx.reply (.callAck x r)).bytes.head? = some 0x61 ∧ (TrunkTx.reply (.callDrop x cause)).bytes.head? = some 0x62 ∧
      (TrunkTx.notice b now).bytes.head? = some 0x63) ∧
  (∀ (h : BitVec 32) (v : BitVec 16), bytes16 v = [BitVec.ofNat 8 (v.toNat / 256), BitVec.ofNat 8 v.toNat] ∧
    bytes32 h = [BitVec.ofNat 8 (h.toNat / 16777216), BitVec.ofNat 8 (h.toNat / 65536), BitVec.ofNat 8 (h.toNat / 256),
      BitVec.ofNat 8 h.toNat]) ∧
  (∀ (c d : CellIx) (n : Txn) (x : Channel) (h : Hid) (ar : AttachResult) (cr : CallReject) (role : Role) (slot : Slot),
    ∀ e ∈ [(CellTx.control (.attachAck c h ar), [bytes32 h]), (.control (.callReqRej c h cr), [bytes32 h]),
      (.control (.legOpen c n x h role), [bytes16 (BitVec.ofNat 16 n.toNat), [BitVec.ofNat 8 x.val], bytes32 h]),
      (.control (.hoCmd c n x h d slot), [bytes16 (BitVec.ofNat 16 n.toNat), [BitVec.ofNat 8 x.val], bytes32 h,
        [BitVec.ofNat 8 d.val], [BitVec.ofNat 8 slot.val]]),
      (.control (.page c h), [bytes32 h]), (.legClose c x, [[BitVec.ofNat 8 x.val]])], FrameHolds e.2 e.1.bytes) ∧
  (∀ (x : Channel) (r : CallResult) (cause : DropCause), FrameHolds [[BitVec.ofNat 8 x.val]]
      (TrunkTx.reply (.callAck x r)).bytes ∧ FrameHolds [[BitVec.ofNat 8 x.val]] (TrunkTx.reply (.callDrop x cause)).bytes) ∧
  (∀ (h : Hid) (kept : Option Hid) (i : RecIx) (c : CellIx) (x : Channel) (now changed : Time),
    (∀ e ∈ [(LocationReport.removed, []), (.absent, []), (.attached c, [[BitVec.ofNat 8 c.val]]),
        (.engaged c x, [[BitVec.ofNat 8 c.val], [BitVec.ofNat 8 x.val]])],
      FrameHolds (bytes16 (BitVec.ofNat 16 i.val) :: ((kept.map bytes32).toList ++ e.2 ++ [bytes32 changed, bytes32 now]))
        (TrunkTx.notice (.location i kept e.1 changed) now).bytes) ∧
    FrameHolds [bytes32 h, bytes16 (BitVec.ofNat 16 i.val), [BitVec.ofNat 8 c.val], bytes32 now]
      (TrunkTx.notice (.callReq h i c) now).bytes ∧
    ∀ (p : Option PageIx) (rep : Bool) (v : Denial),
      ∀ e ∈ [(some (PageOutcome.found c), [[BitVec.ofNat 8 c.val]]), (some (.refused v), []), (some .noAnswer, []),
        (some .busy, []), (some .notAttached, []), (some .listFull, []), (none, [])],
      FrameHolds (bytes32 h :: (e.2 ++ [bytes32 now])) (TrunkTx.notice (.pageOutcome h p e.1 rep) now).bytes) ∧
  (∀ (i : RecIx) (v : Hid × Clearance × Group) (f : Filter) (k : ConfigTable) (r : Record) (p : PortCounters)
      (w : SweepStatus), ∀ e ∈ [(RspData.recordIndex i, [bytes16 (BitVec.ofNat 16 i.val)]),
      (.subscriber (some v), [bytes32 v.1]), (.filter f, [bytes32 f.mask, bytes32 f.value]),
      (.config k, [bytes16 (BitVec.ofNat 16 k.legTime), bytes16 (BitVec.ofNat 16 k.bridgeTime),
        bytes16 (BitVec.ofNat 16 k.rescueLimit), bytes16 (BitVec.ofNat 16 k.pageInterval)]),
      (.registry r, (r.hid.map bytes32).toList ++ bytes32 r.lastChange :: (r.deadline.map bytes32).toList),
      (.portCounters p, [bytes32 p.received, bytes32 p.checkFailures, bytes32 p.malformed, bytes32 p.unknownCell,
        bytes32 p.strayVoice]),
      (.sweep w, [bytes16 (BitVec.ofNat 16 w.sweep.cursor), bytes16 (BitVec.ofNat 16 w.sweep.changed)])],
    FieldsHeld e.2 e.1.bytes) ∧
  (∀ d : RspData, d.words.flatten.length ≤ 503 → FieldsHeld d.words d.bytes) ∧
  ∀ (tag : Tag) (a : MgmtAnswer) (n : Nat), n = a.data.bytes.length →
    n ≤ 503 ∧ (TrunkTx.reply (.mgmtRsp tag a)).bytes.length = 9 + n ∧
    (TrunkTx.reply (.mgmtRsp tag a)).bytes.take (7 + n) =
      0x64 :: 0 :: (bytes16 (BitVec.ofNat 16 (9 + n)) ++ (bytes16 tag ++ a.result.code :: a.data.bytes))

/-- A frame received as the bytes of the line does what the command for that frame does, with every field as received
(R6 to R9, R18). The byte places of the kinds that R18 does not lay out are PRESUMED (log 8), and that the row
RECEIVED_FRAME_DISCARDED dispatches a frame which passes every test is the model's choice (log 23). -/
def Obligations.FrameBytesRunTheCommand : Prop :=
  ∀ (i : Instr) (link : LinkIx) (bytes : List Byte) (s : State), frameBytes i = some (link, bytes) →
    exec (.receivedFrameDiscarded link bytes) s = exec i s

/-- The tests of R6. Tests 1 to 6 on the bytes of a frame: a bad size or check touches its one counter; a frame whose check
agrees and whose length field, kind, address byte or required length fails is counted as received and as malformed. Tests 7
and 8 in a frame command: a field out of its range (R7) counts as malformed, and a frame from a cell whose record is not
present as unknown cell; both count as received. Nothing else changes. That a frame at a port in DOWN has no effect is
DEDUCED from R1 (log 22), and that the row RECEIVED_FRAME_DISCARDED carries the bytes of the line is the model's choice (log
23). -/
def Obligations.FramesJudged : Prop :=
  (∀ (l : LinkIx) (bytes : List Byte) (s : State),
    (linkUp l s = false → exec (.receivedFrameDiscarded l bytes) s = .next s) ∧
    (linkUp l s = true → bytes.length < 6 ∨ 512 < bytes.length →
      exec (.receivedFrameDiscarded l bytes) s = .next (countMalformed l s)) ∧
    (linkUp l s = true → 6 ≤ bytes.length → bytes.length ≤ 512 → checkAgrees bytes = false →
      exec (.receivedFrameDiscarded l bytes) s = .next (countCheckFailure l s))) ∧
  (∀ (l : LinkIx) (kind address hi lo : Byte) (rest : List Byte) (s : State),
    linkUp l s = true → checkAgrees (kind :: address :: hi :: lo :: rest) = true → 2 ≤ rest.length → rest.length ≤ 508 →
    hi.toNat * 256 + lo.toNat ≠ rest.length + 4 ∨ kind ∉ kindsOf l ∨ (if l.val < 4 then 15 else 0) < address.toNat ∨
      ¬ lengthFits kind (rest.getD 6 0) (rest.length + 4) →
    exec (.receivedFrameDiscarded l (kind :: address :: hi :: lo :: rest)) s =
      .next (countMalformed l (countReceived l s))) ∧
  ∀ (i : Instr) (l : LinkIx) (bytes : List Byte) (s : State), frameBytes i = some (l, bytes) → linkUp l s = true →
    bytes.length ≤ 512 →
    (i.wf = false → exec i s = .next (countMalformed l (countReceived l s))) ∧
    (i.wf = true → ∀ (p : PortIx) (a : Fin 16), l = linkOf p → bytes.getD 1 0 = BitVec.ofNat 8 a.val →
      (s.cell (cellAt p a)).present = false → exec i s = .next (countUnknownCell l (countReceived l s)))

/-- CELL_PORT_LINE_UP (R1, R3, R72): in UP nothing; in DOWN the port starts empty with nothing in transmission, and each of
its cells that is present, OUT_OF_SERVICE and has its resume flag set is IN_SERVICE, its congested flag judged. Nothing else
changes. CELL_PORT_LINE_DOWN (R1, R2, R71, R155): in DOWN nothing; in UP the port is DOWN with every queue empty and nothing
in transmission, each frame of its control queue is settled in turn, all its cells are OUT_OF_SERVICE, and the contexts'
events follow (CellLossReachesEveryContext). What management loaded (of every subscriber record its HID, clearance and group
too), the counters of the ports, the other links and the waiting requests stay; another cell's service state changes at most
by the end of a drain. A flushed LEG-OPEN resolves as FAIL with cause LINK_DOWN and its entry is freed: an OPENING context
ends, a PREPARING one falls back, a rescue passes on (the kind of its next attempt: log 17). A flushed HO-CMD makes its
BRIDGING context fall back with the target leg READY. Other frames are discarded. The orders are the model's choice: the
flushed frames are settled oldest first (DEDUCED, log 29), the contexts act in ascending channel order (log 6), and no take
is made before the events of the contexts (DEDUCED, log 5). -/
def Obligations.CellPortLineEvents : Prop :=
  (∀ (p : PortIx) (s : State),
     ((s.port p).link = .up → exec (.cellPortLineUp p) s = .next s) ∧
     ((s.port p).link = .down → Runs (.cellPortLineUp p) s fun t =>
       t = { s with ports := t.ports, cells := t.cells } ∧ t.port p = ⟨.up, [], [], [], none⟩ ∧
       (∀ q, q ≠ p → t.port q = s.port q) ∧
       ∀ c, t.cell c =
         if portOf c = p ∧ (s.cell c).present = true ∧ (s.cell c).resume = true ∧ (s.cell c).service = .outOfService then
           { s.cell c with service := .inService, congested := congestedJudged (s.cell c) }
         else s.cell c)) ∧
  (∀ (p : PortIx) (s : State),
    ((s.port p).link = .down → exec (.cellPortLineDown p) s = .next s) ∧
    ((s.port p).link = .up → Runs (.cellPortLineDown p) s fun t =>
      (∃ u v, u = (s.port p).ctl.foldl flushFrame (s.setPort p ⟨.down, [], [], [], none⟩) ∧
        EachContext (lossAtContext (lostAtDown p s) .linkDown)
          (finish s { u with cells := u.cells.update CellRec.blank (downCell p) }) v ∧ t = takes s v) ∧
      t.port p = ⟨.down, [], [], [], none⟩ ∧ (∀ q, q ≠ p → (t.port q).link = (s.port q).link) ∧
      (∀ c, portOf c = p → (t.cell c).service = .outOfService) ∧
      (∀ c, portOf c ≠ p → (s.cell c).service.follows (t.cell c).service) ∧
      (∀ c, (t.cell c).stored = (s.cell c).stored ∧ (t.cell c).neighbours = (s.cell c).neighbours) ∧
      (∀ i, isVisitor i = false → (t.record i).identity = (s.record i).identity) ∧
      t.now = s.now ∧ t.filters = s.filters ∧ t.zones = s.zones ∧ t.gates = s.gates ∧ t.config = s.config ∧
      t.counters = s.counters ∧ t.pending = s.pending ∧ t.mgmtNow = s.mgmtNow ∧ t.mgmtMuted = s.mgmtMuted ∧
      t.trunk.mgmtIn = s.trunk.mgmtIn ∧ t.trunk.link = s.trunk.link)) ∧
  ∀ (f : CtlFrame) (s t : State), s.Inv → t = flushFrame s f →
    (f.openTxn = none → f.hoChannel = none → t = s) ∧
    (∀ n, f.openTxn = some n → OpenResolved n .linkDown s t) ∧
    ∀ x, f.hoChannel = some x →
      ((∀ k l g r sl d, s.call x = some k → k.phase ≠ .bridging l g r sl d) → t = s) ∧
      ∀ k l g r sl d, s.call x = some k → k.phase = .bridging l g r sl d → FellBack x k l r.cell [r.cell] s t

/-- TRUNK_LINE_UP and TRUNK_LINE_DOWN (R1, R4, R12, R86). In the state they lead to, nothing. Up: empty queues, nothing in
transmission, and the head of the notice queue is sent. Down: DOWN with its queues empty, every context IDLE with no answer
queued and no drop counted, its handset's record released in the re-check form (R32), and the notice queue kept whole. A
request in execution stays so, and its response is to be discarded, also after a line-up (log 31). -/
def Obligations.TrunkLineEvents : Prop :=
  ∀ s : State,
    (s.trunk.link = .up → exec .trunkLineUp s = .next s) ∧
    (s.trunk.link = .down → Runs .trunkLineUp s fun t =>
      EventEnd s { s with trunk := ⟨.up, [], [], none, []⟩ } t ∧
      ∀ n ns, s.notices = n :: ns → t.trunk.tx = some (.notice (buildNotice n s).1 s.now)) ∧
    (s.trunk.link = .down → exec .trunkLineDown s = .next s) ∧
    (s.trunk.link = .up → Runs .trunkLineDown s fun t =>
      t.trunk = ⟨.down, [], [], none, []⟩ ∧ (∀ x, t.call x = none) ∧ s.notices <+: t.notices ∧
      t.device.drops = s.device.drops ∧ (∀ p, (t.port p).link = (s.port p).link) ∧
      (∀ c, (t.cell c).stored = (s.cell c).stored ∧ (s.cell c).service.follows (t.cell c).service) ∧
      (∀ i, isVisitor i = false → (t.record i).identity = (s.record i).identity) ∧
      t.now = s.now ∧ t.filters = s.filters ∧ t.zones = s.zones ∧ t.gates = s.gates ∧ t.config = s.config ∧
      t.counters = s.counters ∧ t.pending = s.pending ∧ t.mgmtNow = s.mgmtNow ∧ t.mgmtMuted = s.mgmtNow.isSome ∧
      ∀ x k, s.call x = some k → RecordReleased k.handset s t)

/-- MGMT_REQ on a trunk in UP (R14): with fewer than four requests waiting it is appended, and an agent without a request
in execution takes the oldest; with four it is not stored, and BUSY is handed to the reply queue at once. -/
def Obligations.MgmtReqQueued : Prop :=
  ∀ (tag : Tag) (op : Byte) (operands : List Byte) (s : State), s.trunk.link = .up → operands.length ≤ 503 →
    (s.trunk.mgmtIn.length < 4 → s.mgmtNow ≠ none → Runs (.mgmtReq tag op operands) s fun t =>
      EventEnd s { countReceived trunkLink s with
        trunk := { s.trunk with mgmtIn := s.trunk.mgmtIn ++ [⟨tag, op, operands⟩] } } t) ∧
    (s.trunk.mgmtIn.length < 4 → s.mgmtNow = none → ∀ r rs, s.trunk.mgmtIn ++ [⟨tag, op, operands⟩] = r :: rs →
      Runs (.mgmtReq tag op operands) s fun t =>
        EventEnd s { countReceived trunkLink s with mgmtNow := some r, trunk := { s.trunk with mgmtIn := rs } } t) ∧
    (4 ≤ s.trunk.mgmtIn.length → s.trunk.replies.length < 256 → Runs (.mgmtReq tag op operands) s fun t =>
      EventEnd s { countReceived trunkLink s with
        trunk := { s.trunk with replies := s.trunk.replies ++ [.mgmtRsp tag ⟨.busy, .none⟩] } } t) ∧
    (4 ≤ s.trunk.mgmtIn.length → 256 ≤ s.trunk.replies.length → Runs (.mgmtReq tag op operands) s fun t =>
      EventEnd s { countReceived trunkLink s with
        device := { s.device with replyOverflow := s.device.replyOverflow.bump } } t)

/-- TRUNK_TRANSMIT_COMPLETE (R12): in DOWN nothing; in UP the trunk chooses the oldest voice frame, else the oldest reply,
else the notice at the head, built as it leaves. A LOCATION notice carries what its record says, clears the record's dirty
and queued flags, and drops the HID kept by a record that is not present (R37). A PAGE-OUTCOME notice carries the HID,
outcome and repeat flag of its entry and frees the entry (R171). The other two carry what they were raised with (R38, R171).
The records and pages that no notice leaves for say the same. -/
def Obligations.TrunkTransmitCompletes : Prop :=
  ∀ s : State,
    (s.trunk.link = .down → exec .trunkTransmitComplete s = .next s) ∧
    (s.trunk.link = .up → Runs .trunkTransmitComplete s fun t =>
      TrunkChose { s with trunk := { s.trunk with tx := none } } t ∧
      t = { s with trunk := t.trunk, notices := t.notices, records := t.records, pages := t.pages, hold := t.hold,
                   sweep := t.sweep } ∧
      RegistryKept (fun _ => False) s t ∧ PagingKept (fun _ => False) s t ∧
      (t.notices.length = s.notices.length → t.hold = s.hold ∧ t.sweep = s.sweep) ∧
      (s.trunk.voice = [] → s.trunk.replies = [] → ∀ n ns, s.notices = n :: ns →
        (∀ i, n = .location i →
          t.trunk.tx = some (.notice (.location i (s.record i).hid (locationReport (s.record i)) (s.record i).lastChange)
            s.now) ∧
          (t.record i).dirty = false ∧ (t.record i).queued = false ∧ (t.record i).enrolled = (s.record i).enrolled ∧
          ((s.record i).enrolled = none → (t.record i).hid = none)) ∧
        (∀ e p o b, n = .pageOutcome e → s.page e = some p → p.status = .settled o b →
          t.trunk.tx = some (.notice (.pageOutcome p.hid (some e) (some o) p.repeatFlag) s.now) ∧ t.page e = none) ∧
        (∀ h i c, n = .callReq h i c → t.trunk.tx = some (.notice (.callReq h i c) s.now)) ∧
        (∀ h o, n = .immediate h o → t.trunk.tx = some (.notice (.pageOutcome h none (some o) false) s.now))))

/-! ### The handset registry (chapter 2) -/

/-- A change of location (R36): the record takes the new location and the time of the change, and is dirty; a visitor that
becomes ABSENT is freed and keeps its HID (R21, R23). One LOCATION notice is appended when none of the record's is queued
and the queue has room. No other record changes. NOTICE_REFILL (R39; log 1): a free place is taken by the lowest page outcome
that waits, else by the lowest record that is dirty and not queued; otherwise nothing changes. -/
def Obligations.LocationNoticesRaised : Prop :=
  (∀ (i : RecIx) (e : Enrolled) (loc : Location) (s : State),
     ((writeLocation i e loc s).record i).holder =
       (if loc = .absent ∧ isVisitor i = true then .kept e.hid else .present { e with loc := loc }) ∧
     ((writeLocation i e loc s).record i).lastChange = s.now ∧ ((writeLocation i e loc s).record i).dirty = true ∧
     ((s.record i).queued = false → s.notices.length < 64 →
       (writeLocation i e loc s).notices = s.notices ++ [.location i] ∧ ((writeLocation i e loc s).record i).queued = true) ∧
     ((s.record i).queued = true ∨ 64 ≤ s.notices.length →
       (writeLocation i e loc s).notices = s.notices ∧ ((writeLocation i e loc s).record i).queued = (s.record i).queued) ∧
     (∀ j, j ≠ i → (writeLocation i e loc s).record j = s.record j) ∧
     writeLocation i e loc s =
       { s with records := (writeLocation i e loc s).records, notices := (writeLocation i e loc s).notices }) ∧
  ∀ s : State, s.Inv →
    (64 ≤ s.notices.length → exec .noticeRefill s = .next s) ∧
    (s.notices.length < 64 → ∀ e p o, s.page e = some p → p.status = .settled o false →
      (∀ f r v, f < e → s.page f = some r → r.status ≠ .settled v false) →
      Runs .noticeRefill s fun t => EventEnd s { s.setPage e (some { p with status := .settled o true }) with
        notices := s.notices ++ [.pageOutcome e] } t) ∧
    (s.notices.length < 64 → (∀ e p o, s.page e = some p → p.status ≠ .settled o false) →
      (∀ i, (s.record i).dirty = true → (s.record i).queued = false → (∀ j, j < i → (s.record j).dirty = true →
        (s.record j).queued = true) →
        Runs .noticeRefill s fun t => EventEnd s { s.setRecord i { s.record i with queued := true } with
          notices := s.notices ++ [.location i] } t) ∧
      ((∀ i, (s.record i).dirty = true → (s.record i).queued = true) → exec .noticeRefill s = .next s))

/-- ATTACH_REQ that is not admitted (R24, R25, R27): deferred by an active hold unless the handset is ATTACHED or ENGAGED;
refused UNKNOWN_HANDSET or POOL_FULL where no visitor is created; refused by the access check. One ATTACH-ACK is offered and
no record changes. -/
def Obligations.AttachNotAdmitted : Prop :=
  ∀ (c : CellIx) (hid : Hid) (claimed q : Byte) (cl : Clearance) (s : State), Heard c s → claimed.toNat = cl.val →
    q.toNat < 64 →
    (s.hold.active = true → (∀ i e, s.findHid hid = some i → (s.record i).enrolled = some e → e.loc = .absent) →
      Runs (.attachReq c hid claimed q) s fun t =>
        EventEnd s (sendAck c hid (.defer s.config.deferBackoff) (counted c s)) t) ∧
    (s.hold.active = false → s.findHid hid = none → chosenFilter s hid = none →
      Runs (.attachReq c hid claimed q) s fun t =>
        EventEnd s (sendAck c hid (.refused ⟨.unknownHandset, 0, .none⟩) (counted c s)) t) ∧
    (s.hold.active = false → s.findHid hid = none → chosenFilter s hid ≠ none → freeVisitor s = none →
      Runs (.attachReq c hid claimed q) s fun t =>
        EventEnd s (sendAck c hid (.refused ⟨.poolFull, 0, .none⟩) (counted c s)) t) ∧
    (∀ i e d, s.findHid hid = some i → (s.record i).enrolled = some e → (s.hold.active = true → e.loc ≠ .absent) →
      accessCheck s (if cl ≤ e.clearance then e.clearance else cl) e.group c .register = some d →
      Runs (.attachReq c hid claimed q) s fun t => EventEnd s (sendAck c hid (.refused d) (counted c s)) t) ∧
    (∀ f i d, s.hold.active = false → s.findHid hid = none → chosenFilter s hid = some f → freeVisitor s = some i →
      accessCheck s (if cl ≤ (s.filter f).clearance then (s.filter f).clearance else cl) (s.filter f).group c .register =
        some d →
      Runs (.attachReq c hid claimed q) s fun t => EventEnd s (sendAck c hid (.refused d) (counted c s)) t)

/-- ATTACH_REQ that is admitted (R23, R26, R33): the record, a subscriber's or the visitor created by this attach, is
ATTACHED at the cell with the claimed clearance and quality of the request, its deadline is now plus the presence period,
the change is reported, and ACCEPTED is offered. A handset in a call loses it first, while no handover request waits: the
call is dropped HANDSET_REATTACHED and its context is IDLE. -/
def Obligations.AttachAdmitted : Prop :=
  ∀ (c : CellIx) (hid : Hid) (claimed q : Byte) (cl : Clearance) (qv : Quality) (s : State), Heard c s →
    claimed.toNat = cl.val → q.toNat = qv.val →
    (∀ (i : RecIx) (e : Enrolled),
      (s.findHid hid = some i ∧ (s.record i).enrolled = some e ∧ (s.hold.active = true → e.loc ≠ .absent) ∧
        ∀ a x, e.loc ≠ .engaged a x) ∨
      (∃ f, s.hold.active = false ∧ s.findHid hid = none ∧ chosenFilter s hid = some f ∧ freeVisitor s = some i ∧
        e = ⟨hid, (s.filter f).clearance, (s.filter f).group, some f, .absent⟩) →
      accessCheck s (if cl ≤ e.clearance then e.clearance else cl) e.group c .register = none →
      Runs (.attachReq c hid claimed q) s fun t =>
        (t.record i).enrolled =
          some { e with loc := .attached ⟨cl, c, qv⟩ (s.now + BitVec.ofNat 32 (s.config.presencePeriod * 60000)) } ∧
        (t.record i).lastChange = s.now ∧
        EventEnd s (sendAck c hid .accepted (writeLocation i e
          (.attached ⟨cl, c, qv⟩ (s.now + BitVec.ofNat 32 (s.config.presencePeriod * 60000))) (counted c s))) t) ∧
    ∀ (i : RecIx) (e : Enrolled) (a : Attachment) (x : Channel), s.findHid hid = some i → (s.record i).enrolled = some e →
      e.loc = .engaged a x → s.hrq.total = 0 →
      accessCheck s (if cl ≤ e.clearance then e.clearance else cl) e.group c .register = none →
      Runs (.attachReq c hid claimed q) s fun t =>
        t.call x = none ∧
        (t.record i).enrolled =
          some { e with loc := .attached ⟨cl, c, qv⟩ (s.now + BitVec.ofNat 32 (s.config.presencePeriod * 60000)) } ∧
        EventEnd s (sendAck c hid .accepted (writeLocation i e
          (.attached ⟨cl, c, qv⟩ (s.now + BitVec.ofNat 32 (s.config.presencePeriod * 60000)))
          (dropCall x .handsetReattached false (counted c s)))) t

/-- PRESENCE, by the state of the handset's record (R28): refreshed, moved, revoked, kept in its call, or refused
NOT_ATTACHED. -/
def Obligations.PresenceTable : Prop :=
  ∀ (c : CellIx) (hid : Hid) (q : Byte) (qv : Quality) (s : State), Heard c s → q.toNat = qv.val →
    ((∀ i e, s.findHid hid = some i → (s.record i).enrolled = some e → e.loc = .absent) →
      Runs (.presence c hid q) s fun t =>
        EventEnd s (sendAck c hid (.refused ⟨.notAttached, 0, .none⟩) (counted c s)) t) ∧
    ∀ (i : RecIx) (e : Enrolled), s.findHid hid = some i → (s.record i).enrolled = some e →
      (∀ a x, e.loc = .engaged a x → Runs (.presence c hid q) s fun t =>
        EventEnd s ((counted c s).setRecord i
          { s.record i with holder := .present { e with loc := .engaged { a with quality := qv } x } }) t) ∧
      (∀ a d, e.loc = .attached a d → a.cell = c → Runs (.presence c hid q) s fun t =>
        EventEnd s ((counted c s).setRecord i { s.record i with holder := .present { e with
          loc := .attached { a with quality := qv } (s.now + BitVec.ofNat 32 (s.config.presencePeriod * 60000)) } }) t) ∧
      (∀ a d, e.loc = .attached a d → a.cell ≠ c → checkStored s e a c .location = none →
        Runs (.presence c hid q) s fun t =>
          EventEnd s (writeLocation i e
            (.attached ⟨a.claimed, c, qv⟩ (s.now + BitVec.ofNat 32 (s.config.presencePeriod * 60000))) (counted c s)) t) ∧
      (∀ a d v, e.loc = .attached a d → a.cell ≠ c → checkStored s e a c .location = some v →
        Runs (.presence c hid q) s fun t =>
          (t.record i).enrolled = (if isVisitor i = true then none else some { e with loc := .absent }) ∧
          EventEnd s (sendAck c hid (.revoked v) (changeLocation i e .absent (counted c s))) t)

/-- DETACH_IND and PRESENCE_DEADLINE_EXPIRY (R16, R29, R30). A detach of a handset that is not registered does nothing; one
that is ATTACHED becomes ABSENT; one in a call loses it, HANDSET_DETACHED, and becomes ABSENT too (R33). An expiry makes an
ATTACHED record whose deadline has passed ABSENT, and otherwise does nothing (log 3). No frame is sent to the handset. -/
def Obligations.HandsetLeaves : Prop :=
  (∀ (c : CellIx) (hid : Hid) (s : State), Heard c s →
    ((∀ i e, s.findHid hid = some i → (s.record i).enrolled = some e → e.loc = .absent) →
      exec (.detachInd c hid) s = .next (counted c s)) ∧
    ∀ (i : RecIx) (e : Enrolled), s.findHid hid = some i → (s.record i).enrolled = some e →
      (∀ a d, e.loc = .attached a d → Runs (.detachInd c hid) s fun t =>
        (t.record i).enrolled = (if isVisitor i = true then none else some { e with loc := .absent }) ∧
        (t.record i).lastChange = s.now ∧ (∀ p, t.port p = s.port p) ∧
        EventEnd s (changeLocation i e .absent (counted c s)) t) ∧
      (∀ a x, e.loc = .engaged a x → s.hrq.total = 0 → Runs (.detachInd c hid) s fun t =>
        t.call x = none ∧ EventEnd s (dropCall x .handsetDetached false (counted c s)) t ∧
        ∀ k, s.call x = some k → k.handset = i →
          (t.record i).enrolled = (if isVisitor i = true then none else some { e with loc := .absent }) ∧
          (t.record i).lastChange = s.now)) ∧
  ∀ (i : RecIx) (s : State),
    (∀ e a d, (s.record i).enrolled = some e → e.loc = .attached a d → due d s →
      Runs (.presenceDeadlineExpiry i) s fun t =>
        (t.record i).enrolled = (if isVisitor i = true then none else some { e with loc := .absent }) ∧
        (t.record i).lastChange = s.now ∧ (∀ p, t.port p = s.port p) ∧ EventEnd s (changeLocation i e .absent s) t) ∧
    ((∀ e a d, (s.record i).enrolled = some e → e.loc = .attached a d → ¬ due d s) →
      exec (.presenceDeadlineExpiry i) s = .next s)

/-- A notice is owed for every dirty record and every settled page outcome (R36, R39, R171): every step keeps the agreement
of the notice queue with the records and the page list, so that nothing is queued twice, and neither a dirty record nor a
settled page outcome waits unqueued while the queue has a free place. -/
def Obligations.StepKeepsNotices : Prop :=
  ∀ s t : State, step s = .next t → (s.NoticesOk → t.NoticesOk) ∧ (s.OutcomesOk → t.OutcomesOk)

/-- The page list and the registry (R164, R170): from a state that keeps the invariant, every step keeps that at most one
entry in PAGING carries a HID, that its record is present, ATTACHED and holds that HID, and that its attempts are at most 8.
-/
def Obligations.StepKeepsPages : Prop := ∀ s t : State, s.Inv → s.PagesOk → step s = .next t → t.PagesOk

/-! ### The access check (chapter 3) -/

/-- The access check (R46 to R50): cell known, cell in service, zone present, zone not closed, an open zone's level. In a
gated zone the found gate, the lowest in number that serves the group, decides by its level, then by its mode; without one
the zone is missed. -/
def Obligations.AccessCheckChain : Prop :=
  ∀ (s : State) (e : Clearance) (grp : Group) (c : CellIx) (p : Purpose),
    ((s.cell c).present = false → accessCheck s e grp c p = some ⟨.cellUnknown, c.val, .cell⟩) ∧
    ((s.cell c).present = true → (s.cell c).service ≠ .inService →
      accessCheck s e grp c p = some ⟨.cellUnavailable, c.val, .cell⟩) ∧
    ((s.cell c).present = true → (s.cell c).service = .inService → ∀ z, (s.cell c).zone = z →
      ((s.zone z).present = false → accessCheck s e grp c p = some ⟨.zoneAbsent, z.val, .zone⟩) ∧
      ((s.zone z).present = true → (s.zone z).kind = .closed →
        accessCheck s e grp c p = some ⟨.zoneClosed, z.val, .zone⟩) ∧
      ((s.zone z).present = true → (s.zone z).kind = .openZone →
        accessCheck s e grp c p = if (s.zone z).level.val < e.val then some ⟨.clearance, z.val, .zone⟩ else none) ∧
      ((s.zone z).present = true → (s.zone z).kind = .gated →
        ((∀ g, ¬ GateServes s z grp g) → accessCheck s e grp c p = some ⟨.gateMiss, z.val, .zone⟩) ∧
        ∀ g, GateServes s z grp g → (∀ h, h < g → ¬ GateServes s z grp h) →
          accessCheck s e grp c p =
            if (s.gate g).level.val < e.val then some ⟨.clearance, g.val, .gate⟩
            else if (s.gate g).mode = .inCallOnly ∧ p ≠ .handover then some ⟨.gateMode, g.val, .gate⟩
            else none))

/-! ### Cells (chapter 4) -/

/-- Reserves and releases (R60 to R63, R68, R69). A reserve passes at a cell IN_SERVICE below its limit, which is capacity
for priority 3 and for a target, and capacity less guard otherwise. A release lowers occupancy; one that leaves 0 in
DRAINING enters the follow-on. The congested flag is set at the upper watermark and cleared at the lower. -/
def Obligations.OccupancyReports : Prop :=
  ∀ (c : CellIx) (s : State),
    initialLimit (s.cell c) 3 = (s.cell c).capacity ∧
    (∀ p, p ≠ 3 → initialLimit (s.cell c) p = (s.cell c).capacity - (s.cell c).guard) ∧
    (∀ limit, (s.cell c).service ≠ .inService → reserve c limit s = .error .cellUnavailable) ∧
    (∀ limit, (s.cell c).service = .inService → limit ≤ (s.cell c).occupancy → reserve c limit s = .error .cellFull) ∧
    (∀ limit, (s.cell c).service = .inService → (s.cell c).occupancy < limit →
      ∃ t, reserve c limit s = .ok t ∧ t = { s with cells := t.cells } ∧ (∀ d, d ≠ c → t.cell d = s.cell d) ∧
        t.cell c = { s.cell c with
          occupancy := (s.cell c).occupancy + 1
          congested := (s.cell c).congested || decide ((s.cell c).upper ≤ (s.cell c).occupancy + 1) }) ∧
    ((∀ f d, (s.cell c).service = .draining f d → 1 < (s.cell c).occupancy) →
      releaseSlot c s = { s with cells := (releaseSlot c s).cells } ∧
      (∀ d, d ≠ c → (releaseSlot c s).cell d = s.cell d) ∧
      (releaseSlot c s).cell c = { s.cell c with
        occupancy := (s.cell c).occupancy - 1
        congested := (s.cell c).congested && decide ((s.cell c).lower < (s.cell c).occupancy - 1) }) ∧
    (∀ d, (s.cell c).service = .draining .outOfService d → (s.cell c).occupancy ≤ 1 →
      releaseSlot c s = { s with cells := (releaseSlot c s).cells } ∧
      (∀ d, d ≠ c → (releaseSlot c s).cell d = s.cell d) ∧
      (releaseSlot c s).cell c = { s.cell c with occupancy := 0, congested := false, service := .outOfService }) ∧
    (∀ d, (s.cell c).service = .draining .restarting d → (s.cell c).occupancy ≤ 1 →
      releaseSlot c s = { s with
        cells := (releaseSlot c s).cells, ports := (offerQuietly (.cellRestart c) s).ports } ∧
      (∀ d, d ≠ c → (releaseSlot c s).cell d = s.cell d) ∧
      (releaseSlot c s).cell c = { s.cell c with
        occupancy := 0, congested := false, service := .restarting (inMs (s.config.restartTime * 1000) s) })

/-- The four commands on cells (R64 to R69): BAD_INDEX for a cell that is not present, WRONG_STATE, LINK_DOWN, else the new
service state with OK. A CELL_DISABLE from IN_SERVICE or DRAINING goes on to the contexts, which keep the setting. CELL_DRAIN
and CELL_RESTART of a cell IN_SERVICE with occupancy 0 lead at once to the follow-on, which the answer carries. Otherwise the
cell is DRAINING until now plus the drain time, and the contexts' events follow, which DrainStartReachesContexts states. -/
def Obligations.CellCommandsAnswered : Prop :=
  (∀ (tag : Tag) (n : Nat) (s : State),
    ((∀ c : CellIx, n = c.val → (s.cell c).present = false) →
      Answers (.cellEnable tag n) tag (asksFor 0x10) s ⟨.badIndex, .none⟩ s ∧
      Answers (.cellDisable tag n) tag (asksFor 0x11) s ⟨.badIndex, .none⟩ s ∧
      Answers (.cellDrain tag n) tag (asksFor 0x12) s ⟨.badIndex, .none⟩ s ∧
      Answers (.cellRestart tag n) tag (asksFor 0x13) s ⟨.badIndex, .none⟩ s) ∧
    ∀ c : CellIx, n = c.val → (s.cell c).present = true →
      ((s.cell c).service ≠ .outOfService →
        Answers (.cellEnable tag n) tag (asksFor 0x10) s ⟨.wrongState, .service (s.cell c).service.name⟩ s) ∧
      ((s.cell c).service = .outOfService → (s.port (portOf c)).link = .down →
        Answers (.cellEnable tag n) tag (asksFor 0x10) s ⟨.linkDown, .none⟩ s) ∧
      ((s.cell c).service = .outOfService → (s.port (portOf c)).link = .up →
        Answers (.cellEnable tag n) tag (asksFor 0x10) s ⟨.ok, .service .inService⟩
          (s.setCell c { s.cell c with service := .inService })) ∧
      ((s.cell c).service ≠ .inService →
        Answers (.cellDrain tag n) tag (asksFor 0x12) s ⟨.wrongState, .service (s.cell c).service.name⟩ s ∧
        Answers (.cellRestart tag n) tag (asksFor 0x13) s ⟨.wrongState, .service (s.cell c).service.name⟩ s) ∧
      ((s.cell c).service = .outOfService ∨ (∃ d, (s.cell c).service = .restarting d) →
        Answers (.cellDisable tag n) tag (asksFor 0x11) s ⟨.ok, .service .outOfService⟩
          (s.setCell c { s.cell c with service := .outOfService })) ∧
      ((s.cell c).service = .inService ∨ (∃ f d, (s.cell c).service = .draining f d) →
        Executing tag (asksFor 0x11) s → Runs (.cellDisable tag n) s fun t =>
          (t.cell c).service = .outOfService ∧ ∃ u, SettingKept u t ∧
            EventEnd s (answered tag ⟨.ok, .service .outOfService⟩
              (s.setCell c { s.cell c with service := .outOfService })) u)) ∧
  ∀ (tag : Tag) (c : CellIx) (s : State), (s.cell c).present = true → (s.cell c).service = .inService →
    ((s.cell c).occupancy = 0 →
      (Executing tag (asksFor 0x12) s → Runs (.cellDrain tag c.val) s fun t => ∃ u, u = { s with cells := u.cells } ∧
        u.cell c = { s.cell c with service := .outOfService } ∧ (∀ d, d ≠ c → u.cell d = s.cell d) ∧
        EventEnd s (answered tag ⟨.ok, .service .outOfService⟩ u) t) ∧
      (Executing tag (asksFor 0x13) s → Runs (.cellRestart tag c.val) s fun t => ∃ u,
        u = { s with cells := u.cells, ports := (offerQuietly (.cellRestart c) s).ports } ∧
        u.cell c = { s.cell c with service := .restarting (inMs (s.config.restartTime * 1000) s) } ∧
        (∀ d, d ≠ c → u.cell d = s.cell d) ∧
        EventEnd s (answered tag ⟨.ok, .service .restarting⟩ u) t)) ∧
    (0 < (s.cell c).occupancy →
      (Executing tag (asksFor 0x12) s → Runs (.cellDrain tag c.val) s fun t => ∃ u, SettingKept u t ∧
        EventEnd s (answered tag ⟨.ok, .service .draining⟩
          (s.setCell c { s.cell c with
            service := .draining .outOfService (inMs (s.config.drainTime * 1000) s) })) u) ∧
      (Executing tag (asksFor 0x13) s → Runs (.cellRestart tag c.val) s fun t => ∃ u, SettingKept u t ∧
        EventEnd s (answered tag ⟨.ok, .service .draining⟩
          (s.setCell c { s.cell c with
            service := .draining .restarting (inMs (s.config.drainTime * 1000) s) })) u))

/-- The drain start (R67, R109, R135) of a CELL_DRAIN or CELL_RESTART of a cell IN_SERVICE with occupancy above 0: after the
event of the command, one event for each context that is not IDLE, in ascending channel order (R67), with the takes that
follow each (DEDUCED, log 5), and after them no context has the cell as its target. The share of one context: with its
target elsewhere or none, and not ACTIVE at the cell, nothing. ACTIVE at the cell with its request flag clear, it posts
DRAIN toward the live candidate of highest F, the earliest on a tie; with the flag set or no live candidate, nothing.
PREPARING toward the cell, it falls back, and the open is cancelled: freed with its LEG-OPEN where that still waits, else
marked (R147). BRIDGING toward it, it falls back with (t, x) in the close set and its HO-CMD withdrawn. In both the serving
cell is another one, as it is in every run (StepKeepsRequests). RESCUING with an attempt there, it passes to the next
candidate, and the open is cancelled; that the attempt passed on to has the kind RESCUE, whatever the kind of the target
lost, is DEDUCED (log 17). -/
def Obligations.DrainStartReachesContexts : Prop :=
  (∀ (tag : Tag) (c : CellIx) (f : FollowOn) (i : Instr) (s : State), (s.cell c).present = true →
    (s.cell c).service = .inService → 0 < (s.cell c).occupancy →
    (f = .outOfService ∧ i = .cellDrain tag c.val ∧ Executing tag (asksFor 0x12) s) ∨
      (f = .restarting ∧ i = .cellRestart tag c.val ∧ Executing tag (asksFor 0x13) s) →
    Runs i s fun t =>
      (∃ u, EventEnd s (answered tag ⟨.ok, .service .draining⟩
          (s.setCell c { s.cell c with service := .draining f (inMs (s.config.drainTime * 1000) s) })) u ∧
        EachContext (drainStartAt c) u t) ∧
      ∀ x k r, t.call x = some k → k.phase.target = some r → r.cell ≠ c) ∧
  ∀ (c : CellIx) (x : Channel) (s : State) (k : Call), s.Inv → (s.cell c).service ≠ .inService → s.call x = some k →
    ((∀ r, k.phase.target = some r → r.cell ≠ c) → (∀ l g, k.phase = .active l g → l.cell ≠ c ∨ k.posted = true) →
      drainStartAt c x s = s) ∧
    (∀ l g, k.phase = .active l g → l.cell = c → k.posted = false →
      ((∀ d ∈ k.candidates, (s.cell d.cell).live = false) → drainStartAt c x s = s) ∧
      ∀ before d after, k.candidates = before ++ d :: after → (s.cell d.cell).live = true →
        (∀ b ∈ before, (s.cell b.cell).live = true → b.f < d.f) →
        (∀ b ∈ after, (s.cell b.cell).live = true → b.f ≤ d.f) →
        drainStartAt c x s = hrqPost ⟨x, d.cell, .drain, s.now⟩ s) ∧
    (∀ l g r n, k.phase = .preparing l g r n → r.cell = c → l.cell ≠ c → ∀ t, t = drainStartAt c x s →
      t.call x = some (fallenCall s k l c) ∧ (∀ y, y ≠ x → t.call y = s.call y) ∧
      (t.cell c).occupancy = (s.cell c).occupancy - 1 ∧
      t.device = { s.device with fallbacks := s.device.fallbacks.bump } ∧ t.hrq = s.hrq ∧ OpenCancelled n s t) ∧
    (∀ l g r sl d, k.phase = .bridging l g r sl d → r.cell = c → l.cell ≠ c → ∀ t, t = drainStartAt c x s →
      t.call x = some (fallenCall s k l c) ∧ (∀ y, y ≠ x → t.call y = s.call y) ∧
      (t.cell c).occupancy = (s.cell c).occupancy - 1 ∧
      t.device = { s.device with fallbacks := s.device.fallbacks.bump } ∧ t.hrq = s.hrq ∧ t.answers = s.answers ∧
      ((s.port (portOf c)).link = .up → (s.port (portOf c)).closes.length < 256 →
        (c, x) ∈ (t.port (portOf c)).closes) ∧
      ∀ p, ∀ o ∈ (t.port p).ctl, o.hoChannel ≠ some x) ∧
    ∀ r n d, k.phase = .rescuing (some (r, n)) d → r.cell = c → ∀ t, t = drainStartAt c x s →
      AttemptPassed x k c n d s t ∧ AttemptCancelled x c n s t

/-- A cell loss (R66, R68, R70, R71, R80, R94, R95, R135): after a disable of a cell with work on it, its drain deadline and
the line-down of its port, one event for each context that is not IDLE, after which no context holds the cell as its initial
open, serving leg or target. R95 gives the contexts no order: that they act in ascending channel order is the model's choice
(log 6), and so is when the takes come, after the event of each context and at a line-down once more after all (DEDUCED,
log 5). The share of one context, with one release of each slot. Nothing
lost: nothing. The initial open: cancelled, a failed open, LEG_FAILED with the cause. The target: its open is cancelled, or
its leg enters the close set, by LINK_DOWN not; fallback, in RESCUING the next candidate (its kind: log 17). The serving
leg, the target elsewhere: dropped CELL_DISABLED or CELL_DRAINED, every leg in the close set; by LINK_DOWN lost with no
close, so that an ACTIVE call is dropped LINK_DOWN or RESCUING with its RESCUE posted, an open becomes the rescue attempt, a
bridge commits. Both legs on a port that goes down: the target first, then the serving leg as in ACTIVE. -/
def Obligations.CellLossReachesEveryContext : Prop :=
  (∀ (c : CellIx) (s : State),
    (∀ tag, (s.cell c).present = true → (s.cell c).service.working = true → Executing tag (asksFor 0x11) s →
      Runs (.cellDisable tag c.val) s fun t => (∀ x, holdsChannel t c x = false) ∧
        ∃ u, EventEnd s (answered tag ⟨.ok, .service .outOfService⟩
            (s.setCell c { s.cell c with service := .outOfService })) u ∧
          EachContext (lossAtContext (fun d => decide (d = c)) .cellDisabled) u t) ∧
    (∀ f d, (s.cell c).service = .draining f d → due d s → Runs (.drainDeadlineExpiry c) s fun t =>
      (∀ x, holdsChannel t c x = false) ∧ ∃ u, EventEnd s (enterFollowOn c f s) u ∧
        EachContext (lossAtContext (fun d => decide (d = c)) .cellDrained) u t) ∧
    ((s.port (portOf c)).link = .up → Runs (.cellPortLineDown (portOf c)) s fun t =>
      ((s.cell c).service.working = true → ∀ x, holdsChannel t c x = false) ∧
      ∃ u, EachContext (lossAtContext (lostAtDown (portOf c) s) .linkDown) (cellLineDown (portOf c) s) u ∧
        t = takes s u)) ∧
  ∀ (lost : CellIx → Bool) (cause : LossCause) (fc : FailCause) (dc : DropCause) (x : Channel) (s t : State) (k : Call),
    s.Inv → s.call x = some k → t = lossAtContext lost cause x s →
    (cause, fc, dc) ∈ [(LossCause.cellDisabled, FailCause.cellDisabled, DropCause.cellDisabled),
      (.cellDrained, .cellDrained, .cellDrained), (.linkDown, .linkDown, .linkDown)] →
    ((∀ d n, k.phase = .opening d n → lost d = false) → (∀ l, k.phase.serving = some l → lost l.cell = false) →
      (∀ r, k.phase.target = some r → lost r.cell = false) → t = s) ∧
    (∀ d n, k.phase = .opening d n → lost d = true → OpenFailed x k d fc s t ∧ OpenCancelled n s t) ∧
    (∀ r, k.phase.target = some r → lost r.cell = true → (∀ l, k.phase.serving = some l → lost l.cell = false) →
      (∀ l g n, k.phase = .preparing l g r n → FellBack x k l r.cell [] s t ∧ OpenCancelled n s t) ∧
      (∀ l g sl d, k.phase = .bridging l g r sl d →
        FellBack x k l r.cell (if cause = .linkDown then [] else [r.cell]) s t ∧ t.answers = s.answers) ∧
      ∀ n d, k.phase = .rescuing (some (r, n)) d →
        AttemptPassed x k r.cell n d s t ∧ AttemptCancelled x r.cell n s t) ∧
    (∀ l, k.phase.serving = some l → lost l.cell = true → (∀ r, k.phase.target = some r → lost r.cell = false) →
      (cause ≠ .linkDown → CallDropped x k dc s t ∧ t.device.fallbacks = s.device.fallbacks ∧
        (∀ g, k.phase = .active l g → SlotsReleased [l.cell] s t ∧ LegsClosed x [l.cell] s t) ∧
        (∀ g r n, k.phase = .preparing l g r n →
          SlotsReleased [l.cell, r.cell] s t ∧ LegsClosed x [l.cell] s t ∧ OpenCancelled n s t) ∧
        ∀ g r sl d, k.phase = .bridging l g r sl d →
          SlotsReleased [l.cell, r.cell] s t ∧ LegsClosed x [l.cell, r.cell] s t) ∧
      (cause = .linkDown → SlotsReleased [l.cell] s t ∧ LegsClosed x [] s t ∧
        (∀ g, k.phase = .active l g →
          (k.candidates = [] → CallDropped x k .linkDown s t ∧ t.device.fallbacks = s.device.fallbacks) ∧
          ∀ b, bestCandidate k.candidates = some b → RescueBegins x k b.cell s.device s t) ∧
        (∀ g r n, k.phase = .preparing l g r n → t.answers = s.answers ∧ t.device = s.device ∧ t.call x = some { k with
          phase := .rescuing (some ({ r with role := .rescue }, n)) (inMs s.config.rescueLimit s) }) ∧
        ∀ g r sl d, k.phase = .bridging l g r sl d → t.call x = some (committedCall s k r.cell sl) ∧
          t.device = { s.device with committed := s.device.committed.bump r.kind })) ∧
    ∀ l r, k.phase.serving = some l → k.phase.target = some r → lost l.cell = true → lost r.cell = true →
      cause = .linkDown → SlotsReleased [r.cell, l.cell] s t ∧ LegsClosed x [] s t ∧
        (∀ g n, k.phase = .preparing l g r n → OpenCancelled n s t) ∧
        (k.candidates = [] → CallDropped x k .linkDown s t ∧ t.device.fallbacks = s.device.fallbacks.bump) ∧
        ∀ b, bestCandidate k.candidates = some b →
          RescueBegins x (fallenCall s k l r.cell) b.cell { s.device with fallbacks := s.device.fallbacks.bump } s t

/-- Occupancy (R60): from a state that keeps the invariant, every step keeps that the occupancy of each cell is the number of
established legs there plus the LEG-OPENs to it that are admitted and neither resolved, withdrawn nor cancelled, and that
those opens are the ones that the contexts wait for (R139, R147). -/
def Obligations.StepKeepsOccupancy : Prop := ∀ s t : State, s.Inv → s.OccupancyOk → step s = .next t → t.OccupancyOk

/-! ### Calls and voice (chapter 5) -/

/-- CALL_REQ (R81): rejected NOT_ATTACHED unless the handset is ATTACHED at the cell, rejected by the access check, or a
notice to the call server, rejected BUSY where the notice queue is full. -/
def Obligations.CallReqJudged : Prop :=
  ∀ (c : CellIx) (hid : Hid) (s : State), Heard c s →
    ((∀ i e a d, s.findHid hid = some i → (s.record i).enrolled = some e → e.loc = .attached a d → a.cell ≠ c) →
      Runs (.callReq c hid) s
        (EventEnd s (offerQuietly (.callReqRej c hid (.denied ⟨.notAttached, 0, .none⟩)) (counted c s)))) ∧
    ∀ i e a d, s.findHid hid = some i → (s.record i).enrolled = some e → e.loc = .attached a d → a.cell = c →
      (∀ v, checkStored s e a c .callSetup = some v → Runs (.callReq c hid) s
        (EventEnd s (offerQuietly (.callReqRej c hid (.denied v)) (counted c s)))) ∧
      (checkStored s e a c .callSetup = none → s.notices.length < 64 → Runs (.callReq c hid) s
        (EventEnd s { counted c s with notices := s.notices ++ [.callReq hid i c] })) ∧
      (checkStored s e a c .callSetup = none → 64 ≤ s.notices.length → Runs (.callReq c hid) s
        (EventEnd s (offerQuietly (.callReqRej c hid .busy) (counted c s))))

/-- CALL_OPEN that is not admitted (R76, R77): one CALL-ACK with the first refusal of the six checks. Only the transaction
check comes after a reserve, which is handed back. -/
def Obligations.CallOpenRefused : Prop :=
  ∀ (x : Channel) (p : Priority) (ch pr : Byte) (hid : Hid) (s : State), s.trunk.link = .up → ch.toNat = x.val →
    pr.toNat = p.val →
    (s.call x ≠ none → Runs (.callOpen ch hid pr) s
      (EventEnd s (reply (.callAck x .channelBusy) (countReceived trunkLink s)))) ∧
    (s.call x = none → (∀ i e, s.findHid hid = some i → (s.record i).enrolled = some e → e.loc = .absent) →
      Runs (.callOpen ch hid pr) s
        (EventEnd s (reply (.callAck x (.denied ⟨.notAttached, 0, .none⟩)) (countReceived trunkLink s)))) ∧
    ∀ i e, s.call x = none → s.findHid hid = some i → (s.record i).enrolled = some e →
      (∀ a y, e.loc = .engaged a y → Runs (.callOpen ch hid pr) s
        (EventEnd s (reply (.callAck x (.denied ⟨.handsetBusy, 0, .none⟩)) (countReceived trunkLink s)))) ∧
      ∀ a d, e.loc = .attached a d →
        (s.hold.active = true → p ≠ 3 → Runs (.callOpen ch hid pr) s
          (EventEnd s (reply (.callAck x (.denied ⟨.hold, 0, .none⟩)) (countReceived trunkLink s)))) ∧
        (∀ v, (s.hold.active = true → p = 3) → checkStored s e a a.cell .callSetup = some v →
          Runs (.callOpen ch hid pr) s (EventEnd s (reply (.callAck x (.denied v)) (countReceived trunkLink s)))) ∧
        (∀ code, (s.hold.active = true → p = 3) → checkStored s e a a.cell .callSetup = none →
          reserve a.cell (initialLimit (s.cell a.cell) p) (countReceived trunkLink s) = .error code →
          Runs (.callOpen ch hid pr) s
            (EventEnd s (reply (.callAck x (.denied ⟨code, a.cell.val, .cell⟩)) (countReceived trunkLink s)))) ∧
        (∀ u, (s.hold.active = true → p = 3) → checkStored s e a a.cell .callSetup = none →
          reserve a.cell (initialLimit (s.cell a.cell) p) (countReceived trunkLink s) = .ok u → 64 ≤ s.answers.length →
          Runs (.callOpen ch hid pr) s
            (EventEnd s (reply (.callAck x (.denied ⟨.noTransaction, 0, .none⟩)) (releaseSlot a.cell u))))

/-- CALL_OPEN that is admitted (R77, R78, R139): the context is OPENING with the fields of R77, the record is ENGAGED, the
slot is reserved, and the LEG-OPEN of role INITIAL is queued or sent with its transaction. A queue that refuses the frame
ends the open, LEG_FAILED (R80), with the slot given back and the handset ATTACHED again with a new deadline (R32). The
transaction is the first value from the counter upward, passing from 4095 to 0, that no entry holds (R140). -/
def Obligations.CallOpenAdmitted : Prop :=
  (∀ s : State, s.answers.length ≤ 64 →
    (∀ a ∈ s.answers, a.txn ≠ s.nextTxn) ∧
    ∀ j, j < (s.nextTxn - s.txnCounter).toNat → ∃ a ∈ s.answers, a.txn = s.txnCounter + BitVec.ofNat 12 j) ∧
  ∀ (x : Channel) (p : Priority) (ch pr : Byte) (hid : Hid) (s u : State) (i : RecIx) (e : Enrolled) (a : Attachment)
    (d : Time), s.Inv → s.trunk.link = .up → ch.toNat = x.val → pr.toNat = p.val →
    s.call x = none → s.findHid hid = some i → (s.record i).enrolled = some e → e.loc = .attached a d →
    (s.hold.active = true → p = 3) → checkStored s e a a.cell .callSetup = none → s.answers.length < 64 →
    reserve a.cell (initialLimit (s.cell a.cell) p) (countReceived trunkLink s) = .ok u →
    (QueueTakes a.cell s → Runs (.callOpen ch hid pr) s fun t =>
      t.call x = some
        { handset := i, priority := p, phase := .opening a.cell s.nextTxn, fs := 16 * a.quality.val, candidates := [],
          posted := false, nextSeq := none, staleRun := 0, handovers := 0, lossCause := none } ∧
      (t.record i).enrolled = some { e with loc := .engaged a x } ∧
      t.answers = s.answers ++ [⟨s.nextTxn, x, a.cell, inMs s.config.legTime s, false⟩] ∧
      t.txnCounter = s.nextTxn + 1 ∧ (t.cell a.cell).occupancy = (s.cell a.cell).occupancy + 1 ∧
      OpenSent a.cell s.nextTxn x e.hid .initial t ∧
      EventEnd s (allocateTxn s.nextTxn x a.cell (offerQuietly (.legOpen a.cell s.nextTxn x e.hid .initial)
        ((changeLocation i e (.engaged a x) u).setCall x (some (newCall i p a s.nextTxn))))) t) ∧
    (¬ QueueTakes a.cell s → Runs (.callOpen ch hid pr) s fun t =>
      t.call x = none ∧ t.answers = s.answers ∧ t.txnCounter = s.txnCounter ∧
      (t.record i).enrolled = some { e with loc := .attached a (inMs (s.config.presencePeriod * 60000) s) } ∧
      (t.cell a.cell).occupancy = (s.cell a.cell).occupancy ∧
      EventEnd s (failedOpen x (newCall i p a s.nextTxn) a.cell
        (if (s.port (portOf a.cell)).link = .up then .queueFull else .linkDown)
        ((changeLocation i e (.engaged a x) u).setCall x (some (newCall i p a s.nextTxn)))) t)

/-- CALL_CLEAR (R82, R83): NOT_OPEN in IDLE. In any other state the context is IDLE and, while no handover request waits,
CLEARED is answered at the end of the call, and the handset is released in the re-check form (R32): ATTACHED with a new
deadline, or revoked with its ATTACH-ACK REVOKED. An ACTIVE call's slot is released and its leg put in the close set. -/
def Obligations.CallCleared : Prop :=
  ∀ (x : Channel) (ch : Byte) (s : State), s.trunk.link = .up → ch.toNat = x.val →
    (s.call x = none → Runs (.callClear ch) s
      (EventEnd s (reply (.callAck x .notOpen) (countReceived trunkLink s)))) ∧
    ∀ k, s.call x = some k →
      (Runs (.callClear ch) s fun t => t.call x = none) ∧
      (s.hrq.total = 0 → Runs (.callClear ch) s fun t => HandsetReleased k.handset s t ∧
        EventEnd s (reply (.callAck x .cleared) (endCall x k false .recheck (countReceived trunkLink s))) t) ∧
      (s.hrq.total = 0 → ∀ l g, k.phase = .active l g → Runs (.callClear ch) s fun t =>
        (t.cell l.cell).occupancy = (s.cell l.cell).occupancy - 1 ∧
        ((s.port (portOf l.cell)).link = .up → (s.port (portOf l.cell)).closes.length < 256 → Closing l.cell x t))

/-- VOX_UPLINK outside a commit (R12, R88 to R90). From a cell whose leg carries no voice it is stray. From the serving cell
it is forwarded when no sequence is expected, when it is at or after the expected one, or after a stale run of 8; else it is
stale. From the target cell in BRIDGING it is stale when it is before the expected one. That a sequence 127 past the next
expected one is forwarded is the model's choice (log 35). -/
def Obligations.UplinkVoiceJudged : Prop :=
  ∀ (c : CellIx) (x : Channel) (ch seq : Byte) (payload : List Byte) (s : State), s.Inv → Heard c s → ch.toNat = x.val →
    payload.length = 40 →
    ((∀ k, s.call x = some k → (∀ l, k.phase.serving = some l → l.cell ≠ c) ∧
        ∀ l g r sl d, k.phase = .bridging l g r sl d → r.cell ≠ c) →
      Runs (.voxUplink c ch seq payload) s (EventEnd s (countStrayVoice (linkOf (portOf c)) (counted c s)))) ∧
    ∀ k l, s.call x = some k → k.phase.serving = some l →
      (l.cell = c → ((∀ n, k.nextSeq = some n → (seq - n).toNat < 128) ∨ 8 ≤ k.staleRun) →
        Runs (.voxUplink c ch seq payload) s
          (EventEnd s (trunkVoice ⟨x, seq, payload⟩
            ((counted c s).setCall x (some { k with nextSeq := some (seq + 1), staleRun := 0 }))))) ∧
      (∀ n, l.cell = c ∨ (∃ g r sl d, k.phase = .bridging l g r sl d ∧ r.cell = c) → k.nextSeq = some n →
        128 ≤ (seq - n).toNat → (l.cell = c → k.staleRun < 8) →
        Runs (.voxUplink c ch seq payload) s
          (EventEnd s ((counted c s).setCall x (some { k with staleRun := min 8 (k.staleRun + 1) }))))

/-- The first VOX of the target cell that is forwarded in BRIDGING commits (R91, R130, R131), while no handover request
waits: the frame joins the trunk voice lane, whose oldest frame an idle trunk then sends; the target serves the call; the
handset's record moves to it, stamped, with its notice owed; the old leg is released and put in the close set; an HO-CMD
that still waits is withdrawn; and the commit is counted for its kind. That a sequence 127 past the next expected one is
forwarded is the model's choice (log 35). -/
def Obligations.BridgeVoiceCommits : Prop :=
  ∀ (c : CellIx) (x : Channel) (ch seq : Byte) (payload : List Byte) (s : State) (k : Call) (l : Leg) (g : Option Time)
    (r : Target) (slot : Slot) (d : Time), Heard c s → ch.toNat = x.val → payload.length = 40 →
    s.call x = some k → k.phase = .bridging l g r slot d → l.cell ≠ c → r.cell = c →
    (∀ n, k.nextSeq = some n → (seq - n).toNat < 128) → s.hrq.total = 0 →
    Runs (.voxUplink c ch seq payload) s fun t =>
      t.call x = some { committedCall s k c slot with nextSeq := some (seq + 1), staleRun := 0 } ∧
      (∀ e a y i, i = k.handset → (s.record i).enrolled = some e → e.loc = .engaged a y →
        (t.record i).enrolled = some { e with loc := .engaged { a with cell := c } y } ∧ (t.record i).lastChange = s.now ∧
        (t.record i).dirty = true ∧
        (t.record i).queued = ((s.record i).queued || decide (s.notices.length < 64)) ∧
        t.notices = s.notices ++ if (s.record i).queued = false ∧ s.notices.length < 64 then [.location i] else []) ∧
      (s.trunk.link = .up → ∃ vs, vs = (if s.trunk.voice.length < 32 then s.trunk.voice else s.trunk.voice.tail) ++
          [⟨x, seq, payload⟩] ∧
        (s.trunk.tx ≠ none → t.trunk.voice = vs ∧ t.trunk.tx = s.trunk.tx) ∧
        (s.trunk.tx = none → ∃ v, vs = v :: t.trunk.voice ∧ t.trunk.tx = some (.vox v))) ∧
      (s.trunk.link = .down → t.trunk = s.trunk) ∧ (∀ p, ∀ o ∈ (t.port p).ctl, o.hoChannel ≠ some x) ∧
      t.device = { s.device with committed := s.device.committed.bump r.kind } ∧
      (t.cell l.cell).occupancy = (s.cell l.cell).occupancy - 1 ∧ (t.cell c).occupancy = (s.cell c).occupancy ∧
      ((s.port (portOf l.cell)).link = .up → (s.port (portOf l.cell)).closes.length < 256 → Closing l.cell x t)

/-- VOX_DOWNLINK (R11, R92): to the lane of the serving cell's port, in BRIDGING to that of the target too, serving copy
first; else stray. A full lane loses its oldest frame. -/
def Obligations.DownlinkVoiceRouted : Prop :=
  (∀ (x : Channel) (ch seq : Byte) (payload : List Byte) (s : State), s.trunk.link = .up → ch.toNat = x.val →
    payload.length = 40 →
    ((∀ k l, s.call x = some k → k.phase.serving ≠ some l) → Runs (.voxDownlink ch seq payload) s
      (EventEnd s (countStrayVoice trunkLink (countReceived trunkLink s)))) ∧
    ∀ k l, s.call x = some k → k.phase.serving = some l →
      ((∀ g r sl d, k.phase ≠ .bridging l g r sl d) → Runs (.voxDownlink ch seq payload) s
        (EventEnd s (laneVoice l.cell ⟨x, seq, payload⟩ (countReceived trunkLink s)))) ∧
      (∀ g r sl d, k.phase = .bridging l g r sl d → Runs (.voxDownlink ch seq payload) s
        (EventEnd s (laneVoice r.cell ⟨x, seq, payload⟩
          (laneVoice l.cell ⟨x, seq, payload⟩ (countReceived trunkLink s)))))) ∧
  ∀ (c : CellIx) (v : Vox) (s : State),
    ((s.port (portOf c)).link = .down → laneVoice c v s = s) ∧
    ((s.port (portOf c)).link = .up → laneVoice c v s = s.setPort (portOf c) { s.port (portOf c) with
      lane := (if (s.port (portOf c)).lane.length < 8 then (s.port (portOf c)).lane
        else (s.port (portOf c)).lane.tail) ++ [(c, v)] })

/-- LEG_ACK READY that matches an entry (R79, R125, R133, R145): the entry is freed. An initial open becomes ACTIVE and
answers CONNECTED; a target open of PREPARING becomes BRIDGING with its HO-CMD queued; while no handover request waits, it
falls back where the serving cell's queue refuses the HO-CMD, by its port in DOWN or by 24 entries of priority 3 (R129), its
READY leg in the close set; and a rescue attempt commits. An HO-CMD that joins a full queue evicts its newest entry of
priority 2, and a LEG-OPEN evicted so resolves as FAIL with cause QUEUE_FULL in the same event (R149, R150; the kind of an
attempt passed on to: log 17). -/
def Obligations.LegAckDelivered : Prop :=
  ∀ (c : CellIx) (txn : BitVec 16) (n : Txn) (x : Channel) (ch arg : Byte) (slot : Slot) (s : State) (a : Answer)
    (k : Call), s.Inv → Heard c s → txn.toNat = n.toNat → ch.toNat = x.val → arg.toNat = slot.val →
    s.answerOf n = some a → a.cell = c → a.channel = x → a.cancelled = false → s.call x = some k →
    (∀ d, k.phase = .opening d n → Runs (.legAck c txn ch 0 arg) s
      (EventEnd s (reply (.callAck x .connected) ((freeAnswer a (counted c s)).setCall x
        (some { k with phase := .active ⟨d, slot⟩ (some (inMs (s.config.settleInterval * 100) s)) }))))) ∧
    (∀ l g r e, k.phase = .preparing l g r n → QueueTakes l.cell s → (s.record k.handset).enrolled = some e →
      Runs (.legAck c txn ch 0 arg) s
        (EventEnd s ((offerQuietly (.hoCmd l.cell n x e.hid r.cell slot) (freeAnswer a (counted c s))).setCall x
          (some { k with phase := .bridging l g r slot (inMs s.config.bridgeTime s) })))) ∧
    (∀ l g r, k.phase = .preparing l g r n → QueueRefuses 3 l.cell s →
      ((s.port (portOf l.cell)).link = .down ∨ ∀ f ∈ (s.port (portOf l.cell)).ctl, f.openTxn ≠ some n) → s.hrq.total = 0 →
      Runs (.legAck c txn ch 0 arg) s fun t => t.call x = some (fallenCall s k l r.cell) ∧
        SlotsReleased [r.cell] s t ∧ LegsClosed x [r.cell] s t ∧ t.answers = s.answers.filter (fun b => b.txn ≠ n) ∧
        t.device = { s.device with fallbacks := s.device.fallbacks.bump }) ∧
    (∀ l g r e p before v after, k.phase = .preparing l g r n → (s.record k.handset).enrolled = some e →
      p = s.port (portOf l.cell) → p.link = .up → p.ctl = before ++ v :: after → 24 ≤ p.ctl.length → v.priority = 2 →
      (∀ o ∈ before, 2 ≤ o.priority) → (∀ o ∈ after, o.priority = 3) → (∀ o ∈ p.ctl, o.openTxn ≠ some n) →
      s.hrq.total = 0 → Runs (.legAck c txn ch 0 arg) s fun t => ∃ u w,
        u = ((freeAnswer a (counted c s)).setPort (portOf l.cell)
          { p with ctl := before ++ after ++ [.hoCmd l.cell n x e.hid r.cell slot] }).setCall x
            (some { k with phase := .bridging l g r slot (inMs s.config.bridgeTime s) }) ∧
        (v.openTxn = none → w = u) ∧ (∀ m, v.openTxn = some m → OpenResolved m .queueFull u w) ∧ EventEnd s w t) ∧
    (∀ r d, k.phase = .rescuing (some (r, n)) d → s.hrq.total = 0 → Runs (.legAck c txn ch 0 arg) s fun t =>
      t.call x = some (committedCall s k r.cell slot) ∧
      t.device = { s.device with
        committed := s.device.committed.bump r.kind, rescuesSucceeded := s.device.rescuesSucceeded.bump })

/-- A LEG_ACK that is not delivered (R142 to R145): a stray answer, a sync error, and a match with a cancelled entry, which
is freed. A READY is closed unless its cell holds the channel; a FAIL does nothing more. Under the policy DISCARD a sync
error leaves its entry; under FAIL (R144) the entry is freed, and one that is not cancelled resolves as FAIL with cause
SYNC: an OPENING context is IDLE with LEG_FAILED, a PREPARING one falls back, and a rescue attempt passes on (R133), the
last two while no handover request waits. That the attempt passed on to has the kind RESCUE is DEDUCED (log 17). That under
FAIL the READY is judged on the contexts before the entry resolves, so that they decide whether it is closed, is the model's
choice (DEDUCED, log 21). -/
def Obligations.LegAckUnwanted : Prop :=
  ∀ (c : CellIx) (txn : BitVec 16) (n : Txn) (x : Channel) (ch arg : Byte) (s : State), Heard c s →
    txn.toNat = n.toNat → ch.toNat = x.val →
    (s.answerOf n = none →
      (arg.toNat < 12 → Runs (.legAck c txn ch 0 arg) s
        (EventEnd s (closeUnwanted c x s { counted c s with
          device := { s.device with strayAnswers := s.device.strayAnswers.bump } }))) ∧
      (1 ≤ arg.toNat → arg.toNat ≤ 3 → Runs (.legAck c txn ch 1 arg) s
        (EventEnd s { counted c s with device := { s.device with strayAnswers := s.device.strayAnswers.bump } }))) ∧
    ∀ a, s.answerOf n = some a →
      (a.cell ≠ c ∨ a.channel ≠ x → s.config.sync = .discard →
        (arg.toNat < 12 → Runs (.legAck c txn ch 0 arg) s
          (EventEnd s (closeUnwanted c x s { counted c s with
            device := { s.device with syncErrors := s.device.syncErrors.bump } }))) ∧
        (1 ≤ arg.toNat → arg.toNat ≤ 3 → Runs (.legAck c txn ch 1 arg) s
          (EventEnd s { counted c s with device := { s.device with syncErrors := s.device.syncErrors.bump } }))) ∧
      (∀ u v, a.cell ≠ c ∨ a.channel ≠ x → s.config.sync = .fail →
        v = { counted c s with device := { s.device with syncErrors := s.device.syncErrors.bump } } →
        ∀ o : Byte,
          (o = 0 ∧ arg.toNat < 12 ∧ u = closeUnwanted c x s v) ∨ (o = 1 ∧ 1 ≤ arg.toNat ∧ arg.toNat ≤ 3 ∧ u = v) →
        (a.cancelled = true → Runs (.legAck c txn ch o arg) s (EventEnd s (freeAnswer a u))) ∧
        (a.cancelled = false → s.Inv → ∀ k, s.call a.channel = some k →
          (∀ d, k.phase = .opening d n → Runs (.legAck c txn ch o arg) s fun t => t.call a.channel = none ∧
            HandsetReleased k.handset s t ∧ EventEnd s (failedOpen a.channel k d .sync (freeAnswer a u)) t) ∧
          (∀ l g r, k.phase = .preparing l g r n → s.hrq.total = 0 → Runs (.legAck c txn ch o arg) s fun t =>
            t.call a.channel = some (fallenCall s k l r.cell) ∧ t.answers = s.answers.filter (fun b => b.txn ≠ n) ∧
            (t.cell r.cell).occupancy = (s.cell r.cell).occupancy - 1 ∧
            t.device = { s.device with
              syncErrors := s.device.syncErrors.bump, fallbacks := s.device.fallbacks.bump }) ∧
          (∀ r d, k.phase = .rescuing (some (r, n)) d → s.hrq.total = 0 → Runs (.legAck c txn ch o arg) s fun t =>
            AttemptPassed a.channel k r.cell n d s t ∧ t.device.syncErrors = s.device.syncErrors.bump ∧
            { a with cancelled := true } ∉ t.answers))) ∧
      (a.cell = c → a.channel = x → a.cancelled = true →
        (arg.toNat < 12 → Runs (.legAck c txn ch 0 arg) s
          (EventEnd s (closeUnwanted c x s (freeAnswer a (counted c s))))) ∧
        (1 ≤ arg.toNat → arg.toNat ≤ 3 → Runs (.legAck c txn ch 1 arg) s (EventEnd s (freeAnswer a (counted c s)))))

/-- LEG_LOST (R93, R94, R127). From a cell that holds no leg or initial open of the call nothing happens. An initial open
ends; an ACTIVE call without a candidate is dropped RADIO_LOST; in PREPARING the open becomes the rescue attempt. In
BRIDGING, while no handover request waits, loss of the serving leg commits at once and loss of the target leg falls back,
neither with a close. An ACTIVE call with a candidate is RESCUING and its RESCUE is posted: with 16 contexts in execution it
waits; with fewer, and an empty queue, it is taken in the same event, and toward a target that takes it the attempt is
pending. -/
def Obligations.LegLostJudged : Prop :=
  ∀ (c : CellIx) (x : Channel) (ch cause : Byte) (s : State), s.Inv → Heard c s → ch.toNat = x.val →
    ((∀ k, s.call x = some k → (∀ l, k.phase.serving = some l → l.cell ≠ c) ∧
        (∀ d n, k.phase = .opening d n → d ≠ c) ∧ ∀ l g r sl d, k.phase = .bridging l g r sl d → r.cell ≠ c) →
      exec (.legLost c ch cause) s = .next (counted c s)) ∧
    ∀ k, s.call x = some k →
      (∀ n, k.phase = .opening c n → Runs (.legLost c ch cause) s fun t =>
        t.call x = none ∧ HandsetReleased k.handset s t ∧
        EventEnd s (failedOpen x { k with lossCause := some cause } c .legLost
          (cancelTxn n (recordLoss x cause (counted c s)))) t) ∧
      (∀ l g, k.phase = .active l g → l.cell = c → k.candidates = [] → s.hrq.total = 0 →
        Runs (.legLost c ch cause) s fun t =>
          t.call x = none ∧ (t.cell c).occupancy = (s.cell c).occupancy - 1 ∧
          t.device.legsLost = s.device.legsLost.bump ∧ t.device.drops = s.device.drops.bump .radioLost ∧
          HandsetReleased k.handset s t) ∧
      (∀ l g r n, k.phase = .preparing l g r n → l.cell = c → Runs (.legLost c ch cause) s
        (EventEnd s ((releaseSlot c (recordLoss x cause (counted c s))).setCall x (some { k with
          lossCause := some cause
          phase := .rescuing (some ({ r with role := .rescue }, n)) (inMs s.config.rescueLimit s) })))) ∧
      (∀ l g b, k.phase = .active l g → l.cell = c → bestCandidate k.candidates = some b → 16 ≤ s.inExecution →
        Runs (.legLost c ch cause) s
          (EventEnd s (hrqPost ⟨x, b.cell, .rescue, s.now⟩ ((releaseSlot c (recordLoss x cause (counted c s))).setCall x
            (some { k with lossCause := some cause, phase := .rescuing none (inMs s.config.rescueLimit s) }))))) ∧
      (∀ l g r slot d, k.phase = .bridging l g r slot d → l.cell = c → s.hrq.total = 0 →
        Runs (.legLost c ch cause) s fun t =>
          t.call x = some { committedCall s k r.cell slot with lossCause := some cause } ∧
          (t.cell c).occupancy = (s.cell c).occupancy - 1 ∧
          (∀ y, (c, y) ∈ (t.port (portOf c)).closes → (c, y) ∈ (s.port (portOf c)).closes) ∧
          t.device = { s.device with
            legsLost := s.device.legsLost.bump, committed := s.device.committed.bump r.kind }) ∧
      (∀ l g r slot d, k.phase = .bridging l g r slot d → l.cell ≠ c → r.cell = c → s.hrq.total = 0 →
        Runs (.legLost c ch cause) s fun t =>
          t.call x = some { fallenCall s k l c with lossCause := some cause } ∧
          (t.cell c).occupancy = (s.cell c).occupancy - 1 ∧
          (∀ y, (c, y) ∈ (t.port (portOf c)).closes → (c, y) ∈ (s.port (portOf c)).closes) ∧
          t.device = { s.device with
            legsLost := s.device.legsLost.bump, fallbacks := s.device.fallbacks.bump }) ∧
      (∀ l g b e a, k.phase = .active l g → l.cell = c → bestCandidate k.candidates = some b →
        (s.cell c).service = .inService → s.hrq.total = 0 → s.inExecution < 16 →
        (∀ y j, s.call y = some j → j.waitsForRoom = false) → (s.record k.handset).enrolled = some e →
        e.loc.attachment = some a → TargetTakes s e a b.cell → Runs (.legLost c ch cause) s fun t =>
          t.call x = some { k with
            lossCause := some cause, posted := false
            phase := .rescuing (some (⟨b.cell, .rescue, .rescue⟩, s.nextTxn)) (inMs s.config.rescueLimit s) } ∧
          t.hrq = ⟨[], []⟩ ∧ TargetOpened x b.cell e.hid .rescue s t ∧ (t.cell c).occupancy = (s.cell c).occupancy - 1 ∧
          t.device = { s.device with legsLost := s.device.legsLost.bump })

/-! ### Evaluation and handover (chapters 6 and 7) -/

/-- The filter (R98): F + trunc((16 × q − F) / 2^k), which lies between F and 16 × q; under a steady quality it comes within
2^k − 1 of 16 × q, from the side it started on. -/
def Obligations.QualityFiltered : Prop :=
  ∀ k f q : Nat, k ≤ 4 → f ≤ 1008 → q ≤ 63 →
    ((filterQuality k f q : Nat) : Int) = (f : Int) + Int.tdiv (16 * (q : Int) - (f : Int)) (2 ^ k) ∧
    min f (16 * q) ≤ filterQuality k f q ∧ filterQuality k f q ≤ max f (16 * q) ∧ filterQuality k f q ≤ 1008 ∧
    (k = 0 → filterQuality k f q = 16 * q) ∧
    (f < 16 * q + 2 ^ k → 16 * q < f + 2 ^ k → filterQuality k f q = f) ∧
    ∃ n, ∀ m, n ≤ m → ∀ g, g = (fun v => filterQuality k v q)^[m] f →
      g < 16 * q + 2 ^ k ∧ 16 * q < g + 2 ^ k ∧ (f ≤ 16 * q → g ≤ 16 * q) ∧ (16 * q ≤ f → 16 * q ≤ g)

/-- MEAS_REP (R8, R96, R97, R106). Untimely unless the context is ACTIVE at the cell with the HID of its handset: counted,
and nothing else. A taken report evaluates the first six pairs; it posts nothing while a request is posted or where no test
yields one, and otherwise posts. With 16 contexts in execution the request waits. With fewer, and an empty queue, what
follows the posting is the take of that request (R117), and a target that takes it is opened in the same event (R120, R123):
the context is PREPARING on its serving leg with the target of the request's kind, and no request waits. That the fills are
reported between the posting and the take is the model's choice (log 36). -/
def Obligations.MeasRepJudged : Prop :=
  ∀ (c : CellIx) (hid : Hid) (x : Channel) (ch qs : Byte) (q : Quality) (pairs : List (Byte × Byte))
    (ps : List (CellIx × Quality)) (s : State), s.Inv → Heard c s → ch.toNat = x.val → qs.toNat = q.val →
    pairs.length ≤ 249 → (pairs.take 6).map (fun p => (p.1.toNat, p.2.toNat)) = ps.map (fun p => (p.1.val, p.2.val)) →
    ((∀ k l g, s.call x = some k → k.phase = .active l g → l.cell = c →
        (s.record k.handset).enrolled.map (·.hid) ≠ some hid) →
      Runs (.measRep c hid ch qs pairs) s (EventEnd s { counted c s with
        device := { s.device with untimelyReports := s.device.untimelyReports.bump } })) ∧
    ∀ k l g k', s.call x = some k → k.phase = .active l g → l.cell = c →
      (s.record k.handset).enrolled.map (·.hid) = some hid → k' = evaluate s c q ps k →
      (k.posted = true ∨ postingTest s (s.cell c) k' = none → Runs (.measRep c hid ch qs pairs) s
        (EventEnd s ((counted c s).setCall x (some k')))) ∧
      (∀ r kind, k.posted = false → postingTest s (s.cell c) k' = some (r, kind) → 16 ≤ s.inExecution →
        Runs (.measRep c hid ch qs pairs) s
          (EventEnd s (hrqPost ⟨x, r, kind, s.now⟩ ((counted c s).setCall x (some k'))))) ∧
      ∀ r kind e a role, k.posted = false → postingTest s (s.cell c) k' = some (r, kind) → s.hrq.total = 0 →
        s.inExecution < 16 → (∀ y j, s.call y = some j → j.waitsForRoom = false) →
        (s.record k.handset).enrolled = some e → e.loc.attachment = some a →
        role = (if kind = .rescue then .rescue else .handover) → Runs (.measRep c hid ch qs pairs) s fun t =>
          (∃ u, EventEnd s (hrqPost ⟨x, r, kind, s.now⟩ ((counted c s).setCall x (some k'))) u ∧
            exec .hrqTake u = .next t) ∧
          (TargetTakes s e a r →
            t.call x = some { k' with posted := false, phase := .preparing l g ⟨r, role, kind⟩ s.nextTxn } ∧
            t.hrq = ⟨[], []⟩ ∧ TargetOpened x r e.hid role s t ∧ t.device = s.device)

/-- A taken report keeps the candidate list in its limits (R98 to R105): at most 4 entries, none twice, never the serving
cell, every entry a neighbour, F, dwell and miss in range. An entry's dwell is above 0 exactly where it qualifies, and grows
by at most 1. Nothing but Fs and the list changes. The pairs are taken one at a time (R101, R102): a held entry takes the
filtered F with miss 0, a new neighbour enters with F = 16 × q, in a full list in place of the earliest entry of lowest F
where its own is greater. Then each entry not named has miss + 1 and goes at 3, and one that is no neighbour goes (R103). -/
def Obligations.CandidatesKept : Prop :=
  ∀ (s : State) (c : CellIx) (q : Quality) (ps : List (CellIx × Quality)) (k : Call), (s.cell c).shift ≤ 4 →
    CandidatesOk (some c) k.candidates →
    CandidatesOk (some c) (evaluate s c q ps k).candidates ∧
    (evaluate s c q ps k).fs = filterQuality (s.cell c).shift k.fs q.val ∧
    (∀ d ∈ (evaluate s c q ps k).candidates, (∃ m, marginOf d.cell (s.cell c).neighbours = some m ∧
      (0 < d.dwell ↔ (evaluate s c q ps k).fs + 16 * (m + (if (s.cell c).congested = true ∧
          (s.cell d.cell).congested = false then 0 else ((s.cell c).hysteresis : Int))) ≤ d.f ∧
        (s.cell d.cell).present = true ∧ (s.cell d.cell).service = .inService ∧ (s.cell d.cell).congested = false)) ∧
      ∀ d0 ∈ k.candidates, d0.cell = d.cell → d.dwell ≤ d0.dwell + 1) ∧
    evaluate s c q ps k =
      { k with fs := (evaluate s c q ps k).fs, candidates := (evaluate s c q ps k).candidates } ∧
    ∃ u : Nat → List Candidate, u 0 = k.candidates ∧
      (∀ j p, ps[j]? = some p → PairTaken c (s.cell c) ((ps.take j).map (·.1)) p (u j) (u (j + 1))) ∧
      ((evaluate s c q ps k).candidates.map fun d => (d.cell, d.f, d.miss)) =
        (((u ps.length).filter fun d => decide ((d.cell ∈ ps.map (·.1) ∨ d.miss < 2) ∧
          d.cell ∈ (s.cell c).neighbours.map (·.cell))).map fun d =>
            (d.cell, d.f, if d.cell ∈ ps.map (·.1) then d.miss else d.miss + 1)) ∧
      ∀ d ∈ (evaluate s c q ps k).candidates, ∀ b ∈ u ps.length, b.cell = d.cell →
        d.dwell = 0 ∨ d.dwell = min 7 (b.dwell + 1)

/-- The posting tests (R106 to R108, R110), in this order. Rescue: Fs below 16 × floor, toward the live entry of highest F
above Fs, the earliest on a tie. Drain: from a DRAINING cell, toward the live entry of highest F. Quality: guard passed and
hold inactive, toward the entry of greatest excess among those whose dwell has reached D, as RELIEF from a congested cell.
It is reached too from a DRAINING cell where no candidate is live. An empty list yields no request. -/
def Obligations.PostingTestsInOrder : Prop :=
  (∀ (s : State) (r : CellRec) (k : Call), k.candidates = [] → postingTest s r k = none) ∧
  ∀ (s : State) (r : CellRec) (k : Call) (before after : List Candidate) (d : Candidate),
    k.candidates = before ++ d :: after →
    (k.fs < 16 * r.floor → k.fs < d.f → (s.cell d.cell).live = true →
      (∀ b ∈ before, k.fs < b.f → (s.cell b.cell).live = true → b.f < d.f) →
      (∀ b ∈ after, k.fs < b.f → (s.cell b.cell).live = true → b.f ≤ d.f) →
      postingTest s r k = some (d.cell, .rescue)) ∧
    ((16 * r.floor ≤ k.fs ∨ ∀ b ∈ k.candidates, (s.cell b.cell).live = true → b.f ≤ k.fs) →
      (∀ f t, r.service = .draining f t → (s.cell d.cell).live = true →
        (∀ b ∈ before, (s.cell b.cell).live = true → b.f < d.f) →
        (∀ b ∈ after, (s.cell b.cell).live = true → b.f ≤ d.f) →
        postingTest s r k = some (d.cell, .drain)) ∧
      ((∀ f t, r.service ≠ .draining f t) ∨ (∀ b ∈ k.candidates, (s.cell b.cell).live = false) →
        (s.hold.active = true ∨ (∃ g, k.phase.guardDeadline = some g ∧ ¬ due g s) ∨
            (∀ b ∈ k.candidates, b.dwell < r.dwell) → postingTest s r k = none) ∧
        (s.hold.active = false → (∀ g, k.phase.guardDeadline = some g → due g s) → r.dwell ≤ d.dwell →
          (∀ b ∈ before, r.dwell ≤ b.dwell → excess s r k.fs b < excess s r k.fs d) →
          (∀ b ∈ after, r.dwell ≤ b.dwell → excess s r k.fs b ≤ excess s r k.fs d) →
          postingTest s r k = some (d.cell, if r.congested = true then .relief else .quality))))

/-- A posting (R113, R114) and WAITING_FOR_ROOM_POST (R116; log 1). A waiting request of the channel is replaced, by a normal
posting too, which R114 marks with a dash (the model's choice, log 27); a full queue loses its newest normal request to an
urgent one; else a full queue stores nothing. A free place goes to the waiting context of lowest channel, stated with 16
contexts in execution, where no take follows. -/
def Obligations.RequestsPosted : Prop :=
  (∀ (r : Request) (s : State), s.Inv →
    (∀ o, s.hrq.requestOf r.channel = some o → (hrqPost r s).hrq = (s.hrq.without r.channel).append r) ∧
    (s.hrq.requestOf r.channel = none →
      (s.hrq.total < 32 → (hrqPost r s).hrq = s.hrq.append r) ∧
      (32 ≤ s.hrq.total → r.kind.urgent = true → ∀ ns d, s.hrq.normal = ns ++ [d] →
        (hrqPost r s).hrq = ⟨s.hrq.urgent ++ [r], ns⟩ ∧
        ∀ k, s.call d.channel = some k → (hrqPost r s).call d.channel = some { k with posted := false }) ∧
      (32 ≤ s.hrq.total → r.kind.urgent = false ∨ s.hrq.normal = [] → hrqPost r s = s)) ∧
    (∀ k, s.call r.channel = some k → r ∈ (hrqPost r s).hrq.urgent ++ (hrqPost r s).hrq.normal →
      r ∉ s.hrq.urgent ++ s.hrq.normal → (hrqPost r s).call r.channel = some { k with posted := true })) ∧
  ∀ s : State, s.Inv →
    (32 ≤ s.hrq.total ∨ (∀ x k, s.call x = some k → k.waitsForRoom = false) → exec .waitingForRoomPost s = .next s) ∧
    (s.hrq.total < 32 → 16 ≤ s.inExecution → ∀ x k b, s.call x = some k → k.waitsForRoom = true →
      (∀ y j, y < x → s.call y = some j → j.waitsForRoom = false) → bestCandidate k.candidates = some b →
      Runs .waitingForRoomPost s (EventEnd s (hrqPost ⟨x, b.cell, .rescue, s.now⟩ s)))

/-- The request queue and the contexts (R94, R106, R113, R115, R116, R132): from a state that keeps the invariant, every step
keeps that each class holds its kinds; that each request belongs to a context that is ACTIVE, or RESCUING without a target,
whose request is a RESCUE; that the request-posted flag is set exactly where a request of the channel waits; that a RESCUING
context without a target has a candidate left; that with fewer than 32 requests no context waits for room; and that the
serving cell of a context is never its target, nor that of its request (R100, R101). -/
def Obligations.StepKeepsRequests : Prop := ∀ s t : State, s.Inv → s.RequestsOk → step s = .next t → t.RequestsOk

/-- HRQ_TAKE of a QUALITY, RELIEF or DRAIN request (R117 to R121, R123; log 1). With no request, or 16 contexts in
execution, nothing happens. Else the oldest urgent request is taken, or the oldest normal one. Stated for the one request
that waits, of an ACTIVE context: admitted, the context is PREPARING with a reserve, a transaction and its LEG-OPEN. Refused
by the hold, the access check, congestion, capacity or for want of a transaction, its guard deadline is set, the target's
dwell is 0 and the refusal is counted under its code; refused by the queue, a fallback is counted instead (log 16). The
LEG-OPEN carries the cell, transaction, channel, HID and role HANDOVER, of priority 2; role RESCUE has priority 3. -/
def Obligations.RequestTaken : Prop :=
  (∀ (c : CellIx) (n : Txn) (x : Channel) (h : Hid), (CtlFrame.legOpen c n x h .handover).priority = 2 ∧
    (CtlFrame.legOpen c n x h .rescue).priority = 3) ∧
  (∀ s : State, s.hrq.total = 0 ∨ 16 ≤ s.inExecution → exec .hrqTake s = .next s) ∧
  (∀ (q : Hrq) (r : Request) (rest : Hrq), q.next = some (r, rest) ↔
    (q.urgent = r :: rest.urgent ∧ q.normal = rest.normal) ∨
      (q.urgent = [] ∧ rest.urgent = [] ∧ q.normal = r :: rest.normal)) ∧
  ∀ (s : State) (r : Request) (k : Call) (l : Leg) (g : Option Time) (e : Enrolled) (a : Attachment), s.Inv →
    s.hrq.urgent ++ s.hrq.normal = [r] → s.inExecution < 16 → (∀ y j, s.call y = some j → j.waitsForRoom = false) →
    s.call r.channel = some k → k.phase = .active l g → k.posted = true → r.kind ≠ .rescue →
    (s.record k.handset).enrolled = some e → e.loc.attachment = some a →
    ((s.hold.active = true → r.kind = .drain) → ((s.cell r.target).congested = true → r.kind = .drain) →
      TargetTakes s e a r.target → Runs .hrqTake s fun t =>
        t.call r.channel = some { k with
          posted := false, phase := .preparing l g ⟨r.target, .handover, r.kind⟩ s.nextTxn } ∧
        t.hrq = ⟨[], []⟩ ∧ TargetOpened r.channel r.target e.hid .handover s t ∧ t.device = s.device) ∧
    (∀ code, (code = .hold ∧ s.hold.active = true ∧ r.kind ≠ .drain) ∨
        ((s.hold.active = true → r.kind = .drain) ∧
          ((code = .cellFull ∧ (s.cell r.target).congested = true ∧ r.kind ≠ .drain ∧
              checkStored s e a r.target .handover = none) ∨
            (TargetRefuses s e a r.target code ∧ ((s.cell r.target).congested = true → r.kind ≠ .drain →
              checkStored s e a r.target .handover ≠ none)))) →
      Runs .hrqTake s fun t =>
        t.call r.channel = some { fallenCall s k l r.target with posted := false } ∧ t.hrq = ⟨[], []⟩ ∧
        NothingOpened s t ∧ t.device = { s.device with refusals := s.device.refusals.bump code }) ∧
    ((s.hold.active = true → r.kind = .drain) → ((s.cell r.target).congested = true → r.kind = .drain) →
      checkStored s e a r.target .handover = none → (s.cell r.target).occupancy < (s.cell r.target).capacity →
      s.answers.length < 64 → QueueRefuses 2 r.target s → Runs .hrqTake s fun t =>
        t.call r.channel = some { fallenCall s k l r.target with posted := false } ∧ t.hrq = ⟨[], []⟩ ∧
        NothingOpened s t ∧ t.device = { s.device with fallbacks := s.device.fallbacks.bump })

/-- HRQ_TAKE of a RESCUE request (R117, R118, R120, R122, R123, R132), stated for the one request that waits. An ACTIVE
context: a target that takes it leads to PREPARING with role RESCUE, its LEG-OPEN of that role queued or sent; a refused one
passes to the best candidate left; with none left the context stays ACTIVE under R121. A RESCUING context: a target that
takes it is the attempt; a refused one leaves the candidate list, and the best one left is tried; with none left the call is
dropped RESCUE_FAILED and its handset released (R32). Each refusal is counted under its code, by the queue under QUEUE_FULL.
-/
def Obligations.RescueRequestTaken : Prop :=
  ∀ (s : State) (r : Request) (k : Call) (e : Enrolled) (a : Attachment), s.Inv →
    s.hrq.urgent ++ s.hrq.normal = [r] → s.inExecution < 16 → (∀ y j, s.call y = some j → j.waitsForRoom = false) →
    s.call r.channel = some k → k.posted = true → r.kind = .rescue → (s.record k.handset).enrolled = some e →
    e.loc.attachment = some a →
    (∀ l g, k.phase = .active l g →
      (TargetTakes s e a r.target → Runs .hrqTake s fun t =>
        t.call r.channel = some { k with
          posted := false, phase := .preparing l g ⟨r.target, .rescue, .rescue⟩ s.nextTxn } ∧
        t.hrq = ⟨[], []⟩ ∧ TargetOpened r.channel r.target e.hid .rescue s t ∧ t.device = s.device) ∧
      ∀ code, RescueRefused s e a r.target code →
        (∀ b, bestCandidate (without r.target k.candidates) = some b → TargetTakes s e a b.cell →
          Runs .hrqTake s fun t =>
            t.call r.channel = some { k with
              posted := false, phase := .preparing l g ⟨b.cell, .rescue, .rescue⟩ s.nextTxn } ∧
            t.hrq = ⟨[], []⟩ ∧ TargetOpened r.channel b.cell e.hid .rescue s t ∧
            t.device = { s.device with refusals := s.device.refusals.bump code }) ∧
        (without r.target k.candidates = [] → Runs .hrqTake s fun t =>
          t.call r.channel = some { fallenCall s k l r.target with posted := false } ∧ t.hrq = ⟨[], []⟩ ∧
          NothingOpened s t ∧ t.device = { s.device with refusals := s.device.refusals.bump code })) ∧
    ∀ d, k.phase = .rescuing none d →
      (TargetTakes s e a r.target → Runs .hrqTake s fun t =>
        t.call r.channel = some { k with
          posted := false, phase := .rescuing (some (⟨r.target, .rescue, .rescue⟩, s.nextTxn)) d } ∧
        t.hrq = ⟨[], []⟩ ∧ TargetOpened r.channel r.target e.hid .rescue s t ∧ t.device = s.device) ∧
      ∀ code, RescueRefused s e a r.target code →
        (∀ b, bestCandidate (without r.target k.candidates) = some b → TargetTakes s e a b.cell →
          Runs .hrqTake s fun t =>
            t.call r.channel = some { k with
              posted := false, candidates := without r.target k.candidates
              phase := .rescuing (some (⟨b.cell, .rescue, .rescue⟩, s.nextTxn)) d } ∧
            t.hrq = ⟨[], []⟩ ∧ TargetOpened r.channel b.cell e.hid .rescue s t ∧
            t.device = { s.device with refusals := s.device.refusals.bump code }) ∧
        (without r.target k.candidates = [] → Runs .hrqTake s fun t =>
          t.call r.channel = none ∧ t.hrq = ⟨[], []⟩ ∧ NothingOpened s t ∧
          t.device.refusals = s.device.refusals.bump code ∧ t.device.drops = s.device.drops.bump .rescueFailed ∧
          HandsetReleased k.handset s t)

/-- DRAIN_ and RESTART_DEADLINE_EXPIRY of a cell, and GUARD_, BRIDGE_ and RESCUE_DEADLINE_EXPIRY of a context (R16, R68,
R69, R74, R124, R128, R134), once passed: the cell enters its follow-on, and the contexts' events follow; a restart ends
IN_SERVICE, or OUT_OF_SERVICE with the port DOWN; the guard is removed; a BRIDGING context falls back with its target leg
closed and its HO-CMD withdrawn (R129), while no handover request waits; a RESCUING call is dropped RESCUE_TIMEOUT, its
handset released in the re-check form (R32). Where no take and no posting follows, the drop is stated whole: its own
request is removed, the drop counted and told to the call server, and a pending attempt cancelled with its reserve
released. In every other case nothing changes (log 3). -/
def Obligations.DeadlinesPass : Prop :=
  (∀ (c : CellIx) (s : State),
    ((∀ f d, (s.cell c).service = .draining f d → ¬ due d s) → exec (.drainDeadlineExpiry c) s = .next s) ∧
    (∀ f d, (s.cell c).service = .draining f d → due d s → Runs (.drainDeadlineExpiry c) s fun t =>
      (t.cell c).service = (match f with
        | .outOfService => .outOfService
        | .restarting => .restarting (inMs (s.config.restartTime * 1000) s)) ∧
      ∃ u, SettingKept u t ∧ EventEnd s (enterFollowOn c f s) u) ∧
    ((∀ d, (s.cell c).service = .restarting d → ¬ due d s) → exec (.restartDeadlineExpiry c) s = .next s) ∧
    (∀ d, (s.cell c).service = .restarting d → due d s → exec (.restartDeadlineExpiry c) s =
      .next (s.setCell c { s.cell c with
        service := if (s.port (portOf c)).link = .up then .inService else .outOfService }))) ∧
  ∀ (x : Channel) (s : State),
    ((∀ k d, s.call x = some k → k.phase.guardDeadline = some d → ¬ due d s) →
      exec (.guardDeadlineExpiry x) s = .next s) ∧
    (∀ k d, s.Inv → s.call x = some k → k.phase.guardDeadline = some d → due d s →
      Runs (.guardDeadlineExpiry x) s fun t => t = { s with calls := t.calls } ∧ (∀ y, y ≠ x → t.call y = s.call y) ∧
        ∃ j, t.call x = some { k with phase := j } ∧ j.guardDeadline = none ∧ j.serving = k.phase.serving ∧
          j.target = k.phase.target) ∧
    ((∀ k l g r sl d, s.call x = some k → k.phase = .bridging l g r sl d → ¬ due d s) →
      exec (.bridgeDeadlineExpiry x) s = .next s) ∧
    (∀ k l g r sl d, s.call x = some k → k.phase = .bridging l g r sl d → due d s → s.hrq.total = 0 →
      Runs (.bridgeDeadlineExpiry x) s fun t =>
        t.call x = some (fallenCall s k l r.cell) ∧ (t.cell r.cell).occupancy = (s.cell r.cell).occupancy - 1 ∧
        t.device = { s.device with fallbacks := s.device.fallbacks.bump } ∧
        (∀ p, ∀ o ∈ (t.port p).ctl, o.hoChannel ≠ some x) ∧
        ((s.port (portOf r.cell)).link = .up → (s.port (portOf r.cell)).closes.length < 256 → Closing r.cell x t)) ∧
    ((∀ k a d, s.call x = some k → k.phase = .rescuing a d → ¬ due d s) →
      exec (.rescueDeadlineExpiry x) s = .next s) ∧
    (∀ k a d, s.call x = some k → k.phase = .rescuing a d → due d s →
      (Runs (.rescueDeadlineExpiry x) s fun t => t.call x = none) ∧
      (s.hrq.total = 0 ∨ ((∀ y j, y ≠ x → s.call y = some j → j.waitsForRoom = false) ∧
          ((s.hrq.without x).total = 0 ∨ (a = none ∧ 16 ≤ s.inExecution))) →
        Runs (.rescueDeadlineExpiry x) s fun t => ∃ u, u = dropCall x .rescueTimeout false s ∧
          CallDropped x k .rescueTimeout s u ∧
          (∀ r n, a = some (r, n) → OpenCancelled n s u ∧ SlotsReleased [r.cell] s u) ∧
          EventEnd s u t ∧ HandsetReleased k.handset s t))

/-! ### Transactions and queues (chapter 8) -/

/-- PENDING_DEADLINE_EXPIRY (R16, R146) and a LEG_ACK FAIL of each cause (R145), and what a FAIL does (R80, R126, R133): the
entry is freed; cancelled, nothing is delivered; an OPENING context is IDLE with its answer queued, LEG_TIMEOUT or
LEG_FAILED with the cause; while no handover request waits, a PREPARING context falls back, and a rescue attempt passes to
the next candidate, with the kind RESCUE whatever its own (DEDUCED, log 17), or ends the call, with no fallback counted. An
ending releases its handset in the re-check form (R32). No entry, or a deadline not passed: nothing (log 3). A LEG-OPEN that
an offer evicts has its entry freed and resolves as FAIL with cause QUEUE_FULL in the same event (R150). -/
def Obligations.PendingOpenFails : Prop :=
  (∀ (n : Txn) (s : State), (∀ a, s.answerOf n = some a → ¬ due a.deadline s) →
    exec (.pendingDeadlineExpiry n) s = .next s) ∧
  (∀ (n : Txn) (s : State) (a : Answer), s.answerOf n = some a → due a.deadline s → a.cancelled = true →
    Runs (.pendingDeadlineExpiry n) s (EventEnd s (freeAnswer a s))) ∧
  (∀ (n : Txn) (s : State) (a : Answer) (k : Call), s.Inv → s.answerOf n = some a → a.cancelled = false →
    s.call a.channel = some k →
    ∀ (i : Instr) (u : State) (cause : FailCause),
      (i = .pendingDeadlineExpiry n ∧ due a.deadline s ∧ u = s ∧ cause = .timeout) ∨
        (∃ (txn : BitVec 16) (ch arg : Byte), Heard a.cell s ∧ txn.toNat = n.toNat ∧ ch.toNat = a.channel.val ∧
          i = .legAck a.cell txn ch 1 arg ∧ u = counted a.cell s ∧
          ((arg = 1 ∧ cause = .noSlot) ∨ (arg = 2 ∧ cause = .noHandset) ∨ (arg = 3 ∧ cause = .radioFault))) →
      (∀ d, k.phase = .opening d n → Runs i s fun t => t.call a.channel = none ∧
        EventEnd s (failedOpen a.channel k d cause (freeAnswer a u)) t ∧ HandsetReleased k.handset s t ∧
        (s.trunk.link = .up → s.trunk.replies.length < 256 → ∃ r,
          r = Reply.callAck a.channel (if cause = .timeout then .legTimeout else .legFailed cause) ∧
          (r ∈ t.trunk.replies ∨ t.trunk.tx = some (.reply r)))) ∧
      (∀ l g r, k.phase = .preparing l g r n → s.hrq.total = 0 → Runs i s fun t =>
        t.call a.channel = some (fallenCall s k l r.cell) ∧ t.answers = s.answers.filter (fun b => b.txn ≠ n) ∧
        (t.cell r.cell).occupancy = (s.cell r.cell).occupancy - 1 ∧
        t.device = { s.device with fallbacks := s.device.fallbacks.bump }) ∧
      (∀ r d, k.phase = .rescuing (some (r, n)) d → s.hrq.total = 0 → Runs i s fun t =>
        AttemptPassed a.channel k r.cell n d s t ∧ { a with cancelled := true } ∉ t.answers)) ∧
  ∀ (f : CtlFrame) (s t : State), s.Inv → t = settleVictim nextCandidate (some f) s →
    (f.openTxn = none → t = s) ∧ ∀ n, f.openTxn = some n → OpenResolved n .queueFull s t

/-- An offer to a control queue (R149): refused LINK_DOWN in DOWN; appended below 24 entries; in a full queue it evicts the
newest entry of the lowest priority present, where that is below its own, and is refused FULL otherwise. -/
def Obligations.OfferJudged : Prop :=
  ∀ (f : CtlFrame) (s : State),
    ((s.port (portOf f.dest)).link = .down → offer f s = (.refusedLinkDown, s)) ∧
    ((s.port (portOf f.dest)).link = .up →
      ((s.port (portOf f.dest)).ctl.length < 24 → offer f s = (.taken none,
        s.setPort (portOf f.dest) { s.port (portOf f.dest) with ctl := (s.port (portOf f.dest)).ctl ++ [f] })) ∧
      (24 ≤ (s.port (portOf f.dest)).ctl.length →
        ((∀ v ∈ (s.port (portOf f.dest)).ctl, f.priority ≤ v.priority) → offer f s = (.refusedFull, s)) ∧
        ∀ before v after, (s.port (portOf f.dest)).ctl = before ++ v :: after → v.priority < f.priority →
          (∀ w ∈ before, v.priority ≤ w.priority) → (∀ w ∈ after, v.priority < w.priority) →
          offer f s = (.taken (some v),
            s.setPort (portOf f.dest) { s.port (portOf f.dest) with ctl := before ++ after ++ [f] })))

/-- CELL_PORT_TRANSMIT_COMPLETE and the choice of a port (R10, R152, R153). In DOWN nothing. In UP: the oldest voice frame;
else the oldest entry of priority 3, after the close of its own leg; else the pair of lowest channel, then cell; else the
oldest entry of the highest priority; else none. Nothing else changes. -/
def Obligations.PortChoosesNext : Prop :=
  ∀ (p : PortIx) (s : State),
    ((s.port p).link = .down → exec (.cellPortTransmitComplete p) s = .next s) ∧
    ((s.port p).link = .up → Runs (.cellPortTransmitComplete p) s fun t =>
      t = { s with ports := t.ports } ∧ (∀ q, q ≠ p → t.port q = s.port q) ∧
      (∀ v vs, (s.port p).lane = v :: vs → t.port p = { s.port p with lane := vs, tx := some (.vox v.1 v.2) }) ∧
      ((s.port p).lane = [] →
        (∀ before f after, (s.port p).ctl = before ++ f :: after → f.priority = 3 → (∀ g ∈ before, g.priority ≠ 3) →
          ((∀ d n x h r, f = .legOpen d n x h r → (d, x) ∉ (s.port p).closes) →
            t.port p = { s.port p with ctl := before ++ after, tx := some (.control f) }) ∧
          (∀ d n x h r, f = .legOpen d n x h r → (d, x) ∈ (s.port p).closes →
            t.port p = { s.port p with
              closes := (s.port p).closes.filter (fun q => q ≠ (d, x)), tx := some (.legClose d x) })) ∧
        ((∀ g ∈ (s.port p).ctl, g.priority ≠ 3) →
          (∀ d x, (d, x) ∈ (s.port p).closes →
            (∀ q ∈ (s.port p).closes, x < q.2 ∨ (x = q.2 ∧ d ≤ q.1)) →
            t.port p = { s.port p with
              closes := (s.port p).closes.filter (fun q => q ≠ (d, x)), tx := some (.legClose d x) }) ∧
          ((s.port p).closes = [] →
            (∀ before f after, (s.port p).ctl = before ++ f :: after → (∀ g ∈ before, g.priority < f.priority) →
              (∀ g ∈ after, g.priority ≤ f.priority) →
              t.port p = { s.port p with ctl := before ++ after, tx := some (.control f) }) ∧
            ((s.port p).ctl = [] → t.port p = { s.port p with tx := none })))))

/-! ### Hold and pages (chapters 9 and 10) -/

/-- The hold's commands (R158 to R160): HOLD_SET and HOLD_CLEAR write MANAGEMENT's raw state, HOLD_ENABLE the four enables,
HOLD_STATUS clears the named sticky flags of sources that are off. Each answers OK with the status record, HOLD_STATUS with
the record before the clear. The fills are reported at the end of an event that changed them (R157): HRQ_HIGH turns on at 24
and off at 16, TXN_HIGH at 56 and 48, NOTICE_FULL at 64 and 56; between them a source stays, and turning on is remembered.
That the event which stores a request ends before the take that follows is the model's choice (log 36). -/
def Obligations.HoldCommandsAnswered : Prop :=
  (∀ (tag : Tag) (s : State) (h : Hold),
    (h = { s.hold with management := ⟨true, s.hold.management.enable,
        s.hold.management.sticky || !s.hold.management.raw⟩ } →
      Answers (.holdSet tag) tag (asksFor 0x20) s ⟨.ok, .hold ⟨h, h.active⟩⟩ { s with hold := h }) ∧
    (h = { s.hold with management := { s.hold.management with raw := false } } →
      Answers (.holdClear tag) tag (asksFor 0x21) s ⟨.ok, .hold ⟨h, h.active⟩⟩ { s with hold := h }) ∧
    (∀ e : SourceSet,
      h = ⟨{ s.hold.hrqHigh with enable := e.hrqHigh }, { s.hold.txnHigh with enable := e.txnHigh },
        { s.hold.noticeFull with enable := e.noticeFull }, { s.hold.management with enable := e.management }⟩ →
      Answers (.holdEnable tag e) tag (asksFor 0x22) s ⟨.ok, .hold ⟨h, h.active⟩⟩ { s with hold := h }) ∧
    ∀ n : SourceSet, ∃ u,
      Answers (.holdStatus tag n) tag (asksFor 0x23) s ⟨.ok, .hold ⟨s.hold, s.hold.active⟩⟩ { s with hold := u } ∧
      u.hrqHigh = { s.hold.hrqHigh with sticky := s.hold.hrqHigh.sticky && (s.hold.hrqHigh.raw || !n.hrqHigh) } ∧
      u.txnHigh = { s.hold.txnHigh with sticky := s.hold.txnHigh.sticky && (s.hold.txnHigh.raw || !n.txnHigh) } ∧
      u.noticeFull =
        { s.hold.noticeFull with sticky := s.hold.noticeFull.sticky && (s.hold.noticeFull.raw || !n.noticeFull) } ∧
      u.management =
        { s.hold.management with sticky := s.hold.management.sticky && (s.hold.management.raw || !n.management) }) ∧
  ∀ (b s : State) (before fill on off : Nat) (src new : Source),
    (before, fill, on, off, src, new) ∈
      [(b.hrq.total, s.hrq.total, 24, 16, s.hold.hrqHigh, (reportFills b s).hold.hrqHigh),
       (b.answers.length, s.answers.length, 56, 48, s.hold.txnHigh, (reportFills b s).hold.txnHigh),
       (b.notices.length, s.notices.length, 64, 56, s.hold.noticeFull, (reportFills b s).hold.noticeFull)] →
    (fill = before → new = src) ∧
    (fill ≠ before → new.enable = src.enable ∧ (on ≤ fill → new.raw = true) ∧ (fill ≤ off → new.raw = false) ∧
      (off < fill → fill < on → new.raw = src.raw) ∧
      (new.sticky = true ↔ src.sticky = true ∨ (src.raw = false ∧ new.raw = true)))

/-- PAGE_REQ (R165): NOT_ATTACHED or BUSY at once, a page under way takes the larger number of attempts, LIST_FULL, or a new
entry at the lowest free number, whose first occasion is made in the event (R166): a PAGE goes to each cell of its set that
is IN_SERVICE, that is the current cell of the handset and the neighbours of that cell (R164). -/
def Obligations.PageRequested : Prop :=
  ∀ (hid : Hid) (n : Byte) (s : State), s.trunk.link = .up → 1 ≤ n.toNat → n.toNat ≤ 8 →
    ((∀ i e, s.findHid hid = some i → (s.record i).enrolled = some e → e.loc = .absent) → Runs (.pageReq hid n) s
      fun t => ∃ u, OutcomeHanded hid .notAttached (countReceived trunkLink s) u ∧ EventEnd s u t) ∧
    ∀ i r, s.findHid hid = some i → (s.record i).enrolled = some r →
      (∀ a x, r.loc = .engaged a x → Runs (.pageReq hid n) s
        fun t => ∃ u, OutcomeHanded hid .busy (countReceived trunkLink s) u ∧ EventEnd s u t) ∧
      ∀ a d, r.loc = .attached a d →
        (∀ e p m w, s.page e = some p → p.hid = hid → p.status = .paging m w →
          (∀ f q, f ≠ e → s.page f = some q → q.hid = hid → q.paging = false) → Runs (.pageReq hid n) s
          (EventEnd s ((countReceived trunkLink s).setPage e (some { p with status := .paging (max m n.toNat) w })))) ∧
        ((∀ e p, s.page e = some p → p.hid = hid → p.paging = false) →
          ((∀ e, s.page e ≠ none) → Runs (.pageReq hid n) s
            fun t => ∃ u, OutcomeHanded hid .listFull (countReceived trunkLink s) u ∧ EventEnd s u t) ∧
          ∀ e p, s.page e = none → (∀ f, f < e → s.page f ≠ none) →
            p = { hid := hid, record := i, cells := a.cell :: (s.cell a.cell).neighbours.map (·.cell), repeatFlag := false,
                  status := .paging n.toNat s.now } → Runs (.pageReq hid n) s fun t =>
              ∃ u, OccasionMade e p n.toNat ((countReceived trunkLink s).setPage e (some p)) u ∧ EventEnd s u t ∧
                PagesSent hid p.cells s t)

/-- PAGE_RSP and PAGE_OCCASION (R166, R168, R171). A response with no page under way is a PRESENCE. With one, the location
update settles it: FOUND where the handset is ATTACHED at the cell or is admitted there from another, REFUSED with the
refusal where the access check turns it away, which also revokes the handset. An occasion that is due pages each cell of the
set that is IN_SERVICE: where its port is UP with room, a PAGE stands in the control queue of that port or is in
transmission there. It uses an attempt where a queue took a PAGE, else sets repeat; without attempts it settles NO_ANSWER.
One not due does nothing (log 3). -/
def Obligations.PageAnswered : Prop :=
  (∀ (c : CellIx) (hid : Hid) (q : Byte) (s : State), Heard c s →
    ((∀ e p, s.page e = some p → p.hid = hid → p.paging = false) →
      exec (.pageRsp c hid q) s = exec (.presence c hid q) s) ∧
    ∀ (qv : Quality) (i : RecIx) (r : Enrolled) (a : Attachment) (d : Time) (e : PageIx) (p : PageEntry),
      q.toNat = qv.val → s.findHid hid = some i → (s.record i).enrolled = some r → r.loc = .attached a d →
      s.page e = some p → p.hid = hid → p.paging = true →
      (∀ f v, f ≠ e → s.page f = some v → v.hid = hid → v.paging = false) →
      (a.cell = c → Runs (.pageRsp c hid q) s
        (EventEnd s (settlePage e (.found c) ((counted c s).setRecord i { s.record i with
          holder := .present { r with
            loc := .attached { a with quality := qv } (inMs (s.config.presencePeriod * 60000) s) } })))) ∧
      (a.cell ≠ c → checkStored s r a c .location = none → Runs (.pageRsp c hid q) s fun t =>
        (t.record i).enrolled =
          some { r with loc := .attached ⟨a.claimed, c, qv⟩ (inMs (s.config.presencePeriod * 60000) s) } ∧
        EventEnd s (settlePage e (.found c) (writeLocation i r
          (.attached ⟨a.claimed, c, qv⟩ (inMs (s.config.presencePeriod * 60000) s)) (counted c s))) t) ∧
      (∀ v, a.cell ≠ c → checkStored s r a c .location = some v → Runs (.pageRsp c hid q) s fun t =>
        (t.record i).enrolled = (if isVisitor i = true then none else some { r with loc := .absent }) ∧
        EventEnd s (settlePage e (.refused v) (sendAck c hid (.revoked v)
          (writeLocation i r .absent (counted c s)))) t)) ∧
  ∀ (e : PageIx) (s : State),
    ((∀ p m d, s.page e = some p → p.status = .paging m d → ¬ due d s) → exec (.pageOccasion e) s = .next s) ∧
    ∀ p m d, s.page e = some p → p.status = .paging m d → due d s →
      (m = 0 → s.notices.length < 64 → Runs (.pageOccasion e) s
        (EventEnd s { s.setPage e (some { p with status := .settled .noAnswer true }) with
          notices := s.notices ++ [.pageOutcome e] })) ∧
      (m = 0 → 64 ≤ s.notices.length → Runs (.pageOccasion e) s
        (EventEnd s (s.setPage e (some { p with status := .settled .noAnswer false })))) ∧
      (0 < m → Runs (.pageOccasion e) s fun t =>
        ∃ u, OccasionMade e p m s u ∧ EventEnd s u t ∧ PagesSent p.hid p.cells s t)

/-! ### Sweeps (chapter 11) -/

/-- The SWEEP commands (R173, R174, R178): a start with nothing under way runs from record 0, or is suspended by an active
hold; SUSPEND, RESUME and ABORT follow the table of states; each answers with the sweep status record, as does STATUS. The
rows of the hold (R159, R161), for the hold that HOLD_SET begins and HOLD_CLEAR ends: a hold that begins suspends a running
sweep by the hold, and one that ends sets a sweep suspended by the hold running; in the other states the sweep stays. -/
def Obligations.SweepCommandsAnswered : Prop :=
  ∀ (tag : Tag) (s : State),
    Answers (.sweepStatus tag) tag (asksFor 0x34) s ⟨.ok, sweepRecord s⟩ s ∧
    (∀ k g, s.sweep.state ≠ .idle → Answers (.sweepStart tag k g) tag (asksFor 0x30) s ⟨.sweepActive, sweepRecord s⟩ s) ∧
    (s.sweep.state = .idle →
      (∀ g, Answers (.sweepStart tag .other g) tag (asksFor 0x30) s ⟨.badValue, .field 1⟩ s) ∧
      (∀ g, 31 < g → Answers (.sweepStart tag .purgeGroup g) tag (asksFor 0x30) s ⟨.badValue, .field 2⟩ s) ∧
      (∀ k g kind u, (k = .revalidate ∧ kind = .revalidate) ∨ (k = .expireVisitors ∧ kind = .expireVisitors) ∨
          (∃ n : Group, k = .purgeGroup ∧ g = n.val ∧ kind = .purgeGroup n) →
        u = { s with sweep := ⟨if s.hold.active = true then .suspended true else .running, some kind, 0, 0,
          s.sweep.lastEnd⟩ } →
        Answers (.sweepStart tag k g) tag (asksFor 0x30) s ⟨.ok, sweepRecord u⟩ u) ∧
      Answers (.sweepSuspend tag) tag (asksFor 0x31) s ⟨.wrongState, sweepRecord s⟩ s ∧
      Answers (.sweepResume tag) tag (asksFor 0x32) s ⟨.wrongState, sweepRecord s⟩ s ∧
      Answers (.sweepAbort tag) tag (asksFor 0x33) s ⟨.wrongState, sweepRecord s⟩ s) ∧
    (s.sweep.state = .running →
      (∀ u, u = { s with sweep := { s.sweep with state := .suspended false } } →
        Answers (.sweepSuspend tag) tag (asksFor 0x31) s ⟨.ok, sweepRecord u⟩ u) ∧
      Answers (.sweepResume tag) tag (asksFor 0x32) s ⟨.wrongState, sweepRecord s⟩ s) ∧
    (∀ b, s.sweep.state = .suspended b →
      Answers (.sweepSuspend tag) tag (asksFor 0x31) s ⟨.wrongState, sweepRecord s⟩ s ∧
      (s.hold.active = true → Answers (.sweepResume tag) tag (asksFor 0x32) s ⟨.hold, sweepRecord s⟩ s) ∧
      (s.hold.active = false → ∀ u, u = { s with sweep := { s.sweep with state := .running } } →
        Answers (.sweepResume tag) tag (asksFor 0x32) s ⟨.ok, sweepRecord u⟩ u)) ∧
    (s.sweep.state ≠ .idle → ∀ u, u = { s with sweep := { s.sweep with state := .idle, lastEnd := .aborted } } →
      Answers (.sweepAbort tag) tag (asksFor 0x33) s ⟨.ok, sweepRecord u⟩ u) ∧
    (Executing tag (asksFor 0x20) s → s.hold.active = false → s.hold.management.enable = true →
      Runs (.holdSet tag) s fun t => t.hold.active = true ∧
        (s.sweep.state = .running → t.sweep = { s.sweep with state := .suspended true }) ∧
        (s.sweep.state ≠ .running → t.sweep = s.sweep)) ∧
    (Executing tag (asksFor 0x20) s → s.hold.active = true → Runs (.holdSet tag) s fun t => t.hold.active = true →
      t.sweep = s.sweep) ∧
    (s.Inv → Executing tag (asksFor 0x21) s → s.hold.active = true →
      (∀ src ∈ [s.hold.hrqHigh, s.hold.txnHigh, s.hold.noticeFull], src.enable = false ∨ src.raw = false) →
      Runs (.holdClear tag) s fun t => t.hold.active = false ∧
        (s.sweep.state = .suspended true → t.sweep = { s.sweep with state := .running }) ∧
        (s.sweep.state ≠ .suspended true → t.sweep = s.sweep))

/-- SWEEP_STEP (R34, R175, R176): nothing unless RUNNING. A step passes over a record that is not ATTACHED and one its kind
does not concern; it revokes or detaches the others, and counts them. The cursor advances, and the step at 1023 completes
the sweep. -/
def Obligations.SweepStepTaken : Prop :=
  ∀ s : State,
    (s.sweep.state ≠ .running → exec .sweepStep s = .next s) ∧
    ∀ (k : SweepKind) (i : RecIx) (w : Bool → Sweep), s.sweep.state = .running → s.sweep.kind = some k →
      s.sweep.cursor = i.val →
      (∀ b, w b = { s.sweep with
        cursor := i.val + 1
        changed := if b = true then s.sweep.changed + 1 else s.sweep.changed
        state := if i.val = 1023 then .idle else .running
        lastEnd := if i.val = 1023 then .completed else s.sweep.lastEnd }) →
      ((∀ e a d, (s.record i).enrolled = some e → e.loc = .attached a d →
          match k with
          | .revalidate => checkStored s e a a.cell .location = none
          | .expireVisitors => i.val < 896
          | .purgeGroup g => e.group ≠ g) →
        Runs .sweepStep s (EventEnd s { s with sweep := w false })) ∧
      ∀ e a d, (s.record i).enrolled = some e → e.loc = .attached a d →
        (∀ v, k = .revalidate → checkStored s e a a.cell .location = some v → Runs .sweepStep s fun t =>
          (t.record i).enrolled = (if isVisitor i = true then none else some { e with loc := .absent }) ∧
          EventEnd s { sendAck a.cell e.hid (.revoked v) (changeLocation i e .absent s) with sweep := w true } t) ∧
        ((k = .expireVisitors ∧ 896 ≤ i.val) ∨ k = .purgeGroup e.group → Runs .sweepStep s fun t =>
          (t.record i).enrolled = (if isVisitor i = true then none else some { e with loc := .absent }) ∧
          EventEnd s { changeLocation i e .absent s with sweep := w true } t)

/-! ### Management (chapter 12) -/

/-- A management row that does not stand for the request in execution has no effect (R180; log 9). Each response is handed
to the reply queue with its tag, and the agent goes on to the oldest waiting request (R13, R180). A reply that finds the
trunk DOWN is lost, and one that finds 256 replies waiting is counted. The response of a request that was in execution at a
line-down of the trunk is discarded, also where the trunk is UP again (R4; log 31), and the next request's is not. -/
def Obligations.ResponseHanded : Prop :=
  (∀ (c : Instr) (tag : Tag) (fits : MgmtFrame → Bool) (s : State), managementRow c = some (tag, fits) →
    ¬ Executing tag fits s → exec c s = .next s) ∧
  ∀ (tag : Tag) (a : MgmtAnswer) (s : State),
    (s.trunk.mgmtIn = [] → (answered tag a s).mgmtNow = none ∧ (answered tag a s).trunk.mgmtIn = []) ∧
    (∀ q qs, s.trunk.mgmtIn = q :: qs → (answered tag a s).mgmtNow = some q ∧ (answered tag a s).trunk.mgmtIn = qs) ∧
    (answered tag a s).mgmtMuted = false ∧
    (answered tag a s).trunk.replies =
      (if s.mgmtMuted = false ∧ s.trunk.link = .up ∧ s.trunk.replies.length < 256 then s.trunk.replies ++ [.mgmtRsp tag a]
        else s.trunk.replies) ∧
    (answered tag a s).device.replyOverflow =
      (if s.mgmtMuted = false ∧ s.trunk.link = .up ∧ 256 ≤ s.trunk.replies.length then s.device.replyOverflow.bump
        else s.device.replyOverflow) ∧
    answered tag a s = { s with
      trunk := { s.trunk with
        replies := (answered tag a s).trunk.replies, mgmtIn := (answered tag a s).trunk.mgmtIn }
      mgmtNow := (answered tag a s).mgmtNow
      mgmtMuted := false
      device := { s.device with replyOverflow := (answered tag a s).device.replyOverflow } }

/-- BAD_OPERATION, READ_CAPS, TABLE_READ and COUNTERS_READ (R181, R182, R185, R186): the answers that change nothing but the
counters cleared, with the data of every table and view. An unknown code fails the first test of R181, and so do operands of
the wrong length, known for the operations without operands and for EVICT; for the others the sender of the command judges
the length (log 9, log 32). An unknown table and an index out of range are judged in the order of R181. That a SUBSCRIBER
record which is not present is read without the HID it may keep is the model's choice (log 33). -/
def Obligations.ReadsAnswered : Prop :=
  (∀ r : MgmtFrame,
    (r.op ∉ ([0x01, 0x02, 0x03, 0x04, 0x05, 0x10, 0x11, 0x12, 0x13, 0x20, 0x21, 0x22, 0x23, 0x30, 0x31, 0x32, 0x33, 0x34,
      0x40, 0x50, 0x7F] : List Byte) → failsForm r = true ∧ ∀ code, asksFor code r = false) ∧
    (r.op ∈ ([0x01, 0x20, 0x21, 0x31, 0x32, 0x33, 0x34, 0x7F] : List Byte) →
      (failsForm r = true ↔ r.operands ≠ []) ∧ ∀ code, asksFor code r = true ↔ r.op = code ∧ r.operands = []) ∧
    (r.op = 0x40 → (failsForm r = true ↔ r.operands.length ≠ 4) ∧
      ∀ h, asksEvict h r = true ↔ r.operands = bytes32 h)) ∧
  ∀ (tag : Tag) (s : State),
    Answers (.badOperation tag) tag failsForm s ⟨.badOperation, .none⟩ s ∧
    Answers (.readCaps tag) tag (asksFor 0x01) s ⟨.ok, .caps
      { formatVersion := 1, partCode := 4410, revision := 1, cells := 64, cellPorts := 4, slotsPerCell := 12,
        subscribers := 896, visitors := 128, contexts := 128, candidates := 4, neighbours := 8, zones := 16, gates := 32,
        filters := 8, hrq := 32, pendingAnswers := 64, controlQueue := 24, closeSet := 256, pageList := 16,
        noticeQueue := 64, inExecution := 16 }⟩ s ∧
    (∀ n, Answers (.tableRead tag .unknown n) tag (asksFor 0x03) s ⟨.badTable, .none⟩ s) ∧
    (∀ t n, t ≠ .unknown → t.size ≤ n → Answers (.tableRead tag t n) tag (asksFor 0x03) s ⟨.badIndex, .none⟩ s) ∧
    (∀ i : Fin 896, Answers (.tableRead tag .subscriber i.val) tag (asksFor 0x03) s ⟨.ok, .subscriber
      ((s.record (subscriberIx i)).enrolled.map fun e => (e.hid, e.clearance, e.group))⟩ s) ∧
    (∀ c : CellIx, Answers (.tableRead tag .neighbours c.val) tag (asksFor 0x03) s
      ⟨.ok, .neighbours (s.cell c).neighbours⟩ s) ∧
    (∀ z : ZoneIx, Answers (.tableRead tag .zone z.val) tag (asksFor 0x03) s ⟨.ok, .zone (s.zone z)⟩ s) ∧
    (∀ g : GateIx, Answers (.tableRead tag .gate g.val) tag (asksFor 0x03) s ⟨.ok, .gate (s.gate g)⟩ s) ∧
    (∀ f : FilterIx, Answers (.tableRead tag .filter f.val) tag (asksFor 0x03) s ⟨.ok, .filter (s.filter f)⟩ s) ∧
    Answers (.tableRead tag .config 0) tag (asksFor 0x03) s ⟨.ok, .config s.config⟩ s ∧
    (∀ c : CellIx, Answers (.tableRead tag .cellState c.val) tag (asksFor 0x03) s ⟨.ok, .cellState
      { present := (s.cell c).present, service := (s.cell c).service.name,
        followOn := match (s.cell c).service with
          | .draining f _ => some f
          | .outOfService | .inService | .restarting _ => none
        deadline := match (s.cell c).service with
          | .draining _ d | .restarting d => some d
          | .outOfService | .inService => none
        occupancy := (s.cell c).occupancy, congested := (s.cell c).congested, link := (s.port (portOf c)).link }⟩ s) ∧
    (∀ c : CellIx, Answers (.tableRead tag .cell c.val) tag (asksFor 0x03) s ⟨.ok, .cell (s.cell c).stored⟩ s) ∧
    (∀ i : RecIx, Answers (.tableRead tag .registry i.val) tag (asksFor 0x03) s ⟨.ok, .registry (s.record i)⟩ s) ∧
    (∀ x : Channel, Answers (.tableRead tag .context x.val) tag (asksFor 0x03) s
      ⟨.ok, .context (s.call x) (s.hrq.requestOf x)⟩ s) ∧
    (∀ n b, 5 < n → Answers (.countersRead tag n b) tag (asksFor 0x50) s ⟨.badIndex, .none⟩ s) ∧
    (∀ l : LinkIx, l.val < 4 →
      Answers (.countersRead tag l.val false) tag (asksFor 0x50) s ⟨.ok, .portCounters (s.counter l)⟩ s ∧
      Answers (.countersRead tag l.val true) tag (asksFor 0x50) s ⟨.ok, .portCounters (s.counter l)⟩
        (s.setCounter l ⟨0, 0, 0, 0, 0⟩)) ∧
    (∀ b, Answers (.countersRead tag 4 b) tag (asksFor 0x50) s
      ⟨.ok, .trunkCounters (s.counter 4).received (s.counter 4).checkFailures (s.counter 4).malformed
        (s.counter 4).strayVoice⟩
      (if b = true then s.setCounter 4 ⟨0, 0, 0, 0, 0⟩ else s)) ∧
    ∀ b, Answers (.countersRead tag 5 b) tag (asksFor 0x50) s ⟨.ok, .deviceCounters s.device⟩
      (if b = true then { s with device := DeviceCounters.blank } else s)

/-- TABLE_WRITE, FIELD_MODIFY and TABLE_CLEAR (R177, R181, R182): every request completes with one response, and one whose
result is neither OK nor OK_CLAMPED changes nothing else. Every write, field write and clear of a zone or gate is refused
SWEEP_LOCKED while a REVALIDATE sweep is under way, whatever values it carries: that the lock is tested before the values is
the model's choice (log 14). Tests 2 and 3 of R181: a write, field write or clear that names an unknown table or a read-only
view is refused BAD_TABLE, a field write of NEIGHBOURS BAD_OPERATION, and an index out of the table's range BAD_INDEX. A
field number that the table does not have is answered with a free code, after BAD_INDEX of a subscriber not present and the
lock, and changes nothing (log 15). -/
def Obligations.TableWritesJudged : Prop :=
  (∀ (tag : Tag) (n : Nat) (s : State),
    (∀ e, Answers (.tableWrite tag n e) tag (asksFor 0x02) s (tableWrite n e s).2 (tableWrite n e s).1 ∧
      (¬ (tableWrite n e s).2.result.isTaken → (tableWrite n e s).1 = s)) ∧
    (∀ f, Answers (.fieldModify tag n f) tag (asksFor 0x04) s (fieldModify n f s).2 (fieldModify n f s).1 ∧
      (¬ (fieldModify n f s).2.result.isTaken → (fieldModify n f s).1 = s)) ∧
    (∀ t, Answers (.tableClear tag t n) tag (asksFor 0x05) s (tableClear t n s).2 (tableClear t n s).1 ∧
      (¬ (tableClear t n s).2.result.isTaken → (tableClear t n s).1 = s))) ∧
  (∀ s : State, s.sweep.state ≠ .idle → s.sweep.kind = some .revalidate → ∀ z : ZoneIx, ∀ g : GateIx,
    (∀ p k l, tableWrite z.val (.zone p k l) s = (s, ⟨.sweepLocked, .none⟩)) ∧
    (∀ p y q l m, tableWrite g.val (.gate p y q l m) s = (s, ⟨.sweepLocked, .none⟩)) ∧
    (∀ f, f.table = some .zone → fieldModify z.val f s = (s, ⟨.sweepLocked, .none⟩)) ∧
    (∀ f, f.table = some .gate → fieldModify g.val f s = (s, ⟨.sweepLocked, .none⟩)) ∧
    tableClear .zone z.val s = (s, ⟨.sweepLocked, .none⟩) ∧ tableClear .gate g.val s = (s, ⟨.sweepLocked, .none⟩)) ∧
  (∀ (s : State) (n : Nat) (u : Nat → State × MgmtAnswer),
    (∀ m, u m = (s, ⟨.unstated (Config.unknownFieldResult m n), .unstated⟩)) →
    (∀ i : Fin 896, fieldModify i.val (.other .subscriber n) s =
      if (s.record (subscriberIx i)).enrolled = none then (s, ⟨.badIndex, .none⟩) else u 0) ∧
    (∀ c : CellIx, fieldModify c.val (.other .cell n) s = u 1) ∧
    (∀ z : ZoneIx, ∀ g : GateIx,
      (s.sweep.state = .idle ∨ s.sweep.kind ≠ some .revalidate →
        fieldModify z.val (.other .zone n) s = u 3 ∧ fieldModify g.val (.other .gate n) s = u 4) ∧
      (s.sweep.state ≠ .idle → s.sweep.kind = some .revalidate →
        fieldModify z.val (.other .zone n) s = (s, ⟨.sweepLocked, .none⟩) ∧
        fieldModify g.val (.other .gate n) s = (s, ⟨.sweepLocked, .none⟩))) ∧
    (∀ f : FilterIx, fieldModify f.val (.other .filter n) s = u 5) ∧ fieldModify 0 (.other .config n) s = u 6) ∧
  ∀ (s : State) (n m : Nat) (t : TableId),
    (t = .unknown ∨ t = .registry ∨ t = .context ∨ t = .cellState →
      tableWrite n (.misfit t) s = (s, ⟨.badTable, .none⟩) ∧ fieldModify n (.other t m) s = (s, ⟨.badTable, .none⟩) ∧
      tableClear t n s = (s, ⟨.badTable, .none⟩)) ∧
    (t.writable = true → tableWrite n (.misfit t) s = (s, ⟨.badOperation, .none⟩)) ∧
    fieldModify n (.other .neighbours m) s = (s, ⟨.badOperation, .none⟩) ∧
    (t.writable = true → t.size ≤ n →
      (∀ e, e.table = some t → tableWrite n e s = (s, ⟨.badIndex, .none⟩)) ∧
      (∀ f, f.table = some t → fieldModify n f s = (s, ⟨.badIndex, .none⟩)) ∧
      (t ≠ .neighbours → fieldModify n (.other t m) s = (s, ⟨.badIndex, .none⟩)) ∧
      tableClear t n s = (s, ⟨.badIndex, .none⟩))

/-- Subscriber writes, field writes and clears, and EVICT (R19, R34, R183). A write is taken with OK: a record not present
becomes present in ABSENT, stamped with the time of the write (the flags of a notice still owed stay, log 13), and a present
one takes the three fields and nothing else. Refused: DUPLICATE with the other record, IN_USE for another HID on a record
that is not ABSENT, BAD_VALUE 2 and 3, BAD_INDEX for a field of a record not present. That values come before DUPLICATE, and
that before IN_USE, is the model's choice (log 14). A clear removes an ABSENT record, and an ATTACHED one after its REVOKED
frame and with its notice owed. EVICT does the same for a visitor, or answers why not. -/
def Obligations.SubscribersManaged : Prop :=
  (∀ (s : State) (i : Fin 896) (j : RecIx) (r : Record), j = subscriberIx i → r = s.record j →
    (∀ (h : Hid) (cl : Clearance) (g : Group),
      (∀ q e, q ≠ j → (s.record q).enrolled = some e → e.hid = h →
        (∀ q' e', q' ≠ q → (s.record q').enrolled = some e' → e'.hid ≠ h) →
        tableWrite i.val (.subscriber h cl.val g.val) s = (s, ⟨.duplicate, .recordIndex q⟩) ∧
        (r.enrolled ≠ none → fieldModify i.val (.subscriberHid h) s = (s, ⟨.duplicate, .recordIndex q⟩))) ∧
      ((∀ q e, q ≠ j → (s.record q).enrolled = some e → e.hid ≠ h) →
        (r.enrolled = none → tableWrite i.val (.subscriber h cl.val g.val) s =
          (s.setRecord j { r with holder := .present ⟨h, cl, g, none, .absent⟩, lastChange := s.now }, ⟨.ok, .none⟩)) ∧
        ∀ e, r.enrolled = some e →
          (e.loc ≠ .absent → e.hid ≠ h → tableWrite i.val (.subscriber h cl.val g.val) s = (s, ⟨.inUse, .none⟩) ∧
            fieldModify i.val (.subscriberHid h) s = (s, ⟨.inUse, .none⟩)) ∧
          (e.loc = .absent ∨ e.hid = h → tableWrite i.val (.subscriber h cl.val g.val) s =
              (s.setRecord j { r with holder := .present { e with hid := h, clearance := cl, group := g } },
                ⟨.ok, .none⟩) ∧
            fieldModify i.val (.subscriberHid h) s =
              (s.setRecord j { r with holder := .present { e with hid := h } }, ⟨.ok, .none⟩))) ∧
      (∀ n m, 3 < n → tableWrite i.val (.subscriber h n m) s = (s, ⟨.badValue, .field 2⟩)) ∧
      (∀ n, 31 < n → tableWrite i.val (.subscriber h cl.val n) s = (s, ⟨.badValue, .field 3⟩)) ∧
      (r.enrolled = none → ∀ n, fieldModify i.val (.subscriberHid h) s = (s, ⟨.badIndex, .none⟩) ∧
        fieldModify i.val (.subscriberClearance n) s = (s, ⟨.badIndex, .none⟩) ∧
        fieldModify i.val (.subscriberGroup n) s = (s, ⟨.badIndex, .none⟩)) ∧
      ∀ e, r.enrolled = some e →
        (s.HidsOnce → fieldModify i.val (.subscriberClearance cl.val) s =
            (s.setRecord j { r with holder := .present { e with clearance := cl } }, ⟨.ok, .none⟩) ∧
          fieldModify i.val (.subscriberGroup g.val) s =
            (s.setRecord j { r with holder := .present { e with group := g } }, ⟨.ok, .none⟩)) ∧
        (∀ n, 3 < n → fieldModify i.val (.subscriberClearance n) s = (s, ⟨.badValue, .field 2⟩)) ∧
        ∀ n, 31 < n → fieldModify i.val (.subscriberGroup n) s = (s, ⟨.badValue, .field 3⟩)) ∧
    (r.enrolled = none → tableClear .subscriber i.val s = (s, ⟨.ok, .none⟩)) ∧
    ∀ e, r.enrolled = some e →
      (∀ a x, e.loc = .engaged a x → tableClear .subscriber i.val s = (s, ⟨.inUse, .none⟩)) ∧
      (e.loc = .absent → tableClear .subscriber i.val s =
        (s.setRecord j { r with holder := if r.dirty = true ∨ r.queued = true then .kept e.hid else .empty },
          ⟨.ok, .none⟩)) ∧
      ∀ a d, e.loc = .attached a d → ∃ t, tableClear .subscriber i.val s = (t, ⟨.ok, .none⟩) ∧
        (t.record j).enrolled = none ∧ (t.record j).hid = some e.hid ∧ (t.record j).lastChange = s.now ∧
        (t.record j).dirty = true ∧ (∀ q, q ≠ j → t.record q = s.record q) ∧
        t = { s with
          ports := (sendAck a.cell e.hid (.revoked ⟨.unknownHandset, 0, .none⟩) s).ports
          records := t.records, notices := t.notices, pages := t.pages }) ∧
  ∀ (s : State) (h : Hid) (tag : Tag),
    (s.findHid h = none → Answers (.evict tag h) tag (asksEvict h) s ⟨.badIndex, .none⟩ s) ∧
    ∀ j e, s.findHid h = some j → (s.record j).enrolled = some e →
      (j.val < 896 → Answers (.evict tag h) tag (asksEvict h) s ⟨.badValue, .field 1⟩ s) ∧
      (896 ≤ j.val → ∀ a x, e.loc = .engaged a x → Answers (.evict tag h) tag (asksEvict h) s ⟨.inUse, .none⟩ s) ∧
      (896 ≤ j.val → ∀ a d, e.loc = .attached a d → Executing tag (asksEvict h) s →
        Runs (.evict tag h) s fun t => (t.record j).enrolled = none ∧
        EventEnd s (answered tag ⟨.ok, .none⟩
          (sendAck a.cell e.hid (.revoked ⟨.unknownHandset, 0, .none⟩) (changeLocation j e .absent s))) t)

/-- What a taken write of a zone, a gate, a filter or a neighbour list stores (R22, R41, R42, R58, R182, R183), with no lock
on zones and gates: a TABLE_WRITE the entry it carries, a FIELD_MODIFY its one field, a TABLE_CLEAR the power-on values.
Each answers OK and changes nothing else. A value out of range is refused BAD_VALUE with the number of its field, in a write
and in a field write. A neighbour list is refused with the number of its first entry whose cell or margin is out of range,
whose cell is the owner or named before, or that is the ninth (log 24). -/
def Obligations.EntriesStored : Prop :=
  (∀ (s : State), s.sweep.state = .idle ∨ s.sweep.kind ≠ some .revalidate →
    (∀ (z : ZoneIx) (p : Bool) (k : ZoneKind) (l : Clearance),
      ZoneStored z ⟨p, k, l⟩ s (tableWrite z.val (.zone p (some k) l.val) s) ∧
      ZoneStored z { s.zone z with present := p } s (fieldModify z.val (.zonePresent p) s) ∧
      ZoneStored z { s.zone z with kind := k } s (fieldModify z.val (.zoneKind (some k)) s) ∧
      ZoneStored z { s.zone z with level := l } s (fieldModify z.val (.zoneLevel l.val) s) ∧
      ZoneStored z ⟨false, .openZone, 0⟩ s (tableClear .zone z.val s) ∧
      (∀ n, tableWrite z.val (.zone p none n) s = (s, ⟨.badValue, .field 2⟩)) ∧
      fieldModify z.val (.zoneKind none) s = (s, ⟨.badValue, .field 2⟩) ∧
      ∀ n, 3 < n → tableWrite z.val (.zone p (some k) n) s = (s, ⟨.badValue, .field 3⟩) ∧
        fieldModify z.val (.zoneLevel n) s = (s, ⟨.badValue, .field 3⟩)) ∧
    ∀ (g : GateIx) (p : Bool) (z : ZoneIx) (q : GateGroup) (l : Clearance) (m : GateMode),
      GateStored g ⟨p, z, q, l, m⟩ s (tableWrite g.val (.gate p z.val q.operand l.val (some m)) s) ∧
      GateStored g { s.gate g with present := p } s (fieldModify g.val (.gatePresent p) s) ∧
      GateStored g { s.gate g with zone := z } s (fieldModify g.val (.gateZone z.val) s) ∧
      GateStored g { s.gate g with group := q } s (fieldModify g.val (.gateGroup q.operand) s) ∧
      GateStored g { s.gate g with level := l } s (fieldModify g.val (.gateLevel l.val) s) ∧
      GateStored g { s.gate g with mode := m } s (fieldModify g.val (.gateMode (some m)) s) ∧
      GateStored g ⟨false, 0, .only 0, 0, .any⟩ s (tableClear .gate g.val s) ∧
      (∀ n v o h, 15 < n → tableWrite g.val (.gate p n v o h) s = (s, ⟨.badValue, .field 2⟩) ∧
        fieldModify g.val (.gateZone n) s = (s, ⟨.badValue, .field 2⟩)) ∧
      (∀ n o h, 31 < n → tableWrite g.val (.gate p z.val (.num n) o h) s = (s, ⟨.badValue, .field 3⟩) ∧
        fieldModify g.val (.gateGroup (.num n)) s = (s, ⟨.badValue, .field 3⟩)) ∧
      (∀ n h, 3 < n → tableWrite g.val (.gate p z.val q.operand n h) s = (s, ⟨.badValue, .field 4⟩) ∧
        fieldModify g.val (.gateLevel n) s = (s, ⟨.badValue, .field 4⟩)) ∧
      tableWrite g.val (.gate p z.val q.operand l.val none) s = (s, ⟨.badValue, .field 5⟩) ∧
      fieldModify g.val (.gateMode none) s = (s, ⟨.badValue, .field 5⟩)) ∧
  (∀ (s : State) (f : FilterIx) (b : Bool) (m v : Hid) (cl : Clearance) (g : Group),
    FilterStored f ⟨b, m, v, cl, g⟩ s (tableWrite f.val (.filter b m v cl.val g.val) s) ∧
    FilterStored f { s.filter f with enabled := b } s (fieldModify f.val (.filterEnabled b) s) ∧
    FilterStored f { s.filter f with mask := m } s (fieldModify f.val (.filterMask m) s) ∧
    FilterStored f { s.filter f with value := v } s (fieldModify f.val (.filterValue v) s) ∧
    FilterStored f { s.filter f with clearance := cl } s (fieldModify f.val (.filterClearance cl.val) s) ∧
    FilterStored f { s.filter f with group := g } s (fieldModify f.val (.filterGroup g.val) s) ∧
    FilterStored f ⟨false, 0, 0, 0, 0⟩ s (tableClear .filter f.val s) ∧
    (∀ n o, 3 < n → tableWrite f.val (.filter b m v n o) s = (s, ⟨.badValue, .field 4⟩) ∧
      fieldModify f.val (.filterClearance n) s = (s, ⟨.badValue, .field 4⟩)) ∧
    ∀ n, 31 < n → tableWrite f.val (.filter b m v cl.val n) s = (s, ⟨.badValue, .field 5⟩) ∧
      fieldModify f.val (.filterGroup n) s = (s, ⟨.badValue, .field 5⟩)) ∧
  ∀ (s : State) (c : CellIx),
    NeighboursStored c [] s (tableClear .neighbours c.val s) ∧
    ∀ l : List Neighbour, l.length ≤ 8 → (l.map (·.cell)).Nodup → c ∉ l.map (·.cell) →
      (∀ e ∈ l, -8 ≤ e.margin ∧ e.margin ≤ 15) →
      NeighboursStored c l s (tableWrite c.val (.neighbours (l.map fun e => ⟨e.cell.val, e.margin⟩)) s) ∧
      ∀ (e : NeighbourWrite) (after : List NeighbourWrite),
        63 < e.cell ∨ e.margin < -8 ∨ 15 < e.margin ∨ e.cell = c.val ∨ (∃ d ∈ l, e.cell = d.cell.val) ∨ l.length = 8 →
        tableWrite c.val (.neighbours ((l.map fun d => ⟨d.cell.val, d.margin⟩) ++ e :: after)) s =
          (s, ⟨.badValue, .field (l.length + 1)⟩)

/-- TABLE_WRITE and TABLE_CLEAR of CELL (R56, R57, R59), and CONFIG (R184). A CELL write is taken on a cell OUT_OF_SERVICE,
and on any cell whose structural fields it carries as they are held: zone, capacity, H, floor and resume as carried, the
others clamped in order, the congested flag judged again, and the rest of the record kept. Else it is refused STRUCTURAL, or
IN_USE; values out of range are refused BAD_VALUE first, and the structural fields are compared as carried (log 14). A clear
gives the power-on values, or is refused. A CONFIG write or field write clamps each numeric item into its range, refuses a
policy that is not listed, and a clear gives the defaults. OK is answered where nothing was clamped, else OK_CLAMPED with
the values stored. -/
def Obligations.CellAndConfigWritten : Prop :=
  (∀ (s : State) (c : CellIx) (w : CellWrite),
    (15 < w.zone → tableWrite c.val (.cell w) s = (s, ⟨.badValue, .field 2⟩)) ∧
    ∀ z : ZoneIx, w.zone = z.val →
      (w.capacity < 1 ∨ 12 < w.capacity → tableWrite c.val (.cell w) s = (s, ⟨.badValue, .field 3⟩)) ∧
      (1 ≤ w.capacity → w.capacity ≤ 12 →
        (15 < w.hysteresis → tableWrite c.val (.cell w) s = (s, ⟨.badValue, .field 7⟩)) ∧
        (w.hysteresis ≤ 15 → 63 < w.floor → tableWrite c.val (.cell w) s = (s, ⟨.badValue, .field 8⟩)) ∧
        (w.hysteresis ≤ 15 → w.floor ≤ 63 → ∀ r, r = s.cell c →
          (∀ v upper, upper = max 1 (min w.upper w.capacity) →
            v = { r with
              present := w.present, zone := z, capacity := w.capacity, guard := min w.guard (w.capacity - 1)
              upper := upper, lower := min w.lower (upper - 1), hysteresis := w.hysteresis, floor := w.floor
              shift := min w.shift 4, dwell := max 1 (min w.dwell 7), resume := w.resume } →
            r.service = .outOfService ∨
              (w.present = r.present ∧ z = r.zone ∧ w.capacity = r.capacity ∧ w.guard = r.guard) →
            r.occupancy ≤ w.capacity → (w.present = false → r.occupancy = 0) →
            CellStored c w (judgedAgain v) s (tableWrite c.val (.cell w) s)) ∧
          (r.service ≠ .outOfService →
            w.present ≠ r.present ∨ z ≠ r.zone ∨ w.capacity ≠ r.capacity ∨ w.guard ≠ r.guard →
            tableWrite c.val (.cell w) s = (s, ⟨.structural, .none⟩)) ∧
          (r.service = .outOfService → w.capacity < r.occupancy ∨ (w.present = false ∧ 0 < r.occupancy) →
            tableWrite c.val (.cell w) s = (s, ⟨.inUse, .none⟩))))) ∧
  (∀ (s : State) (c : CellIx),
    ((s.cell c).service ≠ .outOfService → tableClear .cell c.val s = (s, ⟨.structural, .none⟩)) ∧
    ((s.cell c).service = .outOfService → 0 < (s.cell c).occupancy → tableClear .cell c.val s = (s, ⟨.inUse, .none⟩)) ∧
    ((s.cell c).service = .outOfService → (s.cell c).occupancy = 0 →
      CellStored c ⟨false, 0, 12, 1, 10, 8, 3, 12, 2, 2, false⟩
        ⟨false, 0, 12, 1, 10, 8, 3, 12, 2, 2, false, [], .outOfService, 0, false⟩ s (tableClear .cell c.val s))) ∧
  ∀ (s : State) (v : ConfigTable) (n : Nat), v = s.config →
    (∀ (w : ConfigWrite) (p : SyncPolicy), w.sync = some p →
      ConfigStored (configItems w p) ⟨max 1 (min w.presencePeriod 255), max 1 (min w.deferBackoff 60),
        max 50 (min w.legTime 2000), max 20 (min w.bridgeTime 1000), min w.settleInterval 255, min w.retryInterval 255,
        max 200 (min w.rescueLimit 5000), max 100 (min w.pageInterval 2000), max 1 (min w.drainTime 255),
        max 1 (min w.restartTime 255), p⟩ s (tableWrite 0 (.config w) s)) ∧
    (∀ w : ConfigWrite, w.sync = none → tableWrite 0 (.config w) s = (s, ⟨.badValue, .field 11⟩)) ∧
    (∀ (f : ConfigField) (carried stored : ConfigTable),
      (f, carried, stored) ∈
        [(ConfigField.presencePeriod n, { v with presencePeriod := n }, { v with presencePeriod := max 1 (min n 255) }),
         (.deferBackoff n, { v with deferBackoff := n }, { v with deferBackoff := max 1 (min n 60) }),
         (.legTime n, { v with legTime := n }, { v with legTime := max 50 (min n 2000) }),
         (.bridgeTime n, { v with bridgeTime := n }, { v with bridgeTime := max 20 (min n 1000) }),
         (.settleInterval n, { v with settleInterval := n }, { v with settleInterval := min n 255 }),
         (.retryInterval n, { v with retryInterval := n }, { v with retryInterval := min n 255 }),
         (.rescueLimit n, { v with rescueLimit := n }, { v with rescueLimit := max 200 (min n 5000) }),
         (.pageInterval n, { v with pageInterval := n }, { v with pageInterval := max 100 (min n 2000) }),
         (.drainTime n, { v with drainTime := n }, { v with drainTime := max 1 (min n 255) }),
         (.restartTime n, { v with restartTime := n }, { v with restartTime := max 1 (min n 255) }),
         (.sync (some .discard), { v with sync := .discard }, { v with sync := .discard }),
         (.sync (some .fail), { v with sync := .fail }, { v with sync := .fail })] →
      ConfigStored carried stored s (fieldModify 0 (.config f) s)) ∧
    fieldModify 0 (.config (.sync none)) s = (s, ⟨.badValue, .field 11⟩) ∧
    tableClear .config 0 s = ({ s with config := ⟨20, 5, 400, 200, 30, 10, 1500, 640, 30, 10, .discard⟩ }, ⟨.ok, .none⟩)

/-- FIELD_MODIFY of CELL (R56, R57, R59). A structural field (present, zone, capacity, guard) is written on a cell
OUT_OF_SERVICE and refused STRUCTURAL on any other; IN_USE refuses a capacity below the occupancy, and present = no with
legs on the cell. A live field is written in every service state. Guard, watermarks, k and D are clamped, a capacity
re-clamps guard and watermarks, an upper watermark the lower; a watermark judges the congested flag again, and so does a
capacity, which is the model's choice (log 38). Zone, capacity, H and floor out of range are refused BAD_VALUE with the
field's number, which comes before the tests of state (log 14). -/
def Obligations.CellFieldsManaged : Prop :=
  ∀ (s : State) (c : CellIx) (r : CellRec) (n : Nat), s.Inv → r = s.cell c →
    (∀ f : CellField, (∃ b, f = .present b) ∨ (∃ z : ZoneIx, f = .zone z.val) ∨
        (∃ m, 1 ≤ m ∧ m ≤ 12 ∧ f = .capacity m) ∨ (∃ m, f = .guard m) →
      r.service ≠ .outOfService → fieldModify c.val (.cell f) s = (s, ⟨.structural, .none⟩)) ∧
    (r.service = .outOfService →
      (∀ b, b = true ∨ r.occupancy = 0 →
        CellStored c { r.stored with present := b } { r with present := b } s (fieldModify c.val (.cell (.present b)) s)) ∧
      (0 < r.occupancy → fieldModify c.val (.cell (.present false)) s = (s, ⟨.inUse, .none⟩)) ∧
      (∀ z : ZoneIx, CellStored c { r.stored with zone := z.val } { r with zone := z } s
        (fieldModify c.val (.cell (.zone z.val)) s)) ∧
      (1 ≤ n → n ≤ 12 →
        (n < r.occupancy → fieldModify c.val (.cell (.capacity n)) s = (s, ⟨.inUse, .none⟩)) ∧
        (r.occupancy ≤ n → ∀ upper, upper = max 1 (min r.upper n) →
          CellStored c { r.stored with capacity := n } (judgedAgain { r with
            capacity := n, guard := min r.guard (n - 1), upper := upper, lower := min r.lower (upper - 1) }) s
            (fieldModify c.val (.cell (.capacity n)) s))) ∧
      CellStored c { r.stored with guard := n } { r with guard := min n (r.capacity - 1) } s
        (fieldModify c.val (.cell (.guard n)) s)) ∧
    (∀ upper, upper = max 1 (min n r.capacity) →
      CellStored c { r.stored with upper := n } (judgedAgain { r with
        upper := upper, lower := min r.lower (upper - 1) }) s (fieldModify c.val (.cell (.upper n)) s)) ∧
    CellStored c { r.stored with lower := n } (judgedAgain { r with lower := min n (r.upper - 1) }) s
      (fieldModify c.val (.cell (.lower n)) s) ∧
    (n ≤ 15 → CellStored c { r.stored with hysteresis := n } { r with hysteresis := n } s
      (fieldModify c.val (.cell (.hysteresis n)) s)) ∧
    (n ≤ 63 → CellStored c { r.stored with floor := n } { r with floor := n } s
      (fieldModify c.val (.cell (.floor n)) s)) ∧
    CellStored c { r.stored with shift := n } { r with shift := min n 4 } s (fieldModify c.val (.cell (.shift n)) s) ∧
    CellStored c { r.stored with dwell := n } { r with dwell := max 1 (min n 7) } s
      (fieldModify c.val (.cell (.dwell n)) s) ∧
    (∀ b, CellStored c { r.stored with resume := b } { r with resume := b } s
      (fieldModify c.val (.cell (.resume b)) s)) ∧
    (15 < n → fieldModify c.val (.cell (.zone n)) s = (s, ⟨.badValue, .field 2⟩)) ∧
    (n < 1 ∨ 12 < n → fieldModify c.val (.cell (.capacity n)) s = (s, ⟨.badValue, .field 3⟩)) ∧
    (15 < n → fieldModify c.val (.cell (.hysteresis n)) s = (s, ⟨.badValue, .field 7⟩)) ∧
    (63 < n → fieldModify c.val (.cell (.floor n)) s = (s, ⟨.badValue, .field 8⟩))

/-- The management RESTART (R20, R73, R87, R163, R179, R187): every live activity is at rest, and what management has
loaded, the counters, the time base, the links, the replies that wait and the requests that wait are kept. A record that was
not ABSENT takes the time of the RESTART. Its own MGMT-RSP joins the replies last, where the trunk is UP and has room,
unless it is to be discarded (R4). That a response to be discarded is so also where the trunk is UP again, and is then not
counted as lost for want of room, is DEDUCED (log 31). An idle trunk then sends the oldest reply (R12). A frame in
transmission on any link goes on, and a HID kept by a record that is not present is discarded. The agent goes on to the
oldest waiting request. -/
def Obligations.RestartClears : Prop :=
  ∀ (tag : Tag) (s : State), s.Inv → Executing tag (asksFor 0x7F) s → Runs (.restart tag) s fun t =>
    (∀ x, t.call x = none) ∧ t.hrq = ⟨[], []⟩ ∧ t.answers = [] ∧ t.txnCounter = 0 ∧ t.notices = [] ∧
    (∀ e, t.page e = none) ∧ t.trunk.voice = [] ∧
    (∀ i, (t.record i).dirty = false ∧ (t.record i).queued = false ∧ (t.record i).enrolled =
      if isVisitor i = true then none else (s.record i).enrolled.map fun e => { e with loc := .absent }) ∧
    (∀ i, (t.record i).hid = (t.record i).enrolled.map (·.hid)) ∧
    (∀ i, (t.record i).lastChange =
      if ∃ e, (s.record i).enrolled = some e ∧ e.loc ≠ .absent then s.now else (s.record i).lastChange) ∧
    (∀ c, t.cell c = { s.cell c with
      occupancy := 0
      congested := false
      service := if (s.cell c).service = .inService ∨ (s.cell c).service = .outOfService then (s.cell c).service
        else if (s.port (portOf c)).link = .up then .inService else .outOfService }) ∧
    (∀ p, (t.port p).link = (s.port p).link ∧ (t.port p).lane = [] ∧ (t.port p).closes = [] ∧
      (∀ f, (s.port p).tx = some f → (t.port p).tx = some f) ∧
      ∀ f ∈ (t.port p).ctl, ∃ c, f = .legCloseAll c ∧ portOf c = p ∧ (t.cell c).service = .inService) ∧
    (∀ c, (t.cell c).service = .inService → (s.port (portOf c)).link = .up →
      .legCloseAll c ∈ (t.port (portOf c)).ctl ∨ (t.port (portOf c)).tx = some (.control (.legCloseAll c))) ∧
    t.hold = ⟨⟨false, s.hold.hrqHigh.enable, false⟩, ⟨false, s.hold.txnHigh.enable, false⟩,
      ⟨false, s.hold.noticeFull.enable, false⟩, ⟨false, s.hold.management.enable, false⟩⟩ ∧
    t.sweep = (if s.sweep.state = .idle then s.sweep else { s.sweep with state := .idle, lastEnd := .aborted }) ∧
    t.now = s.now ∧ t.filters = s.filters ∧ t.zones = s.zones ∧ t.gates = s.gates ∧ t.config = s.config ∧
    t.counters = s.counters ∧ t.pending = s.pending ∧ t.trunk.link = s.trunk.link ∧
    t.mgmtMuted = false ∧ (s.trunk.mgmtIn = [] → t.mgmtNow = none ∧ t.trunk.mgmtIn = []) ∧
    (∀ q qs, s.trunk.mgmtIn = q :: qs → t.mgmtNow = some q ∧ t.trunk.mgmtIn = qs) ∧
    t.device = (if s.mgmtMuted = false ∧ s.trunk.link = .up ∧ 256 ≤ s.trunk.replies.length then
      { s.device with replyOverflow := s.device.replyOverflow.bump } else s.device) ∧
    ∀ rs, rs = (if s.mgmtMuted = false ∧ s.trunk.link = .up ∧ s.trunk.replies.length < 256 then
        s.trunk.replies ++ [.mgmtRsp tag ⟨.ok, .none⟩] else s.trunk.replies) →
      (s.trunk.tx ≠ none ∨ s.trunk.link = .down → t.trunk.replies = rs ∧ t.trunk.tx = s.trunk.tx) ∧
      (s.mgmtMuted = true → s.trunk.replies = [] → s.trunk.tx = none → t.trunk.replies = [] ∧ t.trunk.tx = none) ∧
      (s.mgmtMuted = false → s.trunk.tx = none → s.trunk.link = .up → s.trunk.replies.length < 256 →
        ∃ r, rs = r :: t.trunk.replies ∧ t.trunk.tx = some (.reply r))

end
end

