-- ==== Sys2Proof/Laws/Table.lean ====
section
/-! SUPPORT. Laws of tables: a read after a write, and that a write keeps the canonical form. -/

namespace Sys2Proof.Machine

variable {n : Nat} {α : Type}

theorem lookupIx_filter_self (i : Fin n) (l : List (Fin n × α)) :
    lookupIx i (l.filter fun e => !decide (e.1 = i)) = none := by
  induction l with
  | nil => rfl
  | cons e es ih =>
    by_cases h : e.1 = i <;> simp_all [lookupIx]

theorem lookupIx_filter_ne {i j : Fin n} (h : j ≠ i) (l : List (Fin n × α)) :
    lookupIx j (l.filter fun e => !decide (e.1 = i)) = lookupIx j l := by
  induction l with
  | nil => rfl
  | cons e es ih =>
    by_cases he : e.1 = i
    · have : e.1 ≠ j := fun hj => h (hj ▸ he)
      simp_all [lookupIx]
    · simp_all [lookupIx]

theorem lookupIx_insertIx_self (i : Fin n) (v : α) (l : List (Fin n × α)) (h : lookupIx i l = none) :
    lookupIx i (insertIx i v l) = some v := by
  induction l with
  | nil => simp [insertIx, lookupIx]
  | cons e es ih =>
    by_cases he : e.1 = i
    · simp [lookupIx, he] at h
    · simp only [lookupIx, he, if_false] at h
      unfold insertIx
      split
      · simp [lookupIx]
      · simp [lookupIx, he, ih h]

theorem lookupIx_insertIx_ne {i j : Fin n} (h : j ≠ i) (v : α) (l : List (Fin n × α)) :
    lookupIx j (insertIx i v l) = lookupIx j l := by
  induction l with
  | nil => simp [insertIx, lookupIx, Ne.symm h]
  | cons e es ih =>
    unfold insertIx
    split
    · simp [lookupIx, Ne.symm h]
    · simp [lookupIx, ih]

variable [DecidableEq α]

/-- Writing the value an index holds changes nothing. -/
@[simp] theorem Table.set_get (d : α) (t : Table n α) (i : Fin n) : t.set d i (t.get d i) = t := by
  simp [Table.set]

theorem Table.get_set_self (d : α) (t : Table n α) (i : Fin n) (v : α) : (t.set d i v).get d i = v := by
  unfold Table.set
  split
  · assumption
  · unfold Table.get
    by_cases hv : v = d
    · simp [hv, lookupIx_filter_self]
    · simp [hv, lookupIx_insertIx_self _ _ _ (lookupIx_filter_self i t.entries)]

theorem Table.get_set_ne (d : α) (t : Table n α) {i j : Fin n} (h : j ≠ i) (v : α) :
    (t.set d i v).get d j = t.get d j := by
  unfold Table.set
  split
  · rfl
  · unfold Table.get
    by_cases hv : v = d
    · simp [hv, lookupIx_filter_ne h]
    · simp [hv, lookupIx_insertIx_ne h, lookupIx_filter_ne h]

/-- What a read after a write gives. -/
theorem Table.get_set (d : α) (t : Table n α) (i j : Fin n) (v : α) :
    (t.set d i v).get d j = if j = i then v else t.get d j := by
  split
  · next h => rw [h, Table.get_set_self]
  · next h => rw [Table.get_set_ne d t h]

omit [DecidableEq α] in
@[simp] theorem Table.get_empty (d : α) (i : Fin n) : (Table.empty n α).get d i = d := rfl

@[simp] theorem Table.wf_empty (d : α) : (Table.empty n α).wf d = true := rfl

/-- The canonical form says: sorted by index, and no blank value. -/
theorem canonical_iff (d : α) (l : List (Fin n × α)) :
    canonical d l = true ↔ l.Pairwise (fun a b => a.1 < b.1) ∧ ∀ e ∈ l, e.2 ≠ d := by
  induction l with
  | nil => simp [canonical]
  | cons e es ih =>
    cases es with
    | nil => simp [canonical]
    | cons f fs =>
      simp only [canonical, Bool.and_eq_true, decide_eq_true_eq, ih]
      constructor
      · rintro ⟨⟨hd, hlt⟩, hp, hn⟩
        refine ⟨List.pairwise_cons.2 ⟨fun b hb => ?_, hp⟩, ?_⟩
        · rcases List.mem_cons.1 hb with rfl | hb
          · exact hlt
          · exact lt_trans hlt ((List.pairwise_cons.1 hp).1 b hb)
        · intro x hx
          rcases List.mem_cons.1 hx with rfl | hx
          · exact hd
          · exact hn x hx
      · rintro ⟨hp, hn⟩
        have h1 := List.pairwise_cons.1 hp
        exact ⟨⟨hn e (by simp), h1.1 f (by simp)⟩, h1.2, fun x hx => hn x (List.mem_cons_of_mem _ hx)⟩

omit [DecidableEq α] in
theorem mem_insertIx {i : Fin n} {v : α} {l : List (Fin n × α)} {x : Fin n × α} :
    x ∈ insertIx i v l ↔ x = (i, v) ∨ x ∈ l := by
  induction l with
  | nil => simp [insertIx]
  | cons e es ih =>
    unfold insertIx
    split
    · simp
    · simp only [List.mem_cons, ih]; tauto

omit [DecidableEq α] in
theorem pairwise_insertIx {i : Fin n} {v : α} {l : List (Fin n × α)}
    (hp : l.Pairwise (fun a b => a.1 < b.1)) (hn : ∀ e ∈ l, e.1 ≠ i) :
    (insertIx i v l).Pairwise (fun a b => a.1 < b.1) := by
  induction l with
  | nil => simp [insertIx]
  | cons e es ih =>
    have h1 := List.pairwise_cons.1 hp
    unfold insertIx
    split
    · next hlt =>
      refine List.pairwise_cons.2 ⟨fun b hb => ?_, hp⟩
      rcases List.mem_cons.1 hb with rfl | hb
      · exact hlt
      · exact lt_trans hlt (h1.1 b hb)
    · next hnl =>
      refine List.pairwise_cons.2 ⟨fun b hb => ?_, ih h1.2 fun x hx => hn x (List.mem_cons_of_mem _ hx)⟩
      rcases mem_insertIx.1 hb with rfl | hb
      · exact lt_of_le_of_ne (not_lt.1 hnl) (hn e (by simp))
      · exact h1.1 b hb

/-- A write keeps the canonical form. -/
theorem Table.wf_set (d : α) (t : Table n α) (i : Fin n) (v : α) (h : t.wf d = true) :
    (t.set d i v).wf d = true := by
  unfold Table.set
  split
  · exact h
  unfold Table.wf at *
  rw [canonical_iff] at *
  have hp := h.1.filter (p := fun e => !decide (e.1 = i))
  have hn : ∀ e ∈ t.entries.filter (fun e => !decide (e.1 = i)), e.2 ≠ d :=
    fun e he => h.2 e (List.mem_filter.1 he).1
  by_cases hv : v = d
  · simp only [hv, if_true]; exact ⟨hp, hn⟩
  · simp only [hv, if_false]
    refine ⟨pairwise_insertIx hp fun e he => by simpa using (List.mem_filter.1 he).2, fun e he => ?_⟩
    rcases mem_insertIx.1 he with rfl | he
    · exact hv
    · exact hn e he

/-- A rewrite of every listed value keeps the canonical form. -/
theorem Table.wf_update (d : α) (t : Table n α) (f : Fin n → α → α) (h : t.wf d = true) :
    (t.update d f).wf d = true := by
  unfold Table.update
  generalize t.entries.map (·.1) = ks
  induction ks generalizing t with
  | nil => exact h
  | cons k ks ih => exact ih _ (Table.wf_set d t k _ h)

omit [DecidableEq α] in
theorem lookupIx_none {i : Fin n} {l : List (Fin n × α)} (h : i ∉ l.map (·.1)) : lookupIx i l = none := by
  induction l with
  | nil => rfl
  | cons e es ih =>
    simp only [List.map_cons, List.mem_cons, not_or] at h
    simp [lookupIx, Ne.symm h.1, ih h.2]

theorem Table.get_foldl_set (d : α) (f : Fin n → α → α) (hi : ∀ i v, f i (f i v) = f i v) (ks : List (Fin n))
    (t : Table n α) (j : Fin n) :
    (ks.foldl (fun u i => u.set d i (f i (u.get d i))) t).get d j = if j ∈ ks then f j (t.get d j) else t.get d j := by
  induction ks generalizing t with
  | nil => simp
  | cons k ks ih =>
    simp only [List.foldl_cons, ih, Table.get_set, List.mem_cons]
    by_cases hk : j = k
    · subst hk; by_cases hm : j ∈ ks <;> simp [hm, hi]
    · simp [hk]

/-- A rewrite of every listed value by an idempotent function that keeps the blank value rewrites every value. -/
theorem Table.get_update (d : α) (t : Table n α) (f : Fin n → α → α) (hb : ∀ i, f i d = d)
    (hi : ∀ i v, f i (f i v) = f i v) (j : Fin n) : (t.update d f).get d j = f j (t.get d j) := by
  unfold Table.update
  rw [Table.get_foldl_set d f hi]
  split
  · rfl
  · next hm => unfold Table.get; rw [lookupIx_none hm]; exact (hb j).symm

omit [DecidableEq α] in
/-- What a find answers satisfies what was sought. -/
theorem Table.find_some (d : α) (t : Table n α) (p : Fin n → α → Bool) {i : Fin n} (h : t.find d p = some i) :
    p i (t.get d i) = true := by
  simpa using List.find?_some h

omit [DecidableEq α] in
/-- Where a find answers none, no value that differs from the blank value satisfies what was sought. -/
theorem Table.find_none (d : α) (t : Table n α) (p : Fin n → α → Bool) (h : t.find d p = none) (i : Fin n)
    (hd : p i d = false) : p i (t.get d i) = false := by
  by_cases hm : i ∈ t.entries.map (·.1)
  · have := List.find?_eq_none.1 h i hm
    simpa using this
  · unfold Table.get; simpa [lookupIx_none hm] using hd

theorem Table.nodup_keys (d : α) (t : Table n α) (h : t.wf d = true) : (t.entries.map (·.1)).Nodup := by
  have hp := ((canonical_iff d t.entries).1 h).1
  exact (List.pairwise_map.2 hp).imp fun h => ne_of_lt h

/-- The count of a canonical table is the number of indices whose value satisfies the test. -/
theorem Table.count_eq_card (d : α) (t : Table n α) (p : α → Bool) (h : t.wf d = true) (hd : p d = false) :
    t.count d p = (Finset.univ.filter fun i => p (t.get d i) = true).card := by
  have hn := t.nodup_keys d h
  have : (Finset.univ.filter fun i => p (t.get d i) = true) =
      ((t.entries.map (·.1)).filter fun i => p (t.get d i)).toFinset := by
    ext i
    simp only [Finset.mem_filter, Finset.mem_univ, true_and, List.mem_toFinset, List.mem_filter]
    refine ⟨fun hi => ⟨?_, hi⟩, fun hi => hi.2⟩
    by_contra hk
    have : t.get d i = d := by unfold Table.get; rw [lookupIx_none hk]; rfl
    rw [this, hd] at hi; cases hi
  rw [this, List.toFinset_card_of_nodup (hn.filter _), Table.count, List.countP_eq_length_filter]

/-- A table in which the test holds wherever it held counts as many. -/
theorem Table.count_mono (d : α) (t u : Table n α) (p : α → Bool) (ht : t.wf d = true) (hu : u.wf d = true)
    (hd : p d = false) (h : ∀ i, p (t.get d i) = true → p (u.get d i) = true) : t.count d p ≤ u.count d p := by
  rw [t.count_eq_card d p ht hd, u.count_eq_card d p hu hd]
  exact Finset.card_le_card fun i hi => by
    simp only [Finset.mem_filter, Finset.mem_univ, true_and] at hi ⊢
    exact h i hi

/-- A table in which the test holds at one more index at most counts at most one more. -/
theorem Table.count_succ (d : α) (t u : Table n α) (p : α → Bool) (ht : t.wf d = true) (hu : u.wf d = true)
    (hd : p d = false) (x : Fin n) (h : ∀ i, p (u.get d i) = true → p (t.get d i) = true ∨ i = x) :
    u.count d p ≤ t.count d p + 1 := by
  rw [t.count_eq_card d p ht hd, u.count_eq_card d p hu hd]
  refine (Finset.card_le_card fun i hi => ?_).trans (Finset.card_insert_le x _)
  simp only [Finset.mem_filter, Finset.mem_univ, true_and, Finset.mem_insert] at hi ⊢
  exact (h i hi).symm

end Sys2Proof.Machine
end

