-- ==== Sys2Proof/Laws/State.lean ====
section
/-! SUPPORT. What each update of the state leaves: one lemma for each field and each reader, so that no proof unfolds an
update. -/

namespace Sys2Proof.Machine

variable (s : State)

@[simp] theorem State.setPort_now (p : PortIx) (v : CellPort) : (s.setPort p v).now = s.now := rfl
@[simp] theorem State.setPort_counters (p : PortIx) (v : CellPort) : (s.setPort p v).counters = s.counters := rfl
@[simp] theorem State.setPort_trunk (p : PortIx) (v : CellPort) : (s.setPort p v).trunk = s.trunk := rfl
@[simp] theorem State.setPort_mgmtNow (p : PortIx) (v : CellPort) : (s.setPort p v).mgmtNow = s.mgmtNow := rfl
@[simp] theorem State.setPort_mgmtMuted (p : PortIx) (v : CellPort) : (s.setPort p v).mgmtMuted = s.mgmtMuted := rfl
@[simp] theorem State.setPort_records (p : PortIx) (v : CellPort) : (s.setPort p v).records = s.records := rfl
@[simp] theorem State.setPort_filters (p : PortIx) (v : CellPort) : (s.setPort p v).filters = s.filters := rfl
@[simp] theorem State.setPort_notices (p : PortIx) (v : CellPort) : (s.setPort p v).notices = s.notices := rfl
@[simp] theorem State.setPort_zones (p : PortIx) (v : CellPort) : (s.setPort p v).zones = s.zones := rfl
@[simp] theorem State.setPort_gates (p : PortIx) (v : CellPort) : (s.setPort p v).gates = s.gates := rfl
@[simp] theorem State.setPort_cells (p : PortIx) (v : CellPort) : (s.setPort p v).cells = s.cells := rfl
@[simp] theorem State.setPort_calls (p : PortIx) (v : CellPort) : (s.setPort p v).calls = s.calls := rfl
@[simp] theorem State.setPort_hrq (p : PortIx) (v : CellPort) : (s.setPort p v).hrq = s.hrq := rfl
@[simp] theorem State.setPort_answers (p : PortIx) (v : CellPort) : (s.setPort p v).answers = s.answers := rfl
@[simp] theorem State.setPort_txnCounter (p : PortIx) (v : CellPort) : (s.setPort p v).txnCounter = s.txnCounter := rfl
@[simp] theorem State.setPort_hold (p : PortIx) (v : CellPort) : (s.setPort p v).hold = s.hold := rfl
@[simp] theorem State.setPort_pages (p : PortIx) (v : CellPort) : (s.setPort p v).pages = s.pages := rfl
@[simp] theorem State.setPort_sweep (p : PortIx) (v : CellPort) : (s.setPort p v).sweep = s.sweep := rfl
@[simp] theorem State.setPort_config (p : PortIx) (v : CellPort) : (s.setPort p v).config = s.config := rfl
@[simp] theorem State.setPort_device (p : PortIx) (v : CellPort) : (s.setPort p v).device = s.device := rfl
@[simp] theorem State.setPort_pending (p : PortIx) (v : CellPort) : (s.setPort p v).pending = s.pending := rfl

@[simp] theorem State.setCounter_now (l : LinkIx) (v : PortCounters) : (s.setCounter l v).now = s.now := rfl
@[simp] theorem State.setCounter_ports (l : LinkIx) (v : PortCounters) : (s.setCounter l v).ports = s.ports := rfl
@[simp] theorem State.setCounter_trunk (l : LinkIx) (v : PortCounters) : (s.setCounter l v).trunk = s.trunk := rfl
@[simp] theorem State.setCounter_mgmtNow (l : LinkIx) (v : PortCounters) : (s.setCounter l v).mgmtNow = s.mgmtNow := rfl
@[simp] theorem State.setCounter_mgmtMuted (l : LinkIx) (v : PortCounters) : (s.setCounter l v).mgmtMuted = s.mgmtMuted := rfl
@[simp] theorem State.setCounter_records (l : LinkIx) (v : PortCounters) : (s.setCounter l v).records = s.records := rfl
@[simp] theorem State.setCounter_filters (l : LinkIx) (v : PortCounters) : (s.setCounter l v).filters = s.filters := rfl
@[simp] theorem State.setCounter_notices (l : LinkIx) (v : PortCounters) : (s.setCounter l v).notices = s.notices := rfl
@[simp] theorem State.setCounter_zones (l : LinkIx) (v : PortCounters) : (s.setCounter l v).zones = s.zones := rfl
@[simp] theorem State.setCounter_gates (l : LinkIx) (v : PortCounters) : (s.setCounter l v).gates = s.gates := rfl
@[simp] theorem State.setCounter_cells (l : LinkIx) (v : PortCounters) : (s.setCounter l v).cells = s.cells := rfl
@[simp] theorem State.setCounter_calls (l : LinkIx) (v : PortCounters) : (s.setCounter l v).calls = s.calls := rfl
@[simp] theorem State.setCounter_hrq (l : LinkIx) (v : PortCounters) : (s.setCounter l v).hrq = s.hrq := rfl
@[simp] theorem State.setCounter_answers (l : LinkIx) (v : PortCounters) : (s.setCounter l v).answers = s.answers := rfl
@[simp] theorem State.setCounter_txnCounter (l : LinkIx) (v : PortCounters) : (s.setCounter l v).txnCounter = s.txnCounter := rfl
@[simp] theorem State.setCounter_hold (l : LinkIx) (v : PortCounters) : (s.setCounter l v).hold = s.hold := rfl
@[simp] theorem State.setCounter_pages (l : LinkIx) (v : PortCounters) : (s.setCounter l v).pages = s.pages := rfl
@[simp] theorem State.setCounter_sweep (l : LinkIx) (v : PortCounters) : (s.setCounter l v).sweep = s.sweep := rfl
@[simp] theorem State.setCounter_config (l : LinkIx) (v : PortCounters) : (s.setCounter l v).config = s.config := rfl
@[simp] theorem State.setCounter_device (l : LinkIx) (v : PortCounters) : (s.setCounter l v).device = s.device := rfl
@[simp] theorem State.setCounter_pending (l : LinkIx) (v : PortCounters) : (s.setCounter l v).pending = s.pending := rfl

@[simp] theorem State.setRecord_now (i : RecIx) (v : Record) : (s.setRecord i v).now = s.now := rfl
@[simp] theorem State.setRecord_ports (i : RecIx) (v : Record) : (s.setRecord i v).ports = s.ports := rfl
@[simp] theorem State.setRecord_counters (i : RecIx) (v : Record) : (s.setRecord i v).counters = s.counters := rfl
@[simp] theorem State.setRecord_trunk (i : RecIx) (v : Record) : (s.setRecord i v).trunk = s.trunk := rfl
@[simp] theorem State.setRecord_mgmtNow (i : RecIx) (v : Record) : (s.setRecord i v).mgmtNow = s.mgmtNow := rfl
@[simp] theorem State.setRecord_mgmtMuted (i : RecIx) (v : Record) : (s.setRecord i v).mgmtMuted = s.mgmtMuted := rfl
@[simp] theorem State.setRecord_filters (i : RecIx) (v : Record) : (s.setRecord i v).filters = s.filters := rfl
@[simp] theorem State.setRecord_notices (i : RecIx) (v : Record) : (s.setRecord i v).notices = s.notices := rfl
@[simp] theorem State.setRecord_zones (i : RecIx) (v : Record) : (s.setRecord i v).zones = s.zones := rfl
@[simp] theorem State.setRecord_gates (i : RecIx) (v : Record) : (s.setRecord i v).gates = s.gates := rfl
@[simp] theorem State.setRecord_cells (i : RecIx) (v : Record) : (s.setRecord i v).cells = s.cells := rfl
@[simp] theorem State.setRecord_calls (i : RecIx) (v : Record) : (s.setRecord i v).calls = s.calls := rfl
@[simp] theorem State.setRecord_hrq (i : RecIx) (v : Record) : (s.setRecord i v).hrq = s.hrq := rfl
@[simp] theorem State.setRecord_answers (i : RecIx) (v : Record) : (s.setRecord i v).answers = s.answers := rfl
@[simp] theorem State.setRecord_txnCounter (i : RecIx) (v : Record) : (s.setRecord i v).txnCounter = s.txnCounter := rfl
@[simp] theorem State.setRecord_hold (i : RecIx) (v : Record) : (s.setRecord i v).hold = s.hold := rfl
@[simp] theorem State.setRecord_pages (i : RecIx) (v : Record) : (s.setRecord i v).pages = s.pages := rfl
@[simp] theorem State.setRecord_sweep (i : RecIx) (v : Record) : (s.setRecord i v).sweep = s.sweep := rfl
@[simp] theorem State.setRecord_config (i : RecIx) (v : Record) : (s.setRecord i v).config = s.config := rfl
@[simp] theorem State.setRecord_device (i : RecIx) (v : Record) : (s.setRecord i v).device = s.device := rfl
@[simp] theorem State.setRecord_pending (i : RecIx) (v : Record) : (s.setRecord i v).pending = s.pending := rfl

@[simp] theorem State.setFilter_now (f : FilterIx) (v : Filter) : (s.setFilter f v).now = s.now := rfl
@[simp] theorem State.setFilter_ports (f : FilterIx) (v : Filter) : (s.setFilter f v).ports = s.ports := rfl
@[simp] theorem State.setFilter_counters (f : FilterIx) (v : Filter) : (s.setFilter f v).counters = s.counters := rfl
@[simp] theorem State.setFilter_trunk (f : FilterIx) (v : Filter) : (s.setFilter f v).trunk = s.trunk := rfl
@[simp] theorem State.setFilter_mgmtNow (f : FilterIx) (v : Filter) : (s.setFilter f v).mgmtNow = s.mgmtNow := rfl
@[simp] theorem State.setFilter_mgmtMuted (f : FilterIx) (v : Filter) : (s.setFilter f v).mgmtMuted = s.mgmtMuted := rfl
@[simp] theorem State.setFilter_records (f : FilterIx) (v : Filter) : (s.setFilter f v).records = s.records := rfl
@[simp] theorem State.setFilter_notices (f : FilterIx) (v : Filter) : (s.setFilter f v).notices = s.notices := rfl
@[simp] theorem State.setFilter_zones (f : FilterIx) (v : Filter) : (s.setFilter f v).zones = s.zones := rfl
@[simp] theorem State.setFilter_gates (f : FilterIx) (v : Filter) : (s.setFilter f v).gates = s.gates := rfl
@[simp] theorem State.setFilter_cells (f : FilterIx) (v : Filter) : (s.setFilter f v).cells = s.cells := rfl
@[simp] theorem State.setFilter_calls (f : FilterIx) (v : Filter) : (s.setFilter f v).calls = s.calls := rfl
@[simp] theorem State.setFilter_hrq (f : FilterIx) (v : Filter) : (s.setFilter f v).hrq = s.hrq := rfl
@[simp] theorem State.setFilter_answers (f : FilterIx) (v : Filter) : (s.setFilter f v).answers = s.answers := rfl
@[simp] theorem State.setFilter_txnCounter (f : FilterIx) (v : Filter) : (s.setFilter f v).txnCounter = s.txnCounter := rfl
@[simp] theorem State.setFilter_hold (f : FilterIx) (v : Filter) : (s.setFilter f v).hold = s.hold := rfl
@[simp] theorem State.setFilter_pages (f : FilterIx) (v : Filter) : (s.setFilter f v).pages = s.pages := rfl
@[simp] theorem State.setFilter_sweep (f : FilterIx) (v : Filter) : (s.setFilter f v).sweep = s.sweep := rfl
@[simp] theorem State.setFilter_config (f : FilterIx) (v : Filter) : (s.setFilter f v).config = s.config := rfl
@[simp] theorem State.setFilter_device (f : FilterIx) (v : Filter) : (s.setFilter f v).device = s.device := rfl
@[simp] theorem State.setFilter_pending (f : FilterIx) (v : Filter) : (s.setFilter f v).pending = s.pending := rfl

@[simp] theorem State.setZone_now (z : ZoneIx) (v : Zone) : (s.setZone z v).now = s.now := rfl
@[simp] theorem State.setZone_ports (z : ZoneIx) (v : Zone) : (s.setZone z v).ports = s.ports := rfl
@[simp] theorem State.setZone_counters (z : ZoneIx) (v : Zone) : (s.setZone z v).counters = s.counters := rfl
@[simp] theorem State.setZone_trunk (z : ZoneIx) (v : Zone) : (s.setZone z v).trunk = s.trunk := rfl
@[simp] theorem State.setZone_mgmtNow (z : ZoneIx) (v : Zone) : (s.setZone z v).mgmtNow = s.mgmtNow := rfl
@[simp] theorem State.setZone_mgmtMuted (z : ZoneIx) (v : Zone) : (s.setZone z v).mgmtMuted = s.mgmtMuted := rfl
@[simp] theorem State.setZone_records (z : ZoneIx) (v : Zone) : (s.setZone z v).records = s.records := rfl
@[simp] theorem State.setZone_filters (z : ZoneIx) (v : Zone) : (s.setZone z v).filters = s.filters := rfl
@[simp] theorem State.setZone_notices (z : ZoneIx) (v : Zone) : (s.setZone z v).notices = s.notices := rfl
@[simp] theorem State.setZone_gates (z : ZoneIx) (v : Zone) : (s.setZone z v).gates = s.gates := rfl
@[simp] theorem State.setZone_cells (z : ZoneIx) (v : Zone) : (s.setZone z v).cells = s.cells := rfl
@[simp] theorem State.setZone_calls (z : ZoneIx) (v : Zone) : (s.setZone z v).calls = s.calls := rfl
@[simp] theorem State.setZone_hrq (z : ZoneIx) (v : Zone) : (s.setZone z v).hrq = s.hrq := rfl
@[simp] theorem State.setZone_answers (z : ZoneIx) (v : Zone) : (s.setZone z v).answers = s.answers := rfl
@[simp] theorem State.setZone_txnCounter (z : ZoneIx) (v : Zone) : (s.setZone z v).txnCounter = s.txnCounter := rfl
@[simp] theorem State.setZone_hold (z : ZoneIx) (v : Zone) : (s.setZone z v).hold = s.hold := rfl
@[simp] theorem State.setZone_pages (z : ZoneIx) (v : Zone) : (s.setZone z v).pages = s.pages := rfl
@[simp] theorem State.setZone_sweep (z : ZoneIx) (v : Zone) : (s.setZone z v).sweep = s.sweep := rfl
@[simp] theorem State.setZone_config (z : ZoneIx) (v : Zone) : (s.setZone z v).config = s.config := rfl
@[simp] theorem State.setZone_device (z : ZoneIx) (v : Zone) : (s.setZone z v).device = s.device := rfl
@[simp] theorem State.setZone_pending (z : ZoneIx) (v : Zone) : (s.setZone z v).pending = s.pending := rfl

@[simp] theorem State.setGate_now (g : GateIx) (v : Gate) : (s.setGate g v).now = s.now := rfl
@[simp] theorem State.setGate_ports (g : GateIx) (v : Gate) : (s.setGate g v).ports = s.ports := rfl
@[simp] theorem State.setGate_counters (g : GateIx) (v : Gate) : (s.setGate g v).counters = s.counters := rfl
@[simp] theorem State.setGate_trunk (g : GateIx) (v : Gate) : (s.setGate g v).trunk = s.trunk := rfl
@[simp] theorem State.setGate_mgmtNow (g : GateIx) (v : Gate) : (s.setGate g v).mgmtNow = s.mgmtNow := rfl
@[simp] theorem State.setGate_mgmtMuted (g : GateIx) (v : Gate) : (s.setGate g v).mgmtMuted = s.mgmtMuted := rfl
@[simp] theorem State.setGate_records (g : GateIx) (v : Gate) : (s.setGate g v).records = s.records := rfl
@[simp] theorem State.setGate_filters (g : GateIx) (v : Gate) : (s.setGate g v).filters = s.filters := rfl
@[simp] theorem State.setGate_notices (g : GateIx) (v : Gate) : (s.setGate g v).notices = s.notices := rfl
@[simp] theorem State.setGate_zones (g : GateIx) (v : Gate) : (s.setGate g v).zones = s.zones := rfl
@[simp] theorem State.setGate_cells (g : GateIx) (v : Gate) : (s.setGate g v).cells = s.cells := rfl
@[simp] theorem State.setGate_calls (g : GateIx) (v : Gate) : (s.setGate g v).calls = s.calls := rfl
@[simp] theorem State.setGate_hrq (g : GateIx) (v : Gate) : (s.setGate g v).hrq = s.hrq := rfl
@[simp] theorem State.setGate_answers (g : GateIx) (v : Gate) : (s.setGate g v).answers = s.answers := rfl
@[simp] theorem State.setGate_txnCounter (g : GateIx) (v : Gate) : (s.setGate g v).txnCounter = s.txnCounter := rfl
@[simp] theorem State.setGate_hold (g : GateIx) (v : Gate) : (s.setGate g v).hold = s.hold := rfl
@[simp] theorem State.setGate_pages (g : GateIx) (v : Gate) : (s.setGate g v).pages = s.pages := rfl
@[simp] theorem State.setGate_sweep (g : GateIx) (v : Gate) : (s.setGate g v).sweep = s.sweep := rfl
@[simp] theorem State.setGate_config (g : GateIx) (v : Gate) : (s.setGate g v).config = s.config := rfl
@[simp] theorem State.setGate_device (g : GateIx) (v : Gate) : (s.setGate g v).device = s.device := rfl
@[simp] theorem State.setGate_pending (g : GateIx) (v : Gate) : (s.setGate g v).pending = s.pending := rfl

@[simp] theorem State.setCell_now (c : CellIx) (v : CellRec) : (s.setCell c v).now = s.now := rfl
@[simp] theorem State.setCell_ports (c : CellIx) (v : CellRec) : (s.setCell c v).ports = s.ports := rfl
@[simp] theorem State.setCell_counters (c : CellIx) (v : CellRec) : (s.setCell c v).counters = s.counters := rfl
@[simp] theorem State.setCell_trunk (c : CellIx) (v : CellRec) : (s.setCell c v).trunk = s.trunk := rfl
@[simp] theorem State.setCell_mgmtNow (c : CellIx) (v : CellRec) : (s.setCell c v).mgmtNow = s.mgmtNow := rfl
@[simp] theorem State.setCell_mgmtMuted (c : CellIx) (v : CellRec) : (s.setCell c v).mgmtMuted = s.mgmtMuted := rfl
@[simp] theorem State.setCell_records (c : CellIx) (v : CellRec) : (s.setCell c v).records = s.records := rfl
@[simp] theorem State.setCell_filters (c : CellIx) (v : CellRec) : (s.setCell c v).filters = s.filters := rfl
@[simp] theorem State.setCell_notices (c : CellIx) (v : CellRec) : (s.setCell c v).notices = s.notices := rfl
@[simp] theorem State.setCell_zones (c : CellIx) (v : CellRec) : (s.setCell c v).zones = s.zones := rfl
@[simp] theorem State.setCell_gates (c : CellIx) (v : CellRec) : (s.setCell c v).gates = s.gates := rfl
@[simp] theorem State.setCell_calls (c : CellIx) (v : CellRec) : (s.setCell c v).calls = s.calls := rfl
@[simp] theorem State.setCell_hrq (c : CellIx) (v : CellRec) : (s.setCell c v).hrq = s.hrq := rfl
@[simp] theorem State.setCell_answers (c : CellIx) (v : CellRec) : (s.setCell c v).answers = s.answers := rfl
@[simp] theorem State.setCell_txnCounter (c : CellIx) (v : CellRec) : (s.setCell c v).txnCounter = s.txnCounter := rfl
@[simp] theorem State.setCell_hold (c : CellIx) (v : CellRec) : (s.setCell c v).hold = s.hold := rfl
@[simp] theorem State.setCell_pages (c : CellIx) (v : CellRec) : (s.setCell c v).pages = s.pages := rfl
@[simp] theorem State.setCell_sweep (c : CellIx) (v : CellRec) : (s.setCell c v).sweep = s.sweep := rfl
@[simp] theorem State.setCell_config (c : CellIx) (v : CellRec) : (s.setCell c v).config = s.config := rfl
@[simp] theorem State.setCell_device (c : CellIx) (v : CellRec) : (s.setCell c v).device = s.device := rfl
@[simp] theorem State.setCell_pending (c : CellIx) (v : CellRec) : (s.setCell c v).pending = s.pending := rfl

@[simp] theorem State.setCall_now (x : Channel) (v : Option Call) : (s.setCall x v).now = s.now := rfl
@[simp] theorem State.setCall_ports (x : Channel) (v : Option Call) : (s.setCall x v).ports = s.ports := rfl
@[simp] theorem State.setCall_counters (x : Channel) (v : Option Call) : (s.setCall x v).counters = s.counters := rfl
@[simp] theorem State.setCall_trunk (x : Channel) (v : Option Call) : (s.setCall x v).trunk = s.trunk := rfl
@[simp] theorem State.setCall_mgmtNow (x : Channel) (v : Option Call) : (s.setCall x v).mgmtNow = s.mgmtNow := rfl
@[simp] theorem State.setCall_mgmtMuted (x : Channel) (v : Option Call) : (s.setCall x v).mgmtMuted = s.mgmtMuted := rfl
@[simp] theorem State.setCall_records (x : Channel) (v : Option Call) : (s.setCall x v).records = s.records := rfl
@[simp] theorem State.setCall_filters (x : Channel) (v : Option Call) : (s.setCall x v).filters = s.filters := rfl
@[simp] theorem State.setCall_notices (x : Channel) (v : Option Call) : (s.setCall x v).notices = s.notices := rfl
@[simp] theorem State.setCall_zones (x : Channel) (v : Option Call) : (s.setCall x v).zones = s.zones := rfl
@[simp] theorem State.setCall_gates (x : Channel) (v : Option Call) : (s.setCall x v).gates = s.gates := rfl
@[simp] theorem State.setCall_cells (x : Channel) (v : Option Call) : (s.setCall x v).cells = s.cells := rfl
@[simp] theorem State.setCall_hrq (x : Channel) (v : Option Call) : (s.setCall x v).hrq = s.hrq := rfl
@[simp] theorem State.setCall_answers (x : Channel) (v : Option Call) : (s.setCall x v).answers = s.answers := rfl
@[simp] theorem State.setCall_txnCounter (x : Channel) (v : Option Call) : (s.setCall x v).txnCounter = s.txnCounter := rfl
@[simp] theorem State.setCall_hold (x : Channel) (v : Option Call) : (s.setCall x v).hold = s.hold := rfl
@[simp] theorem State.setCall_pages (x : Channel) (v : Option Call) : (s.setCall x v).pages = s.pages := rfl
@[simp] theorem State.setCall_sweep (x : Channel) (v : Option Call) : (s.setCall x v).sweep = s.sweep := rfl
@[simp] theorem State.setCall_config (x : Channel) (v : Option Call) : (s.setCall x v).config = s.config := rfl
@[simp] theorem State.setCall_device (x : Channel) (v : Option Call) : (s.setCall x v).device = s.device := rfl
@[simp] theorem State.setCall_pending (x : Channel) (v : Option Call) : (s.setCall x v).pending = s.pending := rfl

@[simp] theorem State.setPage_now (e : PageIx) (v : Option PageEntry) : (s.setPage e v).now = s.now := rfl
@[simp] theorem State.setPage_ports (e : PageIx) (v : Option PageEntry) : (s.setPage e v).ports = s.ports := rfl
@[simp] theorem State.setPage_counters (e : PageIx) (v : Option PageEntry) : (s.setPage e v).counters = s.counters := rfl
@[simp] theorem State.setPage_trunk (e : PageIx) (v : Option PageEntry) : (s.setPage e v).trunk = s.trunk := rfl
@[simp] theorem State.setPage_mgmtNow (e : PageIx) (v : Option PageEntry) : (s.setPage e v).mgmtNow = s.mgmtNow := rfl
@[simp] theorem State.setPage_mgmtMuted (e : PageIx) (v : Option PageEntry) : (s.setPage e v).mgmtMuted = s.mgmtMuted := rfl
@[simp] theorem State.setPage_records (e : PageIx) (v : Option PageEntry) : (s.setPage e v).records = s.records := rfl
@[simp] theorem State.setPage_filters (e : PageIx) (v : Option PageEntry) : (s.setPage e v).filters = s.filters := rfl
@[simp] theorem State.setPage_notices (e : PageIx) (v : Option PageEntry) : (s.setPage e v).notices = s.notices := rfl
@[simp] theorem State.setPage_zones (e : PageIx) (v : Option PageEntry) : (s.setPage e v).zones = s.zones := rfl
@[simp] theorem State.setPage_gates (e : PageIx) (v : Option PageEntry) : (s.setPage e v).gates = s.gates := rfl
@[simp] theorem State.setPage_cells (e : PageIx) (v : Option PageEntry) : (s.setPage e v).cells = s.cells := rfl
@[simp] theorem State.setPage_calls (e : PageIx) (v : Option PageEntry) : (s.setPage e v).calls = s.calls := rfl
@[simp] theorem State.setPage_hrq (e : PageIx) (v : Option PageEntry) : (s.setPage e v).hrq = s.hrq := rfl
@[simp] theorem State.setPage_answers (e : PageIx) (v : Option PageEntry) : (s.setPage e v).answers = s.answers := rfl
@[simp] theorem State.setPage_txnCounter (e : PageIx) (v : Option PageEntry) : (s.setPage e v).txnCounter = s.txnCounter := rfl
@[simp] theorem State.setPage_hold (e : PageIx) (v : Option PageEntry) : (s.setPage e v).hold = s.hold := rfl
@[simp] theorem State.setPage_sweep (e : PageIx) (v : Option PageEntry) : (s.setPage e v).sweep = s.sweep := rfl
@[simp] theorem State.setPage_config (e : PageIx) (v : Option PageEntry) : (s.setPage e v).config = s.config := rfl
@[simp] theorem State.setPage_device (e : PageIx) (v : Option PageEntry) : (s.setPage e v).device = s.device := rfl
@[simp] theorem State.setPage_pending (e : PageIx) (v : Option PageEntry) : (s.setPage e v).pending = s.pending := rfl

@[simp] theorem State.modCall_now (x : Channel) (f : Call → Call) : (s.modCall x f).now = s.now := rfl
@[simp] theorem State.modCall_ports (x : Channel) (f : Call → Call) : (s.modCall x f).ports = s.ports := rfl
@[simp] theorem State.modCall_counters (x : Channel) (f : Call → Call) : (s.modCall x f).counters = s.counters := rfl
@[simp] theorem State.modCall_trunk (x : Channel) (f : Call → Call) : (s.modCall x f).trunk = s.trunk := rfl
@[simp] theorem State.modCall_mgmtNow (x : Channel) (f : Call → Call) : (s.modCall x f).mgmtNow = s.mgmtNow := rfl
@[simp] theorem State.modCall_mgmtMuted (x : Channel) (f : Call → Call) : (s.modCall x f).mgmtMuted = s.mgmtMuted := rfl
@[simp] theorem State.modCall_records (x : Channel) (f : Call → Call) : (s.modCall x f).records = s.records := rfl
@[simp] theorem State.modCall_filters (x : Channel) (f : Call → Call) : (s.modCall x f).filters = s.filters := rfl
@[simp] theorem State.modCall_notices (x : Channel) (f : Call → Call) : (s.modCall x f).notices = s.notices := rfl
@[simp] theorem State.modCall_zones (x : Channel) (f : Call → Call) : (s.modCall x f).zones = s.zones := rfl
@[simp] theorem State.modCall_gates (x : Channel) (f : Call → Call) : (s.modCall x f).gates = s.gates := rfl
@[simp] theorem State.modCall_cells (x : Channel) (f : Call → Call) : (s.modCall x f).cells = s.cells := rfl
@[simp] theorem State.modCall_hrq (x : Channel) (f : Call → Call) : (s.modCall x f).hrq = s.hrq := rfl
@[simp] theorem State.modCall_answers (x : Channel) (f : Call → Call) : (s.modCall x f).answers = s.answers := rfl
@[simp] theorem State.modCall_txnCounter (x : Channel) (f : Call → Call) : (s.modCall x f).txnCounter = s.txnCounter := rfl
@[simp] theorem State.modCall_hold (x : Channel) (f : Call → Call) : (s.modCall x f).hold = s.hold := rfl
@[simp] theorem State.modCall_pages (x : Channel) (f : Call → Call) : (s.modCall x f).pages = s.pages := rfl
@[simp] theorem State.modCall_sweep (x : Channel) (f : Call → Call) : (s.modCall x f).sweep = s.sweep := rfl
@[simp] theorem State.modCall_config (x : Channel) (f : Call → Call) : (s.modCall x f).config = s.config := rfl
@[simp] theorem State.modCall_device (x : Channel) (f : Call → Call) : (s.modCall x f).device = s.device := rfl
@[simp] theorem State.modCall_pending (x : Channel) (f : Call → Call) : (s.modCall x f).pending = s.pending := rfl

@[simp] theorem State.count_now (f : DeviceCounters → DeviceCounters) : (s.count f).now = s.now := rfl
@[simp] theorem State.count_ports (f : DeviceCounters → DeviceCounters) : (s.count f).ports = s.ports := rfl
@[simp] theorem State.count_counters (f : DeviceCounters → DeviceCounters) : (s.count f).counters = s.counters := rfl
@[simp] theorem State.count_trunk (f : DeviceCounters → DeviceCounters) : (s.count f).trunk = s.trunk := rfl
@[simp] theorem State.count_mgmtNow (f : DeviceCounters → DeviceCounters) : (s.count f).mgmtNow = s.mgmtNow := rfl
@[simp] theorem State.count_mgmtMuted (f : DeviceCounters → DeviceCounters) : (s.count f).mgmtMuted = s.mgmtMuted := rfl
@[simp] theorem State.count_records (f : DeviceCounters → DeviceCounters) : (s.count f).records = s.records := rfl
@[simp] theorem State.count_filters (f : DeviceCounters → DeviceCounters) : (s.count f).filters = s.filters := rfl
@[simp] theorem State.count_notices (f : DeviceCounters → DeviceCounters) : (s.count f).notices = s.notices := rfl
@[simp] theorem State.count_zones (f : DeviceCounters → DeviceCounters) : (s.count f).zones = s.zones := rfl
@[simp] theorem State.count_gates (f : DeviceCounters → DeviceCounters) : (s.count f).gates = s.gates := rfl
@[simp] theorem State.count_cells (f : DeviceCounters → DeviceCounters) : (s.count f).cells = s.cells := rfl
@[simp] theorem State.count_calls (f : DeviceCounters → DeviceCounters) : (s.count f).calls = s.calls := rfl
@[simp] theorem State.count_hrq (f : DeviceCounters → DeviceCounters) : (s.count f).hrq = s.hrq := rfl
@[simp] theorem State.count_answers (f : DeviceCounters → DeviceCounters) : (s.count f).answers = s.answers := rfl
@[simp] theorem State.count_txnCounter (f : DeviceCounters → DeviceCounters) : (s.count f).txnCounter = s.txnCounter := rfl
@[simp] theorem State.count_hold (f : DeviceCounters → DeviceCounters) : (s.count f).hold = s.hold := rfl
@[simp] theorem State.count_pages (f : DeviceCounters → DeviceCounters) : (s.count f).pages = s.pages := rfl
@[simp] theorem State.count_sweep (f : DeviceCounters → DeviceCounters) : (s.count f).sweep = s.sweep := rfl
@[simp] theorem State.count_config (f : DeviceCounters → DeviceCounters) : (s.count f).config = s.config := rfl
@[simp] theorem State.count_pending (f : DeviceCounters → DeviceCounters) : (s.count f).pending = s.pending := rfl

@[simp] theorem State.count_device (f : DeviceCounters → DeviceCounters) : (s.count f).device = f s.device := rfl

@[simp] theorem State.setCounter_port (l : LinkIx) (v : PortCounters) (j : PortIx) : (s.setCounter l v).port j = s.port j := rfl
@[simp] theorem State.setRecord_port (i : RecIx) (v : Record) (j : PortIx) : (s.setRecord i v).port j = s.port j := rfl
@[simp] theorem State.setFilter_port (f : FilterIx) (v : Filter) (j : PortIx) : (s.setFilter f v).port j = s.port j := rfl
@[simp] theorem State.setZone_port (z : ZoneIx) (v : Zone) (j : PortIx) : (s.setZone z v).port j = s.port j := rfl
@[simp] theorem State.setGate_port (g : GateIx) (v : Gate) (j : PortIx) : (s.setGate g v).port j = s.port j := rfl
@[simp] theorem State.setCell_port (c : CellIx) (v : CellRec) (j : PortIx) : (s.setCell c v).port j = s.port j := rfl
@[simp] theorem State.setCall_port (x : Channel) (v : Option Call) (j : PortIx) : (s.setCall x v).port j = s.port j := rfl
@[simp] theorem State.setPage_port (e : PageIx) (v : Option PageEntry) (j : PortIx) : (s.setPage e v).port j = s.port j := rfl
@[simp] theorem State.modCall_port (x : Channel) (f : Call → Call) (j : PortIx) : (s.modCall x f).port j = s.port j := rfl
@[simp] theorem State.count_port (f : DeviceCounters → DeviceCounters) (j : PortIx) : (s.count f).port j = s.port j := rfl

@[simp] theorem State.setPort_counter (p : PortIx) (v : CellPort) (j : LinkIx) : (s.setPort p v).counter j = s.counter j := rfl
@[simp] theorem State.setRecord_counter (i : RecIx) (v : Record) (j : LinkIx) : (s.setRecord i v).counter j = s.counter j := rfl
@[simp] theorem State.setFilter_counter (f : FilterIx) (v : Filter) (j : LinkIx) : (s.setFilter f v).counter j = s.counter j := rfl
@[simp] theorem State.setZone_counter (z : ZoneIx) (v : Zone) (j : LinkIx) : (s.setZone z v).counter j = s.counter j := rfl
@[simp] theorem State.setGate_counter (g : GateIx) (v : Gate) (j : LinkIx) : (s.setGate g v).counter j = s.counter j := rfl
@[simp] theorem State.setCell_counter (c : CellIx) (v : CellRec) (j : LinkIx) : (s.setCell c v).counter j = s.counter j := rfl
@[simp] theorem State.setCall_counter (x : Channel) (v : Option Call) (j : LinkIx) : (s.setCall x v).counter j = s.counter j := rfl
@[simp] theorem State.setPage_counter (e : PageIx) (v : Option PageEntry) (j : LinkIx) : (s.setPage e v).counter j = s.counter j := rfl
@[simp] theorem State.modCall_counter (x : Channel) (f : Call → Call) (j : LinkIx) : (s.modCall x f).counter j = s.counter j := rfl
@[simp] theorem State.count_counter (f : DeviceCounters → DeviceCounters) (j : LinkIx) : (s.count f).counter j = s.counter j := rfl

@[simp] theorem State.setPort_record (p : PortIx) (v : CellPort) (j : RecIx) : (s.setPort p v).record j = s.record j := rfl
@[simp] theorem State.setCounter_record (l : LinkIx) (v : PortCounters) (j : RecIx) : (s.setCounter l v).record j = s.record j := rfl
@[simp] theorem State.setFilter_record (f : FilterIx) (v : Filter) (j : RecIx) : (s.setFilter f v).record j = s.record j := rfl
@[simp] theorem State.setZone_record (z : ZoneIx) (v : Zone) (j : RecIx) : (s.setZone z v).record j = s.record j := rfl
@[simp] theorem State.setGate_record (g : GateIx) (v : Gate) (j : RecIx) : (s.setGate g v).record j = s.record j := rfl
@[simp] theorem State.setCell_record (c : CellIx) (v : CellRec) (j : RecIx) : (s.setCell c v).record j = s.record j := rfl
@[simp] theorem State.setCall_record (x : Channel) (v : Option Call) (j : RecIx) : (s.setCall x v).record j = s.record j := rfl
@[simp] theorem State.setPage_record (e : PageIx) (v : Option PageEntry) (j : RecIx) : (s.setPage e v).record j = s.record j := rfl
@[simp] theorem State.modCall_record (x : Channel) (f : Call → Call) (j : RecIx) : (s.modCall x f).record j = s.record j := rfl
@[simp] theorem State.count_record (f : DeviceCounters → DeviceCounters) (j : RecIx) : (s.count f).record j = s.record j := rfl

@[simp] theorem State.setPort_filter (p : PortIx) (v : CellPort) (j : FilterIx) : (s.setPort p v).filter j = s.filter j := rfl
@[simp] theorem State.setCounter_filter (l : LinkIx) (v : PortCounters) (j : FilterIx) : (s.setCounter l v).filter j = s.filter j := rfl
@[simp] theorem State.setRecord_filter (i : RecIx) (v : Record) (j : FilterIx) : (s.setRecord i v).filter j = s.filter j := rfl
@[simp] theorem State.setZone_filter (z : ZoneIx) (v : Zone) (j : FilterIx) : (s.setZone z v).filter j = s.filter j := rfl
@[simp] theorem State.setGate_filter (g : GateIx) (v : Gate) (j : FilterIx) : (s.setGate g v).filter j = s.filter j := rfl
@[simp] theorem State.setCell_filter (c : CellIx) (v : CellRec) (j : FilterIx) : (s.setCell c v).filter j = s.filter j := rfl
@[simp] theorem State.setCall_filter (x : Channel) (v : Option Call) (j : FilterIx) : (s.setCall x v).filter j = s.filter j := rfl
@[simp] theorem State.setPage_filter (e : PageIx) (v : Option PageEntry) (j : FilterIx) : (s.setPage e v).filter j = s.filter j := rfl
@[simp] theorem State.modCall_filter (x : Channel) (f : Call → Call) (j : FilterIx) : (s.modCall x f).filter j = s.filter j := rfl
@[simp] theorem State.count_filter (f : DeviceCounters → DeviceCounters) (j : FilterIx) : (s.count f).filter j = s.filter j := rfl

@[simp] theorem State.setPort_zone (p : PortIx) (v : CellPort) (j : ZoneIx) : (s.setPort p v).zone j = s.zone j := rfl
@[simp] theorem State.setCounter_zone (l : LinkIx) (v : PortCounters) (j : ZoneIx) : (s.setCounter l v).zone j = s.zone j := rfl
@[simp] theorem State.setRecord_zone (i : RecIx) (v : Record) (j : ZoneIx) : (s.setRecord i v).zone j = s.zone j := rfl
@[simp] theorem State.setFilter_zone (f : FilterIx) (v : Filter) (j : ZoneIx) : (s.setFilter f v).zone j = s.zone j := rfl
@[simp] theorem State.setGate_zone (g : GateIx) (v : Gate) (j : ZoneIx) : (s.setGate g v).zone j = s.zone j := rfl
@[simp] theorem State.setCell_zone (c : CellIx) (v : CellRec) (j : ZoneIx) : (s.setCell c v).zone j = s.zone j := rfl
@[simp] theorem State.setCall_zone (x : Channel) (v : Option Call) (j : ZoneIx) : (s.setCall x v).zone j = s.zone j := rfl
@[simp] theorem State.setPage_zone (e : PageIx) (v : Option PageEntry) (j : ZoneIx) : (s.setPage e v).zone j = s.zone j := rfl
@[simp] theorem State.modCall_zone (x : Channel) (f : Call → Call) (j : ZoneIx) : (s.modCall x f).zone j = s.zone j := rfl
@[simp] theorem State.count_zone (f : DeviceCounters → DeviceCounters) (j : ZoneIx) : (s.count f).zone j = s.zone j := rfl

@[simp] theorem State.setPort_gate (p : PortIx) (v : CellPort) (j : GateIx) : (s.setPort p v).gate j = s.gate j := rfl
@[simp] theorem State.setCounter_gate (l : LinkIx) (v : PortCounters) (j : GateIx) : (s.setCounter l v).gate j = s.gate j := rfl
@[simp] theorem State.setRecord_gate (i : RecIx) (v : Record) (j : GateIx) : (s.setRecord i v).gate j = s.gate j := rfl
@[simp] theorem State.setFilter_gate (f : FilterIx) (v : Filter) (j : GateIx) : (s.setFilter f v).gate j = s.gate j := rfl
@[simp] theorem State.setZone_gate (z : ZoneIx) (v : Zone) (j : GateIx) : (s.setZone z v).gate j = s.gate j := rfl
@[simp] theorem State.setCell_gate (c : CellIx) (v : CellRec) (j : GateIx) : (s.setCell c v).gate j = s.gate j := rfl
@[simp] theorem State.setCall_gate (x : Channel) (v : Option Call) (j : GateIx) : (s.setCall x v).gate j = s.gate j := rfl
@[simp] theorem State.setPage_gate (e : PageIx) (v : Option PageEntry) (j : GateIx) : (s.setPage e v).gate j = s.gate j := rfl
@[simp] theorem State.modCall_gate (x : Channel) (f : Call → Call) (j : GateIx) : (s.modCall x f).gate j = s.gate j := rfl
@[simp] theorem State.count_gate (f : DeviceCounters → DeviceCounters) (j : GateIx) : (s.count f).gate j = s.gate j := rfl

@[simp] theorem State.setPort_cell (p : PortIx) (v : CellPort) (j : CellIx) : (s.setPort p v).cell j = s.cell j := rfl
@[simp] theorem State.setCounter_cell (l : LinkIx) (v : PortCounters) (j : CellIx) : (s.setCounter l v).cell j = s.cell j := rfl
@[simp] theorem State.setRecord_cell (i : RecIx) (v : Record) (j : CellIx) : (s.setRecord i v).cell j = s.cell j := rfl
@[simp] theorem State.setFilter_cell (f : FilterIx) (v : Filter) (j : CellIx) : (s.setFilter f v).cell j = s.cell j := rfl
@[simp] theorem State.setZone_cell (z : ZoneIx) (v : Zone) (j : CellIx) : (s.setZone z v).cell j = s.cell j := rfl
@[simp] theorem State.setGate_cell (g : GateIx) (v : Gate) (j : CellIx) : (s.setGate g v).cell j = s.cell j := rfl
@[simp] theorem State.setCall_cell (x : Channel) (v : Option Call) (j : CellIx) : (s.setCall x v).cell j = s.cell j := rfl
@[simp] theorem State.setPage_cell (e : PageIx) (v : Option PageEntry) (j : CellIx) : (s.setPage e v).cell j = s.cell j := rfl
@[simp] theorem State.modCall_cell (x : Channel) (f : Call → Call) (j : CellIx) : (s.modCall x f).cell j = s.cell j := rfl
@[simp] theorem State.count_cell (f : DeviceCounters → DeviceCounters) (j : CellIx) : (s.count f).cell j = s.cell j := rfl

@[simp] theorem State.setPort_call (p : PortIx) (v : CellPort) (j : Channel) : (s.setPort p v).call j = s.call j := rfl
@[simp] theorem State.setCounter_call (l : LinkIx) (v : PortCounters) (j : Channel) : (s.setCounter l v).call j = s.call j := rfl
@[simp] theorem State.setRecord_call (i : RecIx) (v : Record) (j : Channel) : (s.setRecord i v).call j = s.call j := rfl
@[simp] theorem State.setFilter_call (f : FilterIx) (v : Filter) (j : Channel) : (s.setFilter f v).call j = s.call j := rfl
@[simp] theorem State.setZone_call (z : ZoneIx) (v : Zone) (j : Channel) : (s.setZone z v).call j = s.call j := rfl
@[simp] theorem State.setGate_call (g : GateIx) (v : Gate) (j : Channel) : (s.setGate g v).call j = s.call j := rfl
@[simp] theorem State.setCell_call (c : CellIx) (v : CellRec) (j : Channel) : (s.setCell c v).call j = s.call j := rfl
@[simp] theorem State.setPage_call (e : PageIx) (v : Option PageEntry) (j : Channel) : (s.setPage e v).call j = s.call j := rfl
@[simp] theorem State.count_call (f : DeviceCounters → DeviceCounters) (j : Channel) : (s.count f).call j = s.call j := rfl

@[simp] theorem State.setPort_page (p : PortIx) (v : CellPort) (j : PageIx) : (s.setPort p v).page j = s.page j := rfl
@[simp] theorem State.setCounter_page (l : LinkIx) (v : PortCounters) (j : PageIx) : (s.setCounter l v).page j = s.page j := rfl
@[simp] theorem State.setRecord_page (i : RecIx) (v : Record) (j : PageIx) : (s.setRecord i v).page j = s.page j := rfl
@[simp] theorem State.setFilter_page (f : FilterIx) (v : Filter) (j : PageIx) : (s.setFilter f v).page j = s.page j := rfl
@[simp] theorem State.setZone_page (z : ZoneIx) (v : Zone) (j : PageIx) : (s.setZone z v).page j = s.page j := rfl
@[simp] theorem State.setGate_page (g : GateIx) (v : Gate) (j : PageIx) : (s.setGate g v).page j = s.page j := rfl
@[simp] theorem State.setCell_page (c : CellIx) (v : CellRec) (j : PageIx) : (s.setCell c v).page j = s.page j := rfl
@[simp] theorem State.setCall_page (x : Channel) (v : Option Call) (j : PageIx) : (s.setCall x v).page j = s.page j := rfl
@[simp] theorem State.modCall_page (x : Channel) (f : Call → Call) (j : PageIx) : (s.modCall x f).page j = s.page j := rfl
@[simp] theorem State.count_page (f : DeviceCounters → DeviceCounters) (j : PageIx) : (s.count f).page j = s.page j := rfl

@[simp] theorem State.port_setPort_self (i : PortIx) (v : CellPort) : (s.setPort i v).port i = v :=
  Table.get_set_self _ _ _ _
theorem State.port_setPort_ne {i j : PortIx} (h : j ≠ i) (v : CellPort) : (s.setPort i v).port j = s.port j :=
  Table.get_set_ne _ _ h _
theorem State.port_setPort (i j : PortIx) (v : CellPort) : (s.setPort i v).port j = if j = i then v else s.port j :=
  Table.get_set _ _ _ _ _
@[simp] theorem State.setPort_port_same (i : PortIx) : s.setPort i (s.port i) = s := by
  simp [State.setPort, State.port]

@[simp] theorem State.counter_setCounter_self (i : LinkIx) (v : PortCounters) : (s.setCounter i v).counter i = v :=
  Table.get_set_self _ _ _ _
theorem State.counter_setCounter_ne {i j : LinkIx} (h : j ≠ i) (v : PortCounters) : (s.setCounter i v).counter j = s.counter j :=
  Table.get_set_ne _ _ h _
theorem State.counter_setCounter (i j : LinkIx) (v : PortCounters) : (s.setCounter i v).counter j = if j = i then v else s.counter j :=
  Table.get_set _ _ _ _ _
@[simp] theorem State.setCounter_counter_same (i : LinkIx) : s.setCounter i (s.counter i) = s := by
  simp [State.setCounter, State.counter]

@[simp] theorem State.record_setRecord_self (i : RecIx) (v : Record) : (s.setRecord i v).record i = v :=
  Table.get_set_self _ _ _ _
theorem State.record_setRecord_ne {i j : RecIx} (h : j ≠ i) (v : Record) : (s.setRecord i v).record j = s.record j :=
  Table.get_set_ne _ _ h _
theorem State.record_setRecord (i j : RecIx) (v : Record) : (s.setRecord i v).record j = if j = i then v else s.record j :=
  Table.get_set _ _ _ _ _
@[simp] theorem State.setRecord_record_same (i : RecIx) : s.setRecord i (s.record i) = s := by
  simp [State.setRecord, State.record]

@[simp] theorem State.filter_setFilter_self (i : FilterIx) (v : Filter) : (s.setFilter i v).filter i = v :=
  Table.get_set_self _ _ _ _
theorem State.filter_setFilter_ne {i j : FilterIx} (h : j ≠ i) (v : Filter) : (s.setFilter i v).filter j = s.filter j :=
  Table.get_set_ne _ _ h _
theorem State.filter_setFilter (i j : FilterIx) (v : Filter) : (s.setFilter i v).filter j = if j = i then v else s.filter j :=
  Table.get_set _ _ _ _ _
@[simp] theorem State.setFilter_filter_same (i : FilterIx) : s.setFilter i (s.filter i) = s := by
  simp [State.setFilter, State.filter]

@[simp] theorem State.zone_setZone_self (i : ZoneIx) (v : Zone) : (s.setZone i v).zone i = v :=
  Table.get_set_self _ _ _ _
theorem State.zone_setZone_ne {i j : ZoneIx} (h : j ≠ i) (v : Zone) : (s.setZone i v).zone j = s.zone j :=
  Table.get_set_ne _ _ h _
theorem State.zone_setZone (i j : ZoneIx) (v : Zone) : (s.setZone i v).zone j = if j = i then v else s.zone j :=
  Table.get_set _ _ _ _ _
@[simp] theorem State.setZone_zone_same (i : ZoneIx) : s.setZone i (s.zone i) = s := by
  simp [State.setZone, State.zone]

@[simp] theorem State.gate_setGate_self (i : GateIx) (v : Gate) : (s.setGate i v).gate i = v :=
  Table.get_set_self _ _ _ _
theorem State.gate_setGate_ne {i j : GateIx} (h : j ≠ i) (v : Gate) : (s.setGate i v).gate j = s.gate j :=
  Table.get_set_ne _ _ h _
theorem State.gate_setGate (i j : GateIx) (v : Gate) : (s.setGate i v).gate j = if j = i then v else s.gate j :=
  Table.get_set _ _ _ _ _
@[simp] theorem State.setGate_gate_same (i : GateIx) : s.setGate i (s.gate i) = s := by
  simp [State.setGate, State.gate]

@[simp] theorem State.cell_setCell_self (i : CellIx) (v : CellRec) : (s.setCell i v).cell i = v :=
  Table.get_set_self _ _ _ _
theorem State.cell_setCell_ne {i j : CellIx} (h : j ≠ i) (v : CellRec) : (s.setCell i v).cell j = s.cell j :=
  Table.get_set_ne _ _ h _
theorem State.cell_setCell (i j : CellIx) (v : CellRec) : (s.setCell i v).cell j = if j = i then v else s.cell j :=
  Table.get_set _ _ _ _ _
@[simp] theorem State.setCell_cell_same (i : CellIx) : s.setCell i (s.cell i) = s := by
  simp [State.setCell, State.cell]

@[simp] theorem State.call_setCall_self (i : Channel) (v : (Option Call)) : (s.setCall i v).call i = v :=
  Table.get_set_self _ _ _ _
theorem State.call_setCall_ne {i j : Channel} (h : j ≠ i) (v : (Option Call)) : (s.setCall i v).call j = s.call j :=
  Table.get_set_ne _ _ h _
theorem State.call_setCall (i j : Channel) (v : (Option Call)) : (s.setCall i v).call j = if j = i then v else s.call j :=
  Table.get_set _ _ _ _ _
@[simp] theorem State.setCall_call_same (i : Channel) : s.setCall i (s.call i) = s := by
  simp [State.setCall, State.call]

@[simp] theorem State.page_setPage_self (i : PageIx) (v : (Option PageEntry)) : (s.setPage i v).page i = v :=
  Table.get_set_self _ _ _ _
theorem State.page_setPage_ne {i j : PageIx} (h : j ≠ i) (v : (Option PageEntry)) : (s.setPage i v).page j = s.page j :=
  Table.get_set_ne _ _ h _
theorem State.page_setPage (i j : PageIx) (v : (Option PageEntry)) : (s.setPage i v).page j = if j = i then v else s.page j :=
  Table.get_set _ _ _ _ _
@[simp] theorem State.setPage_page_same (i : PageIx) : s.setPage i (s.page i) = s := by
  simp [State.setPage, State.page]

theorem State.call_modCall (x y : Channel) (f : Call → Call) :
    (s.modCall x f).call y = if y = x then (s.call x).map f else s.call y := State.call_setCall s x y _

end Sys2Proof.Machine
end

