-- ==== Sys2Proof/Laws/Candidates.lean ====
section
/-! SUPPORT. A candidate list in its limits stays in them under what the evaluator and the handover do to it. -/

namespace Sys2Proof.Machine

variable {serving : Option CellIx} {cs : List Candidate}

theorem CandidatesOk.nil (serving : Option CellIx) : CandidatesOk serving [] :=
  ⟨Nat.zero_le _, List.nodup_nil, fun _ _ => by simp, fun _ h => by cases h⟩

/-- A list of some of the entries. -/
theorem CandidatesOk.sublist {ds : List Candidate} (h : CandidatesOk serving cs) (hs : ds.Sublist cs) :
    CandidatesOk serving ds :=
  ⟨hs.length_le.trans h.size, h.once.sublist (hs.map _), fun c hc hm => h.other c hc ((hs.map _).subset hm),
    fun d hd => h.ranges d (hs.subset hd)⟩

/-- The same cells, with values in range. -/
theorem CandidatesOk.map {f : Candidate → Candidate} (h : CandidatesOk serving cs) (hc : ∀ c, (f c).cell = c.cell)
    (hr : ∀ c ∈ cs, (f c).f ≤ 1008 ∧ (f c).dwell ≤ 7 ∧ (f c).miss ≤ 2) : CandidatesOk serving (cs.map f) := by
  have he : (cs.map f).map (·.cell) = cs.map (·.cell) := by
    rw [List.map_map]; exact List.map_congr_left fun c _ => hc c
  refine ⟨by simpa using h.size, he ▸ h.once, fun c k => he ▸ h.other c k, fun d hd => ?_⟩
  obtain ⟨c, hm, rfl⟩ := List.mem_map.1 hd
  exact hr c hm

/-- A list that bars no cell. -/
theorem CandidatesOk.unbarred (h : CandidatesOk serving cs) : CandidatesOk none cs :=
  ⟨h.size, h.once, (fun _ hc => nomatch hc), h.ranges⟩

theorem resetDwell_ok (t : CellIx) (h : CandidatesOk serving cs) : CandidatesOk serving (resetDwell t cs) :=
  h.map (fun c => by split <;> rfl) fun c hc => by
    have := h.ranges c hc
    split
    · exact ⟨this.1, Nat.zero_le _, this.2.2⟩
    · exact this

/-- A filtered quality stays in 0..1008 (R98). -/
theorem filterQuality_le {k f q : Nat} (hf : f ≤ 1008) (hq : q ≤ 63) : filterQuality k f q ≤ 1008 := by
  unfold filterQuality
  have hp : (1 : Int) ≤ ((2 ^ k : Nat) : Int) := by exact_mod_cast Nat.one_le_two_pow
  generalize ((2 ^ k : Nat) : Int) = n at *
  by_cases h : (0 : Int) ≤ 16 * (q : Int) - (f : Int)
  · have := Int.tdiv_le_self (a := 16 * (q : Int) - (f : Int)) n h
    omega
  · have := Int.tdiv_nonneg (a := -(16 * (q : Int) - (f : Int))) (b := n) (by omega) (by omega)
    rw [Int.neg_tdiv] at this
    omega

theorem removeCell_sublist (t : CellIx) (cs : List Candidate) : (removeCell t cs).Sublist cs := by
  induction cs with
  | nil => exact List.Sublist.refl _
  | cons c cs ih =>
    unfold removeCell
    split
    · exact List.sublist_cons_self _ _
    · exact ih.cons_cons _

theorem removeCell_length {t : CellIx} {cs : List Candidate} (h : t ∈ cs.map (·.cell)) :
    (removeCell t cs).length + 1 = cs.length := by
  induction cs with
  | nil => cases h
  | cons c cs ih =>
    unfold removeCell
    split
    · rfl
    · next hc =>
      rw [List.map_cons, List.mem_cons] at h
      rw [List.length_cons, List.length_cons, ih (h.resolve_left (Ne.symm hc))]

theorem worstCandidate_mem {cs : List Candidate} {w : Candidate} (h : worstCandidate cs = some w) : w ∈ cs := by
  induction cs generalizing w with
  | nil => cases h
  | cons c cs ih =>
    unfold worstCandidate at h
    split at h
    · cases h; exact List.mem_cons_self
    · next d hd =>
      split at h <;> cases h
      · exact List.mem_cons_of_mem _ (ih hd)
      · exact List.mem_cons_self

/-- A new entry of a cell that is neither listed nor barred, where there is room. -/
theorem CandidatesOk.append (h : CandidatesOk serving cs) (d : Candidate) (hl : cs.length < Config.candidateCapacity)
    (hn : d.cell ∉ cs.map (·.cell)) (hs : ∀ c, serving = some c → c ≠ d.cell)
    (hr : d.f ≤ 1008 ∧ d.dwell ≤ 7 ∧ d.miss ≤ 2) : CandidatesOk serving (cs ++ [d]) := by
  refine ⟨by simpa using hl, ?_, fun c hc => ?_, fun e he => ?_⟩
  · rw [List.map_append, List.map_singleton, List.nodup_append]
    exact ⟨h.once, List.nodup_singleton _, fun a ha b hb => by simp at hb; subst hb; rintro rfl; exact hn ha⟩
  · rw [List.map_append, List.map_singleton, List.mem_append, List.mem_singleton, not_or]
    exact ⟨h.other c hc, hs c hc⟩
  · rcases List.mem_append.1 he with he | he
    · exact h.ranges e he
    · simp at he; subst he; exact hr

theorem enterCandidate_ok (c : CellIx) (q : Quality) (h : CandidatesOk serving cs) (hn : c ∉ cs.map (·.cell))
    (hs : serving ≠ some c) : CandidatesOk serving (enterCandidate c q cs) := by
  have hr : (⟨c, 16 * q.val, 0, 0⟩ : Candidate).f ≤ 1008 ∧ 0 ≤ 7 ∧ 0 ≤ 2 := ⟨by have := q.isLt; simp only; omega, by omega, by omega⟩
  have hb : ∀ d, serving = some d → d ≠ c := fun d hd e => hs (e ▸ hd)
  unfold enterCandidate
  dsimp only
  split
  · next hl => exact h.append _ hl hn hb hr
  · split
    · exact h
    · next w hw =>
      split
      · have hm := List.mem_map_of_mem (f := (·.cell)) (worstCandidate_mem hw)
        have hsub := removeCell_sublist w.cell cs
        refine (h.sublist hsub).append _ ?_ (fun k => hn ((hsub.map _).subset k)) hb hr
        have := removeCell_length hm
        have := h.size
        omega
      · exact h

theorem takePair_ok (c : CellIx) (r : CellRec) (st : List Candidate × List CellIx) (p : CellIx × Quality)
    (h : CandidatesOk (some c) st.1) : CandidatesOk (some c) (takePair c r st p).1 := by
  unfold takePair
  dsimp only
  split
  · exact h
  · next hne =>
    split
    · exact h.map (fun d => by split <;> rfl) fun d hd => by
        have := h.ranges d hd
        split
        · exact ⟨filterQuality_le this.1 (by have := p.2.isLt; omega), this.2.1, Nat.zero_le _⟩
        · exact this
    · next hn =>
      split
      · exact h
      · refine enterCandidate_ok _ _ h (fun hm => hn ?_) (fun e => hne (.inl (Option.some.inj e).symm))
        obtain ⟨d, hd, he⟩ := List.mem_map.1 hm
        exact List.any_eq_true.2 ⟨d, hd, decide_eq_true he⟩

theorem takePairs_ok (c : CellIx) (r : CellRec) (ps : List (CellIx × Quality)) (h : CandidatesOk (some c) cs) :
    CandidatesOk (some c) (takePairs c r ps cs).1 := by
  unfold takePairs
  have : ∀ (l : List (CellIx × Quality)) (st : List Candidate × List CellIx), CandidatesOk (some c) st.1 →
      CandidatesOk (some c) (l.foldl (takePair c r) st).1 := fun l => by
    induction l with
    | nil => exact fun _ h => h
    | cons p l ih => exact fun st h => ih _ (takePair_ok c r st p h)
  exact this _ _ h

theorem ageCandidates_ok (r : CellRec) (named : List CellIx) (h : CandidatesOk serving cs) :
    CandidatesOk serving (ageCandidates r named cs) := by
  have he : (cs.map fun c => if c.cell ∈ named then c else { c with miss := c.miss + 1 }).map (·.cell) =
      cs.map (·.cell) := by
    rw [List.map_map]
    exact List.map_congr_left fun c _ => by simp only [Function.comp]; split <;> rfl
  unfold ageCandidates
  rw [List.filter_filter]
  refine ⟨(List.length_filter_le _ _).trans (by simpa using h.size),
    (he ▸ h.once).sublist (List.filter_sublist.map _),
    fun c hc hm => h.other c hc (he ▸ (List.filter_sublist.map _).subset hm), fun d hd => ?_⟩
  obtain ⟨hm, hp⟩ := List.mem_filter.1 hd
  simp only [Bool.and_eq_true, decide_eq_true_eq] at hp
  obtain ⟨c, hc, rfl⟩ := List.mem_map.1 hm
  have := h.ranges c hc
  refine ⟨?_, ?_, by omega⟩
  · split
    · exact this.1
    · exact this.1
  · split
    · exact this.2.1
    · exact this.2.1

theorem scoreCandidates_ok (s : State) (r : CellRec) (fs : Nat) (h : CandidatesOk serving cs) :
    CandidatesOk serving (scoreCandidates s r fs cs) :=
  h.map (fun _ => rfl) fun c hc => ⟨(h.ranges c hc).1, by dsimp only; split <;> omega, (h.ranges c hc).2.2⟩

/-- The list after a taken report. -/
theorem evaluate_list (s : State) (c : CellIx) (q : Quality) (ps : List (CellIx × Quality)) (k : Call)
    (h : CandidatesOk (some c) k.candidates) : CandidatesOk (some c) (evaluate s c q ps k).candidates :=
  scoreCandidates_ok _ _ _ (ageCandidates_ok _ _ (takePairs_ok _ _ _ h))

/-- A call in its limits stays in them under a report of its serving cell. -/
theorem evaluate_ok {s : State} {c : CellIx} {k : Call} (q : Quality) (ps : List (CellIx × Quality)) (h : k.Ok)
    (hs : k.phase.serving.map (·.cell) = some c) : (evaluate s c q ps k).Ok where
  fs := filterQuality_le h.fs (by have := q.isLt; omega)
  list := by
    change CandidatesOk (k.phase.serving.map (·.cell)) _
    rw [hs]
    exact evaluate_list s c q ps k (hs ▸ h.list)
  opening := fun d n hp => by
    have hp : k.phase = .opening d n := hp
    rw [hp] at hs; cases hs

end Sys2Proof.Machine
end

