-- ==== Sys2Proof/Laws/Notices.lean ====
section
/-! SUPPORT. What a refill of the notice queue, a notice that leaves, and the choice of the trunk touch: the trunk, the
notices, the flags of records, and the pages whose outcome is settled. -/

namespace Sys2Proof.Machine

/-! ### A notice as it leaves -/

theorem Holder.settled_enrolled (r : Record) (a b : Bool) :
    ({ r with holder := r.holder.settled, dirty := a, queued := b } : Record).enrolled = r.enrolled := by
  unfold Record.enrolled Holder.settled
  cases r.holder <;> rfl

theorem buildNotice_trunk (n : Notice) (s : State) : (buildNotice n s).2.trunk = s.trunk := by
  unfold buildNotice
  split
  · rfl
  · rfl
  · split
    · rfl
    · split <;> rfl
  · rfl

theorem markOutcomeQueued_notices (e : PageIx) (s : State) : (markOutcomeQueued e s).notices = s.notices := by
  unfold markOutcomeQueued
  repeat' split
  all_goals rfl

/-! ### The trunk -/

/-- Two states that differ at most in the trunk, the notices, the records and the page list. -/
structure TrunkSide (u t : State) : Prop where
  now : t.now = u.now
  ports : t.ports = u.ports
  counters : t.counters = u.counters
  mgmtNow : t.mgmtNow = u.mgmtNow
  mgmtMuted : t.mgmtMuted = u.mgmtMuted
  filters : t.filters = u.filters
  zones : t.zones = u.zones
  gates : t.gates = u.gates
  cells : t.cells = u.cells
  calls : t.calls = u.calls
  hrq : t.hrq = u.hrq
  answers : t.answers = u.answers
  txnCounter : t.txnCounter = u.txnCounter
  hold : t.hold = u.hold
  sweep : t.sweep = u.sweep
  config : t.config = u.config
  device : t.device = u.device
  pending : t.pending = u.pending

theorem TrunkSide.refl (s : State) : TrunkSide s s :=
  ⟨rfl, rfl, rfl, rfl, rfl, rfl, rfl, rfl, rfl, rfl, rfl, rfl, rfl, rfl, rfl, rfl, rfl, rfl⟩

theorem TrunkSide.trans {s t u : State} (h : TrunkSide s t) (k : TrunkSide t u) : TrunkSide s u :=
  ⟨k.now.trans h.now, k.ports.trans h.ports, k.counters.trans h.counters, k.mgmtNow.trans h.mgmtNow, k.mgmtMuted.trans h.mgmtMuted,
    k.filters.trans h.filters, k.zones.trans h.zones, k.gates.trans h.gates, k.cells.trans h.cells,
    k.calls.trans h.calls, k.hrq.trans h.hrq, k.answers.trans h.answers, k.txnCounter.trans h.txnCounter,
    k.hold.trans h.hold, k.sweep.trans h.sweep, k.config.trans h.config,
    k.device.trans h.device, k.pending.trans h.pending⟩

/-- What a refill may change: queued flags of records and outcomes, and one more notice. -/
structure Refilled (u t : State) : Prop where
  side : TrunkSide u t
  trunk : t.trunk = u.trunk
  notices : t.notices = u.notices ∨ ∃ m, t.notices = u.notices ++ [m]
  registry : RegistryKept (fun _ => False) u t
  paging : PagingKept (fun _ => False) u t

theorem RegistryKept.refl (p : RecIx → Prop) (s : State) : RegistryKept p s s := fun _ _ => ⟨rfl, rfl⟩
theorem RegistryKept.trans {p : RecIx → Prop} {s t u : State} (h : RegistryKept p s t) (k : RegistryKept p t u) :
    RegistryKept p s u := fun i hi => ⟨(k i hi).1.trans (h i hi).1, (k i hi).2.trans (h i hi).2⟩
theorem PagingKept.refl (p : PageIx → Prop) (s : State) : PagingKept p s s := fun _ _ _ _ => Iff.rfl
theorem PagingKept.trans {p : PageIx → Prop} {s t u : State} (h : PagingKept p s t) (k : PagingKept p t u) :
    PagingKept p s u := fun e q he hq => (k e q he hq).trans (h e q he hq)

theorem sameRecord_of_holder {r q : Record} (hh : r.holder = q.holder) (hl : r.lastChange = q.lastChange) :
    sameRecord r q := by
  refine ⟨?_, hl⟩
  unfold Record.enrolled
  rw [hh]

theorem registry_setRecord (s : State) (i : RecIx) (v : Record) (h : sameRecord v (s.record i)) :
    RegistryKept (fun _ => False) s (s.setRecord i v) := fun j _ => by
  by_cases hj : j = i
  · subst hj; rw [State.record_setRecord_self]; exact h
  · rw [State.record_setRecord_ne _ hj]; exact ⟨rfl, rfl⟩

/-- A write over an entry that is not in PAGING, with a value that is not, keeps the pages in progress. -/
theorem paging_setPage (s : State) (e : PageIx) (v : Option PageEntry)
    (h1 : ∀ q, s.page e = some q → q.paging = false) (h2 : ∀ q, v = some q → q.paging = false) :
    PagingKept (fun _ => False) s (s.setPage e v) := fun f q _ hq => by
  by_cases hf : f = e
  · subst hf
    rw [State.page_setPage_self]
    exact ⟨fun h => absurd (h2 q h) (by simp [hq]), fun h => absurd (h1 q h) (by simp [hq])⟩
  · rw [State.page_setPage_ne _ hf]

theorem markOutcomeQueued_spec (e : PageIx) (s : State) :
    TrunkSide s (markOutcomeQueued e s) ∧ (markOutcomeQueued e s).trunk = s.trunk ∧
      (markOutcomeQueued e s).records = s.records ∧ PagingKept (fun _ => False) s (markOutcomeQueued e s) := by
  unfold markOutcomeQueued
  split
  · exact ⟨.refl _, rfl, rfl, .refl _ _⟩
  · next p hp =>
    split
    · exact ⟨.refl _, rfl, rfl, .refl _ _⟩
    · next o q hs =>
      refine ⟨{ TrunkSide.refl s with }, rfl, rfl, paging_setPage _ _ _ (fun r hr => ?_) (fun r hr => ?_)⟩
      · rw [hp] at hr; cases hr; unfold PageEntry.paging; rw [hs]
      · cases hr; rfl

theorem refill_spec (s : State) : Refilled s (refill s) := by
  unfold refill
  split
  · split
    · next e _ =>
      obtain ⟨h1, h2, h3, h4⟩ := markOutcomeQueued_spec e s
      refine ⟨{ h1 with }, h2, .inr ⟨.pageOutcome e, ?_⟩, fun i _ => ?_, h4⟩
      · change (markOutcomeQueued e s).notices ++ _ = _; rw [markOutcomeQueued_notices]
      · change sameRecord ((markOutcomeQueued e s).records.get Record.blank i) _; rw [h3]; exact ⟨rfl, rfl⟩
    · split
      · next i _ =>
        refine ⟨{ TrunkSide.refl s with }, rfl, .inr ⟨.location i, rfl⟩, ?_, .refl _ _⟩
        exact registry_setRecord s i { s.record i with queued := true } (sameRecord_of_holder rfl rfl)
      · exact ⟨.refl _, rfl, .inl rfl, .refl _ _, .refl _ _⟩
  · exact ⟨.refl _, rfl, .inl rfl, .refl _ _, .refl _ _⟩

/-- The state a notice leaves behind, and what it says, with the queue shortened or not. -/
theorem buildNotice_spec (n : Notice) (s : State) :
    TrunkSide s (buildNotice n s).2 ∧ (buildNotice n s).2.notices = s.notices ∧
      RegistryKept (fun _ => False) s (buildNotice n s).2 ∧ PagingKept (fun _ => False) s (buildNotice n s).2 := by
  unfold buildNotice
  split
  · next i =>
    exact ⟨{ TrunkSide.refl s with }, rfl, registry_setRecord s i _ ⟨Holder.settled_enrolled _ _ _, rfl⟩, .refl _ _⟩
  · exact ⟨.refl _, rfl, .refl _ _, .refl _ _⟩
  · split
    · exact ⟨.refl _, rfl, .refl _ _, .refl _ _⟩
    · next e p hp =>
      split
      · next o q hs =>
        refine ⟨{ TrunkSide.refl s with }, rfl, .refl _ _, paging_setPage _ _ _ (fun r hr => ?_) (fun r hr => by cases hr)⟩
        rw [hp] at hr; cases hr; unfold PageEntry.paging; rw [hs]
      · exact ⟨.refl _, rfl, .refl _ _, .refl _ _⟩
  · exact ⟨.refl _, rfl, .refl _ _, .refl _ _⟩

theorem buildNotice_body (n : Notice) (s : State) (ns : List Notice) :
    (buildNotice n { s with notices := ns }).1 = (buildNotice n s).1 := by
  cases n with
  | location i => rfl
  | callReq h i c => rfl
  | immediate h o => rfl
  | pageOutcome e =>
    have hp : ({ s with notices := ns } : State).page e = s.page e := rfl
    unfold buildNotice
    dsimp only
    rw [hp]
    cases s.page e with
    | none => rfl
    | some p => dsimp only; cases p.status <;> rfl

/-- What the choice of the trunk does (R12). -/
structure TrunkStep (u t : State) : Prop where
  side : TrunkSide u t
  mgmtIn : t.trunk.mgmtIn = u.trunk.mgmtIn
  link : t.trunk.link = u.trunk.link
  registry : RegistryKept (fun _ => False) u t
  paging : PagingKept (fun _ => False) u t
  chose : if u.trunk.link = .down ∨ u.trunk.tx ≠ none then
      t.trunk = u.trunk ∧ t.notices = u.notices ∧ t.records = u.records ∧ t.pages = u.pages
    else TrunkChose u t

theorem sendNotice_spec (s : State) (n : Notice) (ns : List Notice) (h : s.notices = n :: ns) :
    TrunkSide s (sendNotice s) ∧
      (sendNotice s).trunk = { s.trunk with tx := some (.notice (buildNotice n s).1 s.now) } ∧
      ((sendNotice s).notices = ns ∨ ∃ m, (sendNotice s).notices = ns ++ [m]) ∧
      RegistryKept (fun _ => False) s (sendNotice s) ∧ PagingKept (fun _ => False) s (sendNotice s) := by
  have hb := buildNotice_spec n { s with notices := ns }
  have hbt := buildNotice_trunk n { s with notices := ns }
  have hbb := buildNotice_body n s ns
  unfold sendNotice
  rw [h]
  dsimp only
  generalize buildNotice n { s with notices := ns } = w at hb hbt hbb ⊢
  obtain ⟨body, t⟩ := w
  dsimp only at hb hbt hbb ⊢
  obtain ⟨h1, h2, h3, h4⟩ := hb
  have hr := refill_spec { t with trunk := { t.trunk with tx := some (.notice body s.now) } }
  generalize refill { t with trunk := { t.trunk with tx := some (.notice body s.now) } } = z at hr
  have hside : TrunkSide s t := { h1 with }
  refine ⟨hside.trans { hr.side with }, ?_, ?_, ?_, ?_⟩
  · rw [hr.trunk]; change ({ t.trunk with tx := _ } : Trunk) = _; rw [hbt, hbb]
  · have := hr.notices; change z.notices = t.notices ∨ ∃ m, z.notices = t.notices ++ [m] at this; rwa [h2] at this
  · exact RegistryKept.trans (t := t) h3 hr.registry
  · exact PagingKept.trans (t := t) h4 hr.paging

theorem TrunkStep.stay {s : State} (h : s.trunk.link = .down ∨ s.trunk.tx ≠ none) : TrunkStep s s :=
  ⟨.refl _, rfl, rfl, .refl _ _, .refl _ _, by rw [if_pos h]; exact ⟨rfl, rfl, rfl, rfl⟩⟩

theorem chooseTrunk_spec (s : State) : TrunkStep s (chooseTrunk s) := by
  unfold chooseTrunk
  split
  · next hup htx =>
    have hc : ¬ (s.trunk.link = .down ∨ s.trunk.tx ≠ none) := by simp [hup, htx]
    split
    · next v vs hv =>
      exact ⟨{ TrunkSide.refl s with }, rfl, rfl, .refl _ _, .refl _ _, by
        rw [if_neg hc]; unfold TrunkChose; rw [hv]; exact ⟨rfl, rfl, rfl, rfl⟩⟩
    · next hv =>
      split
      · next r rs hr =>
        exact ⟨{ TrunkSide.refl s with }, rfl, rfl, .refl _ _, .refl _ _, by
          rw [if_neg hc]; unfold TrunkChose; rw [hv, hr]; exact ⟨rfl, rfl, rfl, rfl⟩⟩
      · next hr =>
        cases hn : s.notices with
        | nil =>
          have : sendNotice s = s := by unfold sendNotice; rw [hn]
          rw [this]
          exact ⟨.refl _, rfl, rfl, .refl _ _, .refl _ _, by
            rw [if_neg hc]; unfold TrunkChose; rw [hv, hr, hn]; exact ⟨rfl, rfl, rfl, rfl⟩⟩
        | cons n ns =>
          obtain ⟨hs, ht, hm, hk, hp⟩ := sendNotice_spec s n ns hn
          exact ⟨hs, by rw [ht], by rw [ht], hk, hp, by
            rw [if_neg hc]; unfold TrunkChose; rw [hv, hr, hn]; exact ⟨ht, hm⟩⟩
  · next htx => exact .stay (.inr (by simp [htx]))
  · next hd => exact .stay (.inl hd)

theorem kickTrunk_spec (b s : State) :
    TrunkSide s (kickTrunk b s) ∧ (kickTrunk b s).trunk.mgmtIn = s.trunk.mgmtIn ∧
      (kickTrunk b s).trunk.link = s.trunk.link ∧ RegistryKept (fun _ => False) s (kickTrunk b s) ∧
      PagingKept (fun _ => False) s (kickTrunk b s) ∧
      (if (b.trunk = s.trunk ∧ b.notices = s.notices) ∨ s.trunk.link = .down ∨ s.trunk.tx ≠ none then
        (kickTrunk b s).trunk = s.trunk ∧ (kickTrunk b s).notices = s.notices ∧ (kickTrunk b s).records = s.records ∧
          (kickTrunk b s).pages = s.pages
      else TrunkChose s (kickTrunk b s)) := by
  unfold kickTrunk
  by_cases hsame : b.trunk = s.trunk ∧ b.notices = s.notices
  · rw [if_pos hsame]
    exact ⟨.refl _, rfl, rfl, .refl _ _, .refl _ _, by rw [if_pos (.inl hsame)]; exact ⟨rfl, rfl, rfl, rfl⟩⟩
  · rw [if_neg hsame]
    have hc := chooseTrunk_spec s
    refine ⟨hc.side, hc.mgmtIn, hc.link, hc.registry, hc.paging, ?_⟩
    simpa only [hsame, false_or] using hc.chose

/-- The choice of the trunk looks at the trunk's side alone. -/
theorem TrunkChose.congr {u u' t t' : State} (h : TrunkChose u t) (h1 : u'.trunk = u.trunk) (h2 : u'.notices = u.notices)
    (h3 : u'.records = u.records) (h4 : u'.pages = u.pages) (h5 : u'.now = u.now) (k1 : t'.trunk = t.trunk)
    (k2 : t'.notices = t.notices) (k3 : t'.records = t.records) (k4 : t'.pages = t.pages) : TrunkChose u' t' := by
  have hb : ∀ n, (buildNotice n u').1 = (buildNotice n u).1 := by
    intro n
    have hp : ∀ e, u'.page e = u.page e := fun e => by unfold State.page; rw [h4]
    have hr : ∀ i, u'.record i = u.record i := fun i => by unfold State.record; rw [h3]
    unfold buildNotice
    cases n with
    | location i => dsimp only; rw [hr]
    | callReq h i c => rfl
    | immediate h o => rfl
    | pageOutcome e =>
      dsimp only
      rw [hp]
      cases u.page e with
      | none => rfl
      | some p => dsimp only; cases p.status <;> rfl
  unfold TrunkChose at *
  rw [h1, h2, h3, h4, h5, k1, k2, k3, k4]
  simp only [hb]
  exact h

end Sys2Proof.Machine
end

