-- ==== Sys2Proof/Laws/Moves.lean ====
section
/-! SUPPORT. What the shared operations can do, said once: `Raw` lists the elementary changes of the state with the limits
they respect, and each operation is a chain of them. `Moves` adds what a chain does to the calls: the agreement of records
and contexts holds after it when it held before, and no context comes into execution but those that the chain names. -/

namespace Sys2Proof.Machine

/-! ### Contexts in execution, and the links of records and contexts -/

/-- A context in execution (R117). -/
def inExecutionAt (k : Option Call) : Bool :=
  match k with
  | none => false
  | some k => k.phase.inExecution

/-- Contexts in execution that stay so count no less. -/
theorem State.inExecution_mono {s t : State} (hs : s.calls.wf none = true) (ht : t.calls.wf none = true)
    (h : ∀ x, inExecutionAt (s.call x) = true → inExecutionAt (t.call x) = true) : s.inExecution ≤ t.inExecution :=
  Table.count_mono none s.calls t.calls _ hs ht rfl h

theorem State.inExecution_setCall {s : State} (hs : s.calls.wf none = true) {x : Channel} {v : Option Call}
    (h : inExecutionAt (s.call x) = true → inExecutionAt v = true) : s.inExecution ≤ (s.setCall x v).inExecution :=
  State.inExecution_mono hs (Table.wf_set _ _ _ _ hs) fun y => by
    by_cases hy : y = x
    · subst hy; rw [State.call_setCall_self]; exact h
    · rw [State.call_setCall_ne _ hy]; exact id

/-- A state with at most one more context in execution counts at most one more. -/
theorem State.inExecution_succ {s t : State} (hs : s.calls.wf none = true) (ht : t.calls.wf none = true) (x : Channel)
    (h : ∀ y, inExecutionAt (t.call y) = true → inExecutionAt (s.call y) = true ∨ y = x) :
    t.inExecution ≤ s.inExecution + 1 := Table.count_succ none s.calls t.calls _ hs ht rfl x h

/-- The channel of a location. -/
def Location.channel : Location → Option Channel
  | .absent => none
  | .attached .. => none
  | .engaged _ x => some x

theorem Record.channel_of_enrolled {r : Record} {e : Enrolled} (h : r.enrolled = some e) : r.channel = e.loc.channel := by
  unfold Record.channel
  rw [h]
  rfl

theorem Record.channel_of_none {r : Record} (h : r.enrolled = none) : r.channel = none := by
  unfold Record.channel
  rw [h]

theorem sameRecord.channel {r q : Record} (h : sameRecord r q) : r.channel = q.channel := by
  unfold Record.channel
  rw [h.1]

theorem Record.identity_of_enrolled {r : Record} {e : Enrolled} (h : r.enrolled = some e) :
    r.identity = some e.identity := congrArg _ h

theorem Record.presentHid_eq (r : Record) : r.presentHid = r.identity.map (·.1) := by
  unfold Record.presentHid Record.identity
  cases r.enrolled <;> rfl

/-- What marking a record dirty does (R36). -/
theorem markDirty_cases (i : RecIx) (s : State) :
    ((s.record i).queued = false ∧ s.notices.length < Config.noticeCapacity ∧
      markDirty i s = { s.setRecord i { s.record i with dirty := true, queued := true } with
        notices := s.notices ++ [.location i] }) ∨
    (((s.record i).queued = true ∨ Config.noticeCapacity ≤ s.notices.length) ∧
      markDirty i s = s.setRecord i { s.record i with dirty := true }) := by
  unfold markDirty
  dsimp only
  split
  · next h =>
    simp only [Bool.and_eq_true, Bool.not_eq_true', State.noticeRoom, decide_eq_true_eq] at h
    exact .inl ⟨h.1, h.2, rfl⟩
  · next h =>
    simp only [Bool.and_eq_true, Bool.not_eq_true', State.noticeRoom, decide_eq_true_eq, not_and, not_lt] at h
    refine .inr ⟨?_, rfl⟩
    cases hq : (s.record i).queued with
    | true => exact .inl rfl
    | false => exact .inr (h hq)

theorem markDirty_holder (i j : RecIx) (s : State) : ((markDirty i s).record j).holder = (s.record j).holder := by
  rcases markDirty_cases i s with ⟨_, _, h⟩ | ⟨_, h⟩ <;> rw [h]
  · change ((s.setRecord i { s.record i with dirty := true, queued := true }).record j).holder = _
    rw [State.record_setRecord]; split
    · next h => rw [h]
    · rfl
  · rw [State.record_setRecord]; split
    · next h => rw [h]
    · rfl

theorem Record.enrolled_of_holder {r q : Record} (h : r.holder = q.holder) : r.enrolled = q.enrolled := by
  unfold Record.enrolled
  rw [h]

theorem markDirty_calls (i : RecIx) (s : State) : (markDirty i s).calls = s.calls := by
  rcases markDirty_cases i s with ⟨_, _, h⟩ | ⟨_, h⟩ <;> rw [h] <;> rfl

theorem sendNotice_side (s : State) : TrunkSide s (sendNotice s) ∧ RegistryKept (fun _ => False) s (sendNotice s) := by
  cases hn : s.notices with
  | nil =>
    have : sendNotice s = s := by unfold sendNotice; rw [hn]
    rw [this]
    exact ⟨.refl s, .refl _ _⟩
  | cons n ns =>
    obtain ⟨h, _, _, hr, _⟩ := sendNotice_spec s n ns hn
    exact ⟨h, hr⟩

/-! ### Elementary changes -/

/-- An elementary change of a cell port: its link stays, its limits are kept, a port that is DOWN and empty stays so. -/
structure PortMove (a b : CellPort) : Prop where
  link : b.link = a.link
  ok : a.Ok → b.Ok
  blank : a = CellPort.blank → b = CellPort.blank

/-- An elementary change of the trunk: link and waiting requests stay, and nothing changes while it is DOWN. -/
structure TrunkMove (a b : Trunk) : Prop where
  link : b.link = a.link
  mgmtIn : b.mgmtIn = a.mgmtIn
  ok : a.Ok → b.Ok
  down : a.link = .down → b = a

/-- An elementary change of a cell record: what management wrote stays, the service state ends a drain at most. -/
structure CellMove (a b : CellRec) : Prop where
  stored : b.stored = a.stored
  neighbours : b.neighbours = a.neighbours
  service : a.service.follows b.service
  ok : a.Ok → b.Ok

/-- A change of a record that keeps its flags and its identity, but that a visitor may come, with a HID that no present
record holds, and go (R23). -/
structure RecordMove (s : State) (i : RecIx) (v : Record) : Prop where
  visitor : (s.record i).VisitorOk i → v.VisitorOk i
  dirty : v.dirty = (s.record i).dirty
  queued : v.queued = (s.record i).queued
  identity : v.identity = (s.record i).identity ∨
    isVisitor i = true ∧ ∀ h, v.presentHid = some h → ∀ j, (s.record j).presentHid ≠ some h

/-- An entry of the page list is free or in PAGING. -/
def State.Unsettled (s : State) (e : PageIx) : Prop := ∀ p, s.page e = some p → p.paging = true

/-- What the settling of an outcome touches: the entry, and the notice queue where it has room. -/
theorem settlePage_cases (e : PageIx) (o : PageOutcome) (s : State) : settlePage e o s = s ∨ ∃ p, s.page e = some p ∧
    ((s.notices.length < Config.noticeCapacity ∧ settlePage e o s =
        pushNotice (.pageOutcome e) (s.setPage e (some { p with status := .settled o true }))) ∨
      (Config.noticeCapacity ≤ s.notices.length ∧
        settlePage e o s = s.setPage e (some { p with status := .settled o false }))) := by
  unfold settlePage State.noticeRoom
  split
  · exact .inl rfl
  · next p hp =>
    refine .inr ⟨p, hp, ?_⟩
    by_cases hr : s.notices.length < Config.noticeCapacity
    · exact .inl ⟨hr, by simp [hr]⟩
    · exact .inr ⟨by omega, by simp [hr]⟩

/-- The elementary changes. -/
inductive Raw : State → State → Prop
  | record (s : State) (i : RecIx) (v : Record) (h : RecordMove s i v) : Raw s (s.setRecord i v)
  | mark (s : State) (i : RecIx) : Raw s (markDirty i s)
  | push (s : State) (n : Notice) (h : s.noticeRoom = true) (hn : ∀ i, n ≠ .location i) (hp : ∀ e, n ≠ .pageOutcome e) :
    Raw s (pushNotice n s)
  | send (s : State) (h : s.trunk.link = .up) : Raw s (sendNotice s)
  | refill (s : State) : Raw s (refill s)
  | call (s : State) (x : Channel) (v : Option Call) (h : ContextOk (s.call x) → ContextOk v) : Raw s (s.setCall x v)
  | page (s : State) (e : PageIx) (v : Option PageEntry) (h : s.Unsettled e) (hv : ∀ p, v = some p → p.paging = true) :
    Raw s (s.setPage e v)
  | settle (s : State) (e : PageIx) (o : PageOutcome) (h : s.Unsettled e) : Raw s (settlePage e o s)
  | device (s : State) (f : DeviceCounters → DeviceCounters) : Raw s (s.count f)
  | counter (s : State) (l : LinkIx) (v : PortCounters) : Raw s (s.setCounter l v)
  | port (s : State) (p : PortIx) (v : CellPort) (h : PortMove (s.port p) v) : Raw s (s.setPort p v)
  | trunk (s : State) (k : Trunk) (h : TrunkMove s.trunk k) : Raw s { s with trunk := k }
  | cell (s : State) (c : CellIx) (v : CellRec) (h : CellMove (s.cell c) v) : Raw s (s.setCell c v)
  | hrq (s : State) (q : Hrq) (h : s.hrq.Ok → q.Ok) : Raw s { s with hrq := q }
  | answers (s : State) (as : List Answer) (h : AnswersOk s.answers → AnswersOk as) : Raw s { s with answers := as }
  | txn (s : State) (t : Txn) : Raw s { s with txnCounter := t }
  | hold (s : State) (h : Hold) : Raw s { s with hold := h }
  | sweep (s : State) (w : Sweep) (h : s.sweep.Ok → w.Ok) : Raw s { s with sweep := w }

/-- Chains of elementary changes. -/
abbrev Raws : State → State → Prop := Relation.ReflTransGen Raw

theorem Raw.calls_wf {s t : State} (h : Raw s t) (hs : s.calls.wf none = true) : t.calls.wf none = true := by
  cases h with
  | call x v _ => exact Table.wf_set _ _ _ _ hs
  | mark i => rwa [markDirty_calls]
  | send => rwa [(sendNotice_side s).1.calls]
  | refill => rwa [(refill_spec s).side.calls]
  | record => exact hs
  | push => exact hs
  | page => exact hs
  | settle e o => rcases settlePage_cases e o s with h | ⟨p, _, ⟨_, h⟩ | ⟨_, h⟩⟩ <;> rw [h] <;> exact hs
  | device => exact hs
  | counter => exact hs
  | port => exact hs
  | trunk => exact hs
  | cell => exact hs
  | hrq => exact hs
  | answers => exact hs
  | txn => exact hs
  | hold => exact hs
  | sweep => exact hs

theorem Raws.calls_wf {s t : State} (h : Raws s t) (hs : s.calls.wf none = true) : t.calls.wf none = true := by
  induction h with
  | refl => exact hs
  | tail _ h ih => exact h.calls_wf ih

/-- A chain of elementary changes that keeps the agreement of records and contexts, and brings no context into execution but
those that satisfy `P`. -/
structure Moves (P : Channel → Prop) (s t : State) : Prop where
  raws : Raws s t
  agree : s.CallsAgree → t.CallsAgree
  running : ∀ x, inExecutionAt (t.call x) = true → inExecutionAt (s.call x) = true ∨ P x

variable {P : Channel → Prop}

theorem Moves.refl (s : State) : Moves P s s := ⟨.refl, id, fun _ => .inl⟩

theorem Moves.trans {s t u : State} (h : Moves P s t) (k : Moves P t u) : Moves P s u :=
  ⟨h.raws.trans k.raws, k.agree ∘ h.agree, fun x hx => (k.running x hx).elim (h.running x) .inr⟩

theorem Moves.weaken {q : Channel → Prop} {s t : State} (h : Moves P s t) (hq : ∀ x, P x → q x) : Moves q s t :=
  ⟨h.raws, h.agree, fun x hx => (h.running x hx).imp id (hq x)⟩

/-- A channel already in execution may as well not be named. -/
theorem Moves.already {s t : State} {x : Channel} (hx : inExecutionAt (s.call x) = true)
    (h : Moves (fun y => P y ∨ y = x) s t) : Moves P s t :=
  ⟨h.raws, h.agree, fun y hy => (h.running y hy).elim .inl fun k => k.elim .inr fun e => .inl (e ▸ hx)⟩

/-- Records that say the same of their handsets, and contexts that name the same records, agree as before. -/
theorem State.CallsAgree.same {s t : State} (h : s.CallsAgree) (hr : ∀ i, (t.record i).channel = (s.record i).channel)
    (hc : ∀ x, t.handset x = s.handset x) : t.CallsAgree := fun i x => by rw [hr, hc]; exact h i x

/-- An elementary change that leaves records and contexts alone. -/
theorem Moves.of {s t : State} (h : Raw s t) (hr : t.records = s.records := by rfl) (hc : t.calls = s.calls := by rfl) :
    Moves P s t :=
  ⟨.single h, fun k => k.same (fun i => by unfold State.record; rw [hr])
    (fun x => by unfold State.handset State.call; rw [hc]), fun x hx => .inl (by unfold State.call at *; rwa [hc] at hx)⟩

theorem Moves.snoc {s t u : State} (h : Moves P s t) (k : Raw t u) (hr : u.records = t.records := by rfl)
    (hc : u.calls = t.calls := by rfl) : Moves P s u := h.trans (.of k hr hc)

/-- An elementary change that leaves the contexts alone, and the channels of the records. -/
theorem Moves.of_records {s t : State} (h : Raw s t) (hr : ∀ i, (t.record i).channel = (s.record i).channel)
    (hc : t.calls = s.calls) : Moves P s t :=
  ⟨.single h, fun k => k.same hr (fun x => by unfold State.handset State.call; rw [hc]),
    fun x hx => .inl (by unfold State.call at *; rwa [hc] at hx)⟩

theorem Moves.record {s : State} {i : RecIx} {v : Record} (h : RecordMove s i v)
    (hc : v.channel = (s.record i).channel) : Moves P s (s.setRecord i v) :=
  .of_records (.record s i v h) (fun j => by
    rw [State.record_setRecord]; split
    · next hj => rw [hj]; exact hc
    · rfl) rfl

/-- A context that names the record it named. -/
theorem Moves.call {s : State} {x : Channel} {v : Option Call}
    (hok : ContextOk (s.call x) → ContextOk v) (hh : v.map (·.handset) = s.handset x)
    (hr : inExecutionAt v = true → inExecutionAt (s.call x) = true ∨ P x) : Moves P s (s.setCall x v) :=
  ⟨.single (.call s x v hok), fun k => k.same (fun _ => rfl) fun y => by
      unfold State.handset
      rw [State.call_setCall]; split
      · next h => rw [h]; exact hh
      · rfl,
    fun y hy => by
      rw [State.call_setCall] at hy
      split at hy
      · next h => rw [h]; exact hr hy
      · exact .inl hy⟩

/-- A context in its limits stays in them, with a call that names its record. -/
theorem Moves.set {s : State} {x : Channel} {k k' : Call} (hk : s.call x = some k)
    (hok : k.Ok → k'.Ok) (hr : k'.phase.inExecution = true → k.phase.inExecution = true ∨ P x)
    (hh : k'.handset = k.handset := by rfl) : Moves P s (s.setCall x (some k')) := by
  refine .call (fun h => ?_) ?_ (fun h => ?_)
  · rintro j ⟨⟩; exact hok (h k hk)
  · unfold State.handset; rw [hk]; exact congrArg some hh
  · rw [hk]; exact hr h

/-- A rewrite of a call by a function that keeps the record it names and its limits. -/
theorem Moves.mod {s : State} {x : Channel} {f : Call → Call} (hh : ∀ k, (f k).handset = k.handset)
    (hok : ∀ k, k.Ok → (f k).Ok)
    (hr : ∀ k, (f k).phase.inExecution = true → k.phase.inExecution = true ∨ P x) : Moves P s (s.modCall x f) := by
  unfold State.modCall
  refine .call (fun h => ?_) ?_ ?_
  · intro j hj
    cases hk : s.call x with
    | none => rw [hk] at hj; cases hj
    | some k => rw [hk] at hj; cases hj; exact hok k (h k hk)
  · unfold State.handset
    cases s.call x with
    | none => rfl
    | some k => exact congrArg some (hh k)
  · cases s.call x with
    | none => exact .inl
    | some k => exact hr k

theorem page_moves {e : PageIx} {v : Option PageEntry} {s : State} (h : s.Unsettled e)
    (hv : ∀ p, v = some p → p.paging = true) : Moves P s (s.setPage e v) := .of (.page _ _ _ h hv)
theorem device_moves (f : DeviceCounters → DeviceCounters) (s : State) : Moves P s (s.count f) := .of (.device _ _)
theorem counter_moves (l : LinkIx) (v : PortCounters) (s : State) : Moves P s (s.setCounter l v) := .of (.counter _ _ _)

/-- A fold of chains is a chain. -/
theorem Moves.foldl {α : Type} (f : State → α → State) (h : ∀ s a, Moves P s (f s a)) (l : List α) (s : State) :
    Moves P s (l.foldl f s) := by
  induction l generalizing s with
  | nil => exact .refl _
  | cons a l ih => exact (h s a).trans (ih _)

/-! ### Elementary facts -/

theorem PortMove.refl (p : CellPort) : PortMove p p := ⟨rfl, id, id⟩

theorem Service.follows_refl (a : Service) : a.follows a := .inl rfl

theorem CellMove.refl (r : CellRec) : CellMove r r := ⟨rfl, rfl, .inl rfl, id⟩

/-- A port whose lists only shrink keeps its limits. -/
theorem CellPort.Ok.shrink {a b : CellPort} (h : a.Ok) (hl : b.lane.length ≤ a.lane.length)
    (hc : b.ctl.length ≤ a.ctl.length) (hp : b.closes.Sublist a.closes) : b.Ok :=
  ⟨hl.trans h.lane, hc.trans h.ctl, hp.length_le.trans h.closes, h.once.sublist hp⟩

/-! ### Control queues, close sets, answers (Machine/Ops.lean) -/

theorem takeLast_length {α : Type} (p : α → Bool) (l : List α) {v : α} {rest : List α} (h : takeLast p l = some (v, rest)) :
    rest.length + 1 = l.length := by
  induction l generalizing v rest with
  | nil => simp [takeLast] at h
  | cons a as ih =>
    unfold takeLast at h
    split at h
    · next w r hr => cases h; have := ih hr; simp; omega
    · split at h
      · cases h; rfl
      · cases h

theorem victimOf_length {p : Priority} {q rest : List CtlFrame} {v : CtlFrame} (h : victimOf p q = some (v, rest)) :
    rest.length + 1 = q.length := by
  unfold victimOf at h
  split at h
  · exact takeLast_length _ _ h
  · cases h

theorem offer_moves (f : CtlFrame) (s : State) : Moves P s (offer f s).2 := by
  unfold offer
  dsimp only
  split
  · exact .refl _
  · next hup =>
    split
    · next hlt =>
      exact .of (.port _ _ _ ⟨rfl, fun h => ⟨h.lane, by simpa using hlt, h.closes, h.once⟩, fun h => by
        rw [h] at hup; cases hup⟩)
    · next hge =>
      split
      · exact .refl _
      · next v rest hv =>
        exact .of (.port _ _ _ ⟨rfl, fun h => ⟨h.lane, by
          have := victimOf_length hv; have := h.ctl; simp only [List.length_append, List.length_singleton]; omega,
          h.closes, h.once⟩, fun h => by rw [h] at hup; cases hup⟩)

theorem offerQuietly_moves (f : CtlFrame) (s : State) : Moves P s (offerQuietly f s) := offer_moves f s

theorem closeAdd_moves (c : CellIx) (x : Channel) (s : State) : Moves P s (closeAdd c x s) := by
  unfold closeAdd
  dsimp only
  split
  · exact .refl _
  · next hup =>
    split
    · exact .refl _
    · next hn =>
      push Not at hn
      exact .of (.port _ _ _ ⟨rfl, fun h => ⟨h.lane, h.ctl, by
        simp only [List.length_append, List.length_singleton]; omega,
        List.nodup_append.2 ⟨h.once, List.nodup_singleton _, by
          intro a ha b hb; simp at hb; subst hb; intro he; exact hn.1 (he ▸ ha)⟩⟩,
        fun h => by rw [h] at hup; cases hup⟩)

theorem withdrawOpen_moves (t : Txn) (c : CellIx) (s : State) : Moves P s (withdrawOpen t c s) :=
  .of (.port _ _ _ ⟨rfl, fun h => h.shrink le_rfl (List.length_filter_le _ _) (List.Sublist.refl _), fun h => by
    rw [h]; rfl⟩)

theorem AnswersOk.filter {as : List Answer} (h : AnswersOk as) (f : Answer → Bool) : AnswersOk (as.filter f) :=
  ⟨(List.length_filter_le _ _).trans h.length, h.once.sublist (List.filter_sublist.map _)⟩

theorem freeAnswer_moves (a : Answer) (s : State) : Moves P s (freeAnswer a s) :=
  (Moves.of (.answers _ _ fun h => h.filter _)).trans (withdrawOpen_moves _ _ _)

theorem markCancelled_moves (t : Txn) (s : State) : Moves P s (markCancelled t s) :=
  .of (.answers _ _ fun h => ⟨by simpa using h.length, by
    rw [List.map_map, List.map_congr_left (g := fun a : Answer => a.txn)]
    · exact h.once
    · intro a _; simp only [Function.comp]; split <;> rfl⟩)

theorem cancelTxn_moves (t : Txn) (s : State) : Moves P s (cancelTxn t s) := by
  unfold cancelTxn
  split
  · exact .refl _
  · split
    · exact .refl _
    · split
      · exact freeAnswer_moves _ _
      · exact markCancelled_moves _ _

theorem withdrawHoAt_moves (x : Channel) (s : State) (p : PortIx) : Moves P s (withdrawHoAt x s p) :=
  .of (.port _ _ _ ⟨rfl, fun h => h.shrink le_rfl (List.length_filter_le _ _) (List.Sublist.refl _), fun h => by
    rw [h]; rfl⟩)

theorem withdrawHo_moves (x : Channel) (s : State) : Moves P s (withdrawHo x s) := .foldl _ (withdrawHoAt_moves x) _ _

/-- Some number of `n + 1` successive ones is not held, when at most `n` are (R140). -/
theorem nextTxnFrom_free (as : List Answer) (n : Nat) (t : Txn)
    (h : ∃ j, j ≤ n ∧ ∀ a ∈ as, a.txn ≠ t + BitVec.ofNat 12 j) : ∀ a ∈ as, a.txn ≠ nextTxnFrom as n t := by
  induction n generalizing t with
  | zero =>
    obtain ⟨j, hj, h⟩ := h
    obtain rfl : j = 0 := by omega
    intro a ha
    simpa [nextTxnFrom] using h a ha
  | succ n ih =>
    unfold nextTxnFrom
    split
    · next hh =>
      refine ih _ ?_
      obtain ⟨j, hj, h⟩ := h
      cases j with
      | zero =>
        obtain ⟨a, ha, he⟩ := List.any_eq_true.1 hh
        exact absurd (of_decide_eq_true he) (by simpa using h a ha)
      | succ j =>
        refine ⟨j, by omega, fun a ha => ?_⟩
        have := h a ha
        rwa [Nat.add_comm, BitVec.ofNat_add, ← BitVec.add_assoc] at this
    · next hh =>
      intro a ha he
      exact hh (List.any_eq_true.2 ⟨a, ha, decide_eq_true he⟩)

/-- The number that is allocated next is not held (R140). -/
theorem nextTxn_free {s : State} (h : s.answers.length ≤ Config.answerCapacity) :
    ∀ a ∈ s.answers, a.txn ≠ s.nextTxn := by
  refine nextTxnFrom_free _ _ _ ?_
  by_contra hc
  push Not at hc
  have : Nonempty Answer := ⟨⟨0, 0, 0, 0, false⟩⟩
  choose! g hg using hc
  have hlt : s.answers.toFinset.card < (Finset.range 66).card :=
    (List.toFinset_card_le _).trans_lt (by simpa [Config.answerCapacity] using Nat.lt_of_le_of_lt h (by decide))
  obtain ⟨i, hi, j, hj, hne, he⟩ := Finset.exists_ne_map_eq_of_card_lt_of_maps_to hlt
    (f := g) (fun j hj => List.mem_toFinset.2 (hg j (by simp at hj; omega)).1)
  simp only [Finset.mem_range] at hi hj
  have h1 := (hg i (by omega)).2
  have h2 := (hg j (by omega)).2
  rw [he, h2] at h1
  have := congrArg BitVec.toNat (add_left_cancel h1)
  simp only [BitVec.toNat_ofNat] at this
  omega

/-- An allocation of a number that is not held, on a list that has room (R140). -/
theorem allocateTxn_moves (t : Txn) (x : Channel) (c : CellIx) (s : State) (h : s.txnAvailable = true)
    (hf : ∀ a ∈ s.answers, a.txn ≠ t) : Moves P s (allocateTxn t x c s) := by
  have hl : s.answers.length < Config.answerCapacity := of_decide_eq_true h
  refine (Moves.of (.answers s (s.answers ++ [⟨t, x, c, s.after s.config.legTime, false⟩]) fun k => ⟨by simpa using hl, ?_⟩)).snoc
    (.txn _ (t + 1))
  rw [List.map_append, List.map_singleton]
  refine List.nodup_append.2 ⟨k.once, List.nodup_singleton _, ?_⟩
  simp only [List.mem_map, List.mem_singleton]
  rintro _ ⟨a, ha, rfl⟩ _ rfl
  exact hf a ha

/-! ### Trunk queues, lanes, notices -/

theorem reply_moves (r : Reply) (s : State) : Moves P s (reply r s) := by
  unfold reply
  split
  · exact .refl _
  · next hup =>
    split
    · next hlt =>
      exact .of (.trunk _ _ ⟨rfl, rfl, fun h => ⟨h.voice, by simpa using hlt, h.mgmtIn⟩, fun h => by
        rw [h] at hup; cases hup⟩)
    · exact .of (.device _ _)

theorem trunkVoice_moves (v : Vox) (s : State) : Moves P s (trunkVoice v s) := by
  unfold trunkVoice
  split
  · exact .refl _
  · next hup =>
    refine .of (.trunk _ _ ⟨rfl, rfl, fun h => ⟨?_, h.replies, h.mgmtIn⟩, fun h => by rw [h] at hup; cases hup⟩)
    have := h.voice
    simp only [Config.trunkVoiceCapacity] at *
    simp only [List.length_append, List.length_singleton]
    split
    · omega
    · simp only [List.length_drop]; omega

theorem laneVoice_moves (c : CellIx) (v : Vox) (s : State) : Moves P s (laneVoice c v s) := by
  unfold laneVoice
  dsimp only
  split
  · exact .refl _
  · next hup =>
    refine .of (.port _ _ _ ⟨rfl, fun h => ⟨?_, h.ctl, h.closes, h.once⟩, fun h => by rw [h] at hup; cases hup⟩)
    have := h.lane
    simp only [Config.laneCapacity] at *
    simp only [List.length_append, List.length_singleton]
    split
    · omega
    · simp only [List.length_drop]; omega

theorem pushNotice_moves (n : Notice) (s : State) (h : s.noticeRoom = true) (hn : ∀ i, n ≠ .location i)
    (hp : ∀ e, n ≠ .pageOutcome e) : Moves P s (pushNotice n s) := .of (.push _ _ h hn hp)

/-- A record that says the same of its handset. -/
theorem visitorOk_of_holder {i : RecIx} {a b : Record} (hb : b.holder = a.holder) (h : a.VisitorOk i) : b.VisitorOk i := by
  unfold Record.VisitorOk Record.enrolled at *
  rwa [hb]

theorem markDirty_moves (i : RecIx) (s : State) : Moves P s (markDirty i s) :=
  .of_records (.mark _ _) (fun j => by
    unfold Record.channel; rw [Record.enrolled_of_holder (markDirty_holder i j s)]) (markDirty_calls i s)

/-! ### Cells (Machine/Cells.lean) -/

theorem CellRec.stored_eq {a b : CellRec} (h : b = { a with service := b.service, occupancy := b.occupancy, congested := b.congested }) :
    b.stored = a.stored := by rw [h]; rfl

/-- A reserve at a record IN_SERVICE, below the capacity, keeps its limits (R60 to R63). -/
theorem CellRec.Ok.reserved {r : CellRec} (k : r.Ok) (hs : r.service = .inService) (ho : r.occupancy < r.capacity) :
    ({ r with occupancy := r.occupancy + 1, congested := congestedAfterReserve r (r.occupancy + 1) } : CellRec).Ok :=
  { k with
    occupancy := ho
    empty := nofun
    absent := fun hp => absurd (hs.symm.trans (k.absent hp).1) nofun }

/-- A release keeps the limits of a record (R60, R63). -/
theorem CellRec.Ok.released {r : CellRec} (k : r.Ok) :
    ({ r with occupancy := r.occupancy - 1, congested := congestedAfterRelease r (r.occupancy - 1) } : CellRec).Ok :=
  { k with
    occupancy := (Nat.sub_le _ _).trans k.occupancy
    empty := fun h => by
      have h : r.occupancy - 1 = 0 := h
      show congestedAfterRelease r (r.occupancy - 1) = false
      simp [congestedAfterRelease, h]
    absent := fun hp => by
      obtain ⟨h1, h2, h3⟩ := k.absent hp
      exact ⟨h1, by show r.occupancy - 1 = 0; rw [h2], by simp [congestedAfterRelease, h3]⟩ }

theorem reserve_moves {c : CellIx} {limit : Nat} {s t : State} (hl : limit ≤ (s.cell c).capacity)
    (h : reserve c limit s = .ok t) : Moves P s t := by
  unfold reserve at h
  dsimp only at h
  split at h
  · next hs =>
    split at h
    · next hlt =>
      cases h
      exact .of (.cell _ _ _ ⟨rfl, rfl, .inl rfl, fun k => k.reserved hs (hlt.trans_le hl)⟩)
    · cases h
  · cases h

theorem initialLimit_le (r : CellRec) (p : Priority) : initialLimit r p ≤ r.capacity := by
  unfold initialLimit; split <;> omega

theorem enterFollowOn_moves (c : CellIx) (next : FollowOn) (s : State)
    (h : ∃ d, (s.cell c).service = .draining next d) : Moves P s (enterFollowOn c next s) := by
  obtain ⟨d, h⟩ := h
  have hp : (s.cell c).Ok → (s.cell c).present ≠ false := fun k hp => absurd (h.symm.trans (k.absent hp).1) nofun
  cases next with
  | outOfService =>
    exact .of (.cell _ _ _ ⟨rfl, rfl, .inr (by rw [h]), fun k => { k with absent := fun h => absurd h (hp k) }⟩)
  | restarting =>
    have hc : CellMove (s.cell c) { s.cell c with service := .restarting (s.after (s.config.restartTime * 1000)) } :=
      ⟨rfl, rfl, .inr (by rw [h]; exact ⟨_, rfl⟩), fun k => { k with absent := fun h => absurd h (hp k) }⟩
    exact (Moves.of (.cell s c _ hc)).trans (offerQuietly_moves _ _)

theorem endDrainIfEmpty_moves (c : CellIx) (s : State) : Moves P s (endDrainIfEmpty c s) := by
  unfold endDrainIfEmpty
  split
  · exact .refl _
  · exact .refl _
  · next next d h =>
    split
    · exact enterFollowOn_moves _ _ _ ⟨d, h⟩
    · exact .refl _
  · exact .refl _

theorem releaseSlot_moves (c : CellIx) (s : State) : Moves P s (releaseSlot c s) :=
  have h : CellMove (s.cell c) { s.cell c with
      occupancy := (s.cell c).occupancy - 1
      congested := congestedAfterRelease (s.cell c) ((s.cell c).occupancy - 1) } :=
    ⟨rfl, rfl, .inl rfl, fun k => k.released⟩
  (Moves.of (.cell s c _ h)).trans (endDrainIfEmpty_moves _ _)

/-! ### Pages (Machine/Pages.lean) -/

theorem settlePage_records (e : PageIx) (o : PageOutcome) (s : State) : (settlePage e o s).records = s.records := by
  unfold settlePage pushNotice
  repeat' split
  all_goals rfl

theorem settlePage_calls (e : PageIx) (o : PageOutcome) (s : State) : (settlePage e o s).calls = s.calls := by
  unfold settlePage pushNotice
  repeat' split
  all_goals rfl

theorem settlePage_moves {e : PageIx} (o : PageOutcome) {s : State} (h : s.Unsettled e) : Moves P s (settlePage e o s) :=
  .of (.settle s e o h) (settlePage_records _ _ _) (settlePage_calls _ _ _)

/-- The entry that a search among those in PAGING finds. -/
theorem State.pagingEntry_unsettled {s : State} {q : PageEntry → Bool} {e : PageIx} (h : s.pagingEntry q = some e) :
    s.Unsettled e := fun p hp => by
  have k := Table.find_some _ _ _ h
  have hg : s.pages.get none e = some p := hp
  rw [hg] at k
  simp only [Bool.and_eq_true] at k
  exact k.1

theorem immediateOutcome_moves (h : Hid) (o : PageOutcome) (s : State) : Moves P s (immediateOutcome h o s) := by
  unfold immediateOutcome
  split
  · next hr => exact pushNotice_moves _ _ hr (by simp) (by simp)
  · exact .of (.device _ _)

theorem pageReport_moves (i : RecIx) (h : Hid) (loc : Location) (s : State) : Moves P s (pageReport i h loc s) := by
  unfold pageReport
  split
  · exact .refl _
  · next he =>
    have hu := State.pagingEntry_unsettled he
    split
    · exact settlePage_moves _ hu
    · exact .refl _
    · exact settlePage_moves _ hu

theorem offerPages_moves (h : Hid) (cs : List CellIx) (n : Nat) (s : State) : Moves P s (offerPages h cs n s).2 := by
  induction cs generalizing n s with
  | nil => exact .refl _
  | cons c cs ih =>
    unfold offerPages
    split
    · have key := offer_moves (P := P) (.page c h) s
      split <;> next heq => rw [heq] at key; exact key.trans (ih _ _)
    · exact ih _ _

theorem offerPages_pages (h : Hid) (cs : List CellIx) (n : Nat) (s : State) : (offerPages h cs n s).2.pages = s.pages := by
  induction cs generalizing n s with
  | nil => rfl
  | cons c cs ih =>
    have key : (offer (.page c h) s).2.pages = s.pages := by
      unfold offer
      dsimp only
      repeat' split
      all_goals rfl
    unfold offerPages
    split
    · split <;> next heq => rw [heq] at key; exact (ih _ _).trans key
    · exact ih _ _

theorem occasion_moves (e : PageIx) (s : State) : Moves P s (occasion e s) := by
  unfold occasion
  split
  · exact .refl _
  · next p hp =>
    split
    · exact .refl _
    · next hs => exact settlePage_moves _ fun q hq => by rw [hp] at hq; cases hq; unfold PageEntry.paging; rw [hs]
    · next hs =>
      have key := offerPages_moves (P := P) p.hid p.cells 0 s
      have hu : (offerPages p.hid p.cells 0 s).2.Unsettled e := fun q hq => by
        unfold State.page at hq
        rw [offerPages_pages] at hq
        have hq : s.page e = some q := hq
        rw [hp] at hq; cases hq; unfold PageEntry.paging; rw [hs]
      dsimp only
      split
      · exact key.snoc (.page _ _ _ hu fun _ h => by cases h; rfl)
      · exact key.snoc (.page _ _ _ hu fun _ h => by cases h; rfl)

theorem pageRequest_moves (h : Hid) (a : Nat) (s : State) : Moves P s (pageRequest h a s) := by
  unfold pageRequest
  split
  · exact immediateOutcome_moves _ _ _
  · split
    · exact immediateOutcome_moves _ _ _
    · split
      · exact immediateOutcome_moves _ _ _
      · exact immediateOutcome_moves _ _ _
      · split
        · next he =>
          split
          · exact .refl _
          · split
            · exact .refl _
            · exact page_moves (State.pagingEntry_unsettled he) fun _ h => by cases h; rfl
        · split
          · exact immediateOutcome_moves _ _ _
          · next hf =>
            have hn := List.find?_some hf
            refine (page_moves (fun p hp => ?_) fun _ h => by cases h; rfl).trans (occasion_moves _ _)
            rw [hp] at hn; cases hn

/-! ### Registry (Machine/Registry.lean) -/

theorem holderAfter_visitorOk (i : RecIx) (e : Enrolled) (loc : Location) (r : Record) :
    Record.VisitorOk i { r with holder := holderAfter i e loc } := by
  intro hv f hf
  unfold Record.enrolled holderAfter at hf
  by_cases h : loc = .absent
  · simp [h, hv] at hf
  · simp [h] at hf
    subst hf; exact h

/-- What a change of location leaves of each record. -/
theorem writeLocation_enrolled (i : RecIx) (e : Enrolled) (loc : Location) (s : State) :
    ((writeLocation i e loc s).record i).enrolled =
      (if loc = .absent ∧ isVisitor i = true then none else some { e with loc := loc }) ∧
    ∀ j, j ≠ i → ((writeLocation i e loc s).record j).enrolled = (s.record j).enrolled := by
  refine ⟨?_, fun j hj => ?_⟩
  · unfold writeLocation
    rw [Record.enrolled_of_holder (markDirty_holder i i _), State.record_setRecord_self]
    unfold Record.enrolled holderAfter
    by_cases h : loc = .absent ∧ isVisitor i = true
    · simp [h]
    · simp [h]
  · unfold writeLocation
    rw [Record.enrolled_of_holder (markDirty_holder i j _), State.record_setRecord_ne _ hj]

theorem writeLocation_channel (i : RecIx) (e : Enrolled) (loc : Location) (s : State) :
    ((writeLocation i e loc s).record i).channel = loc.channel ∧
    ∀ j, j ≠ i → ((writeLocation i e loc s).record j).channel = (s.record j).channel := by
  have h := writeLocation_enrolled i e loc s
  refine ⟨?_, fun j hj => by unfold Record.channel; rw [h.2 j hj]⟩
  unfold Record.channel
  rw [h.1]
  by_cases hl : loc = .absent ∧ isVisitor i = true
  · rw [if_pos hl, hl.1]; rfl
  · rw [if_neg hl]; rfl

theorem writeLocation_calls (i : RecIx) (e : Enrolled) (loc : Location) (s : State) :
    (writeLocation i e loc s).calls = s.calls := markDirty_calls i _

/-- The fields a change of location writes are those of the record, or of a visitor whose HID no present record holds. -/
def Identified (s : State) (i : RecIx) (e : Enrolled) : Prop :=
  (s.record i).identity = some e.identity ∨ isVisitor i = true ∧ ∀ j, (s.record j).presentHid ≠ some e.hid

theorem Identified.of {s : State} {i : RecIx} {e : Enrolled} (h : (s.record i).enrolled = some e) : Identified s i e :=
  .inl (Record.identity_of_enrolled h)

theorem Identified.recordMove {s : State} {i : RecIx} {e : Enrolled} (h : Identified s i e) (loc : Location) (t : Time) :
    RecordMove s i { s.record i with holder := holderAfter i e loc, lastChange := t } where
  visitor := fun _ => holderAfter_visitorOk i e loc ⟨.empty, t, (s.record i).dirty, (s.record i).queued⟩
  dirty := rfl
  queued := rfl
  identity := by
    unfold Record.identity Record.presentHid Record.enrolled holderAfter
    dsimp only
    by_cases hl : loc = .absent ∧ isVisitor i = true
    · rw [if_pos hl]; exact .inr ⟨hl.2, fun h hh => by cases hh⟩
    · rw [if_neg hl]
      rcases h with h | ⟨hv, h⟩
      · exact .inl h.symm
      · exact .inr ⟨hv, fun k hk => by cases hk; exact h⟩

/-- A change of location as a chain, whatever it does to the channel. -/
theorem writeLocation_raws {i : RecIx} {e : Enrolled} {loc : Location} {s : State} (h : Identified s i e) :
    Raws s (writeLocation i e loc s) :=
  (Relation.ReflTransGen.single (.record s i _ (h.recordMove loc s.now))).tail (.mark _ _)

/-- A change of location that keeps the channel. -/
theorem writeLocation_moves {i : RecIx} {e : Enrolled} {loc : Location} {s : State} (h : Identified s i e)
    (hc : (s.record i).channel = loc.channel) : Moves P s (writeLocation i e loc s) :=
  ⟨writeLocation_raws h, fun k => k.same (fun j => by
      by_cases hj : j = i
      · rw [hj, (writeLocation_channel i e loc s).1, hc]
      · exact (writeLocation_channel i e loc s).2 j hj)
    (fun x => by unfold State.handset State.call; rw [writeLocation_calls]),
    fun x hx => .inl (by unfold State.call at *; rwa [writeLocation_calls] at hx)⟩

theorem pageReport_records (i : RecIx) (h : Hid) (loc : Location) (s : State) :
    (pageReport i h loc s).records = s.records := by
  unfold pageReport
  repeat' split
  all_goals first
    | rfl
    | exact settlePage_records _ _ _

theorem pageReport_calls (i : RecIx) (h : Hid) (loc : Location) (s : State) : (pageReport i h loc s).calls = s.calls := by
  unfold pageReport
  repeat' split
  all_goals first
    | rfl
    | exact settlePage_calls _ _ _

theorem changeLocation_records (i : RecIx) (e : Enrolled) (loc : Location) (s : State) :
    (changeLocation i e loc s).records = (writeLocation i e loc s).records := pageReport_records _ _ _ _

theorem changeLocation_calls (i : RecIx) (e : Enrolled) (loc : Location) (s : State) :
    (changeLocation i e loc s).calls = s.calls := (pageReport_calls _ _ _ _).trans (writeLocation_calls _ _ _ _)

theorem changeLocation_raws {i : RecIx} {e : Enrolled} {loc : Location} {s : State} (h : Identified s i e) :
    Raws s (changeLocation i e loc s) :=
  (writeLocation_raws h).trans (pageReport_moves (P := fun _ => False) _ _ _ _).raws

theorem changeLocation_moves {i : RecIx} {e : Enrolled} {loc : Location} {s : State} (h : Identified s i e)
    (hc : (s.record i).channel = loc.channel) : Moves P s (changeLocation i e loc s) :=
  (writeLocation_moves h hc).trans (pageReport_moves _ _ _ _)

theorem offer_records (f : CtlFrame) (s : State) : (offer f s).2.records = s.records := by
  unfold offer
  dsimp only
  repeat' split
  all_goals rfl

theorem offer_calls (f : CtlFrame) (s : State) : (offer f s).2.calls = s.calls := by
  unfold offer
  dsimp only
  repeat' split
  all_goals rfl

theorem sendAck_records (c : CellIx) (h : Hid) (r : AttachResult) (s : State) : (sendAck c h r s).records = s.records :=
  offer_records _ _

theorem sendAck_calls (c : CellIx) (h : Hid) (r : AttachResult) (s : State) : (sendAck c h r s).calls = s.calls :=
  offer_calls _ _

theorem sendAck_moves (c : CellIx) (h : Hid) (r : AttachResult) (s : State) : Moves P s (sendAck c h r s) :=
  offerQuietly_moves _ _

/-- The withdrawal of a registration that is not in a call. -/
theorem revoke_moves {i : RecIx} {e : Enrolled} {s : State} (a : Attachment) (d : Denial) (h : Identified s i e)
    (hc : (s.record i).channel = none) : Moves P s (revoke i e a d s) :=
  (changeLocation_moves (loc := .absent) h hc).trans (sendAck_moves _ _ _ _)

/-! ### The release of a handset -/

/-- What a release does to records: the one released is in no call after it, and the others keep their channels (R32). -/
structure Released (i : RecIx) (s t : State) : Prop where
  raws : Raws s t
  calls : t.calls = s.calls
  freed : (t.record i).channel = none
  others : ∀ j, j ≠ i → (t.record j).channel = (s.record j).channel

theorem Released.stay {i : RecIx} {s : State} (h : (s.record i).channel = none) : Released i s s :=
  ⟨.refl, rfl, h, fun _ _ => rfl⟩

theorem Released.change {i : RecIx} {e : Enrolled} {loc : Location} {s : State} (h : Identified s i e)
    (hl : loc.channel = none) : Released i s (changeLocation i e loc s) :=
  have hw := writeLocation_channel i e loc s
  ⟨changeLocation_raws h, changeLocation_calls _ _ _ _,
    by unfold State.record at *; rw [changeLocation_records]; exact hw.1.trans hl,
    fun j hj => by have := hw.2 j hj; unfold State.record at *; rw [changeLocation_records]; exact this⟩

theorem Released.ack {i : RecIx} {s t : State} (h : Released i s t) (c : CellIx) (hid : Hid) (r : AttachResult) :
    Released i s (sendAck c hid r t) :=
  ⟨h.raws.trans (sendAck_moves (P := fun _ => False) _ _ _ _).raws, (sendAck_calls _ _ _ _).trans h.calls,
    by unfold State.record; rw [sendAck_records]; exact h.freed,
    fun j hj => by unfold State.record; rw [sendAck_records]; exact h.others j hj⟩

theorem releaseRecheck_released (i : RecIx) (s : State) : Released i s (releaseRecheck i s) := by
  unfold releaseRecheck
  split
  · next h => exact .stay (Record.channel_of_none h)
  · next e h =>
    split
    · next hl => exact .stay (by rw [Record.channel_of_enrolled h, hl]; rfl)
    · next hl => exact .stay (by rw [Record.channel_of_enrolled h, hl]; rfl)
    · split
      · exact .change (.of h) rfl
      · exact (Released.change (.of h) rfl).ack _ _ _

theorem releaseDetach_released (i : RecIx) (s : State) : Released i s (releaseDetach i s) := by
  unfold releaseDetach
  split
  · next h => exact .stay (Record.channel_of_none h)
  · next e h =>
    split
    · next hl => exact .stay (by rw [Record.channel_of_enrolled h, hl]; rfl)
    · next hl => exact .stay (by rw [Record.channel_of_enrolled h, hl]; rfl)
    · exact .change (.of h) rfl

/-- A present record with a new location keeps its identity. -/
theorem recordMove_present {s : State} {i : RecIx} {e e' : Enrolled} (h : (s.record i).enrolled = some e)
    (hi : e'.identity = e.identity) (hl : e'.loc ≠ .absent) :
    RecordMove s i { s.record i with holder := .present e' } where
  visitor := fun _ _ f hf => by simp [Record.enrolled] at hf; exact hf ▸ hl
  dirty := rfl
  queued := rfl
  identity := .inl (by rw [Record.identity_of_enrolled h, ← hi]; rfl)

theorem releaseReattach_released (i : RecIx) (s : State) : Released i s (releaseReattach i s) := by
  unfold releaseReattach
  split
  · next h => exact .stay (Record.channel_of_none h)
  · next e h =>
    split
    · next hl => exact .stay (by rw [Record.channel_of_enrolled h, hl]; rfl)
    · next hl => exact .stay (by rw [Record.channel_of_enrolled h, hl]; rfl)
    · next a x hl =>
      exact ⟨.single (.record _ _ _ (recordMove_present h rfl (by simp))), rfl,
        by rw [State.record_setRecord_self]; rfl, fun j hj => by rw [State.record_setRecord_ne _ hj]⟩

/-- What a release does, in each of its forms (R32, R33). -/
theorem releaseHandset_released (form : ReleaseForm) (i : RecIx) (s : State) : Released i s (releaseHandset form i s) := by
  cases form
  · exact releaseRecheck_released _ _
  · exact releaseReattach_released _ _
  · exact releaseDetach_released _ _

/-- The release of the record a context names, and the context IDLE: one change (R82). -/
theorem Released.close {i : RecIx} {s t : State} {x : Channel} (h : Released i s t) (hx : s.handset x = some i) :
    Moves P s (t.setCall x none) := by
  refine ⟨h.raws.tail (.call t x none fun _ k hk => by cases hk), fun hA j y => ?_, fun y hy => ?_⟩
  · have hc : ∀ z, t.handset z = s.handset z := fun z => by unfold State.handset State.call; rw [h.calls]
    have hcx : (s.record i).channel = some x := (hA i x).2 hx
    change (t.record j).channel = some y ↔ _
    unfold State.handset
    rw [State.call_setCall]
    by_cases hj : j = i
    · subst hj
      rw [h.freed]
      refine ⟨nofun, fun hy => ?_⟩
      split at hy
      · cases hy
      · next hne =>
        have : s.handset y = some j := by rw [← hc]; exact hy
        rw [← hA, hcx] at this
        exact absurd (Option.some.inj this).symm hne
    · rw [h.others j hj, hA j y]
      split
      · next he =>
        subst he
        rw [hx]
        exact ⟨fun e => absurd (Option.some.inj e).symm hj, nofun⟩
      · exact Iff.of_eq (congrArg (· = some j) (hc y).symm)
  · rw [State.call_setCall] at hy
    split at hy
    · cases hy
    · exact .inl (by unfold State.call at *; rwa [h.calls] at hy)

/-- The engage of a record in no call, and a new context that names it: one change (R77). -/
theorem engage_moves {s : State} {i : RecIx} {e : Enrolled} {x : Channel} {k : Call} (a : Attachment)
    (h : (s.record i).enrolled = some e) (hl : e.loc.channel = none) (hx : s.call x = none) (hk : k.handset = i)
    (hok : k.Ok) (hr : k.phase.inExecution = false) : Moves P s ((engage i e a x s).setCall x (some k)) := by
  have hw := writeLocation_channel i e (.engaged a x) s
  have hrec : ∀ j, (engage i e a x s).record j = (writeLocation i e (.engaged a x) s).record j := fun j => by
    unfold engage State.record; rw [changeLocation_records]
  have hcs : (engage i e a x s).calls = s.calls := changeLocation_calls _ _ _ _
  have hc : ∀ z, (engage i e a x s).call z = s.call z := fun z => by unfold State.call; rw [hcs]
  refine ⟨(changeLocation_raws (.of h)).tail (.call _ x (some k) fun _ j hj => by cases hj; exact hok), fun hA j y => ?_,
    fun y hy => ?_⟩
  · change ((engage i e a x s).record j).channel = some y ↔ _
    unfold State.handset
    rw [State.call_setCall, hc, hrec]
    by_cases hj : j = i
    · subst hj
      rw [hw.1]
      split
      · next he => subst he; exact ⟨fun _ => congrArg some hk, fun _ => rfl⟩
      · next hne =>
        refine ⟨fun he => absurd (Option.some.inj he).symm hne, fun hy => ?_⟩
        have := (hA j y).2 hy
        rw [Record.channel_of_enrolled h, hl] at this; cases this
    · rw [hw.2 j hj, hA j y]
      split
      · next he =>
        subst he
        unfold State.handset
        rw [hx]
        exact ⟨nofun, fun hy => absurd ((Option.some.inj hy).symm.trans hk) hj⟩
      · rfl
  · rw [State.call_setCall, hc] at hy
    split at hy
    · change k.phase.inExecution = true at hy; rw [hr] at hy; cases hy
    · exact .inl hy

theorem moveHandset_moves (i : RecIx) (c : CellIx) (s : State) : Moves P s (moveHandset i c s) := by
  unfold moveHandset
  split
  · exact .refl _
  · next e h =>
    split
    · exact .refl _
    · exact .refl _
    · next hl => exact writeLocation_moves (.of h) (by rw [Record.channel_of_enrolled h, hl]; rfl)

theorem record_present_moves {i : RecIx} {e e' : Enrolled} {s : State} (h : (s.record i).enrolled = some e)
    (hi : e'.identity = e.identity) (hl : e'.loc ≠ .absent) (hc : e'.loc.channel = e.loc.channel) :
    Moves P s (s.setRecord i { s.record i with holder := .present e' }) :=
  .record (recordMove_present h hi hl) (by rw [Record.channel_of_enrolled h, ← hc]; rfl)

theorem locationUpdate_moves (tell : Bool) (c : CellIx) (h : Hid) (q : Quality) (s : State) :
    Moves P s (locationUpdate tell c h q s).2 := by
  unfold locationUpdate
  dsimp only
  split
  · exact sendAck_moves _ _ _ _
  · next i _ =>
    split
    · exact sendAck_moves _ _ _ _
    next e he =>
      split
      · exact sendAck_moves _ _ _ _
      · next a x hl => exact record_present_moves he rfl (by simp) (by rw [hl]; rfl)
      · next a d hl =>
        have hc : (s.record i).channel = none := by rw [Record.channel_of_enrolled he, hl]; rfl
        split
        · exact record_present_moves he rfl (by simp) (by rw [hl]; rfl)
        · split
          · exact writeLocation_moves (.of he) hc
          · refine Moves.trans ?_ (sendAck_moves _ _ _ _)
            split
            · exact changeLocation_moves (.of he) hc
            · exact writeLocation_moves (.of he) hc

theorem detachRecord_moves (i : RecIx) (s : State) : Moves P s (detachRecord i s) := by
  unfold detachRecord
  split
  · exact .refl _
  · next e he =>
    split
    · exact .refl _
    · next hl => exact changeLocation_moves (.of he) (by rw [Record.channel_of_enrolled he, hl]; rfl)
    · exact .refl _

theorem revokeRecord_moves (i : RecIx) (d : Denial) (s : State) : Moves P s (revokeRecord i d s) := by
  unfold revokeRecord
  split
  · exact .refl _
  · next e he =>
    split
    · exact .refl _
    · next hl => exact revoke_moves _ _ (.of he) (by rw [Record.channel_of_enrolled he, hl]; rfl)
    · exact .refl _

/-! ### Calls and the handover request queue (Machine/Calls.lean) -/

theorem setPosted_moves (x : Channel) (b : Bool) (s : State) : Moves P s (setPosted x b s) :=
  .mod (fun _ => rfl) (fun _ h => ⟨h.fs, h.list, h.opening⟩) fun _ => .inl

theorem Hrq.Ok.sub {a b : Hrq} (h : a.Ok) (hu : b.urgent.Sublist a.urgent) (hn : b.normal.Sublist a.normal) : b.Ok :=
  ⟨(Nat.add_le_add hu.length_le hn.length_le).trans h.total, h.once.sublist ((hu.append hn).map _)⟩

theorem Hrq.without_ok {a : Hrq} (x : Channel) (h : a.Ok) : (a.without x).Ok :=
  h.sub List.filter_sublist List.filter_sublist

theorem Hrq.mem_channels {x : Channel} {q : Hrq} : x ∈ q.channels ↔ ∃ r ∈ q.urgent ++ q.normal, r.channel = x := by
  simp only [Hrq.channels, List.mem_map]

theorem Hrq.requestOf_none {x : Channel} {q : Hrq} (h : q.requestOf x = none) : x ∉ q.channels := by
  rw [Hrq.mem_channels]
  rintro ⟨r, hr, he⟩
  have := List.find?_eq_none.1 h r hr
  simp [he] at this

theorem Hrq.not_mem_without (x : Channel) (q : Hrq) : x ∉ (q.without x).channels := by
  rw [Hrq.mem_channels]
  rintro ⟨r, hr, he⟩
  simp only [Hrq.without, List.mem_append, List.mem_filter] at hr
  rcases hr with hr | hr <;> simp [he] at hr

/-- An append of a request whose channel is not held, while there is room (R114). -/
theorem Hrq.append_ok {q : Hrq} (r : Request) (h : q.Ok) (ht : q.total < Config.hrqCapacity) (hc : r.channel ∉ q.channels) :
    (q.append r).Ok := by
  have hm : r.channel ∉ q.urgent.map (·.channel) ∧ r.channel ∉ q.normal.map (·.channel) := by
    simpa [Hrq.channels, not_or] using hc
  have hn := h.once
  simp only [Hrq.channels, List.map_append, List.nodup_append] at hn
  unfold Hrq.total at ht
  unfold Hrq.append
  split
  · refine ⟨by simp [Hrq.total]; omega, ?_⟩
    simp only [Hrq.channels, List.map_append, List.map_cons, List.map_nil, List.nodup_append, List.nodup_singleton,
      List.mem_append, List.mem_singleton]
    refine ⟨⟨hn.1, trivial, ?_⟩, hn.2.1, ?_⟩
    · rintro a ha b rfl rfl; exact hm.1 ha
    · rintro a (ha | rfl) b hb
      · exact hn.2.2 a ha b hb
      · rintro rfl; exact hm.2 hb
  · refine ⟨by simp [Hrq.total]; omega, ?_⟩
    simp only [Hrq.channels, List.map_append, List.map_cons, List.map_nil, List.nodup_append, List.nodup_singleton,
      List.mem_append, List.mem_singleton]
    refine ⟨hn.1, ⟨hn.2.1, trivial, ?_⟩, ?_⟩
    · rintro a ha b rfl rfl; exact hm.2 ha
    · rintro a ha b (hb | rfl)
      · exact hn.2.2 a ha b hb
      · rintro rfl; exact hm.1 ha

theorem hrqRemove_moves (x : Channel) (s : State) : Moves P s (hrqRemove x s) := by
  unfold hrqRemove
  split
  · exact .refl _
  · exact (Moves.of (.hrq _ _ (Hrq.without_ok x))).trans (setPosted_moves _ _ _)

theorem hrqStore_moves (r : Request) (q : Hrq) (s : State) (h : s.hrq.Ok → (q.append r).Ok) : Moves P s (hrqStore r q s) :=
  (Moves.of (.hrq _ _ h)).trans (setPosted_moves _ _ _)

theorem Hrq.without_total_lt {x : Channel} {q : Hrq} {r : Request} (h : q.requestOf x = some r) :
    (q.without x).total < q.total := by
  have hm := List.mem_of_find?_eq_some h
  have hc : r.channel = x := by simpa using List.find?_some h
  have key : ∀ l : List Request, r ∈ l → (l.filter fun r => !decide (r.channel = x)).length < l.length := by
    intro l hl
    apply List.length_filter_lt_length_iff_exists.2
    exact ⟨r, hl, by simp [hc]⟩
  have le : ∀ l : List Request, (l.filter fun r => !decide (r.channel = x)).length ≤ l.length :=
    fun l => List.length_filter_le _ _
  unfold Hrq.total Hrq.without
  rcases List.mem_append.1 hm with hm | hm
  · have := key _ hm; have := le q.normal; simp only; omega
  · have := key _ hm; have := le q.urgent; simp only; omega

theorem hrqPost_moves (r : Request) (s : State) : Moves P s (hrqPost r s) := by
  unfold hrqPost
  split
  · next q hq =>
    refine hrqStore_moves _ _ _ fun h => Hrq.append_ok r (Hrq.without_ok _ h) ?_ (Hrq.not_mem_without _ _)
    exact (Hrq.without_total_lt hq).trans_le h.total
  · next hn =>
    split
    · next hlt => exact hrqStore_moves _ _ _ fun h => Hrq.append_ok r h hlt (Hrq.requestOf_none hn)
    · split
      · split
        · exact .refl _
        · next d hd =>
          refine (setPosted_moves _ _ _).trans (hrqStore_moves _ _ _ fun h => Hrq.append_ok r
            (h.sub (List.Sublist.refl _) (List.dropLast_sublist _)) ?_ ?_)
          · have hl : s.hrq.normal ≠ [] := by rintro he; rw [he] at hd; cases hd
            have := List.length_pos_of_ne_nil hl
            have := h.total
            unfold Hrq.total at *
            simp only [setPosted, State.modCall_hrq, List.length_dropLast] at *
            omega
          · intro hm
            apply Hrq.requestOf_none hn
            rw [Hrq.mem_channels] at hm ⊢
            obtain ⟨q, hq, he⟩ := hm
            refine ⟨q, ?_, he⟩
            rcases List.mem_append.1 hq with hq | hq
            · exact List.mem_append_left _ hq
            · exact List.mem_append_right _ (List.mem_of_mem_dropLast hq)
      · exact .refl _

/-! ### What leaves records, contexts or handsets alone -/

theorem withdrawOpen_calls (t : Txn) (c : CellIx) (s : State) : (withdrawOpen t c s).calls = s.calls := rfl

theorem cancelTxn_calls (t : Txn) (s : State) : (cancelTxn t s).calls = s.calls := by
  unfold cancelTxn freeAnswer markCancelled
  repeat' split
  all_goals rfl

theorem enterFollowOn_calls (c : CellIx) (f : FollowOn) (s : State) : (enterFollowOn c f s).calls = s.calls := by
  cases f
  · rfl
  · exact offer_calls _ _

theorem releaseSlot_calls (c : CellIx) (s : State) : (releaseSlot c s).calls = s.calls := by
  unfold releaseSlot endDrainIfEmpty
  dsimp only
  repeat' split
  all_goals first
    | rfl
    | exact enterFollowOn_calls _ _ _

theorem closeAdd_calls (c : CellIx) (x : Channel) (s : State) : (closeAdd c x s).calls = s.calls := by
  unfold closeAdd
  dsimp only
  repeat' split
  all_goals rfl

theorem cancelOpen_calls (s : State) (o : CellIx × Txn) : (cancelOpen s o).calls = s.calls :=
  (releaseSlot_calls _ _).trans (cancelTxn_calls _ _)

theorem closeLeg_calls (x : Channel) (s : State) (c : CellIx) : (closeLeg x s c).calls = s.calls :=
  (releaseSlot_calls _ _).trans (closeAdd_calls _ _ _)

theorem foldl_calls {α : Type} {f : State → α → State} (h : ∀ s a, (f s a).calls = s.calls) (l : List α) (s : State) :
    (l.foldl f s).calls = s.calls := by
  induction l generalizing s with
  | nil => rfl
  | cons a l ih => exact (ih _).trans (h s a)

theorem withdrawHo_calls (x : Channel) (s : State) : (withdrawHo x s).calls = s.calls :=
  foldl_calls (f := withdrawHoAt x) (fun _ _ => rfl) _ _

theorem State.call_congr {s t : State} (h : t.calls = s.calls) (x : Channel) : t.call x = s.call x := by
  unfold State.call
  rw [h]

theorem setPosted_handset (x : Channel) (b : Bool) (s : State) (y : Channel) :
    (setPosted x b s).handset y = s.handset y := by
  unfold State.handset setPosted
  rw [State.call_modCall]
  split
  · next h => rw [h]; cases s.call x <;> rfl
  · rfl

theorem hrqRemove_handset (x : Channel) (s : State) (y : Channel) : (hrqRemove x s).handset y = s.handset y := by
  unfold hrqRemove
  split
  · rfl
  · exact setPosted_handset _ _ _ _

/-! ### The ending of a call -/

theorem cancelOpen_moves (s : State) (o : CellIx × Txn) : Moves P s (cancelOpen s o) :=
  (cancelTxn_moves _ _).trans (releaseSlot_moves _ _)

theorem closeLeg_moves (x : Channel) (s : State) (c : CellIx) : Moves P s (closeLeg x s c) :=
  (closeAdd_moves _ _ _).trans (releaseSlot_moves _ _)

/-- The ending of a call, up to the release of its handset. -/
theorem endCall_before (x : Channel) (k : Call) (lost : Bool) (form : ReleaseForm) (s : State) :
    ∃ t, Moves P s t ∧ (∀ y, t.handset y = s.handset y) ∧
      endCall x k lost form s = (releaseHandset form k.handset t).setCall x none := by
  refine ⟨_, (((hrqRemove_moves x s).trans (.foldl _ cancelOpen_moves k.phase.opens _)).trans (withdrawHo_moves x _)).trans
    (.foldl _ (closeLeg_moves x) (k.phase.legCells lost) _), fun y => ?_, rfl⟩
  rw [← hrqRemove_handset x s y]
  unfold State.handset
  rw [State.call_congr (foldl_calls (closeLeg_calls x) _ _), State.call_congr (withdrawHo_calls x _),
    State.call_congr (foldl_calls cancelOpen_calls _ _)]

theorem endCall_moves {x : Channel} {k : Call} {s : State} (hk : s.handset x = some k.handset) (lost : Bool)
    (form : ReleaseForm) : Moves P s (endCall x k lost form s) := by
  obtain ⟨t, ht, hh, he⟩ := endCall_before (P := P) x k lost form s
  rw [he]
  exact ht.trans ((releaseHandset_released form k.handset t).close (by rw [hh, hk]))

theorem State.handset_of_call {s : State} {x : Channel} {k : Call} (h : s.call x = some k) :
    s.handset x = some k.handset := congrArg _ h

theorem dropCall_moves (x : Channel) (cause : DropCause) (lost : Bool) (s : State) : Moves P s (dropCall x cause lost s) := by
  unfold dropCall
  split
  · exact .refl _
  · next hk => exact ((device_moves _ s).trans (endCall_moves (s := s.count _) (State.handset_of_call hk) _ _)).trans (reply_moves _ _)

theorem failedOpen_moves {x : Channel} {k : Call} {s : State} (hk : s.handset x = some k.handset) (c : CellIx)
    (cause : FailCause) : Moves P s (failedOpen x k c cause s) := by
  unfold failedOpen
  refine ((releaseSlot_moves c s).trans ((releaseRecheck_released k.handset _).close ?_)).trans (reply_moves _ _)
  unfold State.handset at *
  rwa [State.call_congr (releaseSlot_calls c s)]

end Sys2Proof.Machine
end

