-- ==== Sys2Proof/Laws/CallMoves.lean ====
section
/-! SUPPORT. The operations of handover, evaluation, voice, attach and calls as chains of moves. -/

namespace Sys2Proof.Machine

variable {P : Channel → Prop}

/-! ### Handover execution (Machine/Handover.lean) -/

theorem countRefusal_moves (code : HoCode) (s : State) : Moves P s (countRefusal code s) := .of (.device _ _)
theorem countFallback_moves (s : State) : Moves P s (countFallback s) := .of (.device _ _)

/-- A call on the same serving leg with some of its candidates, their dwells reset or not. -/
theorem Call.Ok.phase {k : Call} (h : k.Ok) {p : Phase} {cs : List Candidate}
    (hs : p.serving = k.phase.serving ∨ p.serving = none)
    (hc : ∀ v, CandidatesOk v k.candidates → CandidatesOk v cs) (ho : ∀ c n, p = .opening c n → cs = []) :
    ({ k with phase := p, candidates := cs } : Call).Ok where
  fs := h.fs
  list := by
    change CandidatesOk (p.serving.map (·.cell)) cs
    rcases hs with hs | hs <;> rw [hs]
    · exact hc _ h.list
    · exact (hc _ h.list).unbarred
  opening := ho

/-- A call that changes in its phase alone, on its serving leg or on none. -/
theorem Call.Ok.step {k : Call} (h : k.Ok) {p : Phase} (hs : p.serving = k.phase.serving ∨ p.serving = none)
    (ho : ∀ c n, p ≠ .opening c n) : ({ k with phase := p } : Call).Ok :=
  h.phase hs (fun _ => id) fun c n e => absurd e (ho c n)

theorem refuseRequest_moves (x : Channel) (t : CellIx) (s : State) : Moves P s (refuseRequest x t s) :=
  .mod (fun k => by split <;> rfl) (fun k h => by
    split
    · next hp => exact h.phase (.inl (by rw [hp]; rfl)) (fun _ => resetDwell_ok t) nofun
    all_goals exact h) fun k hk => .inl (by
    split at hk
    · cases hk
    all_goals exact hk)

/-- The state a try leaves. -/
def TargetTry.state : TargetTry → State
  | .refused _ s => s
  | .queueRefused s => s
  | .admitted _ _ s => s

theorem offer_answers (f : CtlFrame) (s : State) : (offer f s).2.answers = s.answers := by
  unfold offer
  dsimp only
  repeat' split
  all_goals rfl

theorem offerTargetOpen_moves (x : Channel) (h : Hid) (t : CellIx) (role : Role) (s : State) :
    Moves P s (offerTargetOpen x h t role s).state := by
  unfold offerTargetOpen
  split
  · next ha =>
    have hl := of_decide_eq_true ha
    have key := offer_moves (P := P) (.legOpen t s.nextTxn x h role) s
    have hk := offer_answers (.legOpen t s.nextTxn x h role) s
    split <;> next heq =>
      rw [heq] at key hk
      first
        | with_reducible exact key.trans (releaseSlot_moves _ _)
        | with_reducible exact key.trans (allocateTxn_moves _ _ _ _ (by unfold State.txnAvailable at *; rw [hk]; exact ha)
            (by rw [hk]; exact nextTxn_free (Nat.le_of_lt hl)))
  · exact releaseSlot_moves _ _

theorem tryTarget_moves (x : Channel) (i : RecIx) (t : CellIx) (role : Role) (b : Bool) (s : State) :
    Moves P s (tryTarget x i t role b s).state := by
  unfold tryTarget
  split
  · exact .refl _
  · split
    · exact .refl _
    · split
      · exact .refl _
      · split
        · exact .refl _
        · split
          · exact .refl _
          · next h => exact (reserve_moves le_rfl h).trans (offerTargetOpen_moves _ _ _ _ _)

theorem abandonTarget_moves (x : Channel) (t : CellIx) (how : TargetEnd) (s : State) :
    Moves P s (abandonTarget x t how s) := by
  cases how
  · exact cancelOpen_moves _ _
  · exact releaseSlot_moves _ _
  · exact closeLeg_moves _ _ _
  · exact releaseSlot_moves _ _

theorem abandonTarget_calls (x : Channel) (t : CellIx) (how : TargetEnd) (s : State) :
    (abandonTarget x t how s).calls = s.calls := by
  cases how
  · exact cancelOpen_calls _ _
  · exact releaseSlot_calls _ _
  · exact closeLeg_calls _ _ _
  · exact releaseSlot_calls _ _

theorem fallback_moves {x : Channel} {k : Call} {l : Leg} {s : State} (hk : s.call x = some k)
    (hl : k.phase.serving = some l) (t : CellIx) (how : TargetEnd) : Moves P s (fallback x k l t how s) := by
  unfold fallback
  refine Moves.trans ?_ (countFallback_moves _)
  refine Moves.trans ((abandonTarget_moves x t how s).trans (withdrawHo_moves x _)) (.set (k := k) ?_ ?_ nofun)
  · rw [State.call_congr (withdrawHo_calls x _), State.call_congr (abandonTarget_calls x t how s), hk]
  · exact fun h => h.phase (.inl hl.symm) (fun _ => resetDwell_ok t) nofun

theorem lastQuality_le (s : State) (i : RecIx) : lastQuality s i ≤ 63 := by
  unfold lastQuality
  repeat' split
  all_goals omega

/-- The Fs a commit sets (R130). -/
theorem committedFs_le {k : Call} (h : k.Ok) (t : CellIx) (s : State) :
    (candidateF t k.candidates).getD (16 * lastQuality s k.handset) ≤ 1008 := by
  unfold candidateF
  cases hf : k.candidates.find? fun c => decide (c.cell = t) with
  | none => have := lastQuality_le s k.handset; simp only [Option.map_none, Option.getD_none]; omega
  | some c => exact (h.list.ranges c (List.mem_of_find?_eq_some hf)).1

theorem commit_moves {x : Channel} {k : Call} {s : State} (hk : s.call x = some k) (old : Option Leg) (t : Target)
    (slot : Slot) (b : Bool) : Moves P s (commit x k old t slot b s) := by
  have key : ∀ u : State, u.call x = some k → Moves P s u → Moves P s (commit x k none t slot b u) := fun u hu hm => by
    unfold commit
    refine Moves.trans ?_ (device_moves _ _)
    refine Moves.trans ?_ (withdrawHo_moves _ _)
    refine Moves.trans ?_ (moveHandset_moves _ _ _)
    exact hm.trans (.set hu (fun h => ⟨committedFs_le h t.cell u, .nil _, nofun⟩) nofun)
  cases old with
  | none => exact key s hk (.refl s)
  | some l => exact key _ (by rw [State.call_congr (closeLeg_calls _ _ _), hk]) (closeLeg_moves _ _ _)

theorem dropCandidate_moves (x : Channel) (t : CellIx) (s : State) : Moves P s (dropCandidate x t s) :=
  .mod (fun _ => rfl) (fun _ h => ⟨h.fs, h.list.sublist List.filter_sublist, fun c n hp => by
    change List.filter _ _ = []; rw [h.opening c n hp]; rfl⟩) fun _ => .inl

theorem passOn_moves {f : Channel → CellIx → State → State} {x : Channel} (hf : ∀ t s, Moves P s (f x t s)) (s : State) :
    Moves P s (passOn f x s) := by
  unfold passOn
  repeat' split
  all_goals first
    | with_reducible exact .refl _
    | with_reducible exact dropCall_moves _ _ _ _
    | with_reducible exact hf _ _

theorem endAttempt_moves {x : Channel} {k : Call} {s : State} (hk : s.call x = some k) (t : CellIx) (d : Time) : Moves P s (endAttempt x k t d s) := by
  unfold endAttempt
  refine Moves.trans ?_ (dropCandidate_moves _ _ _)
  exact (releaseSlot_moves t s).trans (.set (by rw [State.call_congr (releaseSlot_calls t s), hk])
    (fun h => h.step (.inr rfl) nofun) nofun)

/-- A way to pass a rescue on, that may bring its own context into execution. -/
def Passes (f : Channel → State → State) : Prop := ∀ (P : Channel → Prop) (x : Channel) (s : State), P x → Moves P s (f x s)

theorem deliverFail_moves {f : Channel → State → State} (hf : Passes f) (x : Channel) (t : Txn)
    (cause : FailCause) (s : State) : Moves P s (deliverFail f x t cause s) := by
  unfold deliverFail
  split
  · exact .refl _
  · next k hk =>
    split
    · split
      · exact failedOpen_moves (State.handset_of_call hk) _ _
      · exact .refl _
    · exact .refl _
    · next hp =>
      split
      · exact fallback_moves hk (by rw [hp]; rfl) _ _
      · exact .refl _
    · exact .refl _
    · exact .refl _
    · next hp =>
      split
      · exact .already (x := x) (by rw [hk]; change k.phase.inExecution = true; rw [hp]; rfl)
          ((endAttempt_moves hk _ _).trans (hf _ _ _ (.inr rfl)))
      · exact .refl _

theorem resolveFail_moves {f : Channel → State → State} (hf : Passes f) (a : Answer) (cause : FailCause)
    (s : State) : Moves P s (resolveFail f a cause s) := by
  unfold resolveFail
  split
  · exact freeAnswer_moves _ _
  · exact (freeAnswer_moves _ _).trans (deliverFail_moves hf _ _ _ _)

theorem settleVictim_moves {f : Channel → State → State} (hf : Passes f) (v : Option CtlFrame)
    (s : State) : Moves P s (settleVictim f v s) := by
  unfold settleVictim
  repeat' split
  all_goals first
    | with_reducible exact .refl _
    | with_reducible exact resolveFail_moves hf _ _ _

theorem beginAttempt_moves {x : Channel} (hx : P x) (t : CellIx) (n : Txn) (s : State) :
    Moves P s (beginAttempt x t n s) :=
  .mod (fun k => by split <;> rfl) (fun k h => by
    split
    · exact h.step (.inr rfl) nofun
    all_goals exact h) fun _ _ => .inr hx

theorem rescueTry_moves (n : Nat) {x : Channel} (hx : P x) (t : CellIx) (s : State) : Moves P s (rescueTry n x t s) := by
  induction n generalizing P x t s with
  | zero => unfold rescueTry; exact dropCall_moves _ _ _ _
  | succ n ih =>
    have hp : Passes (passOn (rescueTry n)) := fun Q y s hy => passOn_moves (fun t s => ih hy t s) s
    unfold rescueTry
    split
    · exact .refl _
    · next k _ =>
      have key := tryTarget_moves (P := P) x k.handset t .rescue false s
      split <;> next heq =>
        rw [heq] at key
        first
          | exact key.trans (((countRefusal_moves _ _).trans (dropCandidate_moves _ _ _)).trans (hp _ _ _ hx))
          | (refine Moves.trans ?_ (settleVictim_moves hp _ _); exact key.trans (beginAttempt_moves hx _ _ _))

theorem nextCandidate_passes : Passes nextCandidate := fun _ _ s hx => passOn_moves (fun t s => rescueTry_moves _ hx t s) s

theorem postRescue_moves (x : Channel) (s : State) : Moves P s (postRescue x s) := by
  unfold postRescue
  repeat' split
  all_goals first
    | with_reducible exact .refl _
    | with_reducible exact hrqPost_moves _ _

theorem servingLegLoss_moves (x : Channel) (cause : DropCause) (s : State) : Moves P s (servingLegLoss x cause s) := by
  unfold servingLegLoss
  split
  · exact .refl _
  · next k hk =>
    have hr : ∀ c, (releaseSlot c s).call x = some k := fun c => by rw [State.call_congr (releaseSlot_calls c s), hk]
    split
    · exact .refl _
    · dsimp only
      split
      · exact (releaseSlot_moves _ _).trans (dropCall_moves _ _ _ _)
      · refine Moves.trans ?_ (postRescue_moves _ _)
        exact (releaseSlot_moves _ _).trans (.set (hr _) (fun h => h.step (.inr rfl) nofun) nofun)
    · next hp =>
      exact (releaseSlot_moves _ _).trans (.set (hr _) (fun h => h.step (.inr rfl) nofun) fun _ => .inl (by rw [hp]; rfl))
    · exact (releaseSlot_moves _ _).trans (commit_moves (hr _) _ _ _ _)
    · exact .refl _

theorem offerHoCmd_moves {x : Channel} {k : Call} {l : Leg} {g : Option Time} {t : Target} {n : Txn} {s : State}
    (hk : s.call x = some k) (hp : k.phase = .preparing l g t n) (slot : Slot) (h : Hid) :
    Moves P s (offerHoCmd x k l g t n slot h s) := by
  unfold offerHoCmd
  have key := offer_moves (P := P) (.hoCmd l.cell n x h t.cell slot) s
  have hc := offer_calls (.hoCmd l.cell n x h t.cell slot) s
  split <;> next heq =>
    rw [heq] at key hc
    have hk' := (State.call_congr hc x).trans hk
    first
      | refine Moves.trans ?_ (settleVictim_moves nextCandidate_passes _ _)
        exact key.trans (.set hk' (fun h => h.step (.inl (by rw [hp]; rfl)) nofun) fun _ => .inl (by rw [hp]; rfl))
      | exact key.trans (fallback_moves hk' (by rw [hp]; rfl) _ _)

theorem deliverReady_moves (x : Channel) (t : Txn) (slot : Slot) (s : State) : Moves P s (deliverReady x t slot s) := by
  unfold deliverReady
  split
  · exact .refl _
  · next k hk =>
    split
    · next c n hp =>
      split
      · refine Moves.trans ?_ (reply_moves _ _)
        refine .set hk (fun h => ?_) nofun
        refine ⟨h.fs, ?_, nofun⟩
        change CandidatesOk _ k.candidates
        rw [h.opening c n hp]
        exact .nil _
      · exact .refl _
    · exact .refl _
    · next hp =>
      split
      · exact offerHoCmd_moves hk hp _ _
      · exact .refl _
    · exact .refl _
    · exact .refl _
    · split
      · exact commit_moves hk _ _ _ _
      · exact .refl _

theorem beginPreparing_moves {x : Channel} (hx : P x) (t : Target) (n : Txn) (s : State) :
    Moves P s (beginPreparing x t n s) :=
  .mod (fun k => by split <;> rfl) (fun k h => by
    split
    · next hp => exact h.step (.inl (by rw [hp]; rfl)) nofun
    all_goals exact h) fun _ _ => .inr hx

theorem takeHandover_moves {r : Request} (hx : P r.channel) (i : RecIx) (s : State) : Moves P s (takeHandover r i s) := by
  unfold takeHandover
  dsimp only
  split
  · exact (countRefusal_moves _ _).trans (refuseRequest_moves _ _ _)
  · have key := tryTarget_moves (P := P) r.channel i r.target .handover (!r.kind.urgent) s
    split <;> next heq =>
      rw [heq] at key
      first
        | with_reducible exact key.trans ((countRefusal_moves _ _).trans (refuseRequest_moves _ _ _))
        | with_reducible exact key.trans ((countFallback_moves _).trans (refuseRequest_moves _ _ _))
        | with_reducible exact key.trans ((beginPreparing_moves hx _ _ _).trans (settleVictim_moves nextCandidate_passes _ _))

theorem preemptiveRescue_moves {x : Channel} (hx : P x) (i : RecIx) (req : CellIx) (ts : List CellIx) (s : State) :
    Moves P s (preemptiveRescue x i req ts s) := by
  induction ts generalizing s with
  | nil => exact refuseRequest_moves _ _ _
  | cons t ts ih =>
    unfold preemptiveRescue
    have key := tryTarget_moves (P := P) x i t .rescue false s
    split <;> next heq =>
      rw [heq] at key
      first
        | with_reducible exact key.trans ((countRefusal_moves _ _).trans (ih _))
        | with_reducible exact key.trans ((beginPreparing_moves hx _ _ _).trans (settleVictim_moves nextCandidate_passes _ _))

theorem judgeRequest_moves {r : Request} (hx : P r.channel) (s : State) : Moves P s (judgeRequest r s) := by
  unfold judgeRequest
  repeat' split
  all_goals first
    | with_reducible exact .refl _
    | with_reducible exact takeHandover_moves hx _ _
    | with_reducible exact preemptiveRescue_moves hx _ _ _ _
    | with_reducible exact rescueTry_moves _ hx _ _

theorem Hrq.next_sub {q q' : Hrq} {r : Request} (h : q.next = some (r, q')) :
    q'.urgent.Sublist q.urgent ∧ q'.normal.Sublist q.normal := by
  unfold Hrq.next at h
  split at h
  · next hu => cases h; simp [hu]
  · split at h
    · next hn => cases h; simp [hn]
    · cases h

/-- A take brings at most one context into execution (R117). -/
theorem takeOne_moves (s : State) : ∃ x, Moves (fun y => y = x) s (takeOne s) := by
  unfold takeOne
  split
  · exact ⟨0, .refl _⟩
  · next r q h =>
    have hs := Hrq.next_sub h
    exact ⟨r.channel, ((Moves.of (.hrq _ _ fun k => k.sub hs.1 hs.2)).trans (setPosted_moves _ _ _)).trans
      (judgeRequest_moves (P := fun y => y = r.channel) rfl _)⟩

theorem offerPlace_moves (s : State) : Moves P s (offerPlace s) := by
  unfold offerPlace
  repeat' split
  all_goals first
    | with_reducible exact .refl _
    | with_reducible exact postRescue_moves _ _

theorem loseTarget_moves (lost : CellIx → Bool) (how : TargetEnd) (x : Channel) (s : State) :
    Moves P s (loseTarget lost how x s) := by
  unfold loseTarget
  split
  · exact .refl _
  · next k hk =>
    split
    · exact .refl _
    · exact .refl _
    · next hp =>
      split
      · exact fallback_moves hk (by rw [hp]; rfl) _ _
      · exact .refl _
    · next hp =>
      split
      · exact fallback_moves hk (by rw [hp]; rfl) _ _
      · exact .refl _
    · exact .refl _
    · next hp =>
      split
      · exact .already (x := x) (by rw [hk]; change k.phase.inExecution = true; rw [hp]; rfl)
          (((cancelTxn_moves _ _).trans (endAttempt_moves ((State.call_congr (cancelTxn_calls _ s) x).trans hk) _ _)).trans
            (nextCandidate_passes _ _ _ (.inr rfl)))
      · exact .refl _

theorem loseServing_moves (lost : CellIx → Bool) (cause : LossCause) (x : Channel) (s : State) :
    Moves P s (loseServing lost cause x s) := by
  unfold loseServing
  split
  · exact .refl _
  · next k hk =>
    have hh : ∀ n, (cancelTxn n s).handset x = some k.handset := fun n => by
      unfold State.handset; rw [State.call_congr (cancelTxn_calls n s), hk]; rfl
    repeat' split
    all_goals first
      | with_reducible exact .refl _
      | with_reducible exact (cancelTxn_moves _ _).trans (failedOpen_moves (hh _) _ _)
      | with_reducible exact dropCall_moves _ _ _ _
      | with_reducible exact servingLegLoss_moves _ _ _

theorem lossAtContext_moves (lost : CellIx → Bool) (cause : LossCause) (x : Channel) (s : State) :
    Moves P s (lossAtContext lost cause x s) := (loseTarget_moves _ _ _ _).trans (loseServing_moves _ _ _ _)

theorem drainStartAt_moves (c : CellIx) (x : Channel) (s : State) : Moves P s (drainStartAt c x s) := by
  unfold drainStartAt
  dsimp only
  have key := loseTarget_moves (P := P) (fun d => decide (d = c)) .close x s
  generalize loseTarget (fun d => decide (d = c)) .close x s = t at key ⊢
  refine key.trans ?_
  repeat' split
  all_goals first
    | with_reducible exact .refl _
    | with_reducible exact hrqPost_moves _ _

/-! ### Evaluator and voice -/

theorem takeReport_moves {x : Channel} {k : Call} {c : CellIx} {s : State} (hk : s.call x = some k)
    (hs : k.phase.serving.map (·.cell) = some c) (qs : Quality) (pairs : List (CellIx × Quality)) :
    Moves P s (takeReport x k c qs pairs s) := by
  unfold takeReport
  dsimp only
  refine Moves.trans (Moves.set (k' := evaluate s c qs pairs k) hk (fun h => evaluate_ok qs pairs h hs) .inl) ?_
  repeat' split
  all_goals first
    | with_reducible exact .refl _
    | with_reducible exact hrqPost_moves _ _

theorem measReport_moves (c : CellIx) (h : Hid) (x : Channel) (qs : Quality) (pairs : List (CellIx × Quality)) (s : State) :
    Moves P s (measReport c h x qs pairs s) := by
  unfold measReport
  dsimp only
  split
  · exact device_moves _ _
  · next k hk =>
    split
    · next l g hp =>
      split
      · next h => exact takeReport_moves hk (by rw [hp]; exact congrArg some h.1) _ _
      · exact device_moves _ _
    all_goals exact device_moves _ _

theorem forwardVoice_moves {v : Vox} {k : Call} {s : State} (hk : s.call v.channel = some k) :
    Moves P s (forwardVoice v k s) := by
  unfold forwardVoice
  refine Moves.trans ?_ (trunkVoice_moves _ _)
  exact .set hk (fun h => ⟨h.fs, h.list, h.opening⟩) .inl

theorem staleVoice_moves {x : Channel} {k : Call} {s : State} (hk : s.call x = some k) : Moves P s (staleVoice x k s) :=
  .set hk (fun h => ⟨h.fs, h.list, h.opening⟩) .inl

theorem servingVoice_moves {v : Vox} {k : Call} {s : State} (hk : s.call v.channel = some k) :
    Moves P s (servingVoice v k s) := by
  unfold servingVoice
  split
  · exact forwardVoice_moves hk
  · exact staleVoice_moves hk

theorem trunkVoice_calls (v : Vox) (s : State) : (trunkVoice v s).calls = s.calls := by
  unfold trunkVoice
  split <;> rfl

theorem targetVoice_moves {v : Vox} {k : Call} {s : State} (hk : s.call v.channel = some k) (l : Leg) (t : Target)
    (slot : Slot) : Moves P s (targetVoice v k l t slot s) := by
  unfold targetVoice
  split
  · refine (forwardVoice_moves hk).trans (commit_moves ?_ _ _ _ _)
    unfold forwardVoice
    rw [State.call_congr (trunkVoice_calls v _), State.call_setCall_self]
  · exact staleVoice_moves hk

theorem uplinkVoice_moves (c : CellIx) (v : Vox) (s : State) : Moves P s (uplinkVoice c v s) := by
  unfold uplinkVoice
  dsimp only
  split
  · exact counter_moves _ _ _
  · next k hk =>
    repeat' split
    all_goals first
      | exact counter_moves _ _ _
      | exact servingVoice_moves hk
      | exact targetVoice_moves hk _ _ _

theorem countStrayVoice_moves (l : LinkIx) (s : State) : Moves P s (countStrayVoice l s) := counter_moves _ _ _

theorem downlinkVoice_moves (v : Vox) (s : State) : Moves P s (downlinkVoice v s) := by
  unfold downlinkVoice
  dsimp only
  repeat' split
  all_goals first
    | with_reducible exact countStrayVoice_moves _ _
    | with_reducible exact laneVoice_moves _ _ _
    | with_reducible exact (laneVoice_moves _ _ _).trans (laneVoice_moves _ _ _)

theorem unwanted_moves (c : CellIx) (x : Channel) (o : AckOutcome) (s : State) : Moves P s (unwanted c x o s) := by
  unfold unwanted
  repeat' split
  all_goals first
    | with_reducible exact .refl _
    | with_reducible exact closeAdd_moves _ _ _

theorem syncError_moves (a : Answer) (s : State) : Moves P s (syncError a s) := by
  unfold syncError
  split
  · exact .refl _
  · exact resolveFail_moves nextCandidate_passes _ _ _

theorem legAnswer_moves (c : CellIx) (t : Txn) (x : Channel) (o : AckOutcome) (s : State) :
    Moves P s (legAnswer c t x o s) := by
  unfold legAnswer
  cases s.answerOf t with
  | none => exact (Moves.of (.device _ _)).trans (unwanted_moves _ _ _ _)
  | some a =>
    dsimp only
    split
    · refine (freeAnswer_moves a s).trans ?_
      generalize freeAnswer a s = u
      split
      · exact unwanted_moves _ _ _ _
      · cases o with
        | ready slot => exact deliverReady_moves _ _ _ _
        | fail cause => exact deliverFail_moves nextCandidate_passes _ _ _ _
    · exact ((Moves.of (.device _ _)).trans (unwanted_moves _ _ _ _)).trans (syncError_moves _ _)

theorem recordLoss_moves (x : Channel) (cause : Byte) (s : State) : Moves P s (recordLoss x cause s) := by
  unfold recordLoss
  refine Moves.trans ?_ (device_moves _ _)
  exact .mod (fun _ => rfl) (fun _ h => ⟨h.fs, h.list, h.opening⟩) fun _ => .inl

theorem recordLoss_call {x : Channel} {s : State} {k : Call} (hk : s.call x = some k) (cause : Byte) :
    (recordLoss x cause s).call x = some { k with lossCause := some cause } := by
  change (s.modCall x _).call x = _
  rw [State.call_modCall, if_pos rfl, hk]
  rfl

theorem legLostAt_moves (c : CellIx) (x : Channel) (cause : Byte) (s : State) : Moves P s (legLostAt c x cause s) := by
  unfold legLostAt
  have key := recordLoss_moves (P := P) x cause s
  split
  · exact .refl _
  · next k hk =>
    have hu := recordLoss_call hk cause
    generalize recordLoss x cause s = u at key hu ⊢
    dsimp only
    split
    · split
      · refine key.trans ((cancelTxn_moves _ _).trans (failedOpen_moves ?_ _ _))
        exact State.handset_of_call ((State.call_congr (cancelTxn_calls _ u) x).trans hu)
      · exact .refl _
    · split
      · exact key.trans (servingLegLoss_moves _ _ _)
      · exact .refl _
    · split
      · exact key.trans (servingLegLoss_moves _ _ _)
      · exact .refl _
    · next hp =>
      split
      · exact key.trans (servingLegLoss_moves _ _ _)
      · split
        · exact key.trans (fallback_moves hu (by change k.phase.serving = _; rw [hp]; rfl) _ _)
        · exact .refl _
    · exact .refl _

/-! ### Attach and call control (Machine/Attach.lean) -/

/-- What a drop for a new attach leaves of the records: their identities (R33). -/
theorem releaseReattach_identity (i j : RecIx) (s : State) :
    ((releaseReattach i s).record j).identity = (s.record j).identity := by
  unfold releaseReattach
  split
  · rfl
  · next e h =>
    split
    · rfl
    · rfl
    · rw [State.record_setRecord]
      split
      · next hj => rw [hj, Record.identity_of_enrolled h]; rfl
      · rfl

theorem cancelTxn_records (t : Txn) (s : State) : (cancelTxn t s).records = s.records := by
  unfold cancelTxn freeAnswer markCancelled
  repeat' split
  all_goals rfl

theorem enterFollowOn_records (c : CellIx) (f : FollowOn) (s : State) : (enterFollowOn c f s).records = s.records := by
  cases f
  · rfl
  · exact offer_records _ _

theorem releaseSlot_records (c : CellIx) (s : State) : (releaseSlot c s).records = s.records := by
  unfold releaseSlot endDrainIfEmpty
  dsimp only
  repeat' split
  all_goals first
    | rfl
    | exact enterFollowOn_records _ _ _

theorem closeAdd_records (c : CellIx) (x : Channel) (s : State) : (closeAdd c x s).records = s.records := by
  unfold closeAdd
  dsimp only
  repeat' split
  all_goals rfl

theorem foldl_records {α : Type} {f : State → α → State} (h : ∀ s a, (f s a).records = s.records) (l : List α) (s : State) :
    (l.foldl f s).records = s.records := by
  induction l generalizing s with
  | nil => rfl
  | cons a l ih => exact (ih _).trans (h s a)

theorem reply_records (r : Reply) (s : State) : (reply r s).records = s.records := by
  unfold reply
  repeat' split
  all_goals rfl

theorem reply_calls (r : Reply) (s : State) : (reply r s).calls = s.calls := by
  unfold reply
  repeat' split
  all_goals rfl

theorem hrqRemove_records (x : Channel) (s : State) : (hrqRemove x s).records = s.records := by
  unfold hrqRemove
  split <;> rfl

/-- What the ending of a call leaves of the records before the release. -/
theorem endCall_records (x : Channel) (k : Call) (lost : Bool) (form : ReleaseForm) (s : State) :
    ∃ t : State, t.records = s.records ∧ endCall x k lost form s = (releaseHandset form k.handset t).setCall x none := by
  refine ⟨_, ?_, rfl⟩
  have h1 : ∀ s c, (closeLeg x s c).records = s.records := fun s c => (releaseSlot_records _ _).trans (closeAdd_records _ _ _)
  have h2 : ∀ u : State, (withdrawHo x u).records = u.records := foldl_records (f := withdrawHoAt x) (fun _ _ => rfl) _
  have h3 : ∀ s o, (cancelOpen s o).records = s.records := fun s o => (releaseSlot_records _ _).trans (cancelTxn_records _ _)
  rw [foldl_records h1, h2, foldl_records h3, hrqRemove_records]

theorem dropCall_identity (x : Channel) (lost : Bool) (s : State) (j : RecIx) :
    ((dropCall x .handsetReattached lost s).record j).identity = (s.record j).identity := by
  unfold dropCall
  split
  · rfl
  · next k _ =>
    obtain ⟨t, ht, he⟩ := endCall_records x k lost .reattach
      (s.count fun d => { d with drops := d.drops.bump .handsetReattached })
    have h1 : ∀ u : State, (reply (.callDrop x .handsetReattached) u).record j = u.record j := fun u => by
      unfold State.record; rw [reply_records]
    rw [h1]
    change ((endCall x k lost .reattach _).record j).identity = _
    rw [he]
    change ((releaseReattach k.handset t).record j).identity = _
    rw [releaseReattach_identity]
    unfold State.record
    rw [ht]
    rfl

theorem dropCall_call (x : Channel) (cause : DropCause) (lost : Bool) (s : State) :
    (dropCall x cause lost s).call x = none := by
  unfold dropCall
  split
  · next h => exact h
  · unfold endCall
    rw [State.call_congr (reply_calls _ _), State.call_setCall_self]

theorem dropCall_handset_ne (x : Channel) (cause : DropCause) (lost : Bool) (s : State) {y : Channel} (h : y ≠ x) :
    (dropCall x cause lost s).handset y = s.handset y := by
  unfold dropCall
  split
  · rfl
  · next k _ =>
    obtain ⟨t, _, hh, he⟩ := endCall_before (P := fun _ => True) x k lost cause.form
      (s.count fun d => { d with drops := d.drops.bump cause })
    have hc := (releaseHandset_released cause.form k.handset t).calls
    rw [he]
    unfold State.handset at *
    rw [State.call_congr (reply_calls _ _), State.call_setCall_ne _ h, State.call_congr hc, hh y]
    rfl

theorem Identified.congr {s t : State} {i : RecIx} {e : Enrolled} (h : Identified s i e)
    (ht : ∀ j, (t.record j).identity = (s.record j).identity) : Identified t i e := by
  rcases h with h | ⟨hv, h⟩
  · exact .inl ((ht i).trans h)
  · exact .inr ⟨hv, fun j => by rw [Record.presentHid_eq, ht j, ← Record.presentHid_eq]; exact h j⟩

/-- An admitted attach, of the fields of the record as they stand or of a new visitor in no call (R26). -/
theorem completeAttach_moves {i : RecIx} {e : Enrolled} {s : State} (hi : Identified s i e)
    (he : (s.record i).enrolled = some e ∨ e.loc = .absent ∧ (s.record i).channel = none) (c : CellIx) (h : Hid)
    (cl : Clearance) (q : Quality) : Moves P s (completeAttach i e c h cl q s) := by
  unfold completeAttach
  dsimp only
  refine Moves.trans ?_ (sendAck_moves _ _ _ _)
  have still : e.loc.channel = none → (s.record i).channel = none := fun hl =>
    he.elim (fun he => by rw [Record.channel_of_enrolled he, hl]) (·.2)
  split
  · next hl => exact changeLocation_moves hi (still (by rw [hl]; rfl))
  · next hl => exact changeLocation_moves hi (still (by rw [hl]; rfl))
  · next a x hl =>
    have hd := dropCall_moves (P := P) x .handsetReattached false s
    have hi' := hi.congr (dropCall_identity x false s)
    have hc := changeLocation_calls i e (.attached ⟨cl, c, q⟩ (presenceDeadline (dropCall x .handsetReattached false s)))
      (dropCall x .handsetReattached false s)
    refine ⟨hd.raws.trans (changeLocation_raws hi'), fun hA => ?_, fun y hy => hd.running y ?_⟩
    · have he' : (s.record i).enrolled = some e := he.elim id fun k => by rw [hl] at k; cases k.1
      have hAt := hd.agree hA
      have hne : ((dropCall x .handsetReattached false s).record i).channel = none := by
        by_contra hn
        obtain ⟨y, hy⟩ := Option.ne_none_iff_exists'.1 hn
        have hy' := (hAt i y).1 hy
        by_cases hyx : y = x
        · unfold State.handset at hy'; rw [hyx, dropCall_call] at hy'; cases hy'
        · have hs : s.handset y = some i := by
            rw [← hy']; exact (dropCall_handset_ne x _ _ s hyx).symm
          have := (hA i y).2 hs
          rw [Record.channel_of_enrolled he', hl] at this
          exact hyx (Option.some.inj this).symm
      exact (changeLocation_moves (P := P) (loc := .attached _ _) hi' hne).agree hAt
    · rwa [State.call_congr hc] at hy

theorem checkAndAttach_moves {i : RecIx} {e : Enrolled} {s : State} (hi : Identified s i e)
    (he : (s.record i).enrolled = some e ∨ e.loc = .absent ∧ (s.record i).channel = none) (c : CellIx) (h : Hid)
    (cl : Clearance) (q : Quality) : Moves P s (checkAndAttach i e c h cl q s) := by
  unfold checkAndAttach
  split
  · exact sendAck_moves _ _ _ _
  · exact completeAttach_moves hi he _ _ _ _

theorem findHid_enrolled {s : State} {h : Hid} {i : RecIx} (hf : s.findHid h = some i) :
    ∃ e, (s.record i).enrolled = some e ∧ e.hid = h := by
  have := Table.find_some _ _ _ hf
  change (match (s.record i).enrolled with
    | none => false
    | some e => decide (e.hid = h)) = true at this
  split at this
  · cases this
  · next e he => exact ⟨e, he, by simpa using this⟩

theorem findHid_none {s : State} {h : Hid} (hf : s.findHid h = none) (j : RecIx) : (s.record j).presentHid ≠ some h := by
  have := Table.find_none _ _ _ hf j rfl
  change (match (s.record j).enrolled with
    | none => false
    | some e => decide (e.hid = h)) = false at this
  unfold Record.presentHid
  split at this
  · next hj => rw [hj]; nofun
  · next e he => rw [he]; exact fun k => by cases k; simp at this

theorem indicesFrom_ge {n k : Nat} {i : Fin n} (h : i ∈ indicesFrom n k) : n - k ≤ i.val := by
  induction k with
  | zero => cases h
  | succ k ih =>
    unfold indicesFrom at h
    split at h
    · rcases List.mem_cons.1 h with rfl | h
      · exact le_rfl
      · have := ih h; omega
    · cases h

theorem freeVisitor_spec {s : State} {i : RecIx} (h : freeVisitor s = some i) :
    isVisitor i = true ∧ (s.record i).free = true := by
  unfold freeVisitor at h
  exact ⟨decide_eq_true (indicesFrom_ge (List.mem_of_find?_eq_some h)), by simpa using List.find?_some h⟩

/-- Whom an attach concerns: the record that holds the HID, or a free visitor with the fields of the filter (R22 to R24). -/
theorem attachSubject_cases (h : Hid) (s : State) :
    (∃ i e, attachSubject h s = .found i e ∧ (s.record i).enrolled = some e) ∨
    (∃ i e, attachSubject h s = .created i e ∧ e.hid = h ∧ e.loc = .absent ∧ s.findHid h = none ∧ isVisitor i = true ∧
      (s.record i).free = true) ∨
    ∃ d, attachSubject h s = .denied d := by
  unfold attachSubject
  cases hf : s.findHid h with
  | some i =>
    obtain ⟨e, he, _⟩ := findHid_enrolled hf
    exact .inl ⟨i, e, by simp [he], he⟩
  | none =>
    simp only [Option.bind_none]
    split
    · exact .inr (.inr ⟨_, rfl⟩)
    · split
      · exact .inr (.inr ⟨_, rfl⟩)
      · next i hi => exact .inr (.inl ⟨i, _, rfl, rfl, rfl, trivial, freeVisitor_spec hi⟩)

theorem attach_moves (c : CellIx) (h : Hid) (cl : Clearance) (q : Quality) (s : State) : Moves P s (attach c h cl q s) := by
  unfold attach
  dsimp only
  split
  · exact sendAck_moves _ _ _ _
  · rcases attachSubject_cases h s with ⟨i, e, hs, he⟩ | ⟨i, e, hs, rfl, hl, hn, hv, hf⟩ | ⟨d, hs⟩ <;> rw [hs] <;> dsimp only
    · exact checkAndAttach_moves (.of he) (.inl he) _ _ _ _
    · refine checkAndAttach_moves (.inr ⟨hv, findHid_none hn⟩) (.inr ⟨hl, Record.channel_of_none ?_⟩) _ _ _ _
      unfold Record.free at hf
      simp only [Bool.and_eq_true, Option.isNone_iff_eq_none] at hf
      exact hf.1.1
    · exact sendAck_moves _ _ _ _

theorem detach_moves (h : Hid) (s : State) : Moves P s (detach h s) := by
  unfold detach
  split
  · exact .refl _
  · split
    · exact .refl _
    · next e he =>
      split
      · exact .refl _
      · next hl => exact changeLocation_moves (.of he) (by rw [Record.channel_of_enrolled he, hl]; rfl)
      · exact dropCall_moves _ _ _ _

theorem offerInitialOpen_moves {x : Channel} {k : Call} {t : Txn} {s : State} (hk : s.call x = some k) (h : Hid) (c : CellIx)
    (ha : s.txnAvailable = true) (hf : ∀ a ∈ s.answers, a.txn ≠ t) : Moves P s (offerInitialOpen x k h c t s) := by
  unfold offerInitialOpen
  have key := offer_moves (P := P) (.legOpen c t x h .initial) s
  have hw := offer_answers (.legOpen c t x h .initial) s
  have hc := offer_calls (.legOpen c t x h .initial) s
  split <;> next heq =>
    rw [heq] at key hw hc
    first
      | exact key.trans ((allocateTxn_moves _ _ _ _ (by unfold State.txnAvailable at *; rw [hw]; exact ha)
          (by rw [hw]; exact hf)).trans (settleVictim_moves nextCandidate_passes _ _))
      | exact key.trans (failedOpen_moves (State.handset_of_call ((State.call_congr hc x).trans hk)) _ _)

/-- A change of location leaves the pending answers as they were. -/
theorem changeLocation_answers (i : RecIx) (e : Enrolled) (loc : Location) (s : State) :
    (changeLocation i e loc s).answers = s.answers := by
  unfold changeLocation pageReport writeLocation markDirty settlePage pushNotice
  dsimp only
  repeat' split
  all_goals rfl

theorem newCall_ok (i : RecIx) (p : Priority) (a : Attachment) (t : Txn) : (newCall i p a t).Ok :=
  ⟨by have := a.quality.isLt; change 16 * a.quality.val ≤ 1008; omega, .nil _, fun _ _ _ => rfl⟩

theorem admitCall_moves {x : Channel} {i : RecIx} {e : Enrolled} {s : State} (hx : s.call x = none)
    (he : (s.record i).enrolled = some e) (hl : e.loc.channel = none) (p : Priority) (a : Attachment) :
    Moves P s (admitCall x p i e a s) := by
  unfold admitCall
  split
  · next ha =>
    have hw : (engage i e a x s).answers = s.answers := changeLocation_answers _ _ _ _
    refine (engage_moves a he hl hx rfl (newCall_ok _ _ _ _) rfl).trans
      (offerInitialOpen_moves (State.call_setCall_self _ _ _) _ _ ?_ ?_)
    · unfold State.txnAvailable at *
      rw [State.setCall_answers, hw]; exact ha
    · rw [State.setCall_answers, hw]
      exact nextTxn_free (Nat.le_of_lt (of_decide_eq_true ha))
  · exact (releaseSlot_moves _ _).trans (reply_moves _ _)

theorem reserve_same {c : CellIx} {limit : Nat} {s t : State} (h : reserve c limit s = .ok t) :
    t.calls = s.calls ∧ t.records = s.records := by
  unfold reserve at h
  dsimp only at h
  split at h
  · split at h
    · cases h; exact ⟨rfl, rfl⟩
    · cases h
  · cases h

theorem openAttached_moves {x : Channel} {i : RecIx} {e : Enrolled} {s : State} (hx : s.call x = none)
    (he : (s.record i).enrolled = some e) (hl : e.loc.channel = none) (p : Priority) (a : Attachment) :
    Moves P s (openAttached x p i e a s) := by
  unfold openAttached
  split
  · exact reply_moves _ _
  · split
    · exact reply_moves _ _
    · split
      · exact reply_moves _ _
      · next h =>
        have hs := reserve_same h
        exact (reserve_moves (initialLimit_le _ _) h).trans (admitCall_moves ((State.call_congr hs.1 x).trans hx)
          (by unfold State.record at *; rw [hs.2]; exact he) hl _ _)

theorem openCall_moves (x : Channel) (h : Hid) (p : Priority) (s : State) : Moves P s (openCall x h p s) := by
  unfold openCall
  dsimp only
  split
  · exact reply_moves _ _
  · next hx =>
    split
    · exact reply_moves _ _
    · split
      · exact reply_moves _ _
      · next e he =>
        split
        · exact reply_moves _ _
        · exact reply_moves _ _
        · next hl => exact openAttached_moves hx he (by rw [hl]; rfl) _ _

theorem clearCall_moves (x : Channel) (s : State) : Moves P s (clearCall x s) := by
  unfold clearCall
  split
  · exact reply_moves _ _
  · next hk => exact (endCall_moves (State.handset_of_call hk) _ _).trans (reply_moves _ _)

theorem requestCall_moves (c : CellIx) (h : Hid) (s : State) : Moves P s (requestCall c h s) := by
  unfold requestCall
  dsimp only
  repeat' split
  all_goals first
    | with_reducible exact offerQuietly_moves _ _
    | next hr => exact pushNotice_moves _ _ hr (by simp) (by simp)

theorem writeLocation_pages (i : RecIx) (e : Enrolled) (loc : Location) (s : State) :
    (writeLocation i e loc s).pages = s.pages := by
  unfold writeLocation markDirty pushNotice
  dsimp only
  repeat' split
  all_goals rfl

theorem sendAck_pages (c : CellIx) (h : Hid) (r : AttachResult) (s : State) : (sendAck c h r s).pages = s.pages := by
  unfold sendAck offerQuietly offer
  dsimp only
  repeat' split
  all_goals rfl

/-- A location update that the page list asked for leaves the page list alone. -/
theorem locationUpdate_pages (c : CellIx) (h : Hid) (q : Quality) (s : State) :
    (locationUpdate false c h q s).2.pages = s.pages := by
  unfold locationUpdate
  dsimp only
  repeat' split
  all_goals first
    | exact sendAck_pages _ _ _ _
    | exact writeLocation_pages _ _ _ _
    | rfl
    | exact (sendAck_pages _ _ _ _).trans (writeLocation_pages _ _ _ _)
    | contradiction

theorem pageResponse_moves (c : CellIx) (h : Hid) (q : Quality) (s : State) : Moves P s (pageResponse c h q s) := by
  unfold pageResponse
  split
  · exact locationUpdate_moves _ _ _ _ _
  · next e he =>
    have key := locationUpdate_moves (P := P) false c h q s
    have hu : (locationUpdate false c h q s).2.Unsettled e := fun p hp => by
      unfold State.page at hp
      rw [locationUpdate_pages] at hp
      exact State.pagingEntry_unsettled he p hp
    split <;> next heq =>
      rw [heq] at key hu
      first
        | with_reducible exact key
        | exact key.trans (settlePage_moves _ hu)

end Sys2Proof.Machine
end

