-- ==== Sys2Proof/Laws/EventMoves.lean ====
section
/-! SUPPORT. The choices of the ports, the end of an event, the takes that follow, received frames, deadlines, and the
part's own events as chains of moves. -/

namespace Sys2Proof.Machine

variable {P : Channel → Prop}

/-! ### Cell ports (Machine/Ports.lean) -/

theorem takeFirst_length {p : Priority} {q rest : List CtlFrame} {f : CtlFrame} (h : takeFirst p q = some (f, rest)) :
    rest.length + 1 = q.length := by
  induction q generalizing f rest with
  | nil => cases h
  | cons g gs ih =>
    unfold takeFirst at h
    split at h
    · cases h; rfl
    · split at h
      · cases h
      · next heq => cases h; simpa using ih heq

/-- What a choice does to a port: the link stays, and no queue grows. -/
structure PortDrain (a b : CellPort) : Prop where
  link : b.link = a.link
  lane : b.lane.length ≤ a.lane.length
  ctl : b.ctl.length ≤ a.ctl.length
  closes : b.closes.Sublist a.closes

theorem PortDrain.refl (p : CellPort) : PortDrain p p := ⟨rfl, le_rfl, le_rfl, List.Sublist.refl _⟩

theorem sendPair_drain (port : CellPort) (p : CellIx × Channel) : PortDrain port (sendPair port p) :=
  ⟨rfl, le_rfl, le_rfl, List.filter_sublist⟩

theorem sendFirst_drain {port b : CellPort} {p : Priority} (h : sendFirst port p = some b) : PortDrain port b := by
  unfold sendFirst at h
  obtain ⟨⟨f, rest⟩, hr, rfl⟩ := Option.map_eq_some_iff.1 h
  exact ⟨rfl, le_rfl, (Nat.le_succ _).trans (takeFirst_length hr).le, List.Sublist.refl _⟩

theorem sendBelow_drain (port : CellPort) : PortDrain port (sendBelow port) := by
  unfold sendBelow
  split
  · exact sendPair_drain _ _
  · cases h2 : sendFirst port 2 with
    | some b => exact sendFirst_drain h2
    | none =>
      cases h1 : sendFirst port 1 with
      | some b => exact sendFirst_drain h1
      | none =>
        cases h0 : sendFirst port 0 with
        | some b => exact sendFirst_drain h0
        | none => exact .refl _

theorem sendControl_drain (port : CellPort) : PortDrain port (sendControl port) := by
  unfold sendControl
  split
  · exact sendBelow_drain _
  · next h =>
    split
    · exact sendPair_drain _ _
    · exact ⟨rfl, le_rfl, (Nat.le_succ _).trans (takeFirst_length h).le, List.Sublist.refl _⟩

theorem chooseNext_drain (port : CellPort) : PortDrain port (chooseNext port) := by
  unfold chooseNext
  split
  · next h => exact ⟨rfl, by rw [h]; simp, le_rfl, List.Sublist.refl _⟩
  · exact sendControl_drain _

theorem choosePort_moves (s : State) (p : PortIx) : Moves P s (choosePort s p) := by
  unfold choosePort
  dsimp only
  split
  · next hup _ =>
    have hd := chooseNext_drain (s.port p)
    exact .of (.port _ _ _ ⟨hd.link, fun h => h.shrink hd.lane hd.ctl hd.closes, fun h => by rw [h] at hup; cases hup⟩)
  · exact .refl _
  · exact .refl _

theorem completeCellTx_moves (p : PortIx) (s : State) : Moves P s (completeCellTx p s) := by
  unfold completeCellTx
  split
  · exact .refl _
  · next hup =>
    exact (Moves.of (.port s p { s.port p with tx := none } ⟨rfl, fun h => h.shrink le_rfl le_rfl (List.Sublist.refl _),
      fun h => by rw [h] at hup; cases hup⟩)).trans (choosePort_moves _ _)

/-! ### Notices and the trunk -/

theorem refill_moves (s : State) : Moves P s (refill s) :=
  have h := refill_spec s
  .of_records (.refill _) (fun i => (h.registry i not_false).channel) h.side.calls

theorem sendNotice_moves (s : State) (hup : s.trunk.link = .up) : Moves P s (sendNotice s) :=
  have h := sendNotice_side s
  .of_records (.send _ hup) (fun i => (h.2 i not_false).channel) h.1.calls

theorem chooseTrunk_moves (s : State) : Moves P s (chooseTrunk s) := by
  unfold chooseTrunk
  split
  · next hup _ =>
    split
    · next hv =>
      exact .of (.trunk _ _ ⟨rfl, rfl, fun h => ⟨by have := h.voice; rw [hv] at this; simp at this ⊢; omega,
        h.replies, h.mgmtIn⟩, fun h => by rw [h] at hup; cases hup⟩)
    · split
      · next hr =>
        exact .of (.trunk _ _ ⟨rfl, rfl, fun h => ⟨h.voice, by have := h.replies; rw [hr] at this; simp at this ⊢; omega,
          h.mgmtIn⟩, fun h => by rw [h] at hup; cases hup⟩)
      · exact sendNotice_moves _ hup
  · exact .refl _
  · exact .refl _

theorem completeTrunkTx_moves (s : State) : Moves P s (completeTrunkTx s) := by
  unfold completeTrunkTx
  split
  · exact .refl _
  · next hup =>
    exact (Moves.of (.trunk s { s.trunk with tx := none } ⟨rfl, rfl, fun h => ⟨h.voice, h.replies, h.mgmtIn⟩, fun h => by
      rw [h] at hup; cases hup⟩)).trans (chooseTrunk_moves _)

/-! ### The end of an event (Machine/Events.lean) -/

theorem offerPlaces_moves (n : Nat) (s : State) : Moves P s (offerPlaces n s) := by
  induction n generalizing s with
  | zero => exact .refl _
  | succ n ih => exact (offerPlace_moves s).trans (ih _)

theorem kickPort_moves (before s : State) (p : PortIx) : Moves P s (kickPort before s p) := by
  unfold kickPort
  split
  · exact .refl _
  · exact choosePort_moves _ _

theorem kickTrunk_moves (before s : State) : Moves P s (kickTrunk before s) := by
  unfold kickTrunk
  split
  · exact .refl _
  · exact chooseTrunk_moves _

theorem reportFills_moves (before s : State) : Moves P s (reportFills before s) := .of (.hold _ _)

/-- A sweep that is under way, or not, as before, with the same counts keeps its ranges. -/
theorem Sweep.Ok.restate {w : Sweep} (h : w.Ok) (st : SweepState)
    (hu : ({ w with state := st } : Sweep).underWay = true → w.underWay = true) : ({ w with state := st } : Sweep).Ok :=
  ⟨h.cursor, h.changed, fun k => h.underWay (hu k)⟩

theorem Sweep.holdBegins_ok {w : Sweep} (h : w.Ok) : w.holdBegins.Ok := by
  unfold Sweep.holdBegins
  split
  · exact h
  · next hs => exact h.restate _ fun _ => by unfold Sweep.underWay; rw [hs]
  · exact h

theorem Sweep.holdEnds_ok {w : Sweep} (h : w.Ok) : w.holdEnds.Ok := by
  unfold Sweep.holdEnds
  split
  · exact h
  · exact h
  · next hs => exact h.restate _ fun _ => by unfold Sweep.underWay; rw [hs]
  · exact h

theorem holdTransition_moves (b : Bool) (s : State) : Moves P s (holdTransition b s) := by
  unfold holdTransition
  split
  · exact .refl _
  · split
    · exact .of (.sweep _ _ Sweep.holdBegins_ok)
    · exact .of (.sweep _ _ Sweep.holdEnds_ok)

theorem finish_moves (before s : State) : Moves P s (finish before s) := by
  unfold finish
  exact ((((offerPlaces_moves _ s).trans (.foldl _ (kickPort_moves before) _ _)).trans (kickTrunk_moves before _)).trans
    (reportFills_moves before _)).trans (holdTransition_moves _ _)

/-- What a chain that may take from the queue keeps: beside the agreement of records and contexts, at most 16 contexts in
execution (R117). -/
structure Steps (s t : State) : Prop where
  raws : Raws s t
  agree : s.CallsAgree → t.CallsAgree
  limit : s.calls.wf none = true → s.inExecution ≤ Config.inExecutionLimit → t.inExecution ≤ Config.inExecutionLimit

theorem Steps.refl (s : State) : Steps s s := ⟨.refl, id, fun _ => id⟩

theorem Steps.trans {s t u : State} (h : Steps s t) (k : Steps t u) : Steps s u :=
  ⟨h.raws.trans k.raws, k.agree ∘ h.agree, fun hw hl => k.limit (h.raws.calls_wf hw) (h.limit hw hl)⟩

/-- A chain that brings no context into execution. -/
theorem Moves.steps {s t : State} (h : Moves (fun _ => False) s t) : Steps s t :=
  ⟨h.raws, h.agree, fun hw hl => (State.inExecution_mono (h.raws.calls_wf hw) hw fun x hx =>
    (h.running x hx).elim id False.elim).trans hl⟩

/-- A chain that brings at most one context into execution, from a state in which fewer than 16 are. -/
theorem Moves.step_one {s t : State} {x : Channel} (h : Moves (fun y => y = x) s t)
    (hl : s.inExecution < Config.inExecutionLimit) : Steps s t :=
  ⟨h.raws, h.agree, fun hw _ => (State.inExecution_succ hw (h.raws.calls_wf hw) x h.running).trans hl⟩

theorem Steps.foldl {α : Type} (f : State → α → State) (h : ∀ s a, Steps s (f s a)) (l : List α) (s : State) :
    Steps s (l.foldl f s) := by
  induction l generalizing s with
  | nil => exact .refl _
  | cons a l ih => exact (h s a).trans (ih _)

theorem takeOne_steps (s : State) (h : s.inExecution < Config.inExecutionLimit) : Steps s (takeOne s) :=
  (takeOne_moves s).elim fun _ hx => hx.step_one h

theorem takeLoop_steps (n : Nat) (s : State) : Steps s (takeLoop n s) := by
  induction n generalizing s with
  | zero => exact .refl _
  | succ n ih =>
    unfold takeLoop
    split
    · exact .refl _
    · next h =>
      push Not at h
      exact ((takeOne_steps s h.2).trans (finish_moves _ _).steps).trans (ih _)

theorem takes_steps (before s : State) : Steps s (takes before s) := by
  unfold takes
  split
  · exact .refl _
  · exact takeLoop_steps _ _

/-- An event is a chain when its own effect is. -/
theorem event_of_steps {f : State → State} {s : State} (h : Steps s (f s)) : Steps s (event f s) :=
  (h.trans (finish_moves _ _).steps).trans (takes_steps _ _)

theorem event_steps {f : State → State} {s : State} (h : Moves (fun _ => False) s (f s)) : Steps s (event f s) :=
  event_of_steps h.steps

theorem eachContext_steps {f : Channel → State → State} (h : ∀ x s, Moves (fun _ => False) s (f x s)) (s : State) :
    Steps s (eachContext f s) := by
  refine .foldl _ (fun s x => ?_) _ _
  split
  · exact .refl _
  · exact event_steps (h x s)

/-! ### Received frames (Machine/Frames.lean) -/

theorem countReceived_moves (l : LinkIx) (s : State) : Moves P s (countReceived l s) := counter_moves _ _ _
theorem countMalformed_moves (l : LinkIx) (s : State) : Moves P s (countMalformed l s) := counter_moves _ _ _
theorem countCheckFailure_moves (l : LinkIx) (s : State) : Moves P s (countCheckFailure l s) := counter_moves _ _ _
theorem countUnknownCell_moves (l : LinkIx) (s : State) : Moves P s (countUnknownCell l s) := counter_moves _ _ _

theorem rxCell_moves (c : CellIx) (len : Nat) (act : Option (State → State)) (s : State)
    (h : ∀ f, act = some f → ∀ t, Moves P t (f t)) : Moves P s (rxCell c len act s) := by
  unfold rxCell
  dsimp only
  split
  · split
    · exact countMalformed_moves _ _
    · split
      · exact (countReceived_moves _ _).trans (countMalformed_moves _ _)
      · next f =>
        split
        · exact (countReceived_moves _ _).trans (h f rfl _)
        · exact (countReceived_moves _ _).trans (countUnknownCell_moves _ _)
  · exact .refl _

theorem rxTrunk_moves (len : Nat) (act : Option (State → State)) (s : State)
    (h : ∀ f, act = some f → ∀ t, Moves P t (f t)) : Moves P s (rxTrunk len act s) := by
  unfold rxTrunk
  split
  · split
    · exact countMalformed_moves _ _
    · split
      · exact (countReceived_moves _ _).trans (countMalformed_moves _ _)
      · next f => exact (countReceived_moves _ _).trans (h f rfl _)
  · exact .refl _

theorem rxAttach_moves (c : CellIx) (h : Hid) (cl q : Byte) (s : State) : Moves P s (rxAttach c h cl q s) := by
  refine rxCell_moves _ _ _ _ fun f hf t => ?_
  split at hf <;> cases hf
  exact attach_moves _ _ _ _ _

theorem rxDetach_moves (c : CellIx) (h : Hid) (s : State) : Moves P s (rxDetach c h s) :=
  rxCell_moves _ _ _ _ fun f hf t => by cases hf; exact detach_moves _ _

theorem rxPresence_moves (c : CellIx) (h : Hid) (q : Byte) (s : State) : Moves P s (rxPresence c h q s) := by
  refine rxCell_moves _ _ _ _ fun f hf t => ?_
  obtain ⟨qv, _, rfl⟩ := Option.map_eq_some_iff.1 hf
  exact locationUpdate_moves _ _ _ _ _

theorem rxCallReq_moves (c : CellIx) (h : Hid) (s : State) : Moves P s (rxCallReq c h s) :=
  rxCell_moves _ _ _ _ fun f hf t => by cases hf; exact requestCall_moves _ _ _

theorem rxMeas_moves (c : CellIx) (h : Hid) (ch qs : Byte) (ps : List (Byte × Byte)) (s : State) :
    Moves P s (rxMeas c h ch qs ps s) := by
  refine rxCell_moves _ _ _ _ fun f hf t => ?_
  split at hf <;> cases hf
  exact measReport_moves _ _ _ _ _ _

theorem rxLegAck_moves (c : CellIx) (n : BitVec 16) (ch o a : Byte) (s : State) : Moves P s (rxLegAck c n ch o a s) := by
  refine rxCell_moves _ _ _ _ fun f hf t => ?_
  split at hf <;> cases hf
  exact legAnswer_moves _ _ _ _ _

theorem rxLegLost_moves (c : CellIx) (ch cause : Byte) (s : State) : Moves P s (rxLegLost c ch cause s) := by
  refine rxCell_moves _ _ _ _ fun f hf t => ?_
  obtain ⟨x, _, rfl⟩ := Option.map_eq_some_iff.1 hf
  exact legLostAt_moves _ _ _ _

theorem rxPageRsp_moves (c : CellIx) (h : Hid) (q : Byte) (s : State) : Moves P s (rxPageRsp c h q s) := by
  refine rxCell_moves _ _ _ _ fun f hf t => ?_
  obtain ⟨x, _, rfl⟩ := Option.map_eq_some_iff.1 hf
  exact pageResponse_moves _ _ _ _

theorem rxVoxUp_moves (c : CellIx) (ch sq : Byte) (p : List Byte) (s : State) : Moves P s (rxVoxUp c ch sq p s) := by
  refine rxCell_moves _ _ _ _ fun f hf t => ?_
  split at hf
  · obtain ⟨x, _, rfl⟩ := Option.map_eq_some_iff.1 hf
    exact uplinkVoice_moves _ _ _
  · cases hf

theorem rxVoxDown_moves (ch sq : Byte) (p : List Byte) (s : State) : Moves P s (rxVoxDown ch sq p s) := by
  refine rxTrunk_moves _ _ _ fun f hf t => ?_
  split at hf
  · obtain ⟨x, _, rfl⟩ := Option.map_eq_some_iff.1 hf
    exact downlinkVoice_moves _ _
  · cases hf

theorem rxCallOpen_moves (ch : Byte) (h : Hid) (p : Byte) (s : State) : Moves P s (rxCallOpen ch h p s) := by
  refine rxTrunk_moves _ _ _ fun f hf t => ?_
  split at hf <;> cases hf
  exact openCall_moves _ _ _ _

theorem rxCallClear_moves (ch : Byte) (s : State) : Moves P s (rxCallClear ch s) := by
  refine rxTrunk_moves _ _ _ fun f hf t => ?_
  obtain ⟨x, _, rfl⟩ := Option.map_eq_some_iff.1 hf
  exact clearCall_moves _ _

theorem rxPageReq_moves (h : Hid) (n : Byte) (s : State) : Moves P s (rxPageReq h n s) := by
  refine rxTrunk_moves _ _ _ fun f hf t => ?_
  split at hf <;> cases hf
  exact pageRequest_moves _ _ _

/-! ### Deadlines (Machine/Deadlines.lean) -/

theorem presenceExpiry_moves (i : RecIx) (s : State) : Moves P s (presenceExpiry i s) := by
  unfold presenceExpiry
  split
  · exact .refl _
  · next e he =>
    split
    · next hl =>
      split
      · exact changeLocation_moves (.of he) (by rw [Record.channel_of_enrolled he, hl]; rfl)
      · exact .refl _
    · exact .refl _
    · exact .refl _

theorem Phase.unguarded_serving (p : Phase) : p.unguarded.serving = p.serving := by cases p <;> rfl

theorem Phase.unguarded_inExecution (p : Phase) : p.unguarded.inExecution = p.inExecution := by cases p <;> rfl

theorem guardExpiry_moves (x : Channel) (s : State) : Moves P s (guardExpiry x s) := by
  unfold guardExpiry
  split
  · exact .refl _
  · next k hk =>
    split
    · exact .refl _
    · next hg =>
      split
      · refine .set hk (fun h => h.step (.inl (Phase.unguarded_serving _)) fun c n hp => ?_) fun h => .inl ?_
        · cases hq : k.phase <;> rw [hq] at hp hg
          · cases hg
          all_goals cases hp
        · rw [← Phase.unguarded_inExecution]; exact h
      · exact .refl _

theorem bridgeExpiry_moves (x : Channel) (s : State) : Moves P s (bridgeExpiry x s) := by
  unfold bridgeExpiry
  split
  · exact .refl _
  · next k hk =>
    split
    · next hp =>
      split
      · exact fallback_moves hk (by rw [hp]; rfl) _ _
      · exact .refl _
    all_goals exact .refl _

theorem rescueExpiry_moves (x : Channel) (s : State) : Moves P s (rescueExpiry x s) := by
  unfold rescueExpiry
  repeat' split
  all_goals first
    | with_reducible exact .refl _
    | with_reducible exact dropCall_moves _ _ _ _

theorem pendingExpiry_moves (t : Txn) (s : State) : Moves P s (pendingExpiry t s) := by
  unfold pendingExpiry
  repeat' split
  all_goals first
    | with_reducible exact .refl _
    | with_reducible exact resolveFail_moves nextCandidate_passes _ _ _

theorem pageDue_moves (e : PageIx) (s : State) : Moves P s (pageDue e s) := by
  unfold pageDue
  repeat' split
  all_goals first
    | with_reducible exact .refl _
    | with_reducible exact occasion_moves _ _

theorem drainDue_draining {c : CellIx} {s : State} {next : FollowOn} (h : drainDue c s = some next) :
    ∃ d, (s.cell c).service = .draining next d := by
  unfold drainDue at h
  split at h
  · next n d hs =>
    split at h
    · cases h; exact ⟨d, hs⟩
    · cases h
  · cases h
  · cases h
  · cases h

/-! ### Sweep steps and takes (Machine/Management.lean, Machine/Internal.lean) -/

theorem sweepAction_moves (k : SweepKind) (i : RecIx) (s : State) : Moves P s (sweepAction k i s).1 := by
  unfold sweepAction
  split
  · exact .refl _
  · split
    · exact .refl _
    · exact .refl _
    · split
      · split
        · exact .refl _
        · exact revokeRecord_moves _ _ _
      · split
        · exact detachRecord_moves _ _
        · exact .refl _
      · split
        · exact detachRecord_moves _ _
        · exact .refl _

theorem Sweep.stepped_ok {w : Sweep} (b : Bool) (h : w.Ok) (hs : w.state = .running) : (w.stepped b).Ok := by
  have hu := h.underWay (by unfold Sweep.underWay; rw [hs])
  have hc := h.changed
  unfold Sweep.stepped
  refine ⟨by simp only; omega, ?_, ?_⟩
  · simp only; split <;> omega
  · intro hw
    simp only [Sweep.underWay] at hw
    by_cases hl : 1024 ≤ w.cursor + 1
    · simp [hl] at hw
    · exact ⟨by simp only; omega, hu.2⟩

/-- A sweep action does not touch the sweep engine. -/
theorem sweepAction_sweep (k : SweepKind) (i : RecIx) (s : State) : (sweepAction k i s).1.sweep = s.sweep := by
  have hc : ∀ i e loc s, (changeLocation i e loc s).sweep = s.sweep := by
    intro i e loc s
    unfold changeLocation pageReport writeLocation markDirty settlePage pushNotice
    dsimp only
    repeat' split
    all_goals rfl
  have ho : ∀ f s, (offer f s).2.sweep = s.sweep := by
    intro f s
    unfold offer
    dsimp only
    repeat' split
    all_goals rfl
  have hr : ∀ i d s, (revokeRecord i d s).sweep = s.sweep := by
    intro i d s
    unfold revokeRecord
    repeat' split
    all_goals first
      | rfl
      | exact (ho _ _).trans (hc _ _ _ _)
  have hd : ∀ i s, (detachRecord i s).sweep = s.sweep := by
    intro i s
    unfold detachRecord
    repeat' split
    all_goals first
      | rfl
      | exact hc _ _ _ _
  unfold sweepAction
  split
  · rfl
  · split
    · rfl
    · rfl
    · split
      · split
        · rfl
        · exact hr _ _ _
      · split
        · exact hd _ _
        · rfl
      · split
        · exact hd _ _
        · rfl

theorem stepSweep_moves (s : State) : Moves P s (stepSweep s) := by
  unfold stepSweep
  split
  · next hs =>
    split
    · refine (sweepAction_moves _ _ _).snoc (.sweep _ _ fun h => ?_)
      rw [sweepAction_sweep] at h ⊢
      exact Sweep.stepped_ok _ h hs
    · exact .refl _
    · exact .refl _
  · exact .refl _

theorem takeIfRoom_steps (s : State) : Steps s (takeIfRoom s) := by
  unfold takeIfRoom
  split
  · next h => exact takeOne_steps _ h
  · exact .refl _

end Sys2Proof.Machine
end

