-- ==== Sys2Proof/Laws/EventEnd.lean ====
section
/-! SUPPORT. The end of an event, said once: while no place of the handover request queue is freed, `finish` does what
`EventEnd` says; and an event that changes neither the queue nor the contexts in execution ends there. -/

namespace Sys2Proof.Machine

/-! ### The ports -/

theorem choosePort_eq (s : State) (p : PortIx) :
    choosePort s p = s.setPort p
      (if (s.port p).link = .down ∨ (s.port p).tx ≠ none then s.port p else chooseNext (s.port p)) := by
  unfold choosePort
  dsimp only
  split <;> next h1 => simp_all

theorem kickPort_eq (b s : State) (p : PortIx) :
    kickPort b s p = s.setPort p
      (if b.port p = s.port p ∨ (s.port p).link = .down ∨ (s.port p).tx ≠ none then s.port p else chooseNext (s.port p)) := by
  unfold kickPort
  by_cases h : b.port p = s.port p
  · simp [h]
  · simp only [h, if_false, false_or]; exact choosePort_eq s p

/-- The port after its own kick. -/
def kicked (b s : State) (p : PortIx) : CellPort :=
  if b.port p = s.port p ∨ (s.port p).link = .down ∨ (s.port p).tx ≠ none then s.port p else chooseNext (s.port p)

/-- The kicks of some ports touch nothing but those ports, each by itself. -/
theorem kickPorts_spec (b : State) (l : List PortIx) (hn : l.Nodup) (s : State) :
    ∃ ps, l.foldl (kickPort b) s = { s with ports := ps } ∧
      ∀ p, ps.get CellPort.blank p = if p ∈ l then kicked b s p else s.port p := by
  induction l generalizing s with
  | nil => exact ⟨s.ports, rfl, fun p => by simp [State.port]⟩
  | cons q l ih =>
    have hn' := List.nodup_cons.1 hn
    obtain ⟨ps, he, hp⟩ := ih hn'.2 (kickPort b s q)
    refine ⟨ps, ?_, fun p => ?_⟩
    · rw [List.foldl_cons, he, kickPort_eq]; rfl
    · rw [hp p]
      by_cases hq : p = q
      · subst hq
        simp only [hn'.1, if_false, List.mem_cons, true_or, if_true]
        rw [kickPort_eq, State.port_setPort_self]; rfl
      · have : (kickPort b s q).port p = s.port p := by rw [kickPort_eq, State.port_setPort_ne _ hq]
        simp only [List.mem_cons, hq, false_or, kicked, this]

theorem allIndices_four : allIndices 4 = [0, 1, 2, 3] := by decide

theorem kickAll_spec (b s : State) :
    ∃ ps, (allIndices 4).foldl (kickPort b) s = { s with ports := ps } ∧
      ∀ p, ps.get CellPort.blank p = kicked b s p := by
  obtain ⟨ps, he, hp⟩ := kickPorts_spec b (allIndices 4) (by decide) s
  refine ⟨ps, he, fun p => ?_⟩
  rw [hp p, if_pos]
  rw [allIndices_four]; fin_cases p <;> decide

/-! ### The whole end -/

/-- The transition of the hold touches the sweep alone, which follows it. -/
theorem holdTransition_spec (b : Bool) (z : State) :
    ∃ v, holdTransition b z = { z with sweep := v } ∧ SweepFollows b z.hold.active z.sweep v := by
  unfold holdTransition SweepFollows
  by_cases h1 : z.hold.active = b
  · rw [if_pos h1, h1]
    exact ⟨z.sweep, rfl, by rw [if_neg (by rintro ⟨h, k, _⟩; rw [h] at k; cases k),
      if_neg (by rintro ⟨h, k, _⟩; rw [h] at k; cases k)]⟩
  · rw [if_neg h1]
    unfold Sweep.holdBegins Sweep.holdEnds
    cases hc : z.hold.active with
    | true =>
      have hb : b = false := by cases b <;> simp_all
      exact ⟨_, rfl, by cases hw : z.sweep.state <;> simp [hb]⟩
    | false =>
      have hb : b = true := by cases b <;> simp_all
      refine ⟨_, rfl, ?_⟩
      cases hw : z.sweep.state with
      | idle => simp [hb]
      | running => simp [hb]
      | suspended m => cases m <;> simp [hb]

/-- The end of an event in which no place was freed. -/
theorem finish_end (s u : State) (hq : s.hrq.total ≤ u.hrq.total) : EventEnd s u (finish s u) := by
  have h0 : s.hrq.total - u.hrq.total = 0 := by omega
  obtain ⟨ps, hk, hp⟩ := kickAll_spec s u
  obtain ⟨hs, hm, hl, hr, hg, hc⟩ := kickTrunk_spec s { u with ports := ps }
  have hf : finish s u = holdTransition s.hold.active (reportFills s (kickTrunk s { u with ports := ps })) := by
    unfold finish
    rw [h0]
    simp only [offerPlaces]
    rw [hk]
  rw [hf]
  generalize kickTrunk s { u with ports := ps } = w at hs hm hl hr hg hc
  obtain ⟨v, hv, hw⟩ := holdTransition_spec s.hold.active (reportFills s w)
  rw [hv]
  exact
    { now := hs.now, filters := hs.filters, zones := hs.zones, gates := hs.gates, config := hs.config, pending := hs.pending
      mgmtNow := hs.mgmtNow, mgmtMuted := hs.mgmtMuted, counters := hs.counters
      device := hs.device, cells := hs.cells, calls := hs.calls, hrq := hs.hrq, answers := hs.answers, txnCounter := hs.txnCounter
      mgmtIn := hm, trunkLink := hl, registry := hr, paging := hg
      ports := fun p => by
        change w.ports.get CellPort.blank p = _
        rw [hs.ports]; exact hp p
      trunk := by
        split
        · next h => rw [if_pos h] at hc; exact hc
        · next h => rw [if_neg h] at hc; exact hc.congr rfl rfl rfl rfl rfl rfl rfl rfl rfl
      hold := by
        change (reportFills s w).hold = _
        unfold reportFills
        dsimp only
        rw [hs.hold]
      sweep := by
        rw [← hs.sweep]; exact hw }

theorem takes_none (before s : State) (h : s.hrq.total = 0) : takes before s = s := by
  unfold takes
  split
  · rfl
  · unfold Config.takeFuel takeLoop
    rw [if_pos (.inl h)]

/-- An event that frees no place, changes no request and brings no context out of execution ends at its own end. -/
theorem event_end {f : State → State} {s : State} (hq : (f s).hrq = s.hrq) (hx : s.inExecution ≤ (f s).inExecution) :
    event f s = finish s (f s) ∧ EventEnd s (f s) (event f s) := by
  have he := finish_end s (f s) (by rw [hq])
  have : event f s = finish s (f s) := by
    unfold event takes
    rw [if_pos]
    refine ⟨he.hrq.trans hq, ?_⟩
    unfold State.inExecution at *
    rw [he.calls]; exact hx
  exact ⟨this, this ▸ he⟩

/-- An event that leaves the request queue empty, and found it so, ends at its own end. -/
theorem event_end_empty {f : State → State} {s : State} (h0 : s.hrq.total = 0) (h1 : (f s).hrq.total = 0) :
    event f s = finish s (f s) ∧ EventEnd s (f s) (event f s) := by
  have he := finish_end s (f s) (by omega)
  have : event f s = finish s (f s) := by
    unfold event
    rw [takes_none]
    rw [he.hrq]; exact h1
  exact ⟨this, this ▸ he⟩

/-- What an event looks at when it ends: an event that leaves these as they were ends with its own effect. -/
structure Quiet (s u : State) : Prop where
  ports : u.ports = s.ports
  trunk : u.trunk = s.trunk
  notices : u.notices = s.notices
  hrq : u.hrq = s.hrq
  answers : u.answers = s.answers
  calls : u.calls = s.calls
  hold : u.hold = s.hold

theorem Quiet.refl (s : State) : Quiet s s := ⟨rfl, rfl, rfl, rfl, rfl, rfl, rfl⟩

theorem finish_quiet {s u : State} (h : Quiet s u) : finish s u = u := by
  have hp : ∀ p, kickPort s u p = u := fun p => by
    unfold kickPort State.port
    rw [h.ports, if_pos rfl]
  have hf : ∀ l : List PortIx, l.foldl (kickPort s) u = u := fun l => by
    induction l with
    | nil => rfl
    | cons p l ih => rw [List.foldl_cons, hp, ih]
  have ht : kickTrunk s u = u := by
    unfold kickTrunk
    rw [h.trunk, h.notices, if_pos ⟨rfl, rfl⟩]
  have hr : reportFills s u = u := by
    unfold reportFills
    rw [if_pos (by rw [h.hrq]), if_pos (by rw [h.answers]), if_pos (by rw [h.notices])]
  unfold finish
  rw [h.hrq, Nat.sub_self]
  simp only [offerPlaces]
  rw [hf, ht, hr]
  unfold holdTransition
  rw [h.hold, if_pos rfl]

/-- An event that changes nothing the end looks at. -/
theorem event_quiet {f : State → State} {s : State} (h : Quiet s (f s)) : event f s = f s := by
  unfold event takes
  rw [finish_quiet h, if_pos]
  refine ⟨h.hrq, ?_⟩
  unfold State.inExecution
  rw [h.calls]

end Sys2Proof.Machine
end

