-- ==== Sys2Proof/Laws/Kept.lean ====
section
/-! SUPPORT. What a chain of elementary changes keeps: the setting, and the invariant. -/

namespace Sys2Proof.Machine

theorem Service.follows_trans {a b c : Service} (h : a.follows b) (k : b.follows c) : a.follows c := by
  unfold Service.follows at *
  rcases h with rfl | h
  · exact k
  · cases a with
    | outOfService => exact h.elim
    | inService => exact h.elim
    | restarting d => exact h.elim
    | draining f d =>
      cases f with
      | outOfService => subst h; rcases k with rfl | k <;> simp_all
      | restarting =>
        obtain ⟨d', rfl⟩ := h
        rcases k with rfl | k
        · exact .inr ⟨_, rfl⟩
        · exact k.elim

theorem SettingKept.refl (s : State) : SettingKept s s :=
  ⟨rfl, rfl, rfl, rfl, rfl, rfl, rfl, rfl, rfl, rfl, fun _ => rfl, fun _ => rfl, fun _ => rfl, fun _ => .inl rfl,
    fun _ _ => rfl⟩

theorem SettingKept.trans {s t u : State} (h : SettingKept s t) (k : SettingKept t u) : SettingKept s u :=
  ⟨k.now.trans h.now, k.filters.trans h.filters, k.zones.trans h.zones, k.gates.trans h.gates, k.config.trans h.config,
    k.pending.trans h.pending, k.mgmtNow.trans h.mgmtNow, k.mgmtMuted.trans h.mgmtMuted, k.mgmtIn.trans h.mgmtIn, k.trunkLink.trans h.trunkLink,
    fun p => (k.links p).trans (h.links p), fun c => (k.stored c).trans (h.stored c),
    fun c => (k.neighbours c).trans (h.neighbours c), fun c => Service.follows_trans (h.service c) (k.service c),
    fun i hi => (k.subscribers i hi).trans (h.subscribers i hi)⟩

theorem sameRecord.identity {r q : Record} (h : sameRecord r q) : r.identity = q.identity := by
  unfold Record.identity
  rw [h.1]

/-- A change on the trunk's side that keeps the link, the waiting requests and the registry keeps the setting. -/
theorem TrunkSide.setting {s t : State} (h : TrunkSide s t) (hm : t.trunk.mgmtIn = s.trunk.mgmtIn)
    (hl : t.trunk.link = s.trunk.link) (hr : RegistryKept (fun _ => False) s t) : SettingKept s t :=
  ⟨h.now, h.filters, h.zones, h.gates, h.config, h.pending, h.mgmtNow, h.mgmtMuted, hm, hl,
    fun p => by unfold State.port; rw [h.ports], fun c => by unfold State.cell; rw [h.cells],
    fun c => by unfold State.cell; rw [h.cells], fun c => by unfold State.cell; rw [h.cells]; exact .inl rfl,
    fun i _ => (hr i not_false).identity⟩

theorem Raw.setting {s t : State} (h : Raw s t) : SettingKept s t := by
  cases h with
  | port p v h =>
    refine { SettingKept.refl s with links := fun q => ?_ }
    by_cases hq : q = p
    · subst hq; rw [State.port_setPort_self]; exact h.link
    · rw [State.port_setPort_ne _ hq]
  | cell c v h =>
    refine { SettingKept.refl s with stored := fun d => ?_, neighbours := fun d => ?_, service := fun d => ?_ }
    all_goals
      by_cases hd : d = c
      · subst hd; rw [State.cell_setCell_self]; first | exact h.stored | exact h.neighbours | exact h.service
      · first
          | exact congrArg _ (State.cell_setCell_ne _ hd _)
          | exact .inl (by rw [State.cell_setCell_ne _ hd])
  | trunk k h => exact { SettingKept.refl s with mgmtIn := h.mgmtIn, trunkLink := h.link }
  | record i v h =>
    refine { SettingKept.refl s with subscribers := fun j hj => ?_ }
    rw [State.record_setRecord]
    split
    · next he => rw [he] at hj ⊢; exact h.identity.elim id fun k => by rw [hj] at k; cases k.1
    · rfl
  | mark i =>
    have hs : ∀ j, ((markDirty i s).record j).identity = (s.record j).identity := fun j => by
      unfold Record.identity; rw [Record.enrolled_of_holder (markDirty_holder i j s)]
    rcases markDirty_cases i s with ⟨_, _, h⟩ | ⟨_, h⟩ <;> rw [h] at hs ⊢ <;>
      exact { SettingKept.refl s with subscribers := fun j _ => hs j }
  | push n h => exact { SettingKept.refl s with }
  | settle e o =>
    rcases settlePage_cases e o s with h | ⟨p, _, ⟨_, h⟩ | ⟨_, h⟩⟩ <;> rw [h] <;> exact { SettingKept.refl s with }
  | send h =>
    cases hn : s.notices with
    | nil =>
      have : sendNotice s = s := by unfold sendNotice; rw [hn]
      rw [this]; exact .refl s
    | cons n ns =>
      obtain ⟨h1, h2, _, hr, _⟩ := sendNotice_spec s n ns hn
      exact h1.setting (by rw [h2]) (by rw [h2]) hr
  | refill =>
    have h := refill_spec s
    exact h.side.setting (by rw [h.trunk]) (by rw [h.trunk]) h.registry
  | call x v => exact { SettingKept.refl s with }
  | page e v => exact { SettingKept.refl s with }
  | device f => exact { SettingKept.refl s with }
  | counter l v => exact { SettingKept.refl s with }
  | hrq q h => exact { SettingKept.refl s with }
  | answers as h => exact { SettingKept.refl s with }
  | txn t => exact { SettingKept.refl s with }
  | hold h => exact { SettingKept.refl s with }
  | sweep w h => exact { SettingKept.refl s with }

/-- A chain of elementary changes keeps the setting. -/
theorem Raws.setting {s t : State} (h : Raws s t) : SettingKept s t := by
  induction h with
  | refl => exact .refl _
  | tail _ h ih => exact ih.trans h.setting

/-! ### The invariant, one component at a time -/

/-- One record that changes by a visitor at most (R21, R23). -/
theorem State.HidsOnce.setRecord {s : State} (h : s.HidsOnce) {i : RecIx} {v : Record}
    (hv : v.identity = (s.record i).identity ∨
      isVisitor i = true ∧ ∀ h, v.presentHid = some h → ∀ j, (s.record j).presentHid ≠ some h) :
    (s.setRecord i v).HidsOnce := fun j k q hj hk => by
  rw [State.record_setRecord] at hj hk
  by_cases h1 : j = i <;> by_cases h2 : k = i
  · rw [h1, h2]
  · rw [if_pos h1] at hj; rw [if_neg h2] at hk
    rcases hv with hv | ⟨_, hv⟩
    · rw [Record.presentHid_eq, hv, ← Record.presentHid_eq, ← h1] at hj; exact h j k q hj hk
    · exact absurd hk (hv q hj k)
  · rw [if_neg h1] at hj; rw [if_pos h2] at hk
    rcases hv with hv | ⟨_, hv⟩
    · rw [Record.presentHid_eq, hv, ← Record.presentHid_eq, ← h2] at hk; exact h j k q hj hk
    · exact absurd hj (hv q hk j)
  · rw [if_neg h1] at hj; rw [if_neg h2] at hk; exact h j k q hj hk

theorem State.HidsOnce.same {s t : State} (h : s.HidsOnce) (hr : ∀ i, (t.record i).enrolled = (s.record i).enrolled) :
    t.HidsOnce := fun i j q hi hj => by
  unfold Record.presentHid at hi hj
  rw [hr] at hi hj
  exact h i j q hi hj

theorem State.Inv.setRecord {s : State} (h : s.Inv) (i : RecIx) (v : Record) (hv : v.VisitorOk i)
    (hh : (s.setRecord i v).HidsOnce) : (s.setRecord i v).Inv :=
  { h with
    tables := { h.tables with records := Table.wf_set _ _ _ _ h.tables.records }
    visitors := fun j => by
      by_cases hj : j = i
      · subst hj; rw [State.record_setRecord_self]; exact hv
      · rw [State.record_setRecord_ne _ hj]; exact h.visitors j
    hids := hh }

/-- The flags of a record are no part of the invariant. -/
theorem State.Inv.flag {s : State} (h : s.Inv) (i : RecIx) (v : Record) (hv : v.enrolled = (s.record i).enrolled) :
    (s.setRecord i v).Inv :=
  h.setRecord i v (fun hi e he => h.visitors i hi e (hv ▸ he)) <| h.hids.setRecord <| .inl (by
    unfold Record.identity; rw [hv])

theorem State.Inv.setPort {s : State} (h : s.Inv) (p : PortIx) (v : CellPort) (hv : v.Ok) : (s.setPort p v).Inv :=
  { h with
    tables := { h.tables with ports := Table.wf_set _ _ _ _ h.tables.ports }
    ports := fun q => by
      by_cases hq : q = p
      · subst hq; rw [State.port_setPort_self]; exact hv
      · rw [State.port_setPort_ne _ hq]; exact h.ports q }

theorem State.Inv.setCell {s : State} (h : s.Inv) (c : CellIx) (v : CellRec) (hv : v.Ok) : (s.setCell c v).Inv :=
  { h with
    tables := { h.tables with cells := Table.wf_set _ _ _ _ h.tables.cells }
    cells := fun d => by
      by_cases hd : d = c
      · subst hd; rw [State.cell_setCell_self]; exact hv
      · rw [State.cell_setCell_ne _ hd]; exact h.cells d }

/-- What a refill keeps, said of the invariant. -/
theorem State.Inv.refill {s : State} (h : s.Inv) : (refill s).Inv := by
  unfold Machine.refill
  split
  · next hr =>
    have hroom : s.notices.length < Config.noticeCapacity := of_decide_eq_true hr
    split
    · next e _ =>
      have hm : (markOutcomeQueued e s).Inv := by
        unfold markOutcomeQueued
        repeat' split
        · exact h
        · exact h
        · exact { h with tables := { h.tables with pages := Table.wf_set _ _ _ _ h.tables.pages } }
      refine { hm with tables := { hm.tables with }, notices := ?_ }
      change (_ ++ _ : List Notice).length ≤ _
      rw [markOutcomeQueued_notices]
      simpa using hroom
    · split
      · next i _ =>
        have hm := h.flag i { s.record i with queued := true } rfl
        refine { hm with tables := { hm.tables with }, notices := ?_ }
        change (s.notices ++ [_]).length ≤ _
        simpa using hroom
      · exact h
  · exact h

theorem State.Inv.buildNotice {s : State} (h : s.Inv) (n : Notice) : (buildNotice n s).2.Inv := by
  unfold Machine.buildNotice
  split
  · next i =>
    exact h.flag i _ (Holder.settled_enrolled _ _ _)
  · exact h
  · split
    · exact h
    · split
      · exact { h with tables := { h.tables with pages := Table.wf_set _ _ _ _ h.tables.pages } }
      · exact h
  · exact h

theorem State.Inv.sendNotice {s : State} (h : s.Inv) : (sendNotice s).Inv := by
  unfold Machine.sendNotice
  split
  · exact h
  · next n ns hn =>
    have h1 : State.Inv { s with notices := ns } := { h with
      tables := { h.tables with }
      notices := by have := h.notices; rw [hn, List.length_cons] at this; exact (Nat.le_succ _).trans this }
    have h2 := h1.buildNotice n
    dsimp only
    exact State.Inv.refill { h2 with
      tables := { h2.tables with }, trunk := ⟨h2.trunk.voice, h2.trunk.replies, h2.trunk.mgmtIn⟩ }

theorem Raw.inv {s t : State} (k : Raw s t) (h : s.Inv) : t.Inv := by
  cases k with
  | record i v hv => exact h.setRecord i v (hv.visitor (h.visitors i)) (h.hids.setRecord hv.identity)
  | mark i =>
    rcases markDirty_cases i s with ⟨_, hl, he⟩ | ⟨_, he⟩ <;> rw [he]
    · have hm := h.flag i { s.record i with dirty := true, queued := true } rfl
      exact { hm with tables := { hm.tables with }, notices := by simpa using hl }
    · exact h.flag i { s.record i with dirty := true } rfl
  | push n hn => exact { h with
      tables := { h.tables with }
      notices := by change (s.notices ++ [n]).length ≤ _; simpa using of_decide_eq_true hn }
  | send => exact h.sendNotice
  | refill => exact h.refill
  | call x v hv => exact { h with
      tables := { h.tables with calls := Table.wf_set _ _ _ _ h.tables.calls }
      contexts := fun y => by
        rw [State.call_setCall]; split
        · exact hv (h.contexts x)
        · exact h.contexts y }
  | page e v => exact { h with tables := { h.tables with pages := Table.wf_set _ _ _ _ h.tables.pages } }
  | settle e o =>
    rcases settlePage_cases e o s with k | ⟨p, _, ⟨hl, k⟩ | ⟨_, k⟩⟩ <;> rw [k]
    · exact h
    · exact { h with
        tables := { h.tables with pages := Table.wf_set _ _ _ _ h.tables.pages }
        notices := by change (s.notices ++ [Notice.pageOutcome e]).length ≤ _; simpa using hl }
    · exact { h with tables := { h.tables with pages := Table.wf_set _ _ _ _ h.tables.pages } }
  | device f => exact { h with tables := { h.tables with } }
  | counter l v => exact { h with tables := { h.tables with counters := Table.wf_set _ _ _ _ h.tables.counters } }
  | port p v hv => exact h.setPort p v (hv.ok (h.ports p))
  | trunk k hk => exact { h with
      tables := { h.tables with }
      trunk := hk.ok h.trunk
      agent := fun hm => hk.mgmtIn.trans (h.agent hm) }
  | cell c v hv => exact h.setCell c v (hv.ok (h.cells c))
  | hrq q hq => exact { h with tables := { h.tables with }, hrq := hq h.hrq }
  | answers as ha => exact { h with tables := { h.tables with }, answers := ha h.answers }
  | txn t => exact { h with tables := { h.tables with } }
  | hold k => exact { h with tables := { h.tables with } }
  | sweep w hw => exact { h with tables := { h.tables with }, sweep := hw h.sweep }

/-- A chain of elementary changes keeps the invariant. -/
theorem Raws.inv {s t : State} (k : Raws s t) (h : s.Inv) : t.Inv := by
  induction k with
  | refl => exact h
  | tail _ k ih => exact k.inv ih

/-! ### The notice queue -/

/-- A state whose records carry the same flags and whose queue is the same agrees as before. -/
theorem State.NoticesOk.same {s t : State} (h : s.NoticesOk) (hn : t.notices = s.notices)
    (hr : ∀ i, (t.record i).dirty = (s.record i).dirty ∧ (t.record i).queued = (s.record i).queued) : t.NoticesOk :=
  ⟨fun i => by rw [(hr i).2, hn]; exact h.flagged i, fun i => by rw [hn]; exact h.once i,
    fun hl i hd => by rw [(hr i).2]; rw [(hr i).1] at hd; rw [hn] at hl; exact h.waiting hl i hd⟩

/-- A notice that is no LOCATION notice joins the queue. -/
theorem State.NoticesOk.push {s t : State} (h : s.NoticesOk) (m : Notice) (hm : ∀ i, m ≠ .location i)
    (hn : t.notices = s.notices ++ [m])
    (hr : ∀ i, (t.record i).dirty = (s.record i).dirty ∧ (t.record i).queued = (s.record i).queued) : t.NoticesOk := by
  refine ⟨fun i => ?_, fun i => ?_, fun hl i hd => ?_⟩
  · rw [(hr i).2, hn, h.flagged i, List.mem_append, List.mem_singleton]
    exact ⟨.inl, fun k => k.elim id fun e => absurd e.symm (hm i)⟩
  · rw [hn, List.count_append, List.count_singleton]
    have := h.once i
    have hne : (m == Notice.location i) = false := by simpa using hm i
    simp only [hne, Bool.false_eq_true, if_false]; omega
  · rw [(hr i).2]; rw [(hr i).1] at hd
    rw [hn, List.length_append] at hl
    exact h.waiting (by omega) i hd

/-- The LOCATION notice of a record joins the queue, and the record is queued. -/
theorem State.NoticesOk.pushRecord {s t : State} (hf : ∀ i, (s.record i).queued = true ↔ Notice.location i ∈ s.notices)
    (ho : ∀ i, s.notices.count (.location i) ≤ 1) (j : RecIx) (hj : (s.record j).queued = false)
    (hn : t.notices = s.notices ++ [.location j]) (hjq : (t.record j).queued = true)
    (hr : ∀ i, i ≠ j → (t.record i).dirty = (s.record i).dirty ∧ (t.record i).queued = (s.record i).queued)
    (hw : t.notices.length < Config.noticeCapacity → ∀ i, i ≠ j → (s.record i).dirty = true → (s.record i).queued = true) :
    t.NoticesOk := by
  have hnot : Notice.location j ∉ s.notices := fun hm => by rw [(hf j).2 hm] at hj; cases hj
  refine ⟨fun i => ?_, fun i => ?_, fun hl i hd => ?_⟩
  · by_cases hi : i = j
    · subst hi; rw [hjq, hn]; simp
    · rw [(hr i hi).2, hn, hf i, List.mem_append, List.mem_singleton]
      exact ⟨.inl, fun k => k.elim id fun e => by injection e with e; exact absurd e hi⟩
  · rw [hn, List.count_append, List.count_singleton]
    by_cases hi : i = j
    · subst hi
      rw [List.count_eq_zero_of_not_mem hnot]; split <;> omega
    · have hne : (Notice.location j == Notice.location i) = false := by simpa using fun e => hi e.symm
      have := ho i
      simp only [hne, Bool.false_eq_true, if_false]; omega
  · by_cases hi : i = j
    · subst hi; exact hjq
    · rw [(hr i hi).2]; rw [(hr i hi).1] at hd; exact hw hl i hi hd

/-- A refill restores the agreement of a queue that has lost one notice. -/
theorem refill_notices {s : State} (hf : ∀ i, (s.record i).queued = true ↔ Notice.location i ∈ s.notices)
    (ho : ∀ i, s.notices.count (.location i) ≤ 1)
    (hw : s.notices.length + 1 < Config.noticeCapacity → ∀ i, (s.record i).dirty = true → (s.record i).queued = true) :
    (refill s).NoticesOk := by
  unfold refill
  split
  · next hr =>
    have hroom : s.notices.length < Config.noticeCapacity := of_decide_eq_true hr
    split
    · next e _ =>
      have hm := markOutcomeQueued_spec e s
      have hrec : ∀ i, (markOutcomeQueued e s).record i = s.record i := fun i => by unfold State.record; rw [hm.2.2.1]
      refine ⟨fun i => ?_, fun i => ?_, fun hl i hd => ?_⟩
      · change ((markOutcomeQueued e s).record i).queued = true ↔ _ ∈ (markOutcomeQueued e s).notices ++ _
        rw [hrec, markOutcomeQueued_notices, hf i]
        simp
      · change List.count _ ((markOutcomeQueued e s).notices ++ _) ≤ 1
        rw [markOutcomeQueued_notices, List.count_append]
        have := ho i
        simp; omega
      · change ((markOutcomeQueued e s).record i).dirty = true at hd
        change ((markOutcomeQueued e s).record i).queued = true
        change ((markOutcomeQueued e s).notices ++ _).length < _ at hl
        rw [hrec] at *
        rw [markOutcomeQueued_notices, List.length_append] at hl
        exact hw hl i hd
    · split
      · next i hi =>
        have hi' := Table.find_some _ _ _ hi
        have hd : (s.record i).dirty = true ∧ (s.record i).queued = false := by
          simpa [State.record] using hi'
        refine State.NoticesOk.pushRecord hf ho i hd.2 rfl ?_ ?_ ?_
        · change ((s.setRecord i { s.record i with queued := true }).record i).queued = true
          rw [State.record_setRecord_self]
        · intro j hj
          change ((s.setRecord i { s.record i with queued := true }).record j).dirty = _ ∧ _
          have : (s.setRecord i { s.record i with queued := true }).record j = s.record j := State.record_setRecord_ne _ hj _
          rw [this]
          exact ⟨rfl, congrArg Record.queued this⟩
        · intro hl j _ hdj
          change (s.notices ++ _).length < _ at hl
          rw [List.length_append] at hl
          exact hw hl j hdj
      · next hi =>
        refine ⟨hf, ho, fun _ i hd => ?_⟩
        by_contra hq
        have hn := Table.find_none _ _ _ hi i
        simp only [Bool.not_eq_true] at hq
        have hr : (s.records.get Record.blank i) = s.record i := rfl
        rw [hr, hd, hq] at hn
        simp [Record.blank] at hn
  · next hr =>
    have hroom : ¬ s.notices.length < Config.noticeCapacity := fun h => hr (decide_eq_true h)
    exact ⟨hf, ho, fun hl => absurd hl hroom⟩

theorem sendNotice_notices {s : State} (h : s.NoticesOk) : (sendNotice s).NoticesOk := by
  unfold sendNotice
  split
  · exact h
  · next n ns hn =>
    dsimp only
    have hcount : ∀ i, ns.count (.location i) + (if n = .location i then 1 else 0) ≤ 1 := fun i => by
      have := h.once i
      rw [hn, List.count_cons] at this
      simpa [beq_iff_eq] using this
    have hother : ∀ t : State, t.notices = ns → (∀ i, t.record i = s.record i) → (∀ i, n ≠ .location i) →
        (refill t).NoticesOk := by
      intro t ht hr hne
      refine refill_notices (fun i => ?_) (fun i => ?_) (fun hl i hd => ?_)
      · rw [hr i, ht, h.flagged i, hn, List.mem_cons]
        exact ⟨fun k => k.elim (fun e => absurd e.symm (hne i)) id, .inr⟩
      · rw [ht]; have := hcount i; omega
      · rw [hr i] at *
        rw [ht] at hl
        exact h.waiting (by rw [hn, List.length_cons]; omega) i hd
    cases n with
    | location j =>
      have hnot : Notice.location j ∉ ns := by
        have := hcount j
        simp only [if_true] at this
        exact List.count_eq_zero.1 (by omega)
      have key : ∀ z : State, z.notices = ns → (∀ i, z.record i =
          if i = j then { s.record j with holder := (s.record j).holder.settled, dirty := false, queued := false }
          else s.record i) → (refill z).NoticesOk := by
        intro z hz hrec
        refine refill_notices (fun i => ?_) (fun i => ?_) (fun hl i hd => ?_)
        · rw [hrec i, hz]
          by_cases hi : i = j
          · subst hi; simp [hnot]
          · rw [if_neg hi, h.flagged i, hn, List.mem_cons]
            exact ⟨fun k => k.elim (fun e => by injection e with e; exact absurd e hi) id, .inr⟩
        · rw [hz]; have := hcount i; omega
        · rw [hrec i] at *
          by_cases hi : i = j
          · subst hi; simp at hd
          · rw [if_neg hi] at *
            rw [hz] at hl
            exact h.waiting (by rw [hn, List.length_cons]; omega) i hd
      exact key _ rfl fun i => State.record_setRecord { s with notices := ns } j i _
    | callReq a b c => exact hother _ rfl (fun i => rfl) (by simp)
    | immediate a b => exact hother _ rfl (fun i => rfl) (by simp)
    | pageOutcome e =>
      have hb : (buildNotice (.pageOutcome e) { s with notices := ns }).2.records = s.records := by
        unfold buildNotice
        dsimp only
        split
        · rfl
        · split <;> rfl
      refine hother _ ?_ (fun i => ?_) (by simp)
      · exact (buildNotice_spec (.pageOutcome e) { s with notices := ns }).2.1
      · change (buildNotice (.pageOutcome e) { s with notices := ns }).2.records.get _ i = _
        rw [hb]; rfl

theorem Raw.notices {s t : State} (k : Raw s t) (h : s.NoticesOk) : t.NoticesOk := by
  cases k with
  | record i v hv =>
    refine h.same rfl fun j => ?_
    by_cases hj : j = i
    · subst hj; rw [State.record_setRecord_self]; exact ⟨hv.dirty, hv.queued⟩
    · rw [State.record_setRecord_ne _ hj]; exact ⟨rfl, rfl⟩
  | mark i =>
    rcases markDirty_cases i s with ⟨hq, hl, he⟩ | ⟨hq, he⟩ <;> rw [he]
    · refine State.NoticesOk.pushRecord h.flagged h.once i hq rfl ?_ (fun j hj => ?_) (fun _ j _ hd => h.waiting hl j hd)
      · change ((s.setRecord i { s.record i with dirty := true, queued := true }).record i).queued = true
        rw [State.record_setRecord_self]
      · have : (s.setRecord i { s.record i with dirty := true, queued := true }).record j = s.record j :=
          State.record_setRecord_ne _ hj _
        exact ⟨congrArg Record.dirty this, congrArg Record.queued this⟩
    · have hr : ∀ j, ((s.setRecord i { s.record i with dirty := true }).record j).queued = (s.record j).queued := fun j => by
        by_cases hj : j = i
        · subst hj; rw [State.record_setRecord_self]
        · rw [State.record_setRecord_ne _ hj]
      refine ⟨fun j => by rw [hr]; exact h.flagged j, h.once, fun hl j hd => ?_⟩
      rw [hr]
      by_cases hj : j = i
      · subst hj
        rcases hq with hq | hq
        · exact hq
        · exact absurd (show s.notices.length < _ from hl) (not_lt.2 hq)
      · rw [State.record_setRecord_ne _ hj] at hd
        exact h.waiting hl j hd
  | push n hr hn => exact h.push n hn rfl fun i => ⟨rfl, rfl⟩
  | send => exact sendNotice_notices h
  | refill => exact refill_notices h.flagged h.once fun hl => h.waiting (by omega)
  | call x v _ => exact h.same rfl fun i => ⟨rfl, rfl⟩
  | page e v => exact h.same rfl fun i => ⟨rfl, rfl⟩
  | settle e o =>
    rcases settlePage_cases e o s with k | ⟨p, _, ⟨_, k⟩ | ⟨_, k⟩⟩ <;> rw [k]
    · exact h
    · exact h.push (.pageOutcome e) (by simp) rfl fun i => ⟨rfl, rfl⟩
    · exact h.same rfl fun i => ⟨rfl, rfl⟩
  | device f => exact h.same rfl fun i => ⟨rfl, rfl⟩
  | counter l v => exact h.same rfl fun i => ⟨rfl, rfl⟩
  | port p v hv => exact h.same rfl fun i => ⟨rfl, rfl⟩
  | trunk k hk => exact h.same rfl fun i => ⟨rfl, rfl⟩
  | cell c v hv => exact h.same rfl fun i => ⟨rfl, rfl⟩
  | hrq q hq => exact h.same rfl fun i => ⟨rfl, rfl⟩
  | answers as ha => exact h.same rfl fun i => ⟨rfl, rfl⟩
  | txn t => exact h.same rfl fun i => ⟨rfl, rfl⟩
  | hold k => exact h.same rfl fun i => ⟨rfl, rfl⟩
  | sweep w hw => exact h.same rfl fun i => ⟨rfl, rfl⟩

/-- A chain of elementary changes keeps the agreement of the notice queue and the records. -/
theorem Raws.notices {s t : State} (k : Raws s t) (h : s.NoticesOk) : t.NoticesOk := by
  induction k with
  | refl => exact h
  | tail _ k ih => exact k.notices ih

end Sys2Proof.Machine
end

