-- ==== Sys2Proof/Laws/Commands.lean ====
section
/-! SUPPORT. How a command reaches its owning block: the acceptance of frames in range, the lookups of the registry on a
state that has counted a frame, and the ends of events that leave calls and requests alone. -/

namespace Sys2Proof.Machine

/-! ### Acceptance -/

theorem linkUp_cell (c : CellIx) (s : State) : linkUp (linkOf (portOf c)) s = decide ((s.port (portOf c)).link = .up) := by
  unfold linkUp linkOf
  rw [dif_pos (portOf c).isLt]

theorem linkUp_trunk (s : State) : linkUp trunkLink s = decide (s.trunk.link = .up) := by
  unfold linkUp trunkLink
  rw [dif_neg (by decide)]

/-- A frame from a cell that is heard, with every field in range, is handed to its owning block. -/
theorem rxCell_heard {c : CellIx} {s : State} (h : Heard c s) {n : Nat} (hn : n ≤ 512) (f : State → State) :
    rxCell c n (some f) s = f (counted c s) := by
  unfold rxCell
  dsimp only
  rw [linkUp_cell, h.1, if_pos (by simp), if_neg (by omega), if_pos h.2]
  rfl

/-- A frame from the trunk in UP, with every field in range, is handed to its owning block. -/
theorem rxTrunk_up {s : State} (h : s.trunk.link = .up) {n : Nat} (hn : n ≤ 512) (f : State → State) :
    rxTrunk n (some f) s = f (countReceived trunkLink s) := by
  unfold rxTrunk
  rw [linkUp_trunk, h, if_pos (by simp), if_neg (by omega)]

theorem inRange_eq {n v : Nat} {i : Fin n} (h : v = i.val) : inRange n v = some i := by
  unfold inRange
  rw [dif_pos (by have := i.isLt; omega)]
  congr 1
  exact Fin.ext h

theorem byteIn_eq {n : Nat} {b : Byte} {i : Fin n} (h : b.toNat = i.val) : byteIn n b = some i := inRange_eq h

theorem byteIn_some {n : Nat} {b : Byte} (h : b.toNat < n) : byteIn n b = some ⟨b.toNat, h⟩ := byteIn_eq rfl

/-! ### Ends of events -/

/-- An event that leaves the calls and the requests alone ends at its own end. -/
theorem event_end_still {f : State → State} {s : State} (hq : (f s).hrq = s.hrq) (hc : (f s).calls = s.calls) :
    EventEnd s (f s) (event f s) :=
  (event_end hq (by unfold State.inExecution; rw [hc])).2

/-- An event that keeps every context in execution, and the requests. -/
theorem event_end_running {f : State → State} {s : State} (hs : s.Inv) (ht : (f s).Inv) (hq : (f s).hrq = s.hrq)
    (hc : ∀ x, inExecutionAt (s.call x) = true → inExecutionAt ((f s).call x) = true) :
    EventEnd s (f s) (event f s) :=
  (event_end hq (State.inExecution_mono hs.tables.calls ht.tables.calls hc)).2

/-- A command whose one event leaves the calls and the requests alone completes at the end of that event. -/
theorem runs_event {c : Instr} {f : State → State} {s u : State} (hc : exec c s = .next (event f s)) (hu : f s = u)
    (hq : u.hrq = s.hrq) (hx : u.calls = s.calls) {P : State → Prop} (hP : ∀ t, EventEnd s u t → P t) : Runs c s P := by
  have h := event_end_still (f := f) (s := s) (by rw [hu, hq]) (by rw [hu, hx])
  rw [hu] at h
  exact ⟨_, hc, hP _ h⟩

/-- The request in execution is the command's (R180, R181). -/
theorem executes_iff {tag : Tag} {fits : MgmtFrame → Bool} {s : State} :
    executes tag fits s = true ↔ Executing tag fits s := by
  unfold executes Executing
  cases s.mgmtNow with
  | none => exact ⟨nofun, fun ⟨_, h, _⟩ => by cases h⟩
  | some r => simp

/-- What an operation that stands for the request in execution leaves (R180). -/
theorem respond_answered {tag : Tag} {fits : MgmtFrame → Bool} {op : State → State × MgmtAnswer} {s u : State}
    {a : MgmtAnswer} (h : Executing tag fits s) (ho : op s = (u, a)) : respond tag fits op s = answered tag a u := by
  unfold respond
  rw [if_pos (executes_iff.2 h), ho]
  rfl

theorem respond_idle {tag : Tag} {fits : MgmtFrame → Bool} {s : State} (h : ¬ Executing tag fits s)
    (op : State → State × MgmtAnswer) : respond tag fits op s = s := by
  unfold respond
  rw [if_neg (by rwa [executes_iff])]

theorem answered_hrq (tag : Tag) (a : MgmtAnswer) (s : State) : (answered tag a s).hrq = s.hrq := by
  unfold answered completeRequest startRequest sendResponse reply
  dsimp only [State.count]
  repeat' split
  all_goals rfl

theorem answered_calls (tag : Tag) (a : MgmtAnswer) (s : State) : (answered tag a s).calls = s.calls := by
  unfold answered completeRequest startRequest sendResponse reply
  dsimp only [State.count]
  repeat' split
  all_goals rfl

/-- A management row whose operation leaves the calls and the requests alone completes with its one response, while the
request in execution is its own. -/
theorem runs_respond {c : Instr} {tag : Tag} {fits : MgmtFrame → Bool} {op : State → State × MgmtAnswer} {s u : State}
    {a : MgmtAnswer} (hc : exec c s = .next (event (respond tag fits op) s)) (ho : op s = (u, a)) (hq : u.hrq = s.hrq)
    (hx : u.calls = s.calls) : Answers c tag fits s a u := fun h =>
  runs_event hc (u := answered tag a u) (respond_answered h ho) (by rw [answered_hrq, hq])
    (by rw [answered_calls, hx]) fun _ h => h

/-- What an event left of a record is what the whole event leaves of it. -/
theorem EventEnd.enrolled {s u t : State} (h : EventEnd s u t) (i : RecIx) :
    (t.record i).enrolled = (u.record i).enrolled := (h.registry i (fun k => k)).1

theorem EventEnd.lastChange {s u t : State} (h : EventEnd s u t) (i : RecIx) :
    (t.record i).lastChange = (u.record i).lastChange := (h.registry i (fun k => k)).2

/-- A port that a command did not touch is as it was. -/
theorem EventEnd.port_same {s u t : State} (h : EventEnd s u t) {p : PortIx} (hp : u.port p = s.port p) :
    t.port p = s.port p := by rw [h.ports p, if_pos (.inl hp.symm), hp]

/-! ### What the operations on records and queues leave alone -/

theorem sendAck_hrq (c : CellIx) (h : Hid) (r : AttachResult) (s : State) : (sendAck c h r s).hrq = s.hrq := by
  unfold sendAck offerQuietly offer
  dsimp only
  repeat' split
  all_goals rfl

/-- A change of location touches the records, the notices and the page list alone. -/
structure Registry (s t : State) : Prop where
  calls : t.calls = s.calls
  hrq : t.hrq = s.hrq
  ports : t.ports = s.ports
  cells : t.cells = s.cells
  answers : t.answers = s.answers
  trunk : t.trunk = s.trunk

theorem markDirty_registry (i : RecIx) (s : State) : Registry s (markDirty i s) := by
  unfold markDirty
  dsimp only
  split <;> exact ⟨rfl, rfl, rfl, rfl, rfl, rfl⟩

theorem writeLocation_registry (i : RecIx) (e : Enrolled) (loc : Location) (s : State) :
    Registry s (writeLocation i e loc s) := { markDirty_registry i _ with }

theorem settlePage_registry (e : PageIx) (o : PageOutcome) (s : State) : Registry s (settlePage e o s) := by
  unfold settlePage pushNotice
  repeat' split
  all_goals exact ⟨rfl, rfl, rfl, rfl, rfl, rfl⟩

theorem pageReport_registry (i : RecIx) (h : Hid) (loc : Location) (s : State) : Registry s (pageReport i h loc s) := by
  unfold pageReport
  split
  · exact ⟨rfl, rfl, rfl, rfl, rfl, rfl⟩
  · split
    · exact settlePage_registry _ _ _
    · exact ⟨rfl, rfl, rfl, rfl, rfl, rfl⟩
    · exact settlePage_registry _ _ _

theorem pageReport_attached (i : RecIx) (h : Hid) (a : Attachment) (d : Time) (s : State) :
    pageReport i h (.attached a d) s = s := by
  unfold pageReport
  split <;> rfl

theorem changeLocation_registry (i : RecIx) (e : Enrolled) (loc : Location) (s : State) :
    Registry s (changeLocation i e loc s) :=
  { calls := (pageReport_registry _ _ _ _).calls.trans (writeLocation_registry _ _ _ _).calls
    hrq := (pageReport_registry _ _ _ _).hrq.trans (writeLocation_registry _ _ _ _).hrq
    ports := (pageReport_registry _ _ _ _).ports.trans (writeLocation_registry _ _ _ _).ports
    cells := (pageReport_registry _ _ _ _).cells.trans (writeLocation_registry _ _ _ _).cells
    answers := (pageReport_registry _ _ _ _).answers.trans (writeLocation_registry _ _ _ _).answers
    trunk := (pageReport_registry _ _ _ _).trunk.trans (writeLocation_registry _ _ _ _).trunk }

theorem changeLocation_attached (i : RecIx) (e : Enrolled) (a : Attachment) (d : Time) (s : State) :
    changeLocation i e (.attached a d) s = writeLocation i e (.attached a d) s := pageReport_attached _ _ _ _ _

theorem markDirty_record (i j : RecIx) (s : State) : sameRecord ((markDirty i s).record j) (s.record j) := by
  unfold markDirty
  dsimp only
  split
  · change sameRecord ((s.setRecord i { s.record i with dirty := true, queued := true }).record j) _
    by_cases hj : j = i
    · subst hj; rw [State.record_setRecord_self]; exact ⟨rfl, rfl⟩
    · rw [State.record_setRecord_ne _ hj]; exact ⟨rfl, rfl⟩
  · by_cases hj : j = i
    · subst hj; rw [State.record_setRecord_self]; exact ⟨rfl, rfl⟩
    · rw [State.record_setRecord_ne _ hj]; exact ⟨rfl, rfl⟩

/-- What a change of location leaves in the record it changes. -/
theorem writeLocation_record (i : RecIx) (e : Enrolled) (loc : Location) (s : State) :
    ((writeLocation i e loc s).record i).enrolled =
      (if loc = .absent ∧ isVisitor i = true then none else some { e with loc := loc }) ∧
    ((writeLocation i e loc s).record i).lastChange = s.now := by
  have h := markDirty_record i i (s.setRecord i { s.record i with holder := holderAfter i e loc, lastChange := s.now })
  rw [State.record_setRecord_self] at h
  exact ⟨(writeLocation_enrolled i e loc s).1, h.2⟩

theorem changeLocation_record (i : RecIx) (e : Enrolled) (loc : Location) (s : State) :
    ((changeLocation i e loc s).record i).enrolled =
      (if loc = .absent ∧ isVisitor i = true then none else some { e with loc := loc }) ∧
    ((changeLocation i e loc s).record i).lastChange = s.now := by
  have h := writeLocation_record i e loc s
  have hr : (changeLocation i e loc s).record i = (writeLocation i e loc s).record i := by
    unfold State.record; rw [changeLocation_records]
  rwa [hr]

end Sys2Proof.Machine
end

