-- ==== Sys2Proof/Laws/Frames.lean ====
section
/-! SUPPORT. What a layout of fields holds: each field whole, apart from the others, in some order. -/

namespace Sys2Proof.Machine

theorem arrange_perm (place : Nat → Nat) (ws : List (List Byte)) : (arrange place ws).Perm ws := by
  induction ws with
  | nil => exact .nil
  | cons w ws ih =>
    unfold arrange
    exact List.perm_middle.trans (.cons w ((List.take_append_drop _ _).symm ▸ ih))

theorem spread_length (gap : Nat → List Byte) (room : Nat) (ws : List (List Byte)) :
    (spread gap room ws).length ≤ room + ws.flatten.length := by
  induction ws generalizing room with
  | nil => simp [spread]
  | cons w ws ih =>
    have h := ih (room - ((gap (ws.length + 1)).take room).length)
    have hg : ((gap (ws.length + 1)).take room).length ≤ room := List.length_take_le _ _
    simp only [spread, List.length_append, List.flatten_cons]
    omega

theorem spread_held (gap : Nat → List Byte) (room : Nat) (ws : List (List Byte)) :
    ∃ gs last, gs.length = ws.length ∧ spread gap room ws = (List.zipWith (· ++ ·) gs ws).flatten ++ last := by
  induction ws generalizing room with
  | nil => exact ⟨[], _, rfl, rfl⟩
  | cons w ws ih =>
    obtain ⟨gs, last, hl, h⟩ := ih (room - ((gap (ws.length + 1)).take room).length)
    exact ⟨(gap (ws.length + 1)).take room :: gs, last, congrArg (· + 1) hl, by
      rw [List.zipWith_cons_cons, List.flatten_cons, spread]
      simp only [h, List.append_assoc]⟩

theorem layOut_length (limit : Nat) (layout : Nat → Nat × List Byte) (ws : List (List Byte)) :
    (layOut limit layout ws).length ≤ limit := List.length_take_le _ _

/-- A layout with room for its fields holds them all. -/
theorem layOut_held {limit : Nat} (layout : Nat → Nat × List Byte) {ws : List (List Byte)}
    (h : ws.flatten.length ≤ limit) : FieldsHeld ws (layOut limit layout ws) := by
  have hp := arrange_perm (fun n => (layout n).1) ws
  obtain ⟨gs, last, hl, hs⟩ := spread_held (fun n => (layout n).2) (limit - ws.flatten.length)
    (arrange (fun n => (layout n).1) ws)
  refine ⟨_, gs, last, hp, hl, ?_⟩
  rw [← hs]
  refine List.take_of_length_le (le_trans (spread_length _ _ _) ?_)
  rw [hp.flatten.length_eq]
  omega

/-- A sealed frame holds what its kind fields hold. -/
theorem sealFrame_holds {ws : List (List Byte)} {fields : List Byte} (h : FieldsHeld ws fields) (kind address : Byte) :
    FrameHolds ws (sealFrame kind address fields) :=
  ⟨kind :: address :: bytes16 (BitVec.ofNat 16 (fields.length + 6)), fields, _, rfl, rfl, rfl, h⟩

end Sys2Proof.Machine
end

