-- ==== Sys2Proof/Laws/Idle.lean ====
section
/-! SUPPORT. A port or a trunk in UP that is idle has nothing that waits (R10, R12): the end of an event sees to it, whatever
the event did, so that every command which is a chain of events keeps it. -/

namespace Sys2Proof.Machine

/-- No frame of the priority waits. -/
theorem takeFirst_none {p : Priority} {q : List CtlFrame} (h : takeFirst p q = none) : ∀ f ∈ q, f.priority ≠ p := by
  induction q with
  | nil => simp
  | cons f fs ih =>
    unfold takeFirst at h
    split at h
    · cases h
    · next hp =>
      split at h
      · next ht => simpa [hp] using ih ht
      · cases h

/-- The close set is empty. -/
theorem firstPair_none {l : List (CellIx × Channel)} (h : firstPair l = none) : l = [] := by
  cases l with
  | nil => rfl
  | cons p ps => unfold firstPair at h; split at h <;> first | cases h | (split at h <;> cases h)

/-- A port without a frame of priority 3 that sends nothing has no frame and no pair. -/
theorem sendBelow_idle (port : CellPort) (h3 : takeFirst 3 port.ctl = none) (h : (sendBelow port).tx = none) :
    sendBelow port = port ∧ port.ctl = [] ∧ port.closes = [] := by
  unfold sendBelow at *
  split at h
  · cases h
  · next hp =>
    unfold sendFirst at *
    cases h2 : takeFirst 2 port.ctl with
    | some r => simp [h2] at h
    | none =>
      cases h1 : takeFirst 1 port.ctl with
      | some r => simp [h2, h1] at h
      | none =>
        cases h0 : takeFirst 0 port.ctl with
        | some r => simp [h2, h1, h0] at h
        | none =>
          refine ⟨by simp, ?_, firstPair_none hp⟩
          refine List.eq_nil_iff_forall_not_mem.2 fun f hf => ?_
          have a3 := takeFirst_none h3 f hf
          have a2 := takeFirst_none h2 f hf
          have a1 := takeFirst_none h1 f hf
          have a0 := takeFirst_none h0 f hf
          have hq : ∀ q : Priority, q ≠ 3 → q ≠ 2 → q ≠ 1 → q ≠ 0 → False := by decide
          exact hq _ a3 a2 a1 a0

/-- A port that sends nothing has nothing that waits (R10, R152). -/
theorem chooseNext_idle (port : CellPort) (h : (chooseNext port).tx = none) :
    (chooseNext port).lane = [] ∧ (chooseNext port).ctl = [] ∧ (chooseNext port).closes = [] := by
  unfold chooseNext sendControl at *
  split at h
  · cases h
  · next hl =>
    simp only [hl]
    cases h3 : takeFirst 3 port.ctl with
    | some r => simp only [h3] at h; split at h <;> cases h
    | none =>
      simp only [h3] at h
      obtain ⟨he, hc, hs⟩ := sendBelow_idle port h3 h
      dsimp only
      rw [he]
      exact ⟨hl, hc, hs⟩

/-- A trunk that sends no notice has none, and is as it was. -/
theorem sendNotice_idle (s : State) (h : (sendNotice s).trunk.tx = none) : sendNotice s = s ∧ s.notices = [] := by
  unfold sendNotice at *
  split at h
  · next hn => simp only [hn]; exact ⟨trivial, trivial⟩
  · exfalso
    revert h
    unfold refill pushNotice markOutcomeQueued
    dsimp only
    repeat' split
    all_goals (intro hx; cases hx)

/-- A trunk that sends nothing has nothing that waits (R12). -/
theorem chooseTrunk_idle (s : State) (hu : (chooseTrunk s).trunk.link = .up) (hx : (chooseTrunk s).trunk.tx = none) :
    (chooseTrunk s).trunk.voice = [] ∧ (chooseTrunk s).trunk.replies = [] ∧ (chooseTrunk s).notices = [] := by
  cases hl : s.trunk.link with
  | down => simp [chooseTrunk, hl] at hu
  | up =>
    cases ht : s.trunk.tx with
    | some f => simp [chooseTrunk, hl, ht] at hx
    | none =>
      cases hv : s.trunk.voice with
      | cons v vs => simp [chooseTrunk, hl, ht, hv] at hx
      | nil =>
        cases hr : s.trunk.replies with
        | cons v vs => simp [chooseTrunk, hl, ht, hv, hr] at hx
        | nil =>
          have he : chooseTrunk s = sendNotice s := by simp [chooseTrunk, hl, ht, hv, hr]
          rw [he] at hx ⊢
          obtain ⟨h1, h2⟩ := sendNotice_idle s hx
          rw [h1]
          exact ⟨hv, hr, h2⟩

/-- The same of the kick at the end of an event. -/
theorem kickTrunk_idle {b : State} (h : b.IdleOk) (s : State) (hu : (kickTrunk b s).trunk.link = .up)
    (hx : (kickTrunk b s).trunk.tx = none) :
    (kickTrunk b s).trunk.voice = [] ∧ (kickTrunk b s).trunk.replies = [] ∧ (kickTrunk b s).notices = [] := by
  unfold kickTrunk at *
  split at hu
  · next he => rw [if_pos he] at hx ⊢; rw [← he.1, ← he.2]; rw [← he.1] at hu hx; exact h.trunk hu hx
  · next he => rw [if_neg he] at hx ⊢; exact chooseTrunk_idle s hu hx

/-- The offer of a place touches no port and no notice. -/
theorem offerPlace_same (s : State) :
    (offerPlace s).ports = s.ports ∧ (offerPlace s).trunk = s.trunk ∧ (offerPlace s).notices = s.notices := by
  unfold offerPlace postRescue hrqPost hrqStore setPosted State.modCall State.setCall
  repeat' split
  all_goals exact ⟨rfl, rfl, rfl⟩

theorem offerPlaces_same (n : Nat) (s : State) : (offerPlaces n s).ports = s.ports ∧
    (offerPlaces n s).trunk = s.trunk ∧ (offerPlaces n s).notices = s.notices := by
  induction n generalizing s with
  | zero => exact ⟨rfl, rfl, rfl⟩
  | succ n ih =>
    obtain ⟨a, b, c⟩ := offerPlace_same s
    obtain ⟨a', b', c'⟩ := ih (offerPlace s)
    exact ⟨a'.trans a, b'.trans b, c'.trans c⟩

/-- The end of an event leaves no idle port in UP with a frame that waits, whatever the event did. -/
theorem finish_idle {s : State} (h : s.IdleOk) (u : State) : (finish s u).IdleOk := by
  unfold finish
  dsimp only
  obtain ⟨ps, hk, hp⟩ := kickAll_spec s (offerPlaces (s.hrq.total - u.hrq.total) u)
  rw [hk]
  generalize offerPlaces (s.hrq.total - u.hrq.total) u = v at *
  have hs := (kickTrunk_spec s { v with ports := ps }).1
  have hw := kickTrunk_idle h { v with ports := ps }
  have hk : ∀ p, (kickTrunk s { v with ports := ps }).port p = kicked s v p := fun p => by
    unfold State.port; rw [hs.ports]; exact hp p
  generalize kickTrunk s { v with ports := ps } = w at hw hk
  obtain ⟨x, hx, -⟩ := holdTransition_spec s.hold.active (reportFills s w)
  rw [hx]
  refine ⟨fun p => ?_, hw⟩
  · change (w.port p).link = _ → (w.port p).tx = _ → (w.port p).lane = _ ∧ (w.port p).ctl = _ ∧ (w.port p).closes = _
    rw [hk]
    unfold kicked
    split
    · next hx =>
      intro h1 h2
      rcases hx with hx | hx | hx
      · rw [← hx] at h1 h2 ⊢; exact h.ports p h1 h2
      · rw [hx] at h1; cases h1
      · exact absurd h2 hx
    · intro h1 h2; exact chooseNext_idle _ h2

/-- Takes, an event and the events of the contexts keep it. -/
theorem takes_idle {b s : State} (h : s.IdleOk) : (takes b s).IdleOk := by
  unfold takes
  split
  · exact h
  · clear * - h
    generalize Config.takeFuel = n
    induction n generalizing s with
    | zero => exact h
    | succ n ih => unfold takeLoop; split; exact h; exact ih (finish_idle h _)

theorem event_idle (f : State → State) {s : State} (h : s.IdleOk) : (event f s).IdleOk := takes_idle (finish_idle h _)

/-- A fold of steps that each keep it. -/
theorem foldl_idle {α : Type} (f : State → α → State) (hf : ∀ s a, s.IdleOk → (f s a).IdleOk) (l : List α) {s : State}
    (h : s.IdleOk) : (l.foldl f s).IdleOk := by
  induction l generalizing s with
  | nil => exact h
  | cons x l ih => rw [List.foldl_cons]; exact ih (hf _ _ h)

theorem eachContext_idle (f : Channel → State → State) {s : State} (h : s.IdleOk) : (eachContext f s).IdleOk :=
  foldl_idle _ (fun s x hs => by
    split
    · exact hs
    · exact event_idle _ hs) _ h

/-- A change that touches no port, neither the trunk nor the notices. -/
theorem State.IdleOk.of {s t : State} (h : s.IdleOk) (hp : t.ports = s.ports) (ht : t.trunk = s.trunk)
    (hn : t.notices = s.notices) : t.IdleOk := by
  refine ⟨fun p => ?_, ?_⟩
  · unfold State.port; rw [hp]; exact h.ports p
  · rw [ht, hn]; exact h.trunk

end Sys2Proof.Machine
end

