-- ==== Sys2Proof/Tests/Slice0.lean ====
section
/-! SUPPORT. Tests on small states, with expected results from the manual, and for each statement with hypotheses a
theorem that names states and operands which meet them. -/

namespace Sys2Proof.Tests

open Sys2Proof Sys2Proof.Machine

/-! ### Small states -/

/-- A cell in service with its power-on values. -/
def cellUp : CellRec := { CellRec.blank with present := true, service := .inService }

/-- Registered at cell 0 with claimed clearance 1 and quality 40. -/
def att : Attachment := ⟨1, 0, 40⟩

/-- The record of handset 7: clearance 1, group 2. -/
def person (loc : Location) : Record := ⟨.present ⟨7, 1, 2, none, loc⟩, 0, false, false⟩

/-- A call of record 0. -/
def talk (ph : Phase) (cs : List Candidate) : Call :=
  { handset := 0, priority := 0, phase := ph, fs := 640, candidates := cs, posted := false, nextSeq := none,
    staleRun := 0, handovers := 0, lossCause := none }

/-- Port 0 and the trunk UP, cells 0 and 1 in service in the open zone 0, and handset 7 in record 0. -/
def lab (loc : Location) (calls : List (Channel × Option Call)) (answers : List Answer) (hrq : Hrq) : State :=
  { State.reset with
    ports := ⟨[(0, { CellPort.blank with link := .up })]⟩
    trunk := { Trunk.blank with link := .up }
    zones := ⟨[(0, ⟨true, .openZone, 3⟩)]⟩
    cells := ⟨[(0, cellUp), (1, cellUp)]⟩
    records := ⟨[(0, person loc)]⟩
    calls := ⟨calls⟩
    answers := answers
    hrq := hrq }

/-- Handset 7 is ATTACHED at cell 0, and nothing else happens. -/
def site : State := lab (.attached att 0) [] [] ⟨[], []⟩

/-- Handset 7 is ABSENT. -/
def away : State := lab .absent [] [] ⟨[], []⟩

/-- Handset 7 is in a call on channel 5. -/
def inCall (ph : Phase) (cs : List Candidate) (answers : List Answer) (hrq : Hrq) : State :=
  lab (.engaged att 5) [(5, some (talk ph cs))] answers hrq

/-- A serving leg at cell 0. -/
def leg : Leg := ⟨0, 3⟩

/-- A target at cell 1. -/
def target : Target := ⟨1, .handover, .quality⟩

/-- A candidate entry of cell 1. -/
def cand : Candidate := ⟨1, 700, 2, 0⟩

/-- The record of handset 7 in a call on channel 5. -/
def caller : Enrolled := ⟨7, 1, 2, none, .engaged att 5⟩

/-- A candidate entry of cell 63, which is not present. -/
def lost : Candidate := ⟨63, 900, 2, 0⟩

/-- Sixteen contexts in execution on channels 100 to 115, and the given call on channel 5. -/
def crowd (k : Call) : List (Channel × Option Call) :=
  (5, some k) :: ((allIndices 128).drop 100 |>.take 16).map fun x => (x, some (talk (.preparing leg none target 9) []))

/-- The state of a step's answer. -/
def after (c : Instr) (s : State) : State :=
  match exec c s with
  | .next t => t
  | .fault _ => s
  | .refused _ => s

theorem lab_heard (loc : Location) (calls : List (Channel × Option Call)) (as : List Answer) (q : Hrq) :
    Heard 0 (lab loc calls as q) := ⟨rfl, rfl⟩

theorem blank_cell_ok : CellRec.blank.Ok :=
  ⟨by decide, by decide, by decide, by decide, by decide, by decide, by decide, by decide, by decide, by decide, by decide, by decide⟩

theorem cellUp_ok : cellUp.Ok :=
  ⟨by decide, by decide, by decide, by decide, by decide, by decide, by decide, by decide, by decide, by decide, by decide, by decide⟩

/-- The one record of the small states. -/
theorem lab_record (loc : Location) (calls : List (Channel × Option Call)) (as : List Answer) (q : Hrq) (i : RecIx) :
    (lab loc calls as q).record i = if i = 0 then person loc else Record.blank := by
  simp only [State.record, Table.get, lookupIx, lab, eq_comm]
  split <;> rfl

/-- A call without candidates is in its limits. -/
theorem talk_ok (ph : Phase) : (talk ph []).Ok :=
  ⟨by show 640 ≤ 1008; decide, ⟨Nat.zero_le _, List.nodup_nil, fun _ _ => List.not_mem_nil, nofun⟩, fun _ _ _ => rfl⟩

/-- A call with cell 1 as its one candidate is in its limits, unless it is served from there or OPENING. -/
theorem talk_cand_ok (ph : Phase) (hs : ph.serving.map (·.cell) ≠ some 1) (ho : ∀ c n, ph ≠ .opening c n) :
    (talk ph [cand]).Ok :=
  ⟨by show 640 ≤ 1008; decide,
    ⟨by show 1 ≤ 4; decide, List.nodup_singleton _, fun c hc hm => hs (hc.trans (congrArg some (List.mem_singleton.1 hm))),
      fun d hd => by rw [List.mem_singleton.1 hd]; decide⟩, fun c n h => absurd h (ho c n)⟩

theorem talk_lost_ok (ph : Phase) (cs : List Candidate) (hc : cs = [lost] ∨ cs = [lost, cand])
    (hs : ph.serving.map (·.cell) = none ∨ ph.serving.map (·.cell) = some 0) (ho : ∀ c n, ph ≠ .opening c n) :
    (talk ph cs).Ok := by
  refine ⟨by show 640 ≤ 1008; decide, ?_, fun c n h => absurd h (ho c n)⟩
  show CandidatesOk (ph.serving.map (·.cell)) cs
  rcases hc with rfl | rfl <;> rcases hs with hs | hs <;> rw [hs] <;> exact ⟨by decide, by decide, by decide, by decide⟩

/-- One call that is in its limits. -/
theorem one_call {k : Call} (hk : k.Ok) : ∀ x j, (x, some j) ∈ [((5 : Channel), some k)] → j.Ok := fun x j hj => by
  cases List.mem_singleton.1 hj; exact hk

/-- The small states keep the invariant. -/
theorem lab_inv (loc : Location) (calls : List (Channel × Option Call)) (as : List Answer) (q : Hrq)
    (hc : canonical none calls = true) (ha : as.length ≤ 64 ∧ (as.map (·.txn)).Nodup) (hq : q.Ok)
    (hk : ∀ x k, (x, some k) ∈ calls → k.Ok) : (lab loc calls as q).Inv where
  tables :=
    { ports := rfl, counters := rfl, filters := rfl, zones := rfl, gates := rfl, cells := rfl, calls := hc, pages := rfl
      records := by simp [lab, Table.wf, canonical, person, Record.blank] }
  ports p := by
    have h : (lab loc calls as q).port p = if p = 0 then { CellPort.blank with link := .up } else CellPort.blank := by
      simp only [State.port, Table.get, lookupIx, lab, eq_comm]
      split <;> rfl
    rw [h]
    split <;> exact ⟨by decide, by decide, by decide, by decide⟩
  trunk := ⟨Nat.zero_le _, Nat.zero_le _, Nat.zero_le _⟩
  cells c := by
    have h : (lab loc calls as q).cell c = if c = 0 then cellUp else if c = 1 then cellUp else CellRec.blank := by
      simp only [State.cell, Table.get, lookupIx, lab, eq_comm]
      split
      · rfl
      · split <;> rfl
    rw [h]
    split
    · exact cellUp_ok
    · split
      · exact cellUp_ok
      · exact blank_cell_ok
  visitors i hi e he := by
    rw [lab_record] at he
    split at he
    · next h0 => subst h0; exact absurd hi (by decide)
    · cases he
  notices := Nat.zero_le _
  hrq := hq
  answers := ⟨ha.1, ha.2⟩
  contexts x k hx := by
    have h : ∀ l : List (Channel × Option Call), lookupIx x l = some (some k) → (x, some k) ∈ l := fun l => by
      induction l with
      | nil => nofun
      | cons e l ih =>
        intro he
        simp only [lookupIx] at he
        split at he
        · next h1 => cases h1; exact List.mem_cons.2 (.inl (Option.some.inj he ▸ rfl))
        · exact List.mem_cons_of_mem _ (ih he)
    simp only [lab, State.call, Table.get] at hx
    cases hl : lookupIx x calls with
    | none => rw [hl] at hx; cases hx
    | some v => rw [hl] at hx; exact hk x k (h _ (hl.trans (congrArg some hx)))
  hids i j h hi hj := by
    rw [lab_record] at hi hj
    split at hi
    · next h0 =>
      split at hj
      · next h1 => rw [h0, h1]
      · cases hj
    · cases hi
  agent _ := rfl
  muted := nofun
  config := rfl
  sweep := ⟨Nat.zero_le _, Nat.zero_le _, nofun⟩

theorem hrq_empty_ok : (Hrq.mk [] []).Ok := ⟨by decide, by decide⟩

theorem site_inv : site.Inv := lab_inv _ _ _ _ rfl (by decide) hrq_empty_ok nofun

theorem inCall_inv (ph : Phase) (as : List Answer) (ha : as.length ≤ 64 ∧ (as.map (·.txn)).Nodup) :
    (inCall ph [] as ⟨[], []⟩).Inv := lab_inv _ _ _ _ rfl ha hrq_empty_ok (one_call (talk_ok ph))

theorem inCall_cand_inv (ph : Phase) (as : List Answer) (ha : as.length ≤ 64 ∧ (as.map (·.txn)).Nodup)
    (hs : ph.serving.map (·.cell) ≠ some 1) (ho : ∀ c n, ph ≠ .opening c n) : (inCall ph [cand] as ⟨[], []⟩).Inv :=
  lab_inv _ _ _ _ rfl ha hrq_empty_ok (one_call (talk_cand_ok ph hs ho))

theorem crowd_ok {k : Call} (hk : k.Ok) : ∀ x j, (x, some j) ∈ crowd k → j.Ok := fun x j hj => by
  rcases List.mem_cons.1 hj with h | h
  · cases h; exact hk
  · obtain ⟨_, -, h⟩ := List.mem_map.1 h
    cases h; exact talk_ok _

/-- A request of tag 1 in execution. -/
def asked (op : Byte) (operands : List Byte) (s : State) : State := { s with mgmtNow := some ⟨1, op, operands⟩ }

theorem asked_inv (op : Byte) (operands : List Byte) {s : State} (h : s.Inv) : (asked op operands s).Inv :=
  { h with tables := { h.tables with }, agent := nofun, muted := nofun }

theorem asked_executing {op : Byte} {operands : List Byte} (s : State) {fits : MgmtFrame → Bool}
    (h : fits ⟨1, op, operands⟩ = true) : Executing 1 fits (asked op operands s) := ⟨_, rfl, rfl, h⟩

/-- No context of a small state with one call waits for room, when that call does not. -/
theorem lab_waits {loc : Location} {k : Call} {as : List Answer} {q : Hrq} (h : k.waitsForRoom = false) :
    ∀ y j, (lab loc [(5, some k)] as q).call y = some j → j.waitsForRoom = false := fun y j hj => by
  simp only [lab, State.call, Table.get, lookupIx] at hj
  split at hj
  · injection hj with hj; subst hj; exact h
  · cases hj

/-- The zone descriptor 0 replaced. -/
def withZone (z : Zone) (s : State) : State := { s with zones := ⟨[(0, z)]⟩ }

/-- The record of cell 0 replaced. -/
def withCell (r : CellRec) (s : State) : State := { s with cells := ⟨[(0, r), (1, cellUp)]⟩ }

/-- Port 0 replaced. -/
def withPort (p : CellPort) (s : State) : State := { s with ports := ⟨[(0, p)]⟩ }

/-- The hold set by management. -/
def held (s : State) : State := { s with hold := { s.hold with management := ⟨true, true, true⟩ } }

/-- Sixty-four notices wait. -/
def backlog (s : State) : State := { s with notices := List.replicate 64 (.location 3) }

/-- A frame's bytes with their check appended. -/
def checked (covered : List Byte) : List Byte := covered ++ bytes16 (frameCheck covered)

/-! ### Results that the manual states -/

/-- R5: the check over 31h to 39h. -/
theorem test_check_value : frameCheck [0x31, 0x32, 0x33, 0x34, 0x35, 0x36, 0x37, 0x38, 0x39] = 0x29B1 := by decide +kernel

/-- R98: trunc(−22.5) is −22 and trunc(41.25) is 41; with k = 4 a value of 1007 under 63 stays. -/
theorem test_filter_examples :
    filterQuality 2 90 0 = 68 ∧ filterQuality 2 155 20 = 196 ∧ filterQuality 4 1007 63 = 1007 ∧
      filterQuality 0 5 63 = 1008 := by decide +kernel

/-- R15: a deadline set just before the count wraps has passed just after it. -/
theorem test_deadline_wraps :
    passed 3 0xFFFFFFFE = true ∧ passed 0xFFFFFFFE 3 = false ∧ passed 5 5 = true ∧ passed 0x80000005 5 = false := by decide

/-- R15: the count passes from its last value to 0. -/
theorem test_time_wraps :
    (match step { State.reset with now := 0xFFFFFFFF } with
      | .next t => t.now
      | .fault _ => 1
      | .refused _ => 1) = 0 := by decide

/-- R17: a counter that has stopped stays. -/
theorem test_counter_stops :
    Count.bump 0xFFFFFFFF = 0xFFFFFFFF ∧ Count.bump 0xFFFFFFFE = 0xFFFFFFFF := by decide

/-- R89: 127 after is after, 128 after is before. -/
theorem test_sequence_order :
    atOrAfter 0 0 = true ∧ atOrAfter 3 250 = true ∧ atOrAfter 127 0 = true ∧ atOrAfter 128 0 = false := by decide

/-- R140: the number after 4095 is 0, and a held number is passed over. -/
theorem test_numbers_come_round :
    { State.reset with txnCounter := 4095, answers := [⟨4095, 0, 0, 0, false⟩, ⟨0, 1, 0, 0, false⟩] }.nextTxn = 1 := by
  decide

/-- R11: a full voice lane loses its oldest frame. -/
theorem test_lane_displaces :
    ((laneVoice 0 ⟨5, 8, []⟩ (withPort ⟨.up, (List.range 8).map fun n => (0, ⟨5, BitVec.ofNat 8 n, []⟩), [], [], none⟩
      site)).port 0).lane.map (fun v => v.2.seq) = [1, 2, 3, 4, 5, 6, 7, 8] := by decide

/-- R149: a full queue of PAGEs and one LEG-OPEN loses its newest PAGE to an ATTACH-ACK. -/
theorem test_offer_evicts_newest_lowest :
    (offer (.attachAck 0 9 .accepted) (withPort ⟨.up, [], .page 1 1 :: List.replicate 22 (.page 0 7) ++ [.page 2 2],
      [], none⟩ site)).1 = .taken (some (.page 2 2)) := by decide

/-- R152: a pair goes before the LEG-OPEN of priority 3 to the same cell and channel, and after any other. -/
theorem test_close_before_open :
    (chooseNext ⟨.up, [], [.legOpen 0 1 5 7 .rescue], [(0, 5)], none⟩).tx = some (.legClose 0 5) ∧
      (chooseNext ⟨.up, [], [.legOpen 0 1 5 7 .rescue], [(0, 6)], none⟩).tx =
        some (.control (.legOpen 0 1 5 7 .rescue)) ∧
      (chooseNext ⟨.up, [], [.legOpen 0 1 5 7 .handover], [(1, 6), (3, 4), (0, 6)], none⟩).tx =
        some (.legClose 3 4) := by decide

/-- R157: the thresholds of HRQ_HIGH, 24 and 16. -/
theorem test_hold_thresholds :
    (judgeSource 24 16 24 ⟨false, true, false⟩) = ⟨true, true, true⟩ ∧
      (judgeSource 24 16 23 ⟨false, true, false⟩) = ⟨false, true, false⟩ ∧
      (judgeSource 24 16 17 ⟨true, true, true⟩) = ⟨true, true, true⟩ ∧
      (judgeSource 24 16 16 ⟨true, true, true⟩) = ⟨false, true, true⟩ := by decide

/-- R48: the search stops at the found gate, though a later one would admit. -/
theorem test_first_gate_decides :
    accessCheck { withZone ⟨true, .gated, 3⟩ site with gates := ⟨[(2, ⟨true, 0, .any, 0, .any⟩), (4, ⟨true, 0, .only 2, 3, .any⟩)]⟩ }
      1 2 0 .register = some ⟨.clearance, 2, .gate⟩ := by decide

/-- R57: a CELL write clamps the guard below the capacity and the lower watermark below the upper. -/
theorem test_cell_write_clamps :
    (after (.tableWrite 1 3 (.cell ⟨true, 0, 4, 9, 9, 9, 3, 12, 9, 0, false⟩)) (asked 0x02 [2] State.reset)).cell 3 =
      { CellRec.blank with present := true, capacity := 4, guard := 3, upper := 4, lower := 3, shift := 4, dwell := 1 } := by
  decide

/-! ### One step of each kind -/

/-- R76 to R78: an open engages the handset, reserves a slot and sends a LEG-OPEN. -/
theorem test_call_opens :
    ((after (.callOpen 5 7 0) site).call 5).map (·.phase) = some (.opening 0 0) ∧
      ((after (.callOpen 5 7 0) site).port 0).tx = some (.control (.legOpen 0 0 5 7 .initial)) := by decide

/-- R79: the READY of the open connects the call. -/
theorem test_call_connects :
    ((after (.legAck 0 0 5 0 3) (after (.callOpen 5 7 0) site)).call 5).map (·.phase) =
      some (.active ⟨0, 3⟩ (some 3000)) := by decide

/-- R82, R83: a clear releases the slot, sends LEG-CLOSE and answers CLEARED. -/
theorem test_call_clears :
    ((after (.callClear 5) (inCall (.active leg none) [] [] ⟨[], []⟩)).port 0).tx = some (.legClose 0 5) ∧
      (after (.callClear 5) (inCall (.active leg none) [] [] ⟨[], []⟩)).trunk.tx = some (.reply (.callAck 5 .cleared)) := by
  decide

/-- R94, R117: a lost leg with a candidate is rescued there at once. -/
theorem test_lost_leg_is_rescued :
    ((after (.legLost 0 5 1) (inCall (.active leg none) [cand] [] ⟨[], []⟩)).call 5).map (·.phase) =
      some (.rescuing (some (⟨1, .rescue, .rescue⟩, 0)) 1500) := by decide

/-- R130: the target's voice commits the handover. -/
theorem test_voice_commits :
    ((after (.voxUplink 1 5 0 (List.replicate 40 0)) (inCall (.bridging leg none target 4 200) [cand] [] ⟨[], []⟩)).call 5).map
      (fun k => (k.phase, k.fs, k.candidates)) = some (.active ⟨1, 4⟩ (some 3000), 700, []) := by decide

/-- A candidate entry of cell 0. -/
def back : Candidate := ⟨0, 800, 2, 0⟩

/-- A rescue attempt at cell 0, on transaction 9. -/
def attempt (cs : List Candidate) : State :=
  inCall (.rescuing (some (⟨0, .rescue, .rescue⟩, 9)) 900) cs [⟨9, 5, 0, 0, false⟩] ⟨[], []⟩

/-- R133, R122: a failed attempt passes to the candidate left, and drops the call without one; no fallback is counted. -/
theorem test_attempt_passes :
    ((after (.legAck 0 9 5 1 1) (attempt [back, cand])).call 5).map (fun k => (k.phase, k.candidates)) =
        some (.rescuing (some (⟨1, .rescue, .rescue⟩, 0)) 900, [cand]) ∧
      (after (.pendingDeadlineExpiry 9) (attempt [back])).call 5 = none ∧
      (after (.pendingDeadlineExpiry 9) (attempt [back])).device =
        { DeviceCounters.blank with drops := { DeviceCounters.blank.drops with rescueFailed := 1 } } := by decide +kernel

/-- R67, R109, R135: at a drain start a call served by the cell is handed over, and one that goes there falls back. -/
theorem test_drain_start :
    ((after (.cellDrain 1 0) (asked 0x12 [0] (withCell { cellUp with occupancy := 1 }
      (inCall (.active leg none) [cand] [] ⟨[], []⟩)))).call 5).map (·.phase) =
        some (.preparing leg none ⟨1, .handover, .drain⟩ 0) ∧
      ((after (.cellRestart 1 1) (asked 0x13 [1] ((inCall (.preparing leg none target 9) [] [] ⟨[], []⟩).setCell 1
        { cellUp with occupancy := 2 }))).call 5).map (·.phase) = some (.active leg (some 1000)) := by decide +kernel

/-- R168: a page response from another cell moves the handset there and settles FOUND. -/
theorem test_page_found_elsewhere :
    ((after (.pageRsp 1 7 20) { site with pages := ⟨[(0, some ⟨7, 0, [0], false, .paging 2 0⟩)]⟩ }).record 0).enrolled =
        some ⟨7, 1, 2, none, .attached ⟨1, 1, 20⟩ 1200000⟩ ∧
      ((after (.pageRsp 1 7 20) { site with pages := ⟨[(0, some ⟨7, 0, [0], false, .paging 2 0⟩)]⟩ }).page 0).map
        (·.status) = some (.settled (.found 1) true) := by decide +kernel

/-- R58, log 24: the second entry for one cell is the one refused, and a ninth entry is refused with its number. -/
theorem test_neighbours_refused :
    (tableWrite 0 (.neighbours [⟨1, 0⟩, ⟨2, 0⟩, ⟨1, 0⟩]) site).2 = ⟨.badValue, .field 3⟩ ∧
      (tableWrite 0 (.neighbours ((List.range 9).map fun n => ⟨n + 1, 0⟩)) site).2 = ⟨.badValue, .field 9⟩ := by decide

/-- R56, R57: a watermark in service is clamped and judges the congested flag; a guard in service is refused. -/
theorem test_cell_fields :
    ((fieldModify 0 (.cell (.upper 0)) (withCell { cellUp with occupancy := 1 } site)).1.cell 0) =
        { cellUp with occupancy := 1, upper := 1, lower := 0, congested := true } ∧
      (fieldModify 0 (.cell (.guard 1)) site).2 = ⟨.structural, .none⟩ := by decide

/-- R166: the first occasion pages the current cell. -/
theorem test_page_begins :
    ((after (.pageReq 7 2) site).port 0).tx = some (.control (.page 0 7)) ∧
      ((after (.pageReq 7 2) site).page 0).map (·.status) = some (.paging 1 640) := by decide

/-- R74, R95: a disabled cell drops its call. -/
theorem test_disable_drops :
    (after (.cellDisable 1 0) (asked 0x11 [0] (inCall (.active leg none) [] [] ⟨[], []⟩))).call 5 = none ∧
      (after (.cellDisable 1 0) (asked 0x11 [0] (inCall (.active leg none) [] [] ⟨[], []⟩))).device.drops.cellDisabled =
        1 := by decide +kernel

/-- R180: only the request in execution is executed, and its one response has its tag and is sent. -/
theorem test_one_response :
    after (.holdSet 1) site = site ∧ after (.holdSet 2) (asked 0x20 [] site) = asked 0x20 [] site ∧
      (after (.holdSet 1) (asked 0x20 [] site)).hold.management.raw = true ∧
      (after (.sweepStatus 1) (asked 0x34 [] site)).trunk.tx =
        some (.reply (.mgmtRsp 1 ⟨.ok, .sweep ⟨Sweep.reset, false⟩⟩)) := by decide

/-- R181: an unknown code, and operands to an operation without operands, fail the first test; READ-CAPS does not. -/
theorem test_first_test :
    failsForm ⟨1, 0x06, []⟩ = true ∧ failsForm ⟨1, 0x01, [0]⟩ = true ∧ failsForm ⟨1, 0x01, []⟩ = false ∧
      after (.badOperation 1) (asked 0x01 [] site) = asked 0x01 [] site ∧
      (after (.badOperation 1) (asked 0x06 [] site)).trunk.tx = some (.reply (.mgmtRsp 1 ⟨.badOperation, .none⟩)) := by
  decide

/-- R4: at a line-down of the trunk the response of the request in execution is to be discarded; a later row hands none and
frees the agent. -/
theorem test_response_discarded :
    (after .trunkLineDown (asked 0x34 [] site)).mgmtMuted = true ∧ (after .trunkLineDown site).mgmtMuted = false ∧
      after (.sweepStatus 1) { asked 0x34 [] site with mgmtMuted := true } = site := by decide +kernel

/-- R155, R80: the LEG-OPEN of an initial open, flushed at a line-down, ends the call with LEG_FAILED, LINK_DOWN. -/
theorem test_open_flushed :
    (after (.cellPortLineDown 0) (withPort ⟨.up, [], [.legOpen 0 9 5 7 .initial], [], some (.control (.legCloseAll 1))⟩
      (inCall (.opening 0 9) [] [⟨9, 5, 0, 0, false⟩] ⟨[], []⟩))).trunk.tx =
        some (.reply (.callAck 5 (.legFailed .linkDown))) := by decide +kernel

/-- R150, R80: a LEG-OPEN of an initial open that is evicted ends the call with LEG_FAILED, QUEUE_FULL. -/
theorem test_open_evicted :
    (settleVictim nextCandidate (some (.legOpen 0 9 5 7 .initial))
      (inCall (.opening 0 9) [] [⟨9, 5, 0, 0, false⟩] ⟨[], []⟩)).trunk.replies = [.callAck 5 (.legFailed .queueFull)] := by
  decide +kernel

/-- R102: a full list gives the earliest of its entries of lowest F for a neighbour of higher F. -/
theorem test_replaced :
    enterCandidate 9 20 [⟨1, 700, 2, 0⟩, ⟨2, 300, 1, 0⟩, ⟨3, 300, 0, 0⟩, ⟨4, 900, 0, 0⟩] =
      [⟨1, 700, 2, 0⟩, ⟨3, 300, 0, 0⟩, ⟨4, 900, 0, 0⟩, ⟨9, 320, 0, 0⟩] := by decide

/-- R161: a hold that begins suspends a running sweep. -/
theorem test_hold_suspends :
    (after (.holdSet 1) (asked 0x20 [] { site with sweep := ⟨.running, some .revalidate, 5, 0, .none⟩ })).sweep =
      ⟨.suspended true, some .revalidate, 5, 0, .none⟩ := by decide

/-- R95: a call with both legs on a port that goes down loses its target first, then its serving leg. -/
theorem test_both_legs_lost :
    (after (.cellPortLineDown 0) (inCall (.bridging leg none target 4 200) [] [] ⟨[], []⟩)).device =
      { DeviceCounters.blank with fallbacks := 1, drops := { DeviceCounters.blank.drops with linkDown := 1 } } := by
  decide +kernel

/-- R32: a call that ends in a closed zone leaves its handset ABSENT, and the cell is told. -/
theorem test_revoked_at_clear :
    ((after (.callClear 5) (withZone ⟨true, .closed, 0⟩ (inCall (.active leg none) [] [] ⟨[], []⟩))).record 0).enrolled =
        some ⟨7, 1, 2, none, .absent⟩ ∧
      ((after (.callClear 5) (withZone ⟨true, .closed, 0⟩ (inCall (.active leg none) [] [] ⟨[], []⟩))).port 0).ctl =
        [.attachAck 0 7 (.revoked ⟨.zoneClosed, 0, .zone⟩)] := by decide +kernel

/-- R12, R18: the header of a MGMT-RSP: kind 64h, address 0, length 9, the tag high byte first, WRONG_STATE 09h. -/
theorem test_response_header :
    (TrunkTx.reply (.mgmtRsp 0x0102 ⟨.wrongState, .none⟩)).bytes.take 7 = [0x64, 0, 0, 9, 1, 2, 9] := by decide +kernel

/-- R18: a transaction and a HID of a LEG-OPEN, high byte first; and the three values of the capability record above 255. -/
theorem test_fields_sent :
    (CtlFrame.legOpen 1 0xABC 5 0x01020304 .initial).parts = [[0x0A, 0xBC], [5], [1, 2, 3, 4]] ∧
      (RspData.caps capabilities).words = [[0x11, 0x3A], [3, 128], [1, 0]] := by decide

/-! ### Well-formedness -/

/-- R7: a checked field of a frame one past its range. -/
theorem test_wf_frames :
    (Instr.attachReq 0 7 4 0).wf = false ∧ (Instr.attachReq 0 7 0 64).wf = false ∧ (Instr.presence 0 7 64).wf = false ∧
      (Instr.measRep 0 7 128 0 []).wf = false ∧ (Instr.measRep 0 7 0 64 []).wf = false ∧
      (Instr.measRep 0 7 0 0 [(64, 0)]).wf = false ∧ (Instr.measRep 0 7 0 0 [(0, 64)]).wf = false ∧
      (Instr.measRep 0 7 0 0 (List.replicate 250 (0, 0))).wf = false ∧ (Instr.legAck 0 4096 0 0 0).wf = false ∧
      (Instr.legAck 0 0 128 0 0).wf = false ∧ (Instr.legAck 0 0 0 0 12).wf = false ∧ (Instr.legAck 0 0 0 1 0).wf = false ∧
      (Instr.legAck 0 0 0 1 4).wf = false ∧ (Instr.legAck 0 0 0 2 1).wf = false ∧ (Instr.legLost 0 128 0).wf = false ∧
      (Instr.pageRsp 0 7 64).wf = false ∧ (Instr.voxUplink 0 128 0 (List.replicate 40 0)).wf = false ∧
      (Instr.voxUplink 0 0 0 []).wf = false ∧ (Instr.voxDownlink 128 0 (List.replicate 40 0)).wf = false ∧
      (Instr.voxDownlink 0 0 []).wf = false ∧ (Instr.callOpen 128 7 0).wf = false ∧ (Instr.callOpen 0 7 4).wf = false ∧
      (Instr.callClear 128).wf = false ∧ (Instr.pageReq 7 0).wf = false ∧ (Instr.pageReq 7 9).wf = false ∧
      (Instr.mgmtReq 0 1 (List.replicate 504 0)).wf = false ∧
      (Instr.receivedFrameDiscarded 0 (List.replicate 513 0)).wf = false := by decide +kernel

/-- R64, R174, R182, R186: a management operand that names nothing. -/
theorem test_wf_management :
    (Instr.tableWrite 0 896 (.subscriber 7 0 0)).wf = false ∧ (Instr.tableWrite 0 0 (.misfit .zone)).wf = false ∧
      (Instr.tableRead 0 .unknown 0).wf = false ∧ (Instr.tableRead 0 .config 1).wf = false ∧
      (Instr.fieldModify 0 16 (.zoneLevel 0)).wf = false ∧ (Instr.fieldModify 0 0 (.other .cell 12)).wf = false ∧
      (Instr.tableClear 0 .registry 0).wf = false ∧ (Instr.tableClear 0 .gate 32).wf = false ∧
      (Instr.cellEnable 0 64).wf = false ∧ (Instr.cellDisable 0 64).wf = false ∧ (Instr.cellDrain 0 64).wf = false ∧
      (Instr.cellRestart 0 64).wf = false ∧ (Instr.sweepStart 0 .other 0).wf = false ∧
      (Instr.sweepStart 0 .purgeGroup 32).wf = false ∧ (Instr.countersRead 0 6 false).wf = false := by decide

/-- The table gives no row any bits. -/
theorem test_no_bits : decodeTableWord 8 0 = none ∧ State.withFetchWord site 8 0 = site := ⟨rfl, rfl⟩

/-! ### Witnesses: states and operands that meet the hypotheses of the statements -/

/-- `StepTakesFront`: a queue with a command, and an empty one. -/
theorem witness_queue : ({ site with pending := [.holdSet 1] }).pending = [.holdSet 1] ∧ site.pending = [] := ⟨rfl, rfl⟩

theorem reset_notices : State.reset.NoticesOk :=
  ⟨fun _ => ⟨nofun, nofun⟩, fun _ => Nat.zero_le _, fun _ _ h => by cases h⟩

/-- The small state has a port and the trunk in UP, with nothing that waits. -/
theorem site_idle : site.IdleOk := by
  refine ⟨fun p _ _ => ?_, fun _ _ => ⟨rfl, rfl, rfl⟩⟩
  simp only [site, lab, State.port, Table.get, lookupIx]
  split <;> exact ⟨rfl, rfl, rfl⟩

theorem reset_outcomes : State.reset.OutcomesOk :=
  ⟨fun _ => ⟨fun ⟨_, _, h, _⟩ => (nomatch h), nofun⟩, fun _ => Nat.zero_le _, fun _ _ _ _ h => (nomatch h)⟩

theorem reset_requests : State.reset.RequestsOk :=
  ⟨nofun, nofun, nofun, fun _ _ h => (nomatch h), fun _ _ _ h => (nomatch h), fun _ _ _ h => (nomatch h), nofun,
    fun _ _ _ _ h => (nomatch h)⟩

theorem reset_occupancy : State.reset.OccupancyOk :=
  ⟨by decide +kernel, fun _ _ _ => ⟨fun ⟨_, h, _⟩ => (nomatch h), fun ⟨_, h, _⟩ => (nomatch h)⟩⟩

theorem reset_pages : State.reset.PagesOk :=
  ⟨fun _ _ _ _ h => (nomatch h), fun _ _ h => (nomatch h), fun _ _ _ _ h => (nomatch h)⟩

/-- `StepKeepsInvariant`, `StepKeepsNotices`, `StepKeepsRequests`, `StepKeepsPages`, `StepKeepsOccupancy`,
`OrdinaryCommandsKeepSetting`. -/
theorem witness_steps :
    site.Inv ∧ site.IdleOk ∧ State.reset.CallsOk ∧ State.reset.NoticesOk ∧ State.reset.OutcomesOk ∧
      State.reset.RequestsOk ∧ State.reset.PagesOk ∧ State.reset.OccupancyOk ∧ (∃ t, step site = .next t) ∧ (∃ t, step State.reset = .next t) ∧
      ordinary (.callClear 5) = true ∧ ∃ t, exec (.callClear 5) site = .next t :=
  ⟨site_inv, site_idle, ⟨fun _ _ => ⟨nofun, nofun⟩, by decide⟩, reset_notices, reset_outcomes, reset_requests, reset_pages,
    reset_occupancy, ⟨_, rfl⟩, ⟨_, rfl⟩, rfl, ⟨_, rfl⟩⟩

/-- `SentFramesSealed`: voice of 40 bytes to cell 17 and on the trunk, and a response without data. -/
theorem witness_sent :
    (∀ c v, CellTx.vox 17 ⟨5, 0, List.replicate 40 0⟩ = .vox c v → v.payload.length = 40) ∧
      (∀ v, TrunkTx.vox ⟨5, 0, List.replicate 40 0⟩ = .vox v → v.payload.length = 40) ∧ 0 = RspData.none.bytes.length :=
  ⟨fun _ _ h => by cases h; decide, fun _ h => by cases h; decide, rfl⟩

/-- `SentFramesSealed`, the data of a response: a context with four candidates and a request that waits, and the device
counters. -/
theorem witness_response_data :
    (RspData.context (some (talk (.preparing leg (some 9) target 9) [cand, cand, cand, cand]))
      (some ⟨5, 1, .quality, 0⟩)).words.flatten.length ≤ 503 ∧
      (RspData.deviceCounters DeviceCounters.blank).words.flatten.length ≤ 503 := by decide +kernel

/-- `FrameBytesRunTheCommand`, `FramesJudged`: a frame with quality 64, and one from cell 2, which is not present. -/
theorem witness_frames :
    (∃ b, frameBytes (.presence 0 7 64) = some (0, b) ∧ b.length ≤ 512) ∧ linkUp 0 site = true ∧
      (Instr.presence 0 7 64).wf = false ∧ (Instr.presence 2 7 0).wf = true ∧
      (∃ b, frameBytes (.presence 2 7 0) = some (linkOf 0, b) ∧ b.length ≤ 512 ∧ b.getD 1 0 = BitVec.ofNat 8 2) ∧
      (site.cell (cellAt 0 2)).present = false :=
  ⟨⟨_, rfl, by decide⟩, by decide, by decide, by decide, ⟨_, rfl, by decide, by decide⟩, by decide⟩

/-- `FramesJudged`, sizes: DOWN, 5 and 513 bytes, and a check that fails in 6 bytes. -/
theorem witness_raw_sizes :
    linkUp 0 State.reset = false ∧ linkUp 0 site = true ∧ (List.replicate 5 (0 : Byte)).length < 6 ∧
      512 < (List.replicate 513 (0 : Byte)).length ∧ checkAgrees (List.replicate 6 0) = false := by decide +kernel

/-- `FramesJudged`, tests 3 to 6: a length field of 7 in 6 bytes, kind 09h, address 16, and a DETACH-IND of 6 bytes; and
address 1 on the trunk. -/
theorem witness_raw_tests :
    checkAgrees (checked [0x01, 0, 0, 7]) = true ∧ (checked [0x01, 0, 0, 7]).length = 6 ∧
      checkAgrees (checked [0x09, 0, 0, 6]) = true ∧ (0x09 : Byte) ∉ kindsOf 0 ∧
      checkAgrees (checked [0x02, 16, 0, 6]) = true ∧ 15 < (16 : Byte).toNat ∧
      checkAgrees (checked [0x42, 1, 0, 7, 5]) = true ∧ linkUp 4 site = true ∧
      checkAgrees (checked [0x02, 0, 0, 6]) = true ∧ ¬ lengthFits 0x02 0 6 := by
  refine ⟨by decide +kernel, by decide, by decide +kernel, by decide, by decide +kernel, by decide, by decide +kernel,
    by decide, by decide +kernel, ?_⟩
  exact fun h => absurd (h.2.1 rfl) (by decide)

/-- `CellPortLineEvents`, `TrunkLineEvents`, `TrunkTransmitCompletes`, `PortChoosesNext`. -/
theorem witness_lines :
    (site.port 0).link = .up ∧ (site.port 1).link = .down ∧ site.trunk.link = .up ∧ State.reset.trunk.link = .down ∧
      (backlog State.reset).notices = .location 3 :: List.replicate 63 (.location 3) := by decide +kernel

/-- `TrunkTransmitCompletes`: the head of the notice queue names a record, one that is not present and keeps its HID, a page
entry whose outcome is settled, a call request and an outcome without an entry. -/
theorem witness_notices_leave :
    (site.record 0).enrolled ≠ none ∧
    (∃ s : State, s.trunk.link = .up ∧ s.trunk.voice = [] ∧ s.trunk.replies = [] ∧ s.notices = [.location 900] ∧
      (s.record 900).enrolled = none ∧ (s.record 900).hid = some 9) ∧
    (∃ s : State, s.notices = [.pageOutcome 15] ∧ s.page 15 = some ⟨7, 0, [0], true, .settled .noAnswer true⟩) ∧
    (∃ s : State, s.notices = [.callReq 7 0 0]) ∧ ∃ s : State, s.notices = [.immediate 9 .notAttached] :=
  ⟨by decide,
    ⟨{ site with notices := [.location 900], records := ⟨[(900, ⟨.kept 9, 5, true, true⟩)]⟩ }, by decide⟩,
    ⟨{ site with
      notices := [.pageOutcome 15], pages := ⟨[(15, some ⟨7, 0, [0], true, .settled .noAnswer true⟩)]⟩ }, by decide⟩,
    ⟨{ site with notices := [.callReq 7 0 0] }, rfl⟩, ⟨{ site with notices := [.immediate 9 .notAttached] }, rfl⟩⟩

/-- `MgmtReqQueued`: three requests wait, and none in execution; four wait, with 255 and with 256 replies. -/
theorem witness_mgmt_queue :
    ∃ s u v w : State, s.trunk.link = .up ∧ s.trunk.mgmtIn.length = 3 ∧ s.mgmtNow ≠ none ∧ u.trunk.link = .up ∧
      u.trunk.mgmtIn = [] ∧ u.mgmtNow = none ∧ v.trunk.link = .up ∧ v.trunk.mgmtIn.length = 4 ∧
      v.trunk.replies.length = 255 ∧ w.trunk.link = .up ∧ w.trunk.mgmtIn.length = 4 ∧ w.trunk.replies.length = 256 ∧
      (List.replicate 503 (0 : Byte)).length ≤ 503 :=
  ⟨{ site with trunk := ⟨.up, [], [], none, List.replicate 3 ⟨1, 1, []⟩⟩, mgmtNow := some ⟨0, 1, []⟩ }, site,
    { site with trunk := ⟨.up, [], List.replicate 255 (.callDrop 0 .linkDown), none, List.replicate 4 ⟨1, 1, []⟩⟩ },
    { site with trunk := ⟨.up, [], List.replicate 256 (.callDrop 0 .linkDown), none, List.replicate 4 ⟨1, 1, []⟩⟩ },
    by decide +kernel⟩

/-- `LocationNoticesRaised`, a change: a record not queued with a free place, one queued, and a full notice queue. -/
theorem witness_location :
    (site.record 0).queued = false ∧ site.notices.length < 64 ∧
      (({ site with records := ⟨[(0, { person .absent with queued := true })]⟩ } : State).record 0).queued = true ∧
      64 ≤ (backlog site).notices.length := by decide +kernel

/-- `AttachNotAdmitted`: the hold with the handset ABSENT, an unknown handset, a full pool, and a closed zone for a
subscriber and for a visitor. -/
theorem witness_attach_refused :
    Heard 0 (held away) ∧ (held away).hold.active = true ∧ (held away).findHid 9 = none ∧ site.hold.active = false ∧
      site.findHid 9 = none ∧ chosenFilter site 9 = none ∧ (3 : Byte).toNat = (3 : Clearance).val ∧ (63 : Byte).toNat < 64 ∧
      (∃ s, Heard 0 s ∧ s.hold.active = false ∧ s.findHid 9 = none ∧ chosenFilter s 9 = some 7 ∧ freeVisitor s = none) ∧
      (∃ s d, Heard 0 s ∧ s.findHid 7 = some 0 ∧ accessCheck s 3 2 0 .register = some d) ∧
      ∃ s d, Heard 0 s ∧ s.hold.active = false ∧ s.findHid 9 = none ∧ chosenFilter s 9 = some 7 ∧
        freeVisitor s = some 896 ∧ accessCheck s 3 0 0 .register = some d := by
  refine ⟨⟨rfl, rfl⟩, by decide, by decide, by decide, by decide, by decide, by decide, by decide, ?_, ?_, ?_⟩
  · refine ⟨{ site with
      filters := ⟨[(7, ⟨true, 0, 0, 0, 0⟩)]⟩
      records := ⟨((allIndices 1024).drop 896).map fun i => (i, person .absent)⟩ }, ⟨rfl, rfl⟩, ?_⟩
    decide +kernel
  · exact ⟨withZone ⟨true, .closed, 3⟩ site, _, ⟨rfl, rfl⟩, by decide, rfl⟩
  · exact ⟨{ withZone ⟨true, .closed, 3⟩ site with filters := ⟨[(7, ⟨true, 0, 0, 0, 0⟩)]⟩ }, _, ⟨rfl, rfl⟩, by decide,
      by decide, by decide, by decide, rfl⟩

/-- `AttachAdmitted`: a subscriber, a visitor to be created, and a handset in a call. -/
theorem witness_attach_admitted :
    (Heard 0 site ∧ site.findHid 7 = some 0 ∧ (site.record 0).enrolled = some ⟨7, 1, 2, none, .attached att 0⟩ ∧
      site.hold.active = false ∧ accessCheck site 1 2 0 .register = none) ∧
    (∃ s, Heard 0 s ∧ s.hold.active = false ∧ s.findHid 9 = none ∧ chosenFilter s 9 = some 0 ∧ freeVisitor s = some 896 ∧
      accessCheck s 0 0 0 .register = none) ∧
    ∃ s, Heard 0 s ∧ s.hrq.total = 0 ∧ s.findHid 7 = some 0 ∧
      (s.record 0).enrolled = some ⟨7, 1, 2, none, .engaged att 5⟩ ∧ accessCheck s 1 2 0 .register = none := by
  refine ⟨⟨⟨rfl, rfl⟩, by decide⟩, ⟨{ site with filters := ⟨[(0, ⟨true, 0, 0, 0, 0⟩)]⟩ }, ⟨rfl, rfl⟩, by decide⟩,
    ⟨inCall (.active leg none) [] [] ⟨[], []⟩, ⟨rfl, rfl⟩, by decide⟩⟩

/-- `PresenceTable`, `HandsetLeaves`: not registered, in a call, and ATTACHED at the cell, at another in an open zone, and at
another in a closed one. -/
theorem witness_presence :
    (Heard 0 site ∧ site.findHid 9 = none ∧ (63 : Byte).toNat = (63 : Quality).val) ∧
    (∃ s, Heard 0 s ∧ s.hrq.total = 0 ∧ s.findHid 7 = some 0 ∧
      (s.record 0).enrolled = some ⟨7, 1, 2, none, .engaged att 5⟩) ∧
    (site.findHid 7 = some 0 ∧ (site.record 0).enrolled = some ⟨7, 1, 2, none, .attached att 0⟩ ∧ att.cell = 0) ∧
    (Heard 1 site ∧ att.cell ≠ 1 ∧ checkStored site ⟨7, 1, 2, none, .attached att 0⟩ att 1 .location = none) ∧
    ∃ s v, Heard 1 s ∧ s.findHid 7 = some 0 ∧ (s.record 0).enrolled = some ⟨7, 1, 2, none, .attached att 0⟩ ∧
      checkStored s ⟨7, 1, 2, none, .attached att 0⟩ att 1 .location = some v := by
  refine ⟨⟨⟨rfl, rfl⟩, by decide⟩, ⟨inCall (.active leg none) [] [] ⟨[], []⟩, ⟨rfl, rfl⟩, by decide⟩, by decide,
    ⟨⟨rfl, rfl⟩, by decide⟩, ⟨withZone ⟨true, .closed, 3⟩ site, _, ⟨rfl, rfl⟩, by decide, by decide, rfl⟩⟩

/-- Deadlines that pass now, and one that passes in a millisecond. -/
theorem witness_due : due 0 site ∧ ¬ due 1 site := ⟨by unfold due; decide, by unfold due; decide⟩

/-- `LocationNoticesRaised`, a refill: a full queue, a waiting page outcome, a waiting record, and nothing that waits. -/
theorem witness_refill :
    (∃ s : State, s.Inv ∧ 64 ≤ s.notices.length) ∧
    (∃ (s : State) (p : PageEntry), s.Inv ∧ s.notices.length < 64 ∧ s.page 0 = some p ∧
      p.status = .settled .noAnswer false) ∧
    (∃ s : State, s.Inv ∧ s.notices.length < 64 ∧ (∀ e p o, s.page e = some p → p.status ≠ .settled o false) ∧
      (s.record 0).dirty = true ∧ (s.record 0).queued = false) ∧
    site.Inv ∧ ∀ i, (site.record i).dirty = true → (site.record i).queued = true := by
  have h := site_inv
  refine ⟨⟨backlog site, ?_, by decide +kernel⟩,
    ⟨{ site with pages := ⟨[(0, some ⟨7, 0, [0], false, .settled .noAnswer false⟩)]⟩ }, _, ?_, by decide, rfl, rfl⟩,
    ⟨away.setRecord 0 { person .absent with dirty := true },
      State.Inv.flag (s := away) (lab_inv _ [] _ _ rfl (by decide) hrq_empty_ok nofun) 0 _ rfl,
      by decide, (fun _ _ _ hp => nomatch hp), by decide, by decide⟩, h, fun i hi => ?_⟩
  · exact { h with tables := { h.tables with }, notices := by decide +kernel }
  · exact { h with tables := { h.tables with pages := rfl } }
  · simp only [site, lab, State.record, Table.get, lookupIx] at hi
    split at hi <;> cases hi

/-- `AccessCheckChain`: a cell that is not present, one that drains, and zone 0 absent, closed, open at level 3, gated
without a gate, and gated with gate 31 found. -/
theorem witness_access :
    (site.cell 63).present = false ∧ (∃ s : State, (s.cell 0).present = true ∧ (s.cell 0).service ≠ .inService) ∧
      (site.cell 0).present = true ∧ (site.cell 0).service = .inService ∧ (site.cell 0).zone = 0 ∧
      ((withZone Zone.blank site).zone 0).present = false ∧ ((withZone ⟨true, .closed, 0⟩ site).zone 0).kind = .closed ∧
      (site.zone 0).present = true ∧ (site.zone 0).kind = .openZone ∧
      ((withZone ⟨true, .gated, 0⟩ site).zone 0).kind = .gated ∧ (∀ g, ¬ GateServes (withZone ⟨true, .gated, 0⟩ site) 0 2 g) ∧
      ∃ s : State, (s.cell 0).present = true ∧ (s.cell 0).service = .inService ∧ (s.cell 0).zone = 0 ∧
        (s.zone 0).present = true ∧ (s.zone 0).kind = .gated ∧ GateServes s 0 2 31 ∧ ∀ h, h < 31 → ¬ GateServes s 0 2 h := by
  refine ⟨by decide, ⟨withCell { cellUp with service := .draining .outOfService 0 } site, by decide, by decide⟩,
    by decide, by decide, by decide, by decide, by decide, by decide, by decide, by decide,
    fun g h => Bool.noConfusion h.1, ⟨{ withZone ⟨true, .gated, 0⟩ site with gates := ⟨[(31, ⟨true, 0, .only 2, 0, .any⟩)]⟩ },
      by decide, by decide, by decide, by decide, by decide, ⟨by decide, by decide, by decide⟩, fun h hl hs => ?_⟩⟩
  have h1 := hs.1
  simp only [State.gate, Table.get, lookupIx] at h1
  split at h1
  · next hh => subst hh; exact absurd hl (lt_irrefl _)
  · cases h1

/-- `OccupancyReports`: a cell out of service, one below and one at its limit, and drains with two
slots, with one, and into a restart. -/
theorem witness_occupancy :
    (State.reset.cell 0).service ≠ .inService ∧ (site.cell 0).service = .inService ∧ (site.cell 0).occupancy < 1 ∧
      (∃ s : State, (s.cell 0).service = .inService ∧ 12 ≤ (s.cell 0).occupancy) ∧
      (∃ s : State, (∀ f d, (s.cell 0).service = .draining f d → 1 < (s.cell 0).occupancy)) ∧
      (∃ s : State, (s.cell 0).service = .draining .outOfService 7 ∧ (s.cell 0).occupancy ≤ 1) ∧
      (∃ s : State, (s.cell 0).service = .draining .restarting 7 ∧ (s.cell 0).occupancy ≤ 1) ∧
      (State.reset.cell 3).service = .outOfService ∧ (State.reset.cell 3).occupancy ≤ 1 ∧ ((12 : Nat) ≤ 12 ∧ (15 : Nat) ≤ 15) :=
  ⟨by decide, by decide, by decide, ⟨withCell { cellUp with occupancy := 12 } site, by decide, by decide⟩,
    ⟨withCell { cellUp with occupancy := 2, service := .draining .outOfService 7 } site, fun _ _ _ => by decide⟩,
    ⟨withCell { cellUp with occupancy := 1, service := .draining .outOfService 7 } site, by decide, by decide⟩,
    ⟨withCell { cellUp with occupancy := 1, service := .draining .restarting 7 } site, by decide, by decide⟩,
    by decide, by decide, by decide⟩

/-- `CellCommandsAnswered`, `DeadlinesPass`, `CellLossReachesEveryContext`: index 64 and a cell not
present; each service state with the port UP; OUT_OF_SERVICE with it DOWN; an occupied cell; deadlines that have passed; each
under a request in execution for it. -/
theorem witness_cells :
    (Executing 1 (asksFor 0x10) (asked 0x10 [64] site) ∧ ∀ c : CellIx, 64 = c.val → (site.cell c).present = false) ∧
      (Executing 1 (asksFor 0x12) (asked 0x12 [0] site) ∧ (site.cell 0).present = true ∧
        (site.cell 0).service = .inService ∧ (site.cell 0).occupancy = 0 ∧ (site.cell 0).service.working = true ∧
        (site.port (portOf 0)).link = .up) ∧
      (∃ s : State, Executing 1 (asksFor 0x13) s ∧ (s.cell 0).present = true ∧ (s.cell 0).service = .inService ∧
        0 < (s.cell 0).occupancy) ∧
      (∃ s : State, Executing 1 (asksFor 0x10) s ∧ (s.cell 0).present = true ∧ (s.cell 0).service = .outOfService ∧
        (s.port (portOf 0)).link = .up) ∧
      (∃ s : State, Executing 1 (asksFor 0x10) s ∧ (s.cell 16).present = true ∧ (s.cell 16).service = .outOfService ∧
        (s.port (portOf 16)).link = .down) ∧
      (∃ s : State, Executing 1 (asksFor 0x11) s ∧ (s.cell 0).present = true ∧
        (s.cell 0).service = .draining .outOfService 0 ∧ due 0 s) ∧
      (∃ s : State, Executing 1 (asksFor 0x11) s ∧ (s.cell 0).present = true ∧ (s.cell 0).service = .restarting 0 ∧ due 0 s) ∧
      (∀ f d, (site.cell 0).service = .draining f d → ¬ due d site) ∧
      (∀ d, (site.cell 0).service = .restarting d → ¬ due d site) := by
  refine ⟨⟨asked_executing _ (by decide), fun c h => by omega⟩, ⟨asked_executing _ (by decide), by decide⟩,
    ⟨asked 0x13 [0] (withCell { cellUp with occupancy := 1 } site), asked_executing _ (by decide), by decide⟩,
    ⟨asked 0x10 [0] (withCell { cellUp with service := .outOfService } site), asked_executing _ (by decide), by decide⟩,
    ⟨asked 0x10 [16] { site with cells := ⟨[(16, { cellUp with service := .outOfService })]⟩ },
      asked_executing _ (by decide), by decide⟩,
    ⟨asked 0x11 [0] (withCell { cellUp with service := .draining .outOfService 0 } site), asked_executing _ (by decide),
      by decide, by decide, by unfold due; decide⟩,
    ⟨asked 0x11 [0] (withCell { cellUp with service := .restarting 0 } site), asked_executing _ (by decide), by decide,
      by decide, by unfold due; decide⟩,
    (fun _ _ h => nomatch h), (fun _ h => nomatch h)⟩

/-- `CallReqJudged`: not ATTACHED at the cell, refused by a closed zone, taken with 63 notices, and BUSY with 64. -/
theorem witness_call_req :
    Heard 0 site ∧ site.findHid 9 = none ∧ site.findHid 7 = some 0 ∧
      (site.record 0).enrolled = some ⟨7, 1, 2, none, .attached att 0⟩ ∧ att.cell = 0 ∧
      (∃ v, checkStored (withZone ⟨true, .closed, 0⟩ site) ⟨7, 1, 2, none, .attached att 0⟩ att 0 .callSetup = some v) ∧
      checkStored site ⟨7, 1, 2, none, .attached att 0⟩ att 0 .callSetup = none ∧
      (List.replicate 63 (Notice.location 3)).length < 64 ∧ 64 ≤ (backlog site).notices.length ∧
      checkStored (backlog site) ⟨7, 1, 2, none, .attached att 0⟩ att 0 .callSetup = none :=
  ⟨⟨rfl, rfl⟩, by decide, by decide, by decide, by decide, ⟨_, rfl⟩, by decide, by decide, by decide +kernel, by decide⟩

/-- `CallOpenRefused`: a busy channel, an unknown handset, one in a call, the hold, a closed zone, a full cell, and 64
transactions owed. -/
theorem witness_open_refused :
    site.trunk.link = .up ∧ (127 : Byte).toNat = (127 : Channel).val ∧ (2 : Byte).toNat = (2 : Priority).val ∧
      (inCall (.active leg none) [] [] ⟨[], []⟩).call 5 ≠ none ∧ site.call 127 = none ∧ site.findHid 9 = none ∧
      (inCall (.active leg none) [] [] ⟨[], []⟩).findHid 7 = some 0 ∧
      (held site).hold.active = true ∧ (2 : Priority) ≠ 3 ∧
      (∃ v, checkStored (withZone ⟨true, .closed, 0⟩ site) ⟨7, 1, 2, none, .attached att 0⟩ att 0 .callSetup = some v) ∧
      (∃ code, reserve 0 (initialLimit cellUp 2)
        (countReceived trunkLink (withCell { cellUp with occupancy := 11 } site)) = .error code) ∧
      (∃ (s u : State), s.trunk.link = .up ∧ s.call 127 = none ∧ s.findHid 7 = some 0 ∧
        (s.record 0).enrolled = some ⟨7, 1, 2, none, .attached att 0⟩ ∧ s.hold.active = false ∧
        checkStored s ⟨7, 1, 2, none, .attached att 0⟩ att 0 .callSetup = none ∧
        reserve 0 (initialLimit (s.cell 0) 2) (countReceived trunkLink s) = .ok u ∧ 64 ≤ s.answers.length) :=
  ⟨by decide, by decide, by decide, by decide, by decide, by decide, by decide, by decide, by decide, ⟨_, rfl⟩, ⟨_, rfl⟩,
    ⟨{ site with answers := (List.range 64).map fun n => ⟨BitVec.ofNat 12 n, 0, 0, 0, false⟩ }, _, by decide, by decide,
      by decide, by decide, by decide, by decide, rfl, by decide +kernel⟩⟩

/-- `CallOpenAdmitted`: a queue that takes the LEG-OPEN, and one full of LEG-CLOSE-ALLs. -/
theorem witness_open_admitted :
    (∃ u, site.Inv ∧ site.trunk.link = .up ∧ site.call 127 = none ∧ site.findHid 7 = some 0 ∧
      (site.record 0).enrolled = some ⟨7, 1, 2, none, .attached att 0⟩ ∧ site.hold.active = false ∧
      checkStored site ⟨7, 1, 2, none, .attached att 0⟩ att 0 .callSetup = none ∧ site.answers.length < 64 ∧
      reserve 0 (initialLimit (site.cell 0) 3) (countReceived trunkLink site) = .ok u ∧ QueueTakes 0 site) ∧
    ∃ s u, s.Inv ∧ s.trunk.link = .up ∧ s.call 127 = none ∧ s.findHid 7 = some 0 ∧
      (s.record 0).enrolled = some ⟨7, 1, 2, none, .attached att 0⟩ ∧ s.hold.active = false ∧
      checkStored s ⟨7, 1, 2, none, .attached att 0⟩ att 0 .callSetup = none ∧ s.answers.length < 64 ∧
      reserve 0 (initialLimit (s.cell 0) 3) (countReceived trunkLink s) = .ok u ∧ ¬ QueueTakes 0 s := by
  refine ⟨⟨_, site_inv, by decide, by decide, by decide, by decide, by decide, by decide, by decide, rfl,
      ⟨by decide, .inl (by decide)⟩⟩,
    ⟨site.setPort 0 ⟨.up, [], List.replicate 24 (.legCloseAll 0), [], none⟩, _,
      State.Inv.setPort site_inv 0 _ ⟨by decide, by decide, by decide, by decide⟩, by decide, by decide, by decide,
      by decide, by decide, by decide, by decide, rfl, fun h => ?_⟩⟩
  rcases h.2 with h | ⟨f, hf, h⟩
  · exact absurd h (by decide)
  · have : f ∈ List.replicate 24 (CtlFrame.legCloseAll 0) := hf
    rw [List.eq_of_mem_replicate this] at h
    exact absurd h (by decide)

/-- `CallCleared`, `UplinkVoiceJudged`, `BridgeVoiceCommits`, `DownlinkVoiceRouted`, `LegLostJudged`: each state of a call on
channel 5, with no handover request; sequences 127 and 128 past the expected one; and a stale run of 7 and of 8. -/
theorem witness_calls :
    site.call 5 = none ∧ Heard 0 site ∧ Heard 1 site ∧ (5 : Byte).toNat = (5 : Channel).val ∧
      (List.replicate 40 (0 : Byte)).length = 40 ∧ (⟨[], []⟩ : Hrq).total = 0 ∧
      (inCall (.active leg none) [] [] ⟨[], []⟩).Inv ∧
      (inCall (.active leg none) [] [] ⟨[], []⟩).call 5 = some (talk (.active leg none) []) ∧
      (talk (.active leg none) []).phase.serving = some leg ∧ leg.cell = 0 ∧
      (inCall (.opening 0 9) [] [] ⟨[], []⟩).Inv ∧ (talk (.opening 0 9) []).phase.serving = none ∧
      (inCall (.preparing leg none target 9) [] [] ⟨[], []⟩).Inv ∧
      (inCall (.bridging leg none target 4 200) [] [] ⟨[], []⟩).Inv ∧
      (inCall (.bridging leg none target 4 200) [] [] ⟨[], []⟩).call 5 = some (talk (.bridging leg none target 4 200) []) ∧
      target.cell = 1 ∧ leg.cell ≠ 1 ∧
      ((127 : Byte) - 0).toNat < 128 ∧ 128 ≤ ((128 : Byte) - 0).toNat ∧ (7 : Nat) < 8 := by
  refine ⟨by decide, ⟨rfl, rfl⟩, ⟨rfl, rfl⟩, by decide, by decide, by decide, inCall_inv _ _ (by decide),
    by decide, by decide, by decide, inCall_inv _ _ (by decide), by decide,
    inCall_inv _ _ (by decide), inCall_inv _ _ (by decide), by decide, by decide⟩

/-- `LegLostJudged`, `MeasRepJudged`, `RequestsPosted`: a call with a candidate while 16 contexts are in execution, and one
that waits for room. -/
theorem witness_crowd :
    (∃ s : State, s.Inv ∧ Heard 0 s ∧ 16 ≤ s.inExecution ∧ s.call 5 = some (talk (.active leg none) [cand]) ∧
      bestCandidate [cand] = some cand) ∧
    ∃ s : State, s.Inv ∧ 16 ≤ s.inExecution ∧ s.hrq.total < 32 ∧ s.call 5 = some (talk (.rescuing none 900) [cand]) ∧
      (talk (.rescuing none 900) [cand]).waitsForRoom = true ∧
      ∀ y j, y < 5 → s.call y = some j → j.waitsForRoom = false := by
  refine ⟨⟨lab (.engaged att 5) (crowd (talk (.active leg none) [cand])) [] ⟨[], []⟩,
      lab_inv _ _ _ _ (by decide +kernel) (by decide) hrq_empty_ok
        (crowd_ok (talk_cand_ok _ (by decide) nofun)), ⟨rfl, rfl⟩, by decide +kernel, by decide +kernel, by decide⟩,
    ⟨lab (.engaged att 5) (crowd (talk (.rescuing none 900) [cand])) [] ⟨[], []⟩,
      lab_inv _ _ _ _ (by decide +kernel) (by decide) hrq_empty_ok
        (crowd_ok (talk_cand_ok _ nofun nofun)), by decide +kernel, by decide, by decide +kernel, by decide, ?_⟩⟩
  have h : ∀ y : Channel, y < 5 → (lab (.engaged att 5) (crowd (talk (.rescuing none 900) [cand])) [] ⟨[], []⟩).call y = none := by
    decide +kernel
  intro y j hy hj
  rw [h y hy] at hj
  cases hj

/-- `LegAckDelivered`, `PendingOpenFails`: an answer owed to an initial open, to a target open whose serving port takes an
HO-CMD, and to a rescue attempt; its deadline has passed. -/
theorem witness_answers :
    (4095 : BitVec 16).toNat = (4095 : Txn).toNat ∧ (11 : Byte).toNat = (11 : Slot).val ∧
    (∃ s : State, s.Inv ∧ Heard 0 s ∧ s.answerOf 4095 = some ⟨4095, 5, 0, 0, false⟩ ∧ due 0 s ∧
      s.call 5 = some (talk (.opening 0 4095) [])) ∧
    (∃ s : State, s.Inv ∧ Heard 1 s ∧ s.answerOf 4095 = some ⟨4095, 5, 1, 0, false⟩ ∧ due 0 s ∧ s.hrq.total = 0 ∧
      s.call 5 = some (talk (.preparing leg none target 4095) []) ∧ QueueTakes leg.cell s ∧
      (s.record 0).enrolled = some ⟨7, 1, 2, none, .engaged att 5⟩) ∧
    (∃ s : State, s.Inv ∧ Heard 1 s ∧ s.answerOf 4095 = some ⟨4095, 5, 1, 0, false⟩ ∧ s.hrq.total = 0 ∧
      s.call 5 = some (talk (.preparing ⟨16, 3⟩ none target 4095) []) ∧ (s.port (portOf 16)).link = .down) ∧
    ∃ s : State, s.Inv ∧ Heard 1 s ∧ s.answerOf 4095 = some ⟨4095, 5, 1, 0, false⟩ ∧ s.hrq.total = 0 ∧
      s.call 5 = some (talk (.rescuing (some (target, 4095)) 900) [cand]) := by
  refine ⟨by decide, by decide,
    ⟨inCall (.opening 0 4095) [] [⟨4095, 5, 0, 0, false⟩] ⟨[], []⟩, inCall_inv _ _ (by decide), ⟨rfl, rfl⟩,
      by decide, by unfold due; decide, by decide⟩,
    ⟨inCall (.preparing leg none target 4095) [] [⟨4095, 5, 1, 0, false⟩] ⟨[], []⟩,
      inCall_inv _ _ (by decide), ⟨rfl, rfl⟩, by decide, by unfold due; decide, by decide, by decide,
      ⟨by decide, .inl (by decide)⟩, by decide⟩,
    ⟨inCall (.preparing ⟨16, 3⟩ none target 4095) [] [⟨4095, 5, 1, 0, false⟩] ⟨[], []⟩,
      inCall_inv _ _ (by decide), ⟨rfl, rfl⟩, by decide, by decide, by decide, by decide⟩,
    ⟨inCall (.rescuing (some (target, 4095)) 900) [cand] [⟨4095, 5, 1, 0, false⟩] ⟨[], []⟩,
      inCall_cand_inv _ _ (by decide) nofun nofun, ⟨rfl, rfl⟩, by decide, by decide, by decide⟩⟩

/-- `LegAckUnwanted`, `PendingOpenFails`: no entry, an entry of another cell under DISCARD, and a cancelled entry; slot 11
and causes 1 and 3. -/
theorem witness_unwanted :
    Heard 0 site ∧ site.answerOf 7 = none ∧ (11 : Byte).toNat < 12 ∧ 1 ≤ (1 : Byte).toNat ∧ (3 : Byte).toNat ≤ 3 ∧
      (∃ s : State, Heard 0 s ∧ s.answerOf 7 = some ⟨7, 5, 1, 0, false⟩ ∧ s.config.sync = .discard) ∧
      ∃ s : State, Heard 0 s ∧ s.answerOf 7 = some ⟨7, 5, 0, 0, true⟩ ∧ due 0 s :=
  ⟨⟨rfl, rfl⟩, by decide, by decide, by decide, by decide,
    ⟨lab .absent [] [⟨7, 5, 1, 0, false⟩] ⟨[], []⟩, ⟨rfl, rfl⟩, by decide, by decide⟩,
    ⟨lab .absent [] [⟨7, 5, 0, 0, true⟩] ⟨[], []⟩, ⟨rfl, rfl⟩, by decide, by unfold due; decide⟩⟩

/-- The policy FAIL. -/
def strict (s : State) : State := { s with config := { s.config with sync := .fail } }

theorem strict_inv {s : State} (h : s.Inv) (hc : s.config = ConfigTable.default) : (strict s).Inv :=
  { h with tables := { h.tables with }, config := by unfold strict; rw [hc]; rfl }

/-- `LegAckUnwanted`, the policy FAIL: cell 0 answers for an entry of cell 1 that is cancelled, that an initial open owes,
and that a target open owes while no handover request waits. -/
theorem witness_strict :
    (∃ s : State, Heard 0 s ∧ s.config.sync = .fail ∧ s.answerOf 9 = some ⟨9, 5, 1, 0, true⟩) ∧
    (∃ s : State, s.Inv ∧ Heard 0 s ∧ s.config.sync = .fail ∧ s.answerOf 9 = some ⟨9, 5, 1, 0, false⟩ ∧
      s.call 5 = some (talk (.opening 1 9) [])) ∧
    ∃ s : State, s.Inv ∧ Heard 0 s ∧ s.config.sync = .fail ∧ s.answerOf 9 = some ⟨9, 5, 1, 0, false⟩ ∧
      s.hrq.total = 0 ∧ s.call 5 = some (talk (.preparing leg none target 9) []) :=
  ⟨⟨strict (lab .absent [] [⟨9, 5, 1, 0, true⟩] ⟨[], []⟩), ⟨rfl, rfl⟩, by decide, by decide⟩,
    ⟨strict (inCall (.opening 1 9) [] [⟨9, 5, 1, 0, false⟩] ⟨[], []⟩), strict_inv (inCall_inv _ _ (by decide)) rfl,
      ⟨rfl, rfl⟩, by decide, by decide, by decide⟩,
    ⟨strict (inCall (.preparing leg none target 9) [] [⟨9, 5, 1, 0, false⟩] ⟨[], []⟩),
      strict_inv (inCall_inv _ _ (by decide)) rfl, ⟨rfl, rfl⟩, by decide, by decide, by decide, by decide⟩⟩

/-- Cell 1 takes handset 7 from a rescue attempt of channel 5. -/
theorem attempt_takes (cs : List Candidate) : TargetTakes (attempt cs) caller att 1 :=
  ⟨by rfl, by show 0 < 12; decide, by show 1 < 64; decide, by rfl, .inl (by show 0 < 24; decide)⟩

theorem attempt_inv (cs : List Candidate) (hc : cs = [back, cand] ∨ cs = [back] ∨ cs = [back, lost]) :
    (attempt cs).Inv := by
  refine lab_inv _ _ _ _ rfl (by decide) hrq_empty_ok (one_call ⟨by show 640 ≤ 1008; decide, ?_, nofun⟩)
  show CandidatesOk none cs
  rcases hc with rfl | rfl | rfl <;> exact ⟨by decide, by decide, nofun, by decide⟩

/-- `PendingOpenFails`, `LegAckUnwanted`, `AttemptPassed`: an attempt at cell 0 whose deadline is now, with a candidate left
that takes the handset, with none left, and with one left that is not present; under the policy FAIL cell 1 answers for it.
`AttemptCancelled`: its LEG-OPEN still waits, and is sent. -/
theorem witness_attempts :
    (Heard 0 (attempt [back, cand]) ∧ Heard 1 (strict (attempt [back, cand])) ∧ due 0 (attempt [back, cand]) ∧
      (attempt [back, cand]).answerOf 9 = some ⟨9, 5, 0, 0, false⟩ ∧ (attempt [back, cand]).hrq.total = 0 ∧
      (strict (attempt [back, cand])).config.sync = .fail ∧ (0 : CellIx) ≠ 1) ∧
    (∀ cs, cs = [back, cand] ∨ cs = [back] ∨ cs = [back, lost] → (attempt cs).Inv ∧ (strict (attempt cs)).Inv ∧
      (attempt cs).call 5 = some (talk (.rescuing (some (⟨0, .rescue, .rescue⟩, 9)) 900) cs) ∧
      ((attempt cs).record 0).enrolled = some caller ∧ TargetTakes (attempt cs) caller att 1 ∧
      (∀ f g, ((attempt cs).cell 0).service = .draining f g → 1 < ((attempt cs).cell 0).occupancy)) ∧
    bestCandidate (without 0 [back, cand]) = some cand ∧ without 0 [back] = [] ∧ without 0 [back, lost] = [lost] ∧
    (∃ v, checkStored (attempt [back, lost]) caller att 63 .handover = some v) ∧
    ∃ s : State, s.Inv ∧ s.call 5 = (attempt [back, cand]).call 5 ∧ s.answers = (attempt [back, cand]).answers ∧
      ∃ o ∈ (s.port (portOf 0)).ctl, o.openTxn = some 9 :=
  ⟨⟨⟨rfl, rfl⟩, ⟨rfl, rfl⟩, by unfold due; decide, by decide, by decide, by decide, by decide⟩,
    fun cs hc => ⟨attempt_inv cs hc, strict_inv (attempt_inv cs hc) rfl, rfl, rfl, attempt_takes cs, fun _ _ h => nomatch h⟩,
    by decide, by decide, by decide, ⟨_, rfl⟩,
    ⟨(attempt [back, cand]).setPort 0 ⟨.up, [], [.legOpen 0 9 5 7 .rescue], [], none⟩,
      State.Inv.setPort (attempt_inv _ (.inl rfl)) 0 _ ⟨by decide, by decide, by decide, by decide⟩, rfl, rfl,
      .legOpen 0 9 5 7 .rescue, by decide, by decide⟩⟩

/-- `DrainStartReachesContexts`: a cell that drains, with a call ACTIVE there with a live candidate, with one that is not
live and with its request posted; a target open of cell 1 whose LEG-OPEN waits and one sent; a target leg there; and an
attempt. -/
theorem witness_drain_start :
    (∃ s : State, Executing 1 (asksFor 0x12) s ∧ (s.cell 0).present = true ∧ (s.cell 0).service = .inService ∧
      0 < (s.cell 0).occupancy) ∧
    (∀ (ph : Phase) (cs : List Candidate) (as : List Answer) (c : CellIx), (talk ph cs).Ok →
      (as.length ≤ 64 ∧ (as.map (·.txn)).Nodup) → ∃ s : State, s.Inv ∧ s.call 5 = some (talk ph cs) ∧ s.answers = as ∧
        (s.cell c).service = .draining .outOfService 7 ∧ (s.cell c).occupancy = 2 ∧ (c ≠ 1 → (s.cell 1).live = true) ∧
        (s.cell 63).live = (decide (c = 63) && (s.cell 63).live) ∧ (s.port 0).link = .up ∧ (s.port 0).closes = []) ∧
    ((talk (.active leg none) [cand]).Ok ∧ (talk (.active leg none) [lost]).Ok ∧
      (talk (.preparing leg none target 9) []).Ok ∧ (talk (.bridging leg none target 4 200) []).Ok ∧
      (talk (.rescuing (some (target, 9)) 900) [cand]).Ok ∧ leg.cell ≠ target.cell) ∧
    ∃ s : State, s.Inv ∧ s.call 5 = some (talk (.preparing leg none target 9) []) ∧
      s.answerOf 9 = some ⟨9, 5, 1, 0, false⟩ ∧ ∃ o ∈ (s.port (portOf 1)).ctl, o.openTxn = some 9 := by
  refine ⟨⟨asked 0x12 [0] (withCell { cellUp with occupancy := 1 } site), asked_executing _ (by decide), by decide⟩,
    fun ph cs as c hk ha => ?_,
    ⟨talk_cand_ok _ (by decide) nofun, talk_lost_ok _ _ (.inl rfl) (.inr rfl) nofun, talk_ok _, talk_ok _,
      talk_cand_ok _ nofun nofun, by decide⟩,
    ⟨(inCall (.preparing leg none target 9) [] [⟨9, 5, 1, 0, false⟩] ⟨[], []⟩).setPort 0
        ⟨.up, [], [.legOpen 1 9 5 7 .handover], [], none⟩,
      State.Inv.setPort (inCall_inv _ _ (by decide)) 0 _ ⟨by decide, by decide, by decide, by decide⟩, by decide, by decide,
      .legOpen 1 9 5 7 .handover, by decide, by decide⟩⟩
  refine ⟨(inCall ph cs as ⟨[], []⟩).setCell c { cellUp with service := .draining .outOfService 7, occupancy := 2 },
    State.Inv.setCell (lab_inv _ _ _ _ rfl ha hrq_empty_ok (one_call hk)) c _
      ⟨by decide, by decide, by decide, by decide, by decide, by decide, by decide, by decide, by decide, by decide, by decide, by decide⟩,
    rfl, rfl, ?_, ?_, fun h => ?_, ?_, rfl, rfl⟩
  · rw [State.cell_setCell_self]
  · rw [State.cell_setCell_self]
  · rw [State.cell_setCell_ne _ (Ne.symm h)]; rfl
  · by_cases h : c = 63
    · subst h; rw [State.cell_setCell_self]; rfl
    · rw [State.cell_setCell_ne _ (Ne.symm h)]; simp only [h, decide_false, Bool.false_and]; rfl

/-- `QualityFiltered`, `CandidatesKept`: k 4, F 1008 and q 63; a distance below 2^k; a list of one candidate. -/
theorem witness_filter :
    ((4 : Nat) ≤ 4 ∧ 1008 ≤ 1008 ∧ 63 ≤ 63) ∧ (1007 < 16 * 63 + 2 ^ 4 ∧ 16 * 63 < 1007 + 2 ^ 4) ∧
      (site.cell 0).shift ≤ 4 ∧ CandidatesOk (some 0) [cand] :=
  ⟨by decide, by decide, by decide, (talk_cand_ok (.active leg none) (by decide) nofun).list⟩

/-- `CandidatesKept`, what a pair does: a full list, whose lowest F is that of its second and third entry; an entry held, a
cell that is no neighbour, a neighbour below 4 entries, and one whose 16 × q is above and not above the lowest F. -/
theorem witness_pairs :
    ∃ (cs before after : List Candidate) (w : Candidate) (r : CellRec), CandidatesOk (some 0) cs ∧ cs.length = 4 ∧
      cs = before ++ w :: after ∧ (∀ d ∈ before, w.f < d.f) ∧ (∀ d ∈ after, w.f ≤ d.f) ∧ w.f < 16 * 63 ∧ ¬ w.f < 16 * 2 ∧
      (1 : CellIx) ∈ cs.map (·.cell) ∧ (63 : CellIx) ∉ cs.map (·.cell) ∧ (63 : CellIx) ∉ r.neighbours.map (·.cell) ∧
      (62 : CellIx) ∉ cs.map (·.cell) ∧ (62 : CellIx) ∈ r.neighbours.map (·.cell) ∧ (62 : CellIx) ≠ 0 ∧
      [cand].length < 4 ∧ (62 : CellIx) ∉ [cand].map (·.cell) :=
  ⟨[cand, ⟨2, 300, 0, 1⟩, ⟨3, 300, 0, 2⟩, ⟨4, 900, 0, 0⟩], [cand], [⟨3, 300, 0, 2⟩, ⟨4, 900, 0, 0⟩], ⟨2, 300, 0, 1⟩,
    { cellUp with neighbours := [⟨1, 0⟩, ⟨62, 0⟩] }, ⟨by decide, by decide, by decide, by decide⟩, by decide⟩

/-- `MeasRepJudged`: handset 7 reports from its serving cell with one pair; another handset does. A report that posts
nothing, for want of a candidate. -/
theorem witness_report :
    (∃ s : State, s.Inv ∧ Heard 0 s ∧ s.call 5 = some (talk (.active leg none) []) ∧
      (s.record 0).enrolled.map (·.hid) = some 7 ∧ (s.record 0).enrolled.map (·.hid) ≠ some 8 ∧
      postingTest s (s.cell 0) (evaluate s 0 40 [(1, 63)] (talk (.active leg none) [])) = none) ∧
    ([((1 : Byte), (63 : Byte))].take 6).map (fun p => (p.1.toNat, p.2.toNat)) =
      ([(1, 63)] : List (CellIx × Quality)).map (fun p => (p.1.val, p.2.val)) ∧
    ∃ s : State, s.Inv ∧ Heard 0 s ∧ 16 ≤ s.inExecution ∧ s.call 5 = some (talk (.active leg none) [cand]) ∧
      (s.record 0).enrolled.map (·.hid) = some 7 ∧
      postingTest s (s.cell 0) (evaluate s 0 0 [(1, 63)] (talk (.active leg none) [cand])) = some (1, .quality) := by
  refine ⟨⟨inCall (.active leg none) [] [] ⟨[], []⟩, inCall_inv _ _ (by decide), ⟨rfl, rfl⟩, by decide,
    by decide, by decide, by decide +kernel⟩, by decide, ?_⟩
  have h := lab_inv (.engaged att 5) (crowd (talk (.active leg none) [cand])) [] ⟨[], []⟩ (by decide +kernel) (by decide)
    hrq_empty_ok (crowd_ok (talk_cand_ok _ (by decide) nofun))
  exact ⟨(lab (.engaged att 5) (crowd (talk (.active leg none) [cand])) [] ⟨[], []⟩).setCell 0
    { cellUp with neighbours := [⟨1, 0⟩], floor := 0 }, State.Inv.setCell h 0 _
      ⟨by decide, by decide, by decide, by decide, by decide, by decide, by decide, by decide, by decide, by decide, by decide, by decide⟩,
    ⟨by decide +kernel, by decide +kernel⟩, by decide +kernel, by decide +kernel, by decide +kernel, by decide +kernel⟩

/-- `MeasRepJudged`, a request taken in the event of its report: no request waits, fewer than 16 contexts are in execution,
and cell 1 takes the handset. A QUALITY request, a RELIEF request of a congested cell, a DRAIN request of a DRAINING one, and
a RESCUE request below the floor. -/
theorem witness_report_taken (r : CellRec) (kind : ReqKind)
    (h : (r, kind) ∈ [({ cellUp with floor := 0 }, .quality), ({ cellUp with floor := 0, congested := true, occupancy := 10 }, .relief),
      ({ cellUp with floor := 0, service := .draining .restarting 9 }, .drain), ({ cellUp with floor := 63 }, .rescue)]) :
    ∃ s : State, s.Inv ∧ Heard 0 s ∧ s.call 5 = some (talk (.active leg none) [cand]) ∧ s.hrq.total = 0 ∧
      s.inExecution < 16 ∧ (∀ y j, s.call y = some j → j.waitsForRoom = false) ∧ (s.record 0).enrolled = some caller ∧
      caller.loc.attachment = some att ∧ caller.hid = 7 ∧
      postingTest s (s.cell 0) (evaluate s 0 0 [(1, 63)] (talk (.active leg none) [cand])) = some (1, kind) ∧
      TargetTakes s caller att 1 := by
  let s : State := inCall (.active leg none) [cand] [] ⟨[], []⟩
  have hs : s.Inv := inCall_cand_inv _ _ (by decide) (by decide) nofun
  have hw : ∀ y j, s.call y = some j → j.waitsForRoom = false := lab_waits rfl
  refine ⟨s.setCell 0 { r with neighbours := [⟨1, 0⟩] }, State.Inv.setCell hs 0 _ ?_, ⟨rfl, ?_⟩, rfl, rfl, ?_, hw, rfl, rfl,
    rfl, ?_, ?_, ?_, ?_, rfl, .inl ?_⟩
  · fin_cases h <;>
      exact ⟨by decide, by decide, by decide, by decide, by decide, by decide, by decide, by decide, by decide, by decide,
        by decide, by decide⟩
  all_goals fin_cases h <;> decide +kernel

/-- `PostingTestsInOrder`: a rescue below the floor, a drain, a quality request, and none while the hold is active. From a
DRAINING cell whose one candidate is not live, a quality request, and none where its dwell is below D. -/
theorem witness_posting :
    (talk (.active leg none) [cand]).candidates = [] ++ cand :: [] ∧
      (640 < 16 * { cellUp with floor := 63 }.floor ∧ 640 < cand.f ∧ (site.cell 1).live = true) ∧
      16 * cellUp.floor ≤ 640 ∧ { cellUp with service := .draining .outOfService 0 }.service = .draining .outOfService 0 ∧
      (held site).hold.active = true ∧ site.hold.active = false ∧ (talk (.active leg none) []).phase.guardDeadline = none ∧
      cellUp.dwell ≤ cand.dwell ∧ (talk (.active leg none) [lost]).candidates = [] ++ lost :: [] ∧
      (∀ b ∈ (talk (.active leg none) [lost]).candidates, (site.cell b.cell).live = false) ∧ cellUp.dwell ≤ lost.dwell ∧
      lost.dwell < { cellUp with dwell := 3 }.dwell ∧ (talk (.active leg none) []).candidates = [] := by decide

/-- A queue of one normal request of channel 5. -/
def one : Hrq := ⟨[], [⟨5, 1, .quality, 0⟩]⟩

/-- `RequestsPosted`: a request to replace, a queue with room, a full queue with a normal request and one without. -/
theorem witness_requests :
    (∃ s : State, s.Inv ∧ s.hrq.requestOf 5 = some ⟨5, 1, .quality, 0⟩) ∧
    (site.Inv ∧ site.hrq.requestOf 5 = none ∧ site.hrq.total < 32) ∧
    (∃ s : State, s.Inv ∧ s.hrq.requestOf 5 = none ∧ 32 ≤ s.hrq.total ∧ s.hrq.normal = [] ++ [⟨6, 1, .quality, 0⟩]) ∧
    ∃ s : State, s.Inv ∧ s.hrq.requestOf 5 = none ∧ 32 ≤ s.hrq.total ∧ s.hrq.normal = [] := by
  refine ⟨⟨lab .absent [] [] one, lab_inv _ _ _ _ rfl (by decide) ⟨by decide, by decide⟩ nofun, by decide⟩,
    ⟨site_inv, by decide, by decide⟩,
    ⟨lab .absent [] [] ⟨((allIndices 128).drop 97).map fun x => ⟨x, 1, .rescue, 0⟩, [⟨6, 1, .quality, 0⟩]⟩,
      lab_inv _ _ _ _ rfl (by decide) ⟨by decide +kernel, by decide +kernel⟩ nofun, by decide +kernel⟩,
    ⟨lab .absent [] [] ⟨((allIndices 128).drop 96).map fun x => ⟨x, 1, .rescue, 0⟩, []⟩,
      lab_inv _ _ _ _ rfl (by decide) ⟨by decide +kernel, by decide +kernel⟩ nofun, by decide +kernel⟩⟩

/-- A call whose one request waits. -/
def asking (ph : Phase) (cs : List Candidate) (q : Hrq) : State :=
  lab (.engaged att 5) [(5, some { talk ph cs with posted := true })] [] q

/-- What a statement about the take of the one request `r` of channel 5 asks of a state, the target apart. -/
structure Ready (s : State) (r : Request) (k : Call) : Prop where
  inv : s.Inv
  one : s.hrq.urgent ++ s.hrq.normal = [r]
  room : s.inExecution < 16
  waits : ∀ y j, s.call y = some j → j.waitsForRoom = false
  call : s.call r.channel = some k
  posted : k.posted = true
  enrolled : (s.record k.handset).enrolled = some caller
  attached : caller.loc.attachment = some att

theorem asking_ready (ph : Phase) (cs : List Candidate) (q : Hrq) (r : Request) (hk : (talk ph cs).Ok) (hq : q.Ok)
    (h1 : q.urgent ++ q.normal = [r]) (hr : r.channel = 5) (hx : (asking ph cs q).inExecution < 16) :
    Ready (asking ph cs q) r { talk ph cs with posted := true } :=
  ⟨lab_inv _ _ _ _ rfl (by decide) hq (one_call ⟨hk.fs, hk.list, hk.opening⟩), h1, hx,
    lab_waits (by cases ph with
      | rescuing a d => cases a <;> rfl
      | opening | active | preparing | bridging => rfl),
    by rw [hr]; rfl, rfl, rfl, rfl⟩

/-- The request of an ACTIVE call toward cell 1. -/
def ready : State := asking (.active leg none) [cand] one

theorem ready_ok : Ready ready ⟨5, 1, .quality, 0⟩ { talk (.active leg none) [cand] with posted := true } :=
  asking_ready _ _ _ _ (talk_cand_ok _ (by decide) nofun) ⟨by decide, by decide⟩ rfl rfl (by decide)

theorem full_port_inv {s : State} (h : s.Inv) (f : CtlFrame) :
    (s.setPort 0 ⟨.up, [], List.replicate 24 f, [], none⟩).Inv :=
  State.Inv.setPort h 0 _ ⟨Nat.zero_le _, by rw [List.length_replicate], Nat.zero_le _, List.nodup_nil⟩

/-- `RequestTaken`: admitted; refused by the hold, for congestion, by a closed zone, at a full cell, with 64 transactions
owed, and by a queue of 24 LEG-CLOSE-ALLs. -/
theorem witness_taken :
    (Ready ready ⟨5, 1, .quality, 0⟩ { talk (.active leg none) [cand] with posted := true } ∧
      TargetTakes ready caller att 1 ∧ (ready.cell 1).congested = false ∧ ready.hold.active = false) ∧
    ((held ready).Inv ∧ (held ready).hold.active = true) ∧
    (∃ s : State, s.Inv ∧ s.hrq = one ∧ (s.cell 1).congested = true ∧ checkStored s caller att 1 .handover = none) ∧
    (∃ s : State, s.Inv ∧ s.hrq = one ∧ TargetRefuses s caller att 1 .zoneClosed) ∧
    (∃ s : State, s.Inv ∧ s.hrq = one ∧ (s.cell 1).congested = false ∧ TargetRefuses s caller att 1 .cellFull) ∧
    (∃ s : State, s.Inv ∧ s.hrq = one ∧ (s.cell 1).congested = false ∧ TargetRefuses s caller att 1 .noTransaction) ∧
    ∃ s : State, s.Inv ∧ s.hrq = one ∧ (s.cell 1).congested = false ∧ checkStored s caller att 1 .handover = none ∧
      (s.cell 1).occupancy < (s.cell 1).capacity ∧ s.answers.length < 64 ∧ QueueRefuses 2 1 s := by
  have h := ready_ok.inv
  refine ⟨⟨ready_ok, ⟨by decide, by decide, by decide, by decide, .inl (by decide)⟩, by decide, by decide⟩,
    ⟨{ h with tables := { h.tables with } }, by decide⟩,
    ⟨ready.setCell 1 { cellUp with occupancy := 10, congested := true }, State.Inv.setCell h 1 _
      ⟨by decide, by decide, by decide, by decide, by decide, by decide, by decide, by decide, by decide, by decide, by decide, by decide⟩,
      by decide⟩,
    ⟨withZone ⟨true, .closed, 0⟩ ready, { h with tables := { h.tables with zones := rfl } }, by decide, .inl ⟨_, rfl, rfl⟩⟩,
    ⟨ready.setCell 1 { cellUp with occupancy := 12 }, State.Inv.setCell h 1 _
      ⟨by decide, by decide, by decide, by decide, by decide, by decide, by decide, by decide, by decide, by decide, by decide, by decide⟩,
      by decide, by decide, .inr ⟨by decide, .inl ⟨by decide, rfl⟩⟩⟩,
    ⟨{ ready with answers := (List.range 64).map fun n => ⟨BitVec.ofNat 12 n, 0, 0, 0, false⟩ },
      { h with tables := { h.tables with }, answers := ⟨by decide +kernel, by decide +kernel⟩ }, by decide, by decide,
      .inr ⟨by decide, .inr ⟨by decide, by decide +kernel, rfl⟩⟩⟩,
    ⟨ready.setPort 0 ⟨.up, [], List.replicate 24 (.legCloseAll 0), [], none⟩, full_port_inv h _, by decide, by decide,
      by decide, by decide, by decide, .inr ⟨by decide, by decide⟩⟩⟩

/-- A RESCUE request of channel 5 toward a cell. -/
def rescueTo (c : CellIx) : Hrq := ⟨[⟨5, c, .rescue, 0⟩], []⟩

/-- `RescueRequestTaken`: an ACTIVE and a RESCUING call, toward a cell that takes it, toward one not present with a candidate
left and with none, and toward a queue of 24 HO-CMDs. -/
theorem witness_rescue_taken :
    (∀ ph, ph = .active leg none ∨ ph = .rescuing none 900 →
      (Ready (asking ph [cand] (rescueTo 1)) ⟨5, 1, .rescue, 0⟩ { talk ph [cand] with posted := true } ∧
        TargetTakes (asking ph [cand] (rescueTo 1)) caller att 1) ∧
      (Ready (asking ph [lost, cand] (rescueTo 63)) ⟨5, 63, .rescue, 0⟩ { talk ph [lost, cand] with posted := true } ∧
        RescueRefused (asking ph [lost, cand] (rescueTo 63)) caller att 63 .cellUnknown ∧
        bestCandidate (without 63 [lost, cand]) = some cand ∧
        TargetTakes (asking ph [lost, cand] (rescueTo 63)) caller att 1) ∧
      (Ready (asking ph [lost] (rescueTo 63)) ⟨5, 63, .rescue, 0⟩ { talk ph [lost] with posted := true } ∧
        RescueRefused (asking ph [lost] (rescueTo 63)) caller att 63 .cellUnknown ∧ without 63 [lost] = [])) ∧
    ∃ s : State, s.Inv ∧ s.hrq = rescueTo 1 ∧ RescueRefused s caller att 1 .queueFull ∧ without 1 [cand] = [] := by
  have hk : ∀ ph, ph = .active leg none ∨ ph = .rescuing none 900 → (talk ph [cand]).Ok := fun ph h => by
    rcases h with rfl | rfl <;> exact talk_cand_ok _ (by decide) nofun
  have hl : ∀ ph cs, ph = .active leg none ∨ ph = .rescuing none 900 → cs = [lost] ∨ cs = [lost, cand] →
      (talk ph cs).Ok := fun ph cs h hc => by
    rcases h with rfl | rfl
    · exact talk_lost_ok _ _ hc (.inr rfl) nofun
    · exact talk_lost_ok _ _ hc (.inl rfl) nofun
  refine ⟨fun ph h => ⟨⟨asking_ready _ _ _ _ (hk ph h) ⟨by decide, by decide⟩ rfl rfl ?_,
      ⟨by rfl, by show 0 < 12; decide, by show 0 < 64; decide, by rfl, .inl (by show 0 < 24; decide)⟩⟩,
    ⟨asking_ready _ _ _ _ (hl ph _ h (.inr rfl)) ⟨by decide, by decide⟩ rfl rfl ?_, .inl (.inl ⟨_, rfl, rfl⟩), by decide,
      ⟨by rfl, by show 0 < 12; decide, by show 0 < 64; decide, by rfl, .inl (by show 0 < 24; decide)⟩⟩,
    ⟨asking_ready _ _ _ _ (hl ph _ h (.inl rfl)) ⟨by decide, by decide⟩ rfl rfl ?_, .inl (.inl ⟨_, rfl, rfl⟩), by decide⟩⟩,
    ⟨(asking (.rescuing none 900) [cand] (rescueTo 1)).setPort 0 ⟨.up, [], List.replicate 24 (.hoCmd 0 9 6 8 1 0), [], none⟩,
      full_port_inv (asking_ready _ _ _ _ (hk _ (.inr rfl)) ⟨by decide, by decide⟩ rfl rfl (by decide)).inv _, by decide,
      .inr ⟨by decide, by decide, by decide, .inr ⟨by decide, by decide⟩, rfl⟩, by decide⟩⟩
  all_goals rcases h with rfl | rfl <;> decide

/-- `LegLostJudged`, a rescue taken at once: an ACTIVE call with a candidate that takes it, and no request. -/
theorem witness_rescued_at_once :
    ∃ s : State, s.Inv ∧ Heard 0 s ∧ s.call 5 = some (talk (.active leg none) [cand]) ∧ bestCandidate [cand] = some cand ∧
      (s.cell 0).service = .inService ∧ s.hrq.total = 0 ∧ s.inExecution < 16 ∧
      (∀ y j, s.call y = some j → j.waitsForRoom = false) ∧ (s.record 0).enrolled = some caller ∧
      caller.loc.attachment = some att ∧ TargetTakes s caller att 1 :=
  ⟨inCall (.active leg none) [cand] [] ⟨[], []⟩, inCall_cand_inv _ _ (by decide) (by decide) nofun, ⟨rfl, rfl⟩, by decide,
    by decide, by decide, by decide, by decide, lab_waits rfl, by decide, by decide,
    ⟨by decide, by decide, by decide, by decide, .inl (by decide)⟩⟩

/-- `DeadlinesPass`: a rescue whose deadline is now, with its own request waiting alone, with that of another channel while
16 contexts are in execution, and with an attempt pending. -/
theorem witness_rescue_ends :
    (∃ s : State, s.hrq = rescueTo 1 ∧ s.call 5 = some { talk (.rescuing none 0) [cand] with posted := true } ∧ due 0 s ∧
      (s.hrq.without 5).total = 0 ∧ ∀ y j, y ≠ 5 → s.call y = some j → j.waitsForRoom = false) ∧
    (∃ s : State, 0 < (s.hrq.without 5).total ∧ s.call 5 = some { talk (.rescuing none 0) [cand] with posted := true } ∧
      due 0 s ∧ 16 ≤ s.inExecution ∧ ∀ y j, y ≠ 5 → s.call y = some j → j.waitsForRoom = false) ∧
    ∃ s : State, s.hrq.total = 0 ∧ s.call 5 = some (talk (.rescuing (some (target, 9)) 0) [cand]) ∧ due 0 s ∧
      s.answerOf 9 = some ⟨9, 5, 1, 0, false⟩ := by
  refine ⟨⟨asking (.rescuing none 0) [cand] (rescueTo 1), rfl, by decide, by unfold due; decide, by decide,
      fun y j _ h => lab_waits rfl y j h⟩,
    ⟨lab (.engaged att 5) (crowd { talk (.rescuing none 0) [cand] with posted := true }) []
        ⟨[⟨5, 1, .rescue, 0⟩, ⟨6, 1, .rescue, 0⟩], []⟩, by decide, by decide, by unfold due; decide, by decide +kernel, ?_⟩,
    ⟨inCall (.rescuing (some (target, 9)) 0) [cand] [⟨9, 5, 1, 0, false⟩] ⟨[], []⟩, by decide, by decide,
      by unfold due; decide, by decide⟩⟩
  have h : ∀ y : Channel, y ≠ 5 → ((lab (.engaged att 5) (crowd { talk (.rescuing none 0) [cand] with posted := true }) []
      ⟨[⟨5, 1, .rescue, 0⟩, ⟨6, 1, .rescue, 0⟩], []⟩).call y).map Call.waitsForRoom ≠ some true := by decide +kernel
  intro y j hy hj
  have := h y hy
  rw [hj] at this
  simpa using this

/-- `DeadlinesPass`: a guard, a bridge and a rescue whose deadline is now, and contexts that hold none. -/
theorem witness_context_deadlines :
    (inCall (.active leg (some 0)) [] [] ⟨[], []⟩).Inv ∧
      (talk (.active leg (some 0)) []).phase.guardDeadline = some 0 ∧ due 0 (inCall (.active leg (some 0)) [] [] ⟨[], []⟩) ∧
      (inCall (.bridging leg none target 4 0) [] [] ⟨[], []⟩).call 5 = some (talk (.bridging leg none target 4 0) []) ∧
      (inCall (.rescuing none 0) [cand] [] ⟨[], []⟩).call 5 = some (talk (.rescuing none 0) [cand]) ∧
      site.call 5 = none ∧ site.hrq.total = 0 :=
  ⟨inCall_inv _ _ (by decide), by decide, by unfold due; decide, by decide, by decide, by decide, by decide⟩

/-- `OfferJudged`: DOWN, 23 entries, 24 of no lower priority, and 24 of which one is lower. -/
theorem witness_offer :
    (site.port (portOf 16)).link = .down ∧ (site.port (portOf 0)).link = .up ∧
      (List.replicate 23 (CtlFrame.page 0 7)).length < 24 ∧ 24 ≤ (List.replicate 24 (CtlFrame.page 0 7)).length ∧
      (∀ v ∈ List.replicate 24 (CtlFrame.page 0 7), (CtlFrame.page 0 7).priority ≤ v.priority) ∧
      (CtlFrame.page 0 7).priority < (CtlFrame.attachAck 0 7 .accepted).priority := by decide +kernel

/-- `PortChoosesNext`: voice; a LEG-OPEN of priority 3 without and with its pair; the lowest pair; priority 2; and nothing.
-/
theorem witness_choice :
    (CtlFrame.legOpen 0 1 5 7 .rescue).priority = 3 ∧ ((0 : CellIx), (5 : Channel)) ∈ [((0 : CellIx), (5 : Channel))] ∧
      ((0 : CellIx), (5 : Channel)) ∉ [((1 : CellIx), (5 : Channel))] ∧
      (∀ q ∈ [((0 : CellIx), (5 : Channel)), (1, 5)], (5 : Channel) < q.2 ∨ ((5 : Channel) = q.2 ∧ (0 : CellIx) ≤ q.1)) ∧
      (CtlFrame.page 0 7).priority < (CtlFrame.cellRestart 0).priority ∧ (site.port 0).ctl = [] ∧
      (site.port 0).closes = [] ∧ (site.port 0).lane = [] :=
  ⟨by decide, by simp, by decide, by simp, by decide, by decide, by decide, by decide⟩

/-- `CallOpenAdmitted`, the number, and `HoldCommandsAnswered`: 64 entries; a fill of HRQ_HIGH that reaches 24 from 23, and
one that falls to 16 from 17. -/
theorem witness_numbers :
    ((List.range 64).map fun n => (⟨BitVec.ofNat 12 n, 0, 0, 0, false⟩ : Answer)).length ≤ 64 ∧
      ∀ n ∈ [16, 17, 23, 24], ∃ s : State, s.hrq.total = n :=
  ⟨by decide +kernel, fun n _ => ⟨{ site with hrq := ⟨List.replicate n ⟨5, 1, .rescue, 0⟩, []⟩ },
    by simp [Hrq.total]⟩⟩

/-- A page under way for handset 7, and a full page list for another. -/
def paged (n : Nat) : PageEntry := ⟨7, 0, [0], false, .paging n 0⟩

/-- `PageRequested`, `PageAnswered`: not registered, in a call, a page under way, a full list, a free entry; attempts 1 and
8; an occasion that is due with attempts, without, and with no cell in service. -/
theorem witness_pages :
    site.trunk.link = .up ∧ 1 ≤ (1 : Byte).toNat ∧ (8 : Byte).toNat ≤ 8 ∧ site.findHid 9 = none ∧ site.findHid 7 = some 0 ∧
      (∃ s : State, s.trunk.link = .up ∧ s.findHid 7 = some 0 ∧ s.page 3 = some (paged 2) ∧ due 0 s ∧
        (∀ f q, f ≠ 3 → s.page f = some q → q.hid = 7 → q.paging = false) ∧ (s.cell 0).live = true ∧
        (s.port (portOf 0)).link = .up ∧ (s.port (portOf 0)).ctl.length < 24) ∧
      (∃ s : State, s.findHid 7 = some 0 ∧ (∀ e p, s.page e = some p → p.hid = 7 → p.paging = false) ∧
        ∀ e, s.page e ≠ none) ∧
      ((∀ e p, site.page e = some p → p.hid = 7 → p.paging = false) ∧ site.page 0 = none) ∧
      (∃ s : State, s.page 3 = some (paged 0) ∧ due 0 s ∧ s.notices.length < 64) ∧
      ∃ s : State, s.page 3 = some (paged 8) ∧ due 0 s ∧ (s.cell 0).live = false := by
  refine ⟨by decide, by decide, by decide, by decide, by decide,
    ⟨{ site with pages := ⟨[(3, some (paged 2))]⟩ }, by decide, by decide, by decide, by unfold due; decide,
      fun f q hf hq => ?_, by decide, by decide, by decide⟩,
    ⟨{ site with pages := ⟨(allIndices 16).map fun e => (e, some ⟨7, 0, [0], false, .settled .busy true⟩)⟩ }, by decide,
      ?_, by decide +kernel⟩,
    ⟨fun _ _ h => (nomatch h), by decide⟩,
    ⟨{ site with pages := ⟨[(3, some (paged 0))]⟩ }, by decide, by unfold due; decide, by decide⟩,
    ⟨withCell CellRec.blank { site with pages := ⟨[(3, some (paged 8))]⟩ }, by decide, by unfold due; decide, by decide⟩⟩
  · simp only [State.page, Table.get, lookupIx] at hq
    rw [if_neg (fun h => hf h.symm)] at hq
    cases hq
  · have h : ∀ e : PageIx, ({ site with pages := ⟨(allIndices 16).map fun e =>
        (e, some ⟨7, 0, [0], false, .settled .busy true⟩)⟩ } : State).page e =
          some ⟨7, 0, [0], false, .settled .busy true⟩ := by decide +kernel
    intro e p hp _
    rw [h e] at hp
    cases hp
    rfl

/-- `PageAnswered`: a response from cell 1 for a page of handset 7, which cell 1 admits and which a closed zone turns away;
and an occasion of one cell whose port holds 24 frames. -/
theorem witness_page_elsewhere :
    (∃ s : State, Heard 1 s ∧ s.findHid 7 = some 0 ∧ (s.record 0).enrolled = some ⟨7, 1, 2, none, .attached att 0⟩ ∧
      att.cell ≠ 1 ∧ s.page 3 = some (paged 2) ∧ (paged 2).hid = 7 ∧ (paged 2).paging = true ∧
      checkStored s ⟨7, 1, 2, none, .attached att 0⟩ att 1 .location = none) ∧
    (∃ (s : State) (v : Denial), Heard 1 s ∧ s.findHid 7 = some 0 ∧ s.page 3 = some (paged 2) ∧
      (s.record 0).enrolled = some ⟨7, 1, 2, none, .attached att 0⟩ ∧
      checkStored s ⟨7, 1, 2, none, .attached att 0⟩ att 1 .location = some v) ∧
    ∃ s : State, s.page 3 = some (paged 8) ∧ due 0 s ∧ (s.cell 0).live = true ∧ (s.port (portOf 0)).link = .up ∧
      24 ≤ (s.port (portOf 0)).ctl.length :=
  ⟨⟨{ site with pages := ⟨[(3, some (paged 2))]⟩ }, ⟨rfl, rfl⟩, by decide⟩,
    ⟨withZone ⟨true, .closed, 3⟩ { site with pages := ⟨[(3, some (paged 2))]⟩ }, _, ⟨rfl, rfl⟩, by decide, by decide,
      by decide, rfl⟩,
    ⟨withPort ⟨.up, [], List.replicate 24 (.legCloseAll 0), [], none⟩ { site with pages := ⟨[(3, some (paged 8))]⟩ },
      by decide, by unfold due; decide, by decide, by decide, by decide⟩⟩

/-- `PageRequested`, `PageAnswered`, the last free place: cells 0 and 1 of one port with 22 entries, where both PAGEs are
taken, and with 23, where the first is. -/
theorem witness_pages_sent :
    (∃ s : State, s.page 3 = some { paged 8 with cells := [0, 1] } ∧ due 0 s ∧ (s.cell 1).live = true ∧
      (s.port (portOf 1)).link = .up ∧ (s.port (portOf 1)).ctl.length + (livesOn s (portOf 1) [0]).length < 24) ∧
    ∃ s : State, s.page 3 = some { paged 8 with cells := [0, 1] } ∧ due 0 s ∧ (s.cell 0).live = true ∧
      (s.port (portOf 0)).ctl.length + (livesOn s (portOf 0) []).length < 24 ∧
      24 ≤ (s.port (portOf 1)).ctl.length + (livesOn s (portOf 1) [0]).length :=
  ⟨⟨withPort ⟨.up, [], List.replicate 22 (.legCloseAll 0), [], none⟩
        { site with pages := ⟨[(3, some { paged 8 with cells := [0, 1] })]⟩ },
      by decide, by unfold due; decide, by decide, by decide, by decide⟩,
    ⟨withPort ⟨.up, [], List.replicate 23 (.legCloseAll 0), [], none⟩
        { site with pages := ⟨[(3, some { paged 8 with cells := [0, 1] })]⟩ },
      by decide, by unfold due; decide, by decide, by decide, by decide⟩⟩

/-- `SweepCommandsAnswered`, `SweepStepTaken`: each state of the engine, with the hold active and not; the cursor at 0, at an
ATTACHED record, with each kind, and at 1023. -/
theorem witness_sweep :
    site.sweep.state = .idle ∧ (held site).hold.active = true ∧ site.hold.active = false ∧
      (∃ s : State, s.sweep.state = .running ∧ s.sweep.kind = some (.purgeGroup 2) ∧ s.sweep.cursor = (0 : RecIx).val ∧
        (s.record 0).enrolled = some ⟨7, 1, 2, none, .attached att 0⟩) ∧
      (∃ s : State, s.sweep.state = .running ∧ s.sweep.kind = some .expireVisitors ∧ s.sweep.cursor = (1023 : RecIx).val ∧
        (s.record 1023).enrolled = some ⟨7, 1, 2, none, .attached att 0⟩ ∧ 896 ≤ (1023 : RecIx).val) ∧
      (∃ (s : State) (v : Denial), s.sweep.state = .running ∧ s.sweep.kind = some .revalidate ∧
        s.sweep.cursor = (0 : RecIx).val ∧ (s.record 0).enrolled = some ⟨7, 1, 2, none, .attached att 0⟩ ∧
        checkStored s ⟨7, 1, 2, none, .attached att 0⟩ att 0 .location = some v) ∧
      ∃ s : State, s.sweep.state = .suspended true :=
  ⟨by decide, by decide, by decide,
    ⟨{ site with sweep := ⟨.running, some (.purgeGroup 2), 0, 0, .none⟩ }, by decide⟩,
    ⟨{ site with
      sweep := ⟨.running, some .expireVisitors, 1023, 0, .none⟩, records := ⟨[(1023, person (.attached att 0))]⟩ },
      by decide⟩,
    ⟨{ withZone ⟨true, .closed, 0⟩ site with sweep := ⟨.running, some .revalidate, 0, 0, .none⟩ }, _, by decide, by decide,
      by decide, by decide, rfl⟩,
    ⟨{ site with sweep := ⟨.suspended true, some .revalidate, 5, 0, .none⟩ }, by decide⟩⟩

/-- `StepKeepsNotices`, `StepKeepsRequests`, `StepKeepsPages`: an outcome that waits in the notice queue, a request of an
ACTIVE call, and a page under way. -/
theorem witness_kept :
    (∃ s t : State, s.OutcomesOk ∧ s.notices = [.pageOutcome 3] ∧ step s = .next t) ∧
    (∃ t, ready.Inv ∧ ready.RequestsOk ∧ step ready = .next t) ∧
    ∃ s t : State, s.Inv ∧ s.PagesOk ∧ s.page 3 = some (paged 2) ∧ step s = .next t := by
  have one : ∀ (p : PageEntry) (e : PageIx) (q : PageEntry),
      ({ site with pages := ⟨[(3, some p)]⟩ } : State).page e = some q → e = 3 ∧ q = p := fun p e q h => by
    simp only [State.page, Table.get, lookupIx] at h
    split at h
    · next he => cases h; exact ⟨he.symm, rfl⟩
    · cases h
  have called : ∀ {x : Channel} {k : Call}, ready.call x = some k →
      x = 5 ∧ k = { talk (.active leg none) [cand] with posted := true } := fun hx => by
    simp only [ready, asking, lab, State.call, Table.get, lookupIx] at hx
    split at hx
    · next he => cases hx; exact ⟨he.symm, rfl⟩
    · cases hx
  refine ⟨⟨{ site with
      notices := [.pageOutcome 3], pages := ⟨[(3, some ⟨7, 0, [0], false, .settled .noAnswer true⟩)]⟩ }, _,
      ⟨fun e => ⟨fun ⟨p, _, hp, _⟩ => ?_, fun h => ?_⟩, fun e => ?_, fun _ e p o hp hs => ?_⟩, rfl, rfl⟩,
    ⟨_, ready_ok.inv, ⟨nofun, fun r hr => ?_, fun r hr => ?_, fun x k hx => ?_, fun x k d hx hp => ?_, fun _ => ?_,
      fun r hr k l hx hl => ?_, fun x k l t hx _ ht => ?_⟩, rfl⟩,
    ⟨{ site with pages := ⟨[(3, some (paged 2))]⟩ }, _, ?_, ⟨fun e f p q he hf _ _ _ => ?_, fun e p he _ => ?_,
      fun e p m d he hp => ?_⟩, rfl, rfl⟩⟩
  · rw [(one _ _ _ hp).1]; exact List.mem_singleton.2 rfl
  · cases List.mem_singleton.1 h; exact ⟨_, _, rfl, rfl⟩
  · exact List.count_le_length
  · rw [(one _ _ _ hp).2] at hs; cases hs
  · rw [List.mem_singleton.1 hr]; exact .inl rfl
  · rw [List.mem_singleton.1 hr]; exact ⟨_, rfl, .inl ⟨_, _, rfl⟩⟩
  · rw [(called hx).1, (called hx).2]; decide
  · rw [(called hx).2] at hp; cases hp
  · exact ready_ok.waits
  · rw [(called hx).2] at hl; cases hl; rw [List.mem_singleton.1 hr]; decide
  · rw [(called hx).2] at ht; cases ht
  · exact { site_inv with tables := { site_inv.tables with pages := rfl } }
  · rw [(one _ _ _ he).1, (one _ _ _ hf).1]
  · rw [(one _ _ _ he).2]; exact ⟨_, _, _, rfl, rfl, rfl⟩
  · rw [(one _ _ _ he).2] at hp; cases hp; decide

/-- `StepKeepsOccupancy`: a PREPARING call with its leg at cell 0 and its open to cell 1 pending. -/
theorem witness_occupied :
    ∃ s t : State, s.Inv ∧ s.OccupancyOk ∧ s.call 5 = some (talk (.preparing leg none target 9) []) ∧
      (s.cell 0).occupancy = 1 ∧ (s.cell 1).occupancy = 1 ∧ step s = .next t := by
  let u : State := inCall (.preparing leg none target 9) [] [⟨9, 5, 1, 0, false⟩] ⟨[], []⟩
  have hc : ({ cellUp with occupancy := 1 } : CellRec).Ok :=
    ⟨by decide, by decide, by decide, by decide, by decide, by decide, by decide, by decide, by decide, by decide, by decide, by decide⟩
  refine ⟨(u.setCell 0 { cellUp with occupancy := 1 }).setCell 1 { cellUp with occupancy := 1 }, _,
    State.Inv.setCell (State.Inv.setCell (inCall_inv _ _ (by decide)) 0 _ hc) 1 _ hc, ⟨by decide +kernel, fun x c n => ?_⟩,
    by decide, by decide, by decide, rfl⟩
  constructor
  · rintro ⟨k, hk, hn⟩
    have h : u.call x = some k := hk
    simp only [u, inCall, lab, State.call, Table.get, lookupIx] at h
    split at h
    · next he =>
      cases h; cases List.mem_singleton.1 hn
      exact ⟨_, List.mem_singleton.2 rfl, rfl, he, rfl, rfl⟩
    · cases h
  · rintro ⟨a, ha, rfl, rfl, rfl, -⟩
    cases List.mem_singleton.1 ha
    exact ⟨talk (.preparing leg none target 9) [], by decide, by decide⟩

/-- `CellPortLineEvents`, the flush, and `PendingOpenFails` and `LegAckDelivered`, an eviction: a LEG-OPEN without an entry,
with a cancelled one, and with that of an open, of a target and of an attempt; an HO-CMD of a bridge, and of a call that is
not BRIDGING. -/
theorem witness_flush :
    (CtlFrame.page 0 7).openTxn = none ∧ (CtlFrame.page 0 7).hoChannel = none ∧
    (CtlFrame.legOpen 1 9 5 7 .handover).openTxn = some 9 ∧ (CtlFrame.hoCmd 0 9 5 7 1 4).hoChannel = some 5 ∧
    (site.Inv ∧ site.answerOf 9 = none) ∧
    (∃ s : State, s.Inv ∧ s.answerOf 9 = some ⟨9, 5, 1, 0, true⟩) ∧
    (∀ ph, ph ∈ [Phase.opening 1 9, .preparing leg none target 9] → ∃ s : State, s.Inv ∧
      s.answerOf 9 = some ⟨9, 5, 1, 0, false⟩ ∧ s.call 5 = some (talk ph [])) ∧
    (∃ s : State, s.Inv ∧ s.answerOf 9 = some ⟨9, 5, 0, 0, false⟩ ∧
      s.call 5 = some (talk (.rescuing (some (⟨0, .rescue, .rescue⟩, 9)) 900) [back, cand])) ∧
    ∃ s : State, s.Inv ∧ s.call 5 = some (talk (.bridging leg none target 4 200) []) ∧ (site.call 5 = none) :=
  ⟨rfl, rfl, rfl, rfl, ⟨site_inv, by decide⟩,
    ⟨lab .absent [] [⟨9, 5, 1, 0, true⟩] ⟨[], []⟩, lab_inv _ _ _ _ rfl (by decide) hrq_empty_ok nofun, by decide⟩,
    fun ph _ => ⟨inCall ph [] [⟨9, 5, 1, 0, false⟩] ⟨[], []⟩, inCall_inv _ _ (by decide), rfl, rfl⟩,
    ⟨attempt [back, cand], attempt_inv _ (.inl rfl), by decide, by decide⟩,
    ⟨inCall (.bridging leg none target 4 200) [] [] ⟨[], []⟩, inCall_inv _ _ (by decide), by decide⟩⟩

/-- `CellLossReachesEveryContext`, the share of one context: an initial open, a serving leg and a target at a cell that is
lost, the other elsewhere; both on one port; and none there; with a candidate and without. -/
theorem witness_cell_loss :
    (∀ ph, ∃ s : State, s.Inv ∧ s.call 5 = some (talk ph [])) ∧
    (∀ ph, ph ∈ [Phase.active leg none, .preparing leg none target 9, .bridging leg none target 4 200,
        .rescuing (some (target, 9)) 900] → ∃ s : State, s.Inv ∧ s.call 5 = some (talk ph [cand]) ∧
      bestCandidate [cand] = some cand) ∧
    (Phase.preparing leg none target 9).serving = some leg ∧ (Phase.preparing leg none target 9).target = some target ∧
    (Phase.bridging leg none target 4 200).serving = some leg ∧
    (Phase.bridging leg none target 4 200).target = some target ∧
    (Phase.rescuing (some (target, 9)) 900).target = some target ∧ leg.cell ≠ target.cell ∧
    portOf leg.cell = portOf target.cell ∧ (inCall (.opening 0 9) [] [⟨9, 5, 0, 0, false⟩] ⟨[], []⟩).answerOf 9 ≠ none := by
  refine ⟨fun ph => ⟨inCall ph [] [] ⟨[], []⟩, inCall_inv _ _ (by decide), rfl⟩, fun ph h => ?_, by decide⟩
  refine ⟨inCall ph [cand] [] ⟨[], []⟩, inCall_cand_inv _ _ (by decide) ?_ ?_, rfl, by decide⟩
  · fin_cases h <;> decide
  · fin_cases h <;> nofun

/-- `RecordReleased`, `HandsetReleased`: a call whose cell admits its handset after it, and one whose zone is closed, with
room for the ATTACH-ACK. -/
theorem witness_released :
    (∃ s : State, (s.record 0).enrolled = some caller ∧ caller.loc = .engaged att 5 ∧
      checkStored s caller att 0 .location = none) ∧
    ∃ (s : State) (v : Denial), (s.record 0).enrolled = some caller ∧ checkStored s caller att 0 .location = some v ∧
      (s.port (portOf 0)).link = .up ∧ (s.port (portOf 0)).ctl.length < 21 :=
  ⟨⟨inCall (.active leg none) [] [] ⟨[], []⟩, by decide⟩,
    ⟨withZone ⟨true, .closed, 0⟩ (inCall (.active leg none) [] [] ⟨[], []⟩), _, by decide, rfl, by decide⟩⟩

/-- `LegAckDelivered`: the READY of a target whose HO-CMD is refused by 24 entries of priority 3. -/
theorem witness_ho_cmd_refused :
    ∃ s : State, s.Inv ∧ Heard 1 s ∧ s.answerOf 4095 = some ⟨4095, 5, 1, 0, false⟩ ∧ s.hrq.total = 0 ∧
      s.call 5 = some (talk (.preparing leg none target 4095) []) ∧ QueueRefuses 3 leg.cell s ∧
      ∀ f ∈ (s.port (portOf leg.cell)).ctl, f.openTxn ≠ some 4095 :=
  ⟨(inCall (.preparing leg none target 4095) [] [⟨4095, 5, 1, 0, false⟩] ⟨[], []⟩).setPort 0
      ⟨.up, [], List.replicate 24 (.hoCmd 0 9 6 8 1 0), [], none⟩,
    full_port_inv (inCall_inv _ _ (by decide)) _, ⟨rfl, rfl⟩, by decide, by decide, by decide,
    .inr ⟨by decide, by decide⟩, by decide⟩

/-- `LegAckDelivered`: the READY of a target whose HO-CMD evicts the newest of two LEG-OPENs of priority 2 from a queue that
is full with HO-CMDs. -/
theorem witness_ho_cmd_evicts :
    ∃ s : State, s.Inv ∧ Heard 1 s ∧ s.answerOf 4095 = some ⟨4095, 5, 1, 0, false⟩ ∧ s.hrq.total = 0 ∧
      s.call 5 = some (talk (.preparing leg none target 4095) []) ∧ (s.record 0).enrolled = some caller ∧
      (s.port (portOf leg.cell)).link = .up ∧ (s.port (portOf leg.cell)).ctl =
        [.hoCmd 0 9 6 8 1 0, .legOpen 1 3 8 8 .initial] ++ .legOpen 1 9 6 8 .handover :: List.replicate 21 (.hoCmd 0 9 6 8 1 0) ∧
      24 ≤ (s.port (portOf leg.cell)).ctl.length ∧ (CtlFrame.legOpen 1 9 6 8 .handover).priority = 2 ∧
      (∀ o ∈ [CtlFrame.hoCmd 0 9 6 8 1 0, .legOpen 1 3 8 8 .initial], 2 ≤ o.priority) ∧
      (∀ o ∈ List.replicate 21 (CtlFrame.hoCmd 0 9 6 8 1 0), o.priority = 3) ∧
      ∀ o ∈ (s.port (portOf leg.cell)).ctl, o.openTxn ≠ some 4095 :=
  ⟨(inCall (.preparing leg none target 4095) [] [⟨4095, 5, 1, 0, false⟩] ⟨[], []⟩).setPort 0
      ⟨.up, [], [.hoCmd 0 9 6 8 1 0, .legOpen 1 3 8 8 .initial] ++ .legOpen 1 9 6 8 .handover ::
        List.replicate 21 (.hoCmd 0 9 6 8 1 0), [], none⟩,
    State.Inv.setPort (inCall_inv _ _ (by decide)) 0 _ ⟨by decide, by decide, by decide, by decide⟩, ⟨rfl, rfl⟩, by decide,
    by decide, by decide, by decide, by decide, by decide, by decide, by decide, by decide, by decide, by decide⟩

/-- `BridgeVoiceCommits`: the trunk DOWN, and UP with a full voice lane and a frame in transmission; a record whose notice is
queued. -/
theorem witness_commit :
    (∃ s : State, Heard 1 s ∧ s.call 5 = some (talk (.bridging leg none target 4 200) []) ∧ s.hrq.total = 0 ∧
      s.trunk.link = .down) ∧
    ∃ s : State, Heard 1 s ∧ s.call 5 = some (talk (.bridging leg none target 4 200) []) ∧ s.hrq.total = 0 ∧
      s.trunk.link = .up ∧ s.trunk.tx ≠ none ∧ ¬ s.trunk.voice.length < 32 ∧ (s.record 0).enrolled = some caller ∧
      (s.record 0).queued = true :=
  ⟨⟨{ inCall (.bridging leg none target 4 200) [] [] ⟨[], []⟩ with trunk := Trunk.blank }, ⟨rfl, rfl⟩, by decide⟩,
    ⟨{ inCall (.bridging leg none target 4 200) [] [] ⟨[], []⟩ with
      trunk := ⟨.up, List.replicate 32 ⟨3, 0, []⟩, [], some (.vox ⟨3, 0, []⟩), []⟩
      records := ⟨[(0, { person (.engaged att 5) with queued := true })]⟩ }, ⟨rfl, rfl⟩, by decide⟩⟩

/-- `SweepCommandsAnswered`, the rows of the hold: a hold that HOLD_SET begins, with a sweep running and none; one already
active; and one that HOLD_CLEAR ends, with a sweep suspended by it. -/
theorem witness_sweep_hold :
    (∃ s : State, Executing 1 (asksFor 0x20) s ∧ s.hold.active = false ∧ s.hold.management.enable = true ∧
      s.sweep.state = .running) ∧
    (Executing 1 (asksFor 0x20) (asked 0x20 [] site) ∧ (asked 0x20 [] site).hold.active = false ∧
      (asked 0x20 [] site).hold.management.enable = true ∧ (asked 0x20 [] site).sweep.state ≠ .running) ∧
    (Executing 1 (asksFor 0x20) (asked 0x20 [] (held site)) ∧ (asked 0x20 [] (held site)).hold.active = true) ∧
    ∃ s : State, s.Inv ∧ Executing 1 (asksFor 0x21) s ∧ s.hold.active = true ∧
      (∀ src ∈ [s.hold.hrqHigh, s.hold.txnHigh, s.hold.noticeFull], src.enable = false ∨ src.raw = false) ∧
      s.sweep.state = .suspended true :=
  ⟨⟨asked 0x20 [] { site with sweep := ⟨.running, some .revalidate, 5, 0, .none⟩ }, asked_executing _ (by decide),
      by decide⟩,
    ⟨asked_executing _ (by decide), by decide⟩, ⟨asked_executing _ (by decide), by decide⟩,
    ⟨asked 0x21 [] (held { site with sweep := ⟨.suspended true, some .revalidate, 5, 0, .none⟩ }),
      asked_inv 0x21 [] { site_inv with tables := { site_inv.tables with }, sweep := ⟨by decide, by decide, by decide⟩ },
      asked_executing _ (by decide), by decide⟩⟩

/-- `ResponseHanded`, `RestartClears`, `TrunkLineEvents`: a response to be discarded while the trunk is UP, and a request in
execution at a line-down. -/
theorem witness_discarded :
    (∃ s : State, s.Inv ∧ Executing 1 (asksFor 0x7F) s ∧ s.mgmtMuted = true ∧ s.trunk.link = .up ∧ s.trunk.replies = [] ∧
      s.trunk.tx = none) ∧ (asked 0x20 [] site).trunk.link = .up ∧ (asked 0x20 [] site).mgmtNow.isSome = true :=
  ⟨⟨asked 0x7F [] { site with mgmtMuted := true },
    { asked_inv 0x7F [] site_inv with tables := { (asked_inv 0x7F [] site_inv).tables with }, muted := fun _ => nofun },
    asked_executing _ (by decide), by decide⟩, by decide, by decide⟩

/-- `TableWritesJudged`, a field number that the table does not have: a subscriber present and one not, with the tables of
zones and gates locked and not. -/
theorem witness_unknown_fields :
    (site.record (subscriberIx 0)).enrolled ≠ none ∧ (site.record (subscriberIx 895)).enrolled = none ∧
      site.sweep.state = .idle ∧ ∃ s : State, s.sweep.state ≠ .idle ∧ s.sweep.kind = some .revalidate :=
  ⟨by decide, by decide, by decide, ⟨{ site with sweep := ⟨.running, some .revalidate, 5, 0, .none⟩ }, by decide⟩⟩

/-- `ResponseHanded`, `ReadsAnswered`, `TableWritesJudged`, `HoldCommandsAnswered`, `SweepCommandsAnswered`: a row without
its request; requests in execution for the rows; the last index of a table and the one after; a refused write; the lock. -/
theorem witness_management :
    (managementRow (.holdSet 1) = some (1, asksFor 0x20) ∧ ¬ Executing 1 (asksFor 0x20) site) ∧
      (∃ s : State, Executing 1 (asksFor 0x20) s ∧ s.trunk.mgmtIn = []) ∧
      (∃ s : State, Executing 1 (asksFor 0x20) s ∧ s.trunk.mgmtIn = [⟨2, 0x21, []⟩]) ∧
      (Executing 1 failsForm (asked 0xFF [] site) ∧ ∀ code ∈ ([0x01, 0x21, 0x31, 0x32, 0x33, 0x34] : List Byte),
        Executing 1 (asksFor code) (asked code [] site)) ∧
      (∀ code ∈ ([0x02, 0x03, 0x04, 0x05, 0x22, 0x23, 0x30, 0x50] : List Byte),
        Executing 1 (asksFor code) (asked code [0] site)) ∧
      TableId.subscriber ≠ .unknown ∧ TableId.subscriber.size ≤ 896 ∧ 895 < TableId.subscriber.size ∧ (5 : Nat) < 6 ∧
      (tableWrite 16 (.zone true (some .closed) 0) site).2.result = .badIndex ∧
      (fieldModify 0 (.cell (.capacity 13)) site).2.result = .badValue ∧
      (tableClear .cell 0 site).2.result = .structural ∧
      ∃ s : State, s.sweep.state ≠ .idle ∧ s.sweep.kind = some .revalidate :=
  ⟨⟨rfl, fun ⟨_, h, _⟩ => nomatch h⟩, ⟨asked 0x20 [] site, asked_executing _ (by decide), by decide⟩,
    ⟨asked 0x20 [] { site with trunk := ⟨.up, [], [], none, [⟨2, 0x21, []⟩]⟩ }, asked_executing _ (by decide), by decide⟩,
    ⟨asked_executing _ (by decide), fun code h => asked_executing _
      ((by decide : ∀ c ∈ ([0x01, 0x21, 0x31, 0x32, 0x33, 0x34] : List Byte), asksFor c ⟨1, c, []⟩ = true) code h)⟩,
    fun code h => asked_executing _ ((by decide : ∀ c ∈ ([0x02, 0x03, 0x04, 0x05, 0x22, 0x23, 0x30, 0x50] : List Byte),
      asksFor c ⟨1, c, [0]⟩ = true) code h),
    by decide, by decide, by decide, by decide, by decide, by decide, by decide,
    ⟨{ site with sweep := ⟨.suspended false, some .revalidate, 5, 0, .none⟩ }, by decide⟩⟩

/-- `EntriesStored`: no sweep and one of another kind; values past their ranges; and a list of eight neighbours of cell 0
with margins −8 and 15, after which any entry is refused. -/
theorem witness_entries :
    site.sweep.state = .idle ∧ (∃ s : State, s.sweep.state = .running ∧ s.sweep.kind ≠ some .revalidate) ∧
      ((3 : Nat) < 4 ∧ (15 : Nat) < 16 ∧ (31 : Nat) < 32) ∧
      ∃ l : List Neighbour, l.length = 8 ∧ (l.map (·.cell)).Nodup ∧ (0 : CellIx) ∉ l.map (·.cell) ∧
        ∀ e ∈ l, -8 ≤ e.margin ∧ e.margin ≤ 15 :=
  ⟨by decide, ⟨{ site with sweep := ⟨.running, some .expireVisitors, 5, 0, .none⟩ }, by decide⟩, by decide,
    ⟨[⟨1, -8⟩, ⟨2, 15⟩, ⟨3, 0⟩, ⟨4, 0⟩, ⟨5, 0⟩, ⟨6, 0⟩, ⟨7, 0⟩, ⟨63, 0⟩], by decide⟩⟩

/-- `CellAndConfigWritten`, `CellFieldsManaged`: a cell in service whose write carries the structural fields held, and one
that does not; a cell out of service, empty, and still with two legs. -/
theorem witness_cell_writes :
    (site.Inv ∧ (site.cell 0).service = .inService ∧ (site.cell 0).present = true ∧ (0 : Nat) = (site.cell 0).zone.val ∧
      (site.cell 0).capacity = 12 ∧ (site.cell 0).guard = 1 ∧ (site.cell 0).occupancy = 0 ∧ (2 : Nat) ≠ (site.cell 0).guard) ∧
    (State.reset.cell 63).service = .outOfService ∧ (State.reset.cell 63).occupancy = 0 ∧
    ∃ s : State, s.Inv ∧ (s.cell 0).service = .outOfService ∧ (s.cell 0).occupancy = 2 ∧ (s.cell 0).present = true :=
  ⟨⟨site_inv, by decide⟩, by decide, by decide,
    ⟨site.setCell 0 { cellUp with service := .outOfService, occupancy := 2 }, State.Inv.setCell site_inv 0 _
      ⟨by decide, by decide, by decide, by decide, by decide, by decide, by decide, by decide, by decide, by decide, by decide, by decide⟩,
      by decide⟩⟩

/-- `SubscribersManaged`, `RestartClears`: another record with the HID, a record not present, ATTACHED, ABSENT and ENGAGED
records, and visitors to evict. -/
theorem witness_subscribers :
    (site.record 0).enrolled = some ⟨7, 1, 2, none, .attached att 0⟩ ∧ (0 : RecIx) ≠ subscriberIx 895 ∧
      (site.record (subscriberIx 895)).enrolled = none ∧ (away.record (subscriberIx 0)).enrolled = some ⟨7, 1, 2, none, .absent⟩ ∧
      site.findHid 9 = none ∧ site.findHid 7 = some 0 ∧
      (∃ s : State, Executing 1 (asksEvict 7) s ∧ s.findHid 7 = some 896 ∧
        (s.record 896).enrolled = some ⟨7, 1, 2, none, .attached att 0⟩) ∧
      (∃ s : State, Executing 1 (asksEvict 7) s ∧ s.findHid 7 = some 896 ∧
        (s.record 896).enrolled = some ⟨7, 1, 2, none, .engaged att 5⟩) ∧
      (asked 0x7F [] site).Inv ∧ Executing 1 (asksFor 0x7F) (asked 0x7F [] site) ∧ site.HidsOnce ∧
      (site.record (subscriberIx 0)).enrolled = some ⟨7, 1, 2, none, .attached att 0⟩ ∧
      (∃ s : State, (s.record (subscriberIx 0)).enrolled = some ⟨7, 1, 2, none, .engaged att 5⟩) ∧
      (3 : Nat) < 4 ∧ (31 : Nat) < 32 :=
  ⟨by decide, by decide, by decide, by decide, by decide, by decide,
    ⟨asked 0x40 (bytes32 7) { site with records := ⟨[(896, person (.attached att 0))]⟩ }, asked_executing _ (by decide),
      by decide⟩,
    ⟨asked 0x40 (bytes32 7) { site with records := ⟨[(896, person (.engaged att 5))]⟩ }, asked_executing _ (by decide),
      by decide⟩, asked_inv _ _ site_inv, asked_executing _ (by decide), site_inv.hids, by decide,
    ⟨inCall (.active leg none) [] [] ⟨[], []⟩, by decide⟩, by decide, by decide⟩

end Sys2Proof.Tests
end

section
/-! PROOFS. The machine as a whole: the front of the queue, power-on reset, and that every step keeps the invariant, the
agreement of records and contexts, and the rule of idle ports. -/

namespace Sys2Proof.Machine

/-! ### A step and power-on reset -/

theorem step_pending {s : State} {c : Instr} {rest : List Instr} (h : s.pending = c :: rest) :
    step s = exec c { s with pending := rest } := by
  unfold step
  rw [h]

theorem step_idle {s : State} (h : s.pending = []) : step s = .next { s with now := s.now + 1 } := by
  unfold step
  rw [h]

/-- Settles O1. -/
theorem stepTakesFront : Obligations.StepTakesFront :=
  ⟨fun _ _ _ h => step_pending h, fun s h => ⟨_, step_idle h, by simp [BitVec.toNat_add], rfl⟩⟩

/-- Settles O2: every table is empty after reset, so that each of its indices reads the table's blank value. -/
theorem powerOnResetValues : Obligations.PowerOnResetValues := fun _ =>
  ⟨_, rfl, fun _ => rfl, rfl, rfl, fun _ => rfl, rfl, rfl, rfl, fun _ => ⟨rfl, rfl, rfl⟩, fun _ => rfl, rfl, fun _ => rfl,
    fun _ => rfl, fun _ => rfl, fun _ => rfl, rfl, rfl, rfl, rfl, rfl, rfl, rfl, rfl, fun _ => rfl, rfl, rfl, rfl⟩

/-! ### The invariant after reset -/

theorem CellRec.blank_ok : CellRec.blank.Ok :=
  ⟨by decide, by decide, by decide, by decide, by decide, by decide, by decide, by decide, by decide, by decide,
    fun _ => rfl, fun _ => ⟨rfl, rfl, rfl⟩⟩

theorem CellPort.blank_ok : CellPort.blank.Ok := ⟨by decide, by decide, by decide, List.nodup_nil⟩

theorem ConfigTable.default_ok : ConfigTable.default.Ok := by unfold ConfigTable.Ok; decide

theorem Hrq.empty_ok : (⟨[], []⟩ : Hrq).Ok := ⟨by decide, List.nodup_nil⟩

theorem State.reset_inv : State.reset.Inv where
  tables := ⟨rfl, rfl, rfl, rfl, rfl, rfl, rfl, rfl, rfl⟩
  ports := fun _ => CellPort.blank_ok
  trunk := ⟨by decide, by decide, by decide⟩
  cells := fun _ => CellRec.blank_ok
  visitors := fun _ _ _ he => nomatch he
  notices := by decide
  hrq := Hrq.empty_ok
  answers := ⟨by decide, List.nodup_nil⟩
  contexts := fun _ _ hk => nomatch hk
  hids := fun _ _ _ h => nomatch h
  agent := fun _ => rfl
  muted := nofun
  config := ConfigTable.default_ok
  sweep := ⟨by decide, by decide, nofun⟩

theorem State.reset_callsOk : State.reset.CallsOk := ⟨fun _ _ => ⟨nofun, nofun⟩, by decide⟩

theorem State.reset_idleOk : State.reset.IdleOk := ⟨fun _ => nofun, nofun⟩

/-- With every context IDLE and no answer pending, nothing occupies a slot. -/
theorem State.reset_occupancyOk : State.reset.OccupancyOk where
  occupancy := fun c => by
    have hl : State.reset.legsAt c = 0 := List.sum_eq_zero fun n hn => by
      obtain ⟨x, _, rfl⟩ := List.mem_map.1 hn
      rfl
    rw [hl]
    rfl
  opens := fun _ _ _ => ⟨fun ⟨_, hk, _⟩ => (nomatch hk), fun ⟨_, ha, _⟩ => (nomatch ha)⟩

/-- Settles O3. -/
theorem resetInvariant : Obligations.ResetInvariant :=
  ⟨State.reset_inv, State.reset_callsOk,
    ⟨fun _ => ⟨nofun, nofun⟩, fun _ => Nat.zero_le _, fun _ _ => nofun⟩,
    ⟨fun _ => ⟨fun ⟨_, _, h, _⟩ => (nomatch h), nofun⟩, fun _ => Nat.zero_le _, fun _ _ _ _ => nofun⟩,
    ⟨nofun, nofun, nofun, fun _ _ => nofun, fun _ _ _ => nofun, fun _ _ _ => nofun, nofun, fun _ _ _ _ => nofun⟩,
    ⟨fun _ _ _ _ => nofun, fun _ _ => nofun, fun _ _ _ _ => nofun⟩,
    State.reset_occupancyOk, State.reset_idleOk⟩

end Sys2Proof.Machine
end

section
/-! PROOFS. What every command keeps: the invariant, and from it the agreement of records and contexts. -/

namespace Sys2Proof.Machine

/-! ### What a change of the state keeps -/

/-- A change keeps the invariant, and from a state that meets it the agreement of records and contexts. Unlike a chain of
elementary changes it may write what management loads, move a link, or clear a block. -/
structure Keeps (s t : State) : Prop where
  inv : s.Inv → t.Inv
  calls : s.Inv → s.CallsOk → t.CallsOk

theorem Keeps.refl (s : State) : Keeps s s := ⟨id, fun _ => id⟩

theorem Keeps.trans {s t u : State} (h : Keeps s t) (k : Keeps t u) : Keeps s u :=
  ⟨k.inv ∘ h.inv, fun hi hc => k.calls (h.inv hi) (h.calls hi hc)⟩

theorem Steps.keeps {s t : State} (h : Steps s t) : Keeps s t :=
  ⟨h.raws.inv, fun hi hc => ⟨h.agree hc.agree, h.limit hi.tables.calls hc.execution⟩⟩

theorem Moves.keeps {s t : State} (h : Moves (fun _ => False) s t) : Keeps s t := h.steps.keeps

/-- A change that leaves the contexts alone, and the channel of every record. -/
theorem Keeps.of_channels {s t : State} (h : s.Inv → t.Inv) (hr : ∀ i, (t.record i).channel = (s.record i).channel)
    (hc : t.calls = s.calls) : Keeps s t :=
  ⟨h, fun _ k => ⟨k.agree.same hr fun x => by unfold State.handset State.call; rw [hc],
    by unfold State.inExecution; rw [hc]; exact k.execution⟩⟩

/-- A change that leaves the contexts and the records alone. -/
theorem Keeps.of_inv {s t : State} (h : s.Inv → t.Inv) (hr : t.records = s.records := by rfl)
    (hc : t.calls = s.calls := by rfl) : Keeps s t :=
  .of_channels h (fun i => by unfold State.record; rw [hr]) hc

theorem Keeps.foldl {α : Type} (f : State → α → State) (h : ∀ s a, Keeps s (f s a)) (l : List α) (s : State) :
    Keeps s (l.foldl f s) := by
  induction l generalizing s with
  | nil => exact .refl _
  | cons a l ih => exact (h s a).trans (ih _)

theorem finish_keeps (before s : State) : Keeps s (finish before s) := (finish_moves before s).keeps

theorem takes_keeps (before s : State) : Keeps s (takes before s) := (takes_steps before s).keeps

theorem event_keeps {f : State → State} {s : State} (h : Keeps s (f s)) : Keeps s (event f s) :=
  (h.trans (finish_keeps _ _)).trans (takes_keeps _ _)

theorem eachContext_keeps {f : Channel → State → State} (h : ∀ x s, Moves (fun _ => False) s (f x s)) (s : State) :
    Keeps s (eachContext f s) := (eachContext_steps h s).keeps

/-! ### Updates of one field or one table -/

theorem State.Inv.withPending {s : State} (h : s.Inv) (l : List Instr) : State.Inv { s with pending := l } :=
  { h with tables := { h.tables with } }

theorem State.Inv.withNow {s : State} (h : s.Inv) (t : Time) : State.Inv { s with now := t } :=
  { h with tables := { h.tables with } }

theorem State.Inv.withConfig {s : State} (h : s.Inv) {c : ConfigTable} (hc : c.Ok) : State.Inv { s with config := c } :=
  { h with tables := { h.tables with }, config := hc }

theorem State.Inv.setFilter {s : State} (h : s.Inv) (f : FilterIx) (v : Filter) : (s.setFilter f v).Inv :=
  { h with tables := { h.tables with filters := Table.wf_set _ _ _ _ h.tables.filters } }

theorem State.Inv.setZone {s : State} (h : s.Inv) (z : ZoneIx) (v : Zone) : (s.setZone z v).Inv :=
  { h with tables := { h.tables with zones := Table.wf_set _ _ _ _ h.tables.zones } }

theorem State.Inv.setGate {s : State} (h : s.Inv) (g : GateIx) (v : Gate) : (s.setGate g v).Inv :=
  { h with tables := { h.tables with gates := Table.wf_set _ _ _ _ h.tables.gates } }

/-- A cell record that stays in its ranges. -/
theorem setCell_keeps {c : CellIx} {v : CellRec} {s : State} (h : (s.cell c).Ok → v.Ok) : Keeps s (s.setCell c v) :=
  .of_inv fun hi => hi.setCell c v (h (hi.cells c))

/-- Cells rewritten together by a function that keeps the blank record and does no more when applied twice. -/
theorem updateCells_keeps {f : CellIx → CellRec → CellRec} {s : State} (hb : ∀ c, f c CellRec.blank = CellRec.blank)
    (hi : ∀ c r, f c (f c r) = f c r) (hok : ∀ c r, r.Ok → (f c r).Ok) :
    Keeps s { s with cells := s.cells.update CellRec.blank f } :=
  .of_inv fun h => { h with
    tables := { h.tables with cells := Table.wf_update _ _ _ h.tables.cells }
    cells := fun c => by
      unfold State.cell
      rw [Table.get_update _ _ _ hb hi]
      exact hok c _ (h.cells c) }

/-! ### Records of a registry that management writes -/

/-- A record that is not a visitor's takes a holder whose HID no other present record holds. -/
theorem setRecord_keeps {i : RecIx} {v : Record} {s : State} (hv : v.VisitorOk i)
    (hh : ∀ h, v.presentHid = some h → ∀ j, j ≠ i → (s.record j).presentHid ≠ some h)
    (hc : v.channel = (s.record i).channel) : Keeps s (s.setRecord i v) := by
  refine .of_channels (fun h => h.setRecord i v hv fun j k q hj hk => ?_) (fun j => ?_) rfl
  · rw [State.record_setRecord] at hj hk
    by_cases h1 : j = i <;> by_cases h2 : k = i
    · rw [h1, h2]
    · rw [if_pos h1] at hj; rw [if_neg h2] at hk; exact absurd hk (hh q hj k h2)
    · rw [if_neg h1] at hj; rw [if_pos h2] at hk; exact absurd hj (hh q hk j h1)
    · rw [if_neg h1] at hj; rw [if_neg h2] at hk; exact h.hids j k q hj hk
  · rw [State.record_setRecord]
    split
    · next hj => rw [hj]; exact hc
    · rfl

/-- No other present record holds a HID that is no duplicate (R183). -/
theorem duplicateOf_none {i : RecIx} {h : Hid} {s : State} (hd : duplicateOf i h s = none) {j : RecIx} (hj : j ≠ i) :
    (s.record j).presentHid ≠ some h := by
  intro hp
  have hn := Table.find_none _ _ _ hd j (by simp [Record.blank, Record.enrolled])
  have hr : (s.record j).enrolled.map (·.hid) = some h := hp
  change (!decide (j = i) && decide ((s.record j).enrolled.map (·.hid) = some h)) = false at hn
  simp [hj, hr] at hn

/-- A removal frees an ABSENT record, whose HID is then no present one. -/
theorem removeRecord_keeps (i : RecIx) (s : State) : Keeps s (removeRecord i s) := by
  unfold removeRecord
  dsimp only
  split
  · exact .refl s
  · next e he =>
    split
    · next hl =>
      have hn : ∀ h : Holder, h = .empty ∨ h = .kept e.hid →
          ({ s.record i with holder := h } : Record).enrolled = none := by
        rintro _ (rfl | rfl) <;> rfl
      have hv : ({ s.record i with
          holder := if (s.record i).dirty || (s.record i).queued then .kept e.hid else .empty } : Record).enrolled = none :=
        hn _ (by split <;> simp)
      refine setRecord_keeps (fun _ e' he' => ?_) (fun h hh => ?_) ?_
      · rw [hv] at he'; cases he'
      · unfold Record.presentHid at hh; rw [hv] at hh; cases hh
      · rw [Record.channel_of_none hv, Record.channel_of_enrolled he, hl]; rfl
    · exact .refl s
    · exact .refl s

/-! ### The exchange of management -/

/-- An agent with a request in execution takes none (R180). -/
theorem startRequest_busy {s : State} (h : s.mgmtNow ≠ none) : startRequest s = s := by
  unfold startRequest
  cases hn : s.mgmtNow with
  | none => exact absurd hn h
  | some q => rfl

/-- An agent without work for it takes none (R180). -/
theorem startRequest_nothing {s : State} (h : s.trunk.mgmtIn = []) : startRequest s = s := by
  unfold startRequest
  rw [h]
  cases s.mgmtNow <;> rfl

/-- A free agent takes the oldest waiting request (R14, R180). -/
theorem startRequest_takes {s : State} {r : MgmtFrame} {rs : List MgmtFrame} (h : s.mgmtNow = none)
    (hr : s.trunk.mgmtIn = r :: rs) :
    startRequest s = { s with mgmtNow := some r, trunk := { s.trunk with mgmtIn := rs } } := by
  unfold startRequest
  rw [h, hr]

theorem completeRequest_nothing {s : State} (h : s.trunk.mgmtIn = []) :
    completeRequest s = { s with mgmtNow := none, mgmtMuted := false } := startRequest_nothing h

theorem completeRequest_takes {s : State} {r : MgmtFrame} {rs : List MgmtFrame} (h : s.trunk.mgmtIn = r :: rs) :
    completeRequest s = { s with mgmtNow := some r, mgmtMuted := false, trunk := { s.trunk with mgmtIn := rs } } :=
  startRequest_takes rfl h

/-- The agent takes the next request, if one waits, in the same event (R180). -/
theorem completeRequest_keeps (s : State) : Keeps s (completeRequest s) := by
  cases hm : s.trunk.mgmtIn with
  | nil =>
    rw [completeRequest_nothing hm]
    exact .of_inv fun h => { h with tables := { h.tables with }, agent := fun _ => hm, muted := nofun }
  | cons r rs =>
    rw [completeRequest_takes hm]
    refine .of_inv fun h => { h with
      tables := { h.tables with }, agent := nofun, muted := nofun, trunk := { h.trunk with mgmtIn := ?_ } }
    have := h.trunk.mgmtIn
    rw [hm] at this
    exact (Nat.le_succ _).trans this

theorem sendResponse_keeps (tag : Tag) (a : MgmtAnswer) (s : State) : Keeps s (sendResponse tag a s) := by
  unfold sendResponse
  split
  · exact .refl s
  · exact (reply_moves _ s).keeps

/-- A management operation keeps what the state it leaves keeps; the response touches the trunk and the agent alone. -/
theorem respond_keeps {tag : Tag} {fits : MgmtFrame → Bool} {op : State → State × MgmtAnswer} {s : State}
    (h : Keeps s (op s).1) : Keeps s (respond tag fits op s) := by
  unfold respond
  split
  · exact (h.trans (sendResponse_keeps _ _ _)).trans (completeRequest_keeps _)
  · exact .refl s

theorem enqueueRequest_waits {r : MgmtFrame} {s : State} (hl : s.trunk.mgmtIn.length < Config.mgmtCapacity)
    (hn : s.mgmtNow ≠ none) :
    enqueueRequest r s = { s with trunk := { s.trunk with mgmtIn := s.trunk.mgmtIn ++ [r] } } := by
  unfold enqueueRequest
  rw [if_pos hl]
  exact startRequest_busy hn

theorem enqueueRequest_taken {r q : MgmtFrame} {qs : List MgmtFrame} {s : State}
    (hl : s.trunk.mgmtIn.length < Config.mgmtCapacity) (hn : s.mgmtNow = none) (hm : s.trunk.mgmtIn ++ [r] = q :: qs) :
    enqueueRequest r s = { s with mgmtNow := some q, trunk := { s.trunk with mgmtIn := qs } } := by
  unfold enqueueRequest
  rw [if_pos hl]
  exact startRequest_takes hn hm

theorem enqueueRequest_full {r : MgmtFrame} {s : State} (hl : Config.mgmtCapacity ≤ s.trunk.mgmtIn.length) :
    enqueueRequest r s = reply (.mgmtRsp r.tag ⟨.busy, .none⟩) s := by
  unfold enqueueRequest
  rw [if_neg (by omega)]

/-- A request that enters the queue is taken at once by an agent without one (R14). -/
theorem enqueueRequest_keeps (r : MgmtFrame) (s : State) : Keeps s (enqueueRequest r s) := by
  by_cases hl : s.trunk.mgmtIn.length < Config.mgmtCapacity
  · have hroom : (s.trunk.mgmtIn ++ [r]).length ≤ Config.mgmtCapacity := by simpa using hl
    by_cases hn : s.mgmtNow = none
    · obtain ⟨q, qs, hm⟩ := List.exists_cons_of_ne_nil (List.append_ne_nil_of_right_ne_nil s.trunk.mgmtIn
        (List.cons_ne_nil r []))
      rw [enqueueRequest_taken hl hn hm]
      rw [hm] at hroom
      exact .of_inv fun h => { h with
        tables := { h.tables with }, agent := nofun, muted := fun _ => nofun
        trunk := { h.trunk with mgmtIn := (Nat.le_succ _).trans hroom } }
    · rw [enqueueRequest_waits hl hn]
      exact .of_inv fun h => { h with
        tables := { h.tables with }, agent := fun hz => absurd hz hn, trunk := { h.trunk with mgmtIn := hroom } }
  · rw [enqueueRequest_full (not_lt.1 hl)]
    exact (reply_moves _ s).keeps

theorem rxMgmt_keeps (tag : Tag) (op : Byte) (operands : List Byte) (s : State) : Keeps s (rxMgmt tag op operands s) := by
  unfold rxMgmt rxTrunk
  split
  · split
    · exact (countMalformed_moves _ _).keeps
    · exact (countReceived_moves _ _).keeps.trans (enqueueRequest_keeps _ _)
  · exact .refl s

end Sys2Proof.Machine
end

section
/-! PROOFS. What the table operations and the management commands keep. -/

namespace Sys2Proof.Machine

/-! ### Values as a write leaves them -/

theorem clampTo_le {lo hi v : Nat} (h : lo ≤ hi) : clampTo lo hi v ≤ hi := max_le h (min_le_right _ _)

theorem le_clampTo (lo hi v : Nat) : lo ≤ clampTo lo hi v := le_max_left _ _

theorem clampTo_clampTo (lo hi v : Nat) (h : lo ≤ hi) : clampTo lo hi (clampTo lo hi v) = clampTo lo hi v := by
  unfold clampTo
  omega

/-- A record that keeps its service state, and its neighbours, within the ranges of a write (R55 to R58). -/
structure CellRec.InRange (r : CellRec) : Prop where
  capacity : 1 ≤ r.capacity ∧ r.capacity ≤ 12
  hysteresis : r.hysteresis ≤ 15
  floor : r.floor ≤ 63
  neighbours : r.neighbours.length ≤ Config.neighbourCapacity
  occupancy : r.occupancy ≤ r.capacity
  empty : r.occupancy = 0 → r.congested = false
  absent : r.present = false → r.service = .outOfService ∧ r.occupancy = 0

theorem CellRec.Ok.inRange {r : CellRec} (h : r.Ok) : r.InRange :=
  ⟨h.capacity, h.hysteresis, h.floor, h.neighbours, h.occupancy, h.empty,
    fun k => ⟨(h.absent k).1, (h.absent k).2.1⟩⟩

/-- A record in the ranges of a write, whose derived limits hold too, is in all its ranges. -/
theorem CellRec.InRange.ok {r : CellRec} (h : r.InRange) (hg : r.guard ≤ r.capacity - 1)
    (hu : 1 ≤ r.upper ∧ r.upper ≤ r.capacity) (hl : r.lower ≤ r.upper - 1) (hs : r.shift ≤ 4)
    (hd : 1 ≤ r.dwell ∧ r.dwell ≤ 7) : r.Ok :=
  ⟨h.capacity, hg, hu, hl, h.hysteresis, h.floor, hs, hd, h.neighbours, h.occupancy, h.empty,
    fun k => ⟨(h.absent k).1, (h.absent k).2, h.empty (h.absent k).2⟩⟩

/-- The judgement of the watermarks finds a cell without occupancy not congested. -/
theorem congestedJudged_empty {r : CellRec} (hu : 1 ≤ r.upper) (h : r.occupancy = 0) : congestedJudged r = false := by
  unfold congestedJudged
  rw [if_neg (by omega), if_pos (by omega)]

theorem CellRec.Ok.rejudged {r : CellRec} (h : r.Ok) : r.rejudged.Ok :=
  { h with
    empty := congestedJudged_empty h.upper.1
    absent := fun k => ⟨(h.absent k).1, (h.absent k).2.1, congestedJudged_empty h.upper.1 (h.absent k).2.1⟩ }

theorem CellRec.InRange.clampLoad_ok {r : CellRec} (h : r.InRange) (hs : r.shift ≤ 4) (hd : 1 ≤ r.dwell ∧ r.dwell ≤ 7) :
    r.clampLoad.Ok := by
  have hc := h.capacity
  exact CellRec.InRange.ok ⟨hc, h.hysteresis, h.floor, h.neighbours, h.occupancy, h.empty, h.absent⟩
    (clampTo_le (Nat.zero_le _)) ⟨le_clampTo _ _ _, clampTo_le hc.1⟩ (clampTo_le (Nat.zero_le _)) hs hd

/-- The tests on the cell's state leave a record whose occupancy fits, and that is idle where it is no longer present. -/
theorem judgeCell_none {b : Bool} {held new : CellRec} (h : judgeCell b held new = none) :
    (b = true → held.service = .outOfService) ∧ held.occupancy ≤ new.capacity ∧
      (new.present = false → held.occupancy = 0) := by
  unfold judgeCell at h
  split at h
  · cases h
  · next hb =>
    split at h
    · cases h
    · split at h
      · cases h
      · next hc hp =>
        refine ⟨fun k => ?_, not_lt.1 hc, fun k => ?_⟩
        · simpa [k] using hb
        · exact Nat.eq_zero_of_not_pos fun k' => hp ⟨k, k'⟩

/-! ### Cell records -/

theorem storeCell_state (c : CellIx) (w v : CellRec) (s : State) : (storeCell c w v s).1 = s.setCell c v := by
  unfold storeCell taken
  split <;> rfl

/-- A field of a cell record that passed its value test, stored where the state of the cell admits it. -/
theorem storeField_keeps {c : CellIx} {b : Bool} {w v : CellRec} {s : State}
    (h : judgeCell b (s.cell c) w = none → (s.cell c).Ok → v.Ok) : Keeps s (storeField c b w v s).1 := by
  unfold storeField
  split
  · exact .refl s
  · next hj => rw [storeCell_state]; exact setCell_keeps (h hj)

/-- The structural fields of a record that is not OUT_OF_SERVICE are carried as they stand (R56). -/
theorem structural_present {b : Bool} {held new : CellRec} (hj : judgeCell b held new = none)
    (hb : b = structuralDiffers held new) (ho : held.Ok) (hp : new.present = false) : held.service = .outOfService := by
  by_cases k : b = true
  · exact (judgeCell_none hj).1 k
  · have hd : structuralDiffers held new = false := by rw [← hb]; exact Bool.eq_false_of_not_eq_true k
    simp only [structuralDiffers, Bool.not_eq_false', Bool.and_eq_true, decide_eq_true_eq] at hd
    exact (ho.absent (hd.1.1.1.trans hp)).1

theorem writeCell_keeps (c : CellIx) (w : CellWrite) (s : State) : Keeps s (writeCell c w s).1 := by
  unfold writeCell badValue refuse
  dsimp only
  split
  · exact .refl s
  · next z _ =>
    by_cases h3 : w.capacity < 1 ∨ 12 < w.capacity
    · rw [if_pos h3]; exact .refl s
    by_cases h7 : 15 < w.hysteresis
    · rw [if_neg h3, if_pos h7]; exact .refl s
    by_cases h8 : 63 < w.floor
    · rw [if_neg h3, if_neg h7, if_pos h8]; exact .refl s
    rw [if_neg h3, if_neg h7, if_neg h8]
    split
    · exact .refl s
    · next hj =>
      rw [storeCell_state]
      refine setCell_keeps fun ho => CellRec.Ok.rejudged ?_
      obtain ⟨_, hocc, hidle⟩ := judgeCell_none hj
      have hout : w.present = false → (s.cell c).service = .outOfService := structural_present hj rfl ho
      refine CellRec.InRange.ok (r := ((s.cell c).written z w).clampLoad.clampShift.clampDwell)
        ⟨?_, not_lt.1 h7, not_lt.1 h8, ho.neighbours, hocc, ho.empty,
          fun k => ⟨hout k, hidle k⟩⟩
        (clampTo_le (Nat.zero_le _)) ⟨le_clampTo _ _ _, clampTo_le ?_⟩ (clampTo_le (Nat.zero_le _))
        (clampTo_le (by omega)) ⟨le_clampTo _ _ _, clampTo_le (by omega)⟩
      · change 1 ≤ w.capacity ∧ w.capacity ≤ 12; omega
      · change 1 ≤ w.capacity; omega

theorem modifyCell_keeps (c : CellIx) (f : CellField) (s : State) : Keeps s (modifyCell c f s).1 := by
  unfold modifyCell badValue refuse
  dsimp only
  cases f with
  | present b =>
    refine storeField_keeps fun hj ho => ?_
    obtain ⟨hs, -, hi⟩ := judgeCell_none hj
    exact { ho with absent := fun k => ⟨hs rfl, hi k, ho.empty (hi k)⟩ }
  | zone n =>
    dsimp only
    split
    · exact .refl s
    · exact storeField_keeps fun _ ho => { ho with }
  | capacity n =>
    dsimp only
    split
    · exact .refl s
    · next hn =>
      refine storeField_keeps fun hj ho => CellRec.Ok.rejudged (CellRec.InRange.clampLoad_ok ?_ ho.shift ho.dwell)
      exact { ho.inRange with
        capacity := ⟨not_lt.1 fun k => hn (.inl k), not_lt.1 fun k => hn (.inr k)⟩, occupancy := (judgeCell_none hj).2.1 }
  | guard n => exact storeField_keeps fun _ ho => { ho with guard := clampTo_le (Nat.zero_le _) }
  | upper n =>
    exact storeField_keeps fun _ ho => CellRec.Ok.rejudged
      { ho with upper := ⟨le_clampTo _ _ _, clampTo_le ho.capacity.1⟩, lower := clampTo_le (Nat.zero_le _) }
  | lower n => exact storeField_keeps fun _ ho => CellRec.Ok.rejudged { ho with lower := clampTo_le (Nat.zero_le _) }
  | hysteresis n =>
    dsimp only
    split
    · exact .refl s
    · next hn => exact storeField_keeps fun _ ho => { ho with hysteresis := not_lt.1 hn }
  | floor n =>
    dsimp only
    split
    · exact .refl s
    · next hn => exact storeField_keeps fun _ ho => { ho with floor := not_lt.1 hn }
  | shift n => exact storeField_keeps fun _ ho => { ho with shift := clampTo_le (by omega) }
  | dwell n => exact storeField_keeps fun _ ho => { ho with dwell := ⟨le_clampTo _ _ _, clampTo_le (by omega)⟩ }
  | resume b => exact storeField_keeps fun _ ho => { ho with }

theorem clearCell_keeps (c : CellIx) (s : State) : Keeps s (clearCell c s).1 := by
  unfold clearCell refuse taken
  split
  · split
    · exact .refl s
    · exact setCell_keeps fun _ => CellRec.blank_ok
  · exact .refl s

/-- A neighbour list that no entry is refused of has at most eight, since a ninth is refused (R58). -/
theorem neighboursOf_length (c : CellIx) (n : Nat) (seen : List Nat) (l : List NeighbourWrite)
    (hn : 1 ≤ n ∧ n ≤ Config.neighbourCapacity + 1) (h : firstBadNeighbour c n seen l = none) :
    (neighboursOf l).length + n ≤ Config.neighbourCapacity + 1 := by
  induction l generalizing n seen with
  | nil => simpa [neighboursOf] using hn.2
  | cons e es ih =>
    unfold firstBadNeighbour at h
    split at h
    · cases h
    · next hb =>
      push Not at hb
      have := ih (n + 1) _ ⟨by omega, by omega⟩ h
      unfold neighboursOf
      split
      · rw [List.length_cons]; omega
      · omega

theorem writeNeighbours_keeps (c : CellIx) (l : List NeighbourWrite) (s : State) : Keeps s (writeNeighbours c l s).1 := by
  unfold writeNeighbours badValue refuse taken
  split
  · exact .refl s
  · next h =>
    refine setCell_keeps fun ho => { ho with neighbours := ?_ }
    have := neighboursOf_length c 1 [] l (by decide) h
    change (neighboursOf l).length ≤ _
    omega

/-! ### CONFIG -/

theorem configClamped_ok (w : ConfigTable) : (configClamped w).Ok := by
  unfold ConfigTable.Ok configClamped
  dsimp only
  congr 1 <;> exact clampTo_clampTo _ _ _ (by omega)

theorem config_keeps {c : ConfigTable} {s : State} (h : s.config.Ok → c.Ok) : Keeps s { s with config := c } :=
  .of_inv fun hi => hi.withConfig (h hi.config)

theorem storeConfig_state (w v : ConfigTable) (s : State) : (storeConfig w v s).1 = { s with config := v } := by
  unfold storeConfig taken
  split <;> rfl

theorem writeConfig_keeps (w : ConfigWrite) (s : State) : Keeps s (writeConfig w s).1 := by
  unfold writeConfig badValue refuse
  split
  · exact .refl s
  · rw [storeConfig_state]; exact config_keeps fun _ => configClamped_ok _

/-- CONFIG in its ranges with one item clamped is that table with the item written, clamped as a whole. -/
theorem storeItem_keeps {w : ConfigTable} {s : State} (item : ConfigTable → ConfigTable)
    (h : item (configClamped s.config) = configClamped w) : Keeps s (storeConfig w (item s.config) s).1 := by
  rw [storeConfig_state]
  refine config_keeps fun ho => ?_
  have hi : item s.config = configClamped w := by rw [← h]; exact congrArg item ho.symm
  rw [hi]
  exact configClamped_ok w

theorem modifyConfig_keeps (f : ConfigField) (s : State) : Keeps s (modifyConfig f s).1 := by
  unfold modifyConfig
  cases f with
  | presencePeriod n => exact storeItem_keeps (fun c => { c with presencePeriod := clampTo 1 255 n }) rfl
  | deferBackoff n => exact storeItem_keeps (fun c => { c with deferBackoff := clampTo 1 60 n }) rfl
  | legTime n => exact storeItem_keeps (fun c => { c with legTime := clampTo 50 2000 n }) rfl
  | bridgeTime n => exact storeItem_keeps (fun c => { c with bridgeTime := clampTo 20 1000 n }) rfl
  | settleInterval n => exact storeItem_keeps (fun c => { c with settleInterval := clampTo 0 255 n }) rfl
  | retryInterval n => exact storeItem_keeps (fun c => { c with retryInterval := clampTo 0 255 n }) rfl
  | rescueLimit n => exact storeItem_keeps (fun c => { c with rescueLimit := clampTo 200 5000 n }) rfl
  | pageInterval n => exact storeItem_keeps (fun c => { c with pageInterval := clampTo 100 2000 n }) rfl
  | drainTime n => exact storeItem_keeps (fun c => { c with drainTime := clampTo 1 255 n }) rfl
  | restartTime n => exact storeItem_keeps (fun c => { c with restartTime := clampTo 1 255 n }) rfl
  | sync p =>
    cases p with
    | none => exact .refl s
    | some p =>
      refine config_keeps fun ho => ?_
      have hi : ({ s.config with sync := p } : ConfigTable) = configClamped { s.config with sync := p } := by
        conv_lhs => rw [← (ho : configClamped s.config = s.config)]
        rfl
      rw [hi]
      exact configClamped_ok _

/-! ### Subscribers -/

theorem subscriberIx_visitor (j : Fin 896) : isVisitor (subscriberIx j) = false := by
  have := j.isLt
  exact decide_eq_false (not_le.2 this)

theorem subscriberRecord_enrolled (now : Time) (r : Record) (h : Hid) (cl : Clearance) (g : Group) :
    ∃ e, (subscriberRecord now r h cl g).enrolled = some e ∧ e.hid = h ∧ (subscriberRecord now r h cl g).channel = r.channel := by
  have hc : ∀ e, (subscriberRecord now r h cl g).enrolled = some e →
      (subscriberRecord now r h cl g).channel = e.loc.channel := fun e => Record.channel_of_enrolled
  have he : (subscriberRecord now r h cl g).enrolled =
      match subscriberHolder r h cl g with
      | .empty => none
      | .kept _ => none
      | .present e => some e := rfl
  unfold subscriberHolder at he
  cases hr : r.enrolled with
  | none =>
    rw [hr] at he
    exact ⟨_, he, rfl, by rw [hc _ he, Record.channel_of_none hr]; rfl⟩
  | some e =>
    rw [hr] at he
    exact ⟨_, he, rfl, by rw [hc _ he, Record.channel_of_enrolled hr]⟩

theorem writeSubscriber_keeps {i : RecIx} (hi : isVisitor i = false) (h : Hid) (cl g : Nat) (s : State) :
    Keeps s (writeSubscriber i h cl g s).1 := by
  unfold writeSubscriber badValue refuse taken
  split
  · exact .refl s
  · exact .refl s
  · split
    · exact .refl s
    · next hd =>
      split
      · exact .refl s
      · obtain ⟨e, he, rfl, hc⟩ := subscriberRecord_enrolled s.now (s.record i) h _ _
        refine setRecord_keeps (fun hv => ?_) (fun q hq j hj => ?_) hc
        · rw [hi] at hv; cases hv
        · unfold Record.presentHid at hq
          rw [he] at hq
          cases hq
          exact duplicateOf_none hd hj

theorem modifySubscriber_keeps {i : RecIx} (hi : isVisitor i = false) (f : Enrolled → Hid × Nat × Nat) (s : State) :
    Keeps s (modifySubscriber i f s).1 := by
  unfold modifySubscriber
  split
  · exact .refl s
  · exact writeSubscriber_keeps hi _ _ _ s

theorem clearSubscriber_keeps (i : RecIx) (s : State) : Keeps s (clearSubscriber i s).1 := by
  unfold clearSubscriber refuse taken
  split
  · exact .refl s
  · split
    · exact removeRecord_keeps i s
    · exact (revokeRecord_moves i _ s).keeps.trans (removeRecord_keeps i _)
    · exact .refl s

theorem evict_keeps (h : Hid) (s : State) : Keeps s (evict h s).1 := by
  unfold evict badIndex badValue refuse taken
  split
  · exact .refl s
  · split
    · split
      · exact .refl s
      · split
        · exact removeRecord_keeps _ s
        · exact (revokeRecord_moves _ _ s).keeps
        · exact .refl s
    · exact .refl s

/-! ### Filters, zones and gates -/

theorem writeFilter_keeps (f : FilterIx) (b : Bool) (m v : Hid) (cl g : Nat) (s : State) :
    Keeps s (writeFilter f b m v cl g s).1 := by
  unfold writeFilter badValue refuse taken
  split
  · exact .refl s
  · exact .refl s
  · exact .of_inv fun h => h.setFilter _ _

theorem unlessLocked_keeps {f : State → State × MgmtAnswer} {s : State} (h : Keeps s (f s).1) :
    Keeps s (unlessLocked f s).1 := by
  unfold unlessLocked
  split
  · exact .refl s
  · exact h

theorem writeZone_keeps (z : ZoneIx) (b : Bool) (k : Option ZoneKind) (l : Nat) (s : State) :
    Keeps s (unlessLocked (writeZone z b k l) s).1 := by
  refine unlessLocked_keeps ?_
  unfold writeZone badValue refuse taken
  split
  · exact .refl s
  · exact .refl s
  · exact .of_inv fun h => h.setZone _ _

theorem writeGate_keeps (g : GateIx) (b : Bool) (z : Nat) (grp : GroupOperand) (l : Nat) (m : Option GateMode) (s : State) :
    Keeps s (unlessLocked (writeGate g b z grp l m) s).1 := by
  refine unlessLocked_keeps ?_
  unfold writeGate badValue refuse taken
  split
  · exact .refl s
  · exact .refl s
  · exact .refl s
  · exact .refl s
  · exact .of_inv fun h => h.setGate _ _

/-! ### The table operations -/

theorem atIndex_keeps {n i : Nat} {f : Fin n → State → State × MgmtAnswer} {s : State} (h : ∀ j, Keeps s (f j s).1) :
    Keeps s (atIndex n i f s).1 := by
  unfold atIndex
  split
  · exact .refl s
  · exact h _

theorem tableWrite_keeps (i : Nat) (entry : TableEntry) (s : State) : Keeps s (tableWrite i entry s).1 := by
  unfold tableWrite
  cases entry with
  | subscriber h cl g => exact atIndex_keeps fun j => writeSubscriber_keeps (subscriberIx_visitor j) h cl g s
  | filter e m v cl g => exact atIndex_keeps fun j => writeFilter_keeps j e m v cl g s
  | cell w => exact atIndex_keeps fun c => writeCell_keeps c w s
  | neighbours l => exact atIndex_keeps fun c => writeNeighbours_keeps c l s
  | zone p k l => exact atIndex_keeps fun z => writeZone_keeps z p k l s
  | gate p z g l m => exact atIndex_keeps fun j => writeGate_keeps j p z g l m s
  | config w => exact atIndex_keeps fun _ => writeConfig_keeps w s
  | misfit t => exact .refl s

theorem tableClear_keeps (t : TableId) (i : Nat) (s : State) : Keeps s (tableClear t i s).1 := by
  unfold tableClear
  cases t with
  | subscriber => exact atIndex_keeps fun j => clearSubscriber_keeps _ s
  | cell => exact atIndex_keeps fun c => clearCell_keeps c s
  | neighbours => exact atIndex_keeps fun c => setCell_keeps fun ho => { ho with neighbours := Nat.zero_le _ }
  | zone => exact atIndex_keeps fun z => unlessLocked_keeps (.of_inv fun h => h.setZone _ _)
  | gate => exact atIndex_keeps fun z => unlessLocked_keeps (.of_inv fun h => h.setGate _ _)
  | filter => exact atIndex_keeps fun f => .of_inv fun h => h.setFilter _ _
  | config => exact atIndex_keeps fun _ => config_keeps fun _ => ConfigTable.default_ok
  | registry => exact .refl s
  | context => exact .refl s
  | cellState => exact .refl s
  | unknown => exact .refl s

theorem atIndex_state {n i : Nat} {f : Fin n → State → State × MgmtAnswer} {s : State} (h : ∀ j, (f j s).1 = s) :
    (atIndex n i f s).1 = s := by
  unfold atIndex
  split
  · rfl
  · exact h _

theorem unlessLocked_state {f : State → State × MgmtAnswer} {s : State} (h : (f s).1 = s) : (unlessLocked f s).1 = s := by
  unfold unlessLocked
  split
  · rfl
  · exact h

/-- A field that the table does not have is not stored. -/
theorem modifyUnknown_state (i : Nat) (t : TableId) (n : Nat) (s : State) : (modifyUnknown i t n s).1 = s := by
  unfold modifyUnknown
  cases t with
  | subscriber => exact atIndex_state fun j => by split <;> rfl
  | cell => exact atIndex_state fun _ => rfl
  | zone => exact atIndex_state fun _ => unlessLocked_state rfl
  | gate => exact atIndex_state fun _ => unlessLocked_state rfl
  | filter => exact atIndex_state fun _ => rfl
  | config => exact atIndex_state fun _ => rfl
  | neighbours => rfl
  | registry => rfl
  | context => rfl
  | cellState => rfl
  | unknown => rfl

theorem fieldModify_keeps (i : Nat) (w : FieldWrite) (s : State) : Keeps s (fieldModify i w s).1 := by
  unfold fieldModify
  cases w with
  | subscriberHid h => exact atIndex_keeps fun j => modifySubscriber_keeps (subscriberIx_visitor j) _ s
  | subscriberClearance n => exact atIndex_keeps fun j => modifySubscriber_keeps (subscriberIx_visitor j) _ s
  | subscriberGroup n => exact atIndex_keeps fun j => modifySubscriber_keeps (subscriberIx_visitor j) _ s
  | filterEnabled b => exact atIndex_keeps fun j => writeFilter_keeps j _ _ _ _ _ s
  | filterMask m => exact atIndex_keeps fun j => writeFilter_keeps j _ _ _ _ _ s
  | filterValue v => exact atIndex_keeps fun j => writeFilter_keeps j _ _ _ _ _ s
  | filterClearance n => exact atIndex_keeps fun j => writeFilter_keeps j _ _ _ _ _ s
  | filterGroup n => exact atIndex_keeps fun j => writeFilter_keeps j _ _ _ _ _ s
  | cell f => exact atIndex_keeps fun c => modifyCell_keeps c f s
  | zonePresent b => exact atIndex_keeps fun z => writeZone_keeps z _ _ _ s
  | zoneKind k => exact atIndex_keeps fun z => writeZone_keeps z _ _ _ s
  | zoneLevel n => exact atIndex_keeps fun z => writeZone_keeps z _ _ _ s
  | gatePresent b => exact atIndex_keeps fun j => writeGate_keeps j _ _ _ _ _ s
  | gateZone n => exact atIndex_keeps fun j => writeGate_keeps j _ _ _ _ _ s
  | gateGroup q => exact atIndex_keeps fun j => writeGate_keeps j _ _ _ _ _ s
  | gateLevel n => exact atIndex_keeps fun j => writeGate_keeps j _ _ _ _ _ s
  | gateMode m => exact atIndex_keeps fun j => writeGate_keeps j _ _ _ _ _ s
  | config f => exact atIndex_keeps fun _ => modifyConfig_keeps f s
  | other t n => rw [modifyUnknown_state]; exact .refl s

/-- A read changes nothing (R182). -/
theorem tableRead_state (t : TableId) (i : Nat) (s : State) : (tableRead t i s).1 = s := by
  unfold tableRead
  cases t with
  | unknown => rfl
  | _ => exact atIndex_state fun _ => rfl

theorem countersRead_keeps (n : Nat) (b : Bool) (s : State) : Keeps s (countersRead n b s).1 := by
  unfold countersRead
  split
  · split
    · exact (counter_moves _ _ s).keeps
    · exact .refl s
  · split
    · split
      · exact (device_moves (fun _ => DeviceCounters.blank) s).keeps
      · exact .refl s
    · exact .refl s

end Sys2Proof.Machine
end

section
/-! PROOFS. The commands on cells, hold and sweep, the RESTART, the line events and the received frames keep the invariant;
so does every step. -/

namespace Sys2Proof.Machine

/-! ### Cells, hold and sweep -/

/-- A cell that a command names is present (R64). -/
theorem namedCell_present {n : Nat} {s : State} {c : CellIx} (h : namedCell n s = some c) : (s.cell c).present = true := by
  unfold namedCell at h
  exact (Option.filter_eq_some_iff.1 h).2

theorem onCell_keeps {n : Nat} {f : CellIx → State → State × MgmtAnswer} {s : State}
    (h : ∀ c, (s.cell c).present = true → Keeps s (f c s).1) : Keeps s (onCell n f s).1 := by
  unfold onCell
  split
  · exact .refl s
  · next c hc => exact h c (namedCell_present hc)

/-- A present cell may take any service state. -/
theorem CellRec.Ok.serve {r : CellRec} (h : r.Ok) (hp : r.present = true) (v : Service) : ({ r with service := v } : CellRec).Ok :=
  { h with absent := fun k => by rw [show r.present = false from k] at hp; cases hp }

/-- Any cell may go OUT_OF_SERVICE. -/
theorem CellRec.Ok.retire {r : CellRec} (h : r.Ok) : ({ r with service := .outOfService } : CellRec).Ok :=
  { h with absent := fun k => ⟨rfl, (h.absent k).2⟩ }

/-- A cell that is in service in any form is present (R55). -/
theorem CellRec.Ok.present {r : CellRec} (h : r.Ok) (hs : r.service ≠ .outOfService) : r.present = true := by
  by_contra hp
  exact hs (h.absent (Bool.eq_false_of_not_eq_true hp)).1

theorem enableCell_keeps {c : CellIx} {s : State} (hp : (s.cell c).present = true) : Keeps s (enableCell c s).1 := by
  unfold enableCell refuse serviceAnswer
  split
  · split
    · exact setCell_keeps fun ho => ho.serve hp _
    · exact .refl s
  all_goals exact .refl s

theorem disableCell_keeps (c : CellIx) (s : State) : Keeps s (disableCell c s).1 := setCell_keeps fun ho => ho.retire

theorem drainCell_keeps (f : FollowOn) {c : CellIx} {s : State} (hp : (s.cell c).present = true) :
    Keeps s (drainCell f c s).1 := by
  unfold drainCell serviceAnswer
  split
  · exact (setCell_keeps fun ho => ho.serve hp _).trans (endDrainIfEmpty_moves c _).keeps
  all_goals exact .refl s

theorem disableLoss_keeps (n : Nat) (b s : State) : Keeps s (disableLoss n b s) := by
  unfold disableLoss
  split
  · exact .refl s
  · split
    · exact eachContext_keeps (fun x s => lossAtContext_moves _ _ x s) s
    · exact .refl s

theorem drainStart_keeps (n : Nat) (b s : State) : Keeps s (drainStart n b s) := by
  unfold drainStart
  split
  · exact .refl s
  · split
    · exact eachContext_keeps (fun x s => drainStartAt_moves _ x s) s
    · exact .refl s

theorem hold_keeps (h : Hold) (s : State) : Keeps s { s with hold := h } := (Moves.of (.hold s h)).keeps

theorem sweep_keeps {w : Sweep} {s : State} (h : s.sweep.Ok → w.Ok) : Keeps s { s with sweep := w } :=
  (Moves.of (.sweep s w h)).keeps

theorem sweepStart_keeps (k : SweepOperand) (g : Nat) (s : State) : Keeps s (sweepStart k g s).1 := by
  unfold sweepStart sweepAnswer badValue refuse
  split
  · exact .refl s
  · split
    · exact .refl s
    · exact sweep_keeps fun _ => ⟨Nat.zero_le _, le_rfl, fun _ => ⟨Nat.zero_lt_succ _, nofun⟩⟩

theorem sweepSuspend_keeps (s : State) : Keeps s (sweepSuspend s).1 := by
  unfold sweepSuspend sweepAnswer
  split
  · next hs => exact sweep_keeps fun h => h.restate _ fun _ => by unfold Sweep.underWay; rw [hs]
  all_goals exact .refl s

theorem sweepResume_keeps (s : State) : Keeps s (sweepResume s).1 := by
  unfold sweepResume sweepAnswer
  split
  · next hs =>
    split
    · exact .refl s
    · exact sweep_keeps fun h => h.restate _ fun _ => by unfold Sweep.underWay; rw [hs]
  all_goals exact .refl s

theorem Sweep.Ok.aborted {w : Sweep} (h : w.Ok) : w.aborted.Ok := by
  unfold Sweep.aborted
  split
  · exact ⟨h.cursor, h.changed, nofun⟩
  · exact h

theorem sweepAbort_keeps (s : State) : Keeps s (sweepAbort s).1 := by
  unfold sweepAbort sweepAnswer
  split
  · exact sweep_keeps Sweep.Ok.aborted
  · exact .refl s

/-! ### RESTART -/

theorem restartRecord_blank (now : Time) (i : RecIx) : restartRecord now i Record.blank = Record.blank := rfl

theorem restartRecord_twice (now : Time) (i : RecIx) (r : Record) :
    restartRecord now i (restartRecord now i r) = restartRecord now i r := by
  unfold restartRecord
  rcases r with ⟨_ | _ | e, l, d, q⟩
  · rfl
  · rfl
  · by_cases hv : isVisitor i = true <;> simp [hv]

theorem restartRecord_enrolled (now : Time) (i : RecIx) (r : Record) : (restartRecord now i r).enrolled =
    if isVisitor i = true then none else r.enrolled.map fun e => { e with loc := .absent } := by
  unfold restartRecord Record.enrolled
  rcases r with ⟨_ | _ | e, l, d, q⟩
  · simp
  · simp
  · by_cases hv : isVisitor i = true <;> simp [hv]

theorem serviceByLink_cases (s : State) (c : CellIx) :
    serviceByLink s c = .inService ∨ serviceByLink s c = .outOfService := by
  unfold serviceByLink
  split
  · exact .inl rfl
  · exact .inr rfl

theorem restartService_serviceByLink (s : State) (c : CellIx) :
    restartService s c (serviceByLink s c) = serviceByLink s c := by
  rcases serviceByLink_cases s c with h | h <;> rw [h] <;> rfl

theorem restartService_twice (s : State) (c : CellIx) (v : Service) :
    restartService s c (restartService s c v) = restartService s c v := by
  cases v with
  | outOfService => rfl
  | inService => rfl
  | draining f d => exact restartService_serviceByLink s c
  | restarting d => exact restartService_serviceByLink s c

theorem State.record_restartBlocks (s : State) (i : RecIx) :
    (restartBlocks s).record i = restartRecord s.now i (s.record i) :=
  Table.get_update _ _ _ (restartRecord_blank s.now) (restartRecord_twice s.now) i

theorem State.cell_restartBlocks (s : State) (c : CellIx) :
    (restartBlocks s).cell c = restartCell s c (s.cell c) :=
  Table.get_update _ _ _ (fun _ => rfl) (fun c r => by
    unfold restartCell; dsimp only; rw [restartService_twice]) c

theorem State.port_restartBlocks (s : State) (p : PortIx) : (restartBlocks s).port p = restartPort p (s.port p) :=
  Table.get_update _ _ restartPort (fun _ => rfl) (fun _ _ => rfl) p

theorem restartCell_ok {s : State} {c : CellIx} {r : CellRec} (h : r.Ok) : (restartCell s c r).Ok :=
  { h with
    occupancy := Nat.zero_le _
    empty := fun _ => rfl
    absent := fun k => ⟨by
      change restartService s c r.service = _
      rw [(h.absent k).1]
      rfl, rfl, rfl⟩ }

theorem restartBlocks_inv {s : State} (h : s.Inv) : (restartBlocks s).Inv where
  tables := { h.tables with
    ports := Table.wf_update _ _ _ h.tables.ports
    records := Table.wf_update _ _ _ h.tables.records
    cells := Table.wf_update _ _ _ h.tables.cells
    calls := rfl
    pages := rfl }
  ports := fun p => by
    rw [State.port_restartBlocks]
    exact ⟨Nat.zero_le _, Nat.zero_le _, Nat.zero_le _, List.nodup_nil⟩
  trunk := ⟨Nat.zero_le _, h.trunk.replies, h.trunk.mgmtIn⟩
  cells := fun c => by rw [State.cell_restartBlocks]; exact restartCell_ok (h.cells c)
  visitors := fun i hi e he => by
    rw [State.record_restartBlocks, restartRecord_enrolled, if_pos hi] at he
    cases he
  notices := Nat.zero_le _
  hrq := Hrq.empty_ok
  answers := ⟨Nat.zero_le _, List.nodup_nil⟩
  contexts := fun _ _ hk => nomatch hk
  hids := fun i j q hi hj => by
    have hp : ∀ k, ((restartBlocks s).record k).presentHid = some q → (s.record k).presentHid = some q := fun k hk => by
      unfold Record.presentHid at hk ⊢
      rw [State.record_restartBlocks, restartRecord_enrolled] at hk
      split at hk
      · cases hk
      · simpa using hk
    exact h.hids i j q (hp i hi) (hp j hj)
  agent := h.agent
  muted := h.muted
  config := h.config
  sweep := h.sweep.aborted

theorem State.inExecution_idle {s : State} (h : s.calls = Table.empty 128 (Option Call)) : s.inExecution = 0 := by
  unfold State.inExecution
  rw [h]
  rfl

/-- After the RESTART no record is ENGAGED and every context is IDLE. -/
theorem restartBlocks_callsOk (s : State) : (restartBlocks s).CallsOk where
  agree := fun i x => by
    have hn : ((restartBlocks s).record i).channel = none := by
      unfold Record.channel
      rw [State.record_restartBlocks, restartRecord_enrolled]
      by_cases hv : isVisitor i = true
      · rw [if_pos hv]
      · rw [if_neg hv]; cases (s.record i).enrolled <;> rfl
    rw [hn]
    exact ⟨nofun, nofun⟩
  execution := by rw [State.inExecution_idle rfl]; exact Nat.zero_le _

theorem closeAllAt_moves {P : Channel → Prop} (s : State) (c : CellIx) : Moves P s (closeAllAt s c) := by
  unfold closeAllAt
  split
  · exact offerQuietly_moves _ _
  · exact .refl s

theorem restartAll_eq (s : State) :
    restartAll s = ((allIndices 64).foldl closeAllAt (restartBlocks s), ⟨.ok, .none⟩) := by
  unfold restartAll taken
  rfl

theorem restartAll_keeps (s : State) : Keeps s (restartAll s).1 := by
  have h : Keeps s (restartBlocks s) := ⟨restartBlocks_inv, fun _ _ => restartBlocks_callsOk s⟩
  rw [restartAll_eq]
  dsimp only
  exact h.trans (Keeps.foldl closeAllAt (fun s c => (closeAllAt_moves s c).keeps) (allIndices 64) (restartBlocks s))

/-! ### Lines and deadlines -/

theorem resumeCell_blank (p : PortIx) (c : CellIx) : resumeCell p c CellRec.blank = CellRec.blank := by
  unfold resumeCell
  rw [if_neg (by rintro ⟨_, h, _⟩; cases h)]

theorem resumeCell_twice (p : PortIx) (c : CellIx) (r : CellRec) : resumeCell p c (resumeCell p c r) = resumeCell p c r := by
  unfold resumeCell
  by_cases hc : portOf c = p ∧ r.present = true ∧ r.resume = true ∧ r.service = .outOfService <;> simp [hc]

theorem cellLineUp_keeps (p : PortIx) (s : State) : Keeps s (cellLineUp p s) := by
  unfold cellLineUp
  split
  · exact .refl s
  · refine Keeps.trans (.of_inv fun h => h.setPort p _ ⟨Nat.zero_le _, Nat.zero_le _, Nat.zero_le _, List.nodup_nil⟩)
      (updateCells_keeps (resumeCell_blank p) (resumeCell_twice p) fun c r h => ?_)
    unfold resumeCell
    split
    · next hc => exact CellRec.Ok.rejudged (h.serve hc.2.1 .inService)
    · exact h

theorem flushFrame_moves {P : Channel → Prop} (s : State) (f : CtlFrame) : Moves P s (flushFrame s f) := by
  unfold flushFrame
  cases f with
  | legOpen d n x h r =>
    dsimp only
    split
    · exact .refl s
    · exact resolveFail_moves nextCandidate_passes _ _ _
  | hoCmd d n x h t sl =>
    dsimp only
    split
    · exact .refl s
    · next k hk =>
      split
      · next hp => exact fallback_moves hk (by rw [hp]; rfl) _ _
      all_goals exact .refl s
  | _ => exact .refl s

theorem downCell_twice (p : PortIx) (c : CellIx) (r : CellRec) : downCell p c (downCell p c r) = downCell p c r := by
  unfold downCell
  split <;> rfl

theorem downCell_blank (p : PortIx) (c : CellIx) : downCell p c CellRec.blank = CellRec.blank := by
  unfold downCell
  split <;> rfl

theorem cellLineDown_keeps (p : PortIx) (s : State) : Keeps s (cellLineDown p s) := by
  unfold cellLineDown flushPort
  have h1 : Keeps s (s.setPort p CellPort.blank) := .of_inv fun h => h.setPort p _ CellPort.blank_ok
  refine ((h1.trans (Moves.foldl _ flushFrame_moves _ _).keeps).trans
    (updateCells_keeps (downCell_blank p) (downCell_twice p) fun c r h => ?_)).trans (finish_keeps _ _)
  unfold downCell
  split
  · exact h.retire
  · exact h

theorem trunkUp_keeps (s : State) : Keeps s (trunkUp s) := by
  unfold trunkUp
  split
  · exact .refl s
  · exact .of_inv fun h => { h with
      tables := { h.tables with }
      agent := fun _ => rfl
      trunk := ⟨Nat.zero_le _, Nat.zero_le _, Nat.zero_le _⟩ }

theorem trunkDown_keeps (s : State) : Keeps s (trunkDown s) :=
  .of_inv fun h => { h with
    tables := { h.tables with }
    agent := fun _ => rfl
    muted := fun k => Option.isSome_iff_ne_none.1 k
    trunk := ⟨Nat.zero_le _, Nat.zero_le _, Nat.zero_le _⟩ }

theorem silentEnding_keeps (s : State) (x : Channel) : Keeps s (silentEnding s x) := by
  unfold silentEnding
  split
  · exact .refl s
  · next k hk => exact (endCall_moves (State.handset_of_call hk) _ _).keeps.trans (finish_keeps _ _)

theorem restartExpiry_keeps (c : CellIx) (s : State) : Keeps s (restartExpiry c s) := by
  unfold restartExpiry
  split
  · next hs =>
    split
    · exact setCell_keeps fun ho => ho.serve (ho.present (by rw [hs]; nofun)) _
    · exact .refl s
  all_goals exact .refl s

theorem drainEvents_keeps {c : CellIx} {f : FollowOn} {s : State} (h : drainDue c s = some f) :
    Keeps s (eachContext (lossAtContext (fun d => decide (d = c)) .cellDrained) (event (enterFollowOn c f) s)) :=
  (event_steps (enterFollowOn_moves c f s (drainDue_draining h))).keeps.trans
    (eachContext_keeps (fun x s => lossAtContext_moves _ _ x s) _)

/-! ### Received frames -/

/-- A frame that a radio head sends is one of the frame commands. -/
theorem parseCell_moves {P : Channel → Prop} {c : CellIx} {kind : Byte} {fields : List Byte} {f : State → State}
    (h : parseCell c kind fields = some f) (s : State) : Moves P s (f s) := by
  unfold parseCell at h
  repeat' split at h
  all_goals cases h
  exacts [rxAttach_moves _ _ _ _ s, rxDetach_moves _ _ s, rxPresence_moves _ _ _ s, rxCallReq_moves _ _ s,
    rxMeas_moves _ _ _ _ _ s, rxLegAck_moves _ _ _ _ _ s, rxLegLost_moves _ _ _ s, rxPageRsp_moves _ _ _ s,
    rxVoxUp_moves _ _ _ _ s]

/-- A frame that the call server sends is one of the frame commands. -/
theorem parseTrunk_keeps {kind : Byte} {fields : List Byte} {f : State → State} (h : parseTrunk kind fields = some f)
    (s : State) : Keeps s (f s) := by
  unfold parseTrunk at h
  repeat' split at h
  all_goals cases h
  exacts [(rxVoxDown_moves _ _ _ s).keeps, (rxCallOpen_moves _ _ _ s).keeps, (rxCallClear_moves _ s).keeps,
    (rxPageReq_moves _ _ s).keeps, rxMgmt_keeps _ _ _ s]

theorem parseFrame_keeps {l : LinkIx} {bytes : List Byte} {f : State → State} (h : parseFrame l bytes = some f)
    (s : State) : Keeps s (f s) := by
  unfold parseFrame at h
  dsimp only at h
  repeat' split at h
  all_goals first
    | cases h
    | exact (parseCell_moves h s).keeps
    | exact parseTrunk_keeps h s

theorem receive_keeps (l : LinkIx) (bytes : List Byte) (s : State) : Keeps s (receive l bytes s) := by
  unfold receive
  split
  · split
    · exact (countMalformed_moves l s).keeps
    · split
      · split
        · exact ((countReceived_moves l s).trans (countMalformed_moves l _)).keeps
        · next h => exact parseFrame_keeps h s
      · exact (countCheckFailure_moves l s).keeps
  · exact .refl s

/-! ### Commands and steps -/

theorem powerOnReset_keeps (s : State) : Keeps s { State.reset with pending := s.pending } :=
  ⟨fun _ => State.reset_inv.withPending _, fun _ _ => ⟨State.reset_callsOk.agree, State.reset_callsOk.execution⟩⟩

/-- A management row is one event in which the request in execution runs its operation. -/
theorem row_keeps {tag : Tag} {fits : MgmtFrame → Bool} {op : State → State × MgmtAnswer} {s : State}
    (h : Keeps s (op s).1) : Keeps s (event (respond tag fits op) s) := event_keeps (respond_keeps h)

/-- A management row that only reads. -/
theorem read_keeps {tag : Tag} {fits : MgmtFrame → Bool} {op : State → State × MgmtAnswer} {s : State}
    (h : (op s).1 = s) : Keeps s (event (respond tag fits op) s) := row_keeps (by rw [h]; exact .refl s)

/-- Every command answers a next state that keeps the invariant, and the agreement of records and contexts. -/
theorem exec_keeps (c : Instr) (s : State) : ∃ t, exec c s = .next t ∧ Keeps s t := by
  cases c with
  | powerOnReset => exact ⟨_, rfl, powerOnReset_keeps s⟩
  | cellPortLineUp p => exact ⟨_, rfl, event_keeps (cellLineUp_keeps p s)⟩
  | cellPortLineDown p =>
    cases hl : (s.port p).link with
    | down => exact ⟨s, by simp only [exec, execCellPortLineDown, hl], .refl s⟩
    | up =>
      exact ⟨_, by simp only [exec, execCellPortLineDown, hl]; rfl, ((cellLineDown_keeps p s).trans
        (eachContext_keeps (fun x s => lossAtContext_moves _ _ x s) _)).trans (takes_keeps _ _)⟩
  | trunkLineUp => exact ⟨_, rfl, event_keeps (trunkUp_keeps s)⟩
  | trunkLineDown =>
    cases hl : s.trunk.link with
    | down => exact ⟨s, by simp only [exec, execTrunkLineDown, hl], .refl s⟩
    | up =>
      exact ⟨_, by simp only [exec, execTrunkLineDown, hl]; rfl,
        (trunkDown_keeps s).trans (.foldl _ silentEnding_keeps _ _)⟩
  | attachReq c h cl q => exact ⟨_, rfl, (event_steps (rxAttach_moves c h cl q s)).keeps⟩
  | detachInd c h => exact ⟨_, rfl, (event_steps (rxDetach_moves c h s)).keeps⟩
  | presence c h q => exact ⟨_, rfl, (event_steps (rxPresence_moves c h q s)).keeps⟩
  | callReq c h => exact ⟨_, rfl, (event_steps (rxCallReq_moves c h s)).keeps⟩
  | measRep c h ch qs ps => exact ⟨_, rfl, (event_steps (rxMeas_moves c h ch qs ps s)).keeps⟩
  | legAck c n ch o a => exact ⟨_, rfl, (event_steps (rxLegAck_moves c n ch o a s)).keeps⟩
  | legLost c ch cause => exact ⟨_, rfl, (event_steps (rxLegLost_moves c ch cause s)).keeps⟩
  | pageRsp c h q => exact ⟨_, rfl, (event_steps (rxPageRsp_moves c h q s)).keeps⟩
  | voxUplink c ch sq p => exact ⟨_, rfl, (event_steps (rxVoxUp_moves c ch sq p s)).keeps⟩
  | voxDownlink ch sq p => exact ⟨_, rfl, (event_steps (rxVoxDown_moves ch sq p s)).keeps⟩
  | callOpen ch h p => exact ⟨_, rfl, (event_steps (rxCallOpen_moves ch h p s)).keeps⟩
  | callClear ch => exact ⟨_, rfl, (event_steps (rxCallClear_moves ch s)).keeps⟩
  | pageReq h n => exact ⟨_, rfl, (event_steps (rxPageReq_moves h n s)).keeps⟩
  | mgmtReq tag op operands => exact ⟨_, rfl, event_keeps (rxMgmt_keeps tag op operands s)⟩
  | badOperation tag => exact ⟨_, rfl, read_keeps rfl⟩
  | readCaps tag => exact ⟨_, rfl, read_keeps rfl⟩
  | tableWrite tag i entry => exact ⟨_, rfl, row_keeps (tableWrite_keeps i entry s)⟩
  | tableRead tag t i => exact ⟨_, rfl, read_keeps (tableRead_state t i s)⟩
  | fieldModify tag i w => exact ⟨_, rfl, row_keeps (fieldModify_keeps i w s)⟩
  | tableClear tag t i => exact ⟨_, rfl, row_keeps (tableClear_keeps t i s)⟩
  | cellEnable tag n => exact ⟨_, rfl, row_keeps (onCell_keeps fun _ => enableCell_keeps)⟩
  | cellDisable tag n =>
    refine ⟨_, rfl, ?_⟩
    split
    · exact (row_keeps (onCell_keeps fun c _ => disableCell_keeps c s)).trans (disableLoss_keeps n s _)
    · exact .refl s
  | cellDrain tag n =>
    refine ⟨_, rfl, ?_⟩
    split
    · exact (row_keeps (onCell_keeps fun _ => drainCell_keeps _)).trans (drainStart_keeps n s _)
    · exact .refl s
  | cellRestart tag n =>
    refine ⟨_, rfl, ?_⟩
    split
    · exact (row_keeps (onCell_keeps fun _ => drainCell_keeps _)).trans (drainStart_keeps n s _)
    · exact .refl s
  | holdSet tag => exact ⟨_, rfl, row_keeps (hold_keeps _ s)⟩
  | holdClear tag => exact ⟨_, rfl, row_keeps (hold_keeps _ s)⟩
  | holdEnable tag e => exact ⟨_, rfl, row_keeps (hold_keeps _ s)⟩
  | holdStatus tag k => exact ⟨_, rfl, row_keeps (hold_keeps _ s)⟩
  | sweepStart tag k g => exact ⟨_, rfl, row_keeps (sweepStart_keeps k g s)⟩
  | sweepSuspend tag => exact ⟨_, rfl, row_keeps (sweepSuspend_keeps s)⟩
  | sweepResume tag => exact ⟨_, rfl, row_keeps (sweepResume_keeps s)⟩
  | sweepAbort tag => exact ⟨_, rfl, row_keeps (sweepAbort_keeps s)⟩
  | sweepStatus tag => exact ⟨_, rfl, read_keeps rfl⟩
  | evict tag h => exact ⟨_, rfl, row_keeps (evict_keeps h s)⟩
  | countersRead tag n b => exact ⟨_, rfl, row_keeps (countersRead_keeps n b s)⟩
  | restart tag => exact ⟨_, rfl, row_keeps (restartAll_keeps s)⟩
  | presenceDeadlineExpiry i => exact ⟨_, rfl, (event_steps (presenceExpiry_moves i s)).keeps⟩
  | guardDeadlineExpiry x => exact ⟨_, rfl, (event_steps (guardExpiry_moves x s)).keeps⟩
  | bridgeDeadlineExpiry x => exact ⟨_, rfl, (event_steps (bridgeExpiry_moves x s)).keeps⟩
  | rescueDeadlineExpiry x => exact ⟨_, rfl, (event_steps (rescueExpiry_moves x s)).keeps⟩
  | pendingDeadlineExpiry t => exact ⟨_, rfl, (event_steps (pendingExpiry_moves t s)).keeps⟩
  | drainDeadlineExpiry c =>
    cases hd : drainDue c s with
    | none => exact ⟨s, by simp only [exec, execDrainDeadlineExpiry, hd], .refl s⟩
    | some f => exact ⟨_, by simp only [exec, execDrainDeadlineExpiry, hd], drainEvents_keeps hd⟩
  | restartDeadlineExpiry c => exact ⟨_, rfl, event_keeps (restartExpiry_keeps c s)⟩
  | pageOccasion e => exact ⟨_, rfl, (event_steps (pageDue_moves e s)).keeps⟩
  | cellPortTransmitComplete p => exact ⟨_, rfl, (event_steps (completeCellTx_moves p s)).keeps⟩
  | trunkTransmitComplete => exact ⟨_, rfl, (event_steps (completeTrunkTx_moves s)).keeps⟩
  | sweepStep => exact ⟨_, rfl, (event_steps (stepSweep_moves s)).keeps⟩
  | hrqTake => exact ⟨_, rfl, (event_of_steps (takeIfRoom_steps s)).keeps⟩
  | waitingForRoomPost => exact ⟨_, rfl, (event_steps (offerPlace_moves s)).keeps⟩
  | noticeRefill => exact ⟨_, rfl, (event_steps (refill_moves s)).keeps⟩
  | receivedFrameDiscarded l bytes => exact ⟨_, rfl, event_keeps (receive_keeps l bytes s)⟩

theorem trunkDown_idle {s : State} (h : s.IdleOk) : (trunkDown s).IdleOk := ⟨h.ports, nofun⟩

theorem silentEnding_idle {s : State} (x : Channel) (h : s.IdleOk) : (silentEnding s x).IdleOk := by
  unfold silentEnding
  split
  · exact h
  · exact finish_idle h _

theorem disableLoss_idle {s : State} (n : Nat) (b : State) (h : s.IdleOk) : (disableLoss n b s).IdleOk := by
  unfold disableLoss
  split
  · exact h
  · split
    · exact eachContext_idle _ h
    · exact h

theorem drainStart_idle {s : State} (n : Nat) (b : State) (h : s.IdleOk) : (drainStart n b s).IdleOk := by
  unfold drainStart
  split
  · exact h
  · split
    · exact eachContext_idle _ h
    · exact h

/-- A command that completes with a state in which no idle port has work. -/
theorem idle_of_next {u t : State} (h : u.IdleOk) (hc : (.next u : Host.Outcome State Fault Refusal) = .next t) :
    t.IdleOk := Host.Outcome.next.inj hc ▸ h

/-- No command leaves an idle port in UP with a frame that waits: nearly every command is one event, and the others are
chains of events. -/
theorem exec_idle {c : Instr} {s t : State} (h : s.IdleOk) (hc : exec c s = .next t) : t.IdleOk := by
  cases c with
  | powerOnReset => exact idle_of_next (u := { State.reset with pending := s.pending }) (State.reset_idleOk.of rfl rfl rfl) hc
  | cellPortLineDown p =>
    simp only [exec, execCellPortLineDown] at hc
    split at hc
    · exact idle_of_next h hc
    · exact idle_of_next (takes_idle (eachContext_idle _ (finish_idle h _))) hc
  | trunkLineDown =>
    simp only [exec, execTrunkLineDown] at hc
    split at hc
    · exact idle_of_next h hc
    · exact idle_of_next (foldl_idle _ (fun _ x => silentEnding_idle x) _ (trunkDown_idle h)) hc
  | cellDisable tag n =>
    refine idle_of_next ?_ hc
    split
    · exact disableLoss_idle n s (event_idle _ h)
    · exact h
  | cellDrain tag n =>
    refine idle_of_next ?_ hc
    split
    · exact drainStart_idle n s (event_idle _ h)
    · exact h
  | cellRestart tag n =>
    refine idle_of_next ?_ hc
    split
    · exact drainStart_idle n s (event_idle _ h)
    · exact h
  | drainDeadlineExpiry c =>
    simp only [exec, execDrainDeadlineExpiry] at hc
    split at hc
    · exact idle_of_next h hc
    · exact idle_of_next (eachContext_idle _ (event_idle _ h)) hc
  | _ => exact idle_of_next (event_idle _ h) hc

/-- Settles O4: a step runs the front command from the state without it, or counts a millisecond. -/
theorem stepKeepsInvariant : Obligations.StepKeepsInvariant := fun s t hi hs => by
  cases hp : s.pending with
  | nil =>
    rw [step_idle hp] at hs
    cases hs
    exact ⟨hi.withNow _, fun h => ⟨h.agree, h.execution⟩, fun h => ⟨h.ports, h.trunk⟩⟩
  | cons c rest =>
    rw [step_pending hp] at hs
    obtain ⟨u, hu, hk⟩ := exec_keeps c { s with pending := rest }
    obtain rfl : u = t := by rw [hu] at hs; cases hs; rfl
    exact ⟨hk.inv (hi.withPending rest), fun h => hk.calls (hi.withPending rest) ⟨h.agree, h.execution⟩,
      fun h => exec_idle (s := { s with pending := rest }) (h.of rfl rfl rfl) hu⟩

end Sys2Proof.Machine
end

section
/-! PROOFS. The frame check, the bytes of a sealed frame, and what the frames that the part sends hold (R5, R10, R12, R18). -/

namespace Sys2Proof.Machine

/-! ### The frame check (R5) -/

/-- A register whose top bits are the given ones, the first of them the highest, and whose other bits are 0. -/
def topBits : List Bool → BitVec 16
  | [] => 0
  | b :: l => .cons b ((topBits l).extractLsb' 1 15)

theorem getLsbD_topBits (l : List Bool) {i : Nat} (hi : i < 16) :
    (topBits l).getLsbD i = (l[15 - i]?).getD false := by
  induction l generalizing i with
  | nil => simp [topBits]
  | cons b l ih =>
    rw [topBits, BitVec.getLsbD_cons]
    split
    · next h => subst h; rfl
    · next h =>
      rw [BitVec.getLsbD_extractLsb', decide_eq_true (by omega : i < 15), Bool.true_and, Nat.add_comm 1 i, ih (by omega),
        show 15 - i = 15 - (i + 1) + 1 by omega, List.getElem?_cons_succ]

/-- Fewer than 16 bits leave the lowest bit of the register at 0. -/
theorem topBits_low {l : List Bool} (h : l.length < 16) : (topBits l).getLsbD 0 = false := by
  rw [getLsbD_topBits l (by omega), List.getElem?_eq_none (by omega)]
  rfl

/-- The polynomial enters exactly when the bit differs from the register's top bit, and then sets the lowest bit. -/
theorem crcBit_low (r : BitVec 16) (b : Bool) : (crcBit r b).getLsbD 0 = (r.msb != b) := by
  unfold crcBit
  cases h : r.msb != b <;> simp

theorem shiftLeft_eq_iff {r v : BitVec 16} (hv : v.getLsbD 0 = false) :
    r <<< 1 = v ↔ ∀ i < 15, r.getLsbD i = v.getLsbD (i + 1) := by
  constructor
  · rintro rfl i hi
    rw [BitVec.getLsbD_shiftLeft, decide_eq_true (by omega : i + 1 < 16), decide_eq_false (by omega : ¬ i + 1 < 1)]
    rfl
  · refine fun h => BitVec.eq_of_getLsbD_eq fun i hi => ?_
    cases i with
    | zero => simpa using hv.symm
    | succ i =>
      rw [← h i (by omega), BitVec.getLsbD_shiftLeft, decide_eq_true hi, decide_eq_false (by omega : ¬ i + 1 < 1)]
      rfl

theorem eq_cons_iff {r v : BitVec 16} {b : Bool} :
    r = .cons b (v.extractLsb' 1 15) ↔ r.msb = b ∧ ∀ i < 15, r.getLsbD i = v.getLsbD (i + 1) := by
  constructor
  · rintro rfl
    refine ⟨by simp, fun i hi => ?_⟩
    rw [BitVec.getLsbD_cons, if_neg (by omega), BitVec.getLsbD_extractLsb', Nat.add_comm 1 i]
    simp [hi]
  · rintro ⟨hb, h⟩
    refine BitVec.eq_of_getLsbD_eq fun i hi => ?_
    rw [BitVec.getLsbD_cons]
    split
    · next h15 => subst h15; rw [← hb, BitVec.msb_eq_getLsbD_last]
    · rw [h i (by omega), BitVec.getLsbD_extractLsb', Nat.add_comm 1 i, decide_eq_true (by omega : i < 15), Bool.true_and]

/-- A bit leads to a register whose lowest bit is 0 only where it is the top bit that leaves. -/
theorem crcBit_eq_iff {r v : BitVec 16} (b : Bool) (hv : v.getLsbD 0 = false) :
    crcBit r b = v ↔ r = .cons b (v.extractLsb' 1 15) := by
  rw [eq_cons_iff]
  by_cases hb : r.msb = b
  · have hc : crcBit r b = r <<< 1 := by simp [crcBit, hb]
    rw [hc, shiftLeft_eq_iff hv]
    exact ⟨fun h => ⟨hb, h⟩, fun h => h.2⟩
  · refine ⟨fun h => ?_, fun h => absurd h.1 hb⟩
    have := crcBit_low r b
    rw [h, hv] at this
    exact absurd (by simpa using this.symm) hb

/-- Bits that enter the register leave 0 exactly when they are its top bits and the rest of it is 0. -/
theorem foldl_crcBit_eq_zero {l : List Bool} {r : BitVec 16} (h : l.length ≤ 16) :
    l.foldl crcBit r = 0 ↔ r = topBits l := by
  induction l generalizing r with
  | nil => rfl
  | cons b l ih =>
    rw [List.length_cons] at h
    rw [List.foldl_cons, ih (by omega), crcBit_eq_iff b (topBits_low (by omega))]
    rfl

/-- The bits of a 16-bit field in the order in which they enter the register. -/
def bitsOf (v : BitVec 16) : List Bool := [15, 14, 13, 12, 11, 10, 9, 8, 7, 6, 5, 4, 3, 2, 1, 0].map v.getLsbD

theorem topBits_bitsOf (v : BitVec 16) : topBits (bitsOf v) = v := by
  refine BitVec.eq_of_getLsbD_eq fun i hi => ?_
  rw [getLsbD_topBits _ hi]
  interval_cases i <;> rfl

theorem foldl_crcByte_bytes16 (r v : BitVec 16) : (bytes16 v).foldl crcByte r = (bitsOf v).foldl crcBit r := by
  simp [bytes16, crcByte, bitsOf, BitVec.getLsbD_extractLsb']

/-- A check agrees exactly when the register is 0 after it (R5). -/
theorem frameCheck_append_eq_zero (bytes : List Byte) (v : BitVec 16) :
    frameCheck (bytes ++ bytes16 v) = 0 ↔ v = frameCheck bytes := by
  unfold frameCheck
  rw [List.foldl_append, foldl_crcByte_bytes16, foldl_crcBit_eq_zero (by simp [bitsOf]), topBits_bitsOf]
  exact eq_comm

/-! ### Fields of two and of four bytes -/

theorem extract_eq {w : Nat} (v : BitVec w) (k : Nat) :
    v.extractLsb' k 8 = BitVec.ofNat 8 (v.toNat / 2 ^ k) := by
  rw [← Nat.shiftRight_eq_div_pow]
  rfl

theorem bytes16_eq (v : BitVec 16) : bytes16 v = [BitVec.ofNat 8 (v.toNat / 256), BitVec.ofNat 8 v.toNat] := by
  simp [bytes16, extract_eq]

theorem bytes32_eq (v : BitVec 32) : bytes32 v = [BitVec.ofNat 8 (v.toNat / 16777216), BitVec.ofNat 8 (v.toNat / 65536),
    BitVec.ofNat 8 (v.toNat / 256), BitVec.ofNat 8 v.toNat] := by
  simp [bytes32, extract_eq]

theorem bytes16_ofNat {n : Nat} (h : n < 65536) :
    ∃ hi lo : Byte, bytes16 (BitVec.ofNat 16 n) = [hi, lo] ∧ hi.toNat * 256 + lo.toNat = n := by
  refine ⟨_, _, bytes16_eq _, ?_⟩
  simp only [BitVec.toNat_ofNat]
  omega

/-! ### Sealed frames (R18) -/

theorem sealFrame_length (kind address : Byte) (fields : List Byte) :
    (sealFrame kind address fields).length = fields.length + 6 := by
  simp [sealFrame, bytes16]

theorem checkAgrees_append (bytes : List Byte) : checkAgrees (bytes ++ bytes16 (frameCheck bytes)) = true := by
  have hl : (bytes ++ bytes16 (frameCheck bytes)).length - 2 = bytes.length := by simp [bytes16]
  unfold checkAgrees
  rw [hl, List.drop_left, List.take_left]
  exact decide_eq_true rfl

theorem checkAgrees_sealFrame (kind address : Byte) (fields : List Byte) :
    checkAgrees (sealFrame kind address fields) = true := checkAgrees_append _

/-- The header of a frame of at most 512 bytes, which says its length. -/
theorem sealFrame_header (kind address : Byte) {fields : List Byte} (h : fields.length ≤ 506) :
    ∃ hi lo rest, sealFrame kind address fields = kind :: address :: hi :: lo :: rest ∧
      checkAgrees (sealFrame kind address fields) = true ∧
      hi.toNat * 256 + lo.toNat = (sealFrame kind address fields).length ∧
      (sealFrame kind address fields).length ≤ 512 := by
  obtain ⟨hi, lo, hb, hn⟩ := bytes16_ofNat (n := fields.length + 6) (by omega)
  rw [sealFrame_length]
  refine ⟨hi, lo, fields ++ bytes16 (frameCheck (kind :: address :: (bytes16 (BitVec.ofNat 16 (fields.length + 6)) ++ fields))),
    ?_, checkAgrees_sealFrame _ _ _, hn, by omega⟩
  rw [sealFrame, hb]
  rfl

/-- The bytes of a frame before its check. -/
theorem sealFrame_take (kind address : Byte) (fields : List Byte) : (sealFrame kind address fields).take (fields.length + 4) =
    kind :: address :: (bytes16 (BitVec.ofNat 16 (fields.length + 6)) ++ fields) := by
  unfold sealFrame
  refine List.take_left' ?_
  simp [bytes16]

/-! ### What the part sends -/

theorem CellTx.fields_length {t : CellTx} (h : ∀ c v, t = .vox c v → v.payload.length = 40) : t.fields.length ≤ 506 := by
  unfold CellTx.fields
  cases t with
  | vox c v => simp [h c v rfl]
  | control f => exact layOut_length _ _ _
  | legClose c x => exact layOut_length _ _ _

theorem RspData.bytes_length (d : RspData) : d.bytes.length ≤ 503 := by
  unfold RspData.bytes
  split
  · exact Nat.zero_le _
  · exact layOut_length _ _ _

theorem TrunkTx.mgmtRsp_length (tag : Tag) (a : MgmtAnswer) :
    (TrunkTx.reply (.mgmtRsp tag a)).fields.length = a.data.bytes.length + 3 := by
  simp [TrunkTx.fields, bytes16]

theorem TrunkTx.fields_length {t : TrunkTx} (h : ∀ v, t = .vox v → v.payload.length = 40) : t.fields.length ≤ 506 := by
  cases t with
  | vox v => simp [TrunkTx.fields, h v rfl]
  | notice b now => exact layOut_length _ _ _
  | reply r =>
    cases r with
    | callAck x r => exact layOut_length _ _ _
    | callDrop x c => exact layOut_length _ _ _
    | mgmtRsp tag a =>
      rw [mgmtRsp_length]
      have := a.data.bytes_length
      omega

theorem CellTx.address_eq (t : CellTx) : t.address = BitVec.ofNat 8 (t.dest.val - 16 * (portOf t.dest).val) := by
  have h : t.dest.val % 16 = t.dest.val - 16 * (portOf t.dest).val := by
    simp only [portOf]
    omega
  rw [← h]
  rfl

/-- A frame with room for its fields holds them, wherever the layout puts them. -/
theorem layOut_frame {limit : Nat} {ws : List (List Byte)} (kind address : Byte) (layout : Nat → Nat × List Byte)
    (h : ws.flatten.length ≤ limit) : FrameHolds ws (sealFrame kind address (layOut limit layout ws)) :=
  sealFrame_holds (layOut_held layout h) kind address

theorem TrunkTx.notice_holds {b : NoticeBody} {now : Time} (h : (b.parts ++ [bytes32 now]).flatten.length ≤ 506) :
    FrameHolds (b.parts ++ [bytes32 now]) (TrunkTx.notice b now).bytes := layOut_frame _ _ _ h

theorem RspData.holds {d : RspData} (h : d.words.flatten.length ≤ 503) : FieldsHeld d.words d.bytes := by
  unfold RspData.bytes
  split
  · exact ⟨[], [], [], .nil, rfl, rfl⟩
  · exact layOut_held _ h

theorem bytes32_option_length (h : Option (BitVec 32)) : (h.map bytes32).toList.flatten.length ≤ 4 := by
  cases h <;> simp [bytes32]

/-- Every frame sent on a cell port: its header, its check and its length. -/
theorem CellTx.bytes_sealed {t : CellTx} (h : ∀ c v, t = .vox c v → v.payload.length = 40) :
    ∃ hi lo rest, t.bytes = t.kind :: BitVec.ofNat 8 (t.dest.val - 16 * (portOf t.dest).val) :: hi :: lo :: rest ∧
      checkAgrees t.bytes = true ∧ hi.toNat * 256 + lo.toNat = t.bytes.length ∧ t.bytes.length ≤ 512 := by
  rw [← CellTx.address_eq]
  exact sealFrame_header t.kind t.address (CellTx.fields_length h)

/-- A VOX frame, laid out whole. -/
theorem vox_sealed (address : Byte) {v : Vox} (h : v.payload.length = 40) :
    (sealFrame 0x40 address (BitVec.ofNat 8 v.channel.val :: v.seq :: v.payload)).take 46 =
      0x40 :: address :: 0 :: 48 :: BitVec.ofNat 8 v.channel.val :: v.seq :: v.payload ∧
    (sealFrame 0x40 address (BitVec.ofNat 8 v.channel.val :: v.seq :: v.payload)).length = 48 := by
  have hl : (BitVec.ofNat 8 v.channel.val :: v.seq :: v.payload).length = 42 := by simp [h]
  have ht := sealFrame_take 0x40 address (BitVec.ofNat 8 v.channel.val :: v.seq :: v.payload)
  rw [hl] at ht
  exact ⟨ht, by rw [sealFrame_length, hl]⟩

/-- A MGMT-RSP, laid out whole but for the places in its data. -/
theorem mgmtRsp_sealed (tag : Tag) (a : MgmtAnswer) :
    (TrunkTx.reply (.mgmtRsp tag a)).bytes.length = 9 + a.data.bytes.length ∧
    (TrunkTx.reply (.mgmtRsp tag a)).bytes.take (7 + a.data.bytes.length) =
      0x64 :: 0 :: (bytes16 (BitVec.ofNat 16 (9 + a.data.bytes.length)) ++ (bytes16 tag ++ a.result.code :: a.data.bytes)) := by
  have hl := TrunkTx.mgmtRsp_length tag a
  have ht := sealFrame_take 0x64 0 (TrunkTx.reply (.mgmtRsp tag a)).fields
  have hn := sealFrame_length 0x64 0 (TrunkTx.reply (.mgmtRsp tag a)).fields
  rw [hl] at ht hn
  rw [show 7 + a.data.bytes.length = a.data.bytes.length + 3 + 4 by omega,
    show 9 + a.data.bytes.length = a.data.bytes.length + 3 + 6 by omega]
  exact ⟨hn, ht⟩

theorem frameCheck_digits : frameCheck [0x31, 0x32, 0x33, 0x34, 0x35, 0x36, 0x37, 0x38, 0x39] = 0x29B1#16 := by
  simp only [frameCheck, List.foldl_cons, List.foldl_nil]
  rw [(by decide : crcByte 0xFFFF#16 0x31 = 0xC782#16),
    (by decide : crcByte 0xC782#16 0x32 = 0x3DBA#16),
    (by decide : crcByte 0x3DBA#16 0x33 = 0x5BCE#16),
    (by decide : crcByte 0x5BCE#16 0x34 = 0x5349#16),
    (by decide : crcByte 0x5349#16 0x35 = 0x4560#16),
    (by decide : crcByte 0x4560#16 0x36 = 0x2EF4#16),
    (by decide : crcByte 0x2EF4#16 0x37 = 0x7718#16),
    (by decide : crcByte 0x7718#16 0x38 = 0xA12B#16),
    (by decide : crcByte 0xA12B#16 0x39 = 0x29B1#16)]

theorem location_parts (i : RecIx) (h : Option Hid) (r : LocationReport) (changed now : Time) :
    (NoticeBody.location i h r changed).parts ++ [bytes32 now] =
      number16 i.val :: ((h.map bytes32).toList ++ r.parts ++ [bytes32 changed, bytes32 now]) := by
  simp [NoticeBody.parts]

/-- The fields of a LOCATION notice fit its frame, whatever the record reports. -/
theorem location_parts_length (i : RecIx) (h : Option Hid) (r : LocationReport) (changed now : Time) :
    ((NoticeBody.location i h r changed).parts ++ [bytes32 now]).flatten.length ≤ 506 := by
  have hk := bytes32_option_length h
  have hr : r.parts.flatten.length ≤ 2 := by cases r <;> simp [LocationReport.parts, bytes8]
  simp only [NoticeBody.parts, number16, bytes16, bytes32, List.flatten_cons, List.flatten_append, List.flatten_nil,
    List.length_append, List.length_cons, List.length_nil, List.append_nil]
  omega

theorem pageOutcome_parts_length (h : Hid) (e : Option PageIx) (o : Option PageOutcome) (b : Bool) (now : Time) :
    ((NoticeBody.pageOutcome h e o b).parts ++ [bytes32 now]).flatten.length ≤ 506 := by
  have ho : (o.elim [] PageOutcome.parts).flatten.length ≤ 1 := by
    cases o with
    | none => simp
    | some o => cases o <;> simp [PageOutcome.parts, bytes8]
  simp only [NoticeBody.parts, bytes32, List.flatten_cons, List.flatten_append, List.flatten_nil, List.length_append,
    List.length_cons, List.length_nil, List.append_nil]
  omega

theorem registry_words_length (r : Record) : (RspData.registry r).words.flatten.length ≤ 503 := by
  have h1 := bytes32_option_length r.hid
  have h2 := bytes32_option_length r.deadline
  simp only [RspData.words, bytes32, List.flatten_cons, List.flatten_append, List.length_append, List.length_cons,
    List.length_nil]
  omega

/-- Settles O6: each frame is sealed over a layout with room for its fields. -/
theorem sentFramesSealed : Obligations.SentFramesSealed := by
  refine ⟨⟨frameCheck_digits, frameCheck_append_eq_zero⟩, fun t => CellTx.bytes_sealed,
    fun t h => sealFrame_header t.kind 0 (TrunkTx.fields_length h), fun c v h => ?_, fun c d n x h ar cr role slot => ?_,
    fun _ _ => rfl, fun _ _ _ _ _ => ⟨rfl, rfl, rfl⟩, fun h v => ⟨bytes16_eq v, bytes32_eq h⟩,
    fun c d n x h ar cr role slot => ?_,
    fun x r cause => ⟨layOut_frame _ _ _ (by simp), layOut_frame _ _ _ (by simp)⟩,
    fun h kept i c x now changed => ⟨?_, TrunkTx.notice_holds (by simp [NoticeBody.parts, bytes8, bytes32, number16, bytes16]),
      fun p rep v => ?_⟩,
    fun i v f k r p w => ?_, fun d => RspData.holds, fun tag a n hn => hn ▸ ⟨a.data.bytes_length, mgmtRsp_sealed tag a⟩⟩
  · obtain ⟨hc, hcl⟩ := vox_sealed (BitVec.ofNat 8 (c.val % 16)) h
    obtain ⟨ht, htl⟩ := vox_sealed 0 h
    exact ⟨hc, hcl, ht, htl⟩
  · simp only [List.forall_mem_cons, List.not_mem_nil, false_implies, implies_true, and_true]
    exact ⟨rfl, rfl, rfl, rfl, rfl, rfl, rfl⟩
  · simp only [List.forall_mem_cons, List.not_mem_nil, false_implies, implies_true, and_true]
    exact ⟨layOut_frame _ _ _ (by simp [bytes32]), layOut_frame _ _ _ (by simp [bytes32]),
      layOut_frame _ _ _ (by simp [bytes16, bytes32]), layOut_frame _ _ _ (by simp [bytes16, bytes32]),
      layOut_frame _ _ _ (by simp [bytes32]), layOut_frame _ _ _ (by simp)⟩
  · have hl := fun r => TrunkTx.notice_holds (location_parts_length i kept r changed now)
    simp only [location_parts] at hl
    simp only [List.forall_mem_cons, List.not_mem_nil, false_implies, implies_true, and_true]
    exact ⟨hl .removed, hl .absent, hl (.attached c), hl (.engaged c x)⟩
  · have ho := fun o => TrunkTx.notice_holds (pageOutcome_parts_length h p o rep now)
    simp only [List.forall_mem_cons, List.not_mem_nil, false_implies, implies_true, and_true]
    exact ⟨ho (some (.found c)), ho (some (.refused v)), ho (some .noAnswer), ho (some .busy), ho (some .notAttached),
      ho (some .listFull), ho none⟩
  · simp only [List.forall_mem_cons, List.not_mem_nil, false_implies, implies_true, and_true]
    exact ⟨RspData.holds (d := .recordIndex i) (by simp [RspData.words, number16, bytes16]),
      RspData.holds (d := .subscriber (some v)) (by simp [RspData.words, bytes32]),
      RspData.holds (d := .filter f) (by simp [RspData.words, bytes32]),
      RspData.holds (d := .config k) (by simp [RspData.words, number16, bytes16]),
      RspData.holds (registry_words_length r),
      RspData.holds (d := .portCounters p) (by simp [RspData.words, bytes32]),
      RspData.holds (d := .sweep w) (by simp [RspData.words, number16, bytes16])⟩

end Sys2Proof.Machine
end

section
/-! PROOFS. Received frames: a frame as the bytes of the line does what its command does, and the eight tests (R6, R7). -/

namespace Sys2Proof.Machine

/-! ### Fields read back from their bytes -/

theorem word16_bytes16 (v : BitVec 16) : word16 (v.extractLsb' 8 8) (v.extractLsb' 0 8) = v := by
  refine BitVec.eq_of_getLsbD_eq fun i hi => ?_
  simp [word16]
  grind

theorem hidOf_bytes32 (v : BitVec 32) :
    hidOf (v.extractLsb' 24 8) (v.extractLsb' 16 8) (v.extractLsb' 8 8) (v.extractLsb' 0 8) = v := by
  refine BitVec.eq_of_getLsbD_eq fun i hi => ?_
  simp [hidOf]
  grind

theorem word16_toNat (hi lo : Byte) : (word16 hi lo).toNat = hi.toNat * 256 + lo.toNat := by
  have h : hi.toNat * 256 = hi.toNat <<< 8 := by rw [Nat.shiftLeft_eq]
  rw [word16, BitVec.toNat_append, h, Nat.shiftLeft_add_eq_or_of_lt lo.isLt]

theorem flattenPairs_length (ps : List (Byte × Byte)) : (flattenPairs ps).length = 2 * ps.length := by
  induction ps with
  | nil => rfl
  | cons p ps ih => simp only [flattenPairs, List.length_cons, ih]; omega

theorem pairUp_flattenPairs (ps : List (Byte × Byte)) : pairUp (flattenPairs ps) = ps := by
  induction ps with
  | nil => rfl
  | cons p ps ih => rw [flattenPairs, pairUp, ih]

/-! ### Cells by port and address -/

theorem cellAt_portOf (c : CellIx) : cellAt (portOf c) (localAddress c) = c := by
  simp only [cellAt, portOf, localAddress, Fin.ext_iff]
  omega

theorem linkOf_inj {p q : PortIx} (h : linkOf p = linkOf q) : p = q := by
  simpa [linkOf, Fin.ext_iff] using h

theorem linkOf_ne_trunk (p : PortIx) : linkOf p ≠ trunkLink := by
  have := p.isLt
  simp only [linkOf, trunkLink, ne_eq, Fin.ext_iff]
  change ¬ p.val = 4
  omega

theorem byteIn_ofNat (a : Fin 16) : byteIn 16 (BitVec.ofNat 8 a.val) = some a := by
  refine byteIn_eq ?_
  rw [BitVec.toNat_ofNat]
  omega

/-! ### The tests of R6, one equation for each -/

theorem receive_down {l : LinkIx} {s : State} (h : linkUp l s = false) (bytes : List Byte) : receive l bytes s = s := by
  unfold receive
  rw [h]
  rfl

theorem receive_size {l : LinkIx} {bytes : List Byte} {s : State} (h : linkUp l s = true)
    (hn : bytes.length < 6 ∨ 512 < bytes.length) : receive l bytes s = countMalformed l s := by
  unfold receive
  rw [if_pos h, if_pos hn]

theorem receive_check {l : LinkIx} {bytes : List Byte} {s : State} (h : linkUp l s = true) (h6 : 6 ≤ bytes.length)
    (hn : bytes.length ≤ 512) (hc : checkAgrees bytes = false) : receive l bytes s = countCheckFailure l s := by
  unfold receive
  rw [if_pos h, if_neg (by omega), if_neg (by simp [hc])]

theorem receive_malformed {l : LinkIx} {bytes : List Byte} {s : State} (h : linkUp l s = true) (h6 : 6 ≤ bytes.length)
    (hn : bytes.length ≤ 512) (hc : checkAgrees bytes = true) (hp : parseFrame l bytes = none) :
    receive l bytes s = countMalformed l (countReceived l s) := by
  unfold receive
  rw [if_pos h, if_neg (by omega), if_pos hc, hp]

theorem receive_dispatch {l : LinkIx} {bytes : List Byte} {s : State} {f : State → State} (h : linkUp l s = true)
    (h6 : 6 ≤ bytes.length) (hn : bytes.length ≤ 512) (hc : checkAgrees bytes = true) (hp : parseFrame l bytes = some f) :
    receive l bytes s = f s := by
  unfold receive
  rw [if_pos h, if_neg (by omega), if_pos hc, hp]

theorem rxCell_down {c : CellIx} {s : State} (h : linkUp (linkOf (portOf c)) s = false) (n : Nat)
    (act : Option (State → State)) : rxCell c n act s = s := by
  unfold rxCell
  dsimp only
  rw [h]
  rfl

theorem rxCell_long {c : CellIx} {s : State} (h : linkUp (linkOf (portOf c)) s = true) {n : Nat} (hn : 512 < n)
    (act : Option (State → State)) : rxCell c n act s = countMalformed (linkOf (portOf c)) s := by
  unfold rxCell
  dsimp only
  rw [if_pos h, if_pos hn]

theorem rxCell_none {c : CellIx} {s : State} (h : linkUp (linkOf (portOf c)) s = true) {n : Nat} (hn : n ≤ 512) :
    rxCell c n none s = countMalformed (linkOf (portOf c)) (countReceived (linkOf (portOf c)) s) := by
  unfold rxCell
  dsimp only
  rw [if_pos h, if_neg (by omega)]

theorem rxCell_unknown {c : CellIx} {s : State} (h : linkUp (linkOf (portOf c)) s = true) {n : Nat} (hn : n ≤ 512)
    (hp : (s.cell c).present = false) (f : State → State) :
    rxCell c n (some f) s = countUnknownCell (linkOf (portOf c)) (countReceived (linkOf (portOf c)) s) := by
  unfold rxCell
  dsimp only
  rw [if_pos h, if_neg (by omega), if_neg (by simp [hp])]

theorem rxTrunk_down {s : State} (h : linkUp trunkLink s = false) (n : Nat) (act : Option (State → State)) :
    rxTrunk n act s = s := by
  unfold rxTrunk
  rw [h]
  rfl

theorem rxTrunk_long {s : State} (h : linkUp trunkLink s = true) {n : Nat} (hn : 512 < n)
    (act : Option (State → State)) : rxTrunk n act s = countMalformed trunkLink s := by
  unfold rxTrunk
  rw [if_pos h, if_pos hn]

theorem rxTrunk_none {s : State} (h : linkUp trunkLink s = true) {n : Nat} (hn : n ≤ 512) :
    rxTrunk n none s = countMalformed trunkLink (countReceived trunkLink s) := by
  unfold rxTrunk
  rw [if_pos h, if_neg (by omega)]

/-! ### A sealed frame, read back -/

theorem parseFrame_cellFrame (c : CellIx) (kind : Byte) {fields : List Byte} (h : fields.length ≤ 506) :
    parseFrame (cellFrame c kind fields).1 (cellFrame c kind fields).2 = parseCell c kind fields := by
  obtain ⟨hi, lo, hb, hn⟩ := bytes16_ofNat (n := fields.length + 6) (by omega)
  have hl : (linkOf (portOf c)).val < 4 := (portOf c).isLt
  simp only [cellFrame, sealFrame, hb, List.cons_append, List.nil_append, parseFrame]
  rw [word16_toNat, hn, if_pos (by simp [bytes16]), dif_pos hl, byteIn_ofNat]
  have ht : (fields ++ bytes16 (frameCheck (kind :: BitVec.ofNat 8 (localAddress c).val :: hi :: lo :: fields))).take
      ((fields ++ bytes16 (frameCheck (kind :: BitVec.ofNat 8 (localAddress c).val :: hi :: lo :: fields))).length - 2) =
      fields := List.take_left' (by simp [bytes16])
  dsimp only
  rw [ht]
  exact congrArg (parseCell · kind fields) (cellAt_portOf c)

theorem parseFrame_trunkFrame (kind : Byte) {fields : List Byte} (h : fields.length ≤ 506) :
    parseFrame (trunkFrame kind fields).1 (trunkFrame kind fields).2 = parseTrunk kind fields := by
  obtain ⟨hi, lo, hb, hn⟩ := bytes16_ofNat (n := fields.length + 6) (by omega)
  simp only [trunkFrame, sealFrame, hb, List.cons_append, List.nil_append, parseFrame]
  rw [word16_toNat, hn, if_pos (by simp [bytes16]), dif_neg (by decide), if_pos trivial]
  exact congrArg (parseTrunk kind) (List.take_left' (by simp [bytes16]))

/-! ### What a frame command is to its port -/

/-- A frame command of a radio head: the bytes it stands for, the work its owning block does, and that the bytes of a frame
which is not too long are read as that work. `act` is `none` where a field is out of its range (R7). -/
structure CellFrameOf (i : Instr) (c : CellIx) (kind : Byte) (fields : List Byte) (act : Option (State → State)) : Prop where
  bytes : frameBytes i = some (cellFrame c kind fields)
  meaning : ∀ s, exec i s = .next (event (rxCell c (fields.length + 6) act) s)
  parse : fields.length ≤ 506 → parseCell c kind fields = some (rxCell c (fields.length + 6) act) ∨
    (parseCell c kind fields = none ∧ act = none)
  wf : fields.length ≤ 506 → act.isSome = i.wf

/-- The same of a frame command of the call server. -/
structure TrunkFrameOf (i : Instr) (kind : Byte) (fields : List Byte) (act : Option (State → State)) : Prop where
  bytes : frameBytes i = some (trunkFrame kind fields)
  meaning : ∀ s, exec i s = .next (event (rxTrunk (fields.length + 6) act) s)
  parse : fields.length ≤ 506 → parseTrunk kind fields = some (rxTrunk (fields.length + 6) act) ∨
    (parseTrunk kind fields = none ∧ act = none)
  wf : fields.length ≤ 506 → act.isSome = i.wf

theorem byteIn_isSome (n : Nat) (b : Byte) : (byteIn n b).isSome = below n b := by
  unfold byteIn inRange below
  split <;> simp_all

theorem pairsIn_isSome (ps : List (Byte × Byte)) :
    (pairsIn ps).isSome = ps.all fun p => below 64 p.1 && below 64 p.2 := by
  induction ps with
  | nil => rfl
  | cons p ps ih =>
    rw [List.all_cons, ← ih, ← byteIn_isSome, ← byteIn_isSome, pairsIn]
    cases byteIn 64 p.1 <;> cases byteIn 64 p.2 <;> cases pairsIn ps <;> rfl

theorem ackTxn_isSome (t : BitVec 16) : (ackTxn t).isSome = decide (t.toNat < 4096) := by
  unfold ackTxn
  split <;> simp_all

theorem ackOutcome_isSome (o a : Byte) : (ackOutcome o a).isSome = ackFits o a := by
  unfold ackOutcome ackFits
  by_cases h0 : o = 0
  · rw [if_pos h0, if_pos h0, Option.isSome_map, byteIn_isSome]
    rfl
  · rw [if_neg h0, if_neg h0]
    by_cases h1 : o = 1
    · rw [if_pos h1, decide_eq_true h1, Bool.true_and]
      have hn : ∀ n : Nat, n < 256 → (a.toNat = n ↔ a = BitVec.ofNat 8 n) := fun n hn => by
        rw [← BitVec.toNat_inj, BitVec.toNat_ofNat]
        omega
      by_cases a1 : a = 1
      · subst a1; rfl
      by_cases a2 : a = 2
      · subst a2; rfl
      by_cases a3 : a = 3
      · subst a3; rfl
      have := (hn 1 (by omega)).not.2 a1
      have := (hn 2 (by omega)).not.2 a2
      have := (hn 3 (by omega)).not.2 a3
      rw [if_neg a1, if_neg a2, if_neg a3, Bool.eq_false_of_not_eq_true (b := _ && _) (by
        rw [Bool.and_eq_true, decide_eq_true_eq, decide_eq_true_eq]; omega)]
      rfl
    · rw [if_neg h1, decide_eq_false h1]
      rfl

/-! ### The frame commands, one by one -/

theorem attachReq_frame (c : CellIx) (h : Hid) (cl q : Byte) : CellFrameOf (.attachReq c h cl q) c 0x01 (bytes32 h ++ [cl, q])
    (match byteIn 4 cl, byteIn 64 q with
      | some clv, some qv => some (attach c h clv qv)
      | _, _ => none) where
  bytes := rfl
  meaning := fun _ => rfl
  parse := fun _ => .inl (congrArg (fun v => some (rxAttach c v cl q)) (hidOf_bytes32 h))
  wf := fun _ => by
    simp only [Instr.wf, ← byteIn_isSome]
    cases byteIn 4 cl <;> cases byteIn 64 q <;> rfl

theorem detachInd_frame (c : CellIx) (h : Hid) :
    CellFrameOf (.detachInd c h) c 0x02 (bytes32 h) (some (detach h)) where
  bytes := rfl
  meaning := fun _ => rfl
  parse := fun _ => .inl (congrArg (fun v => some (rxDetach c v)) (hidOf_bytes32 h))
  wf := fun _ => rfl

theorem presence_frame (c : CellIx) (h : Hid) (q : Byte) : CellFrameOf (.presence c h q) c 0x03 (bytes32 h ++ [q])
    ((byteIn 64 q).map fun qv s => (locationUpdate true c h qv s).2) where
  bytes := rfl
  meaning := fun _ => rfl
  parse := fun _ => .inl (congrArg (fun v => some (rxPresence c v q)) (hidOf_bytes32 h))
  wf := fun _ => by rw [Option.isSome_map, byteIn_isSome]; rfl

theorem callReq_frame (c : CellIx) (h : Hid) :
    CellFrameOf (.callReq c h) c 0x04 (bytes32 h) (some (requestCall c h)) where
  bytes := rfl
  meaning := fun _ => rfl
  parse := fun _ => .inl (congrArg (fun v => some (rxCallReq c v)) (hidOf_bytes32 h))
  wf := fun _ => rfl

theorem measRep_fields (h : Hid) (ch qs : Byte) (pairs : List (Byte × Byte)) :
    (bytes32 h ++ [ch, qs, BitVec.ofNat 8 pairs.length] ++ flattenPairs pairs).length = 7 + 2 * pairs.length := by
  rw [List.length_append, flattenPairs_length]
  rfl

theorem measRep_frame (c : CellIx) (h : Hid) (ch qs : Byte) (pairs : List (Byte × Byte)) :
    CellFrameOf (.measRep c h ch qs pairs) c 0x05 (bytes32 h ++ [ch, qs, BitVec.ofNat 8 pairs.length] ++ flattenPairs pairs)
    (match byteIn 128 ch, byteIn 64 qs, pairsIn (pairs.take Config.pairLimit) with
      | some x, some q, some ps => some (measReport c h x q ps)
      | _, _, _ => none) where
  bytes := rfl
  meaning := fun _ => by
    rw [measRep_fields, show 7 + 2 * pairs.length + 6 = 13 + 2 * pairs.length by omega]
    rfl
  parse := fun hn => .inl (by
    rw [measRep_fields] at hn
    rw [measRep_fields, show 7 + 2 * pairs.length + 6 = 13 + 2 * pairs.length by omega]
    have hc : (flattenPairs pairs).length = 2 * (BitVec.ofNat 8 pairs.length).toNat := by
      rw [flattenPairs_length, BitVec.toNat_ofNat]
      omega
    refine (if_pos hc).trans ?_
    change some (rxMeas c _ ch qs (pairUp (flattenPairs pairs))) = _
    rw [hidOf_bytes32, pairUp_flattenPairs]
    rfl)
  wf := fun hn => by
    rw [measRep_fields] at hn
    simp only [Instr.wf, ← byteIn_isSome, decide_eq_true (by omega : pairs.length ≤ 249), Bool.and_true]
    have hp := pairsIn_isSome (pairs.take 6)
    simp only [← byteIn_isSome] at hp
    rw [← hp]
    cases byteIn 128 ch <;> cases byteIn 64 qs <;> cases pairsIn (pairs.take 6) <;> rfl

theorem legAck_frame (c : CellIx) (t : BitVec 16) (ch o arg : Byte) :
    CellFrameOf (.legAck c t ch o arg) c 0x06 (bytes16 t ++ [ch, o, arg])
    (match ackTxn t, byteIn 128 ch, ackOutcome o arg with
      | some n, some x, some v => some (legAnswer c n x v)
      | _, _, _ => none) where
  bytes := rfl
  meaning := fun _ => rfl
  parse := fun _ => .inl (congrArg (fun v => some (rxLegAck c v ch o arg)) (word16_bytes16 t))
  wf := fun _ => by
    simp only [Instr.wf, ← byteIn_isSome, ← ackTxn_isSome, ← ackOutcome_isSome]
    cases ackTxn t <;> cases byteIn 128 ch <;> cases ackOutcome o arg <;> rfl

theorem legLost_frame (c : CellIx) (ch cause : Byte) :
    CellFrameOf (.legLost c ch cause) c 0x07 [ch, cause] ((byteIn 128 ch).map fun x => legLostAt c x cause) where
  bytes := rfl
  meaning := fun _ => rfl
  parse := fun _ => .inl rfl
  wf := fun _ => by rw [Option.isSome_map, byteIn_isSome]; rfl

theorem pageRsp_frame (c : CellIx) (h : Hid) (q : Byte) : CellFrameOf (.pageRsp c h q) c 0x08 (bytes32 h ++ [q])
    ((byteIn 64 q).map fun qv => pageResponse c h qv) where
  bytes := rfl
  meaning := fun _ => rfl
  parse := fun _ => .inl (congrArg (fun v => some (rxPageRsp c v q)) (hidOf_bytes32 h))
  wf := fun _ => by rw [Option.isSome_map, byteIn_isSome]; rfl

theorem voxUplink_frame (c : CellIx) (ch sq : Byte) (payload : List Byte) :
    CellFrameOf (.voxUplink c ch sq payload) c 0x40 (ch :: sq :: payload)
    (if payload.length = 40 then (byteIn 128 ch).map fun x => uplinkVoice c ⟨x, sq, payload⟩ else none) where
  bytes := rfl
  meaning := fun _ => by
    rw [show (ch :: sq :: payload).length + 6 = 8 + payload.length by simp only [List.length_cons]; omega]
    rfl
  parse := fun _ => by
    rw [show (ch :: sq :: payload).length + 6 = 8 + payload.length by simp only [List.length_cons]; omega]
    by_cases hp : payload.length = 40
    · exact .inl (if_pos hp)
    · exact .inr ⟨if_neg hp, if_neg hp⟩
  wf := fun _ => by
    by_cases hp : payload.length = 40
    · rw [if_pos hp, Option.isSome_map, byteIn_isSome]; simp [Instr.wf, hp]
    · rw [if_neg hp]; simp [Instr.wf, hp]

theorem voxDownlink_frame (ch sq : Byte) (payload : List Byte) :
    TrunkFrameOf (.voxDownlink ch sq payload) 0x40 (ch :: sq :: payload)
    (if payload.length = 40 then (byteIn 128 ch).map fun x => downlinkVoice ⟨x, sq, payload⟩ else none) where
  bytes := rfl
  meaning := fun _ => by
    rw [show (ch :: sq :: payload).length + 6 = 8 + payload.length by simp only [List.length_cons]; omega]
    rfl
  parse := fun _ => by
    rw [show (ch :: sq :: payload).length + 6 = 8 + payload.length by simp only [List.length_cons]; omega]
    by_cases hp : payload.length = 40
    · exact .inl (if_pos hp)
    · exact .inr ⟨if_neg hp, if_neg hp⟩
  wf := fun _ => by
    by_cases hp : payload.length = 40
    · rw [if_pos hp, Option.isSome_map, byteIn_isSome]; simp [Instr.wf, hp]
    · rw [if_neg hp]; simp [Instr.wf, hp]

theorem callOpen_frame (ch : Byte) (h : Hid) (p : Byte) : TrunkFrameOf (.callOpen ch h p) 0x41 (ch :: (bytes32 h ++ [p]))
    (match byteIn 128 ch, byteIn 4 p with
      | some x, some pv => some (openCall x h pv)
      | _, _ => none) where
  bytes := rfl
  meaning := fun _ => rfl
  parse := fun _ => .inl (congrArg (fun v => some (rxCallOpen ch v p)) (hidOf_bytes32 h))
  wf := fun _ => by
    simp only [Instr.wf, ← byteIn_isSome]
    cases byteIn 128 ch <;> cases byteIn 4 p <;> rfl

theorem callClear_frame (ch : Byte) :
    TrunkFrameOf (.callClear ch) 0x42 [ch] ((byteIn 128 ch).map fun x => clearCall x) where
  bytes := rfl
  meaning := fun _ => rfl
  parse := fun _ => .inl rfl
  wf := fun _ => by rw [Option.isSome_map, byteIn_isSome]; rfl

theorem pageReq_frame (h : Hid) (n : Byte) : TrunkFrameOf (.pageReq h n) 0x43 (bytes32 h ++ [n])
    (if 1 ≤ n.toNat ∧ n.toNat ≤ 8 then some (pageRequest h n.toNat) else none) where
  bytes := rfl
  meaning := fun _ => rfl
  parse := fun _ => .inl (congrArg (fun v => some (rxPageReq v n)) (hidOf_bytes32 h))
  wf := fun _ => by
    simp only [Instr.wf]
    split <;> simp_all

theorem mgmtReq_frame (tag : Tag) (op : Byte) (operands : List Byte) :
    TrunkFrameOf (.mgmtReq tag op operands) 0x44 (bytes16 tag ++ op :: operands)
    (some (enqueueRequest ⟨tag, op, operands⟩)) where
  bytes := rfl
  meaning := fun _ => by
    rw [show (bytes16 tag ++ op :: operands).length + 6 = 9 + operands.length by simp [bytes16]; omega]
    rfl
  parse := fun _ => .inl (by
    rw [show (bytes16 tag ++ op :: operands).length + 6 = 9 + operands.length by simp [bytes16]; omega]
    exact congrArg (fun v => some (rxMgmt v op operands)) (word16_bytes16 tag))
  wf := fun hn => by
    simp only [List.length_append, bytes16, List.length_cons, List.length_nil] at hn
    exact (decide_eq_true (by omega : operands.length ≤ 503)).symm

/-- Every command that stands for a frame is one of a radio head or of the call server. -/
theorem frame_of_bytes {i : Instr} {l : LinkIx} {bytes : List Byte} (hb : frameBytes i = some (l, bytes)) :
    (∃ c kind fields act, CellFrameOf i c kind fields act ∧ (l, bytes) = cellFrame c kind fields) ∨
      ∃ kind fields act, TrunkFrameOf i kind fields act ∧ (l, bytes) = trunkFrame kind fields := by
  have cell : ∀ {c kind fields act}, CellFrameOf i c kind fields act →
      ∃ c kind fields act, CellFrameOf i c kind fields act ∧ (l, bytes) = cellFrame c kind fields :=
    fun k => ⟨_, _, _, _, k, Option.some.inj (hb.symm.trans k.bytes)⟩
  have trunk : ∀ {kind fields act}, TrunkFrameOf i kind fields act →
      ∃ kind fields act, TrunkFrameOf i kind fields act ∧ (l, bytes) = trunkFrame kind fields :=
    fun k => ⟨_, _, _, k, Option.some.inj (hb.symm.trans k.bytes)⟩
  cases i with
  | attachReq c h cl q => exact .inl (cell (attachReq_frame c h cl q))
  | detachInd c h => exact .inl (cell (detachInd_frame c h))
  | presence c h q => exact .inl (cell (presence_frame c h q))
  | callReq c h => exact .inl (cell (callReq_frame c h))
  | measRep c h ch qs ps => exact .inl (cell (measRep_frame c h ch qs ps))
  | legAck c t ch o a => exact .inl (cell (legAck_frame c t ch o a))
  | legLost c ch cause => exact .inl (cell (legLost_frame c ch cause))
  | pageRsp c h q => exact .inl (cell (pageRsp_frame c h q))
  | voxUplink c ch sq p => exact .inl (cell (voxUplink_frame c ch sq p))
  | voxDownlink ch sq p => exact .inr (trunk (voxDownlink_frame ch sq p))
  | callOpen ch h p => exact .inr (trunk (callOpen_frame ch h p))
  | callClear ch => exact .inr (trunk (callClear_frame ch))
  | pageReq h n => exact .inr (trunk (pageReq_frame h n))
  | mgmtReq tag op b => exact .inr (trunk (mgmtReq_frame tag op b))
  | _ => cases hb

/-! ### Bytes and commands agree (log 8, log 23) -/

/-- The bytes of a radio head's frame run its command: the tests of R6 on the bytes are those of the command. -/
theorem receive_cellFrame {i : Instr} {c : CellIx} {kind : Byte} {fields : List Byte} {act : Option (State → State)}
    (h : CellFrameOf i c kind fields act) (s : State) :
    receive (cellFrame c kind fields).1 (cellFrame c kind fields).2 s = rxCell c (fields.length + 6) act s := by
  have hl : (cellFrame c kind fields).2.length = fields.length + 6 := sealFrame_length _ _ _
  have hc : checkAgrees (cellFrame c kind fields).2 = true := checkAgrees_sealFrame _ _ _
  cases hu : linkUp (linkOf (portOf c)) s with
  | false => exact (receive_down hu _).trans (rxCell_down hu _ _).symm
  | true =>
    by_cases hn : fields.length ≤ 506
    · have hp := parseFrame_cellFrame c kind hn
      rcases h.parse hn with k | ⟨k, rfl⟩
      · exact receive_dispatch hu (by omega) (by omega) hc (hp.trans k)
      · rw [rxCell_none hu (by omega)]
        exact receive_malformed hu (by omega) (by omega) hc (hp.trans k)
    · exact (receive_size hu (.inr (by omega))).trans (rxCell_long hu (by omega) _).symm

theorem receive_trunkFrame {i : Instr} {kind : Byte} {fields : List Byte} {act : Option (State → State)}
    (h : TrunkFrameOf i kind fields act) (s : State) :
    receive (trunkFrame kind fields).1 (trunkFrame kind fields).2 s = rxTrunk (fields.length + 6) act s := by
  have hl : (trunkFrame kind fields).2.length = fields.length + 6 := sealFrame_length _ _ _
  have hc : checkAgrees (trunkFrame kind fields).2 = true := checkAgrees_sealFrame _ _ _
  cases hu : linkUp trunkLink s with
  | false => exact (receive_down hu _).trans (rxTrunk_down hu _ _).symm
  | true =>
    by_cases hn : fields.length ≤ 506
    · have hp := parseFrame_trunkFrame kind hn
      rcases h.parse hn with k | ⟨k, rfl⟩
      · exact receive_dispatch hu (by omega) (by omega) hc (hp.trans k)
      · rw [rxTrunk_none hu (by omega)]
        exact receive_malformed hu (by omega) (by omega) hc (hp.trans k)
    · exact (receive_size hu (.inr (by omega))).trans (rxTrunk_long hu (by omega) _).symm

theorem event_congr {f g : State → State} {s : State} (h : f s = g s) : event f s = event g s := by
  unfold event
  rw [h]

theorem exec_received (l : LinkIx) (bytes : List Byte) (s : State) :
    exec (.receivedFrameDiscarded l bytes) s = .next (event (receive l bytes) s) := rfl

/-- Settles O7. -/
theorem frameBytesRunTheCommand : Obligations.FrameBytesRunTheCommand := fun i l bytes s h => by
  rw [exec_received]
  rcases frame_of_bytes h with ⟨c, kind, fields, act, hf, he⟩ | ⟨kind, fields, act, hf, he⟩
  · obtain rfl : l = (cellFrame c kind fields).1 := congrArg Prod.fst he
    obtain rfl : bytes = (cellFrame c kind fields).2 := congrArg Prod.snd he
    rw [hf.meaning s, event_congr (receive_cellFrame hf s)]
  · obtain rfl : l = (trunkFrame kind fields).1 := congrArg Prod.fst he
    obtain rfl : bytes = (trunkFrame kind fields).2 := congrArg Prod.snd he
    rw [hf.meaning s, event_congr (receive_trunkFrame hf s)]

end Sys2Proof.Machine
end

section
/-! PROOFS. The tests of R6 on a received frame: its bytes, its fields and its cell, each with the counters it touches. -/
namespace Sys2Proof.Machine

/-! ### What a parsed frame says of its bytes -/

/-- A parsed frame of a radio head has one of its kinds, at that kind's length. -/
theorem parseCell_fits {c : CellIx} {kind : Byte} {fields : List Byte} {f : State → State}
    (h : parseCell c kind fields = some f) :
    kind ∈ ([0x01, 0x02, 0x03, 0x04, 0x05, 0x06, 0x07, 0x08, 0x40] : List Byte) ∧
      lengthFits kind (fields.getD 6 0) (fields.length + 6) := by
  unfold parseCell at h
  repeat' split at h
  all_goals cases h
  all_goals subst_vars
  all_goals exact ⟨by decide, by simp_all [lengthFits] <;> omega⟩

theorem parseTrunk_fits {kind : Byte} {fields : List Byte} {f : State → State} (hn : fields.length ≤ 506)
    (h : parseTrunk kind fields = some f) :
    kind ∈ ([0x40, 0x41, 0x42, 0x43, 0x44] : List Byte) ∧ lengthFits kind (fields.getD 6 0) (fields.length + 6) := by
  unfold parseTrunk at h
  repeat' split at h
  all_goals cases h
  all_goals subst_vars
  all_goals exact ⟨by decide, by simp_all [lengthFits] <;> omega⟩

/-- A count of fields that fits the leading fields of a frame fits the frame. -/
theorem lengthFits_take {kind : Byte} {rest : List Byte} (h2 : 2 ≤ rest.length)
    (h : lengthFits kind ((rest.take (rest.length - 2)).getD 6 0) ((rest.take (rest.length - 2)).length + 6)) :
    lengthFits kind (rest.getD 6 0) (rest.length + 4) := by
  rw [List.length_take, show min (rest.length - 2) rest.length + 6 = rest.length + 4 by omega] at h
  by_cases hk : kind = 0x05
  · have h5 := h.2.2.2.2.1 hk
    rwa [List.getD_eq_getElem?_getD, List.getElem?_take_of_lt (by omega), ← List.getD_eq_getElem?_getD] at h
  · unfold lengthFits at h ⊢
    simpa only [hk, false_imp_iff] using h

theorem byteIn_le {n : Nat} {b : Byte} {i : Fin (n + 1)} (h : byteIn (n + 1) b = some i) : b.toNat ≤ n := by
  unfold byteIn inRange at h
  split at h
  · omega
  · cases h

/-- A frame that steps 3 to 6 of R6 let through has its length field, kind, address byte and length right. -/
theorem parseFrame_fits {l : LinkIx} {kind address hi lo : Byte} {rest : List Byte} {f : State → State}
    (h2 : 2 ≤ rest.length) (hn : rest.length ≤ 508)
    (h : parseFrame l (kind :: address :: hi :: lo :: rest) = some f) :
    hi.toNat * 256 + lo.toNat = rest.length + 4 ∧ kind ∈ kindsOf l ∧ address.toNat ≤ (if l.val < 4 then 15 else 0) ∧
      lengthFits kind (rest.getD 6 0) (rest.length + 4) := by
  have hf : (rest.take (rest.length - 2)).length ≤ 506 := by rw [List.length_take]; omega
  unfold parseFrame at h
  dsimp only at h
  split at h
  case isFalse => cases h
  case isTrue hw =>
    have hw' : hi.toNat * 256 + lo.toNat = rest.length + 4 := by
      rw [word16_toNat] at hw
      simpa using hw
    unfold kindsOf
    split at h
    · rename_i hl
      rw [if_pos hl, if_pos hl]
      cases ha : byteIn 16 address with
      | none => rw [ha] at h; cases h
      | some a =>
        rw [ha] at h
        obtain ⟨hk, hfit⟩ := parseCell_fits h
        exact ⟨hw', hk, byteIn_le ha, lengthFits_take h2 hfit⟩
    · rename_i hl
      rw [if_neg hl, if_neg hl]
      split at h
      · rename_i ha
        obtain ⟨hk, hfit⟩ := parseTrunk_fits hf h
        exact ⟨hw', hk, by rw [ha]; exact Nat.le_refl 0, lengthFits_take h2 hfit⟩
      · cases h

/-- A frame of which one of steps 3 to 6 of R6 fails is not let through. -/
theorem parseFrame_none {l : LinkIx} {kind address hi lo : Byte} {rest : List Byte} (h2 : 2 ≤ rest.length)
    (hn : rest.length ≤ 508)
    (h : hi.toNat * 256 + lo.toNat ≠ rest.length + 4 ∨ kind ∉ kindsOf l ∨
      (if l.val < 4 then 15 else 0) < address.toNat ∨ ¬ lengthFits kind (rest.getD 6 0) (rest.length + 4)) :
    parseFrame l (kind :: address :: hi :: lo :: rest) = none := by
  cases hp : parseFrame l (kind :: address :: hi :: lo :: rest) with
  | none => rfl
  | some f =>
    obtain ⟨hw, hk, ha, hf⟩ := parseFrame_fits h2 hn hp
    rcases h with h | h | h | h
    · exact absurd hw h
    · exact absurd hk h
    · omega
    · exact absurd hf h

/-! ### The counters of a frame that is not acted on -/

theorem event_eq_quiet {f : State → State} {s u : State} (h : f s = u) (q : Quiet s u) : event f s = u := by
  subst h
  exact event_quiet q

theorem quiet_countMalformed (l : LinkIx) (s : State) : Quiet s (countMalformed l s) := ⟨rfl, rfl, rfl, rfl, rfl, rfl, rfl⟩

theorem quiet_countCheckFailure (l : LinkIx) (s : State) : Quiet s (countCheckFailure l s) :=
  ⟨rfl, rfl, rfl, rfl, rfl, rfl, rfl⟩

theorem quiet_received_malformed (l : LinkIx) (s : State) : Quiet s (countMalformed l (countReceived l s)) :=
  ⟨rfl, rfl, rfl, rfl, rfl, rfl, rfl⟩

theorem quiet_received_unknownCell (l : LinkIx) (s : State) : Quiet s (countUnknownCell l (countReceived l s)) :=
  ⟨rfl, rfl, rfl, rfl, rfl, rfl, rfl⟩

/-! ### Tests 1 to 6 -/

theorem exec_received_down {l : LinkIx} {s : State} (h : linkUp l s = false) (bytes : List Byte) :
    exec (.receivedFrameDiscarded l bytes) s = .next s := by
  rw [exec_received, event_eq_quiet (receive_down h bytes) (Quiet.refl s)]

theorem exec_received_size {l : LinkIx} {bytes : List Byte} {s : State} (h : linkUp l s = true)
    (hn : bytes.length < 6 ∨ 512 < bytes.length) :
    exec (.receivedFrameDiscarded l bytes) s = .next (countMalformed l s) := by
  rw [exec_received, event_eq_quiet (receive_size h hn) (quiet_countMalformed l s)]

theorem exec_received_check {l : LinkIx} {bytes : List Byte} {s : State} (h : linkUp l s = true) (h6 : 6 ≤ bytes.length)
    (hn : bytes.length ≤ 512) (hc : checkAgrees bytes = false) :
    exec (.receivedFrameDiscarded l bytes) s = .next (countCheckFailure l s) := by
  rw [exec_received, event_eq_quiet (receive_check h h6 hn hc) (quiet_countCheckFailure l s)]

theorem exec_received_malformed {l : LinkIx} {bytes : List Byte} {s : State} (h : linkUp l s = true)
    (h6 : 6 ≤ bytes.length) (hn : bytes.length ≤ 512) (hc : checkAgrees bytes = true) (hp : parseFrame l bytes = none) :
    exec (.receivedFrameDiscarded l bytes) s = .next (countMalformed l (countReceived l s)) := by
  rw [exec_received, event_eq_quiet (receive_malformed h h6 hn hc hp) (quiet_received_malformed l s)]

/-! ### Tests 7 and 8 -/

theorem sealFrame_address (kind address : Byte) (fields : List Byte) : (sealFrame kind address fields).getD 1 0 = address :=
  rfl

theorem address_inj {a b : Fin 16} (h : BitVec.ofNat 8 a.val = BitVec.ofNat 8 b.val) : a = b :=
  Option.some.inj ((byteIn_ofNat a).symm.trans (h ▸ byteIn_ofNat b))

/-- Tests 7 and 8 on a radio head's frame. -/
theorem cellFrame_judged {i : Instr} {c : CellIx} {kind : Byte} {fields : List Byte} {act : Option (State → State)}
    (hf : CellFrameOf i c kind fields act) {s : State} (hu : linkUp (linkOf (portOf c)) s = true)
    (hn : fields.length ≤ 506) :
    (i.wf = false → exec i s = .next (countMalformed (linkOf (portOf c)) (countReceived (linkOf (portOf c)) s))) ∧
      (i.wf = true → (s.cell c).present = false →
        exec i s = .next (countUnknownCell (linkOf (portOf c)) (countReceived (linkOf (portOf c)) s))) := by
  rw [← hf.wf hn, hf.meaning s]
  cases act with
  | none =>
    exact ⟨fun _ => congrArg _ (event_eq_quiet (rxCell_none hu (by omega)) (quiet_received_malformed _ s)), nofun⟩
  | some f =>
    exact ⟨nofun, fun _ hp =>
      congrArg _ (event_eq_quiet (rxCell_unknown hu (by omega) hp f) (quiet_received_unknownCell _ s))⟩

/-- Test 7 on a frame of the call server. -/
theorem trunkFrame_judged {i : Instr} {kind : Byte} {fields : List Byte} {act : Option (State → State)}
    (hf : TrunkFrameOf i kind fields act) {s : State} (hu : linkUp trunkLink s = true) (hn : fields.length ≤ 506)
    (hw : i.wf = false) : exec i s = .next (countMalformed trunkLink (countReceived trunkLink s)) := by
  rw [← hf.wf hn] at hw
  rw [hf.meaning s]
  cases act with
  | none => exact congrArg _ (event_eq_quiet (rxTrunk_none hu (by omega)) (quiet_received_malformed _ s))
  | some f => cases hw

/-- Settles O8. -/
theorem framesJudged : Obligations.FramesJudged := by
  refine ⟨fun l bytes s => ⟨fun h => exec_received_down h bytes, exec_received_size, exec_received_check⟩,
    fun l kind address hi lo rest s hu hc h2 hn h => exec_received_malformed hu (by simp; omega) (by simp; omega) hc
      (parseFrame_none h2 hn h), fun i l bytes s hb hu hn => ?_⟩
  rcases frame_of_bytes hb with ⟨c, kind, fields, act, hf, he⟩ | ⟨kind, fields, act, hf, he⟩
  · obtain rfl : l = linkOf (portOf c) := congrArg Prod.fst he
    obtain rfl : bytes = sealFrame kind (BitVec.ofNat 8 (localAddress c).val) fields := congrArg Prod.snd he
    rw [sealFrame_length] at hn
    obtain ⟨hmal, hunk⟩ := cellFrame_judged hf hu (by omega)
    refine ⟨hmal, fun hw p a hl ha hp => hunk hw ?_⟩
    rw [sealFrame_address] at ha
    rwa [← linkOf_inj hl, ← address_inj ha, cellAt_portOf] at hp
  · obtain rfl : l = trunkLink := congrArg Prod.fst he
    obtain rfl : bytes = sealFrame kind 0 fields := congrArg Prod.snd he
    rw [sealFrame_length] at hn
    exact ⟨trunkFrame_judged hf hu (by omega), fun _ p a hl => absurd hl.symm (linkOf_ne_trunk p)⟩

end Sys2Proof.Machine
end

section
/-! PROOFS. Management requests (R13, R14, R180): a request that arrives, a row that stands for none, the one response. -/
namespace Sys2Proof.Machine

/-! ### Rows that stand for no request in execution (log 9) -/

theorem exec_respond_idle {c : Instr} {tag : Tag} {fits : MgmtFrame → Bool} {op : State → State × MgmtAnswer} {s : State}
    (hc : exec c s = .next (event (respond tag fits op) s)) (h : ¬ Executing tag fits s) : exec c s = .next s := by
  rw [hc, event_eq_quiet (respond_idle h op) (Quiet.refl s)]

theorem exec_row_idle {c : Instr} {tag : Tag} {fits : MgmtFrame → Bool} {s : State}
    (hr : managementRow c = some (tag, fits)) (h : ¬ Executing tag fits s) : exec c s = .next s := by
  have hx : ¬ executes tag fits s = true := fun he => h (executes_iff.1 he)
  cases c with
  | badOperation tag => cases hr; exact exec_respond_idle rfl h
  | readCaps tag => cases hr; exact exec_respond_idle rfl h
  | tableWrite tag i e => cases hr; exact exec_respond_idle rfl h
  | tableRead tag k i => cases hr; exact exec_respond_idle rfl h
  | fieldModify tag i f => cases hr; exact exec_respond_idle rfl h
  | tableClear tag k i => cases hr; exact exec_respond_idle rfl h
  | cellEnable tag n => cases hr; exact exec_respond_idle rfl h
  | cellDisable tag n => cases hr; exact congrArg Host.Outcome.next (if_neg hx)
  | cellDrain tag n => cases hr; exact congrArg Host.Outcome.next (if_neg hx)
  | cellRestart tag n => cases hr; exact congrArg Host.Outcome.next (if_neg hx)
  | holdSet tag => cases hr; exact exec_respond_idle rfl h
  | holdClear tag => cases hr; exact exec_respond_idle rfl h
  | holdEnable tag e => cases hr; exact exec_respond_idle rfl h
  | holdStatus tag c => cases hr; exact exec_respond_idle rfl h
  | sweepStart tag k g => cases hr; exact exec_respond_idle rfl h
  | sweepSuspend tag => cases hr; exact exec_respond_idle rfl h
  | sweepResume tag => cases hr; exact exec_respond_idle rfl h
  | sweepAbort tag => cases hr; exact exec_respond_idle rfl h
  | sweepStatus tag => cases hr; exact exec_respond_idle rfl h
  | evict tag hid => cases hr; exact exec_respond_idle rfl h
  | countersRead tag g c => cases hr; exact exec_respond_idle rfl h
  | restart tag => cases hr; exact exec_respond_idle rfl h
  | _ => cases hr

/-! ### The response (R13, R180) -/

theorem reply_down {r : Reply} {s : State} (h : s.trunk.link = .down) : reply r s = s := by
  unfold reply
  rw [h]

theorem reply_room {r : Reply} {s : State} (h : s.trunk.link = .up) (hl : s.trunk.replies.length < Config.replyCapacity) :
    reply r s = { s with trunk := { s.trunk with replies := s.trunk.replies ++ [r] } } := by
  unfold reply
  rw [h]
  exact if_pos hl

theorem reply_full {r : Reply} {s : State} (h : s.trunk.link = .up) (hl : Config.replyCapacity ≤ s.trunk.replies.length) :
    reply r s = { s with device := { s.device with replyOverflow := s.device.replyOverflow.bump } } := by
  unfold reply
  rw [h]
  exact if_neg (by omega)

/-- What a reply offered to the trunk leaves: the reply queue or the overflow counter changes, and nothing else. -/
theorem reply_eq (r : Reply) (s : State) :
    reply r s = { s with
      trunk := { s.trunk with
        replies := if s.trunk.link = .up ∧ s.trunk.replies.length < 256 then s.trunk.replies ++ [r] else s.trunk.replies }
      device := { s.device with
        replyOverflow := if s.trunk.link = .up ∧ 256 ≤ s.trunk.replies.length then s.device.replyOverflow.bump
          else s.device.replyOverflow } } := by
  cases hl : s.trunk.link with
  | down =>
    rw [reply_down hl, if_neg (by simp), if_neg (by simp)]
  | up =>
    by_cases hr : s.trunk.replies.length < 256
    · rw [reply_room hl hr, if_pos ⟨rfl, hr⟩, if_neg (by omega)]
    · rw [reply_full hl (Nat.le_of_not_lt hr), if_neg (by omega), if_pos ⟨rfl, Nat.le_of_not_lt hr⟩]

/-- The response of the request in execution: handed as a reply, unless it is to be discarded (R4, log 31). -/
theorem sendResponse_eq (tag : Tag) (a : MgmtAnswer) (s : State) :
    sendResponse tag a s = { s with
      trunk := { s.trunk with
        replies := if s.mgmtMuted = false ∧ s.trunk.link = .up ∧ s.trunk.replies.length < 256 then
          s.trunk.replies ++ [.mgmtRsp tag a] else s.trunk.replies }
      device := { s.device with
        replyOverflow := if s.mgmtMuted = false ∧ s.trunk.link = .up ∧ 256 ≤ s.trunk.replies.length then
          s.device.replyOverflow.bump else s.device.replyOverflow } } := by
  unfold sendResponse
  by_cases hm : s.mgmtMuted = true
  · rw [if_pos hm, if_neg (by simp [hm]), if_neg (by simp [hm])]
  · rw [if_neg hm, reply_eq]
    simp only [Bool.not_eq_true] at hm
    simp only [hm, true_and]

theorem sendResponse_mgmtIn (tag : Tag) (a : MgmtAnswer) (s : State) :
    (sendResponse tag a s).trunk.mgmtIn = s.trunk.mgmtIn := by
  rw [sendResponse_eq]

/-- Settles O53. -/
theorem responseHanded : Obligations.ResponseHanded := by
  refine ⟨fun c tag fits s hr h => exec_row_idle hr h, fun tag a s => ?_⟩
  unfold answered
  cases hm : s.trunk.mgmtIn with
  | nil =>
    rw [completeRequest_nothing ((sendResponse_mgmtIn tag a s).trans hm), sendResponse_eq]
    exact ⟨fun _ => ⟨rfl, hm⟩, nofun, rfl, rfl, rfl, rfl⟩
  | cons q qs =>
    rw [completeRequest_takes ((sendResponse_mgmtIn tag a s).trans hm), sendResponse_eq]
    refine ⟨nofun, fun _ _ h => ?_, rfl, rfl, rfl, rfl⟩
    obtain ⟨rfl, rfl⟩ := List.cons.inj h
    exact ⟨rfl, rfl⟩

/-! ### A request arrives (R14) -/

theorem exec_mgmtReq {tag : Tag} {op : Byte} {operands : List Byte} {s : State} (hu : s.trunk.link = .up)
    (hn : operands.length ≤ 503) :
    exec (.mgmtReq tag op operands) s = .next (event (fun s => enqueueRequest ⟨tag, op, operands⟩ (countReceived trunkLink s)) s) :=
  congrArg Host.Outcome.next (event_congr (rxTrunk_up hu (by omega) _))

/-- Settles O11. -/
theorem mgmtReqQueued : Obligations.MgmtReqQueued := fun _ _ _ s hu hn =>
  ⟨fun hl hb => runs_event (exec_mgmtReq hu hn) (enqueueRequest_waits hl hb) rfl rfl fun _ h => h,
    fun hl hb _ _ hr => runs_event (exec_mgmtReq hu hn) (enqueueRequest_taken hl hb hr) rfl rfl fun _ h => h,
    fun hl hr => runs_event (exec_mgmtReq hu hn) ((enqueueRequest_full (s := countReceived trunkLink s) hl).trans
      (reply_room (s := countReceived trunkLink s) hu hr)) rfl rfl fun _ h => h,
    fun hl hr => runs_event (exec_mgmtReq hu hn) ((enqueueRequest_full (s := countReceived trunkLink s) hl).trans
      (reply_full (s := countReceived trunkLink s) hu hr)) rfl rfl fun _ h => h⟩

end Sys2Proof.Machine
end

section
/-! PROOFS. The choice of a cell port (R10, R152): the oldest entry of a priority, the first pair of the close set, and the
order among them; and an event that changes ports alone. -/
namespace Sys2Proof.Machine

/-! ### The oldest entry of a priority -/

theorem takeFirst_oldest {p : Priority} {before after : List CtlFrame} {f : CtlFrame} (hf : f.priority = p)
    (hb : ∀ g ∈ before, g.priority ≠ p) : takeFirst p (before ++ f :: after) = some (f, before ++ after) := by
  induction before with
  | nil => exact if_pos hf
  | cons g gs ih =>
    rw [List.cons_append]
    unfold takeFirst
    rw [if_neg (hb g (by simp)), ih fun h hh => hb h (by simp [hh])]
    rfl

theorem takeFirst_absent {p : Priority} {q : List CtlFrame} (h : ∀ f ∈ q, f.priority ≠ p) : takeFirst p q = none := by
  induction q with
  | nil => rfl
  | cons f fs ih =>
    unfold takeFirst
    rw [if_neg (h f (by simp)), ih fun g hg => h g (by simp [hg])]

/-! ### The first pair of the close set -/

theorem firstPair_mem {l : List (CellIx × Channel)} {p : CellIx × Channel} (h : firstPair l = some p) : p ∈ l := by
  induction l generalizing p with
  | nil => cases h
  | cons r rs ih =>
    unfold firstPair at h
    cases hq : firstPair rs with
    | none => simp_all
    | some q =>
      have := ih hq
      rw [hq] at h
      dsimp only at h
      split at h <;> simp_all

theorem firstPair_least {l : List (CellIx × Channel)} {p : CellIx × Channel} (hp : p ∈ l)
    (hl : ∀ q ∈ l, p.2 < q.2 ∨ (p.2 = q.2 ∧ p.1 ≤ q.1)) : firstPair l = some p := by
  induction l with
  | nil => cases hp
  | cons r rs ih =>
    unfold firstPair
    by_cases hm : p ∈ rs
    · rw [ih hm fun q hq => hl q (by simp [hq])]
      have hr := hl r (by simp)
      by_cases hpr : r = p
      · simp [hpr, pairBefore]
      · have : pairBefore p r = true := by
          simp only [pairBefore, Bool.or_eq_true, Bool.and_eq_true, decide_eq_true_eq]
          rcases hr with hr | ⟨h2, h1⟩
          · exact .inl hr
          · exact .inr ⟨h2, lt_of_le_of_ne h1 fun h => hpr (Prod.ext h h2).symm⟩
        simp [this]
    · obtain rfl : p = r := by simpa [hm] using hp
      cases hq : firstPair rs with
      | none => rfl
      | some q =>
        have hmem : q ∈ rs := firstPair_mem hq
        have : pairBefore q p = false := by
          simp only [pairBefore, Bool.or_eq_false_iff, Bool.and_eq_false_iff, decide_eq_false_iff_not, not_lt]
          rcases hl q (by simp [hmem]) with h | ⟨h2, h1⟩
          · exact ⟨h.le, .inl h.ne'⟩
          · exact ⟨h2.le, .inr h1⟩
        simp [this]

/-! ### The choice -/

theorem sendPair_eq (port : CellPort) (d : CellIx) (x : Channel) :
    sendPair port (d, x) =
      { port with closes := port.closes.filter (fun q => q ≠ (d, x)), tx := some (.legClose d x) } := by
  unfold sendPair
  simp only [decide_not, ne_eq]

theorem chooseNext_voice {port : CellPort} {v : CellIx × Vox} {vs : List (CellIx × Vox)} (h : port.lane = v :: vs) :
    chooseNext port = { port with lane := vs, tx := some (.vox v.1 v.2) } := by
  unfold chooseNext
  rw [h]

theorem chooseNext_control {port : CellPort} (h : port.lane = []) : chooseNext port = sendControl port := by
  unfold chooseNext
  rw [h]

theorem pairBlocking_clear {port : CellPort} {f : CtlFrame}
    (h : ∀ d n x h r, f = .legOpen d n x h r → (d, x) ∉ port.closes) : pairBlocking port f = none := by
  cases f with
  | legOpen d n x hid r =>
    refine List.find?_eq_none.2 fun q hq he => h d n x hid r rfl ?_
    rwa [← of_decide_eq_true he]
  | _ => rfl

theorem pairBlocking_close {port : CellPort} {d : CellIx} {n : Txn} {x : Channel} {h : Hid} {r : Role}
    (hm : (d, x) ∈ port.closes) : pairBlocking port (.legOpen d n x h r) = some (d, x) := by
  unfold pairBlocking
  cases hf : port.closes.find? fun q => decide (q = (d, x)) with
  | none => exact absurd (decide_eq_true rfl) (List.find?_eq_none.1 hf _ hm)
  | some q => 
    have hq := List.find?_some hf
    exact hf.trans (congrArg some (of_decide_eq_true hq))

/-- A frame of priority 3 that waits for no close leaves first (R152). -/
theorem sendControl_first {port : CellPort} {before after : List CtlFrame} {f : CtlFrame}
    (hc : port.ctl = before ++ f :: after) (hf : f.priority = 3) (hb : ∀ g ∈ before, g.priority ≠ 3)
    (hp : pairBlocking port f = none) :
    sendControl port = { port with ctl := before ++ after, tx := some (.control f) } := by
  unfold sendControl
  rw [hc, takeFirst_oldest hf hb]
  dsimp only
  rw [hp]

/-- The close of its own leg goes before a LEG-OPEN of priority 3 (R152, exception). -/
theorem sendControl_close {port : CellPort} {before after : List CtlFrame} {f : CtlFrame} {d : CellIx} {x : Channel}
    (hc : port.ctl = before ++ f :: after) (hf : f.priority = 3) (hb : ∀ g ∈ before, g.priority ≠ 3)
    (hp : pairBlocking port f = some (d, x)) : sendControl port = sendPair port (d, x) := by
  unfold sendControl
  rw [hc, takeFirst_oldest hf hb]
  dsimp only
  rw [hp]

theorem sendControl_below {port : CellPort} (h : ∀ g ∈ port.ctl, g.priority ≠ 3) : sendControl port = sendBelow port := by
  unfold sendControl
  rw [takeFirst_absent h]

theorem sendBelow_pair {port : CellPort} {p : CellIx × Channel} (h : firstPair port.closes = some p) :
    sendBelow port = sendPair port p := by
  unfold sendBelow
  rw [h]

theorem sendFirst_absent {port : CellPort} {p : Priority} (h : ∀ f ∈ port.ctl, f.priority ≠ p) : sendFirst port p = none := by
  unfold sendFirst
  rw [takeFirst_absent h]
  rfl

theorem sendFirst_oldest {port : CellPort} {p : Priority} {before after : List CtlFrame} {f : CtlFrame}
    (hc : port.ctl = before ++ f :: after) (hf : f.priority = p) (hb : ∀ g ∈ before, g.priority ≠ p) :
    sendFirst port p = some { port with ctl := before ++ after, tx := some (.control f) } := by
  unfold sendFirst
  rw [hc, takeFirst_oldest hf hb]
  rfl

/-- With no pair to close, the oldest entry of the highest priority leaves (R152). -/
theorem sendBelow_highest {port : CellPort} {before after : List CtlFrame} {f : CtlFrame} (hn : port.closes = [])
    (hc : port.ctl = before ++ f :: after) (h3 : f.priority ≠ 3) (hb : ∀ g ∈ before, g.priority < f.priority)
    (ha : ∀ g ∈ after, g.priority ≤ f.priority) :
    sendBelow port = { port with ctl := before ++ after, tx := some (.control f) } := by
  have above : ∀ p, f.priority < p → sendFirst port p = none := fun p hp => by
    refine sendFirst_absent fun g hg => ne_of_lt (lt_of_le_of_lt ?_ hp)
    rw [hc] at hg
    rcases List.mem_append.1 hg with hg | hg
    · exact (hb g hg).le
    · rcases List.mem_cons.1 hg with rfl | hg
      · exact le_rfl
      · exact ha g hg
  have own := sendFirst_oldest hc rfl fun g hg => (hb g hg).ne
  have hp : f.priority = 2 ∨ f.priority = 1 ∨ f.priority = 0 := by
    generalize f.priority = p at h3
    revert p
    decide
  have hfp : firstPair port.closes = none := by rw [hn]; rfl
  unfold sendBelow
  rw [hfp]
  dsimp only
  rcases hp with hp | hp | hp <;> rw [hp] at above own
  · rw [own]
    rfl
  · rw [above 2 (by decide), own]
    rfl
  · rw [above 2 (by decide), above 1 (by decide), own]
    rfl

/-- A port with nothing that waits is left as it is. -/
theorem chooseNext_empty {port : CellPort} (hl : port.lane = []) (hc : port.ctl = []) (hp : port.closes = []) :
    chooseNext port = port := by
  rw [chooseNext_control hl, sendControl_below (by simp [hc])]
  have none : ∀ p, sendFirst port p = none := fun p => sendFirst_absent (by simp [hc])
  unfold sendBelow
  rw [hp]
  dsimp only [firstPair]
  rw [none, none, none]
  rfl

/-- A port that found nothing to send finds nothing when it chooses once more. -/
theorem chooseNext_again {port : CellPort} (h : (chooseNext port).tx = none) :
    chooseNext (chooseNext port) = chooseNext port := by
  obtain ⟨hl, hc, hp⟩ := chooseNext_idle port h
  exact chooseNext_empty hl hc hp

/-! ### An event that changes ports and cells alone -/

/-- What the end of such an event changes is ports alone. -/
theorem event_radio {f : State → State} {s : State} {ps : Table 4 CellPort} {cs : Table 64 CellRec}
    (h : f s = { s with ports := ps, cells := cs }) :
    EventEnd s { s with ports := ps, cells := cs } (event f s) ∧
      event f s = { s with ports := (event f s).ports, cells := cs } := by
  obtain ⟨he, hend⟩ := event_end (f := f) (s := s) (by rw [h]) (by rw [h]; exact Nat.le_refl _)
  rw [h] at he hend
  refine ⟨hend, ?_⟩
  obtain ⟨qs, hk, -⟩ := kickAll_spec s { s with ports := ps, cells := cs }
  have hf : finish s { s with ports := ps, cells := cs } = { s with ports := qs, cells := cs } := by
    have ht : kickTrunk s { s with ports := qs, cells := cs } = { s with ports := qs, cells := cs } := if_pos ⟨rfl, rfl⟩
    have hr : reportFills s { s with ports := qs, cells := cs } = { s with ports := qs, cells := cs } := by
      unfold reportFills
      rw [if_pos rfl, if_pos rfl, if_pos rfl]
    unfold finish
    rw [Nat.sub_self]
    simp only [offerPlaces]
    rw [hk, ht, hr]
    exact if_pos rfl
  rw [he, hf]

theorem exec_cellPortTransmitComplete_down {p : PortIx} {s : State} (h : (s.port p).link = .down) :
    exec (.cellPortTransmitComplete p) s = .next s := by
  have hc : completeCellTx p s = s := by
    unfold completeCellTx
    rw [h]
  exact congrArg Host.Outcome.next (event_eq_quiet hc (Quiet.refl s))

theorem completeCellTx_up {p : PortIx} {s : State} (h : (s.port p).link = .up) :
    ∃ ps, completeCellTx p s = { s with ports := ps } ∧
      ps.get CellPort.blank p = chooseNext { s.port p with tx := none } ∧
      ∀ q, q ≠ p → ps.get CellPort.blank q = s.port q := by
  unfold completeCellTx
  rw [h]
  dsimp only
  rw [choosePort_eq, State.port_setPort_self, if_neg (by simp [h])]
  refine ⟨_, rfl, Table.get_set_self _ _ _ _, fun q hq => ?_⟩
  exact (State.port_setPort_ne _ hq _).trans (State.port_setPort_ne _ hq _)

/-- The port that completes its frame makes its choice, and nothing else happens. -/
theorem runs_cellPortTransmitComplete {p : PortIx} {s : State} (h : (s.port p).link = .up) :
    Runs (.cellPortTransmitComplete p) s fun t => t = { s with ports := t.ports } ∧ (∀ q, q ≠ p → t.port q = s.port q) ∧
      t.port p = chooseNext { s.port p with tx := none } := by
  obtain ⟨ps, hc, hp, hq⟩ := completeCellTx_up h
  obtain ⟨hend, ht⟩ := event_radio hc
  refine ⟨_, rfl, ht, fun q hn => hend.port_same (hq q hn), ?_⟩
  have hu : ({ s with ports := ps } : State).port p = chooseNext { s.port p with tx := none } := hp
  rw [hend.ports p, hu]
  split
  · rfl
  · next hn => exact chooseNext_again (by_contra fun h => hn (.inr (.inr h)))

/-- Settles O47. -/
theorem portChoosesNext : Obligations.PortChoosesNext := fun p s => by
  refine ⟨exec_cellPortTransmitComplete_down, fun hu => ?_⟩
  obtain ⟨t, hx, ht, hq, hp⟩ := runs_cellPortTransmitComplete hu
  refine ⟨t, hx, ht, hq, fun v vs hl => hp.trans (chooseNext_voice (port := { s.port p with tx := none }) hl), fun hl => ?_⟩
  rw [hp, chooseNext_control (port := { s.port p with tx := none }) hl]
  refine ⟨fun before f after hc hf hb => ⟨fun hn => ?_, fun d n x h r he hm => ?_⟩,
    fun h3 => ⟨fun d x hm hle => ?_, fun hn => ⟨fun before f after hc hb ha => ?_, fun hc => ?_⟩⟩⟩
  · exact sendControl_first (port := { s.port p with tx := none }) hc hf hb (pairBlocking_clear hn)
  · subst he
    exact (sendControl_close (port := { s.port p with tx := none }) hc hf hb (pairBlocking_close hm)).trans
      (sendPair_eq _ d x)
  · rw [sendControl_below (port := { s.port p with tx := none }) h3]
    exact (sendBelow_pair (port := { s.port p with tx := none }) (firstPair_least hm hle)).trans (sendPair_eq _ d x)
  · rw [sendControl_below (port := { s.port p with tx := none }) h3]
    exact sendBelow_highest (port := { s.port p with tx := none }) hn hc (h3 f (by simp [hc])) hb ha
  · rw [← chooseNext_control (port := { s.port p with tx := none }) hl]
    exact chooseNext_empty (port := { s.port p with tx := none }) hl hc hn

end Sys2Proof.Machine
end

section
/-! PROOFS. The trunk completes a frame (R12, R37 to R39, R171): the choice settles in one step, and the record or page a
notice left for is not touched by the refill of its place. -/
namespace Sys2Proof.Machine

/-! ### The refill of a place (R39) -/

/-- The refill marks no record that is not dirty. -/
theorem refill_record {s : State} {i : RecIx} (h : (s.record i).dirty = false) : (refill s).record i = s.record i := by
  unfold refill
  split
  · split
    · next e _ => exact congrArg (fun rs => Table.get Record.blank rs i) (markOutcomeQueued_spec e s).2.2.1
    · split
      · next j hj =>
        have hne : i ≠ j := fun he => by
          have hd := Table.find_some _ _ _ hj
          rw [← he] at hd
          change ((s.record i).dirty && !(s.record i).queued) = true at hd
          rw [h] at hd
          cases hd
        exact State.record_setRecord_ne _ hne _
      · rfl
  · rfl

theorem markOutcomeQueued_free {s : State} {e f : PageIx} (h : s.page e = none) :
    (markOutcomeQueued f s).page e = none := by
  unfold markOutcomeQueued
  split
  · exact h
  · next p hp =>
    split
    · exact h
    · rw [State.page_setPage_ne _ (fun he => by rw [he, hp] at h; cases h)]
      exact h

/-- The refill takes no free page entry. -/
theorem refill_page {s : State} {e : PageIx} (h : s.page e = none) : (refill s).page e = none := by
  unfold refill
  split
  · split
    · exact markOutcomeQueued_free h
    · split <;> exact h
  · exact h

/-! ### The notice that leaves -/

theorem sendNotice_cons {s : State} {n : Notice} {ns : List Notice} (h : s.notices = n :: ns) :
    sendNotice s = refill { (buildNotice n { s with notices := ns }).2 with
      trunk := { (buildNotice n { s with notices := ns }).2.trunk with
        tx := some (.notice (buildNotice n { s with notices := ns }).1 s.now) } } := by
  unfold sendNotice
  rw [h]

theorem Record.settled_hid {r : Record} (h : r.enrolled = none) (a b : Bool) :
    ({ r with holder := r.holder.settled, dirty := a, queued := b } : Record).hid = none := by
  unfold Record.enrolled at h
  unfold Record.hid Holder.settled
  cases hh : r.holder with
  | present e => rw [hh] at h; cases h
  | empty => rfl
  | kept k => rfl

/-- A LOCATION notice takes the dirty and queued flags of its record with it, and a kept HID (R37). -/
theorem sendNotice_location {s : State} {i : RecIx} {ns : List Notice} (h : s.notices = .location i :: ns) :
    (sendNotice s).record i = { s.record i with holder := (s.record i).holder.settled, dirty := false, queued := false } := by
  rw [sendNotice_cons h, refill_record]
  · exact State.record_setRecord_self _ _ _
  · exact congrArg Record.dirty (State.record_setRecord_self _ _ _)

/-- A PAGE-OUTCOME notice frees its entry (R171). -/
theorem buildNotice_settled {s : State} {e : PageIx} {p : PageEntry} {o : PageOutcome} {b : Bool} (hp : s.page e = some p)
    (hs : p.status = .settled o b) :
    buildNotice (.pageOutcome e) s = (.pageOutcome p.hid (some e) (some o) p.repeatFlag, s.setPage e none) := by
  unfold buildNotice
  dsimp only
  rw [hp]
  dsimp only
  rw [hs]

theorem sendNotice_outcome {s : State} {e : PageIx} {p : PageEntry} {o : PageOutcome} {b : Bool} {ns : List Notice}
    (h : s.notices = .pageOutcome e :: ns) (hp : s.page e = some p) (hs : p.status = .settled o b) :
    (sendNotice s).page e = none := by
  rw [sendNotice_cons h, buildNotice_settled (s := { s with notices := ns }) hp hs]
  exact refill_page (State.page_setPage_self _ _ _)

/-! ### The choice of the trunk -/

theorem TrunkSide.eq {u t : State} (h : TrunkSide u t) :
    t = { u with trunk := t.trunk, notices := t.notices, records := t.records, pages := t.pages } := by
  obtain ⟨h1, h2, h3, h4, h5, h6, h7, h8, h9, h10, h11, h12, h13, h14, h15, h16, h17, h18⟩ := h
  cases u
  cases t
  dsimp only at *
  subst_vars
  rfl

theorem sendNotice_none {s : State} (h : s.notices = []) : sendNotice s = s := by
  unfold sendNotice
  rw [h]

theorem chooseTrunk_notice {s : State} (hl : s.trunk.link = .up) (hx : s.trunk.tx = none) (hv : s.trunk.voice = [])
    (hr : s.trunk.replies = []) : chooseTrunk s = sendNotice s := by
  unfold chooseTrunk
  rw [hl, hx, hv, hr]

theorem chooseTrunk_busy {s : State} (h : s.trunk.tx ≠ none) : chooseTrunk s = s := by
  unfold chooseTrunk
  cases hl : s.trunk.link with
  | down => rfl
  | up =>
    cases hx : s.trunk.tx with
    | none => exact absurd hx h
    | some f => rfl

/-- A trunk that has chosen chooses no more. -/
theorem chooseTrunk_again {s : State} (hl : s.trunk.link = .up) : chooseTrunk (chooseTrunk s) = chooseTrunk s := by
  have hu : (chooseTrunk s).trunk.link = .up := (chooseTrunk_spec s).link.trans hl
  by_cases hx : (chooseTrunk s).trunk.tx = none
  · obtain ⟨hv, hr, hn⟩ := chooseTrunk_idle s hu hx
    rw [chooseTrunk_notice hu hx hv hr, sendNotice_none hn]
  · exact chooseTrunk_busy hx

theorem kickPorts_same {s w : State} (h : w.ports = s.ports) (l : List PortIx) : l.foldl (kickPort s) w = w := by
  induction l with
  | nil => rfl
  | cons p l ih =>
    rw [List.foldl_cons]
    have hp : kickPort s w p = w := by
      unfold kickPort State.port
      rw [h, if_pos rfl]
    rw [hp, ih]

theorem kickTrunk_settled {s w : State} (h : chooseTrunk w = w) : kickTrunk s w = w := by
  unfold kickTrunk
  split
  · rfl
  · exact h

/-- The end of an event that changed the trunk, which has made its choice, and left ports and requests: only the hold and
the sweep may follow, and they do so only where the notice queue changed its length. -/
theorem finish_chosen {s w : State} (hp : w.ports = s.ports) (hq : w.hrq = s.hrq) (ha : w.answers = s.answers)
    (hh : w.hold = s.hold) (hc : chooseTrunk w = w) :
    finish s w = { w with hold := (finish s w).hold, sweep := (finish s w).sweep } ∧
      (w.notices.length = s.notices.length → (finish s w).hold = s.hold ∧ (finish s w).sweep = w.sweep) := by
  have hf : finish s w = holdTransition s.hold.active (reportFills s w) := by
    unfold finish
    rw [hq, Nat.sub_self]
    simp only [offerPlaces]
    rw [kickPorts_same hp, kickTrunk_settled hc]
  obtain ⟨v, hv, -⟩ := holdTransition_spec s.hold.active (reportFills s w)
  refine ⟨by rw [hf, hv]; rfl, fun hn => ?_⟩
  have hr : reportFills s w = w := by
    unfold reportFills
    rw [if_pos (by rw [hq]), if_pos (by rw [ha]), if_pos hn]
  rw [hf, hr]
  unfold holdTransition
  rw [if_pos (by rw [hh])]
  exact ⟨hh, rfl⟩

theorem exec_trunkTransmitComplete_down {s : State} (h : s.trunk.link = .down) :
    exec .trunkTransmitComplete s = .next s := by
  have hc : completeTrunkTx s = s := by
    unfold completeTrunkTx
    rw [h]
  exact congrArg Host.Outcome.next (event_eq_quiet hc (Quiet.refl s))

/-- The trunk without the frame it has sent. -/
def trunkFree (s : State) : State := { s with trunk := { s.trunk with tx := none } }

/-- What a notice says depends on the records and the page list alone. -/
theorem buildNotice_says {s u : State} (hr : u.records = s.records) (hp : u.pages = s.pages) (n : Notice) :
    (buildNotice n u).1 = (buildNotice n s).1 := by
  cases n with
  | location i =>
    unfold buildNotice State.record
    rw [hr]
  | callReq h i c => rfl
  | immediate h o => rfl
  | pageOutcome e =>
    have hp : u.page e = s.page e := by
      unfold State.page
      rw [hp]
    unfold buildNotice
    dsimp only
    rw [hp]
    cases s.page e with
    | none => rfl
    | some p => cases hst : p.status <;> simp only [hst]

theorem completeTrunkTx_up {s : State} (h : s.trunk.link = .up) : completeTrunkTx s = chooseTrunk (trunkFree s) := by
  unfold completeTrunkTx
  rw [h]
  rfl

/-- The trunk that completes its frame makes its choice; the hold and the sweep follow the notice queue. -/
theorem runs_trunkTransmitComplete {s : State} (h : s.trunk.link = .up) :
    Runs .trunkTransmitComplete s fun t =>
      t = { chooseTrunk (trunkFree s) with hold := t.hold, sweep := t.sweep } ∧
        ((chooseTrunk (trunkFree s)).notices.length = s.notices.length → t.hold = s.hold ∧ t.sweep = s.sweep) := by
  have hspec := chooseTrunk_spec (trunkFree s)
  have hc := completeTrunkTx_up h
  obtain ⟨hf, hsame⟩ := finish_chosen (s := s) (w := chooseTrunk (trunkFree s)) hspec.side.ports hspec.side.hrq
    hspec.side.answers hspec.side.hold (chooseTrunk_again h)
  have he : event completeTrunkTx s = finish s (chooseTrunk (trunkFree s)) := by
    rw [(event_end (f := completeTrunkTx) (s := s) (by rw [hc]; exact hspec.side.hrq)
      (by unfold State.inExecution; rw [hc, hspec.side.calls]; exact Nat.le_refl _)).1, hc]
  refine ⟨_, rfl, ?_, fun hn => ?_⟩
  · rw [he]
    exact hf
  · rw [he]
    exact ⟨(hsame hn).1, (hsame hn).2.trans hspec.side.sweep⟩

/-- Settles O12. -/
theorem trunkTransmitCompletes : Obligations.TrunkTransmitCompletes := fun s => by
  refine ⟨exec_trunkTransmitComplete_down, fun hu => ?_⟩
  obtain ⟨t, hx, ht, hhold⟩ := runs_trunkTransmitComplete hu
  have hspec := chooseTrunk_spec (trunkFree s)
  have hchose : TrunkChose (trunkFree s) (chooseTrunk (trunkFree s)) := by
    have := hspec.chose
    rwa [if_neg (by simp [trunkFree, hu])] at this
  obtain ⟨htrunk, hnotices, hrecords, hpages⟩ : t.trunk = (chooseTrunk (trunkFree s)).trunk ∧
      t.notices = (chooseTrunk (trunkFree s)).notices ∧ t.records = (chooseTrunk (trunkFree s)).records ∧
      t.pages = (chooseTrunk (trunkFree s)).pages := by
    rw [ht]
    exact ⟨rfl, rfl, rfl, rfl⟩
  refine ⟨t, hx, hchose.congr rfl rfl rfl rfl rfl htrunk hnotices hrecords hpages, ?_, fun i hi => ?_, fun e q he hq => ?_,
    fun hn => hhold (by rw [← hnotices]; exact hn), fun hv hr n ns hn => ?_⟩
  · rw [ht, hspec.side.eq]
    rfl
  · have := hspec.registry i hi
    unfold State.record at this ⊢
    rwa [hrecords]
  · have := hspec.paging e q he hq
    unfold State.page at this ⊢
    rwa [hpages]
  · have hc : chooseTrunk (trunkFree s) = sendNotice (trunkFree s) := chooseTrunk_notice hu rfl hv hr
    have htx : t.trunk.tx = some (.notice (buildNotice n s).1 s.now) := by
      rw [htrunk, hc, (sendNotice_spec (trunkFree s) n ns hn).2.1]
      rw [buildNotice_says (u := trunkFree s) (s := s) rfl rfl]
      rfl
    refine ⟨fun i hi => ?_, fun e p o b he hp hs => ?_, fun h i c he => ?_, fun h o he => ?_⟩
    · subst hi
      have hrec : t.record i = { s.record i with
          holder := (s.record i).holder.settled, dirty := false, queued := false } := by
        unfold State.record
        rw [hrecords, hc]
        exact sendNotice_location hn
      rw [hrec]
      exact ⟨htx, rfl, rfl, Holder.settled_enrolled _ _ _, fun he => Record.settled_hid he _ _⟩
    · subst he
      rw [buildNotice_settled hp hs] at htx
      refine ⟨htx, ?_⟩
      unfold State.page
      rw [hpages, hc]
      exact sendNotice_outcome hn hp hs
    · subst he
      exact htx
    · subst he
      exact htx

end Sys2Proof.Machine
end

section
/-! PROOFS. What the operations on cells, control queues, close sets and pending answers change (R60, R68, R139, R147, R151,
R154): one relation that composes along an event, with the frames offered, the pairs added and the slots released. -/
namespace Sys2Proof.Machine

/-! ### The relation -/

/-- A port before and after operations that offer at most `n` frames without an owner, and withdraw others. -/
structure PortStep (n : Nat) (a b : CellPort) : Prop where
  link : b.link = a.link
  lane : b.lane = a.lane
  tx : b.tx = a.tx
  length : b.ctl.length ≤ a.ctl.length + n
  entries : ∀ f ∈ b.ctl, f ∈ a.ctl ∨ f.owner = none

/-- The pairs `added` enter their close sets where these have room, and no other pair does (R151). -/
structure ClosesAdded (added : List (CellIx × Channel)) (s t : State) : Prop where
  held : ∀ p, ∀ q ∈ (s.port p).closes, q ∈ (t.port p).closes
  new : ∀ p, ∀ q ∈ (t.port p).closes, q ∈ (s.port p).closes ∨ (q ∈ added ∧ p = portOf q.1)
  length : ∀ p, (t.port p).closes.length ≤ (s.port p).closes.length + added.length
  entered : ∀ q ∈ added, (s.port (portOf q.1)).link = .up →
    (s.port (portOf q.1)).closes.length + added.length ≤ 256 → q ∈ (t.port (portOf q.1)).closes

/-- Operations that touch cells, cell ports and pending answers alone. -/
structure RadioStep (n : Nat) (added : List (CellIx × Channel)) (released : List CellIx) (s t : State) : Prop where
  only : t = { s with ports := t.ports, cells := t.cells, answers := t.answers }
  ports : ∀ p, PortStep n (s.port p) (t.port p)
  closes : ClosesAdded added s t
  slots : SlotsReleased released s t

theorem PortStep.refl (a : CellPort) : PortStep 0 a a := ⟨rfl, rfl, rfl, le_rfl, fun _ => .inl⟩

theorem PortStep.trans {m n : Nat} {a b c : CellPort} (h : PortStep m a b) (k : PortStep n b c) : PortStep (m + n) a c where
  link := k.link.trans h.link
  lane := k.lane.trans h.lane
  tx := k.tx.trans h.tx
  length := by have := h.length; have := k.length; omega
  entries := fun f hf => (k.entries f hf).elim (h.entries f) .inr

theorem ClosesAdded.same {s t : State} (h : ∀ p, (t.port p).closes = (s.port p).closes) : ClosesAdded [] s t where
  held := fun p q hq => by rwa [h p]
  new := fun p q hq => by rw [h p] at hq; exact .inl hq
  length := fun p => (congrArg List.length (h p)).le
  entered := nofun

theorem ClosesAdded.trans {as bs : List (CellIx × Channel)} {s t u : State} (h : ClosesAdded as s t)
    (hl : ∀ p, (t.port p).link = (s.port p).link) (k : ClosesAdded bs t u) : ClosesAdded (as ++ bs) s u where
  held := fun p q hq => k.held p q (h.held p q hq)
  new := fun p q hq => by
    rcases k.new p q hq with hq | ⟨hq, hp⟩
    · exact (h.new p q hq).imp_right fun ⟨hq, hp⟩ => ⟨List.mem_append_left _ hq, hp⟩
    · exact .inr ⟨List.mem_append_right _ hq, hp⟩
  length := fun p => by
    have := h.length p
    have := k.length p
    rw [List.length_append]
    omega
  entered := fun q hq hu hr => by
    rw [List.length_append] at hr
    have := h.length (portOf q.1)
    rcases List.mem_append.1 hq with hq | hq
    · exact k.held _ q (h.entered q hq hu (by omega))
    · exact k.entered q hq (by rw [hl]; exact hu) (by omega)

theorem SlotsReleased.same {s t : State} (h : ∀ c, (t.cell c).occupancy = (s.cell c).occupancy) : SlotsReleased [] s t :=
  fun c => by rw [h c]; rfl

theorem SlotsReleased.trans {as bs : List CellIx} {s t u : State} (h : SlotsReleased as s t) (k : SlotsReleased bs t u) :
    SlotsReleased (as ++ bs) s u := fun c => by
  rw [k c, h c, List.count_append, Nat.sub_sub]

theorem RadioStep.refl (s : State) : RadioStep 0 [] [] s s :=
  ⟨rfl, fun _ => .refl _, .same fun _ => rfl, .same fun _ => rfl⟩

theorem RadioStep.trans {m n : Nat} {as bs : List (CellIx × Channel)} {cs ds : List CellIx} {s t u : State}
    (h : RadioStep m as cs s t) (k : RadioStep n bs ds t u) : RadioStep (m + n) (as ++ bs) (cs ++ ds) s u where
  only := by rw [k.only, h.only]
  ports := fun p => (h.ports p).trans (k.ports p)
  closes := h.closes.trans (fun p => (h.ports p).link) k.closes
  slots := h.slots.trans k.slots

theorem RadioStep.call {n : Nat} {as : List (CellIx × Channel)} {cs : List CellIx} {s t : State}
    (h : RadioStep n as cs s t) (x : Channel) : t.call x = s.call x := by rw [h.only]; rfl

theorem RadioStep.record {n : Nat} {as : List (CellIx × Channel)} {cs : List CellIx} {s t : State}
    (h : RadioStep n as cs s t) (i : RecIx) : t.record i = s.record i := by rw [h.only]; rfl

theorem RadioStep.hrq {n : Nat} {as : List (CellIx × Channel)} {cs : List CellIx} {s t : State}
    (h : RadioStep n as cs s t) : t.hrq = s.hrq := by rw [h.only]

theorem RadioStep.device {n : Nat} {as : List (CellIx × Channel)} {cs : List CellIx} {s t : State}
    (h : RadioStep n as cs s t) : t.device = s.device := by rw [h.only]

theorem RadioStep.trunk {n : Nat} {as : List (CellIx × Channel)} {cs : List CellIx} {s t : State}
    (h : RadioStep n as cs s t) : t.trunk = s.trunk := by rw [h.only]

theorem RadioStep.notices {n : Nat} {as : List (CellIx × Channel)} {cs : List CellIx} {s t : State}
    (h : RadioStep n as cs s t) : t.notices = s.notices := by rw [h.only]

/-! ### Offers -/

theorem takeLast_mem {α : Type} {p : α → Bool} {l rest : List α} {v : α} (h : takeLast p l = some (v, rest)) :
    v ∈ l ∧ p v = true ∧ ∀ a ∈ rest, a ∈ l := by
  induction l generalizing v rest with
  | nil => cases h
  | cons a as ih =>
    unfold takeLast at h
    split at h
    · next w r hr =>
      cases h
      obtain ⟨hv, hp, hm⟩ := ih hr
      exact ⟨List.mem_cons_of_mem _ hv, hp, fun b hb => by
        rcases List.mem_cons.1 hb with rfl | hb
        · exact List.mem_cons_self
        · exact List.mem_cons_of_mem _ (hm b hb)⟩
    · split at h
      · next hp =>
        cases h
        exact ⟨List.mem_cons_self, hp, fun b => List.mem_cons_of_mem _⟩
      · cases h

theorem victimOf_mem {p : Priority} {q rest : List CtlFrame} {v : CtlFrame} (h : victimOf p q = some (v, rest)) :
    v ∈ q ∧ v.priority < p ∧ ∀ f ∈ rest, f ∈ q := by
  unfold victimOf at h
  split at h
  · next hl =>
    obtain ⟨hv, hp, hm⟩ := takeLast_mem h
    exact ⟨hv, by rwa [of_decide_eq_true hp], hm⟩
  · cases h

/-- What an offer does to its port: nothing, or the frame is appended to some of the entries. -/
theorem offer_cases (f : CtlFrame) (s : State) :
    (offer f s).2 = s ∨ ∃ rest : List CtlFrame, (∀ g ∈ rest, g ∈ (s.port (portOf f.dest)).ctl) ∧
      rest.length ≤ (s.port (portOf f.dest)).ctl.length ∧
      (offer f s).2 = s.setPort (portOf f.dest) { s.port (portOf f.dest) with ctl := rest ++ [f] } := by
  unfold offer
  dsimp only
  split
  · exact .inl rfl
  · split
    · exact .inr ⟨_, fun _ => id, le_rfl, rfl⟩
    · split
      · exact .inl rfl
      · next v rest hv =>
        have := victimOf_length hv
        exact .inr ⟨rest, (victimOf_mem hv).2.2, by omega, rfl⟩

theorem offer_room {f : CtlFrame} {s : State} (hu : (s.port (portOf f.dest)).link = .up)
    (hr : (s.port (portOf f.dest)).ctl.length < 24) :
    offer f s = (.taken none, s.setPort (portOf f.dest) { s.port (portOf f.dest) with
      ctl := (s.port (portOf f.dest)).ctl ++ [f] }) := by
  unfold offer
  dsimp only
  rw [hu]
  exact if_pos hr

/-- A change of one port that leaves its close set alone. -/
theorem RadioStep.setPort {n : Nat} {s : State} {p : PortIx} {v : CellPort} (h : PortStep n (s.port p) v)
    (hc : v.closes = (s.port p).closes) : RadioStep n [] [] s (s.setPort p v) where
  only := rfl
  ports := fun q => by
    rw [State.port_setPort]
    split
    · next hq => rw [hq]; exact h
    · exact ⟨rfl, rfl, rfl, Nat.le_add_right _ _, fun _ => .inl⟩
  closes := .same fun q => by
    rw [State.port_setPort]
    split
    · next hq => rw [hq]; exact hc
    · rfl
  slots := .same fun _ => rfl

theorem RadioStep.weaken {m n : Nat} {as : List (CellIx × Channel)} {cs : List CellIx} {s t : State}
    (h : RadioStep m as cs s t) (hn : m ≤ n) : RadioStep n as cs s t where
  only := h.only
  ports := fun p => { h.ports p with length := (h.ports p).length.trans (Nat.add_le_add_left hn _) }
  closes := h.closes
  slots := h.slots

theorem offerQuietly_step {f : CtlFrame} (hf : f.owner = none) (s : State) : RadioStep 1 [] [] s (offerQuietly f s) := by
  unfold offerQuietly
  rcases offer_cases f s with h | ⟨rest, hm, hl, h⟩
  · rw [h]
    exact (RadioStep.refl s).weaken (Nat.zero_le 1)
  · rw [h]
    refine .setPort ⟨rfl, rfl, rfl, ?_, fun g hg => ?_⟩ rfl
    · rw [List.length_append]
      exact Nat.add_le_add_right hl 1
    · rcases List.mem_append.1 hg with hg | hg
      · exact .inl (hm g hg)
      · exact .inr (by rw [List.mem_singleton.1 hg]; exact hf)

theorem sendAck_step (c : CellIx) (h : Hid) (r : AttachResult) (s : State) : RadioStep 1 [] [] s (sendAck c h r s) :=
  offerQuietly_step rfl s

/-- An ATTACH-ACK to a port in UP with room waits there. -/
theorem sendAck_queued {c : CellIx} {h : Hid} {r : AttachResult} {s : State} (hu : (s.port (portOf c)).link = .up)
    (hr : (s.port (portOf c)).ctl.length < 24) : .attachAck c h r ∈ ((sendAck c h r s).port (portOf c)).ctl := by
  unfold sendAck offerQuietly
  rw [offer_room hu hr]
  change _ ∈ ((s.setPort (portOf c) _).port (portOf c)).ctl
  rw [State.port_setPort_self]
  simp

/-! ### Cells -/

/-- A change of one cell. -/
theorem RadioStep.setCell {s : State} {c : CellIx} {v : CellRec} {cs : List CellIx}
    (h : SlotsReleased cs s (s.setCell c v)) : RadioStep 0 [] cs s (s.setCell c v) :=
  ⟨rfl, fun _ => .refl _, .same fun _ => rfl, h⟩

theorem SlotsReleased.kept_setCell {s : State} {c : CellIx} {v : CellRec} (h : v.occupancy = (s.cell c).occupancy) :
    SlotsReleased [] s (s.setCell c v) :=
  .same fun d => by
    rw [State.cell_setCell]
    split
    · next hd => rw [hd, h]
    · rfl

theorem SlotsReleased.one_setCell {s : State} {c : CellIx} {v : CellRec} (h : v.occupancy = (s.cell c).occupancy - 1) :
    SlotsReleased [c] s (s.setCell c v) := fun d => by
  rw [State.cell_setCell]
  split
  · next hd => rw [hd, h, List.count_singleton_self]
  · next hd => rw [List.count_singleton, if_neg (by simpa using fun h => hd h.symm), Nat.sub_zero]

theorem enterFollowOn_step (c : CellIx) (f : FollowOn) (s : State) : RadioStep 1 [] [] s (enterFollowOn c f s) := by
  cases f with
  | outOfService =>
    exact (RadioStep.setCell (v := { s.cell c with service := .outOfService }) (.kept_setCell rfl)).weaken (Nat.zero_le 1)
  | restarting =>
    exact (RadioStep.setCell (v := { s.cell c with service := .restarting (s.after (s.config.restartTime * 1000)) })
      (.kept_setCell rfl)).trans (offerQuietly_step (f := .cellRestart c) rfl _)

theorem endDrainIfEmpty_step (c : CellIx) (s : State) : RadioStep 1 [] [] s (endDrainIfEmpty c s) := by
  have same := (RadioStep.refl s).weaken (Nat.zero_le 1)
  unfold endDrainIfEmpty
  split
  · exact same
  · exact same
  · split
    · exact enterFollowOn_step _ _ _
    · exact same
  · exact same

theorem releaseSlot_step (c : CellIx) (s : State) : RadioStep 1 [] [c] s (releaseSlot c s) :=
  (RadioStep.setCell (.one_setCell rfl)).trans (endDrainIfEmpty_step c _)

theorem releaseSlot_answers (c : CellIx) (s : State) : (releaseSlot c s).answers = s.answers := by
  have offered : ∀ f u, (offerQuietly f u).answers = u.answers := fun f u => by
    unfold offerQuietly
    rcases offer_cases f u with h | ⟨rest, -, -, h⟩
    · rw [h]
    · rw [h]
      rfl
  have entered : ∀ f u, (enterFollowOn c f u).answers = u.answers := fun f u => by
    cases f with
    | outOfService => rfl
    | restarting => exact offered _ _
  unfold releaseSlot endDrainIfEmpty
  dsimp only
  split
  · rfl
  · rfl
  · split
    · exact entered _ _
    · rfl
  · rfl

/-! ### Close sets -/

theorem closeAdd_step (c : CellIx) (x : Channel) (s : State) : RadioStep 0 [(c, x)] [] s (closeAdd c x s) := by
  unfold closeAdd
  dsimp only
  split
  · next hd =>
    refine ⟨rfl, fun p => .refl _, ⟨fun _ _ => id, fun _ _ => .inl, fun _ => Nat.le_add_right _ _, fun q hq hu => ?_⟩,
      .same fun _ => rfl⟩
    rw [List.mem_singleton.1 hq, hd] at hu
    cases hu
  · split
    · next hn =>
      refine ⟨rfl, fun p => .refl _, ⟨fun _ _ => id, fun _ _ => .inl, fun _ => Nat.le_add_right _ _,
        fun q hq _ hr => ?_⟩, .same fun _ => rfl⟩
      rw [List.mem_singleton.1 hq] at hr ⊢
      rcases hn with hn | hn
      · exact hn
      · rw [List.length_singleton] at hr
        have : 256 ≤ (s.port (portOf c)).closes.length := hn
        dsimp only at hr
        omega
    · have hp : ∀ p, ((s.setPort (portOf c) { s.port (portOf c) with
          closes := (s.port (portOf c)).closes ++ [(c, x)] }).port p) =
          if p = portOf c then { s.port p with closes := (s.port p).closes ++ [(c, x)] } else s.port p := fun p => by
        rw [State.port_setPort]
        split
        · next h => rw [h]
        · rfl
      refine ⟨rfl, fun p => ?_, ⟨fun p q hq => ?_, fun p q hq => ?_, fun p => ?_, fun q hq _ _ => ?_⟩, .same fun _ => rfl⟩
      · rw [hp p]
        split <;> exact ⟨rfl, rfl, rfl, le_rfl, fun _ => .inl⟩
      · rw [hp p]
        split
        · exact List.mem_append_left _ hq
        · exact hq
      · rw [hp p] at hq
        split at hq
        · next h =>
          rcases List.mem_append.1 hq with hq | hq
          · exact .inl hq
          · exact .inr ⟨hq, by rw [List.mem_singleton.1 hq]; exact h⟩
        · exact .inl hq
      · rw [hp p]
        split
        · exact (List.length_append ..).le
        · exact Nat.le_add_right _ _
      · rw [List.mem_singleton.1 hq, hp, if_pos rfl]
        simp

theorem closeAdd_answers (c : CellIx) (x : Channel) (s : State) : (closeAdd c x s).answers = s.answers := by
  unfold closeAdd
  dsimp only
  split
  · rfl
  · split <;> rfl

theorem closeLeg_step (x : Channel) (s : State) (c : CellIx) : RadioStep 1 [(c, x)] [c] s (closeLeg x s c) :=
  (closeAdd_step c x s).trans (releaseSlot_step c _)

theorem closeLeg_answers (x : Channel) (s : State) (c : CellIx) : (closeLeg x s c).answers = s.answers :=
  (releaseSlot_answers _ _).trans (closeAdd_answers _ _ _)

/-! ### Withdrawal and cancellation -/

theorem filterCtl_step (s : State) (p : PortIx) (keep : CtlFrame → Bool) :
    RadioStep 0 [] [] s (s.setPort p { s.port p with ctl := (s.port p).ctl.filter keep }) :=
  .setPort ⟨rfl, rfl, rfl, List.length_filter_le _ _, fun _ hf => .inl (List.mem_filter.1 hf).1⟩ rfl

theorem RadioStep.setAnswers (s : State) (as : List Answer) : RadioStep 0 [] [] s { s with answers := as } :=
  ⟨rfl, fun _ => .refl _, .same fun _ => rfl, .same fun _ => rfl⟩

theorem freeAnswer_step (a : Answer) (s : State) : RadioStep 0 [] [] s (freeAnswer a s) :=
  (RadioStep.setAnswers s _).trans (filterCtl_step _ _ _)

theorem cancelTxn_step (n : Txn) (s : State) : RadioStep 0 [] [] s (cancelTxn n s) := by
  unfold cancelTxn
  split
  · exact .refl s
  · split
    · exact .refl s
    · split
      · exact freeAnswer_step _ s
      · exact .setAnswers s _

theorem cancelOpen_step (s : State) (o : CellIx × Txn) : RadioStep 1 [] [o.1] s (cancelOpen s o) :=
  (cancelTxn_step o.2 s).trans (releaseSlot_step o.1 _)

theorem foldl_withdrawHoAt_step (x : Channel) (l : List PortIx) (s : State) :
    RadioStep 0 [] [] s (l.foldl (withdrawHoAt x) s) := by
  induction l generalizing s with
  | nil => exact .refl s
  | cons p l ih => exact (filterCtl_step s p _).trans (ih _)

theorem withdrawHo_step (x : Channel) (s : State) : RadioStep 0 [] [] s (withdrawHo x s) := foldl_withdrawHoAt_step x _ s

theorem CtlFrame.hoChannel_of_owner {f : CtlFrame} (h : f.owner = none) : f.hoChannel = none := by
  cases f with
  | hoCmd => cases h
  | _ => rfl

theorem CtlFrame.openTxn_of_owner {f : CtlFrame} (h : f.owner = none) : f.openTxn = none := by
  cases f with
  | legOpen => cases h
  | _ => rfl

/-- An operation that offers no frame with an owner brings no HO-CMD. -/
theorem RadioStep.hoWithdrawn {n : Nat} {as : List (CellIx × Channel)} {cs : List CellIx} {s t : State}
    (h : RadioStep n as cs s t) {x : Channel} {p : PortIx} (hs : ∀ o ∈ (s.port p).ctl, o.hoChannel ≠ some x) :
    ∀ o ∈ (t.port p).ctl, o.hoChannel ≠ some x := fun o ho => by
  rcases (h.ports p).entries o ho with k | k
  · exact hs o k
  · rw [CtlFrame.hoChannel_of_owner k]
    nofun

theorem withdrawHoAt_none (x : Channel) (s : State) (p : PortIx) :
    ∀ o ∈ ((withdrawHoAt x s p).port p).ctl, o.hoChannel ≠ some x := fun o ho => by
  unfold withdrawHoAt at ho
  rw [State.port_setPort_self] at ho
  simpa using (List.mem_filter.1 ho).2

theorem foldl_withdrawHoAt_none {x : Channel} {p : PortIx} {l : List PortIx} (hp : p ∈ l) (s : State) :
    ∀ o ∈ ((l.foldl (withdrawHoAt x) s).port p).ctl, o.hoChannel ≠ some x := by
  induction l generalizing s with
  | nil => exact absurd hp List.not_mem_nil
  | cons q l ih =>
    rw [List.foldl_cons]
    by_cases hq : p = q
    · subst hq
      exact (foldl_withdrawHoAt_step x l _).hoWithdrawn (withdrawHoAt_none x s p)
    · exact ih ((List.mem_cons.1 hp).resolve_left hq) _

/-- No HO-CMD of the channel waits after its withdrawal (R154). -/
theorem withdrawHo_none (x : Channel) (s : State) (p : PortIx) :
    ∀ o ∈ ((withdrawHo x s).port p).ctl, o.hoChannel ≠ some x :=
  foldl_withdrawHoAt_none (by rw [allIndices_four]; fin_cases p <;> decide) s

end Sys2Proof.Machine
end

section
/-! PROOFS. What the release of a handset and the ending of a call change (R32, R33, R82, R84): the registry's share, the
shares of legs, opens and requests, and the call server's. -/
namespace Sys2Proof.Machine

/-! ### The access check under a kept setting -/

theorem Service.follows_inService {a b : Service} (h : a.follows b) : b = .inService ↔ a = .inService := by
  rcases h with rfl | h
  · exact Iff.rfl
  · cases a with
    | draining f d =>
      cases f with
      | outOfService => subst h; exact ⟨nofun, nofun⟩
      | restarting => obtain ⟨d, rfl⟩ := h; exact ⟨nofun, nofun⟩
    | _ => exact h.elim

theorem SettingKept.present {s t : State} (h : SettingKept s t) (c : CellIx) : (t.cell c).present = (s.cell c).present :=
  congrArg CellWrite.present (h.stored c)

/-- The end of a drain admits nobody: where the setting is kept, a check answers the same. -/
theorem SettingKept.checkStored {s t : State} (h : SettingKept s t) (e : Enrolled) (a : Attachment) (c : CellIx)
    (p : Purpose) : checkStored t e a c p = checkStored s e a c p := by
  have hz : (t.cell c).zone = (s.cell c).zone := Fin.ext (congrArg CellWrite.zone (h.stored c))
  unfold Machine.checkStored accessCheck
  rw [h.present c, hz]
  simp only [Service.follows_inService (h.service c)]
  unfold zoneVerdict findGate gateVerdict State.zone State.gate
  rw [h.zones, h.gates]

/-! ### The registry -/

/-- An operation on the registry: records, notices and pages alone change. -/
def RegistryOnly (s t : State) : Prop := t = { s with records := t.records, notices := t.notices, pages := t.pages }

theorem RegistryOnly.refl (s : State) : RegistryOnly s s := rfl

theorem RegistryOnly.trans {s t u : State} (h : RegistryOnly s t) (k : RegistryOnly t u) : RegistryOnly s u := by
  unfold RegistryOnly at *
  rw [k, h]

theorem markDirty_only (i : RecIx) (s : State) : RegistryOnly s (markDirty i s) := by
  unfold markDirty
  dsimp only
  split <;> rfl

theorem writeLocation_only (i : RecIx) (e : Enrolled) (loc : Location) (s : State) :
    RegistryOnly s (writeLocation i e loc s) :=
  RegistryOnly.trans (t := s.setRecord i _) rfl (markDirty_only i _)

theorem settlePage_only (e : PageIx) (o : PageOutcome) (s : State) : RegistryOnly s (settlePage e o s) := by
  unfold settlePage
  split
  · rfl
  · split <;> rfl

theorem pageReport_only (i : RecIx) (h : Hid) (loc : Location) (s : State) : RegistryOnly s (pageReport i h loc s) := by
  unfold pageReport
  split
  · rfl
  · cases loc with
    | absent => exact settlePage_only _ _ s
    | attached a d => rfl
    | engaged a x => exact settlePage_only _ _ s

theorem changeLocation_only (i : RecIx) (e : Enrolled) (loc : Location) (s : State) :
    RegistryOnly s (changeLocation i e loc s) :=
  (writeLocation_only i e loc s).trans (pageReport_only i e.hid loc _)

/-- A release of a handset: the registry, and at most one ATTACH-ACK. -/
structure HandsetStep (s t : State) : Prop where
  only : t = { s with records := t.records, notices := t.notices, pages := t.pages, ports := t.ports }
  ports : ∀ p, PortStep 1 (s.port p) (t.port p)
  closes : ∀ p, (t.port p).closes = (s.port p).closes

theorem RegistryOnly.handset {s t : State} (h : RegistryOnly s t) : HandsetStep s t where
  only := by
    unfold RegistryOnly at h
    rw [h]
  ports := fun p => by
    unfold RegistryOnly at h
    rw [h]
    exact ⟨rfl, rfl, rfl, Nat.le_add_right _ _, fun _ => .inl⟩
  closes := fun p => by
    unfold RegistryOnly at h
    rw [h]
    rfl

theorem offerQuietly_ports (f : CtlFrame) (s : State) : offerQuietly f s = { s with ports := (offerQuietly f s).ports } := by
  unfold offerQuietly
  rcases offer_cases f s with h | ⟨rest, -, -, h⟩
  · rw [h]
  · rw [h]
    rfl

theorem offerQuietly_closes (f : CtlFrame) (s : State) (p : PortIx) :
    ((offerQuietly f s).port p).closes = (s.port p).closes := by
  unfold offerQuietly
  rcases offer_cases f s with h | ⟨rest, -, -, h⟩
  · rw [h]
  · rw [h, State.port_setPort]
    split
    · next hp => rw [hp]
    · rfl

theorem revoke_step (i : RecIx) (e : Enrolled) (a : Attachment) (d : Denial) (s : State) :
    HandsetStep s (revoke i e a d s) := by
  have h := (changeLocation_only i e .absent s).handset
  have k := sendAck_step a.cell e.hid (.revoked d) (changeLocation i e .absent s)
  have hp := offerQuietly_ports (.attachAck a.cell e.hid (.revoked d)) (changeLocation i e .absent s)
  have hq := changeLocation_registry i e .absent s
  refine ⟨?_, fun p => ?_, fun p => ?_⟩
  · unfold revoke sendAck
    rw [hp, h.only]
  · have hs : (changeLocation i e .absent s).port p = s.port p := by unfold State.port; rw [hq.ports]
    have := k.ports p
    rwa [hs] at this
  · exact (offerQuietly_closes _ _ p).trans (h.closes p)

theorem releaseHandset_step (form : ReleaseForm) (i : RecIx) (s : State) : HandsetStep s (releaseHandset form i s) := by
  have still := (RegistryOnly.refl s).handset
  cases form with
  | recheck =>
    change HandsetStep s (releaseRecheck i s)
    unfold releaseRecheck
    split
    · exact still
    · split
      · exact still
      · exact still
      · split
        · exact (changeLocation_only _ _ _ s).handset
        · exact revoke_step _ _ _ _ s
  | reattach =>
    change HandsetStep s (releaseReattach i s)
    unfold releaseReattach
    split
    · exact still
    · split
      · exact still
      · exact still
      · exact RegistryOnly.handset (t := s.setRecord i _) rfl
  | detach =>
    change HandsetStep s (releaseDetach i s)
    unfold releaseDetach
    split
    · exact still
    · split
      · exact still
      · exact still
      · exact (changeLocation_only _ _ _ s).handset

/-- A release in the re-check form (R32). -/
theorem releaseRecheck_handset {i : RecIx} {s u : State} (hs : SettingKept s u) (hr : ∀ j, u.record j = s.record j)
    (hp : ∀ p, (u.port p).ctl.length ≤ (s.port p).ctl.length + 3) : HandsetReleased i s (releaseRecheck i u) := by
  refine ⟨⟨fun e a x he hl hc => ?_, fun e a x v he hl hc => ?_⟩, fun e a x v he hl hc hup hroom => .inl ?_⟩
  all_goals
    rw [← hr i] at he
    rw [← hs.checkStored] at hc
  · have h := changeLocation_record i e (.attached a (presenceDeadline u)) u
    rw [if_neg (fun hv => nomatch hv.1)] at h
    unfold releaseRecheck
    rw [he]
    dsimp only
    rw [hl]
    dsimp only
    rw [hc]
    refine ⟨h.1.trans ?_, h.2.trans hs.now⟩
    unfold presenceDeadline State.after inMs
    rw [hs.now, hs.config]
  · have h := changeLocation_record i e .absent u
    unfold releaseRecheck
    rw [he]
    dsimp only
    rw [hl]
    dsimp only
    rw [hc]
    change ((revoke i e a v u).record i).enrolled = _ ∧ ((revoke i e a v u).record i).lastChange = _
    have hk : (revoke i e a v u).record i = (changeLocation i e .absent u).record i := by
      unfold State.record revoke
      rw [sendAck_records]
    rw [hk, h.1, h.2, hs.now]
    simp
  · unfold releaseRecheck
    rw [he]
    dsimp only
    rw [hl]
    dsimp only
    rw [hc]
    have hq : ∀ p, (changeLocation i e .absent u).port p = u.port p := fun p => by
      unfold State.port
      rw [(changeLocation_registry i e .absent u).ports]
    refine sendAck_queued ?_ ?_
    · rw [hq, hs.links, hup]
    · rw [hq]
      have := hp (portOf a.cell)
      omega

/-- A release in the detach form (R33). -/
theorem releaseDetach_record {i : RecIx} {e : Enrolled} {a : Attachment} {x : Channel} {s : State}
    (he : (s.record i).enrolled = some e) (hl : e.loc = .engaged a x) :
    ((releaseDetach i s).record i).enrolled = (if isVisitor i = true then none else some { e with loc := .absent }) ∧
      ((releaseDetach i s).record i).lastChange = s.now := by
  have h := changeLocation_record i e .absent s
  unfold releaseDetach
  rw [he]
  dsimp only
  rw [hl]
  exact ⟨h.1.trans (by simp), h.2⟩

/-! ### The request of a channel -/

theorem Hrq.without_absent {x : Channel} {q : Hrq} (h : q.requestOf x = none) : q.without x = q := by
  have hx : ∀ r ∈ q.urgent ++ q.normal, r.channel ≠ x := fun r hr hc =>
    List.find?_eq_none.1 h r hr (decide_eq_true hc)
  unfold Hrq.without
  rw [List.filter_eq_self.2 fun r hr => by simpa using hx r (List.mem_append_left _ hr),
    List.filter_eq_self.2 fun r hr => by simpa using hx r (List.mem_append_right _ hr)]

theorem Hrq.without_total_le (x : Channel) (q : Hrq) : (q.without x).total ≤ q.total :=
  Nat.add_le_add (List.length_filter_le _ _) (List.length_filter_le _ _)

theorem Hrq.total_zero {q : Hrq} (h : q.total = 0) : q = ⟨[], []⟩ := by
  obtain ⟨u, n⟩ := q
  unfold Hrq.total at h
  rw [List.length_eq_zero_iff.1 (by dsimp only at h; omega : u.length = 0),
    List.length_eq_zero_iff.1 (by dsimp only at h; omega : n.length = 0)]

theorem hrqRemove_only (x : Channel) (s : State) :
    hrqRemove x s = { s with hrq := s.hrq.without x, calls := (hrqRemove x s).calls } := by
  unfold hrqRemove
  split
  · next h => rw [Hrq.without_absent h]
  · rfl

theorem hrqRemove_call_ne {x y : Channel} (h : y ≠ x) (s : State) : (hrqRemove x s).call y = s.call y := by
  unfold hrqRemove
  split
  · rfl
  · exact State.call_setCall_ne _ h _

/-! ### The ending of a call (R82) -/

theorem foldl_cancelOpen_step (l : List (CellIx × Txn)) (s : State) :
    RadioStep l.length [] (l.map (·.1)) s (l.foldl cancelOpen s) := by
  induction l generalizing s with
  | nil => exact .refl s
  | cons o l ih => exact ((cancelOpen_step s o).trans (ih _)).weaken (by rw [List.length_cons]; omega)

theorem foldl_closeLeg_step (x : Channel) (l : List CellIx) (s : State) :
    RadioStep l.length (l.map fun c => (c, x)) l s (l.foldl (closeLeg x) s) := by
  induction l generalizing s with
  | nil => exact .refl s
  | cons c l ih => exact ((closeLeg_step x s c).trans (ih _)).weaken (by rw [List.length_cons]; omega)

/-- A call with its opens cancelled, its HO-CMD withdrawn and its legs closed, before its handset is released. -/
def legsEnded (x : Channel) (k : Call) (lost : Bool) (s : State) : State :=
  (k.phase.legCells lost).foldl (closeLeg x) (withdrawHo x (k.phase.opens.foldl cancelOpen s))

theorem endCall_eq (x : Channel) (k : Call) (lost : Bool) (form : ReleaseForm) (s : State) :
    endCall x k lost form s = (releaseHandset form k.handset (legsEnded x k lost (hrqRemove x s))).setCall x none := rfl

/-- A call has at most two legs and opens together. -/
theorem Phase.legs_le (p : Phase) (lost : Bool) : p.opens.length + (p.legCells lost).length ≤ 2 := by
  cases p with
  | rescuing a d =>
    rcases a with _ | ⟨r, n⟩
    · exact Nat.zero_le 2
    · exact Nat.le_succ 1
  | _ => cases lost <;> simp [Phase.opens, Phase.legCells, Phase.serving]

theorem legsEnded_step (x : Channel) (k : Call) (lost : Bool) (s : State) :
    RadioStep 2 ((k.phase.legCells lost).map fun c => (c, x)) (k.phase.opens.map (·.1) ++ k.phase.legCells lost) s
      (legsEnded x k lost s) := by
  have h := ((foldl_cancelOpen_step k.phase.opens s).trans (withdrawHo_step x _)).trans
    (foldl_closeLeg_step x (k.phase.legCells lost) _)
  have := k.phase.legs_le lost
  unfold legsEnded
  simpa using h.weaken (n := 2) (by omega)

theorem legsEnded_withdrawn (x : Channel) (k : Call) (lost : Bool) (s : State) (p : PortIx) :
    ∀ o ∈ ((legsEnded x k lost s).port p).ctl, o.hoChannel ≠ some x :=
  (foldl_closeLeg_step x _ _).hoWithdrawn (withdrawHo_none x _ p)

theorem legsEnded_setting (x : Channel) (k : Call) (lost : Bool) (s : State) : SettingKept s (legsEnded x k lost s) :=
  Raws.setting ((((Moves.foldl (P := fun _ => False) _ cancelOpen_moves k.phase.opens s).trans (withdrawHo_moves x _)).trans
    (.foldl _ (closeLeg_moves x) (k.phase.legCells lost) _)).raws)

/-- What the ending of a call leaves, whatever the form of its release. -/
structure CallEnded (x : Channel) (k : Call) (lost : Bool) (s t : State) : Prop where
  call : t.call x = none
  others : ∀ y, y ≠ x → t.call y = s.call y
  hrq : t.hrq = s.hrq.without x
  device : t.device = s.device
  trunk : t.trunk = s.trunk
  slots : SlotsReleased (k.phase.opens.map (·.1) ++ k.phase.legCells lost) s t
  closes : ClosesAdded ((k.phase.legCells lost).map fun c => (c, x)) s t
  withdrawn : ∀ p, ∀ o ∈ (t.port p).ctl, o.hoChannel ≠ some x

theorem HandsetStep.setCall {s t : State} (h : HandsetStep s t) (x : Channel) (v : Option Call) (y : Channel) :
    (t.setCall x v).call y = if y = x then v else s.call y := by
  rw [State.call_setCall, h.only]
  rfl

theorem endCall_ended (x : Channel) (k : Call) (lost : Bool) (form : ReleaseForm) (s : State) :
    CallEnded x k lost s (endCall x k lost form s) := by
  have hr := hrqRemove_only x s
  have hl := legsEnded_step x k lost (hrqRemove x s)
  have hh := releaseHandset_step form k.handset (legsEnded x k lost (hrqRemove x s))
  have hw := legsEnded_withdrawn x k lost (hrqRemove x s)
  have hports : (hrqRemove x s).ports = s.ports := by rw [hr]
  have hcells : (hrqRemove x s).cells = s.cells := by rw [hr]
  rw [endCall_eq]
  refine ⟨State.call_setCall_self _ _ _, fun y hy => ?_, ?_, ?_, ?_, fun c => ?_, ?_, fun p o ho => ?_⟩
  · rw [hh.setCall, if_neg hy, hl.call, hrqRemove_call_ne hy]
  · change (releaseHandset form k.handset _).hrq = _
    rw [hh.only]
    change (legsEnded x k lost _).hrq = _
    rw [hl.hrq, hr]
  · change (releaseHandset form k.handset _).device = _
    rw [hh.only]
    change (legsEnded x k lost _).device = _
    rw [hl.device, hr]
  · change (releaseHandset form k.handset _).trunk = _
    rw [hh.only]
    change (legsEnded x k lost _).trunk = _
    rw [hl.trunk, hr]
  · change ((releaseHandset form k.handset _).cell c).occupancy = _
    rw [hh.only]
    have := hl.slots c
    unfold State.cell at this ⊢
    rwa [hcells] at this
  · have hc := hl.closes.trans (u := releaseHandset form k.handset (legsEnded x k lost (hrqRemove x s)))
      (fun p => (hl.ports p).link) (.same hh.closes)
    rw [List.append_nil] at hc
    have hp : ∀ p, (hrqRemove x s).port p = s.port p := fun p => by unfold State.port; rw [hports]
    exact ⟨fun p q hq => hc.held p q (by rwa [hp]), fun p q hq => by rw [← hp]; exact hc.new p q hq,
      fun p => by rw [← hp]; exact hc.length p, fun q hq hu hlen => hc.entered q hq (by rwa [hp]) (by rwa [hp])⟩
  · rcases (hh.ports p).entries o ho with h | h
    · exact hw p o h
    · rw [CtlFrame.hoChannel_of_owner h]
      nofun

theorem hrqRemove_setting (x : Channel) (s : State) : SettingKept s (hrqRemove x s) :=
  (hrqRemove_moves (P := fun _ => False) x s).raws.setting

/-- The release that ends a call, from a state whose records and setting the call's end has not touched. -/
theorem endCall_recheck_from {s u : State} (x : Channel) (k : Call) (lost : Bool) (hs : SettingKept s u)
    (hr : ∀ j, u.record j = s.record j) (hp : ∀ p, (u.port p).ctl.length ≤ (s.port p).ctl.length + 1) :
    HandsetReleased k.handset s (endCall x k lost .recheck u) := by
  have hl := legsEnded_step x k lost (hrqRemove x u)
  have hset := (hs.trans (hrqRemove_setting x u)).trans (legsEnded_setting x k lost _)
  have hports : (hrqRemove x u).ports = u.ports := by rw [hrqRemove_only]
  have h := releaseRecheck_handset (i := k.handset) hset (fun j => by
      rw [hl.record, ← hr]
      unfold State.record
      rw [hrqRemove_records])
    (fun p => by
      have := (hl.ports p).length
      have h1 := hp p
      unfold State.port at this h1 ⊢
      rw [hports] at this
      omega)
  rw [endCall_eq]
  exact ⟨⟨h.kept, h.revoked⟩, h.told⟩

theorem endCall_recheck (x : Channel) (k : Call) (lost : Bool) (s : State) :
    HandsetReleased k.handset s (endCall x k lost .recheck s) :=
  endCall_recheck_from x k lost (.refl s) (fun _ => rfl) fun _ => Nat.le_succ _

theorem endCall_detach {x : Channel} {k : Call} {lost : Bool} {s : State} {e : Enrolled} {a : Attachment} {y : Channel}
    (he : (s.record k.handset).enrolled = some e) (hl : e.loc = .engaged a y) :
    ((endCall x k lost .detach s).record k.handset).enrolled =
        (if isVisitor k.handset = true then none else some { e with loc := .absent }) ∧
      ((endCall x k lost .detach s).record k.handset).lastChange = s.now := by
  have hset := (hrqRemove_setting x s).trans (legsEnded_setting x k lost _)
  have hr : (legsEnded x k lost (hrqRemove x s)).record k.handset = s.record k.handset := by
    rw [(legsEnded_step x k lost _).record]
    unfold State.record
    rw [hrqRemove_records]
  have h := releaseDetach_record (hr ▸ he : ((legsEnded x k lost (hrqRemove x s)).record k.handset).enrolled = some e) hl
  rw [hset.now] at h
  rw [endCall_eq]
  exact h

/-! ### Drops (R84) -/

/-- The end of the call, its drop counted, before the call server is told. -/
theorem dropCall_eq {x : Channel} {k : Call} {s : State} (hk : s.call x = some k) (cause : DropCause) (lost : Bool) :
    dropCall x cause lost s = reply (.callDrop x cause)
      (endCall x k lost cause.form (s.count fun d => { d with drops := d.drops.bump cause })) := by
  unfold dropCall
  rw [hk]

theorem dropCall_none {x : Channel} {s : State} (hk : s.call x = none) (cause : DropCause) (lost : Bool) :
    dropCall x cause lost s = s := by
  unfold dropCall
  rw [hk]

theorem reply_drops (r : Reply) (s : State) : (reply r s).device.drops = s.device.drops := by rw [reply_eq]

theorem reply_hrq (r : Reply) (s : State) : (reply r s).hrq = s.hrq := by rw [reply_eq]

theorem reply_ports (r : Reply) (s : State) : (reply r s).ports = s.ports := by rw [reply_eq]

theorem reply_cells (r : Reply) (s : State) : (reply r s).cells = s.cells := by rw [reply_eq]

theorem reply_answers (r : Reply) (s : State) : (reply r s).answers = s.answers := by rw [reply_eq]

theorem reply_queued {r : Reply} {s : State} (hu : s.trunk.link = .up) (hr : s.trunk.replies.length < 256) :
    (reply r s).trunk.replies = s.trunk.replies ++ [r] := by rw [reply_room hu hr]

theorem HandsetReleased.congr {i : RecIx} {s t u : State} (h : HandsetReleased i s t) (hr : u.records = t.records)
    (hp : u.ports = t.ports) : HandsetReleased i s u := by
  have hrec : ∀ j, u.record j = t.record j := fun j => by unfold State.record; rw [hr]
  have hport : ∀ p, u.port p = t.port p := fun p => by unfold State.port; rw [hp]
  refine ⟨⟨fun e a x he hl hc => ?_, fun e a x v he hl hc => ?_⟩, fun e a x v he hl hc hu hn => ?_⟩
  · rw [hrec]
    exact h.kept e a x he hl hc
  · rw [hrec]
    exact h.revoked e a x v he hl hc
  · rw [hport]
    exact h.told e a x v he hl hc hu hn

/-- A drop in the re-check form. -/
theorem dropCall_dropped {x : Channel} {k : Call} {s : State} {cause : DropCause} (hk : s.call x = some k)
    (hf : cause.form = .recheck) (lost : Bool) : CallDropped x k cause s (dropCall x cause lost s) := by
  rw [dropCall_eq hk, hf]
  have he := endCall_ended x k lost .recheck (s.count fun d => { d with drops := d.drops.bump cause })
  refine ⟨?_, fun y hy => ?_, ?_, ?_, fun hu hr => ?_, ?_⟩
  · exact (State.call_congr (reply_calls _ _) x).trans he.call
  · exact (State.call_congr (reply_calls _ _) y).trans (he.others y hy)
  · exact (reply_hrq _ _).trans he.hrq
  · rw [reply_drops, he.device]
    rfl
  · have ht : (endCall x k lost .recheck (s.count fun d => { d with drops := d.drops.bump cause })).trunk = s.trunk := he.trunk
    rw [reply_queued (by rw [ht]; exact hu) (by rw [ht]; exact hr), ht]
  · have hh := (endCall_recheck x k lost (s.count fun d => { d with drops := d.drops.bump cause })).congr
      (reply_records (.callDrop x cause) _) (reply_ports (.callDrop x cause) _)
    exact ⟨⟨hh.kept, hh.revoked⟩, hh.told⟩

theorem dropCall_total_le (x : Channel) (cause : DropCause) (lost : Bool) (s : State) :
    (dropCall x cause lost s).hrq.total ≤ s.hrq.total := by
  cases hk : s.call x with
  | none => rw [dropCall_none hk]
  | some k =>
    rw [dropCall_eq hk, reply_hrq, (endCall_ended x k lost _ _).hrq]
    exact Hrq.without_total_le x s.hrq

theorem dropCall_slots {x : Channel} {k : Call} {s : State} (hk : s.call x = some k) (cause : DropCause) (lost : Bool) :
    SlotsReleased (k.phase.opens.map (·.1) ++ k.phase.legCells lost) s (dropCall x cause lost s) := fun c => by
  rw [dropCall_eq hk]
  have := (endCall_ended x k lost cause.form (s.count fun d => { d with drops := d.drops.bump cause })).slots c
  unfold State.cell at this ⊢
  rw [reply_cells]
  exact this

end Sys2Proof.Machine
end

section
/-! PROOFS. A handset leaves (R16, R29, R30, R33): a detach and the presence deadline, in each state of its record. -/
namespace Sys2Proof.Machine

/-! ### A command heard from a radio head -/

theorem exec_detachInd {c : CellIx} {s : State} (h : Heard c s) (hid : Hid) :
    exec (.detachInd c hid) s = .next (event (fun u => detach hid (counted c u)) s) :=
  congrArg Host.Outcome.next (event_congr (rxCell_heard h (by decide) _))

theorem quiet_counted (c : CellIx) (s : State) : Quiet s (counted c s) := ⟨rfl, rfl, rfl, rfl, rfl, rfl, rfl⟩

/-! ### The detach -/

theorem detach_absent {hid : Hid} {i : RecIx} {e : Enrolled} {s : State} (hi : s.findHid hid = some i)
    (he : (s.record i).enrolled = some e) (hl : e.loc = .absent) : detach hid s = s := by
  unfold detach
  rw [hi]
  dsimp only
  rw [he]
  dsimp only
  rw [hl]

theorem detach_attached {hid : Hid} {i : RecIx} {e : Enrolled} {a : Attachment} {d : Time} {s : State}
    (hi : s.findHid hid = some i) (he : (s.record i).enrolled = some e) (hl : e.loc = .attached a d) :
    detach hid s = changeLocation i e .absent s := by
  unfold detach
  rw [hi]
  dsimp only
  rw [he]
  dsimp only
  rw [hl]

theorem detach_engaged {hid : Hid} {i : RecIx} {e : Enrolled} {a : Attachment} {x : Channel} {s : State}
    (hi : s.findHid hid = some i) (he : (s.record i).enrolled = some e) (hl : e.loc = .engaged a x) :
    detach hid s = dropCall x .handsetDetached false s := by
  unfold detach
  rw [hi]
  dsimp only
  rw [he]
  dsimp only
  rw [hl]

/-- A detach of a handset that is not registered does nothing (R29). -/
theorem detach_unregistered {hid : Hid} {s : State}
    (h : ∀ i e, s.findHid hid = some i → (s.record i).enrolled = some e → e.loc = .absent) : detach hid s = s := by
  cases hi : s.findHid hid with
  | none =>
    unfold detach
    rw [hi]
  | some i =>
    cases he : (s.record i).enrolled with
    | none =>
      unfold detach
      rw [hi]
      dsimp only
      rw [he]
    | some e => exact detach_absent hi he (h i e hi he)

/-! ### The presence deadline -/

theorem passed_iff {s : State} {d : Time} : passed s.now d = true ↔ due d s := decide_eq_true_iff

theorem presenceExpiry_due {i : RecIx} {e : Enrolled} {a : Attachment} {d : Time} {s : State}
    (he : (s.record i).enrolled = some e) (hl : e.loc = .attached a d) (hd : due d s) :
    presenceExpiry i s = changeLocation i e .absent s := by
  unfold presenceExpiry
  rw [he]
  dsimp only
  rw [hl]
  exact if_pos (passed_iff.2 hd)

theorem presenceExpiry_idle {i : RecIx} {s : State}
    (h : ∀ e a d, (s.record i).enrolled = some e → e.loc = .attached a d → ¬ due d s) : presenceExpiry i s = s := by
  unfold presenceExpiry
  split
  · rfl
  · next e he =>
    split
    · next a d hl => exact if_neg fun hp => h e a d he hl (passed_iff.1 hp)
    · rfl
    · rfl

/-! ### A record that becomes ABSENT -/

/-- A handset that becomes ABSENT outside a call: its record says so, and no port is touched. -/
theorem runs_absent {c : Instr} {f : State → State} {s u : State} {i : RecIx} {e : Enrolled}
    (hc : exec c s = .next (event f s)) (hf : f s = changeLocation i e .absent u) (hq : u.hrq = s.hrq)
    (hx : u.calls = s.calls) (hp : u.ports = s.ports) (hn : u.now = s.now) :
    Runs c s fun t => (t.record i).enrolled = (if isVisitor i = true then none else some { e with loc := .absent }) ∧
      (t.record i).lastChange = s.now ∧ (∀ p, t.port p = s.port p) ∧ EventEnd s (changeLocation i e .absent u) t := by
  have hr := changeLocation_registry i e .absent u
  have hrec := changeLocation_record i e .absent u
  refine runs_event hc hf (hr.hrq.trans hq) (hr.calls.trans hx) fun t ht => ⟨?_, ?_, fun p => ht.port_same ?_, ht⟩
  · rw [ht.enrolled, hrec.1]
    simp
  · rw [ht.lastChange, hrec.2, hn]
  · unfold State.port
    rw [hr.ports, hp]

/-- A handset that leaves in a call: the call is dropped, and its record released in the detach form (R29, R33). -/
theorem runs_detached {c : CellIx} {hid : Hid} {s : State} {i : RecIx} {e : Enrolled} {a : Attachment} {x : Channel}
    (h : Heard c s) (hi : s.findHid hid = some i) (he : (s.record i).enrolled = some e) (hl : e.loc = .engaged a x)
    (h0 : s.hrq.total = 0) :
    Runs (.detachInd c hid) s fun t =>
      t.call x = none ∧ EventEnd s (dropCall x .handsetDetached false (counted c s)) t ∧
      ∀ k, s.call x = some k → k.handset = i →
        (t.record i).enrolled = (if isVisitor i = true then none else some { e with loc := .absent }) ∧
        (t.record i).lastChange = s.now := by
  have hf : detach hid (counted c s) = dropCall x .handsetDetached false (counted c s) :=
    detach_engaged (s := counted c s) hi he hl
  have hend := (event_end_empty (f := fun u => detach hid (counted c u)) h0 (by
    have := dropCall_total_le x .handsetDetached false (counted c s)
    have h0' : (counted c s).hrq.total = 0 := h0
    rw [hf]
    omega)).2
  rw [hf] at hend
  refine ⟨_, exec_detachInd h hid, ?_, hend, fun k hk hki => ?_⟩
  · rw [State.call_congr hend.calls, dropCall_call]
  · have hd := endCall_detach (x := x) (k := k) (lost := false) (a := a) (y := x) (e := e)
      (s := (counted c s).count fun d => { d with drops := d.drops.bump .handsetDetached }) (hki ▸ he) hl
    rw [hki] at hd
    have hrec : (dropCall x .handsetDetached false (counted c s)).record i = (endCall x k false .detach
        ((counted c s).count fun d => { d with drops := d.drops.bump .handsetDetached })).record i := by
      rw [dropCall_eq (s := counted c s) hk]
      unfold State.record
      rw [reply_records]
      rfl
    rw [hend.enrolled, hend.lastChange, hrec]
    exact hd

/-- Settles O17. -/
theorem handsetLeaves : Obligations.HandsetLeaves := by
  refine ⟨fun c hid s h => ⟨fun hn => ?_, fun i e hi he => ⟨fun a d hl => ?_, fun a x hl h0 => ?_⟩⟩,
    fun i s => ⟨fun e a d he hl hd => ?_, fun hn => ?_⟩⟩
  · rw [exec_detachInd h, event_eq_quiet (f := fun u => detach hid (counted c u))
      (detach_unregistered (s := counted c s) hn) (quiet_counted c s)]
  · exact runs_absent (u := counted c s) (exec_detachInd h hid) (detach_attached (s := counted c s) hi he hl) rfl rfl rfl rfl
  · exact runs_detached h hi he hl h0
  · exact runs_absent (u := s) rfl (presenceExpiry_due he hl hd) rfl rfl rfl rfl
  · exact congrArg Host.Outcome.next (event_eq_quiet (presenceExpiry_idle hn) (Quiet.refl s))

end Sys2Proof.Machine
end

section
/-! PROOFS. Uplink voice (R12, R88 to R90): stray, forwarded in sequence, stale, or resynchronised. -/
namespace Sys2Proof.Machine

theorem exec_voxUplink {c : CellIx} {x : Channel} {ch seq : Byte} {payload : List Byte} {s : State} (h : Heard c s)
    (hx : ch.toNat = x.val) (hp : payload.length = 40) :
    exec (.voxUplink c ch seq payload) s = .next (event (fun u => uplinkVoice c ⟨x, seq, payload⟩ (counted c u)) s) := by
  have hr : rxVoxUp c ch seq payload s = uplinkVoice c ⟨x, seq, payload⟩ (counted c s) := by
    unfold rxVoxUp
    rw [if_pos hp, byteIn_eq hx, hp]
    exact rxCell_heard h (by decide) _
  exact congrArg Host.Outcome.next (event_congr hr)

/-! ### Whose voice it is (R88) -/

/-- Voice from a cell without a leg of the call is stray. -/
theorem uplinkVoice_stray {c : CellIx} {v : Vox} {s : State}
    (h : ∀ k, s.call v.channel = some k → (∀ l, k.phase.serving = some l → l.cell ≠ c) ∧
      ∀ l g r sl d, k.phase = .bridging l g r sl d → r.cell ≠ c) :
    uplinkVoice c v s = countStrayVoice (linkOf (portOf c)) s := by
  unfold uplinkVoice
  cases hk : s.call v.channel with
  | none => rfl
  | some k =>
    obtain ⟨hs, ht⟩ := h k hk
    dsimp only
    cases hp : k.phase with
    | opening d n => rfl
    | active l g => exact if_neg (hs l (by rw [hp]; rfl))
    | preparing l g r n => exact if_neg (hs l (by rw [hp]; rfl))
    | bridging l g r sl d => exact (if_neg (hs l (by rw [hp]; rfl))).trans (if_neg (ht l g r sl d hp))
    | rescuing a d => rfl

/-- Voice from the serving cell. -/
theorem uplinkVoice_serving {c : CellIx} {v : Vox} {s : State} {k : Call} {l : Leg} (hk : s.call v.channel = some k)
    (hl : k.phase.serving = some l) (hc : l.cell = c) : uplinkVoice c v s = servingVoice v k s := by
  unfold uplinkVoice
  rw [hk]
  dsimp only
  cases hp : k.phase with
  | opening d n => rw [hp] at hl; cases hl
  | active m g => rw [hp] at hl; cases hl; exact if_pos hc
  | preparing m g r n => rw [hp] at hl; cases hl; exact if_pos hc
  | bridging m g r sl d => rw [hp] at hl; cases hl; exact if_pos hc
  | rescuing a d => rw [hp] at hl; cases hl

/-- Voice from the target cell in BRIDGING. -/
theorem uplinkVoice_target {c : CellIx} {v : Vox} {s : State} {k : Call} {l : Leg} {g : Option Time} {r : Target}
    {sl : Slot} {d : Time} (hk : s.call v.channel = some k) (hp : k.phase = .bridging l g r sl d) (hl : l.cell ≠ c)
    (hr : r.cell = c) : uplinkVoice c v s = targetVoice v k l r sl s := by
  unfold uplinkVoice
  rw [hk]
  dsimp only
  rw [hp]
  exact (if_neg hl).trans (if_pos hr)

/-! ### Its sequence (R89, R90; log 35) -/

theorem inSequence_iff {k : Call} {q : Seq} :
    inSequence k q = true ↔ ∀ n, k.nextSeq = some n → (q - n).toNat < 128 := by
  unfold inSequence
  cases k.nextSeq with
  | none => exact ⟨nofun, fun _ => rfl⟩
  | some n =>
    exact ⟨fun h m hm => Option.some.inj hm ▸ of_decide_eq_true h, fun h => decide_eq_true (h n rfl)⟩

theorem inSequence_stale {k : Call} {q n : Seq} (hn : k.nextSeq = some n) (h : 128 ≤ (q - n).toNat) :
    inSequence k q = false :=
  Bool.eq_false_iff.2 fun hs => absurd (inSequence_iff.1 hs n hn) (by omega)

theorem servingVoice_forwarded {v : Vox} {k : Call} {s : State}
    (h : (∀ n, k.nextSeq = some n → (v.seq - n).toNat < 128) ∨ 8 ≤ k.staleRun) : servingVoice v k s = forwardVoice v k s :=
  if_pos (by
    rcases h with h | h
    · rw [inSequence_iff.2 h, Bool.true_or]
    · rw [decide_eq_true h, Bool.or_true])

theorem servingVoice_stale {v : Vox} {k : Call} {s : State} {n : Seq} (hn : k.nextSeq = some n)
    (h : 128 ≤ (v.seq - n).toNat) (hs : k.staleRun < 8) : servingVoice v k s = staleVoice v.channel k s :=
  if_neg (by rw [inSequence_stale hn h, decide_eq_false (by omega)]; nofun)

theorem targetVoice_stale {v : Vox} {k : Call} {l : Leg} {r : Target} {sl : Slot} {s : State} {n : Seq}
    (hn : k.nextSeq = some n) (h : 128 ≤ (v.seq - n).toNat) : targetVoice v k l r sl s = staleVoice v.channel k s :=
  if_neg (by rw [inSequence_stale hn h]; nofun)

/-! ### The end of the event -/

theorem trunkVoice_only (v : Vox) (s : State) : trunkVoice v s = { s with trunk := (trunkVoice v s).trunk } := by
  unfold trunkVoice
  cases hl : s.trunk.link <;> rfl

/-- A change of one context that stays in the same phase, and of the trunk at most, ends at its own end. -/
theorem runs_sameCall {c : Instr} {f : State → State} {s u : State} {x : Channel} {k k' : Call} (hs : s.Inv)
    (hc : exec c s = .next (event f s)) (hf : f s = u) (hq : u.hrq = s.hrq) (hk : s.call x = some k)
    (hp : k'.phase = k.phase) (hu : u.calls = (s.setCall x (some k')).calls) : Runs c s (EventEnd s u) := by
  have hin : s.inExecution ≤ u.inExecution := by
    have h := State.inExecution_setCall (x := x) (v := some k') hs.tables.calls fun h => by
      rw [hk] at h
      exact (congrArg Phase.inExecution hp).trans h
    unfold State.inExecution at h ⊢
    rwa [hu]
  have h := (event_end (f := f) (s := s) (by rw [hf, hq]) (by rw [hf]; exact hin)).2
  rw [hf] at h
  exact ⟨_, hc, h⟩

/-- Settles O30. -/
theorem uplinkVoiceJudged : Obligations.UplinkVoiceJudged := by
  intro c x ch seq payload s hs h hx hp
  have hc := exec_voxUplink (seq := seq) h hx hp
  refine ⟨fun hn => runs_event hc (uplinkVoice_stray (v := ⟨x, seq, payload⟩) (s := counted c s) hn) rfl rfl fun _ h => h,
    fun k l hk hl => ⟨fun hcell hseq => ?_, fun n hleg hn hstale hrun => ?_⟩⟩
  · refine runs_sameCall (k' := { k with nextSeq := some (seq + 1), staleRun := 0 }) hs hc
      ((uplinkVoice_serving (v := ⟨x, seq, payload⟩) (s := counted c s) hk hl hcell).trans
        (servingVoice_forwarded (v := ⟨x, seq, payload⟩) hseq)) ?_ hk rfl ?_
    · rw [trunkVoice_only]
      rfl
    · rw [trunkVoice_only]
      rfl
  · refine runs_sameCall (k' := { k with staleRun := min 8 (k.staleRun + 1) }) hs hc ?_ rfl hk rfl rfl
    by_cases hcell : l.cell = c
    · exact (uplinkVoice_serving (v := ⟨x, seq, payload⟩) (s := counted c s) hk hl hcell).trans
        (servingVoice_stale (v := ⟨x, seq, payload⟩) hn hstale (hrun hcell))
    · obtain ⟨g, r, sl, d, hb, hr⟩ := hleg.resolve_left hcell
      exact (uplinkVoice_target (v := ⟨x, seq, payload⟩) (s := counted c s) hk hb hcell hr).trans
        (targetVoice_stale (v := ⟨x, seq, payload⟩) hn hstale)

end Sys2Proof.Machine
end

section
/-! PROOFS. The end of an event once more (R10, R12, R116): where no context waits for room the freed places are offered to
nobody, and a frame that waits at a port still waits or is in transmission. -/
namespace Sys2Proof.Machine

/-! ### Freed places that nobody waits for (R116) -/

/-- No context waits for room in the request queue. -/
def State.NobodyWaits (s : State) : Prop := ∀ x k, s.call x = some k → k.waitsForRoom = false

theorem firstWaiting_none {s : State} (h : s.NobodyWaits) : firstWaiting s = none := by
  refine List.find?_eq_none.2 fun x _ hx => ?_
  cases hk : s.call x with
  | none =>
    rw [hk] at hx
    cases hx
  | some k =>
    rw [hk] at hx
    exact Bool.false_ne_true ((h x k hk).symm.trans hx)

theorem offerPlaces_nobody {s : State} (h : s.NobodyWaits) (n : Nat) : offerPlaces n s = s := by
  induction n with
  | zero => rfl
  | succ n ih =>
    have ho : offerPlace s = s := by
      unfold offerPlace
      rw [firstWaiting_none h]
      exact ite_id s
    unfold offerPlaces
    rw [ho, ih]

/-- The end of an event, after the offer of the places it freed. -/
theorem finish_spec (s u : State) : EventEnd s (offerPlaces (s.hrq.total - u.hrq.total) u) (finish s u) := by
  obtain ⟨ps, hk, hp⟩ := kickAll_spec s (offerPlaces (s.hrq.total - u.hrq.total) u)
  have hf : finish s u = holdTransition s.hold.active (reportFills s
      (kickTrunk s { offerPlaces (s.hrq.total - u.hrq.total) u with ports := ps })) := by
    unfold finish
    dsimp only
    rw [hk]
  generalize offerPlaces (s.hrq.total - u.hrq.total) u = u at hk hp hf
  obtain ⟨hs, hm, hl, hr, hg, hc⟩ := kickTrunk_spec s { u with ports := ps }
  obtain ⟨v, hv, hw⟩ := holdTransition_spec s.hold.active (reportFills s (kickTrunk s { u with ports := ps }))
  rw [hf, hv]
  generalize kickTrunk s { u with ports := ps } = w at hs hm hl hr hg hc hv hw hf
  exact
    { now := hs.now, filters := hs.filters, zones := hs.zones, gates := hs.gates, config := hs.config
      pending := hs.pending, mgmtNow := hs.mgmtNow, mgmtMuted := hs.mgmtMuted, counters := hs.counters
      device := hs.device, cells := hs.cells, calls := hs.calls, hrq := hs.hrq, answers := hs.answers
      txnCounter := hs.txnCounter, mgmtIn := hm, trunkLink := hl, registry := hr, paging := hg
      ports := fun p => by
        change w.ports.get CellPort.blank p = _
        rw [hs.ports]
        exact hp p
      trunk := by
        split
        · next h => rw [if_pos h] at hc; exact hc
        · next h => rw [if_neg h] at hc; exact hc.congr rfl rfl rfl rfl rfl rfl rfl rfl rfl
      hold := by
        change (reportFills s w).hold = _
        unfold reportFills
        dsimp only
        rw [hs.hold]
      sweep := by
        rw [← hs.sweep]
        exact hw }

/-- The end of an event after which no context waits for room. -/
theorem finish_nobody (s : State) {u : State} (h : u.NobodyWaits) : EventEnd s u (finish s u) := by
  have := finish_spec s u
  rwa [offerPlaces_nobody h] at this

/-- An event after which no request waits, and no context waits for room, ends at its own end. -/
theorem event_end_nobody {f : State → State} {s u : State} (hf : f s = u) (h : u.NobodyWaits) (h0 : u.hrq.total = 0) :
    event f s = finish s u ∧ EventEnd s u (event f s) := by
  have he := finish_nobody s h
  have : event f s = finish s u := by
    unfold event
    rw [hf, takes_none]
    rw [he.hrq]
    exact h0
  exact ⟨this, this ▸ he⟩

/-! ### What waits at a port when it chooses -/

theorem takeFirst_mem {p : Priority} {q rest : List CtlFrame} {f : CtlFrame} (h : takeFirst p q = some (f, rest)) (g : CtlFrame) :
    g ∈ q ↔ g = f ∨ g ∈ rest := by
  induction q generalizing f rest with
  | nil => cases h
  | cons a as ih =>
    unfold takeFirst at h
    split at h
    · cases h
      exact List.mem_cons
    · split at h
      · cases h
      · next b r hb =>
        cases h
        rw [List.mem_cons, List.mem_cons, ih hb]
        tauto

/-- A port before and after a choice: what waits after it waited before, and what waited still does or is in
transmission. -/
structure PortChose (a b : CellPort) : Prop where
  drain : PortDrain a b
  ctl : ∀ f ∈ b.ctl, f ∈ a.ctl
  sent : ∀ f ∈ a.ctl, f ∈ b.ctl ∨ b.tx = some (.control f)
  closed : ∀ q ∈ a.closes, q ∈ b.closes ∨ b.tx = some (.legClose q.1 q.2)

theorem PortChose.refl (a : CellPort) : PortChose a a := ⟨.refl a, fun _ => id, fun _ => .inl, fun _ => .inl⟩

theorem sendPair_chose (a : CellPort) (p : CellIx × Channel) : PortChose a (sendPair a p) := by
  refine ⟨sendPair_drain a p, fun _ => id, fun _ => .inl, fun q hq => ?_⟩
  by_cases h : q = p
  · exact .inr (by rw [h]; rfl)
  · exact .inl (List.mem_filter.2 ⟨hq, by simpa using h⟩)

theorem takeFirst_chose {a : CellPort} {p : Priority} {f : CtlFrame} {rest : List CtlFrame}
    (h : takeFirst p a.ctl = some (f, rest)) : PortChose a { a with ctl := rest, tx := some (.control f) } := by
  refine ⟨⟨rfl, le_rfl, ?_, List.Sublist.refl _⟩, fun g hg => (takeFirst_mem h g).2 (.inr hg), fun g hg => ?_,
    fun _ => .inl⟩
  · exact (Nat.le_succ _).trans (takeFirst_length h).le
  · rcases (takeFirst_mem h g).1 hg with rfl | hg
    · exact .inr rfl
    · exact .inl hg

theorem sendFirst_chose {a b : CellPort} {p : Priority} (h : sendFirst a p = some b) : PortChose a b := by
  unfold sendFirst at h
  obtain ⟨⟨f, rest⟩, hr, rfl⟩ := Option.map_eq_some_iff.1 h
  exact takeFirst_chose hr

theorem sendBelow_chose (a : CellPort) : PortChose a (sendBelow a) := by
  unfold sendBelow
  split
  · exact sendPair_chose a _
  · cases h2 : sendFirst a 2 with
    | some b => exact sendFirst_chose h2
    | none =>
      cases h1 : sendFirst a 1 with
      | some b => exact sendFirst_chose h1
      | none =>
        cases h0 : sendFirst a 0 with
        | some b => exact sendFirst_chose h0
        | none => exact .refl a

theorem chooseNext_chose (a : CellPort) : PortChose a (chooseNext a) := by
  unfold chooseNext
  split
  · next h => exact ⟨⟨rfl, by rw [h]; simp, le_rfl, List.Sublist.refl _⟩, fun _ => id, fun _ => .inl, fun _ => .inl⟩
  · unfold sendControl
    split
    · exact sendBelow_chose a
    · next h =>
      split
      · exact sendPair_chose a _
      · exact takeFirst_chose h

theorem EventEnd.chose {s u t : State} (h : EventEnd s u t) (p : PortIx) : PortChose (u.port p) (t.port p) := by
  rw [h.ports p]
  split
  · exact .refl _
  · exact chooseNext_chose _

theorem EventEnd.closing {s u t : State} (h : EventEnd s u t) {c : CellIx} {x : Channel}
    (hc : (c, x) ∈ (u.port (portOf c)).closes) : Closing c x t := (h.chose _).closed _ hc

theorem EventEnd.hoWithdrawn {s u t : State} (h : EventEnd s u t) {x : Channel} {p : PortIx}
    (hu : ∀ o ∈ (u.port p).ctl, o.hoChannel ≠ some x) : ∀ o ∈ (t.port p).ctl, o.hoChannel ≠ some x :=
  fun o ho => hu o ((h.chose p).ctl o ho)

theorem EventEnd.cell {s u t : State} (h : EventEnd s u t) (c : CellIx) : t.cell c = u.cell c :=
  congrArg (fun cs => Table.get CellRec.blank cs c) h.cells

/-- A frame in transmission keeps its port from choosing. -/
theorem EventEnd.port_busy {s u t : State} (h : EventEnd s u t) {p : PortIx} (hx : (u.port p).tx ≠ none) :
    t.port p = u.port p := by rw [h.ports p, if_pos (.inr (.inr hx))]

theorem EventEnd.recordReleased {s u t r : State} {i : RecIx} (h : EventEnd s u t) (k : RecordReleased i r u) :
    RecordReleased i r t where
  kept := fun e a x he hl hc => by
    rw [h.enrolled, h.lastChange]
    exact k.kept e a x he hl hc
  revoked := fun e a x v he hl hc => by
    rw [h.enrolled, h.lastChange]
    exact k.revoked e a x v he hl hc

theorem EventEnd.handsetReleased {s u t r : State} {i : RecIx} (h : EventEnd s u t) (k : HandsetReleased i r u) :
    HandsetReleased i r t where
  toRecordReleased := h.recordReleased k.toRecordReleased
  told := fun e a x v he hl hc hu hr => by
    rcases k.told e a x v he hl hc hu hr with hq | hx
    · exact (h.chose _).sent _ hq
    · exact .inr (by rw [h.port_busy (by rw [hx]; nofun), hx])

end Sys2Proof.Machine
end

section
/-! PROOFS. The management RESTART (R20, R73, R87, R163, R179, R187). -/
namespace Sys2Proof.Machine

/-! ### The answered request -/

theorem answered_eq (tag : Tag) (a : MgmtAnswer) (s : State) :
    answered tag a s = { s with
      trunk := { s.trunk with
        replies := (answered tag a s).trunk.replies, mgmtIn := (answered tag a s).trunk.mgmtIn }
      mgmtNow := (answered tag a s).mgmtNow
      mgmtMuted := false
      device := { s.device with replyOverflow := (answered tag a s).device.replyOverflow } } :=
  (responseHanded.2 tag a s).2.2.2.2.2

/-! ### LEG-CLOSE-ALL to the cells in service -/

/-- The cells of a port that are IN_SERVICE, in a list. -/
def servedAt (s : State) (p : PortIx) (l : List CellIx) : List CellIx :=
  l.filter fun c => decide ((s.cell c).service = .inService ∧ portOf c = p)

theorem closeAllAt_ports (s : State) (c : CellIx) : closeAllAt s c = { s with ports := (closeAllAt s c).ports } := by
  unfold closeAllAt
  split
  · exact offerQuietly_ports _ s
  · rfl

theorem closeAllAt_cell (s : State) (c d : CellIx) : (closeAllAt s c).cell d = s.cell d := by
  rw [closeAllAt_ports]
  rfl

theorem foldl_closeAllAt_ports (l : List CellIx) (s : State) :
    l.foldl closeAllAt s = { s with ports := (l.foldl closeAllAt s).ports } := by
  induction l generalizing s with
  | nil => rfl
  | cons c l ih =>
    rw [List.foldl_cons, ih, closeAllAt_ports]

theorem offer_down {f : CtlFrame} {s : State} (h : (s.port (portOf f.dest)).link = .down) :
    offer f s = (.refusedLinkDown, s) := by
  unfold offer
  dsimp only
  rw [h]

/-- A cell in service of a port with room. -/
theorem closeAllAt_served {s : State} {c : CellIx} (hs : (s.cell c).service = .inService)
    (hu : (s.port (portOf c)).link = .up) (hr : (s.port (portOf c)).ctl.length < 24) :
    (closeAllAt s c).port (portOf c) =
      { s.port (portOf c) with ctl := (s.port (portOf c)).ctl ++ [.legCloseAll c] } := by
  unfold closeAllAt offerQuietly
  rw [if_pos hs, offer_room (f := .legCloseAll c) hu hr]
  exact State.port_setPort_self _ _ _

/-- A cell out of service, of another port, or of a port that is DOWN. -/
theorem closeAllAt_unserved {s : State} {c : CellIx} {p : PortIx}
    (h : ¬ ((s.cell c).service = .inService ∧ portOf c = p) ∨ (s.port p).link = .down) :
    (closeAllAt s c).port p = s.port p := by
  unfold closeAllAt offerQuietly
  split
  · next hs =>
    by_cases hp : portOf c = p
    · rw [offer_down (f := .legCloseAll c)]
      exact (congrArg (fun q => (s.port q).link) hp).trans (h.resolve_left fun hn => hn ⟨hs, hp⟩)
    · rcases offer_cases (.legCloseAll c) s with h | ⟨rest, -, -, h⟩
      · rw [h]
      · rw [h]
        exact State.port_setPort_ne _ (fun h => hp h.symm) _
  · rfl

theorem servedAt_congr {s t : State} (h : ∀ c, t.cell c = s.cell c) (p : PortIx) (l : List CellIx) :
    servedAt t p l = servedAt s p l := by
  unfold servedAt
  simp only [h]

theorem servedAt_cons_in {s : State} {p : PortIx} {c : CellIx} (h : (s.cell c).service = .inService ∧ portOf c = p)
    (l : List CellIx) : servedAt s p (c :: l) = c :: servedAt s p l := List.filter_cons_of_pos (decide_eq_true h)

theorem servedAt_cons_out {s : State} {p : PortIx} {c : CellIx} (h : ¬ ((s.cell c).service = .inService ∧ portOf c = p))
    (l : List CellIx) : servedAt s p (c :: l) = servedAt s p l := List.filter_cons_of_neg (by simpa using h)

theorem foldl_closeAllAt_port {p : PortIx} (l : List CellIx) {s : State} (hu : (s.port p).link = .up)
    (hr : (s.port p).ctl.length + (servedAt s p l).length ≤ 24) :
    (l.foldl closeAllAt s).port p =
      { s.port p with ctl := (s.port p).ctl ++ (servedAt s p l).map .legCloseAll } := by
  induction l generalizing s with
  | nil => exact (congrArg (fun q => { s.port p with ctl := q }) (List.append_nil _).symm)
  | cons c l ih =>
    have hc := servedAt_congr (closeAllAt_cell s c) p l
    rw [List.foldl_cons]
    by_cases h : (s.cell c).service = .inService ∧ portOf c = p
    · rw [servedAt_cons_in h, List.length_cons] at hr
      obtain ⟨hs, rfl⟩ := h
      have h1 := closeAllAt_served hs hu (by omega)
      rw [servedAt_cons_in ⟨hs, rfl⟩]
      refine (ih (s := closeAllAt s c) (by rw [h1]; exact hu) ?_).trans ?_
      · rw [hc, h1]
        dsimp only
        rw [List.length_append, List.length_singleton]
        omega
      · rw [hc, h1]
        dsimp only
        rw [List.append_assoc]
        rfl
    · rw [servedAt_cons_out h] at hr ⊢
      have h1 := closeAllAt_unserved (.inl h)
      refine (ih (s := closeAllAt s c) (by rw [h1]; exact hu) (by rw [hc, h1]; exact hr)).trans ?_
      rw [hc, h1]

theorem foldl_closeAllAt_down {p : PortIx} (l : List CellIx) {s : State} (hd : (s.port p).link = .down) :
    (l.foldl closeAllAt s).port p = s.port p := by
  induction l generalizing s with
  | nil => rfl
  | cons c l ih =>
    have h1 := closeAllAt_unserved (c := c) (.inr hd)
    rw [List.foldl_cons, ih (by rw [h1]; exact hd), h1]

theorem mem_indicesFrom {n k : Nat} {i : Fin n} (h : n - k ≤ i.val) (hk : k ≤ n) : i ∈ indicesFrom n k := by
  induction k with
  | zero => exact absurd i.isLt (by omega)
  | succ k ih =>
    unfold indicesFrom
    rw [dif_pos (by omega), List.mem_cons]
    by_cases hi : i.val = n - (k + 1)
    · exact .inl (Fin.ext hi)
    · exact .inr (ih (by omega) (by omega))

theorem mem_allIndices (n : Nat) (i : Fin n) : i ∈ allIndices n := mem_indicesFrom (by omega) le_rfl

/-- A port has 16 cells. -/
theorem servedAt_length (s : State) (p : PortIx) : (servedAt s p (allIndices 64)).length ≤ 16 := by
  have h : ∀ p : PortIx, ((allIndices 64).filter fun c => decide (portOf c = p)).length ≤ 16 := by decide
  refine le_trans (List.Sublist.length_le ?_) (h p)
  exact List.monotone_filter_right _ fun c hc => by simp_all

theorem mem_servedAt {s : State} {p : PortIx} {c : CellIx} :
    c ∈ servedAt s p (allIndices 64) ↔ (s.cell c).service = .inService ∧ portOf c = p := by
  unfold servedAt
  rw [List.mem_filter, decide_eq_true_iff]
  exact and_iff_right (mem_allIndices 64 c)

/-! ### The state after the RESTART, before its response -/

/-- The effect of the RESTART on the blocks. -/
def restarted (s : State) : State := (allIndices 64).foldl closeAllAt (restartBlocks s)

theorem restarted_eq (s : State) : restarted s = { restartBlocks s with ports := (restarted s).ports } :=
  foldl_closeAllAt_ports _ _

theorem restarted_cell (s : State) (c : CellIx) : (restarted s).cell c = restartCell s c (s.cell c) := by
  have h : (restarted s).cells = (restartBlocks s).cells := by rw [restarted_eq]
  rw [← State.cell_restartBlocks]
  unfold State.cell
  rw [h]

theorem restarted_record (s : State) (i : RecIx) : (restarted s).record i = restartRecord s.now i (s.record i) := by
  have h : (restarted s).records = (restartBlocks s).records := by rw [restarted_eq]
  rw [← State.record_restartBlocks]
  unfold State.record
  rw [h]

theorem restarted_port (s : State) (p : PortIx) : (restarted s).port p = { s.port p with
    lane := [], closes := []
    ctl := if (s.port p).link = .up then (servedAt (restartBlocks s) p (allIndices 64)).map .legCloseAll else [] } := by
  have hp := State.port_restartBlocks s p
  cases hl : (s.port p).link with
  | up =>
    have h := foldl_closeAllAt_port (s := restartBlocks s) (p := p) (allIndices 64) (by rw [hp]; exact hl) (by
      have := servedAt_length (restartBlocks s) p
      rw [hp]
      exact (Nat.zero_add _).le.trans (this.trans (by decide)))
    rw [if_pos rfl]
    refine h.trans ?_
    rw [hp]
    rfl
  | down =>
    rw [if_neg (by nofun)]
    refine (foldl_closeAllAt_down (s := restartBlocks s) (allIndices 64) (by rw [hp]; exact hl)).trans ?_
    rw [hp]
    rfl

/-! ### Records, cells, hold and sweep -/

theorem restartRecord_hid (now : Time) (i : RecIx) (r : Record) :
    (restartRecord now i r).hid = (restartRecord now i r).enrolled.map (·.hid) := by
  unfold restartRecord Record.hid Record.enrolled
  rcases r with ⟨_ | _ | e, l, d, q⟩
  · rfl
  · rfl
  · by_cases hv : isVisitor i = true
    · simp only [hv, if_true]
      rfl
    · simp only [hv]
      rfl

theorem restartRecord_flags (now : Time) (i : RecIx) (r : Record) :
    (restartRecord now i r).dirty = false ∧ (restartRecord now i r).queued = false := by
  unfold restartRecord
  rcases r with ⟨_ | _ | e, l, d, q⟩ <;> exact ⟨rfl, rfl⟩

theorem restartRecord_lastChange (now : Time) (i : RecIx) (r : Record)
    [Decidable (∃ e, r.enrolled = some e ∧ e.loc ≠ .absent)] : (restartRecord now i r).lastChange =
    if ∃ e, r.enrolled = some e ∧ e.loc ≠ .absent then now else r.lastChange := by
  unfold restartRecord Record.enrolled
  rcases r with ⟨_ | _ | e, l, d, q⟩
  · exact (if_neg nofun).symm
  · exact (if_neg nofun).symm
  · by_cases ha : e.loc = .absent
    · simp [ha]
    · simp [ha]

theorem restartService_eq (s : State) (c : CellIx) (v : Service) : restartService s c v =
    if v = .inService ∨ v = .outOfService then v
    else if (s.port (portOf c)).link = .up then .inService else .outOfService := by
  have hl : serviceByLink s c = if (s.port (portOf c)).link = .up then .inService else .outOfService := by
    unfold serviceByLink
    cases (s.port (portOf c)).link <;> rfl
  cases v with
  | outOfService => rfl
  | inService => rfl
  | draining f d => exact hl.trans (if_neg (by simp)).symm
  | restarting d => exact hl.trans (if_neg (by simp)).symm

/-- A source that RESTART has reset stays reset at a fill of 0. -/
theorem judgeSource_restarted {on : Nat} (off : Nat) (h : 0 < on) (src : Source) :
    judgeSource on off 0 src.restarted = src.restarted := by
  unfold judgeSource Source.restarted
  simp [Nat.pos_iff_ne_zero.1 h]

theorem Sweep.aborted_eq (w : Sweep) :
    w.aborted = if w.state = .idle then w else { w with state := .idle, lastEnd := .aborted } := by
  unfold Sweep.aborted Sweep.underWay
  cases w.state with
  | idle => rfl
  | running => rfl
  | suspended b => rfl

theorem Sweep.aborted_state (w : Sweep) : w.aborted.state = .idle := by
  rw [Sweep.aborted_eq]
  split
  · next h => exact h
  · rfl

theorem SweepFollows.idle {a b : Bool} {w v : Sweep} (h : SweepFollows a b w v) (hw : w.state = .idle) : v = w := by
  unfold SweepFollows at h
  rw [hw] at h
  simpa using h

/-! ### The event -/

/-- The RESTART's event: its effect and response, and then the end of the event. -/
theorem runs_restart {tag : Tag} {s : State} (h : Executing tag (asksFor 0x7F) s) :
    Runs (.restart tag) s (EventEnd s (answered tag ⟨.ok, .none⟩ (restarted s))) := by
  have hf : respond tag (asksFor 0x7F) restartAll s = answered tag ⟨.ok, .none⟩ (restarted s) :=
    respond_answered h (restartAll_eq s)
  have hcalls : (answered tag ⟨.ok, .none⟩ (restarted s)).calls = (restartBlocks s).calls := by
    rw [answered_calls, restarted_eq]
  have hhrq : (answered tag ⟨.ok, .none⟩ (restarted s)).hrq = ⟨[], []⟩ := by
    rw [answered_hrq, restarted_eq]
    rfl
  refine ⟨_, rfl, (event_end_nobody hf (fun x k hk => ?_) (by rw [hhrq]; rfl)).2⟩
  rw [State.call_congr hcalls] at hk
  cases hk

/-- The trunk at the end of an event that left it no voice and no notice: it sends a reply at most. -/
structure RepliesOnly (s w t : State) : Prop where
  notices : t.notices = []
  records : t.records = w.records
  pages : t.pages = w.pages
  voice : t.trunk.voice = []
  same : (s.trunk = w.trunk ∧ s.notices = w.notices) ∨ w.trunk.link = .down ∨ w.trunk.tx ≠ none ∨ w.trunk.replies = [] →
    t.trunk = w.trunk
  sent : ¬ s.trunk = w.trunk → w.trunk.link = .up → w.trunk.tx = none → ∀ r rs, w.trunk.replies = r :: rs →
    t.trunk = { w.trunk with replies := rs, tx := some (.reply r) }

theorem EventEnd.repliesOnly {s w t : State} (h : EventEnd s w t) (hv : w.trunk.voice = []) (hn : w.notices = []) :
    RepliesOnly s w t := by
  have ht := h.trunk
  split at ht
  · next hc =>
    obtain ⟨h1, h2, h3, h4⟩ := ht
    refine ⟨h2.trans hn, h3, h4, (congrArg Trunk.voice h1).trans hv, fun _ => h1, fun hne hl hx => ?_⟩
    rcases hc with ⟨he, -⟩ | hd | hx'
    · exact absurd he hne
    · rw [hl] at hd
      cases hd
    · exact absurd hx hx'
  · next hc =>
    unfold TrunkChose at ht
    cases hr : w.trunk.replies with
    | nil =>
      rw [hv, hr, hn] at ht
      obtain ⟨h1, h2, h3, h4⟩ := ht
      exact ⟨h2, h3, h4, (congrArg Trunk.voice h1).trans hv, fun _ => h1, fun _ _ _ _ _ h => by rw [hr] at h; cases h⟩
    | cons r rs =>
      rw [hv, hr] at ht
      obtain ⟨h1, h2, h3, h4⟩ := ht
      refine ⟨h2.trans hn, h3, h4, (congrArg Trunk.voice h1).trans hv, fun hs => absurd hs ?_, fun _ _ _ r' rs' he => ?_⟩
      · rw [hr]
        simpa using hc
      · rw [hr] at he
        cases he
        exact h1

/-- The port's share at the end of the RESTART. -/
theorem restarted_chose {s w t : State} (h : EventEnd s w t) {p : PortIx} (hw : w.port p = (restarted s).port p) :
    (t.port p).link = (s.port p).link ∧ (t.port p).lane = [] ∧ (t.port p).closes = [] ∧
      (∀ f, (s.port p).tx = some f → (t.port p).tx = some f) ∧
      (∀ f ∈ (t.port p).ctl, ∃ c, f = .legCloseAll c ∧ portOf c = p ∧ ((restartBlocks s).cell c).service = .inService) ∧
      ∀ c, portOf c = p → ((restartBlocks s).cell c).service = .inService → (s.port p).link = .up →
        .legCloseAll c ∈ (t.port p).ctl ∨ (t.port p).tx = some (.control (.legCloseAll c)) := by
  have hc := h.chose p
  have hb := h.port_busy (p := p)
  rw [hw, restarted_port] at hc hb
  refine ⟨hc.drain.link, List.length_eq_zero_iff.1 (Nat.le_zero.1 hc.drain.lane), List.sublist_nil.1 hc.drain.closes,
    fun f hf => ?_, fun f hf => ?_, fun c hp hs hu => ?_⟩
  · rw [hb (by dsimp only; rw [hf]; nofun)]
    exact hf
  · have hm := hc.ctl f hf
    dsimp only at hm
    split at hm
    · obtain ⟨c, hc, rfl⟩ := List.mem_map.1 hm
      obtain ⟨hs, hp⟩ := mem_servedAt.1 hc
      exact ⟨c, rfl, hp, hs⟩
    · cases hm
  · refine hc.sent _ ?_
    dsimp only
    rw [if_pos hu]
    exact List.mem_map.2 ⟨c, mem_servedAt.2 ⟨hs, hp⟩, rfl⟩

theorem restarted_hold {s w t : State} (h : EventEnd s w t) (hh : w.hold = s.hold.restarted) (hq : w.hrq = ⟨[], []⟩)
    (ha : w.answers = []) (hn : t.notices = []) : t.hold = s.hold.restarted := by
  rw [h.hold]
  unfold reportFills
  dsimp only
  rw [h.hrq, h.answers, hh, hq, ha, hn]
  unfold Hold.restarted
  dsimp only
  rw [show (Hrq.total ⟨[], []⟩) = 0 from rfl, List.length_nil, List.length_nil, judgeSource_restarted _ (by decide),
    judgeSource_restarted _ (by decide), judgeSource_restarted _ (by decide), ite_self, ite_self, ite_self]

/-- Settles O60. -/
theorem restartClears : Obligations.RestartClears := fun tag s hs hx => by
  obtain ⟨t, hrun, h⟩ := runs_restart hx
  obtain ⟨hnone, hnext, hmuted, hreplies, hover, -⟩ := responseHanded.2 tag ⟨.ok, .none⟩ (restarted s)
  have hw := answered_eq tag ⟨.ok, .none⟩ (restarted s)
  generalize answered tag ⟨.ok, .none⟩ (restarted s) = w at h hnone hnext hmuted hreplies hover hw
  have hu := restarted_eq s
  have hports : ∀ p, w.port p = (restarted s).port p := fun p => by
    have : w.ports = (restarted s).ports := by rw [hw]
    unfold State.port
    rw [this]
  have hcells : w.cells = (restarted s).cells := by rw [hw]
  have hrecs : w.records = (restarted s).records := by rw [hw]
  have ht := h.repliesOnly (by rw [hw, hu]; rfl) (by rw [hw, hu]; rfl)
  have hcell : ∀ c, t.cell c = restartCell s c (s.cell c) := fun c => by
    rw [h.cell, ← restarted_cell]
    unfold State.cell
    rw [hcells]
  have hrec : ∀ i, t.record i = restartRecord s.now i (s.record i) := fun i => by
    rw [← restarted_record]
    unfold State.record
    rw [ht.records, hrecs]
  have hlink : w.trunk.link = s.trunk.link := by rw [hw, hu]; rfl
  have htx : w.trunk.tx = s.trunk.tx := by rw [hw, hu]; rfl
  have hdev : w.device = { s.device with replyOverflow := w.device.replyOverflow } := by rw [hw, hu]; rfl
  have hmuteds : (restarted s).mgmtMuted = s.mgmtMuted := by rw [hu]; rfl
  have htrunks : (restarted s).trunk = { s.trunk with voice := [] } := by rw [hu]; rfl
  have hdevs : (restarted s).device = s.device := by rw [hu]; rfl
  rw [htrunks] at hnone hnext
  rw [htrunks, hmuteds] at hreplies
  rw [htrunks, hmuteds, hdevs] at hover
  have hhold := restarted_hold h (by rw [hw, hu]; rfl) (by rw [hw, hu]; rfl) (by rw [hw, hu]; rfl) ht.notices
  have hsweep : t.sweep = s.sweep.aborted :=
    (h.sweep.idle (by rw [hw, hu]; exact Sweep.aborted_state _)).trans (by rw [hw, hu]; rfl)
  have hcalls : w.calls = (restartBlocks s).calls := by rw [hw, hu]
  have hpages : w.pages = (restartBlocks s).pages := by rw [hw, hu]
  have hblock : ∀ c, t.cell c = (restartBlocks s).cell c := fun c => by rw [hcell, State.cell_restartBlocks]
  refine ⟨t, hrun, fun x => State.call_congr (h.calls.trans hcalls) x, ?_, ?_, ?_, ht.notices, fun e => ?_, ht.voice,
    fun i => ?_, fun i => ?_, fun i => ?_, fun c => ?_, fun p => ?_, fun c hc hup => ?_, hhold,
    hsweep.trans (Sweep.aborted_eq _), ?_, ?_, ?_, ?_, ?_, ?_, ?_, h.trunkLink.trans hlink, ?_, fun hm => ?_,
    fun q qs hm => ?_, ?_, fun rs hrs => ⟨fun hb => ?_, fun hm hr hn => ?_, fun hm hn hl hr => ?_⟩⟩
  · exact h.hrq.trans (by rw [hw, hu]; rfl)
  · exact h.answers.trans (by rw [hw, hu]; rfl)
  · exact h.txnCounter.trans (by rw [hw, hu]; rfl)
  · unfold State.page
    rw [ht.pages, hpages]
    rfl
  · rw [hrec i]
    exact ⟨(restartRecord_flags _ _ _).1, (restartRecord_flags _ _ _).2, restartRecord_enrolled _ _ _⟩
  · rw [hrec i]
    exact restartRecord_hid _ _ _
  · rw [hrec i]
    exact restartRecord_lastChange _ _ _
  · rw [hcell c, ← restartService_eq]
    rfl
  · obtain ⟨hl, hlane, hcl, hsend, hctl, -⟩ := restarted_chose h (hports p)
    refine ⟨hl, hlane, hcl, hsend, fun f hf => ?_⟩
    obtain ⟨c, rfl, hp, hc⟩ := hctl f hf
    exact ⟨c, rfl, hp, by rw [hblock]; exact hc⟩
  · obtain ⟨-, -, -, -, -, hsent⟩ := restarted_chose h (hports (portOf c))
    exact hsent c rfl (by rw [← hblock]; exact hc) hup
  · exact h.now.trans (by rw [hw, hu]; rfl)
  · exact h.filters.trans (by rw [hw, hu]; rfl)
  · exact h.zones.trans (by rw [hw, hu]; rfl)
  · exact h.gates.trans (by rw [hw, hu]; rfl)
  · exact h.config.trans (by rw [hw, hu]; rfl)
  · exact h.counters.trans (by rw [hw, hu]; rfl)
  · exact h.pending.trans (by rw [hw, hu]; rfl)
  · exact h.mgmtMuted.trans hmuted
  · exact ⟨h.mgmtNow.trans (hnone hm).1, h.mgmtIn.trans (hnone hm).2⟩
  · exact ⟨h.mgmtNow.trans (hnext q qs hm).1, h.mgmtIn.trans (hnext q qs hm).2⟩
  · rw [h.device, hdev, hover]
    split <;> rfl
  · have hk := ht.same (hb.elim (fun hx => .inr (.inr (.inl (by rwa [htx])))) fun hd => .inr (.inl (by rwa [hlink])))
    rw [hk]
    exact ⟨hreplies.trans hrs.symm, htx⟩
  · have hr' : w.trunk.replies = [] := by
      rw [hreplies, if_neg (by rw [hm]; nofun)]
      exact hr
    rw [ht.same (.inr (.inr (.inr hr')))]
    exact ⟨hr', htx.trans hn⟩
  · rw [← hreplies.trans hrs.symm]
    have hr' : w.trunk.replies = s.trunk.replies ++ [.mgmtRsp tag ⟨.ok, .none⟩] := by
      rw [hreplies, if_pos ⟨hm, hl, hr⟩]
    have hne : ¬ s.trunk = w.trunk := fun he => by
      have := congrArg List.length (he ▸ hr')
      rw [List.length_append, List.length_singleton] at this
      omega
    obtain ⟨r, rs', hc⟩ := List.exists_cons_of_ne_nil (hr' ▸ List.append_ne_nil_of_right_ne_nil _ (List.cons_ne_nil _ _) :
      w.trunk.replies ≠ [])
    rw [ht.sent hne (hlink.trans hl) (htx.trans hn) r rs' hc]
    exact ⟨r, hc, rfl⟩

end Sys2Proof.Machine
end

section
/-! PROOFS. The trunk line (R1, R4, R12, R32, R86): up, with the head of the notice queue sent; down, each call ended without
an answer, with what the endings leave alone stated as one relation over the channels that have ended. -/
namespace Sys2Proof.Machine

/-! ### The line comes up -/

theorem exec_trunkLineUp_up {s : State} (h : s.trunk.link = .up) : exec .trunkLineUp s = .next s := by
  have hu : trunkUp s = s := by
    unfold trunkUp
    rw [h]
  exact congrArg Host.Outcome.next (event_eq_quiet hu (Quiet.refl s))

theorem trunkUp_down {s : State} (h : s.trunk.link = .down) :
    trunkUp s = { s with trunk := ⟨.up, [], [], none, []⟩ } := by
  unfold trunkUp
  rw [h]
  rfl

/-- A trunk that comes up sends the head of the notice queue. -/
theorem runs_trunkLineUp {s : State} (h : s.trunk.link = .down) : Runs .trunkLineUp s fun t =>
    EventEnd s { s with trunk := ⟨.up, [], [], none, []⟩ } t ∧
      ∀ n ns, s.notices = n :: ns → t.trunk.tx = some (.notice (buildNotice n s).1 s.now) := by
  refine runs_event rfl (trunkUp_down h) rfl rfl fun t ht => ⟨ht, fun n ns hn => ?_⟩
  have hk := ht.trunk
  rw [if_neg (by
    rintro (⟨hs, -⟩ | hd | hx)
    · have := congrArg Trunk.link hs
      rw [h] at this
      cases this
    · cases hd
    · exact hx rfl)] at hk
  unfold TrunkChose at hk
  dsimp only at hk
  rw [hn] at hk
  have hb := buildNotice_says (s := s) (u := { s with trunk := ⟨.up, [], [], none, []⟩, notices := n :: ns }) rfl rfl n
  exact (congrArg Trunk.tx hk.1).trans (congrArg (fun b => some (TrunkTx.notice b s.now)) hb)

/-! ### What an ending does to the registry -/

theorem settlePage_notices (e : PageIx) (o : PageOutcome) (s : State) : s.notices <+: (settlePage e o s).notices := by
  unfold settlePage
  split
  · exact List.prefix_rfl
  · split
    · exact List.prefix_append _ _
    · exact List.prefix_rfl

theorem markDirty_prefix (i : RecIx) (s : State) : s.notices <+: (markDirty i s).notices := by
  unfold markDirty
  dsimp only
  split
  · exact List.prefix_append _ _
  · exact List.prefix_rfl

theorem changeLocation_prefix (i : RecIx) (e : Enrolled) (loc : Location) (s : State) :
    s.notices <+: (changeLocation i e loc s).notices := by
  refine (markDirty_prefix i
    (s.setRecord i { s.record i with holder := holderAfter i e loc, lastChange := s.now })).trans ?_
  unfold changeLocation pageReport
  split
  · exact List.prefix_rfl
  · cases loc with
    | absent => exact settlePage_notices _ _ _
    | attached a d => exact List.prefix_rfl
    | engaged a x => exact settlePage_notices _ _ _

/-- A change of location leaves the other records. -/
theorem changeLocation_other {i j : RecIx} (h : j ≠ i) (e : Enrolled) (loc : Location) (s : State) :
    sameRecord ((changeLocation i e loc s).record j) (s.record j) := by
  have hr : (changeLocation i e loc s).record j = (writeLocation i e loc s).record j := by
    unfold State.record
    rw [changeLocation_records]
  rw [hr]
  have hm := markDirty_record i j (s.setRecord i { s.record i with holder := holderAfter i e loc, lastChange := s.now })
  rwa [State.record_setRecord_ne _ h] at hm

/-- A record that is not ENGAGED is not released. -/
theorem releaseRecheck_idle {i : RecIx} {s : State} (h : (s.record i).channel = none) : releaseRecheck i s = s := by
  unfold releaseRecheck
  split
  · rfl
  · next e he =>
    rw [Record.channel_of_enrolled he] at h
    split
    · rfl
    · rfl
    · next a x hl =>
      rw [hl] at h
      cases h

theorem releaseRecheck_prefix (i : RecIx) (s : State) : s.notices <+: (releaseRecheck i s).notices := by
  unfold releaseRecheck
  split
  · exact List.prefix_rfl
  · split
    · exact List.prefix_rfl
    · exact List.prefix_rfl
    · split
      · exact changeLocation_prefix _ _ _ _
      · unfold revoke
        rw [(sendAck_step _ _ _ _).notices]
        exact changeLocation_prefix _ _ _ _

theorem releaseRecheck_other {i j : RecIx} (h : j ≠ i) (s : State) :
    sameRecord ((releaseRecheck i s).record j) (s.record j) := by
  unfold releaseRecheck
  split
  · exact ⟨rfl, rfl⟩
  · split
    · exact ⟨rfl, rfl⟩
    · exact ⟨rfl, rfl⟩
    · split
      · exact changeLocation_other h _ _ _
      · unfold revoke
        rw [(sendAck_step _ _ _ _).record]
        exact changeLocation_other h _ _ _

theorem legsEnded_record (x : Channel) (k : Call) (lost : Bool) (s : State) (i : RecIx) :
    (legsEnded x k lost (hrqRemove x s)).record i = s.record i := by
  rw [(legsEnded_step x k lost _).record]
  unfold State.record
  rw [hrqRemove_records]

theorem endCall_recheck_other {x : Channel} {k : Call} {j : RecIx} (h : j ≠ k.handset) (lost : Bool) (s : State) :
    sameRecord ((endCall x k lost .recheck s).record j) (s.record j) := by
  have := releaseRecheck_other h (legsEnded x k lost (hrqRemove x s))
  rwa [legsEnded_record] at this

theorem endCall_recheck_idle {x : Channel} {k : Call} {s : State} (h : (s.record k.handset).channel = none) (lost : Bool) :
    (endCall x k lost .recheck s).record k.handset = s.record k.handset := by
  have : releaseRecheck k.handset (legsEnded x k lost (hrqRemove x s)) = legsEnded x k lost (hrqRemove x s) :=
    releaseRecheck_idle (by rwa [legsEnded_record])
  rw [endCall_eq]
  change (releaseRecheck k.handset _).record k.handset = _
  rw [this, legsEnded_record]

theorem endCall_recheck_freed (x : Channel) (k : Call) (lost : Bool) (s : State) :
    ((endCall x k lost .recheck s).record k.handset).channel = none :=
  (releaseRecheck_released k.handset (legsEnded x k lost (hrqRemove x s))).freed

theorem endCall_recheck_prefix (x : Channel) (k : Call) (lost : Bool) (s : State) :
    s.notices <+: (endCall x k lost .recheck s).notices := by
  have h := releaseRecheck_prefix k.handset (legsEnded x k lost (hrqRemove x s))
  have hn : (hrqRemove x s).notices = s.notices := by rw [hrqRemove_only]
  rwa [(legsEnded_step x k lost _).notices, hn] at h

/-! ### The offer of freed places -/

theorem modCall_handset {x : Channel} {f : Call → Call} (hf : ∀ k, (f k).handset = k.handset) (s : State) (y : Channel) :
    (s.modCall x f).handset y = s.handset y := by
  unfold State.handset
  rw [State.call_modCall]
  split
  · next h =>
    rw [h, Option.map_map]
    exact congrArg (fun g => Option.map g (s.call x)) (funext hf)
  · rfl

/-- An operation on the request queue and the flags of contexts alone. -/
structure RequestStep (s t : State) : Prop where
  only : t = { s with hrq := t.hrq, calls := t.calls }
  handset : ∀ x, t.handset x = s.handset x

theorem RequestStep.refl (s : State) : RequestStep s s := ⟨rfl, fun _ => rfl⟩

theorem RequestStep.trans {s t u : State} (h : RequestStep s t) (k : RequestStep t u) : RequestStep s u where
  only := by rw [k.only, h.only]
  handset := fun x => (k.handset x).trans (h.handset x)

theorem setPosted_request (x : Channel) (b : Bool) (s : State) : RequestStep s (setPosted x b s) :=
  ⟨rfl, modCall_handset (f := fun k => { k with posted := b }) (fun _ => rfl) s⟩

theorem hrqStore_request (r : Request) (q : Hrq) (s : State) : RequestStep s (hrqStore r q s) :=
  RequestStep.trans (t := { s with hrq := q.append r }) ⟨rfl, fun _ => rfl⟩ (setPosted_request _ _ _)

theorem hrqPost_request (r : Request) (s : State) : RequestStep s (hrqPost r s) := by
  unfold hrqPost
  split
  · exact hrqStore_request _ _ s
  · split
    · exact hrqStore_request _ _ s
    · split
      · split
        · exact .refl s
        · exact (setPosted_request _ _ s).trans (hrqStore_request _ _ _)
      · exact .refl s

theorem offerPlace_request (s : State) : RequestStep s (offerPlace s) := by
  unfold offerPlace
  split
  · split
    · exact .refl s
    · unfold postRescue
      split
      · exact .refl s
      · split
        · exact .refl s
        · exact hrqPost_request _ s
  · exact .refl s

theorem offerPlaces_request (n : Nat) (s : State) : RequestStep s (offerPlaces n s) := by
  induction n generalizing s with
  | zero => exact .refl s
  | succ n ih => exact (offerPlace_request s).trans (ih _)

/-- The end of an event with the trunk DOWN: queues and records stay, and the contexts keep their handsets. -/
structure DownEnd (u t : State) : Prop where
  trunk : t.trunk = u.trunk
  notices : t.notices = u.notices
  records : t.records = u.records
  device : t.device = u.device
  counters : t.counters = u.counters
  handset : ∀ x, t.handset x = u.handset x

theorem finish_down (s : State) {u : State} (hd : u.trunk.link = .down) : DownEnd u (finish s u) := by
  have h := finish_spec s u
  have ho := offerPlaces_request (s.hrq.total - u.hrq.total) u
  generalize offerPlaces (s.hrq.total - u.hrq.total) u = w at h ho
  have hw : w.trunk = u.trunk := by rw [ho.only]
  have hk := h.trunk
  rw [if_pos (.inr (.inl (by rw [hw]; exact hd)))] at hk
  obtain ⟨h1, h2, h3, -⟩ := hk
  refine ⟨h1.trans hw, h2.trans ?_, h3.trans ?_, h.device.trans ?_, h.counters.trans ?_, fun x => ?_⟩
  · rw [ho.only]
  · rw [ho.only]
  · rw [ho.only]
  · rw [ho.only]
  · unfold State.handset State.call
    rw [h.calls]
    exact ho.handset x

/-! ### The endings, one after another (R86) -/

theorem RecordReleased.of_same {i : RecIx} {s p t : State} (hs : SettingKept s p)
    (hr : (p.record i).enrolled = (s.record i).enrolled) (h : RecordReleased i p t) : RecordReleased i s t where
  kept := fun e a x he hl hc => by
    have := h.kept e a x (hr.trans he) hl (by rwa [hs.checkStored])
    unfold inMs at this ⊢
    rwa [hs.now, hs.config] at this
  revoked := fun e a x v he hl hc => by
    have := h.revoked e a x v (hr.trans he) hl (by rwa [hs.checkStored])
    rwa [hs.now] at this

theorem RecordReleased.stays {i : RecIx} {s t u : State} (h : RecordReleased i s t)
    (hr : sameRecord (u.record i) (t.record i)) : RecordReleased i s u where
  kept := fun e a x he hl hc => by
    rw [hr.1, hr.2]
    exact h.kept e a x he hl hc
  revoked := fun e a x v he hl hc => by
    rw [hr.1, hr.2]
    exact h.revoked e a x v he hl hc

theorem endCall_counters (x : Channel) (k : Call) (lost : Bool) (form : ReleaseForm) (s : State) :
    (endCall x k lost form s).counters = s.counters := by
  rw [endCall_eq]
  change (releaseHandset form k.handset _).counters = _
  rw [(releaseHandset_step form k.handset _).only]
  change (legsEnded x k lost _).counters = _
  rw [(legsEnded_step x k lost _).only, hrqRemove_only]

/-- From the trunk's going down, the calls of the channels `done` have ended: their handsets are released, and the other
contexts and records are as they were. -/
structure CallsEnded (s : State) (done : Channel → Prop) (t : State) : Prop where
  setting : SettingKept s t
  trunk : t.trunk = s.trunk
  counters : t.counters = s.counters
  device : t.device = s.device
  notices : s.notices <+: t.notices
  ended : ∀ x, done x → t.handset x = none
  others : ∀ x, ¬ done x → t.handset x = s.handset x
  released : ∀ x i, done x → s.handset x = some i → RecordReleased i s t ∧ (t.record i).channel = none
  records : ∀ i, (∀ x, done x → s.handset x ≠ some i) → sameRecord (t.record i) (s.record i)

theorem CallsEnded.start (s : State) : CallsEnded s (fun _ => False) s :=
  ⟨.refl s, rfl, rfl, rfl, List.prefix_rfl, nofun, fun _ _ => rfl, nofun, fun _ _ => ⟨rfl, rfl⟩⟩

theorem handset_none {s : State} {x : Channel} : s.handset x = none ↔ s.call x = none := Option.map_eq_none_iff

theorem silentEnding_setting (s : State) (x : Channel) : SettingKept s (silentEnding s x) := by
  unfold silentEnding
  split
  · exact .refl s
  · next k hk =>
    exact ((endCall_moves (P := fun _ => False) (State.handset_of_call hk) false .recheck).trans
      (finish_moves s _)).raws.setting

/-- A channel without a call. -/
theorem CallsEnded.idle {s t : State} {done : Channel → Prop} (h : CallsEnded s done t) {x : Channel}
    (hx : t.call x = none) : CallsEnded s (fun y => done y ∨ y = x) t := by
  have hs : ∀ i, s.handset x = some i → done x := fun i hi => by
    by_contra hd
    have := h.others x hd
    rw [hi, handset_none.2 hx] at this
    cases this
  refine { h with
    ended := fun y hy => ?_, others := fun y hy => h.others y fun hd => hy (.inl hd)
    released := fun y i hy hi => ?_, records := fun i hi => h.records i fun y hy => hi y (.inl hy) }
  · rcases hy with hy | rfl
    · exact h.ended y hy
    · exact handset_none.2 hx
  · rcases hy with hy | rfl
    · exact h.released y i hy hi
    · exact h.released y i (hs i hi) hi

/-- The next channel's call ends without an answer. -/
theorem CallsEnded.next {s t : State} {done : Channel → Prop} (h : CallsEnded s done t) (hd : s.trunk.link = .down)
    (x : Channel) : CallsEnded s (fun y => done y ∨ y = x) (silentEnding t x) := by
  cases hk : t.call x with
  | none =>
    have : silentEnding t x = t := by
      unfold silentEnding
      rw [hk]
    rw [this]
    exact h.idle hk
  | some k =>
    have hset := silentEnding_setting t x
    have hu : silentEnding t x = finish t (endCall x k false .recheck t) := by
      unfold silentEnding
      rw [hk]
    have he := endCall_ended x k false .recheck t
    have hf := finish_down t (u := endCall x k false .recheck t) (by rw [he.trunk, h.trunk]; exact hd)
    rw [← hu] at hf
    generalize silentEnding t x = u at hset hf
    have hrec : ∀ i, u.record i = (endCall x k false .recheck t).record i := fun i => by
      unfold State.record
      rw [hf.records]
    have hx : ¬ done x := fun hdx => by
      have := h.ended x hdx
      rw [handset_none.1 this] at hk
      cases hk
    have hsx : s.handset x = some k.handset := by
      rw [← h.others x hx]
      exact State.handset_of_call hk
    have hhand : ∀ y, y ≠ x → u.handset y = t.handset y := fun y hy => by
      rw [hf.handset]
      unfold State.handset
      rw [he.others y hy]
    have hother : ∀ i, i ≠ k.handset → sameRecord (u.record i) (t.record i) := fun i hi => by
      rw [hrec]
      exact endCall_recheck_other hi false t
    have hfree : (u.record k.handset).channel = none := by
      rw [hrec]
      exact endCall_recheck_freed x k false t
    have hstill : ∀ i, (t.record i).channel = none → sameRecord (u.record i) (t.record i) := fun i hi => by
      by_cases hik : i = k.handset
      · subst hik
        rw [hrec, endCall_recheck_idle hi]
        exact ⟨rfl, rfl⟩
      · exact hother i hik
    have hold : ∀ y i, done y → s.handset y = some i → RecordReleased i s u ∧ (u.record i).channel = none := fun y i hy hi => by
      obtain ⟨hr, hc⟩ := h.released y i hy hi
      exact ⟨hr.stays (hstill i hc), (hstill i hc).channel.trans hc⟩
    refine ⟨h.setting.trans hset, (hf.trunk.trans he.trunk).trans h.trunk, ?_, (hf.device.trans he.device).trans h.device,
      ?_, fun y hy => ?_, fun y hy => ?_, fun y i hy hi => ?_, fun i hi => ?_⟩
    · exact (hf.counters.trans (endCall_counters _ _ _ _ _)).trans h.counters
    · rw [hf.notices]
      exact h.notices.trans (endCall_recheck_prefix x k false t)
    · by_cases hyx : y = x
      · rw [hyx, hf.handset]
        exact handset_none.2 he.call
      · rw [hhand y hyx]
        exact h.ended y (hy.resolve_right hyx)
    · rw [hhand y fun hyx => hy (.inr hyx)]
      exact h.others y fun hdy => hy (.inl hdy)
    · by_cases hex : ∃ z, done z ∧ s.handset z = some i
      · obtain ⟨z, hz, hzi⟩ := hex
        exact hold z i hz hzi
      · have hyx : y = x := hy.resolve_left fun hdy => hex ⟨y, hdy, hi⟩
        obtain rfl : k.handset = i := by
          rw [hyx, hsx] at hi
          exact Option.some.inj hi
        have hsame := h.records k.handset fun z hz hzi => hex ⟨z, hz, hzi⟩
        have hr := (endCall_recheck x k false t).toRecordReleased
        exact ⟨(RecordReleased.of_same h.setting hsame.1 hr).stays (by rw [hrec]; exact ⟨rfl, rfl⟩), hfree⟩
    · have hik : i ≠ k.handset := fun hik => hi x (.inr rfl) (by rw [hsx, hik])
      obtain ⟨h1, h2⟩ := hother i hik
      obtain ⟨k1, k2⟩ := h.records i fun y hy => hi y (.inl hy)
      exact ⟨h1.trans k1, h2.trans k2⟩

theorem CallsEnded.foldl {s t : State} {done : Channel → Prop} (h : CallsEnded s done t) (hd : s.trunk.link = .down)
    (l : List Channel) : CallsEnded s (fun y => done y ∨ y ∈ l) (l.foldl silentEnding t) := by
  induction l generalizing t done with
  | nil =>
    have : (fun y => done y ∨ y ∈ []) = done := funext fun y => by simp
    rw [this]
    exact h
  | cons x l ih =>
    have := ih (h.next hd x)
    rw [List.foldl_cons]
    simpa only [List.mem_cons, or_assoc] using this

/-- What the trunk's going down leaves. -/
theorem trunkDown_ended (s : State) :
    CallsEnded (trunkDown s) (fun y => False ∨ y ∈ allIndices 128) ((allIndices 128).foldl silentEnding (trunkDown s)) :=
  (CallsEnded.start (trunkDown s)).foldl rfl _

theorem exec_trunkLineDown_down {s : State} (h : s.trunk.link = .down) : exec .trunkLineDown s = .next s := by
  change execTrunkLineDown s = _
  unfold execTrunkLineDown
  rw [h]

theorem exec_trunkLineDown_up {s : State} (h : s.trunk.link = .up) :
    exec .trunkLineDown s = .next ((allIndices 128).foldl silentEnding (trunkDown s)) := by
  change execTrunkLineDown s = _
  unfold execTrunkLineDown
  rw [h]

/-- Settles O10. -/
theorem trunkLineEvents : Obligations.TrunkLineEvents := fun s => by
  refine ⟨exec_trunkLineUp_up, runs_trunkLineUp, exec_trunkLineDown_down, fun hu => ?_⟩
  have h := trunkDown_ended s
  refine ⟨_, exec_trunkLineDown_up hu, ?_⟩
  generalize (allIndices 128).foldl silentEnding (trunkDown s) = t at h
  have hset := h.setting
  refine ⟨h.trunk, fun x => handset_none.1 (h.ended x (.inr (mem_allIndices 128 x))), h.notices,
    congrArg DeviceCounters.drops h.device, hset.links, fun c => ⟨hset.stored c, hset.service c⟩, hset.subscribers, hset.now,
    hset.filters, hset.zones, hset.gates, hset.config, h.counters, hset.pending, hset.mgmtNow, hset.mgmtMuted,
    fun x k hk => ?_⟩
  obtain ⟨hr, -⟩ := h.released x k.handset (.inr (mem_allIndices 128 x)) (State.handset_of_call (s := trunkDown s) hk)
  exact ⟨hr.kept, hr.revoked⟩

end Sys2Proof.Machine
end

section
/-! PROOFS. Fallback, failed open and cancellation (R80, R124, R147, R151), as their effects before the end of an event. -/
namespace Sys2Proof.Machine

/-! ### Legs in close sets -/

theorem ClosesAdded.legs {x : Channel} {cs : List CellIx} {s t : State} (h : ClosesAdded (cs.map fun c => (c, x)) s t) :
    LegsClosed x cs s t := by
  refine ⟨fun c hc hu hr => .inl (h.entered (c, x) (List.mem_map.2 ⟨c, hc, rfl⟩) hu ?_), fun p c y hy => ?_⟩
  · rwa [List.length_map]
  · refine (h.new p (c, y) hy).imp_right fun ⟨hm, hp⟩ => ?_
    obtain ⟨d, hd, he⟩ := List.mem_map.1 hm
    cases he
    exact ⟨rfl, hd, hp⟩

theorem LegsClosed.congr {x : Channel} {cs : List CellIx} {s t u : State} (h : LegsClosed x cs s t)
    (hp : ∀ p, u.port p = t.port p) : LegsClosed x cs s u := by
  refine ⟨fun c hc hu hr => ?_, fun p c y hy => h.2 p c y (by rwa [← hp])⟩
  have := h.1 c hc hu hr
  unfold Closing at this ⊢
  rwa [hp]

theorem SlotsReleased.congr {cs : List CellIx} {s t u : State} (h : SlotsReleased cs s t) (hc : u.cells = t.cells) :
    SlotsReleased cs s u := fun c => by
  have := h c
  unfold State.cell at this ⊢
  rwa [hc]

/-! ### Fallback (R124) -/

/-- The pairs that the end of a target puts in close sets. -/
def TargetEnd.closed (c : CellIx) : TargetEnd → List CellIx
  | .close => [c]
  | .cancel _ | .gone | .lost => []

theorem abandonTarget_step (x : Channel) (c : CellIx) (how : TargetEnd) (s : State) :
    RadioStep 1 ((how.closed c).map fun d => (d, x)) [c] s (abandonTarget x c how s) := by
  cases how with
  | cancel n => exact cancelOpen_step s (c, n)
  | gone => exact releaseSlot_step c s
  | close => exact closeLeg_step x s c
  | lost => exact releaseSlot_step c s

/-- The radio's share of a fallback. -/
def targetLeft (x : Channel) (c : CellIx) (how : TargetEnd) (s : State) : State := withdrawHo x (abandonTarget x c how s)

theorem targetLeft_step (x : Channel) (c : CellIx) (how : TargetEnd) (s : State) :
    RadioStep 1 ((how.closed c).map fun d => (d, x)) [c] s (targetLeft x c how s) := by
  have h := (abandonTarget_step x c how s).trans (withdrawHo_step x _)
  rw [List.append_nil, List.append_nil] at h
  unfold targetLeft
  exact h

theorem fallback_eq (x : Channel) (k : Call) (l : Leg) (c : CellIx) (how : TargetEnd) (s : State) :
    fallback x k l c how s = ((targetLeft x c how s).setCall x (some (fallenCall s k l c))).count
      fun d => { d with fallbacks := d.fallbacks.bump } := by
  have h := (targetLeft_step x c how s).only
  unfold fallback countFallback
  change ((targetLeft x c how s).setCall x (some { k with
    phase := .active l (some (retryDeadline (targetLeft x c how s))), candidates := resetDwell c k.candidates })).count _ = _
  have hd : retryDeadline (targetLeft x c how s) = inMs (s.config.retryInterval * 100) s := by
    rw [h]
    rfl
  rw [hd]
  rfl

theorem fallback_fellBack (x : Channel) (k : Call) (l : Leg) (c : CellIx) (how : TargetEnd) (s : State) :
    FellBack x k l c (how.closed c) s (fallback x k l c how s) := by
  have h := targetLeft_step x c how s
  have hw : ∀ p, ∀ o ∈ ((targetLeft x c how s).port p).ctl, o.hoChannel ≠ some x := by
    unfold targetLeft
    exact withdrawHo_none x _
  rw [fallback_eq]
  generalize targetLeft x c how s = t at h hw
  refine ⟨State.call_setCall_self _ _ _, fun y hy => (State.call_setCall_ne _ hy _).trans (h.call y), h.slots.congr rfl,
    h.closes.legs.congr fun _ => rfl, hw, ?_, h.hrq⟩
  change ({ t.device with fallbacks := t.device.fallbacks.bump } : DeviceCounters) = _
  rw [h.device]

theorem withdrawHo_answers (x : Channel) (s : State) : (withdrawHo x s).answers = s.answers := by
  have : ∀ (l : List PortIx) (u : State), (l.foldl (withdrawHoAt x) u).answers = u.answers := fun l => by
    induction l with
    | nil => exact fun _ => rfl
    | cons p l ih => exact fun u => ih _
  exact this _ s

theorem fallback_answers (x : Channel) (k : Call) (l : Leg) (c : CellIx) (how : TargetEnd) (s : State) :
    (fallback x k l c how s).answers = (abandonTarget x c how s).answers := by
  have h : (targetLeft x c how s).answers = (abandonTarget x c how s).answers := by
    unfold targetLeft
    exact withdrawHo_answers x _
  rw [fallback_eq, ← h]
  rfl

/-! ### Cancellation (R147) -/

theorem openQueued_iff {n : Txn} {c : CellIx} {s : State} :
    openQueued n c s = true ↔ ∃ o ∈ (s.port (portOf c)).ctl, o.openTxn = some n := by
  unfold openQueued
  simp only [List.any_eq_true, decide_eq_true_eq]

theorem withdrawOpen_none (n : Txn) (c : CellIx) (s : State) :
    ∀ o ∈ ((withdrawOpen n c s).port (portOf c)).ctl, o.openTxn ≠ some n := fun o ho => by
  unfold withdrawOpen at ho
  rw [State.port_setPort_self] at ho
  simpa using (List.mem_filter.1 ho).2

theorem freeAnswer_answers (a : Answer) (s : State) :
    (freeAnswer a s).answers = s.answers.filter fun b => b.txn ≠ a.txn := by
  change s.answers.filter _ = _
  simp only [decide_not, ne_eq]

theorem answerOf_txn {n : Txn} {a : Answer} {s : State} (h : s.answerOf n = some a) : a.txn = n := by
  have := List.find?_some h
  simpa using this

theorem cancelTxn_cancelled (n : Txn) (s : State) : OpenCancelled n s (cancelTxn n s) := fun a ha hc => by
  have htxn := answerOf_txn ha
  have he : cancelTxn n s = if openQueued n a.cell s then freeAnswer a s else markCancelled n s := by
    unfold cancelTxn
    rw [ha]
    dsimp only
    rw [hc]
    rfl
  refine ⟨fun hq => ?_, fun hn => ?_⟩
  · rw [he, if_pos (openQueued_iff.2 hq)]
    refine ⟨by rw [freeAnswer_answers, htxn], ?_⟩
    rw [← htxn]
    exact withdrawOpen_none _ _ _
  · rw [he, if_neg fun hq => by
      obtain ⟨o, ho, h⟩ := openQueued_iff.1 hq
      exact hn o ho h]
    rfl

/-- A cancellation outlasts what touches neither the pending answers nor a LEG-OPEN. -/
theorem OpenCancelled.stays {n : Txn} {s t u : State} (h : OpenCancelled n s t) (ha : u.answers = t.answers)
    (hp : ∀ p, ∀ o ∈ (u.port p).ctl, o.openTxn = some n → o ∈ (t.port p).ctl) : OpenCancelled n s u := fun a hn hc => by
  obtain ⟨h1, h2⟩ := h a hn hc
  refine ⟨fun hq => ?_, fun hq => by rw [ha]; exact h2 hq⟩
  obtain ⟨h3, h4⟩ := h1 hq
  exact ⟨ha.trans h3, fun o ho hon => h4 o (hp _ o ho hon) hon⟩

theorem RadioStep.opens {m : Nat} {as : List (CellIx × Channel)} {cs : List CellIx} {s t : State}
    (h : RadioStep m as cs s t) {n : Txn} (p : PortIx) : ∀ o ∈ (t.port p).ctl, o.openTxn = some n → o ∈ (s.port p).ctl :=
  fun o ho hon => ((h.ports p).entries o ho).resolve_right fun hown => by
    rw [CtlFrame.openTxn_of_owner hown] at hon
    cases hon

theorem cancelOpen_cancelled (s : State) (o : CellIx × Txn) : OpenCancelled o.2 s (cancelOpen s o) :=
  (cancelTxn_cancelled o.2 s).stays (releaseSlot_answers _ _) (releaseSlot_step _ _).opens

/-! ### A failed open (R80) -/

theorem failedOpen_failed {x : Channel} {k : Call} {s : State} (c : CellIx) {cause : FailCause} (hc : cause ≠ .timeout) :
    OpenFailed x k c cause s (failedOpen x k c cause s) := by
  have hr := releaseSlot_step c s
  have hset := (releaseSlot_moves (P := fun _ => False) c s).raws.setting
  have hh := releaseHandset_step .recheck k.handset (releaseSlot c s)
  have hrel := releaseRecheck_handset (i := k.handset) hset hr.record fun p => (hr.ports p).length.trans (by omega)
  have hres : failedOpenResult cause = .legFailed cause := by
    cases cause with
    | timeout => exact absurd rfl hc
    | _ => rfl
  change HandsetStep _ (releaseRecheck k.handset (releaseSlot c s)) at hh
  have he : failedOpen x k c cause s =
      reply (.callAck x (.legFailed cause)) ((releaseRecheck k.handset (releaseSlot c s)).setCall x none) := by
    unfold failedOpen
    rw [hres]
  have htrunk : ((releaseRecheck k.handset (releaseSlot c s)).setCall x none).trunk = s.trunk := by
    change (releaseRecheck k.handset (releaseSlot c s)).trunk = _
    rw [hh.only]
    exact hr.trunk
  rw [he]
  refine ⟨?_, fun y hy => ?_, fun d => ?_, ?_, fun hu hlen => ?_, ?_⟩
  · rw [State.call_congr (reply_calls _ _), State.call_setCall_self]
  · rw [State.call_congr (reply_calls _ _), hh.setCall, if_neg hy, hr.call]
  · have := hr.slots d
    unfold State.cell at this ⊢
    rw [reply_cells]
    change ((releaseRecheck k.handset (releaseSlot c s)).cells.get _ d).occupancy = _
    rw [hh.only]
    exact this
  · have hcl := hr.closes.trans (u := releaseRecheck k.handset (releaseSlot c s)) (fun p => (hr.ports p).link)
      (.same hh.closes)
    refine (ClosesAdded.legs (cs := []) hcl).congr fun p => ?_
    unfold State.port
    rw [reply_ports]
    rfl
  · rw [reply_queued (by rw [htrunk]; exact hu) (by rw [htrunk]; exact hlen), htrunk]
  · exact hrel.congr (reply_records (.callAck x (.legFailed cause)) _) (reply_ports (.callAck x (.legFailed cause)) _)

end Sys2Proof.Machine
end

section
/-! PROOFS. What every take of the handover controller respects (R117 to R124, R133): a relation that each of its pieces
respects, it respects too. No take opens an IDLE context, and none posts a request. -/
namespace Sys2Proof.Machine

/-! ### The pieces of a take -/

/-- A relation between states that each piece of a take respects. -/
structure TakeRel (R : State → State → Prop) : Prop where
  refl : ∀ s, R s s
  trans : ∀ {s t u}, R s t → R t u → R s u
  dropped : ∀ x cause lost s, R s (dropCall x cause lost s)
  failed : ∀ {x k s} c cause, s.call x = some k → R s (failedOpen x k c cause s)
  fallen : ∀ {x k s} l c how, s.call x = some k → R s (fallback x k l c how s)
  ended : ∀ {x k s} c d, s.call x = some k → R s (endAttempt x k c d s)
  freed : ∀ a s, R s (freeAnswer a s)
  tried : ∀ x i c role b s, R s (tryTarget x i c role b s).state
  counted : ∀ f s, R s (s.count f)
  changed : ∀ x f s, R s (s.modCall x f)
  queued : ∀ q s, q.total ≤ s.hrq.total → R s { s with hrq := q }

section
variable {R : State → State → Prop}

/-- What a try leaves, refused or admitted. -/
theorem TakeRel.try_eq (h : TakeRel R) {x : Channel} {i : RecIx} {c : CellIx} {role : Role} {b : Bool} {s u : State}
    {r : TargetTry} (hr : tryTarget x i c role b s = r) (hu : r.state = u) : R s u := by
  have := h.tried x i c role b s
  rwa [hr, hu] at this

theorem TakeRel.passOn (h : TakeRel R) {f : Channel → CellIx → State → State} (hf : ∀ x c s, R s (f x c s)) (x : Channel)
    (s : State) : R s (passOn f x s) := by
  unfold Machine.passOn
  split
  · exact h.refl s
  · split
    · exact h.dropped _ _ _ s
    · exact hf _ _ s

theorem TakeRel.deliverFail (h : TakeRel R) {f : Channel → State → State} (hf : ∀ x s, R s (f x s)) (x : Channel) (n : Txn)
    (cause : FailCause) (s : State) : R s (deliverFail f x n cause s) := by
  unfold Machine.deliverFail
  split
  · exact h.refl s
  · next k hk =>
    split
    · split
      · exact h.failed _ _ hk
      · exact h.refl s
    · exact h.refl s
    · split
      · exact h.fallen _ _ _ hk
      · exact h.refl s
    · exact h.refl s
    · exact h.refl s
    · split
      · exact h.trans (h.ended _ _ hk) (hf _ _)
      · exact h.refl s

theorem TakeRel.resolveFail (h : TakeRel R) {f : Channel → State → State} (hf : ∀ x s, R s (f x s)) (a : Answer)
    (cause : FailCause) (s : State) : R s (resolveFail f a cause s) := by
  unfold Machine.resolveFail
  split
  · exact h.freed a s
  · exact h.trans (h.freed a s) (h.deliverFail hf _ _ _ _)

theorem TakeRel.settleVictim (h : TakeRel R) {f : Channel → State → State} (hf : ∀ x s, R s (f x s)) (v : Option CtlFrame)
    (s : State) : R s (settleVictim f v s) := by
  unfold Machine.settleVictim
  split
  · exact h.refl s
  · split
    · exact h.refl s
    · exact h.resolveFail hf _ _ s

theorem TakeRel.rescueTry (h : TakeRel R) (n : Nat) (x : Channel) (c : CellIx) (s : State) : R s (rescueTry n x c s) := by
  induction n generalizing x c s with
  | zero => exact h.dropped _ _ _ s
  | succ n ih =>
    have next : ∀ y u, R u (Machine.passOn (Machine.rescueTry n) y u) := h.passOn ih
    unfold Machine.rescueTry
    split
    · exact h.refl s
    · split
      · next ht => exact h.trans (h.trans (h.trans (h.try_eq ht rfl) (h.counted _ _)) (h.changed _ _ _)) (next _ _)
      · next ht => exact h.trans (h.trans (h.trans (h.try_eq ht rfl) (h.counted _ _)) (h.changed _ _ _)) (next _ _)
      · next ht => exact h.trans (h.trans (h.try_eq ht rfl) (h.changed _ _ _)) (h.settleVictim next _ _)

theorem TakeRel.nextCandidate (h : TakeRel R) (x : Channel) (s : State) : R s (nextCandidate x s) :=
  h.passOn (h.rescueTry _) x s

theorem TakeRel.takeHandover (h : TakeRel R) (r : Request) (i : RecIx) (s : State) : R s (takeHandover r i s) := by
  unfold Machine.takeHandover
  dsimp only
  split
  · exact h.trans (h.counted _ s) (h.changed _ _ _)
  · split
    · next ht => exact h.trans (h.trans (h.try_eq ht rfl) (h.counted _ _)) (h.changed _ _ _)
    · next ht => exact h.trans (h.trans (h.try_eq ht rfl) (h.counted _ _)) (h.changed _ _ _)
    · next ht => exact h.trans (h.trans (h.try_eq ht rfl) (h.changed _ _ _)) (h.settleVictim h.nextCandidate _ _)

theorem TakeRel.preemptiveRescue (h : TakeRel R) (x : Channel) (i : RecIx) (c : CellIx) (ts : List CellIx) (s : State) :
    R s (preemptiveRescue x i c ts s) := by
  induction ts generalizing s with
  | nil => exact h.changed _ _ s
  | cons t ts ih =>
    unfold Machine.preemptiveRescue
    split
    · next ht => exact h.trans (h.trans (h.try_eq ht rfl) (h.counted _ _)) (ih _)
    · next ht => exact h.trans (h.trans (h.try_eq ht rfl) (h.counted _ _)) (ih _)
    · next ht => exact h.trans (h.trans (h.try_eq ht rfl) (h.changed _ _ _)) (h.settleVictim h.nextCandidate _ _)

theorem TakeRel.judgeRequest (h : TakeRel R) (r : Request) (s : State) : R s (judgeRequest r s) := by
  unfold Machine.judgeRequest
  repeat' split
  all_goals first
    | with_reducible exact h.refl s
    | with_reducible exact h.takeHandover _ _ s
    | with_reducible exact h.preemptiveRescue _ _ _ _ s
    | with_reducible exact h.rescueTry _ _ _ s

theorem TakeRel.takeOne (h : TakeRel R) (s : State) : R s (takeOne s) := by
  unfold Machine.takeOne
  split
  · exact h.refl s
  · next r q hn =>
    obtain ⟨hu, hv⟩ := Hrq.next_sub hn
    exact h.trans (h.trans (h.queued q s (Nat.add_le_add hu.length_le hv.length_le)) (h.changed _ _ _)) (h.judgeRequest r _)

end

/-! ### Contexts that are IDLE -/

/-- The contexts that are IDLE stay so. -/
def IdleKept (s t : State) : Prop := ∀ y, s.call y = none → t.call y = none

theorem IdleKept.refl (s : State) : IdleKept s s := fun _ => id

theorem IdleKept.trans {s t u : State} (h : IdleKept s t) (k : IdleKept t u) : IdleKept s u := fun y hy => k y (h y hy)

theorem IdleKept.of_calls {s t : State} (h : t.calls = s.calls) : IdleKept s t := fun y hy => (State.call_congr h y).trans hy

theorem IdleKept.of_others {s t : State} {x : Channel} {k : Call} (hk : s.call x = some k)
    (h : ∀ y, y ≠ x → t.call y = s.call y) : IdleKept s t := fun y hy => by
  have hx : y ≠ x := fun e => by
    rw [e, hk] at hy
    cases hy
  rw [h y hx, hy]

theorem IdleKept.modCall (s : State) (x : Channel) (f : Call → Call) : IdleKept s (s.modCall x f) := fun y hy => by
  rw [State.call_modCall]
  split
  · next h =>
    rw [← h, hy]
    rfl
  · exact hy

theorem RequestStep.idleKept {s t : State} (h : RequestStep s t) : IdleKept s t := fun y hy =>
  handset_none.1 ((h.handset y).trans (handset_none.2 hy))

/-! ### What the pieces leave of the other contexts -/

theorem dropCall_others {x y : Channel} (h : y ≠ x) (cause : DropCause) (lost : Bool) (s : State) :
    (dropCall x cause lost s).call y = s.call y := by
  cases hk : s.call x with
  | none => rw [dropCall_none hk]
  | some k =>
    have he := endCall_ended x k lost cause.form (s.count fun d => { d with drops := d.drops.bump cause })
    rw [dropCall_eq hk]
    exact (State.call_congr (reply_calls _ _) y).trans (he.others y h)

theorem releaseRecheck_calls (i : RecIx) (s : State) : (releaseRecheck i s).calls = s.calls := by
  have h := (releaseHandset_step .recheck i s).only
  change (releaseHandset .recheck i s).calls = _
  rw [h]

theorem releaseRecheck_hrq (i : RecIx) (s : State) : (releaseRecheck i s).hrq = s.hrq := by
  have h := (releaseHandset_step .recheck i s).only
  change (releaseHandset .recheck i s).hrq = _
  rw [h]

theorem failedOpen_call (x : Channel) (k : Call) (c : CellIx) (cause : FailCause) (s : State) (y : Channel) :
    (failedOpen x k c cause s).call y = if y = x then none else s.call y := by
  unfold failedOpen
  dsimp only
  rw [State.call_congr (reply_calls _ _), State.call_setCall, State.call_congr (releaseRecheck_calls _ _),
    State.call_congr (releaseSlot_calls _ _)]

theorem failedOpen_hrq (x : Channel) (k : Call) (c : CellIx) (cause : FailCause) (s : State) :
    (failedOpen x k c cause s).hrq = s.hrq := by
  unfold failedOpen
  dsimp only
  rw [reply_hrq]
  exact (releaseRecheck_hrq _ _).trans (releaseSlot_step c s).hrq

theorem endAttempt_call (x : Channel) (k : Call) (c : CellIx) (d : Time) (s : State) (y : Channel) :
    (endAttempt x k c d s).call y = if y = x then some { k with
      phase := .rescuing none d, candidates := k.candidates.filter fun b => !decide (b.cell = c) } else s.call y := by
  unfold endAttempt dropCandidate
  rw [State.call_modCall]
  split
  · rw [State.call_setCall_self]
    rfl
  · next h => rw [State.call_setCall_ne _ h, State.call_congr (releaseSlot_calls _ _)]

theorem endAttempt_hrq (x : Channel) (k : Call) (c : CellIx) (d : Time) (s : State) : (endAttempt x k c d s).hrq = s.hrq :=
  (releaseSlot_step c s).hrq

/-! ### A try changes no context and no request -/

/-- An operation on ports, cells, pending answers and the transaction counter alone. -/
def RadioOnly (s u : State) : Prop :=
  u = { s with ports := u.ports, cells := u.cells, answers := u.answers, txnCounter := u.txnCounter }

theorem RadioOnly.trans {s t u : State} (h : RadioOnly s t) (k : RadioOnly t u) : RadioOnly s u := by
  unfold RadioOnly at *
  rw [k, h]

theorem RadioStep.radioOnly {n : Nat} {as : List (CellIx × Channel)} {cs : List CellIx} {s t : State}
    (h : RadioStep n as cs s t) : RadioOnly s t := by
  unfold RadioOnly
  rw [h.only]

theorem offer_only (f : CtlFrame) (s : State) : RadioOnly s (offer f s).2 := by
  have h := offerQuietly_ports f s
  unfold offerQuietly at h
  unfold RadioOnly
  rw [h]

theorem reserve_cells {c : CellIx} {n : Nat} {s t : State} (h : reserve c n s = .ok t) : t = { s with cells := t.cells } := by
  unfold reserve at h
  dsimp only at h
  split at h
  · split at h
    · cases h
      rfl
    · cases h
  · cases h

theorem reserve_only {c : CellIx} {n : Nat} {s t : State} (h : reserve c n s = .ok t) : RadioOnly s t := by
  unfold RadioOnly
  rw [reserve_cells h]

theorem offerTargetOpen_only (x : Channel) (h : Hid) (c : CellIx) (role : Role) (s : State) :
    RadioOnly s (offerTargetOpen x h c role s).state := by
  have ho := offer_only (.legOpen c s.nextTxn x h role) s
  unfold offerTargetOpen
  split
  · split <;> next heq =>
      rw [heq] at ho
      first
        | with_reducible exact ho.trans (releaseSlot_step c _).radioOnly
        | exact ho.trans (u := allocateTxn _ _ _ _) rfl
  · exact (releaseSlot_step c s).radioOnly

theorem tryTarget_only (x : Channel) (i : RecIx) (c : CellIx) (role : Role) (b : Bool) (s : State) :
    RadioOnly s (tryTarget x i c role b s).state := by
  unfold tryTarget
  split
  · rfl
  · split
    · rfl
    · split
      · rfl
      · split
        · rfl
        · split
          · rfl
          · next hu => exact (reserve_only hu).trans (offerTargetOpen_only _ _ _ _ _)

theorem RadioOnly.calls {s u : State} (h : RadioOnly s u) : u.calls = s.calls := by
  unfold RadioOnly at h
  rw [h]

theorem RadioOnly.hrq {s u : State} (h : RadioOnly s u) : u.hrq = s.hrq := by
  unfold RadioOnly at h
  rw [h]

/-! ### Two relations that takes respect -/

theorem idleKept_takeRel : TakeRel IdleKept where
  refl := .refl
  trans := .trans
  dropped := fun x cause lost s => by
    cases hk : s.call x with
    | none =>
      rw [dropCall_none hk]
      exact .refl s
    | some k => exact .of_others hk fun y hy => dropCall_others hy cause lost s
  failed := fun c cause hk => .of_others hk fun y hy => (failedOpen_call _ _ c cause _ y).trans (if_neg hy)
  fallen := fun l c how hk => .of_others hk (fallback_fellBack _ _ l c how _).others
  ended := fun c d hk => .of_others hk fun y hy => (endAttempt_call _ _ c d _ y).trans (if_neg hy)
  freed := fun _ _ => .of_calls rfl
  tried := fun x i c role b s => .of_calls (tryTarget_only x i c role b s).calls
  counted := fun _ _ => .of_calls rfl
  changed := fun x f s => .modCall s x f
  queued := fun _ _ _ => .of_calls rfl

theorem hrqTotal_takeRel : TakeRel fun s t => t.hrq.total ≤ s.hrq.total where
  refl := fun _ => le_rfl
  trans := fun h k => k.trans h
  dropped := dropCall_total_le
  failed := fun c cause _ => by rw [failedOpen_hrq]
  fallen := fun l c how _ => by rw [(fallback_fellBack _ _ l c how _).hrq]
  ended := fun c d _ => by rw [endAttempt_hrq]
  freed := fun _ _ => le_rfl
  tried := fun x i c role b s => by rw [(tryTarget_only x i c role b s).hrq]
  counted := fun _ _ => le_rfl
  changed := fun _ _ _ => le_rfl
  queued := fun _ _ h => h

/-! ### The end of an event, and the takes that follow -/

theorem finish_idleKept (s u : State) : IdleKept u (finish s u) :=
  (offerPlaces_request (s.hrq.total - u.hrq.total) u).idleKept.trans (.of_calls (finish_spec s u).calls)

theorem takeLoop_idleKept (n : Nat) (s : State) : IdleKept s (takeLoop n s) := by
  induction n generalizing s with
  | zero => exact .refl s
  | succ n ih =>
    unfold takeLoop
    split
    · exact .refl s
    · exact ((idleKept_takeRel.takeOne s).trans (finish_idleKept _ _)).trans (ih _)

theorem takes_idleKept (s u : State) : IdleKept u (takes s u) := by
  unfold takes
  split
  · exact .refl u
  · exact takeLoop_idleKept _ u

/-- A context that is IDLE after its event is IDLE after the takes that follow. -/
theorem event_idleKept (f : State → State) (s : State) : IdleKept (f s) (event f s) :=
  (finish_idleKept s (f s)).trans (takes_idleKept s _)

end Sys2Proof.Machine
end

section
/-! PROOFS. The deadlines of cells and contexts (R16, R68, R69, R74, R124, R128, R134), passed and not passed. -/
namespace Sys2Proof.Machine

/-! ### Contexts in execution when a context that is not in execution changes -/

theorem insertIx_sublist {n : Nat} {α : Type} (i : Fin n) (v : α) (l : List (Fin n × α)) : l.Sublist (insertIx i v l) := by
  induction l with
  | nil => exact List.nil_sublist _
  | cons e l ih =>
    unfold insertIx
    split
    · exact List.sublist_cons_self _ _
    · exact ih.cons_cons e

/-- An index that did not count may take any value: the others count as before. -/
theorem Table.count_le_set {n : Nat} {α : Type} [DecidableEq α] (d : α) (t : Table n α) (i : Fin n) (v : α)
    {p : α → Bool} (h : p (t.get d i) = false) : t.count d p ≤ (t.set d i v).count d p := by
  have hset : t.set d i v = t ∨
      (t.entries.filter fun e => !decide (e.1 = i)).Sublist (t.set d i v).entries := by
    unfold Table.set
    dsimp only
    split
    · exact .inl rfl
    · split
      · exact .inr (.refl _)
      · exact .inr (insertIx_sublist i v _)
  rcases hset with hs | hs
  · rw [hs]
  · unfold Table.count
    refine le_trans ?_ ((hs.map (·.1)).countP_le)
    rw [List.countP_map, List.countP_map, List.countP_filter]
    refine List.countP_mono_left fun e _ he => ?_
    have hi : e.1 ≠ i := fun hi => by
      rw [Function.comp_apply, hi, h] at he
      cases he
    rw [Function.comp_apply] at he ⊢
    rw [Table.get_set_ne d t hi, he, decide_eq_false hi]
    rfl

theorem State.inExecution_le_setCall {s : State} {x : Channel} (h : inExecutionAt (s.call x) = false) (v : Option Call) :
    s.inExecution ≤ (s.setCall x v).inExecution := Table.count_le_set none s.calls x v h

theorem endCall_calls (x : Channel) (k : Call) (lost : Bool) (form : ReleaseForm) (s : State) :
    (endCall x k lost form s).calls = ((hrqRemove x s).setCall x none).calls := by
  rw [endCall_eq]
  change (releaseHandset form k.handset _).calls.set _ _ _ = _
  rw [(releaseHandset_step form k.handset _).only]
  change (legsEnded x k lost _).calls.set _ _ _ = _
  rw [(legsEnded_step x k lost _).only]
  rfl

theorem hrqRemove_inExecutionAt {x : Channel} {s : State} (h : inExecutionAt (s.call x) = false) :
    inExecutionAt ((hrqRemove x s).call x) = false ∧ s.inExecution ≤ (hrqRemove x s).inExecution := by
  unfold hrqRemove
  split
  · exact ⟨h, le_rfl⟩
  · have hx : inExecutionAt ((s.call x).map fun k => { k with posted := false }) = false := by
      cases hk : s.call x with
      | none => rfl
      | some k =>
        rw [hk] at h
        exact h
    exact ⟨by rw [setPosted, State.call_modCall, if_pos rfl]; exact hx, State.inExecution_le_setCall (s := s) h _⟩

/-- The drop of a context that is not in execution takes none out of execution. -/
theorem dropCall_inExecution {x : Channel} {s : State} (h : inExecutionAt (s.call x) = false) (cause : DropCause)
    (lost : Bool) : s.inExecution ≤ (dropCall x cause lost s).inExecution := by
  cases hk : s.call x with
  | none => rw [dropCall_none hk]
  | some k =>
    obtain ⟨h1, h2⟩ := hrqRemove_inExecutionAt (s := s.count fun d => { d with drops := d.drops.bump cause }) h
    rw [dropCall_eq hk]
    refine (h2.trans (State.inExecution_le_setCall h1 none)).trans (le_of_eq ?_)
    unfold State.inExecution
    rw [reply_calls, endCall_calls]

/-! ### The drain and the restart of a cell (R68, R69, R74) -/

theorem exec_drain_none {c : CellIx} {s : State} (h : ∀ f d, (s.cell c).service = .draining f d → ¬ due d s) :
    exec (.drainDeadlineExpiry c) s = .next s := by
  have hd : drainDue c s = none := by
    unfold drainDue
    split
    · next f d hs => exact if_neg fun hp => h f d hs (passed_iff.1 hp)
    · rfl
    · rfl
    · rfl
  change execDrainDeadlineExpiry c s = _
  unfold execDrainDeadlineExpiry
  rw [hd]

theorem exec_drain_due {c : CellIx} {s : State} {f : FollowOn} {d : Time} (hs : (s.cell c).service = .draining f d)
    (hd : due d s) : exec (.drainDeadlineExpiry c) s =
      .next (eachContext (lossAtContext (fun d => decide (d = c)) .cellDrained) (event (enterFollowOn c f) s)) := by
  have h : drainDue c s = some f := by
    unfold drainDue
    rw [hs]
    exact if_pos (passed_iff.2 hd)
  change execDrainDeadlineExpiry c s = _
  unfold execDrainDeadlineExpiry
  rw [h]

/-- The follow-on of a drain. -/
def FollowOn.service (s : State) : FollowOn → Service
  | .outOfService => .outOfService
  | .restarting => .restarting (inMs (s.config.restartTime * 1000) s)

theorem enterFollowOn_service (c : CellIx) (f : FollowOn) (s : State) :
    ((enterFollowOn c f s).cell c).service = f.service s := by
  cases f with
  | outOfService => exact congrArg CellRec.service (State.cell_setCell_self _ _ _)
  | restarting =>
    change ((offerQuietly (.cellRestart c) _).cell c).service = _
    rw [offerQuietly_ports]
    exact congrArg CellRec.service (State.cell_setCell_self _ _ _)

theorem Service.follows_settled {a b : Service} (h : a.follows b) (ha : ∀ f d, a ≠ .draining f d) : b = a := by
  rcases h with h | h
  · exact h
  · cases a with
    | draining f d => exact absurd rfl (ha f d)
    | _ => exact h.elim

theorem FollowOn.service_settled (s : State) (f g : FollowOn) (d : Time) : f.service s ≠ .draining g d := by
  cases f <;> nofun

/-- The end of a drain: the follow-on, then the contexts' events, which leave it. -/
theorem runs_drain {c : CellIx} {s : State} {f : FollowOn} {d : Time} (hs : (s.cell c).service = .draining f d)
    (hd : due d s) : Runs (.drainDeadlineExpiry c) s fun t => (t.cell c).service = f.service s ∧
      ∃ u, SettingKept u t ∧ EventEnd s (enterFollowOn c f s) u := by
  have hstep := enterFollowOn_step c f s
  have he : EventEnd s (enterFollowOn c f s) (event (enterFollowOn c f) s) :=
    event_end_still hstep.hrq (by rw [hstep.only])
  have hset := (eachContext_steps (f := lossAtContext (fun d => decide (d = c)) .cellDrained)
    (fun x s => lossAtContext_moves _ _ x s) (event (enterFollowOn c f) s)).raws.setting
  refine ⟨_, exec_drain_due hs hd, ?_, _, hset, he⟩
  have hu : ((event (enterFollowOn c f) s).cell c).service = f.service s := by
    rw [he.cell, enterFollowOn_service]
  rw [← hu]
  exact Service.follows_settled (hset.service c) fun g e => by
    rw [hu]
    exact f.service_settled s g e

theorem restartExpiry_idle {c : CellIx} {s : State} (h : ∀ d, (s.cell c).service = .restarting d → ¬ due d s) :
    restartExpiry c s = s := by
  unfold restartExpiry
  split
  · next d hs => exact if_neg fun hp => h d hs (passed_iff.1 hp)
  · rfl
  · rfl
  · rfl

theorem restartExpiry_due {c : CellIx} {s : State} {d : Time} (hs : (s.cell c).service = .restarting d) (hd : due d s) :
    restartExpiry c s = s.setCell c { s.cell c with
      service := if (s.port (portOf c)).link = .up then .inService else .outOfService } := by
  unfold restartExpiry serviceByLink
  rw [hs]
  dsimp only
  rw [if_pos (passed_iff.2 hd)]
  cases (s.port (portOf c)).link <;> rfl

/-! ### The guard of a context -/

theorem guardExpiry_idle {x : Channel} {s : State}
    (h : ∀ k d, s.call x = some k → k.phase.guardDeadline = some d → ¬ due d s) : guardExpiry x s = s := by
  unfold guardExpiry
  split
  · rfl
  · next k hk =>
    split
    · rfl
    · next d hg => exact if_neg fun hp => h k d hk hg (passed_iff.1 hp)

theorem guardExpiry_due {x : Channel} {s : State} {k : Call} {d : Time} (hk : s.call x = some k)
    (hg : k.phase.guardDeadline = some d) (hd : due d s) :
    guardExpiry x s = s.setCall x (some { k with phase := k.phase.unguarded }) := by
  unfold guardExpiry
  rw [hk]
  dsimp only
  rw [hg]
  exact if_pos (passed_iff.2 hd)

theorem Phase.unguarded_guardDeadline (p : Phase) : p.unguarded.guardDeadline = none := by cases p <;> rfl

theorem Phase.unguarded_target (p : Phase) : p.unguarded.target = p.target := by cases p <;> rfl

/-- The removal of a guard is the whole event. -/
theorem event_guardExpiry {x : Channel} {s : State} {k : Call} {d : Time} (hs : s.Inv) (hk : s.call x = some k)
    (hg : k.phase.guardDeadline = some d) (hd : due d s) :
    event (guardExpiry x) s = s.setCall x (some { k with phase := k.phase.unguarded }) := by
  have hu := guardExpiry_due hk hg hd
  have hin := State.inExecution_setCall (x := x) (v := some { k with phase := k.phase.unguarded }) hs.tables.calls
    fun h => by
      rw [hk] at h
      exact (Phase.unguarded_inExecution k.phase).trans h
  have he := (event_end (f := guardExpiry x) (s := s) (by rw [hu]; rfl) (by rw [hu]; exact hin)).1
  rw [he, hu]
  exact finish_quiet (s := s.setCall x (some { k with phase := k.phase.unguarded })) (Quiet.refl _)

/-! ### The bridge -/

theorem bridgeExpiry_idle {x : Channel} {s : State}
    (h : ∀ k l g r sl d, s.call x = some k → k.phase = .bridging l g r sl d → ¬ due d s) : bridgeExpiry x s = s := by
  unfold bridgeExpiry
  split
  · rfl
  · next k hk =>
    split
    · next l g r sl d hp => exact if_neg fun hd => h k l g r sl d hk hp (passed_iff.1 hd)
    all_goals rfl

theorem bridgeExpiry_due {x : Channel} {s : State} {k : Call} {l : Leg} {g : Option Time} {r : Target} {sl : Slot} {d : Time}
    (hk : s.call x = some k) (hp : k.phase = .bridging l g r sl d) (hd : due d s) :
    bridgeExpiry x s = fallback x k l r.cell .close s := by
  unfold bridgeExpiry
  rw [hk]
  dsimp only
  rw [hp]
  exact if_pos (passed_iff.2 hd)

theorem EventEnd.stillClosing {s u t : State} (h : EventEnd s u t) {c : CellIx} {x : Channel} (hc : Closing c x u) :
    Closing c x t := by
  rcases hc with hc | hx
  · exact h.closing hc
  · exact .inr (by rw [h.port_busy (by rw [hx]; nofun), hx])

/-- A bridge that ends without voice from its target. -/
theorem runs_bridge {x : Channel} {s : State} {k : Call} {l : Leg} {g : Option Time} {r : Target} {sl : Slot} {d : Time}
    (hk : s.call x = some k) (hp : k.phase = .bridging l g r sl d) (hd : due d s) (h0 : s.hrq.total = 0) :
    Runs (.bridgeDeadlineExpiry x) s fun t =>
      t.call x = some (fallenCall s k l r.cell) ∧ (t.cell r.cell).occupancy = (s.cell r.cell).occupancy - 1 ∧
      t.device = { s.device with fallbacks := s.device.fallbacks.bump } ∧
      (∀ p, ∀ o ∈ (t.port p).ctl, o.hoChannel ≠ some x) ∧
      ((s.port (portOf r.cell)).link = .up → (s.port (portOf r.cell)).closes.length < 256 → Closing r.cell x t) := by
  have hf := fallback_fellBack x k l r.cell .close s
  have hu := bridgeExpiry_due hk hp hd
  have he := (event_end_empty (f := bridgeExpiry x) h0 (by rw [hu, hf.hrq]; exact h0)).2
  rw [hu] at he
  refine ⟨_, rfl, (State.call_congr he.calls x).trans hf.call, ?_, he.device.trans hf.device,
    fun p => he.hoWithdrawn (hf.withdrawn p), fun hup hroom => ?_⟩
  · rw [he.cell, hf.slots, List.count_cons_self, List.count_nil]
  · exact he.stillClosing (hf.closes.1 r.cell (List.mem_singleton_self _) hup hroom)

/-! ### The rescue -/

theorem rescueExpiry_idle {x : Channel} {s : State}
    (h : ∀ k a d, s.call x = some k → k.phase = .rescuing a d → ¬ due d s) : rescueExpiry x s = s := by
  unfold rescueExpiry
  split
  · rfl
  · next k hk =>
    split
    · next a d hp => exact if_neg fun hd => h k a d hk hp (passed_iff.1 hd)
    all_goals rfl

theorem rescueExpiry_due {x : Channel} {s : State} {k : Call} {a : Option (Target × Txn)} {d : Time}
    (hk : s.call x = some k) (hp : k.phase = .rescuing a d) (hd : due d s) :
    rescueExpiry x s = dropCall x .rescueTimeout false s := by
  unfold rescueExpiry
  rw [hk]
  dsimp only
  rw [hp]
  exact if_pos (passed_iff.2 hd)

/-- The one open of a call is cancelled at its end. -/
theorem endCall_cancelled {x : Channel} {k : Call} {c : CellIx} {n : Txn} (ho : k.phase.opens = [(c, n)])
    (hl : k.phase.legCells false = []) (form : ReleaseForm) (s : State) : OpenCancelled n s (endCall x k false form s) := by
  have hc : OpenCancelled n (hrqRemove x s) (legsEnded x k false (hrqRemove x s)) := by
    have h := cancelOpen_cancelled (hrqRemove x s) (c, n)
    unfold legsEnded
    rw [ho, hl, List.foldl_cons, List.foldl_nil, List.foldl_nil]
    generalize cancelOpen (hrqRemove x s) (c, n) = u at h ⊢
    exact h.stays (withdrawHo_answers x u) (withdrawHo_step x u).opens
  have hh := releaseHandset_step form k.handset (legsEnded x k false (hrqRemove x s))
  have he : OpenCancelled n (hrqRemove x s) (endCall x k false form s) := by
    rw [endCall_eq]
    refine hc.stays ?_ fun p o hm hn => ((hh.ports p).entries o hm).resolve_right fun hown => ?_
    · change (releaseHandset form k.handset _).answers = _
      rw [hh.only]
    · rw [CtlFrame.openTxn_of_owner hown] at hn
      cases hn
  generalize endCall x k false form s = t at he
  rw [hrqRemove_only] at he
  exact he

theorem dropCall_cancelled {x : Channel} {k : Call} {s : State} {c : CellIx} {n : Txn} (hk : s.call x = some k)
    (ho : k.phase.opens = [(c, n)]) (hl : k.phase.legCells false = []) (cause : DropCause) :
    OpenCancelled n s (dropCall x cause false s) := by
  have h : OpenCancelled n s
      (endCall x k false cause.form (s.count fun d => { d with drops := d.drops.bump cause })) :=
    endCall_cancelled ho hl cause.form (s.count fun d => { d with drops := d.drops.bump cause })
  rw [dropCall_eq hk]
  exact h.stays (reply_answers _ _) fun p o hm _ => by
    unfold State.port at hm ⊢
    rwa [reply_ports] at hm

/-- Takes that find sixteen contexts in execution take nothing. -/
theorem takes_full {s u : State} (h : 16 ≤ u.inExecution) : takes s u = u := by
  unfold takes
  split
  · rfl
  · unfold Config.takeFuel takeLoop
    exact if_pos (.inr h)

/-- A rescue that ends by its deadline, where no take and no posting follows. -/
theorem rescue_end {x : Channel} {s : State} {k : Call} {a : Option (Target × Txn)} {d : Time} (hk : s.call x = some k)
    (hp : k.phase = .rescuing a d) (hd : due d s)
    (h : s.hrq.total = 0 ∨ ((∀ y j, y ≠ x → s.call y = some j → j.waitsForRoom = false) ∧
      ((s.hrq.without x).total = 0 ∨ (a = none ∧ 16 ≤ s.inExecution)))) :
    EventEnd s (dropCall x .rescueTimeout false s) (event (rescueExpiry x) s) := by
  have hu := rescueExpiry_due hk hp hd
  have hdrop := dropCall_dropped (cause := .rescueTimeout) hk rfl false
  rcases h with h0 | ⟨hw, h⟩
  · have := (event_end_empty (f := rescueExpiry x) h0 (by
      have := dropCall_total_le x .rescueTimeout false s
      rw [hu]
      omega)).2
    rwa [hu] at this
  · have hn : (dropCall x .rescueTimeout false s).NobodyWaits := fun y j hj => by
      by_cases hy : y = x
      · rw [hy, hdrop.call] at hj
        cases hj
      · rw [hdrop.others y hy] at hj
        exact hw y j hy hj
    rcases h with h0 | ⟨ha, hfull⟩
    · exact (event_end_nobody hu hn (by rw [hdrop.hrq]; exact h0)).2
    · have he := finish_nobody s hn
      have hin := dropCall_inExecution (s := s) (x := x) (by
        rw [hk]
        change k.phase.inExecution = false
        rw [hp, ha]
        rfl) .rescueTimeout false
      have ht : event (rescueExpiry x) s = finish s (dropCall x .rescueTimeout false s) := by
        unfold event
        rw [hu]
        refine takes_full ?_
        unfold State.inExecution at hin hfull ⊢
        rw [he.calls]
        exact hfull.trans hin
      rwa [ht]

/-- Settles O44. -/
theorem deadlinesPass : Obligations.DeadlinesPass := by
  refine ⟨fun c s => ⟨exec_drain_none, fun f d hs hd => ?_, fun h => ?_, fun d hs hd => ?_⟩, fun x s => ⟨fun h => ?_,
    fun k d hi hk hg hd => ?_, fun h => ?_, fun k l g r sl d hk hp hd h0 => runs_bridge hk hp hd h0, fun h => ?_,
    fun k a d hk hp hd => ⟨⟨_, rfl, ?_⟩, fun hend => ?_⟩⟩⟩
  · obtain ⟨t, ht, hf, he⟩ := runs_drain hs hd
    refine ⟨t, ht, ?_, he⟩
    cases f <;> exact hf
  · exact congrArg Host.Outcome.next (event_eq_quiet (restartExpiry_idle h) (Quiet.refl s))
  · exact congrArg Host.Outcome.next (event_eq_quiet (restartExpiry_due hs hd) ⟨rfl, rfl, rfl, rfl, rfl, rfl, rfl⟩)
  · exact congrArg Host.Outcome.next (event_eq_quiet (guardExpiry_idle h) (Quiet.refl s))
  · refine ⟨_, congrArg Host.Outcome.next (event_guardExpiry hi hk hg hd), rfl, fun y hy => State.call_setCall_ne _ hy _,
      k.phase.unguarded, State.call_setCall_self _ _ _, k.phase.unguarded_guardDeadline, k.phase.unguarded_serving,
      k.phase.unguarded_target⟩
  · exact congrArg Host.Outcome.next (event_eq_quiet (bridgeExpiry_idle h) (Quiet.refl s))
  · exact congrArg Host.Outcome.next (event_eq_quiet (rescueExpiry_idle h) (Quiet.refl s))
  · refine event_idleKept (rescueExpiry x) s x ?_
    rw [rescueExpiry_due hk hp hd]
    exact (dropCall_dropped (cause := .rescueTimeout) hk rfl false).call
  · have he := rescue_end hk hp hd hend
    have hdrop := dropCall_dropped (cause := .rescueTimeout) hk rfl false
    refine ⟨_, rfl, _, rfl, hdrop, fun r n ha => ⟨?_, ?_⟩, he, he.handsetReleased hdrop.handset⟩
    · exact dropCall_cancelled hk (c := r.cell) (by rw [hp, ha]; rfl) (by rw [hp, ha]; rfl) _
    · have := dropCall_slots hk .rescueTimeout false
      rw [hp, ha] at this
      exact this

end Sys2Proof.Machine
end

section
/-! PROOFS. A commit whose voice frame does not leave (R12, R91): the trunk is asked to choose only where an event has changed
it, and the frame that a full lane takes in place of its oldest one can leave the lane as it was. -/
namespace Sys2Proof.Machine

/-- The frame that commits. -/
def bridgeVoice : Vox := ⟨5, 0, List.replicate 40 0⟩

/-- A call on channel 5 that bridges from cell 0 to cell 1, with no sequence expected. -/
def bridgedCall : Call :=
  { handset := 0, priority := 0, phase := .bridging ⟨0, 3⟩ none ⟨1, .handover, .quality⟩ 4 200, fs := 640
    candidates := [], posted := false, nextSeq := none, staleRun := 0, handovers := 0, lossCause := none }

/-- An idle trunk in UP whose voice lane is full of copies of that frame, and a record whose notice is queued. No run reaches
it: a trunk in UP with voice that waits is never idle (O4). -/
def stalledLane : State :=
  { State.reset with
    ports := ⟨[(0, { CellPort.blank with link := .up })]⟩
    trunk := ⟨.up, List.replicate 32 bridgeVoice, [], none, []⟩
    cells := ⟨[(0, { CellRec.blank with present := true, service := .inService, occupancy := 1 }),
      (1, { CellRec.blank with present := true, service := .inService, occupancy := 1 })]⟩
    records := ⟨[(0, ⟨.present ⟨7, 1, 2, none, .engaged ⟨1, 0, 40⟩ 5⟩, 0, true, true⟩)]⟩
    notices := [.location 0]
    calls := ⟨[(5, some bridgedCall)]⟩ }

/-- The commit leaves the trunk and the notice queue as they were, and no request waits. -/
theorem stalledLane_commit :
    (uplinkVoice 1 bridgeVoice (counted 1 stalledLane)).trunk = stalledLane.trunk ∧
      (uplinkVoice 1 bridgeVoice (counted 1 stalledLane)).notices = stalledLane.notices ∧
      (uplinkVoice 1 bridgeVoice (counted 1 stalledLane)).hrq.total = 0 := by decide

/-- Refutes O31: the idle trunk sends no voice frame. -/
theorem not_bridgeVoiceCommits : ¬ Obligations.BridgeVoiceCommits := by
  intro h
  have heard : Heard 1 stalledLane := ⟨rfl, rfl⟩
  have h0 : stalledLane.hrq.total = 0 := rfl
  obtain ⟨t, ht, -, -, hup, -⟩ := h 1 5 5 0 (List.replicate 40 0) stalledLane bridgedCall ⟨0, 3⟩ none
    ⟨1, .handover, .quality⟩ 4 200 heard rfl rfl rfl rfl (by decide) rfl nofun h0
  obtain ⟨hk, hn, hq⟩ := stalledLane_commit
  have he := (event_end_empty (f := fun u => uplinkVoice 1 bridgeVoice (counted 1 u)) h0 hq).2
  have hx := exec_voxUplink (seq := 0) heard (x := 5) (ch := 5) rfl (payload := List.replicate 40 0) rfl
  have hsame := he.trunk
  rw [if_pos (.inl ⟨hk.symm, hn.symm⟩)] at hsame
  have htrunk : t.trunk = stalledLane.trunk := by
    cases hx.symm.trans ht
    exact hsame.1.trans hk
  obtain ⟨vs, -, -, hsent⟩ := hup rfl
  obtain ⟨v, -, hv⟩ := hsent rfl
  rw [htrunk] at hv
  cases hv

end Sys2Proof.Machine
end

section
/-! PROOFS. A target that takes a leg (R119, R120): the try is admitted, its LEG-OPEN evicts no other one, and what it changes
is the target's occupancy, one pending answer and one port. -/
namespace Sys2Proof.Machine

/-! ### The victim of an offer (R149) -/

theorem takeLast_some {α : Type} {p : α → Bool} {l : List α} {a : α} (ha : a ∈ l) (hp : p a = true) :
    ∃ v rest, takeLast p l = some (v, rest) := by
  induction l with
  | nil => cases ha
  | cons b l ih =>
    unfold takeLast
    cases ht : takeLast p l with
    | some r => exact ⟨r.1, b :: r.2, rfl⟩
    | none =>
      rcases List.mem_cons.1 ha with rfl | ha
      · exact ⟨a, l, if_pos hp⟩
      · obtain ⟨v, rest, h⟩ := ih ha
        rw [h] at ht
        cases ht

theorem lowestPriority_cases (b : Priority) (q : List CtlFrame) :
    lowestPriority b q ≤ b ∧ (∀ f ∈ q, lowestPriority b q ≤ f.priority) ∧
      (lowestPriority b q = b ∨ ∃ f ∈ q, f.priority = lowestPriority b q) := by
  induction q generalizing b with
  | nil => exact ⟨le_rfl, nofun, .inl rfl⟩
  | cons f q ih =>
    have hl : lowestPriority b (f :: q) = lowestPriority (if f.priority < b then f.priority else b) q := rfl
    obtain ⟨h1, h2, h3⟩ := ih (if f.priority < b then f.priority else b)
    have hb : (if f.priority < b then f.priority else b) ≤ b ∧ (if f.priority < b then f.priority else b) ≤ f.priority := by
      split
      · next h => exact ⟨h.le, le_rfl⟩
      · next h => exact ⟨le_rfl, not_lt.1 h⟩
    rw [hl]
    refine ⟨h1.trans hb.1, fun g hg => ?_, ?_⟩
    · rcases List.mem_cons.1 hg with rfl | hg
      · exact h1.trans hb.2
      · exact h2 g hg
    · rcases h3 with h3 | ⟨g, hg, h3⟩
      · rw [h3]
        split
        · exact .inr ⟨f, List.mem_cons_self, rfl⟩
        · exact .inl rfl
      · exact .inr ⟨g, List.mem_cons_of_mem _ hg, h3⟩

theorem victimOf_low {p : Priority} {q : List CtlFrame} {f : CtlFrame} (hf : f ∈ q) (h2 : f.priority < 2) (hp : 2 ≤ p) :
    ∃ v rest, victimOf p q = some (v, rest) ∧ v.priority < 2 := by
  obtain ⟨-, hle, hex⟩ := lowestPriority_cases p q
  have hlow : lowestPriority p q < 2 := (hle f hf).trans_lt h2
  obtain ⟨g, hg, he⟩ := hex.resolve_left fun h => absurd (h ▸ hlow) (not_lt.2 hp)
  obtain ⟨v, rest, hv⟩ := takeLast_some (p := fun f => decide (f.priority = lowestPriority p q)) hg (decide_eq_true he)
  refine ⟨v, rest, (if_pos (hlow.trans_le hp)).trans hv, ?_⟩
  rw [of_decide_eq_true (takeLast_mem hv).2.1]
  exact hlow

theorem Role.open_priority (c : CellIx) (n : Txn) (x : Channel) (h : Hid) (role : Role) :
    2 ≤ (CtlFrame.legOpen c n x h role).priority := by
  cases role with
  | rescue => exact (by decide : (2 : Priority) ≤ 3)
  | _ => exact le_refl (2 : Priority)

theorem CtlFrame.openTxn_of_low {f : CtlFrame} (h : f.priority < 2) : f.openTxn = none := by
  cases f with
  | legOpen c n x hid role => exact absurd h (not_lt.2 (Role.open_priority c n x hid role))
  | _ => rfl

/-- An offer that a queue takes: the frame waits, and no LEG-OPEN is evicted. -/
theorem offer_taken {f : CtlFrame} {s : State} (h : QueueTakes f.dest s) (hp : 2 ≤ f.priority) :
    ∃ v rest, (∀ g, v = some g → g.openTxn = none) ∧
      offer f s = (.taken v, s.setPort (portOf f.dest) { s.port (portOf f.dest) with ctl := rest ++ [f] }) := by
  obtain ⟨hu, h⟩ := h
  by_cases hl : (s.port (portOf f.dest)).ctl.length < 24
  · exact ⟨none, _, nofun, offer_room hu hl⟩
  · obtain ⟨g, hg, h2⟩ := h.resolve_left hl
    obtain ⟨v, rest, hv, hlow⟩ := victimOf_low hg h2 hp
    refine ⟨some v, rest, fun w hw => Option.some.inj hw ▸ CtlFrame.openTxn_of_low hlow, ?_⟩
    unfold offer
    dsimp only
    rw [hu]
    dsimp only
    rw [if_neg hl, hv]

/-! ### A target that takes a leg -/

/-- An admitted try at cell `c`, before its context is told. -/
structure TargetTried (x : Channel) (c : CellIx) (h : Hid) (role : Role) (s u : State) : Prop where
  only : RadioOnly s u
  cells : ∀ d, (u.cell d).occupancy = (s.cell d).occupancy + if d = c then 1 else 0
  answers : u.answers = s.answers ++ [⟨s.nextTxn, x, c, inMs s.config.legTime s, false⟩]
  counter : u.txnCounter = s.nextTxn + 1
  waits : .legOpen c s.nextTxn x h role ∈ (u.port (portOf c)).ctl

theorem accessCheck_inService {s : State} {e : Clearance} {g : Group} {c : CellIx} {p : Purpose}
    (h : accessCheck s e g c p = none) : (s.cell c).present = true ∧ (s.cell c).service = .inService := by
  unfold accessCheck at h
  split at h
  · next hp =>
    split at h
    · next hs => exact ⟨hp, hs⟩
    · cases h
  · cases h

/-- A reserve that is admitted. -/
def reserved (c : CellIx) (s : State) : State :=
  s.setCell c { s.cell c with
    occupancy := (s.cell c).occupancy + 1, congested := congestedAfterReserve (s.cell c) ((s.cell c).occupancy + 1) }

theorem reserve_ok {c : CellIx} {n : Nat} {s : State} (hs : (s.cell c).service = .inService) (hl : (s.cell c).occupancy < n) :
    reserve c n s = .ok (reserved c s) := by
  unfold reserve
  dsimp only
  rw [if_pos hs, if_pos hl]
  rfl

theorem reserved_occupancy (c d : CellIx) (s : State) :
    ((reserved c s).cell d).occupancy = (s.cell d).occupancy + if d = c then 1 else 0 := by
  unfold reserved
  rw [State.cell_setCell]
  split
  · next h => rw [h]
  · rfl

theorem offerTargetOpen_admitted {x : Channel} {h : Hid} {c : CellIx} {role : Role} {s : State} (ha : s.answers.length < 64)
    (hq : QueueTakes c s) : ∃ v u, offerTargetOpen x h c role s = .admitted s.nextTxn v u ∧
      (∀ g, v = some g → g.openTxn = none) ∧ RadioOnly s u ∧ u.cells = s.cells ∧
      u.answers = s.answers ++ [⟨s.nextTxn, x, c, inMs s.config.legTime s, false⟩] ∧ u.txnCounter = s.nextTxn + 1 ∧
      .legOpen c s.nextTxn x h role ∈ (u.port (portOf c)).ctl := by
  obtain ⟨v, rest, hv, ho⟩ := offer_taken (f := .legOpen c s.nextTxn x h role) (s := s) hq (Role.open_priority _ _ _ _ _)
  refine ⟨v, allocateTxn s.nextTxn x c (s.setPort (portOf c) { s.port (portOf c) with
    ctl := rest ++ [.legOpen c s.nextTxn x h role] }), ?_, hv, ?_⟩
  · unfold offerTargetOpen
    rw [if_pos (show s.txnAvailable = true from decide_eq_true ha), ho]
    rfl
  · refine ⟨rfl, rfl, rfl, rfl, ?_⟩
    change _ ∈ ((s.setPort (portOf c) _).port (portOf c)).ctl
    rw [State.port_setPort_self]
    exact List.mem_append_right _ (List.mem_singleton_self _)

/-- A try at a target that takes a leg is admitted. -/
theorem tryTarget_admitted {x : Channel} {i : RecIx} {c : CellIx} {role : Role} {b : Bool} {s : State} {e : Enrolled}
    {a : Attachment} (he : (s.record i).enrolled = some e) (ha : e.loc.attachment = some a) (ht : TargetTakes s e a c)
    (hb : (b && (s.cell c).congested) = false) : ∃ v u, tryTarget x i c role b s = .admitted s.nextTxn v u ∧
      (∀ g, v = some g → g.openTxn = none) ∧ TargetTried x c e.hid role s u := by
  obtain ⟨hcheck, hroom, hans, hq⟩ := ht
  obtain ⟨v, u, ho, hv, honly, hcells, hanswers, hcounter, hwaits⟩ :=
    offerTargetOpen_admitted (x := x) (h := e.hid) (role := role) (s := reserved c s) hans hq
  refine ⟨v, u, ?_, hv, ?_, fun d => ?_, hanswers, hcounter, hwaits⟩
  · unfold tryTarget
    rw [he]
    dsimp only
    rw [ha]
    dsimp only
    rw [hcheck]
    dsimp only
    rw [if_neg (by rw [hb]; nofun), reserve_ok (accessCheck_inService hcheck).2 hroom]
    exact ho
  · exact RadioOnly.trans (t := reserved c s) rfl honly
  · rw [← reserved_occupancy]
    unfold State.cell
    rw [hcells]

theorem settleVictim_none {f : Channel → State → State} {v : Option CtlFrame} (h : ∀ g, v = some g → g.openTxn = none)
    (s : State) : settleVictim f v s = s := by
  unfold settleVictim
  cases v with
  | none => rfl
  | some g =>
    rw [Option.bind_some, h g rfl]

/-- What decides whether a target takes a leg. -/
theorem TargetTakes.congr {s u : State} {e : Enrolled} {a : Attachment} {c : CellIx} (h : TargetTakes s e a c)
    (hc : u.cells = s.cells) (hz : u.zones = s.zones) (hg : u.gates = s.gates) (ha : u.answers = s.answers)
    (hp : u.port (portOf c) = s.port (portOf c)) : TargetTakes u e a c := by
  obtain ⟨h1, h2, h3, h4⟩ := h
  have hcell : u.cell c = s.cell c := by unfold State.cell; rw [hc]
  have hzone : ∀ z, u.zone z = s.zone z := fun z => by unfold State.zone; rw [hz]
  have hgate : ∀ g, u.gate g = s.gate g := fun g => by unfold State.gate; rw [hg]
  refine ⟨?_, by rwa [hcell], by rwa [ha], ?_⟩
  · rw [← h1]
    unfold checkStored accessCheck zoneVerdict findGate gateVerdict
    simp only [hcell, hzone, hgate]
  · unfold QueueTakes at h4 ⊢
    rwa [hp]

/-! ### Contexts that wait for room, over the takes -/

/-- No context but `x` waits for room. -/
def State.OthersServed (x : Channel) (s : State) : Prop := ∀ y k, y ≠ x → s.call y = some k → k.waitsForRoom = false

theorem State.NobodyWaits.others {s : State} (h : s.NobodyWaits) (x : Channel) : s.OthersServed x := fun y k _ hk => h y k hk

theorem State.OthersServed.nobody {s : State} {x : Channel} (h : s.OthersServed x)
    (hx : ∀ k, s.call x = some k → k.waitsForRoom = false) : s.NobodyWaits := fun y k hk => by
  by_cases hy : y = x
  · exact hx k (hy ▸ hk)
  · exact h y k hy hk

theorem State.OthersServed.congr {s t : State} {x : Channel} (h : s.OthersServed x)
    (ht : ∀ y, y ≠ x → t.call y = s.call y) : t.OthersServed x := fun y k hy hk => h y k hy (by rwa [← ht y hy])

theorem State.NobodyWaits.congr {s t : State} (h : s.NobodyWaits) (ht : t.calls = s.calls) : t.NobodyWaits :=
  fun y k hk => h y k (by rwa [← State.call_congr ht])

theorem modCall_others (x : Channel) (f : Call → Call) (s : State) (y : Channel) (hy : y ≠ x) :
    (s.modCall x f).call y = s.call y := State.call_setCall_ne _ hy _

theorem State.NobodyWaits.modCall {s : State} (h : s.NobodyWaits) (x : Channel) {f : Call → Call}
    (hf : ∀ k, k.waitsForRoom = false → (f k).waitsForRoom = false) : (s.modCall x f).NobodyWaits :=
  ((h.others x).congr (modCall_others x f s)).nobody fun k hk => by
    rw [State.call_modCall, if_pos rfl] at hk
    obtain ⟨j, hj, rfl⟩ := Option.map_eq_some_iff.1 hk
    exact hf j (h x j hj)

theorem dropCall_served {x : Channel} {s : State} (h : s.OthersServed x) (cause : DropCause) (lost : Bool) :
    (dropCall x cause lost s).NobodyWaits :=
  (h.congr fun y hy => dropCall_others hy cause lost s).nobody fun k hk => by
    rw [dropCall_call] at hk
    cases hk

theorem passOn_served {f : Channel → CellIx → State → State} {x : Channel}
    (hf : ∀ c u, u.OthersServed x → (f x c u).NobodyWaits) {s : State} (h : s.OthersServed x) : (passOn f x s).NobodyWaits := by
  unfold passOn
  split
  · next hk => exact h.nobody fun k h => by rw [hk] at h; cases h
  · split
    · exact dropCall_served h _ _
    · exact hf _ _ h

theorem deliverFail_served {f : Channel → State → State} (hf : ∀ x u, u.OthersServed x → (f x u).NobodyWaits)
    {s : State} (h : s.NobodyWaits) (x : Channel) (n : Txn) (cause : FailCause) : (deliverFail f x n cause s).NobodyWaits := by
  unfold deliverFail
  split
  · exact h
  · next k hk =>
    split
    · next c _ _ =>
      split
      · exact ((h.others x).congr fun y hy => (failedOpen_call x k c cause s y).trans (if_neg hy)).nobody fun j hj => by
          rw [failedOpen_call, if_pos rfl] at hj
          cases hj
      · exact h
    · exact h
    · next l _ r _ _ =>
      split
      · have hb := fallback_fellBack x k l r.cell .gone s
        exact ((h.others x).congr hb.others).nobody fun j hj => by
          rw [hb.call] at hj
          cases hj
          rfl
      · exact h
    · exact h
    · exact h
    · next r _ d _ =>
      split
      · exact hf x _ ((h.others x).congr fun y hy => (endAttempt_call x k r.cell d s y).trans (if_neg hy))
      · exact h

theorem settleVictim_served {f : Channel → State → State} (hf : ∀ x u, u.OthersServed x → (f x u).NobodyWaits)
    {s : State} (h : s.NobodyWaits) (v : Option CtlFrame) : (settleVictim f v s).NobodyWaits := by
  unfold settleVictim
  split
  · exact h
  · split
    · exact h
    · next a _ =>
      have hfree : (freeAnswer a s).NobodyWaits := h.congr rfl
      unfold resolveFail
      split
      · exact hfree
      · exact deliverFail_served hf hfree _ _ _

theorem try_served {x y : Channel} {i : RecIx} {c : CellIx} {role : Role} {b : Bool} {s u : State} {r : TargetTry}
    (hr : tryTarget y i c role b s = r) (hu : r.state = u) (h : s.OthersServed x) : u.OthersServed x := by
  have := (tryTarget_only y i c role b s).calls
  rw [hr, hu] at this
  exact h.congr fun z _ => State.call_congr this z

theorem beginAttempt_served {x : Channel} {u : State} (h : u.OthersServed x) (c : CellIx) (n : Txn) :
    (beginAttempt x c n u).NobodyWaits :=
  (h.congr (modCall_others x _ u)).nobody fun k hk => by
    rw [State.call_modCall, if_pos rfl] at hk
    obtain ⟨j, hj, rfl⟩ := Option.map_eq_some_iff.1 hk
    unfold Call.waitsForRoom
    cases hp : j.phase <;> simp [hp]

/-- A rescue that is passed on ends with an attempt or with the call. -/
theorem rescueTry_served (n : Nat) (x : Channel) (c : CellIx) {s : State} (h : s.OthersServed x) :
    (rescueTry n x c s).NobodyWaits := by
  induction n generalizing x c s with
  | zero => exact dropCall_served h _ _
  | succ n ih =>
    have next : ∀ y u, u.OthersServed y → (passOn (rescueTry n) y u).NobodyWaits := fun y u hu =>
      passOn_served (fun c u hu => ih y c hu) hu
    unfold rescueTry
    split
    · next hk => exact h.nobody fun k h => by rw [hk] at h; cases h
    · split
      · next ht => exact next x _ ((try_served ht rfl h).congr (modCall_others x _ (countRefusal _ _)))
      · next ht => exact next x _ ((try_served ht rfl h).congr (modCall_others x _ (countRefusal _ _)))
      · next ht => exact settleVictim_served next (beginAttempt_served (try_served ht rfl h) _ _) _

theorem nextCandidate_served (x : Channel) (u : State) (h : u.OthersServed x) : (nextCandidate x u).NobodyWaits :=
  passOn_served (fun c _ hu => rescueTry_served _ x c hu) h

/-! ### The judgement of a request -/

theorem refuseRequest_served {s : State} (h : s.NobodyWaits) (x : Channel) (c : CellIx) : (refuseRequest x c s).NobodyWaits :=
  h.modCall x fun k hk => by
    cases hp : k.phase with
    | active l g =>
      dsimp only
      rfl
    | _ => exact hk

theorem beginPreparing_served {s : State} (h : s.NobodyWaits) (x : Channel) (r : Target) (n : Txn) :
    (beginPreparing x r n s).NobodyWaits :=
  h.modCall x fun k hk => by
    cases hp : k.phase with
    | active l g =>
      dsimp only
      rfl
    | _ => exact hk

theorem try_nobody {x : Channel} {i : RecIx} {c : CellIx} {role : Role} {b : Bool} {s u : State} {r : TargetTry}
    (hr : tryTarget x i c role b s = r) (hu : r.state = u) (h : s.NobodyWaits) : u.NobodyWaits := by
  have := (tryTarget_only x i c role b s).calls
  rw [hr, hu] at this
  exact h.congr this

theorem takeHandover_served {s : State} (h : s.NobodyWaits) (r : Request) (i : RecIx) : (takeHandover r i s).NobodyWaits := by
  have refused : ∀ {u : State} (f : DeviceCounters → DeviceCounters), u.NobodyWaits →
      (refuseRequest r.channel r.target (u.count f)).NobodyWaits := fun f hu =>
    refuseRequest_served (hu.congr rfl) _ _
  unfold takeHandover
  dsimp only
  split
  · exact refused _ h
  · split
    · next ht => exact refused _ (try_nobody ht rfl h)
    · next ht => exact refused _ (try_nobody ht rfl h)
    · next ht => exact settleVictim_served nextCandidate_served (beginPreparing_served (try_nobody ht rfl h) _ _ _) _

theorem preemptiveRescue_served {s : State} (h : s.NobodyWaits) (x : Channel) (i : RecIx) (c : CellIx) (ts : List CellIx) :
    (preemptiveRescue x i c ts s).NobodyWaits := by
  induction ts generalizing s with
  | nil => exact refuseRequest_served h x c
  | cons t ts ih =>
    unfold preemptiveRescue
    split
    · next ht => exact ih ((try_nobody ht rfl h).congr rfl)
    · next ht => exact ih ((try_nobody ht rfl h).congr rfl)
    · next ht => exact settleVictim_served nextCandidate_served (beginPreparing_served (try_nobody ht rfl h) _ _ _) _

/-- Where no context waits for room, a judged request leaves none waiting. -/
theorem judgeRequest_served {s : State} (h : s.NobodyWaits) (r : Request) : (judgeRequest r s).NobodyWaits := by
  unfold judgeRequest
  repeat' split
  all_goals first
    | with_reducible exact h
    | with_reducible exact takeHandover_served h _ _
    | with_reducible exact preemptiveRescue_served h _ _ _ _
    | with_reducible exact rescueTry_served _ _ _ (h.others _)

end Sys2Proof.Machine
end

section
/-! PROOFS. A report from a handset (R8, R96, R97, R106): untimely, evaluated, posted, and the take of a posted request that
follows in the same event where no other one waits (R117, R120, R123). -/
namespace Sys2Proof.Machine

/-! ### The report as received -/

theorem pairsIn_eq {bs : List (Byte × Byte)} {ps : List (CellIx × Quality)}
    (h : bs.map (fun p => (p.1.toNat, p.2.toNat)) = ps.map fun p => (p.1.val, p.2.val)) : pairsIn bs = some ps := by
  induction bs generalizing ps with
  | nil =>
    cases ps with
    | nil => rfl
    | cons p ps => cases h
  | cons b bs ih =>
    cases ps with
    | nil => cases h
    | cons p ps =>
      rw [List.map_cons, List.map_cons] at h
      obtain ⟨hb, ht⟩ := List.cons.inj h
      obtain ⟨h1, h2⟩ := Prod.mk.inj hb
      unfold pairsIn
      rw [byteIn_eq h1, byteIn_eq h2, ih ht]

theorem exec_measRep {c : CellIx} {hid : Hid} {x : Channel} {ch qs : Byte} {q : Quality} {pairs : List (Byte × Byte)}
    {ps : List (CellIx × Quality)} {s : State} (h : Heard c s) (hx : ch.toNat = x.val) (hq : qs.toNat = q.val)
    (hl : pairs.length ≤ 249)
    (hp : (pairs.take 6).map (fun p => (p.1.toNat, p.2.toNat)) = ps.map fun p => (p.1.val, p.2.val)) :
    exec (.measRep c hid ch qs pairs) s = .next (event (fun u => measReport c hid x q ps (counted c u)) s) := by
  have hr : rxMeas c hid ch qs pairs s = measReport c hid x q ps (counted c s) := by
    unfold rxMeas
    rw [byteIn_eq hx, byteIn_eq hq, pairsIn_eq hp]
    exact rxCell_heard h (by omega) _
  exact congrArg Host.Outcome.next (event_congr hr)

/-! ### Untimely, evaluated, posted -/

theorem measReport_untimely {c : CellIx} {hid : Hid} {x : Channel} {q : Quality} {ps : List (CellIx × Quality)} {s : State}
    (h : ∀ k l g, s.call x = some k → k.phase = .active l g → l.cell = c →
      (s.record k.handset).enrolled.map (·.hid) ≠ some hid) :
    measReport c hid x q ps s = s.count fun d => { d with untimelyReports := d.untimelyReports.bump } := by
  unfold measReport
  dsimp only
  split
  · rfl
  · next k hk =>
    split
    · next l g hp => exact if_neg fun hc => h k l g hk hp hc.1 hc.2
    all_goals rfl

theorem measReport_taken {c : CellIx} {hid : Hid} {x : Channel} {q : Quality} {ps : List (CellIx × Quality)} {s : State}
    {k : Call} {l : Leg} {g : Option Time} (hk : s.call x = some k) (hp : k.phase = .active l g) (hl : l.cell = c)
    (hh : (s.record k.handset).enrolled.map (·.hid) = some hid) : measReport c hid x q ps s = takeReport x k c q ps s := by
  unfold measReport
  rw [hk]
  dsimp only
  rw [hp]
  exact if_pos ⟨hl, hh⟩

theorem greatestExcess_congr {s u : State} (hc : u.cells = s.cells) (r : CellRec) (fs : Nat) (cs : List Candidate) :
    greatestExcess u r fs cs = greatestExcess s r fs cs := by
  have he : ∀ c, excess u r fs c = excess s r fs c := fun c => by
    unfold excess State.cell
    rw [hc]
  induction cs with
  | nil => rfl
  | cons c cs ih =>
    unfold greatestExcess
    rw [ih]
    simp only [he]

/-- What the three tests look at. -/
theorem postingTest_congr {s u : State} (hc : u.cells = s.cells) (hn : u.now = s.now) (hh : u.hold = s.hold) (r : CellRec)
    (k : Call) : postingTest u r k = postingTest s r k := by
  have hcell : ∀ c, u.cell c = s.cell c := fun c => by
    unfold State.cell
    rw [hc]
  unfold postingTest rescueTest drainTest qualityTest bestLive
  simp only [hcell, greatestExcess_congr hc, hn, hh]

theorem takeReport_still {x : Channel} {k : Call} {c : CellIx} {q : Quality} {ps : List (CellIx × Quality)} {s : State}
    (h : k.posted = true ∨ postingTest s (s.cell c) (evaluate s c q ps k) = none) :
    takeReport x k c q ps s = s.setCall x (some (evaluate s c q ps k)) := by
  unfold takeReport
  dsimp only
  split
  · rfl
  · next hn =>
    have ht : postingTest (s.setCall x (some (evaluate s c q ps k)))
        ((s.setCall x (some (evaluate s c q ps k))).cell c) (evaluate s c q ps k) = none :=
      (postingTest_congr (s := s) (u := s.setCall x (some (evaluate s c q ps k))) rfl rfl rfl (s.cell c) _).trans (h.resolve_left hn)
    rw [ht]

theorem takeReport_posts {x : Channel} {k : Call} {c : CellIx} {q : Quality} {ps : List (CellIx × Quality)} {s : State}
    {r : CellIx} {kind : ReqKind} (hn : k.posted = false)
    (h : postingTest s (s.cell c) (evaluate s c q ps k) = some (r, kind)) :
    takeReport x k c q ps s = hrqPost ⟨x, r, kind, s.now⟩ (s.setCall x (some (evaluate s c q ps k))) := by
  have ht : postingTest (s.setCall x (some (evaluate s c q ps k)))
      ((s.setCall x (some (evaluate s c q ps k))).cell c) (evaluate s c q ps k) = some (r, kind) := (postingTest_congr (s := s) (u := s.setCall x (some (evaluate s c q ps k))) rfl rfl rfl (s.cell c) _).trans h
  unfold takeReport
  dsimp only
  rw [if_neg (show ¬ (evaluate s c q ps k).posted = true by
    change ¬ k.posted = true
    rw [hn]
    nofun), ht]
  rfl

/-! ### A post leaves the phases, and no fewer requests -/

/-- Every context is in the phase it was in. -/
def PhasesKept (s t : State) : Prop := ∀ y, (t.call y).map (·.phase) = (s.call y).map (·.phase)

theorem PhasesKept.refl (s : State) : PhasesKept s s := fun _ => rfl

theorem PhasesKept.trans {s t u : State} (h : PhasesKept s t) (k : PhasesKept t u) : PhasesKept s u :=
  fun y => (k y).trans (h y)

theorem PhasesKept.of_calls {s t : State} (h : t.calls = s.calls) : PhasesKept s t := fun y => by rw [State.call_congr h]

theorem PhasesKept.setCall {s : State} {x : Channel} {k k' : Call} (hk : s.call x = some k) (hp : k'.phase = k.phase) :
    PhasesKept s (s.setCall x (some k')) := fun y => by
  rw [State.call_setCall]
  split
  · next h =>
    rw [h, hk]
    exact congrArg some hp
  · rfl

theorem setPosted_phases (x : Channel) (b : Bool) (s : State) : PhasesKept s (setPosted x b s) := fun y => by
  unfold setPosted
  rw [State.call_modCall]
  split
  · next h =>
    rw [h, Option.map_map]
    rfl
  · rfl

theorem hrqStore_phases (r : Request) (q : Hrq) (s : State) : PhasesKept s (hrqStore r q s) :=
  (PhasesKept.of_calls (t := { s with hrq := q.append r }) rfl).trans (setPosted_phases _ _ _)

theorem hrqPost_phases (r : Request) (s : State) : PhasesKept s (hrqPost r s) := by
  unfold hrqPost
  split
  · exact hrqStore_phases _ _ s
  · split
    · exact hrqStore_phases _ _ s
    · split
      · split
        · exact .refl s
        · exact (setPosted_phases _ _ s).trans (hrqStore_phases _ _ _)
      · exact .refl s

theorem PhasesKept.inExecutionAt {s t : State} (h : PhasesKept s t) (y : Channel) :
    inExecutionAt (t.call y) = inExecutionAt (s.call y) := by
  have hy := h y
  cases hs : s.call y with
  | none =>
    rw [hs] at hy
    rw [Option.map_eq_none_iff.1 hy]
  | some k =>
    rw [hs] at hy
    obtain ⟨j, hj, hp⟩ := Option.map_eq_some_iff.1 hy
    rw [hj]
    exact congrArg Phase.inExecution hp

theorem PhasesKept.inExecution {s t : State} (h : PhasesKept s t) (hs : s.calls.wf none = true)
    (ht : t.calls.wf none = true) : t.inExecution = s.inExecution :=
  le_antisymm (State.inExecution_mono ht hs fun y hy => by rwa [← h.inExecutionAt])
    (State.inExecution_mono hs ht fun y hy => by rwa [h.inExecutionAt])

theorem Hrq.append_total (r : Request) (q : Hrq) : (q.append r).total = q.total + 1 := by
  unfold Hrq.append
  split
  · change (q.urgent ++ [r]).length + q.normal.length = q.urgent.length + q.normal.length + 1
    rw [List.length_append, List.length_singleton]
    omega
  · change q.urgent.length + (q.normal ++ [r]).length = q.urgent.length + q.normal.length + 1
    rw [List.length_append, List.length_singleton]
    omega

theorem Hrq.channels_length (q : Hrq) : q.channels.length = q.total := by
  unfold Hrq.channels Hrq.total
  rw [List.length_map, List.length_append]

/-- A channel has one request at most. -/
theorem Hrq.total_le_without {q : Hrq} (h : q.Ok) (x : Channel) : q.total ≤ (q.without x).total + 1 := by
  have hw : (q.without x).channels = q.channels.erase x := by
    rw [h.once.erase_eq_filter]
    unfold Hrq.without Hrq.channels
    rw [← List.filter_append, List.filter_map]
    refine congrArg (List.map Request.channel) (List.filter_congr fun r _ => ?_)
    by_cases hx : r.channel = x <;> simp [hx]
  rw [← Hrq.channels_length, ← Hrq.channels_length, hw]
  have := List.le_length_erase (a := x) (l := q.channels)
  omega

theorem hrqPost_total {s : State} (h : s.hrq.Ok) (r : Request) : s.hrq.total ≤ (hrqPost r s).hrq.total := by
  unfold hrqPost
  split
  · change _ ≤ ((s.hrq.without r.channel).append r).total
    rw [Hrq.append_total]
    exact Hrq.total_le_without h _
  · split
    · change _ ≤ (s.hrq.append r).total
      rw [Hrq.append_total]
      exact Nat.le_succ _
    · split
      · split
        · exact le_rfl
        · change _ ≤ (Hrq.append r { s.hrq with normal := s.hrq.normal.dropLast }).total
          rw [Hrq.append_total]
          change s.hrq.urgent.length + s.hrq.normal.length ≤ s.hrq.urgent.length + s.hrq.normal.dropLast.length + 1
          rw [List.length_dropLast]
          omega
      · exact le_rfl

/-- The first request of an empty queue. -/
theorem hrqPost_empty {s : State} (h : s.hrq = ⟨[], []⟩) (r : Request) :
    hrqPost r s = setPosted r.channel true { s with hrq := Hrq.append r ⟨[], []⟩ } := by
  unfold hrqPost
  rw [h]
  rfl

/-! ### The take that follows a post -/

theorem Hrq.next_append (r : Request) : (Hrq.append r ⟨[], []⟩).next = some (r, ⟨[], []⟩) := by
  unfold Hrq.append
  split <;> rfl

/-- The end of the event that posts the one request that waits. -/
structure PostedAlone (r : Request) (s u w : State) : Prop where
  ended : EventEnd s u w
  hrq : w.hrq = Hrq.append r ⟨[], []⟩

theorem PostedAlone.takeOne {r : Request} {s u w : State} (h : PostedAlone r s u w) :
    takeOne w = judgeRequest r (setPosted r.channel false { w with hrq := ⟨[], []⟩ }) := by
  unfold Machine.takeOne
  rw [h.hrq, Hrq.next_append]

/-- One post in an empty queue: the event ends, its request is taken, and the take ends. -/
theorem event_posted {f : State → State} {s u : State} {r : Request} (hf : f s = u) (h0 : s.hrq.total = 0)
    (hu : u.hrq = Hrq.append r ⟨[], []⟩) (hx : u.inExecution < 16) (hw : (setPosted r.channel false u).NobodyWaits) :
    ∃ w, PostedAlone r s u w ∧ exec .hrqTake w = .next (event f s) ∧ (takeOne w).hrq.total = 0 ∧
      EventEnd w (takeOne w) (event f s) := by
  have hend := finish_end s u (by omega)
  have hp : PostedAlone r s u (finish s u) := ⟨hend, hend.hrq.trans hu⟩
  have hev : event f s = takes s (finish s u) := by
    unfold event
    rw [hf]
  generalize finish s u = w at hend hp hev
  have hin : w.inExecution < 16 := by
    unfold State.inExecution at hx ⊢
    rwa [hend.calls]
  have hone : w.hrq.total = 1 := by rw [hp.hrq, Hrq.append_total]; rfl
  have hserved : (takeOne w).NobodyWaits := by
    rw [hp.takeOne]
    refine judgeRequest_served (hw.congr ?_) r
    change w.calls.set none _ ((w.call r.channel).map _) = u.calls.set none _ ((u.call r.channel).map _)
    rw [State.call_congr hend.calls, hend.calls]
  have hzero : (takeOne w).hrq.total = 0 := by
    have := hrqTotal_takeRel.judgeRequest r (setPosted r.channel false { w with hrq := ⟨[], []⟩ })
    rw [← hp.takeOne] at this
    exact Nat.le_zero.1 this
  have hnext := finish_nobody w hserved
  have hnone : ∀ b, takes b (finish w (takeOne w)) = finish w (takeOne w) := fun b =>
    takes_none b _ (by rw [hnext.hrq]; exact hzero)
  have hloop : takes s w = finish w (takeOne w) := by
    unfold takes
    rw [if_neg fun h => by
      have := congrArg Hrq.total h.1
      omega]
    unfold Config.takeFuel takeLoop
    rw [if_neg (not_or.2 ⟨by omega, not_le.2 hin⟩)]
    unfold takeLoop
    rw [if_pos (.inl (by rw [hnext.hrq]; exact hzero))]
  have htake : exec .hrqTake w = .next (event f s) := by
    change Host.Outcome.next (takes w (finish w (takeIfRoom w))) = _
    unfold takeIfRoom
    rw [if_pos hin, hnone, hev, hloop]
  exact ⟨w, hp, htake, hzero, by rw [hev, hloop]; exact hnext⟩

/-! ### A judged request whose target takes the leg -/

/-- The role that a request of a kind asks for. -/
def ReqKind.role (kind : ReqKind) : Role := if kind = .rescue then .rescue else .handover

theorem judgeRequest_admitted {r : Request} {s : State} {k : Call} {l : Leg} {g : Option Time} {e : Enrolled} {a : Attachment}
    (hk : s.call r.channel = some k) (hp : k.phase = .active l g) (he : (s.record k.handset).enrolled = some e)
    (ha : e.loc.attachment = some a) (ht : TargetTakes s e a r.target)
    (ho : r.kind.urgent = false → s.hold.active = false ∧ (s.cell r.target).congested = false) :
    ∃ u, judgeRequest r s = beginPreparing r.channel ⟨r.target, r.kind.role, r.kind⟩ s.nextTxn u ∧
      TargetTried r.channel r.target e.hid r.kind.role s u := by
  have handover : r.kind.role = .handover → judgeRequest r s = takeHandover r k.handset s →
      ∃ u, judgeRequest r s = beginPreparing r.channel ⟨r.target, r.kind.role, r.kind⟩ s.nextTxn u ∧
        TargetTried r.channel r.target e.hid r.kind.role s u := fun hrole hj => by
    obtain ⟨v, u, htry, hv, hu⟩ := tryTarget_admitted (x := r.channel) (role := .handover) (b := !r.kind.urgent) he ha ht (by
      cases hur : r.kind.urgent with
      | true => rfl
      | false => rw [(ho hur).2]; rfl)
    rw [hrole, hj]
    refine ⟨u, ?_, hu⟩
    unfold takeHandover
    dsimp only
    rw [if_neg (by
      cases hur : r.kind.urgent with
      | true => nofun
      | false => rw [(ho hur).1]; nofun), htry]
    exact settleVictim_none hv _
  unfold judgeRequest at handover ⊢
  rw [hk] at handover ⊢
  dsimp only at handover ⊢
  rw [hp] at handover ⊢
  dsimp only at handover ⊢
  cases hkind : r.kind with
  | rescue =>
    obtain ⟨v, u, htry, hv, hu⟩ := tryTarget_admitted (x := r.channel) (role := .rescue) (b := false) he ha ht rfl
    refine ⟨u, ?_, hu⟩
    unfold preemptiveRescue
    rw [htry]
    exact settleVictim_none hv _
  | drain =>
    rw [hkind] at handover
    exact handover rfl rfl
  | quality =>
    rw [hkind] at handover
    exact handover rfl rfl
  | relief =>
    rw [hkind] at handover
    exact handover rfl rfl

/-! ### A posted request whose target takes the leg -/

theorem judgeSource_acts {fill : Nat} {src : Source} (h : src.acts = false) (hf : fill < 24) :
    (judgeSource 24 16 fill src).acts = false := by
  unfold Source.acts judgeSource at *
  dsimp only
  cases hr : src.raw with
  | true =>
    rw [hr, Bool.true_and] at h
    rw [h, Bool.and_false]
  | false =>
    rw [if_neg (by nofun), decide_eq_false (by omega), Bool.false_and]

/-- One request that waits begins no hold, and nothing else that the sources read has changed. -/
theorem reportFills_inactive {s u : State} (h : u.hold.active = false) (hq : u.hrq.total < 24)
    (ha : u.answers = s.answers) (hn : u.notices = s.notices) : (reportFills s u).hold.active = false := by
  unfold Hold.active at h ⊢
  simp only [Bool.or_eq_false_iff] at h
  obtain ⟨⟨⟨h1, h2⟩, h3⟩, h4⟩ := h
  unfold reportFills
  dsimp only
  rw [if_pos (congrArg List.length ha), if_pos (congrArg List.length hn), h2, h3, h4, Bool.or_false, Bool.or_false,
    Bool.or_false]
  split
  · exact h1
  · exact judgeSource_acts h1 hq

/-- A test that posts a request which is not urgent found no hold, and a target that is not congested. -/
theorem greatestExcess_mem {s : State} {r : CellRec} {fs : Nat} {cs : List Candidate} {d : Candidate}
    (h : greatestExcess s r fs cs = some d) : d ∈ cs := by
  induction cs generalizing d with
  | nil => cases h
  | cons c cs ih =>
    unfold greatestExcess at h
    split at h
    · cases h
      exact List.mem_cons_self
    · next e he =>
      split at h
      · cases h
        exact List.mem_cons_of_mem _ (ih he)
      · cases h
        exact List.mem_cons_self

theorem qualityTest_some {s : State} {r : CellRec} {k : Call} {c : CellIx} {kind : ReqKind}
    (h : qualityTest s r k = some (c, kind)) :
    s.hold.active = false ∧ ∃ d ∈ k.candidates, d.cell = c ∧ r.dwell ≤ d.dwell := by
  unfold qualityTest at h
  split at h
  · next hg =>
    rw [Bool.and_eq_true] at hg
    obtain ⟨d, hd, he⟩ := Option.map_eq_some_iff.1 h
    obtain ⟨hm, hdw⟩ := List.mem_filter.1 (greatestExcess_mem hd)
    exact ⟨by simpa using hg.2, d, hm, congrArg Prod.fst he, of_decide_eq_true hdw⟩
  · cases h

theorem postingTest_ordinary {s : State} {r : CellRec} {k : Call} {c : CellIx} {kind : ReqKind}
    (h : postingTest s r k = some (c, kind)) (hu : kind.urgent = false) : qualityTest s r k = some (c, kind) := by
  unfold postingTest at h
  split at h
  · next t ht =>
    cases h
    unfold rescueTest at ht
    split at ht
    · obtain ⟨d, -, he⟩ := Option.map_eq_some_iff.1 ht
      cases he
      cases hu
    · cases ht
  · split at h
    · next t ht =>
      cases h
      unfold drainTest at ht
      split at ht
      · obtain ⟨d, -, he⟩ := Option.map_eq_some_iff.1 ht
        cases he
        cases hu
      all_goals cases ht
    · exact h

/-- An entry of a scored list whose dwell is above 0 names a cell that is not congested. -/
theorem evaluate_dwell {s : State} {c : CellIx} {q : Quality} {ps : List (CellIx × Quality)} {k : Call} {d : Candidate}
    (h : d ∈ (evaluate s c q ps k).candidates) (hd : 1 ≤ d.dwell) : (s.cell d.cell).congested = false := by
  obtain ⟨b, -, rfl⟩ := List.mem_map.1 h
  change 1 ≤ (if qualifies s _ _ b = true then min 7 (b.dwell + 1) else 0) at hd
  split at hd
  · next hq =>
    unfold qualifies at hq
    rw [Bool.and_eq_true] at hq
    simpa using hq.2
  · cases hd

/-- An event that removes no request, after which sixteen contexts are in execution, ends at its own end. -/
theorem event_end_full {f : State → State} {s u : State} (hf : f s = u) (hq : s.hrq.total ≤ u.hrq.total)
    (hx : 16 ≤ u.inExecution) : EventEnd s u (event f s) := by
  have hend := finish_end s u hq
  unfold event
  rw [hf, takes_full]
  · exact hend
  · unfold State.inExecution at hx ⊢
    rwa [hend.calls]

/-- What the take of the one request that waits finds: the state before its post, but for the contexts and the hold. -/
structure TakenFrom (s : State) (x : Channel) (j : Call) (v : State) : Prop where
  call : v.call x = some j
  records : v.records = s.records
  cells : v.cells = s.cells
  zones : v.zones = s.zones
  gates : v.gates = s.gates
  answers : v.answers = s.answers
  counter : v.txnCounter = s.txnCounter
  now : v.now = s.now
  config : v.config = s.config
  device : v.device = s.device
  ports : ∀ p, v.port p = s.port p
  hold : s.hold.active = false → v.hold.active = false

/-- The state in which an ACTIVE context's one request is judged. -/
theorem PostedAlone.takenFrom {s u w : State} {x : Channel} {k' : Call} {r : CellIx} {kind : ReqKind} {c : CellIx} {now : Time}
    (h : PostedAlone ⟨x, r, kind, now⟩ s u w) (h0 : s.hrq = ⟨[], []⟩)
    (hu : u = hrqPost ⟨x, r, kind, now⟩ ((counted c s).setCall x (some k'))) :
    TakenFrom s x { k' with posted := false } (setPosted x false { w with hrq := ⟨[], []⟩ }) := by
  rw [hrqPost_empty (s := (counted c s).setCall x (some k')) h0] at hu
  have hcall : u.call x = some { k' with posted := true } := by
    rw [hu]
    unfold setPosted
    rw [State.call_modCall, if_pos rfl]
    change ((((counted c s).setCall x (some k')).call x).map _) = _
    rw [State.call_setCall_self]
    rfl
  have hend := h.ended
  have htrunk := hend.trunk
  rw [if_pos (.inl ⟨by rw [hu]; rfl, by rw [hu]; rfl⟩)] at htrunk
  obtain ⟨-, hnotices, hrecords, -⟩ := htrunk
  refine
    { call := ?_, records := hrecords.trans ?_, cells := hend.cells.trans ?_, zones := hend.zones.trans ?_
      gates := hend.gates.trans ?_, answers := hend.answers.trans ?_, counter := hend.txnCounter.trans ?_
      now := hend.now.trans ?_, config := hend.config.trans ?_, device := hend.device.trans ?_
      ports := fun p => hend.port_same (u := u) ?_, hold := fun hh => ?_ }
  · unfold setPosted
    rw [State.call_modCall, if_pos rfl]
    change (w.call x).map _ = _
    rw [State.call_congr hend.calls, hcall]
    rfl
  · rw [hu]; rfl
  · rw [hu]; rfl
  · rw [hu]; rfl
  · rw [hu]; rfl
  · rw [hu]; rfl
  · rw [hu]; rfl
  · rw [hu]; rfl
  · rw [hu]; rfl
  · rw [hu]; rfl
  · rw [hu]; rfl
  · change w.hold.active = false
    rw [hend.hold]
    refine reportFills_inactive (u := { w with hold := u.hold }) ?_ ?_ (hend.answers.trans ?_) (hnotices.trans ?_)
    · change u.hold.active = false
      rw [hu]
      exact hh
    · change w.hrq.total < 24
      rw [h.hrq, Hrq.append_total]
      exact (by decide : (⟨[], []⟩ : Hrq).total + 1 < 24)
    · rw [hu]; rfl
    · rw [hu]; rfl

/-- The target of the request takes the leg: the context is PREPARING, and one leg is opened. -/
theorem TakenFrom.opened {s v t : State} {x : Channel} {k' : Call} {r : CellIx} {kind : ReqKind} {now : Time} {i : RecIx}
    {l : Leg} {g : Option Time} {e : Enrolled} {a : Attachment} {b w : State}
    (h : TakenFrom s x { k' with posted := false } v) (hi : k'.handset = i) (hp : k'.phase = .active l g)
    (he : (s.record i).enrolled = some e) (ha : e.loc.attachment = some a)
    (ho : kind.urgent = false → s.hold.active = false ∧ (s.cell r).congested = false) (ht : TargetTakes s e a r)
    (hw : w = judgeRequest ⟨x, r, kind, now⟩ v) (hend : EventEnd b w t) :
    t.call x = some { k' with posted := false, phase := .preparing l g ⟨r, kind.role, kind⟩ s.nextTxn } ∧
      TargetOpened x r e.hid kind.role s t ∧ t.device = s.device := by
  have hcell : ∀ d, v.cell d = s.cell d := fun d => by unfold State.cell; rw [h.cells]
  have htxn : v.nextTxn = s.nextTxn := by unfold State.nextTxn; rw [h.answers, h.counter]
  obtain ⟨u, hj, hu⟩ := judgeRequest_admitted (r := ⟨x, r, kind, now⟩) (s := v) (e := e) (a := a) h.call hp
    (by rw [← he, ← hi]; unfold State.record; rw [h.records]) ha
    (ht.congr h.cells h.zones h.gates h.answers (h.ports _)) fun hk => ⟨h.hold (ho hk).1, by rw [hcell]; exact (ho hk).2⟩
  obtain ⟨honly, hocc, hans, hcounter, hwaits⟩ := hu
  rw [hj, htxn] at hw
  refine ⟨?_, ⟨?_, ?_, ?_, ?_⟩, ?_⟩
  · rw [State.call_congr hend.calls, hw]
    unfold beginPreparing
    rw [State.call_modCall, if_pos rfl, State.call_congr honly.calls, h.call, Option.map_some]
    dsimp only
    rw [hp]
  · have := hocc r
    rw [if_pos rfl, hcell] at this
    rw [hend.cell, hw]
    exact this
  · rw [hend.answers, hw]
    change u.answers = _
    rw [hans, h.answers, htxn]
    unfold inMs
    rw [h.now, h.config]
  · rw [hend.txnCounter, hw]
    change u.txnCounter = _
    rw [hcounter, htxn]
  · rw [htxn] at hwaits
    refine (hend.chose _).sent _ ?_
    rw [hw]
    exact hwaits
  · rw [hend.device, hw]
    change u.device = _
    unfold RadioOnly at honly
    rw [honly]
    exact h.device

/-- The post of a report in an empty queue, and the take that follows it. -/
theorem report_taken {f : State → State} {s u : State} {c r : CellIx} {x : Channel} {k k' : Call} {l : Leg} {g : Option Time}
    {kind : ReqKind} (hs : s.Inv) (hk : s.call x = some k) (hphase : k'.phase = .active l g) (hsame : k'.phase = k.phase)
    (h0 : s.hrq.total = 0) (hroom : s.inExecution < 16) (hserved : ∀ y j, s.call y = some j → j.waitsForRoom = false)
    (hf : f s = u) (hu : u = hrqPost ⟨x, r, kind, s.now⟩ ((counted c s).setCall x (some k'))) :
    ∃ w v t, EventEnd s u w ∧ exec .hrqTake w = .next (event f s) ∧ TakenFrom s x { k' with posted := false } v ∧
      t = judgeRequest ⟨x, r, kind, s.now⟩ v ∧ EventEnd w t (event f s) ∧ (event f s).hrq = ⟨[], []⟩ := by
  have hempty := Hrq.total_zero h0
  have hwf : ((counted c s).setCall x (some k')).calls.wf none = true := Table.wf_set _ _ _ _ hs.tables.calls
  have hkept : PhasesKept s u := by
    rw [hu]
    exact ((PhasesKept.of_calls (t := counted c s) rfl).trans (.setCall (s := counted c s) hk hsame)).trans
      (hrqPost_phases _ _)
  have hin : u.inExecution = s.inExecution := hkept.inExecution hs.tables.calls (by
    rw [hu]
    exact (hrqPost_moves (P := fun _ => False) _ _).raws.calls_wf hwf)
  have hu' := hu
  rw [hrqPost_empty (s := (counted c s).setCall x (some k')) hempty] at hu'
  have hnobody : (setPosted x false u).NobodyWaits := by
    refine State.OthersServed.nobody (x := x) (fun y j hy hj => hserved y j ?_) fun j hj => ?_
    · rw [← hj, hu']
      unfold setPosted
      rw [modCall_others _ _ _ _ hy, modCall_others _ _ _ _ hy]
      exact (State.call_setCall_ne _ hy _).symm
    · have hp := (hkept.trans (setPosted_phases x false u)) x
      rw [hj, hk, Option.map_some, Option.map_some, ← hsame, hphase] at hp
      unfold Call.waitsForRoom
      rw [Option.some.inj hp]
  obtain ⟨w, hp, htake, hzero, hend⟩ := event_posted (r := ⟨x, r, kind, s.now⟩) hf h0 (by rw [hu']; rfl)
    (by rw [hin]; exact hroom) hnobody
  refine ⟨w, _, _, hp.ended, htake, hp.takenFrom hempty hu, hp.takeOne, hend, ?_⟩
  rw [hend.hrq]
  exact Hrq.total_zero hzero

/-- Settles O37. -/
theorem measRepJudged : Obligations.MeasRepJudged := by
  intro c hid x ch qs q pairs ps s hs h hx hq hl hp
  have hc := exec_measRep (hid := hid) h hx hq hl hp
  refine ⟨fun hn => runs_event hc (measReport_untimely (s := counted c s) hn) rfl rfl fun _ h => h,
    fun k l g k' hk hph hcell hh hk' => ?_⟩
  have heval : evaluate (counted c s) c q ps k = k' := hk'.symm
  have htaken : measReport c hid x q ps (counted c s) = takeReport x k c q ps (counted c s) :=
    measReport_taken (s := counted c s) hk hph hcell hh
  have htest : ∀ r, postingTest (counted c s) r k' = postingTest s r k' := fun r =>
    postingTest_congr (s := s) (u := counted c s) rfl rfl rfl r k'
  have hphase : k'.phase = k.phase := by rw [hk']; rfl
  have hposts : ∀ r kind, k.posted = false → postingTest s (s.cell c) k' = some (r, kind) →
      measReport c hid x q ps (counted c s) = hrqPost ⟨x, r, kind, s.now⟩ ((counted c s).setCall x (some k')) :=
    fun r kind hn ht => by
      rw [htaken, takeReport_posts hn (by rw [heval]; exact (htest _).trans ht), heval]
      rfl
  refine ⟨fun hn => ?_, fun r kind hn ht hfull => ⟨_, hc, event_end_full (hposts r kind hn ht) ?_ ?_⟩,
    fun r kind e a role hn ht h0 hroom hserved he ha hrole => ?_⟩
  · refine runs_sameCall hs hc ?_ rfl hk hphase rfl
    rw [htaken, takeReport_still (by rw [heval]; exact hn.imp_right fun ht => (htest _).trans ht), heval]
  · exact hrqPost_total (s := (counted c s).setCall x (some k')) hs.hrq _
  · have hkept : PhasesKept s (hrqPost ⟨x, r, kind, s.now⟩ ((counted c s).setCall x (some k'))) :=
      ((PhasesKept.of_calls (t := counted c s) rfl).trans (.setCall (s := counted c s) hk hphase)).trans
        (hrqPost_phases _ _)
    rw [hkept.inExecution hs.tables.calls
      ((hrqPost_moves (P := fun _ => False) _ _).raws.calls_wf (Table.wf_set _ _ _ _ hs.tables.calls))]
    exact hfull
  · obtain ⟨w, v, t, hend, htake, hv, ht', hend', hempty⟩ :=
      report_taken (f := fun u => measReport c hid x q ps (counted c u)) hs hk (hphase.trans hph) hphase h0 hroom hserved
        (hposts r kind hn ht) rfl
    refine ⟨_, hc, ⟨w, hend, htake⟩, fun htarget => ?_⟩
    have ho : kind.urgent = false → s.hold.active = false ∧ (s.cell r).congested = false := fun hu => by
      obtain ⟨hh, d, hd, rfl, hdw⟩ := qualityTest_some (postingTest_ordinary ht hu)
      rw [hk'] at hd
      exact ⟨hh, evaluate_dwell hd ((hs.cells c).dwell.1.trans hdw)⟩
    obtain ⟨h1, h2, h3⟩ := hv.opened (i := k.handset) (by rw [hk']; rfl) (hphase.trans hph) he ha ho htarget ht' hend'
    rw [hrole]
    exact ⟨h1, hempty, h2, h3⟩

end Sys2Proof.Machine
end

section
/-! PROOFS. The counters of the ports over the events that follow a line-down (R17, R95): no share of a context and no take
counts a frame. -/
namespace Sys2Proof.Machine

/-- The counters of the ports and the trunk stay. -/
def CountersKept (s t : State) : Prop := t.counters = s.counters

theorem CountersKept.refl (s : State) : CountersKept s s := rfl

theorem CountersKept.trans {s t u : State} (h : CountersKept s t) (k : CountersKept t u) : CountersKept s u := Eq.trans k h

theorem RadioOnly.countersKept {s u : State} (h : RadioOnly s u) : CountersKept s u := by
  unfold RadioOnly at h
  unfold CountersKept
  rw [h]

theorem RequestStep.countersKept {s u : State} (h : RequestStep s u) : CountersKept s u := by
  unfold CountersKept
  rw [h.only]

theorem HandsetStep.countersKept {s u : State} (h : HandsetStep s u) : CountersKept s u := by
  unfold CountersKept
  rw [h.only]

theorem RegistryOnly.countersKept {s u : State} (h : RegistryOnly s u) : CountersKept s u := h.handset.countersKept

theorem reply_countersKept (r : Reply) (s : State) : CountersKept s (reply r s) := by
  unfold CountersKept
  rw [reply_eq]

theorem releaseSlot_countersKept (c : CellIx) (s : State) : CountersKept s (releaseSlot c s) :=
  (releaseSlot_step c s).radioOnly.countersKept

theorem dropCall_countersKept (x : Channel) (cause : DropCause) (lost : Bool) (s : State) :
    CountersKept s (dropCall x cause lost s) := by
  cases hk : s.call x with
  | none =>
    rw [dropCall_none hk]
    exact .refl s
  | some k =>
    rw [dropCall_eq hk]
    exact CountersKept.trans (t := s.count fun d => { d with drops := d.drops.bump cause }) rfl
      (CountersKept.trans (endCall_counters x k lost cause.form _) (reply_countersKept _ _))

theorem failedOpen_countersKept (x : Channel) (k : Call) (c : CellIx) (cause : FailCause) (s : State) :
    CountersKept s (failedOpen x k c cause s) := by
  unfold failedOpen
  exact ((releaseSlot_countersKept c s).trans ((releaseHandset_step .recheck k.handset (releaseSlot c s)).countersKept)).trans
    ((CountersKept.refl _).trans (reply_countersKept _ _))

theorem fallback_countersKept (x : Channel) (k : Call) (l : Leg) (c : CellIx) (how : TargetEnd) (s : State) :
    CountersKept s (fallback x k l c how s) := by
  have h := (targetLeft_step x c how s).radioOnly.countersKept
  rw [fallback_eq]
  generalize targetLeft x c how s = t at h ⊢
  exact h

theorem endAttempt_countersKept (x : Channel) (k : Call) (c : CellIx) (d : Time) (s : State) :
    CountersKept s (endAttempt x k c d s) := releaseSlot_countersKept c s

theorem countersKept_takeRel : TakeRel CountersKept where
  refl := .refl
  trans := .trans
  dropped := dropCall_countersKept
  failed := fun c cause _ => failedOpen_countersKept _ _ c cause _
  fallen := fun l c how _ => fallback_countersKept _ _ l c how _
  ended := fun c d _ => endAttempt_countersKept _ _ c d _
  freed := fun _ _ => rfl
  tried := fun x i c role b s => (tryTarget_only x i c role b s).countersKept
  counted := fun _ _ => rfl
  changed := fun _ _ _ => rfl
  queued := fun _ _ _ => rfl

/-! ### The events of the contexts (R95) -/

theorem finish_countersKept (s u : State) : CountersKept u (finish s u) :=
  (offerPlaces_request _ u).countersKept.trans (finish_spec s u).counters

theorem takes_countersKept (s u : State) : CountersKept u (takes s u) := by
  have loop : ∀ n v, CountersKept v (takeLoop n v) := fun n => by
    induction n with
    | zero => exact fun v => .refl v
    | succ n ih =>
      intro v
      unfold takeLoop
      split
      · exact .refl v
      · exact ((countersKept_takeRel.takeOne v).trans (finish_countersKept _ _)).trans (ih _)
  unfold takes
  split
  · exact .refl u
  · exact loop _ u

theorem postRescue_request (x : Channel) (s : State) : RequestStep s (postRescue x s) := by
  unfold postRescue
  split
  · exact .refl s
  · split
    · exact .refl s
    · exact hrqPost_request _ s

theorem moveHandset_only (i : RecIx) (c : CellIx) (s : State) : RegistryOnly s (moveHandset i c s) := by
  unfold moveHandset
  split
  · exact .refl s
  · split
    · exact .refl s
    · exact .refl s
    · exact writeLocation_only _ _ _ s

theorem commit_eq (x : Channel) (k : Call) (r : Target) (sl : Slot) (b : Bool) (s : State) :
    commit x k none r sl b s = (withdrawHo x (moveHandset k.handset r.cell
      (s.setCall x (some (committedCall s k r.cell sl))))).count fun d => { d with
        committed := d.committed.bump r.kind
        rescuesSucceeded := if b then d.rescuesSucceeded.bump else d.rescuesSucceeded } := rfl

theorem commit_countersKept (x : Channel) (k : Call) (old : Option Leg) (r : Target) (sl : Slot) (b : Bool) (s : State) :
    CountersKept s (commit x k old r sl b s) := by
  have moved : ∀ u : State, CountersKept u (commit x k none r sl b u) := fun u => by
    have h : CountersKept u (u.setCall x (some (committedCall u k r.cell sl))) := rfl
    rw [commit_eq]
    generalize u.setCall x (some (committedCall u k r.cell sl)) = v at h ⊢
    have hw := (h.trans (moveHandset_only k.handset r.cell v).countersKept).trans (withdrawHo_step x _).radioOnly.countersKept
    generalize withdrawHo x (moveHandset k.handset r.cell v) = w at hw ⊢
    exact hw
  cases old with
  | none => exact moved s
  | some l => exact (closeLeg_step x s l.cell).radioOnly.countersKept.trans (moved (closeLeg x s l.cell))

theorem servingLegLoss_countersKept (x : Channel) (cause : DropCause) (s : State) :
    CountersKept s (servingLegLoss x cause s) := by
  unfold servingLegLoss
  split
  · exact .refl s
  · split
    · exact .refl s
    · dsimp only
      split
      · exact (releaseSlot_countersKept _ s).trans (dropCall_countersKept _ _ _ _)
      · exact ((releaseSlot_countersKept _ s).trans rfl).trans (postRescue_request x _).countersKept
    · exact releaseSlot_countersKept _ s
    · exact (releaseSlot_countersKept _ s).trans (commit_countersKept _ _ _ _ _ _ _)
    · exact .refl s

theorem cancelTxn_countersKept (n : Txn) (s : State) : CountersKept s (cancelTxn n s) :=
  (cancelTxn_step n s).radioOnly.countersKept

theorem loseTarget_countersKept (lost : CellIx → Bool) (how : TargetEnd) (x : Channel) (s : State) :
    CountersKept s (loseTarget lost how x s) := by
  unfold loseTarget
  split
  · exact .refl s
  · split
    · exact .refl s
    · exact .refl s
    · split
      · exact fallback_countersKept _ _ _ _ _ s
      · exact .refl s
    · split
      · exact fallback_countersKept _ _ _ _ _ s
      · exact .refl s
    · exact .refl s
    · split
      · exact ((cancelTxn_countersKept _ s).trans (endAttempt_countersKept _ _ _ _ _)).trans
          (countersKept_takeRel.nextCandidate _ _)
      · exact .refl s

theorem loseServing_countersKept (lost : CellIx → Bool) (cause : LossCause) (x : Channel) (s : State) :
    CountersKept s (loseServing lost cause x s) := by
  unfold loseServing
  split
  · exact .refl s
  · split
    · split
      · exact (cancelTxn_countersKept _ s).trans (failedOpen_countersKept _ _ _ _ _)
      · exact .refl s
    all_goals
      split
      · exact .refl s
      · split
        · split
          · exact dropCall_countersKept _ _ _ s
          · exact dropCall_countersKept _ _ _ s
          · exact servingLegLoss_countersKept _ _ s
        · exact .refl s

theorem event_countersKept {f : State → State} {s : State} (h : CountersKept s (f s)) : CountersKept s (event f s) :=
  (h.trans (finish_countersKept s _)).trans (takes_countersKept s _)

theorem eachContext_countersKept {f : Channel → State → State} (h : ∀ x s, CountersKept s (f x s)) (s : State) :
    CountersKept s (eachContext f s) := by
  unfold eachContext
  generalize allIndices 128 = l
  induction l generalizing s with
  | nil => exact .refl s
  | cons x l ih =>
    rw [List.foldl_cons]
    refine CountersKept.trans ?_ (ih _)
    split
    · exact .refl s
    · exact event_countersKept (h x s)

theorem losses_countersKept (lost : CellIx → Bool) (cause : LossCause) (s : State) :
    CountersKept s (eachContext (lossAtContext lost cause) s) :=
  eachContext_countersKept (fun x s => (loseTarget_countersKept lost _ x s).trans (loseServing_countersKept lost cause x _)) s

theorem flushFrame_countersKept (s : State) (f : CtlFrame) : CountersKept s (flushFrame s f) := by
  unfold flushFrame
  cases f with
  | legOpen d n x h r =>
    dsimp only
    split
    · exact .refl s
    · exact countersKept_takeRel.resolveFail countersKept_takeRel.nextCandidate _ _ s
  | hoCmd d n x h t sl =>
    dsimp only
    split
    · exact .refl s
    · split
      · exact fallback_countersKept _ _ _ _ _ s
      all_goals exact .refl s
  | _ => exact .refl s

theorem flushed_countersKept (fs : List CtlFrame) (s : State) : CountersKept s (fs.foldl flushFrame s) := by
  induction fs generalizing s with
  | nil => exact .refl s
  | cons f fs ih => exact (flushFrame_countersKept s f).trans (ih _)

end Sys2Proof.Machine
end

section
/-! PROOFS. The line of a cell port (R1 to R3, R71, R72, R95): up, with its resume cells in service; down, with its queue
flushed, its cells out of service, and an event at each context. -/
namespace Sys2Proof.Machine

/-! ### The line comes up -/

theorem cellLineUp_up {p : PortIx} {s : State} (h : (s.port p).link = .up) : cellLineUp p s = s := by
  unfold cellLineUp
  rw [h]

theorem cellLineUp_down {p : PortIx} {s : State} (h : (s.port p).link = .down) :
    cellLineUp p s = { s with
      ports := (s.setPort p ⟨.up, [], [], [], none⟩).ports
      cells := s.cells.update CellRec.blank (resumeCell p) } := by
  unfold cellLineUp
  rw [h]
  rfl

theorem runs_cellLineUp {p : PortIx} {s : State} (h : (s.port p).link = .down) : Runs (.cellPortLineUp p) s fun t =>
    t = { s with ports := t.ports, cells := t.cells } ∧ t.port p = ⟨.up, [], [], [], none⟩ ∧
      (∀ q, q ≠ p → t.port q = s.port q) ∧ ∀ c, t.cell c = resumeCell p c (s.cell c) := by
  obtain ⟨hend, ht⟩ := event_radio (cellLineUp_down h)
  have hp : ({ s with
      ports := (s.setPort p ⟨.up, [], [], [], none⟩).ports
      cells := s.cells.update CellRec.blank (resumeCell p) } : State).port p = ⟨.up, [], [], [], none⟩ :=
    State.port_setPort_self _ _ _
  refine ⟨_, rfl, ?_, ?_, fun q hq => hend.port_same (State.port_setPort_ne _ hq _), fun c => ?_⟩
  · rw [ht]
  · rw [hend.ports p, hp, chooseNext_empty rfl rfl rfl, ite_self]
  · rw [hend.cell]
    exact Table.get_update _ _ _ (resumeCell_blank p) (resumeCell_twice p) c

/-! ### An event at each context, in the order of the channels (R95; log 6) -/

theorem indicesFrom_eq {n k : Nat} (h : k ≤ n) : indicesFrom n k = (List.finRange n).drop (n - k) := by
  induction k with
  | zero => rw [Nat.sub_zero, List.drop_of_length_le (List.length_finRange).le]; rfl
  | succ k ih =>
    have hlt : n - (k + 1) < n := by omega
    unfold indicesFrom
    rw [dif_pos hlt, ih (by omega), List.drop_eq_getElem_cons (i := n - (k + 1)) (by rwa [List.length_finRange]),
      List.getElem_finRange, show n - (k + 1) + 1 = n - k by omega]
    rfl

theorem allIndices_eq (n : Nat) : allIndices n = List.finRange n := by
  unfold allIndices
  rw [indicesFrom_eq le_rfl, Nat.sub_self, List.drop_zero]

/-- The event of one context in a round of events. -/
def contextEvent (f : Channel → State → State) (s : State) (x : Channel) : State :=
  if s.call x = none then s else event (f x) s

theorem eachContext_eq (f : Channel → State → State) (s : State) :
    eachContext f s = (List.finRange 128).foldl (contextEvent f) s := by
  rw [← allIndices_eq]
  unfold eachContext
  congr 1
  funext u x
  unfold contextEvent
  cases hk : u.call x with
  | none => exact (if_pos rfl).symm
  | some k => exact (if_neg nofun).symm

theorem eachContext_events (f : Channel → State → State) (s : State) : EachContext f s (eachContext f s) := by
  refine ⟨fun n => ((List.finRange 128).take n).foldl (contextEvent f) s, rfl, ?_, fun x => ?_⟩
  · dsimp only
    rw [eachContext_eq, List.take_of_length_le (List.length_finRange).le]
  · have hstep : ((List.finRange 128).take (x.val + 1)).foldl (contextEvent f) s =
        contextEvent f (((List.finRange 128).take x.val).foldl (contextEvent f) s) x := by
      rw [List.take_add_one, List.getElem?_eq_getElem (by rw [List.length_finRange]; exact x.isLt), List.getElem_finRange,
        List.foldl_append]
      rfl
    dsimp only
    rw [hstep]
    generalize ((List.finRange 128).take x.val).foldl (contextEvent f) s = u
    exact ⟨fun h => if_pos h, fun h => if_neg h⟩

/-! ### The line goes down -/

theorem exec_cellPortLineDown_down {p : PortIx} {s : State} (h : (s.port p).link = .down) :
    exec (.cellPortLineDown p) s = .next s := by
  change execCellPortLineDown p s = _
  unfold execCellPortLineDown
  rw [h]

theorem exec_cellPortLineDown_up {p : PortIx} {s : State} (h : (s.port p).link = .up) :
    exec (.cellPortLineDown p) s =
      .next (takes s (eachContext (lossAtContext (lostAtDown p s) .linkDown) (cellLineDown p s))) := by
  change execCellPortLineDown p s = _
  unfold execCellPortLineDown
  rw [h]

/-- A blank port stays blank. -/
theorem Raw.port_blank {s t : State} (h : Raw s t) {p : PortIx} (hp : s.port p = CellPort.blank) :
    t.port p = CellPort.blank := by
  cases h with
  | port q v hm =>
    rw [State.port_setPort]
    split
    · next he =>
      subst he
      exact hm.blank hp
    · exact hp
  | mark i =>
    rcases markDirty_cases i s with ⟨-, -, h⟩ | ⟨-, h⟩ <;> rw [h] <;> exact hp
  | settle e o =>
    have := settlePage_only e o s
    unfold RegistryOnly at this
    rw [this]
    exact hp
  | send h =>
    cases hn : s.notices with
    | nil =>
      have : sendNotice s = s := by unfold sendNotice; rw [hn]
      rwa [this]
    | cons n ns =>
      obtain ⟨hs, -⟩ := sendNotice_spec s n ns hn
      unfold State.port at hp ⊢
      rwa [hs.ports]
  | refill =>
    have hs := (refill_spec s).side
    unfold State.port at hp ⊢
    rwa [hs.ports]
  | _ => exact hp

theorem Raws.port_blank {s t : State} (h : Raws s t) {p : PortIx} (hp : s.port p = CellPort.blank) :
    t.port p = CellPort.blank := by
  induction h with
  | refl => exact hp
  | tail _ h ih => exact h.port_blank ih

/-- The cells of a port that has gone down are out of service. -/
def cellsDown (p : PortIx) (s : State) : State := { s with cells := s.cells.update CellRec.blank (downCell p) }

theorem cellsDown_cell (p : PortIx) (s : State) (c : CellIx) : (cellsDown p s).cell c = downCell p c (s.cell c) :=
  Table.get_update _ _ _ (downCell_blank p) (downCell_twice p) c

/-- What a line-down does before and after the cells go out of service. -/
structure LineDown (p : PortIx) (s u t : State) : Prop where
  flushed : Raws (s.setPort p CellPort.blank) u
  followed : Raws (cellsDown p u) t
  counters : t.counters = s.counters

theorem lineDown_steps (p : PortIx) (s : State) : LineDown p s (flushPort p s)
    (takes s (eachContext (lossAtContext (lostAtDown p s) .linkDown) (cellLineDown p s))) where
  flushed := (Moves.foldl (P := fun _ => False) _ flushFrame_moves (s.port p).ctl (s.setPort p CellPort.blank)).raws
  followed := ((finish_moves (P := fun _ => False) s (cellsDown p (flushPort p s))).steps.trans
    ((eachContext_steps (fun x u => lossAtContext_moves _ _ x u) _).trans (takes_steps s _))).raws
  counters := by
    have h1 : CountersKept (cellsDown p (flushPort p s)) (cellLineDown p s) :=
      finish_countersKept s (cellsDown p (flushPort p s))
    have h2 := losses_countersKept (lostAtDown p s) .linkDown (cellLineDown p s)
    have h3 := takes_countersKept s (eachContext (lossAtContext (lostAtDown p s) .linkDown) (cellLineDown p s))
    have h0 : CountersKept s (flushPort p s) := flushed_countersKept (s.port p).ctl (s.setPort p CellPort.blank)
    exact ((h0.trans (t := flushPort p s) h1).trans h2).trans h3

theorem LineDown.port {p : PortIx} {s u t : State} (h : LineDown p s u t) : t.port p = CellPort.blank :=
  h.followed.port_blank (h.flushed.port_blank (State.port_setPort_self _ _ _) : (cellsDown p u).port p = _)

theorem LineDown.links {p q : PortIx} {s u t : State} (h : LineDown p s u t) (hq : q ≠ p) :
    (t.port q).link = (s.port q).link := by
  rw [h.followed.setting.links q]
  exact (h.flushed.setting.links q).trans (by rw [State.port_setPort_ne _ hq])

theorem LineDown.down {p : PortIx} {s u t : State} (h : LineDown p s u t) {c : CellIx} (hc : portOf c = p) :
    (t.cell c).service = .outOfService := by
  have hs : ((cellsDown p u).cell c).service = .outOfService := by
    rw [cellsDown_cell]
    unfold downCell
    rw [if_pos hc]
  rw [← hs]
  exact Service.follows_settled (h.followed.setting.service c) fun f d he => by
    rw [hs] at he
    cases he

theorem LineDown.service {p : PortIx} {s u t : State} (h : LineDown p s u t) {c : CellIx} (hc : portOf c ≠ p) :
    (s.cell c).service.follows (t.cell c).service := by
  have hs : (cellsDown p u).cell c = u.cell c := by
    rw [cellsDown_cell]
    exact if_neg hc
  have := h.followed.setting.service c
  rw [hs] at this
  exact Service.follows_trans (h.flushed.setting.service c) this

theorem downCell_setting (p : PortIx) (c : CellIx) (r : CellRec) :
    (downCell p c r).stored = r.stored ∧ (downCell p c r).neighbours = r.neighbours := by
  unfold downCell
  split <;> exact ⟨rfl, rfl⟩

theorem LineDown.stored {p : PortIx} {s u t : State} (h : LineDown p s u t) (c : CellIx) :
    (t.cell c).stored = (s.cell c).stored ∧ (t.cell c).neighbours = (s.cell c).neighbours := by
  have h1 := h.flushed.setting.stored c
  have h2 := h.followed.setting.stored c
  have n1 := h.flushed.setting.neighbours c
  have n2 := h.followed.setting.neighbours c
  rw [cellsDown_cell, (downCell_setting p c _).1] at h2
  rw [cellsDown_cell, (downCell_setting p c _).2] at n2
  exact ⟨h2.trans h1, n2.trans n1⟩

end Sys2Proof.Machine
end

section
/-! PROOFS. A rescue attempt that fails (R122, R133): what the chain of tries that follows does to the pending answers; the next
candidate that takes a leg; and the end of a call none of whose candidates takes one. -/
namespace Sys2Proof.Machine

/-! ### Pending answers over the pieces of the chain -/

theorem releaseHandset_answers (form : ReleaseForm) (i : RecIx) (s : State) : (releaseHandset form i s).answers = s.answers := by
  rw [(releaseHandset_step form i s).only]

theorem failedOpen_answers (x : Channel) (k : Call) (c : CellIx) (cause : FailCause) (s : State) :
    (failedOpen x k c cause s).answers = s.answers := by
  unfold failedOpen
  dsimp only
  rw [reply_answers]
  exact (releaseHandset_answers .recheck _ _).trans (releaseSlot_answers c s)

theorem endAttempt_answers (x : Channel) (k : Call) (c : CellIx) (d : Time) (s : State) :
    (endAttempt x k c d s).answers = s.answers := releaseSlot_answers c s

/-- A call without an open ends without a cancellation. -/
theorem dropCall_answers {x : Channel} {s : State} (h : ∀ k, s.call x = some k → k.phase.opens = []) (cause : DropCause)
    (lost : Bool) : (dropCall x cause lost s).answers = s.answers := by
  cases hk : s.call x with
  | none => rw [dropCall_none hk]
  | some k =>
    have legs : ∀ (l : List CellIx) (u : State), (l.foldl (closeLeg x) u).answers = u.answers := fun l => by
      induction l with
      | nil => exact fun _ => rfl
      | cons c l ih => exact fun u => (ih _).trans (closeLeg_answers x u c)
    rw [dropCall_eq hk, reply_answers, endCall_eq]
    refine (releaseHandset_answers _ _ _).trans ?_
    unfold legsEnded
    rw [h k hk, List.foldl_nil, legs, withdrawHo_answers, hrqRemove_only]
    rfl

/-- A try adds at most one pending answer, its own. -/
theorem tryTarget_answers (x : Channel) (i : RecIx) (c : CellIx) (role : Role) (b : Bool) (s : State) :
    ∀ a ∈ (tryTarget x i c role b s).state.answers,
      a ∈ s.answers ∨ (a.cancelled = false ∧ a.channel = x ∧ a.cell = c) := by
  have offered : ∀ (h : Hid) (u : State), ∀ a ∈ (offerTargetOpen x h c role u).state.answers,
      a ∈ u.answers ∨ (a.cancelled = false ∧ a.channel = x ∧ a.cell = c) := fun h u => by
    have ho := offer_answers (.legOpen c u.nextTxn x h role) u
    unfold offerTargetOpen
    split
    · split <;> next heq =>
        rw [heq] at ho
        intro a ha
        first
          | exact .inl (ho ▸ releaseSlot_answers c _ ▸ ha)
          | (rcases List.mem_append.1 ha with ha | ha
             · exact .inl (ho ▸ ha)
             · cases List.mem_singleton.1 ha
               exact .inr ⟨rfl, rfl, rfl⟩)
    · intro a ha
      exact .inl (releaseSlot_answers c u ▸ ha)
  unfold tryTarget
  split
  · exact fun a => .inl
  · split
    · exact fun a => .inl
    · split
      · exact fun a => .inl
      · split
        · exact fun a => .inl
        · split
          · exact fun a => .inl
          · next u hu =>
            have ha : u.answers = s.answers := by rw [reserve_cells hu]
            rw [← ha]
            exact offered _ u

/-! ### Which pending answers a chain leaves -/

/-- Every pending answer is one of `base`, or one of the chain's own: not cancelled, and none of channel `x` toward cell `c`,
which the context of `x` no longer holds as a candidate. -/
structure PassedFrom (base : List Answer) (x : Channel) (c : CellIx) (s : State) : Prop where
  clear : ∀ k, s.call x = some k → ∀ b ∈ k.candidates, b.cell ≠ c
  answers : ∀ a ∈ s.answers, a ∈ base ∨ (a.cancelled = false ∧ ¬ (a.channel = x ∧ a.cell = c))

section
variable {base : List Answer} {x : Channel} {c : CellIx}

theorem PassedFrom.of_fewer {s t : State} (h : PassedFrom base x c s) (ha : ∀ a ∈ t.answers, a ∈ s.answers)
    (hc : ∀ k, t.call x = some k → ∃ j, s.call x = some j ∧ ∀ b ∈ k.candidates, ∃ d ∈ j.candidates, d.cell = b.cell) :
    PassedFrom base x c t where
  clear := fun k hk b hb => by
    obtain ⟨j, hj, hs⟩ := hc k hk
    obtain ⟨d, hd, he⟩ := hs b hb
    rw [← he]
    exact h.clear j hj d hd
  answers := fun a ha' => h.answers a (ha a ha')

theorem PassedFrom.of_others {s t : State} (h : PassedFrom base x c s) (ha : t.answers = s.answers) {y : Channel} {k : Call}
    (hk : s.call y = some k) (ho : ∀ z, z ≠ y → t.call z = s.call z)
    (hy : ∀ j, t.call y = some j → ∀ b ∈ j.candidates, ∃ d ∈ k.candidates, d.cell = b.cell) : PassedFrom base x c t :=
  h.of_fewer (fun a => by rw [ha]; exact id) fun j hj => by
    by_cases hx : x = y
    · subst hx
      exact ⟨k, hk, hy j hj⟩
    · exact ⟨j, by rw [← ho x hx]; exact hj, fun b hb => ⟨b, hb, rfl⟩⟩

theorem PassedFrom.freeAnswer {s : State} (h : PassedFrom base x c s) (a : Answer) : PassedFrom base x c (freeAnswer a s) :=
  h.of_fewer (fun b hb => by
    rw [freeAnswer_answers] at hb
    exact (List.mem_filter.1 hb).1) fun k hk => ⟨k, hk, fun b hb => ⟨b, hb, rfl⟩⟩

theorem PassedFrom.dropCall {s : State} (h : PassedFrom base x c s) {y : Channel}
    (hy : ∀ k, s.call y = some k → k.phase.opens = []) (cause : DropCause) (lost : Bool) :
    PassedFrom base x c (dropCall y cause lost s) := by
  cases hk : s.call y with
  | none =>
    rw [dropCall_none hk]
    exact h
  | some k =>
    refine h.of_others (dropCall_answers hy cause lost) hk (fun z hz => dropCall_others hz cause lost s) fun j hj => ?_
    rw [dropCall_call] at hj
    cases hj

/-- The context of a channel is in no phase with an open. -/
def State.NoOpen (y : Channel) (s : State) : Prop := ∀ k, s.call y = some k → k.phase.opens = []

theorem PassedFrom.endAttempt {s : State} (h : PassedFrom base x c s) {y : Channel} {k : Call} (hk : s.call y = some k)
    (d : CellIx) (t : Time) : PassedFrom base x c (endAttempt y k d t s) ∧ (endAttempt y k d t s).NoOpen y := by
  refine ⟨h.of_others (endAttempt_answers y k d t s) hk (fun z hz => ?_) fun j hj b hb => ?_, fun j hj => ?_⟩
  · rw [endAttempt_call, if_neg hz]
  · rw [endAttempt_call, if_pos rfl] at hj
    cases hj
    exact ⟨b, (List.mem_filter.1 hb).1, rfl⟩
  · rw [endAttempt_call, if_pos rfl] at hj
    cases hj
    rfl

theorem PassedFrom.deliverFail {f : Channel → State → State}
    (hf : ∀ y u, PassedFrom base x c u → u.NoOpen y → PassedFrom base x c (f y u)) {s : State} (h : PassedFrom base x c s)
    (y : Channel) (n : Txn) (cause : FailCause) : PassedFrom base x c (deliverFail f y n cause s) := by
  unfold Machine.deliverFail
  split
  · exact h
  · next k hk =>
    split
    · split
      · refine h.of_others (failedOpen_answers _ _ _ _ _) hk (fun z hz => ?_) fun j hj => ?_
        · rw [failedOpen_call, if_neg hz]
        · rw [failedOpen_call, if_pos rfl] at hj
          cases hj
      · exact h
    · exact h
    · next l _ r _ _ =>
      split
      · have hb := fallback_fellBack y k l r.cell .gone s
        refine h.of_others ((fallback_answers _ _ _ _ _ _).trans (releaseSlot_answers _ _)) hk hb.others fun j hj b hm => ?_
        rw [hb.call] at hj
        cases hj
        obtain ⟨d, hd, rfl⟩ := List.mem_map.1 hm
        exact ⟨d, hd, by split <;> rfl⟩
      · exact h
    · exact h
    · exact h
    · next r _ d _ =>
      split
      · obtain ⟨h1, h2⟩ := h.endAttempt hk r.cell d
        exact hf _ _ h1 h2
      · exact h

theorem PassedFrom.settleVictim {f : Channel → State → State}
    (hf : ∀ y u, PassedFrom base x c u → u.NoOpen y → PassedFrom base x c (f y u)) {s : State} (h : PassedFrom base x c s)
    (v : Option CtlFrame) : PassedFrom base x c (settleVictim f v s) := by
  unfold Machine.settleVictim
  split
  · exact h
  · split
    · exact h
    · unfold Machine.resolveFail
      split
      · exact h.freeAnswer _
      · exact (h.freeAnswer _).deliverFail hf _ _ _

/-- A try toward a cell that the channel's context holds as a candidate. -/
theorem PassedFrom.tried {s : State} (h : PassedFrom base x c s) {y : Channel} {k : Call} {d : CellIx}
    (hk : s.call y = some k) (hd : ∃ b ∈ k.candidates, b.cell = d) {r : TargetTry} {u : State}
    (hr : tryTarget y k.handset d .rescue false s = r) (hu : r.state = u) :
    PassedFrom base x c u ∧ u.calls = s.calls := by
  have ha := tryTarget_answers y k.handset d .rescue false s
  have hc := (tryTarget_only y k.handset d .rescue false s).calls
  rw [hr, hu] at ha hc
  refine ⟨⟨fun j hj => h.clear j (by rw [← State.call_congr hc]; exact hj), fun a hm => ?_⟩, hc⟩
  rcases ha a hm with hm | ⟨hcan, hch, hcell⟩
  · exact h.answers a hm
  · refine .inr ⟨hcan, fun ⟨hx, hce⟩ => ?_⟩
    obtain ⟨b, hb, hbd⟩ := hd
    have hy : y = x := by rw [← hch, hx]
    exact h.clear k (hy ▸ hk) b hb (hbd.trans (hcell.symm.trans hce))

theorem dropCandidate_call (y : Channel) (d : CellIx) (s : State) (z : Channel) :
    (dropCandidate y d s).call z = if z = y then (s.call y).map fun k => { k with
      candidates := k.candidates.filter fun b => !decide (b.cell = d) } else s.call z := State.call_modCall _ _ _ _

theorem PassedFrom.dropCandidate {s : State} (h : PassedFrom base x c s) (y : Channel) (d : CellIx) :
    PassedFrom base x c (dropCandidate y d s) :=
  h.of_fewer (fun _ => id) fun k hk => by
    rw [dropCandidate_call] at hk
    split at hk
    · next hx =>
      obtain ⟨j, hj, rfl⟩ := Option.map_eq_some_iff.1 hk
      exact ⟨j, hx ▸ hj, fun b hb => ⟨b, (List.mem_filter.1 hb).1, rfl⟩⟩
    · exact ⟨k, hk, fun b hb => ⟨b, hb, rfl⟩⟩

theorem beginAttempt_candidates {y : Channel} {d : CellIx} {n : Txn} {s : State} {z : Channel} {k : Call}
    (h : (beginAttempt y d n s).call z = some k) : ∃ j, s.call z = some j ∧ k.candidates = j.candidates := by
  unfold beginAttempt at h
  rw [State.call_modCall] at h
  split at h
  · next hz =>
    obtain ⟨j, hj, rfl⟩ := Option.map_eq_some_iff.1 h
    exact ⟨j, hz ▸ hj, by split <;> rfl⟩
  · exact ⟨k, h, rfl⟩

theorem bestCandidate_mem {cs : List Candidate} {b : Candidate} (h : bestCandidate cs = some b) : b ∈ cs := by
  induction cs generalizing b with
  | nil => cases h
  | cons d cs ih =>
    unfold bestCandidate at h
    split at h
    · cases h
      exact List.mem_cons_self
    · next e he =>
      split at h
      · cases h
        exact List.mem_cons_of_mem _ (ih he)
      · cases h
        exact List.mem_cons_self

theorem PassedFrom.passOn {f : Channel → CellIx → State → State} {y : Channel} {s : State}
    (hf : ∀ d u, PassedFrom base x c u → u.NoOpen y → (∀ k, u.call y = some k → ∃ b ∈ k.candidates, b.cell = d) →
      PassedFrom base x c (f y d u)) (h : PassedFrom base x c s) (hn : s.NoOpen y) : PassedFrom base x c (passOn f y s) := by
  unfold Machine.passOn
  split
  · exact h
  · next k hk =>
    split
    · exact h.dropCall hn _ _
    · next b hb =>
      refine hf _ _ h hn fun j hj => ⟨b, ?_, rfl⟩
      rw [hk] at hj
      cases hj
      exact bestCandidate_mem hb

theorem PassedFrom.rescueTry (n : Nat) {y : Channel} {d : CellIx} {s : State} (h : PassedFrom base x c s) (hn : s.NoOpen y)
    (hd : ∀ k, s.call y = some k → ∃ b ∈ k.candidates, b.cell = d) : PassedFrom base x c (rescueTry n y d s) := by
  induction n generalizing y d s with
  | zero => exact h.dropCall hn _ _
  | succ n ih =>
    have next : ∀ z u, PassedFrom base x c u → u.NoOpen z → PassedFrom base x c (Machine.passOn (Machine.rescueTry n) z u) :=
      fun z u hu hz => PassedFrom.passOn (fun e v hv hw hc => ih hv hw hc) hu hz
    have refused : ∀ (code : HoCode) (u : State), PassedFrom base x c u → u.calls = s.calls → PassedFrom base x c
        (Machine.passOn (Machine.rescueTry n) y (Machine.dropCandidate y d (countRefusal code u))) := fun code u hu hc => by
      have hcount : PassedFrom base x c (countRefusal code u) := ⟨hu.clear, hu.answers⟩
      refine next y _ (hcount.dropCandidate y d) fun k hk => ?_
      rw [dropCandidate_call, if_pos rfl] at hk
      obtain ⟨j, hj, rfl⟩ := Option.map_eq_some_iff.1 hk
      exact hn j (by rw [← State.call_congr hc]; exact hj)
    unfold Machine.rescueTry
    split
    · exact h
    · next k hk =>
      split
      · next ht =>
        obtain ⟨hu, hc⟩ := h.tried hk (hd k hk) ht rfl
        exact refused _ _ hu hc
      · next ht =>
        obtain ⟨hu, hc⟩ := h.tried hk (hd k hk) ht rfl
        exact refused _ _ hu hc
      · next m v u ht =>
        obtain ⟨hu, -⟩ := h.tried hk (hd k hk) ht rfl
        refine PassedFrom.settleVictim next (hu.of_fewer (t := beginAttempt y d m u) (fun _ => id) fun j hj => ?_) v
        obtain ⟨i, hi, he⟩ := beginAttempt_candidates hj
        exact ⟨i, hi, fun b hb => ⟨b, he ▸ hb, rfl⟩⟩

theorem PassedFrom.nextCandidate {y : Channel} {s : State} (h : PassedFrom base x c s) (hn : s.NoOpen y) :
    PassedFrom base x c (nextCandidate y s) :=
  PassedFrom.passOn (fun _ _ hu hw hc => hu.rescueTry _ hw hc) h hn

end

end Sys2Proof.Machine
end

section
/-! PROOFS. A pending open that resolves as FAIL without an answer (R80, R126, R133, R155): its OPENING context ends, its
PREPARING one falls back, and its rescue passes to the next candidate or ends the call. -/
namespace Sys2Proof.Machine

/-! ### From before the entry was freed -/

/-- A release stated from a state that differs in frames that have been withdrawn alone. -/
theorem HandsetReleased.of_withdrawn {i : RecIx} {s w t : State} (hs : SettingKept s w) (hr : w.record i = s.record i)
    (hp : ∀ p, (w.port p).ctl.length ≤ (s.port p).ctl.length) (h : HandsetReleased i w t) : HandsetReleased i s t where
  toRecordReleased := .of_same hs (by rw [hr]) h.toRecordReleased
  told := fun e a x v he hl hc hu hn => h.told e a x v (by rw [hr]; exact he) hl (by rw [hs.checkStored]; exact hc)
    (by rw [hs.links]; exact hu) ((hp _).trans_lt hn)

theorem LegsClosed.none_from {x : Channel} {s w t : State} (hw : ∀ p, (w.port p).closes = (s.port p).closes)
    (h : LegsClosed x [] w t) : LegsClosed x [] s t :=
  ⟨nofun, fun p c y hy => by rw [← hw]; exact h.2 p c y hy⟩

theorem withdrawOpen_port (n : Txn) (c : CellIx) (s : State) (p : PortIx) :
    (withdrawOpen n c s).port p = if p = portOf c then { s.port p with
      ctl := (s.port p).ctl.filter fun f => !decide (f.openTxn = some n) } else s.port p := by
  unfold withdrawOpen
  rw [State.port_setPort]
  split
  · next h => rw [h]
  · rfl

theorem freeAnswer_closes (a : Answer) (s : State) (p : PortIx) : ((freeAnswer a s).port p).closes = (s.port p).closes := by
  change ((withdrawOpen a.txn a.cell _).port p).closes = _
  rw [withdrawOpen_port]
  split <;> rfl

theorem freeAnswer_stays {a : Answer} {s : State} {p : PortIx} {f : CtlFrame} (hf : f ∈ (s.port p).ctl)
    (h : f.openTxn = none) : f ∈ ((freeAnswer a s).port p).ctl := by
  change f ∈ ((withdrawOpen a.txn a.cell _).port p).ctl
  rw [withdrawOpen_port]
  split
  · exact List.mem_filter.2 ⟨hf, by rw [h]; rfl⟩
  · exact hf

theorem freeAnswer_setting (a : Answer) (s : State) : SettingKept s (freeAnswer a s) :=
  (freeAnswer_moves (P := fun _ => False) a s).raws.setting

theorem freeAnswer_released {a : Answer} {s t : State} {i : RecIx} (h : HandsetReleased i (freeAnswer a s) t) :
    HandsetReleased i s t :=
  h.of_withdrawn (freeAnswer_setting a s) rfl fun p => ((freeAnswer_step a s).ports p).length

theorem freeAnswer_failed {x : Channel} {k : Call} {c : CellIx} {cause : FailCause} {a : Answer} {s t : State}
    (h : OpenFailed x k c cause (freeAnswer a s) t) : OpenFailed x k c cause s t :=
  ⟨h.call, h.others, h.slots, h.closes.none_from (freeAnswer_closes a s), h.answer, freeAnswer_released h.handset⟩

theorem freeAnswer_fellBack {x : Channel} {k : Call} {l : Leg} {c : CellIx} {a : Answer} {s t : State}
    (h : FellBack x k l c [] (freeAnswer a s) t) : FellBack x k l c [] s t :=
  ⟨h.call, h.others, h.slots, h.closes.none_from (freeAnswer_closes a s), h.withdrawn, h.device, h.hrq⟩

/-! ### The end of an attempt (R133) -/

theorem filter_without (c : CellIx) (cs : List Candidate) : cs.filter (fun b => !decide (b.cell = c)) = without c cs := by
  unfold without
  exact List.filter_congr fun b _ => by simp

/-- What the end of an attempt at cell `c` leaves, its entry freed and its reserve released. -/
structure AttemptLeft (x : Channel) (k : Call) (c : CellIx) (d : Time) (s u : State) : Prop where
  call : u.call x = some { k with phase := .rescuing none d, candidates := without c k.candidates }
  setting : SettingKept s u
  device : u.device = s.device
  records : ∀ i, u.record i = s.record i
  cells : SlotsReleased [c] s u
  lengths : ∀ p, (u.port p).ctl.length ≤ (s.port p).ctl.length + 1
  answers : u.answers.length ≤ s.answers.length
  queues : (∀ f g, (s.cell c).service = .draining f g → 1 < (s.cell c).occupancy) → ∀ p,
    (u.port p).ctl.length ≤ (s.port p).ctl.length ∧ ∀ f ∈ (s.port p).ctl, f.openTxn = none → f ∈ (u.port p).ctl

theorem releaseSlot_ports {c : CellIx} {s : State} (h : ∀ f g, (s.cell c).service = .draining f g → 1 < (s.cell c).occupancy) :
    (releaseSlot c s).ports = s.ports := by
  unfold releaseSlot
  dsimp only
  generalize hv : (s.setCell c { s.cell c with
    occupancy := (s.cell c).occupancy - 1, congested := congestedAfterRelease (s.cell c) ((s.cell c).occupancy - 1) }) = v
  have hcell : (v.cell c).service = (s.cell c).service ∧ (v.cell c).occupancy = (s.cell c).occupancy - 1 := by
    rw [← hv, State.cell_setCell_self]
    exact ⟨rfl, rfl⟩
  have hports : v.ports = s.ports := by rw [← hv]; rfl
  unfold endDrainIfEmpty
  rw [hcell.1, hcell.2]
  split
  · exact hports
  · exact hports
  · next f g hs =>
    have := h f g hs
    rw [if_neg (by omega)]
    exact hports
  · exact hports

theorem endAttempt_left {x : Channel} {k : Call} {s : State} (hk : s.call x = some k) (a : Answer) (c : CellIx) (d : Time) :
    AttemptLeft x k c d s (endAttempt x k c d (freeAnswer a s)) := by
  have hstep := (freeAnswer_step a s).trans (releaseSlot_step c (freeAnswer a s))
  have hset : SettingKept s (endAttempt x k c d (freeAnswer a s)) := (freeAnswer_setting a s).trans
    (endAttempt_moves (P := fun _ => False) (s := freeAnswer a s) hk c d).raws.setting
  have hcall := endAttempt_call x k c d (freeAnswer a s) x
  rw [if_pos rfl, filter_without] at hcall
  have hans : (releaseSlot c (freeAnswer a s)).answers.length ≤ s.answers.length := by
    rw [releaseSlot_answers, freeAnswer_answers]
    exact List.length_filter_le _ _
  have hqueue : (∀ f g, (s.cell c).service = .draining f g → 1 < (s.cell c).occupancy) → ∀ p,
      ((releaseSlot c (freeAnswer a s)).port p).ctl.length ≤ (s.port p).ctl.length ∧
        ∀ f ∈ (s.port p).ctl, f.openTxn = none → f ∈ ((releaseSlot c (freeAnswer a s)).port p).ctl := fun h p => by
    have hp : (releaseSlot c (freeAnswer a s)).port p = (freeAnswer a s).port p := by
      unfold State.port
      rw [releaseSlot_ports (s := freeAnswer a s) h]
    rw [hp]
    exact ⟨((freeAnswer_step a s).ports p).length, fun f hf hn => freeAnswer_stays hf hn⟩
  have hu : endAttempt x k c d (freeAnswer a s) =
      { releaseSlot c (freeAnswer a s) with calls := (endAttempt x k c d (freeAnswer a s)).calls } := rfl
  generalize releaseSlot c (freeAnswer a s) = v at hstep hans hqueue hu
  generalize endAttempt x k c d (freeAnswer a s) = u at hset hcall hu ⊢
  have hport : ∀ p, u.port p = v.port p := fun p => by rw [hu]; rfl
  refine ⟨hcall, hset, ?_, fun i => ?_, hstep.slots.congr ?_, fun p => ?_, ?_, fun h p => ?_⟩
  · rw [hu]
    exact hstep.device
  · rw [hu]
    exact hstep.record i
  · rw [hu]
  · rw [hport]
    exact (hstep.ports p).length
  · rw [hu]
    exact hans
  · rw [hport]
    exact hqueue h p

theorem without_ne {c : CellIx} {cs : List Candidate} {b : Candidate} (h : b ∈ without c cs) : b.cell ≠ c :=
  of_decide_eq_true (List.mem_filter.1 h).2

theorem AttemptLeft.occupancy_ne {x : Channel} {k : Call} {c b : CellIx} {d : Time} {s u : State}
    (h : AttemptLeft x k c d s u) (hb : b ≠ c) : (u.cell b).occupancy = (s.cell b).occupancy := by
  rw [h.cells b, List.count_cons_of_ne (Ne.symm hb)]
  rfl

theorem AttemptLeft.occupancy_same {x : Channel} {k : Call} {c : CellIx} {d : Time} {s u : State}
    (h : AttemptLeft x k c d s u) : (u.cell c).occupancy = (s.cell c).occupancy - 1 := by
  rw [h.cells c, List.count_cons_self]
  rfl

theorem SettingKept.capacity {s u : State} (h : SettingKept s u) (c : CellIx) : (u.cell c).capacity = (s.cell c).capacity :=
  congrArg CellWrite.capacity (h.stored c)

/-- A target that takes a leg before the attempt's end takes one after it. -/
theorem AttemptLeft.takes {x : Channel} {k : Call} {c b : CellIx} {d : Time} {s u : State} {e : Enrolled} {a : Attachment}
    (h : AttemptLeft x k c d s u) (hb : b ≠ c) (ht : TargetTakes s e a b)
    (hr : (∀ f g, (s.cell c).service = .draining f g → 1 < (s.cell c).occupancy) ∨ (s.port (portOf b)).ctl.length < 23) :
    TargetTakes u e a b := by
  obtain ⟨h1, h2, h3, hu, h4⟩ := ht
  refine ⟨by rw [h.setting.checkStored]; exact h1, ?_, h.answers.trans_lt h3, by rw [h.setting.links]; exact hu, ?_⟩
  · rw [h.occupancy_ne hb, h.setting.capacity]
    exact h2
  · rcases hr with hr | hr
    · obtain ⟨hl, hs⟩ := h.queues hr (portOf b)
      rcases h4 with h4 | ⟨f, hf, hlow⟩
      · exact .inl (hl.trans_lt h4)
      · exact .inr ⟨f, hs f hf (CtlFrame.openTxn_of_low hlow), hlow⟩
    · have := h.lengths (portOf b)
      exact .inl (by omega)

/-! ### The next attempt (R122, R132) -/

theorem passOn_best {f : Channel → CellIx → State → State} {x : Channel} {s : State} {k : Call} {b : Candidate}
    (hk : s.call x = some k) (hb : bestCandidate k.candidates = some b) : passOn f x s = f x b.cell s := by
  unfold passOn
  rw [hk]
  dsimp only
  rw [hb]

theorem rescueTry_admitted {x : Channel} {c : CellIx} {s : State} {k : Call} {e : Enrolled} {a : Attachment} (n : Nat)
    (hk : s.call x = some k) (he : (s.record k.handset).enrolled = some e) (ha : e.loc.attachment = some a)
    (ht : TargetTakes s e a c) : ∃ u, rescueTry (n + 1) x c s = beginAttempt x c s.nextTxn u ∧
      TargetTried x c e.hid .rescue s u := by
  obtain ⟨v, u, htry, hv, hu⟩ := tryTarget_admitted (x := x) (role := .rescue) (b := false) he ha ht rfl
  refine ⟨u, ?_, hu⟩
  unfold rescueTry
  rw [hk]
  dsimp only
  rw [htry]
  exact settleVictim_none hv _

theorem beginAttempt_call {x : Channel} {c : CellIx} {n : Txn} {s : State} {k : Call} {d : Time} (hk : s.call x = some k)
    (hp : k.phase = .rescuing none d) :
    (beginAttempt x c n s).call x = some { k with phase := .rescuing (some (⟨c, .rescue, .rescue⟩, n)) d } := by
  unfold beginAttempt
  rw [State.call_modCall, if_pos rfl, hk, Option.map_some, hp]

/-! ### No candidate takes a leg -/

/-- Every one of these cells refuses handset `i`, by the access check or because it is full. -/
def Refusing (i : RecIx) (s : State) (cs : List Candidate) : Prop :=
  ∀ b ∈ cs, ∀ e a, (s.record i).enrolled = some e → e.loc.attachment = some a →
    (∃ v, checkStored s e a b.cell .handover = some v) ∨ (s.cell b.cell).capacity ≤ (s.cell b.cell).occupancy

theorem reserve_full {c : CellIx} {s : State} (hs : (s.cell c).service = .inService)
    (hl : (s.cell c).capacity ≤ (s.cell c).occupancy) : reserve c (s.cell c).capacity s = .error .cellFull := by
  unfold reserve
  dsimp only
  rw [if_pos hs, if_neg (not_lt.2 hl)]

/-- A try that is refused so leaves everything as it was. -/
theorem tryTarget_refused {x : Channel} {i : RecIx} {c : CellIx} {role : Role} {s : State}
    (h : ∀ e a, (s.record i).enrolled = some e → e.loc.attachment = some a →
      (∃ v, checkStored s e a c .handover = some v) ∨ (s.cell c).capacity ≤ (s.cell c).occupancy) :
    ∃ code, tryTarget x i c role false s = .refused code s := by
  unfold tryTarget
  cases he : (s.record i).enrolled with
  | none => exact ⟨_, rfl⟩
  | some e =>
    dsimp only
    cases ha : e.loc.attachment with
    | none => exact ⟨_, rfl⟩
    | some a =>
      dsimp only
      cases hc : checkStored s e a c .handover with
      | some v => exact ⟨_, rfl⟩
      | none =>
        dsimp only
        have hfull := (h e a he ha).resolve_left fun ⟨v, hv⟩ => by
          rw [hc] at hv
          cases hv
        rw [Bool.false_and, if_neg nofun, reserve_full (accessCheck_inService hc).2 hfull]
        exact ⟨_, rfl⟩

/-- The state in which a call without a candidate is dropped: refusals have been counted, and entries removed. -/
structure Exhausted (x : Channel) (k : Call) (s u : State) : Prop where
  only : u = { s with calls := u.calls, device := u.device }
  call : u.call x = some { k with candidates := [] }
  device : u.device = { s.device with refusals := u.device.refusals }

theorem bestCandidate_none {cs : List Candidate} (h : bestCandidate cs = none) : cs = [] := by
  cases cs with
  | nil => rfl
  | cons c cs =>
    unfold bestCandidate at h
    split at h
    · cases h
    · split at h <;> cases h

/-- Where every candidate refuses, the call is dropped. -/
theorem passOn_exhausted {n : Nat} {x : Channel} {s : State} {k : Call} (hk : s.call x = some k)
    (hl : k.candidates.length ≤ n) (hr : Refusing k.handset s k.candidates) :
    ∃ u, passOn (rescueTry n) x s = dropCall x .rescueFailed false u ∧ Exhausted x k s u := by
  induction n generalizing s k with
  | zero =>
    have hc : k.candidates = [] := List.length_eq_zero_iff.1 (Nat.le_zero.1 hl)
    refine ⟨s, ?_, rfl, ?_, rfl⟩
    · unfold passOn
      rw [hk]
      dsimp only
      rw [hc]
      rfl
    · rw [hk, ← hc]
  | succ n ih =>
    cases hb : bestCandidate k.candidates with
    | none =>
      refine ⟨s, ?_, rfl, ?_, rfl⟩
      · unfold passOn
        rw [hk]
        dsimp only
        rw [hb]
      · rw [hk, ← bestCandidate_none hb]
    | some b =>
      have hm := bestCandidate_mem hb
      obtain ⟨code, htry⟩ := tryTarget_refused (x := x) (role := .rescue) (hr b hm)
      have hcall : (dropCandidate x b.cell (countRefusal code s)).call x =
          some { k with candidates := k.candidates.filter fun d => !decide (d.cell = b.cell) } := by
        rw [dropCandidate_call, if_pos rfl]
        exact congrArg (Option.map _) hk
      have hshort : (k.candidates.filter fun d => !decide (d.cell = b.cell)).length < k.candidates.length :=
        List.length_filter_lt_length_iff_exists.2 ⟨b, hm, by simp⟩
      obtain ⟨u, hu, hex⟩ := ih hcall (by dsimp only; omega) fun d hd e a he ha =>
        (hr d (List.mem_filter.1 hd).1 e a he ha).imp_left fun ⟨v, hv⟩ => ⟨v, by
          rw [← hv]
          exact SettingKept.checkStored (s := s) (t := dropCandidate x b.cell (countRefusal code s))
            { SettingKept.refl s with } e a d.cell .handover⟩
      refine ⟨u, ?_, ?_, hex.call, ?_⟩
      · rw [passOn_best hk hb, ← hu]
        unfold rescueTry
        rw [hk]
        dsimp only
        rw [htry]
      · exact hex.only
      · exact hex.device

end Sys2Proof.Machine
end

section
/-! PROOFS. The settlement of a flushed frame (R155), and the statement on the lines of a cell port (R1 to R3, R71, R72, R95). -/
namespace Sys2Proof.Machine

/-! ### A drop in the re-check form, from before the attempt's end -/

theorem dropCall_device {x : Channel} {k : Call} {s : State} (hk : s.call x = some k) (cause : DropCause) (lost : Bool) :
    (dropCall x cause lost s).device.fallbacks = s.device.fallbacks ∧
      (dropCall x cause lost s).device.drops = s.device.drops.bump cause := by
  have he := endCall_ended x k lost cause.form (s.count fun d => { d with drops := d.drops.bump cause })
  rw [dropCall_eq hk, reply_drops, reply_eq, he.device]
  exact ⟨rfl, rfl⟩

theorem dropCall_released {x : Channel} {k : Call} {s u : State} {cause : DropCause} (hk : u.call x = some k)
    (hf : cause.form = .recheck) (lost : Bool) (hs : SettingKept s u) (hr : ∀ i, u.record i = s.record i)
    (hp : ∀ p, (u.port p).ctl.length ≤ (s.port p).ctl.length + 1) :
    HandsetReleased k.handset s (dropCall x cause lost u) := by
  have h := endCall_recheck_from (u := u.count fun d => { d with drops := d.drops.bump cause }) x k lost
    { hs with } hr hp
  rw [dropCall_eq hk, hf]
  exact h.congr (reply_records (.callDrop x cause) _) (reply_ports (.callDrop x cause) _)

/-! ### An attempt that fails passes on (R122, R133) -/

theorem nextCandidate_eq (x : Channel) (s : State) : nextCandidate x s = passOn (rescueTry (1023 + 1)) x s := rfl

theorem attempt_next {x : Channel} {k : Call} {c : CellIx} {d : Time} {s u t : State} {b : Candidate} {e : Enrolled}
    {a : Attachment} (h : AttemptLeft x k c d s u) (ht : t = nextCandidate x u)
    (hb : bestCandidate (without c k.candidates) = some b) (he : (s.record k.handset).enrolled = some e)
    (ha : e.loc.attachment = some a) (htake : TargetTakes s e a b.cell)
    (hroom : (∀ f g, (s.cell c).service = .draining f g → 1 < (s.cell c).occupancy) ∨
      (s.port (portOf b.cell)).ctl.length < 23) :
    ∃ m, t.call x = some { k with
        candidates := without c k.candidates, phase := .rescuing (some (⟨b.cell, .rescue, .rescue⟩, m)) d } ∧
      ⟨m, x, b.cell, inMs s.config.legTime s, false⟩ ∈ t.answers ∧ OpenSent b.cell m x e.hid .rescue t ∧
      (t.cell b.cell).occupancy = (s.cell b.cell).occupancy + 1 ∧ (t.cell c).occupancy = (s.cell c).occupancy - 1 ∧
      t.device.fallbacks = s.device.fallbacks ∧ t.device.drops = s.device.drops := by
  have hbc : b.cell ≠ c := without_ne (bestCandidate_mem hb)
  obtain ⟨v, htry, honly, hocc, hans, -, hwaits⟩ := rescueTry_admitted (x := x) (c := b.cell) (s := u)
    (k := { k with phase := .rescuing none d, candidates := without c k.candidates }) 1023 h.call
    (by rw [h.records]; exact he) ha (h.takes hbc htake hroom)
  rw [nextCandidate_eq, passOn_best h.call hb, htry] at ht
  have hcall := beginAttempt_call (c := b.cell) (n := u.nextTxn) ((State.call_congr honly.calls x).trans h.call) rfl
  have hdevice : v.device = s.device := by
    unfold RadioOnly at honly
    rw [honly]
    exact h.device
  rw [← ht] at hcall
  refine ⟨u.nextTxn, hcall, ?_, ?_, ?_, ?_, ?_, ?_⟩
  · rw [ht]
    change _ ∈ v.answers
    rw [hans]
    refine List.mem_append_right _ (List.mem_singleton.2 ?_)
    unfold inMs
    rw [h.setting.now, h.setting.config]
  · rw [ht]
    exact .inl hwaits
  · rw [ht, ← h.occupancy_ne hbc]
    exact (hocc b.cell).trans (by rw [if_pos rfl])
  · rw [ht, ← h.occupancy_same]
    exact (hocc c).trans (by rw [if_neg (Ne.symm hbc)]; rfl)
  · rw [ht]
    exact congrArg DeviceCounters.fallbacks hdevice
  · rw [ht]
    exact congrArg DeviceCounters.drops hdevice

theorem attempt_ended {x : Channel} {k : Call} {c : CellIx} {d : Time} {s u t : State} (h : AttemptLeft x k c d s u)
    (hk : k.Ok) (ht : t = nextCandidate x u)
    (hr : ∀ b ∈ without c k.candidates, ∀ e a, (s.record k.handset).enrolled = some e → e.loc.attachment = some a →
      (∃ v, checkStored s e a b.cell .handover = some v) ∨ (s.cell b.cell).capacity ≤ (s.cell b.cell).occupancy) :
    t.call x = none ∧ (t.cell c).occupancy = (s.cell c).occupancy - 1 ∧ t.device.fallbacks = s.device.fallbacks ∧
      t.device.drops = s.device.drops.bump .rescueFailed ∧ HandsetReleased k.handset s t := by
  have hrefuse : Refusing k.handset u (without c k.candidates) := fun b hb e a he ha => by
    rw [h.records] at he
    refine (hr b hb e a he ha).imp (fun ⟨v, hv⟩ => ⟨v, by rw [h.setting.checkStored]; exact hv⟩) fun hl => ?_
    rw [h.setting.capacity, h.occupancy_ne (without_ne hb)]
    exact hl
  have hlen : (without c k.candidates).length ≤ 1023 + 1 :=
    (List.length_filter_le _ _).trans (hk.list.size.trans (by decide))
  obtain ⟨w, hw, honly, hcall, hdevice⟩ := passOn_exhausted (s := u)
    (k := { k with phase := .rescuing none d, candidates := without c k.candidates }) h.call hlen hrefuse
  rw [nextCandidate_eq, hw] at ht
  obtain ⟨hfall, hdrops⟩ := dropCall_device hcall .rescueFailed false
  have hslots := dropCall_slots hcall .rescueFailed false c
  have hset : SettingKept s w := by
    have := h.setting
    rw [honly]
    exact { this with }
  have hrel := dropCall_released (cause := .rescueFailed) hcall rfl false hset
    (fun i => by rw [honly]; exact h.records i) fun p => by rw [honly]; exact h.lengths p
  rw [ht]
  refine ⟨dropCall_call .., ?_, ?_, ?_, hrel⟩
  · rw [hslots, ← h.occupancy_same, honly]
    rfl
  · rw [hfall, hdevice]
    change u.device.fallbacks = _
    rw [h.device]
  · rw [hdrops, hdevice]
    change u.device.drops.bump .rescueFailed = _
    rw [h.device]

/-! ### The delivery of a FAIL in each phase -/

section
variable {f : Channel → State → State} {x : Channel} {k : Call} {n : Txn} {s : State}

theorem deliverFail_opening {c : CellIx} (hk : s.call x = some k) (hp : k.phase = .opening c n) (cause : FailCause) :
    deliverFail f x n cause s = failedOpen x k c cause s := by
  unfold deliverFail
  rw [hk]
  dsimp only
  rw [hp]
  exact if_pos rfl

theorem deliverFail_preparing {l : Leg} {g : Option Time} {r : Target} (hk : s.call x = some k)
    (hp : k.phase = .preparing l g r n) (cause : FailCause) :
    deliverFail f x n cause s = fallback x k l r.cell .gone s := by
  unfold deliverFail
  rw [hk]
  dsimp only
  rw [hp]
  exact if_pos rfl

theorem deliverFail_rescuing {r : Target} {d : Time} (hk : s.call x = some k) (hp : k.phase = .rescuing (some (r, n)) d)
    (cause : FailCause) : deliverFail f x n cause s = f x (endAttempt x k r.cell d s) := by
  unfold deliverFail
  rw [hk]
  dsimp only
  rw [hp]
  exact if_pos rfl

end

/-! ### An open that resolves as FAIL without an answer -/

/-- An attempt whose entry is freed passes on, and neither the entry nor its cancelled form comes back. -/
theorem attempt_passed {x : Channel} {k : Call} {n : Txn} {r : Target} {d : Time} {a : Answer} {s t : State} (hs : s.Inv)
    (ha : s.answerOf n = some a) (hk : s.call x = some k)
    (ht : t = nextCandidate x (endAttempt x k r.cell d (freeAnswer a s))) :
    AttemptPassed x k r.cell n d s t ∧ { a with cancelled := true } ∉ t.answers := by
  have htxn := answerOf_txn ha
  have hleft := endAttempt_left hk a r.cell d
  have hchain : PassedFrom (s.answers.filter fun b => b.txn ≠ n) x r.cell t := by
    rw [ht]
    refine PassedFrom.nextCandidate ⟨fun j hj b hb => ?_, fun b hb => .inl ?_⟩ fun j hj => ?_
    · rw [hleft.call] at hj
      cases hj
      exact without_ne hb
    · rwa [endAttempt_answers, freeAnswer_answers, htxn] at hb
    · rw [hleft.call] at hj
      cases hj
      rfl
  have hfreed : ∀ b, b.txn = n → b ∉ s.answers.filter fun b => b.txn ≠ n := fun b hb hm =>
    of_decide_eq_true (List.mem_filter.1 hm).2 hb
  refine ⟨⟨fun b hb _ hch hcell hm => ?_, fun b e at' hb he hat htake hroom =>
    attempt_next hleft ht hb he hat htake hroom, attempt_ended hleft (hs.contexts x k hk) ht⟩, fun hm => ?_⟩
  · exact (hchain.answers b hm).elim (hfreed b (answerOf_txn hb)) fun ⟨_, hno⟩ => hno ⟨hch, hcell⟩
  · exact (hchain.answers _ hm).elim (hfreed _ htxn) fun ⟨hf, _⟩ => nomatch hf

theorem resolveFail_resolved {n : Txn} {a : Answer} {cause : FailCause} {s t : State} (hs : s.Inv)
    (ha : s.answerOf n = some a) (hc : cause ≠ .timeout) (ht : t = resolveFail nextCandidate a cause s) :
    OpenResolved n cause s t := by
  have htxn := answerOf_txn ha
  refine ⟨fun hn => ?_, fun b hb => ?_⟩
  · rw [ha] at hn
    cases hn
  · obtain rfl : a = b := Option.some.inj (ha.symm.trans hb)
    unfold resolveFail at ht
    refine ⟨fun hcan => by rw [ht, if_pos hcan], fun hcan k hk => ?_⟩
    rw [if_neg (by rw [hcan]; nofun), htxn] at ht
    have hanswers : (freeAnswer a s).answers = s.answers.filter fun b => b.txn ≠ n := by rw [freeAnswer_answers, htxn]
    refine ⟨fun d hp => ?_, fun l g r hp => ?_, fun r d hp => ?_⟩
    · rw [ht, deliverFail_opening (s := freeAnswer a s) hk hp]
      exact ⟨freeAnswer_failed (failedOpen_failed d hc), (failedOpen_answers _ _ _ _ _).trans hanswers⟩
    · rw [ht, deliverFail_preparing (s := freeAnswer a s) hk hp]
      exact ⟨freeAnswer_fellBack (fallback_fellBack a.channel k l r.cell .gone (freeAnswer a s)),
        ((fallback_answers a.channel k l r.cell .gone (freeAnswer a s)).trans
          (releaseSlot_answers r.cell (freeAnswer a s))).trans hanswers⟩
    · exact attempt_passed hs ha hk (ht.trans (deliverFail_rescuing (s := freeAnswer a s) hk hp _))

/-! ### The settlement of a flushed frame (R155) -/

theorem flushFrame_open {c : CellIx} {n : Txn} {x : Channel} {h : Hid} {role : Role} {s t : State} (hs : s.Inv)
    (ht : t = flushFrame s (.legOpen c n x h role)) : OpenResolved n .linkDown s t := by
  cases ha : s.answerOf n with
  | none =>
    have : flushFrame s (.legOpen c n x h role) = s := by
      unfold flushFrame
      dsimp only
      rw [ha]
    rw [this] at ht
    exact ⟨fun _ => ht, fun a hb => by rw [ha] at hb; cases hb⟩
  | some a =>
    refine resolveFail_resolved hs ha nofun (ht.trans ?_)
    unfold flushFrame
    dsimp only
    rw [ha]

theorem flushFrame_hoCmd {c d : CellIx} {n : Txn} {x : Channel} {h : Hid} {sl : Slot} {s : State} {k : Call} {l : Leg}
    {g : Option Time} {r : Target} {slot : Slot} {dl : Time} (hk : s.call x = some k)
    (hp : k.phase = .bridging l g r slot dl) :
    flushFrame s (.hoCmd c n x h d sl) = fallback x k l r.cell .close s := by
  unfold flushFrame
  dsimp only
  rw [hk]
  dsimp only
  rw [hp]

theorem flushFrame_hoCmd_other {c d : CellIx} {n : Txn} {x : Channel} {h : Hid} {sl : Slot} {s : State}
    (hn : ∀ k l g r slot dl, s.call x = some k → k.phase ≠ .bridging l g r slot dl) :
    flushFrame s (.hoCmd c n x h d sl) = s := by
  unfold flushFrame
  dsimp only
  split
  · rfl
  · next k hk =>
    split
    · next l g r slot dl hp => exact absurd hp (hn k l g r slot dl hk)
    all_goals rfl

/-- What becomes of a flushed frame. -/
theorem flushFrame_settled {f : CtlFrame} {s t : State} (hs : s.Inv) (ht : t = flushFrame s f) :
    (f.openTxn = none → f.hoChannel = none → t = s) ∧ (∀ n, f.openTxn = some n → OpenResolved n .linkDown s t) ∧
    ∀ x, f.hoChannel = some x →
      ((∀ k l g r sl d, s.call x = some k → k.phase ≠ .bridging l g r sl d) → t = s) ∧
      ∀ k l g r sl d, s.call x = some k → k.phase = .bridging l g r sl d → FellBack x k l r.cell [r.cell] s t := by
  cases f with
  | legOpen c n x h role =>
    refine ⟨nofun, fun m hm => ?_, nofun⟩
    cases hm
    exact flushFrame_open hs ht
  | hoCmd c n x h d sl =>
    refine ⟨nofun, nofun, fun y hy => ?_⟩
    cases hy
    refine ⟨fun hn => ht.trans (flushFrame_hoCmd_other hn), fun k l g r slot dl hk hp => ?_⟩
    rw [ht, flushFrame_hoCmd hk hp]
    exact fallback_fellBack x k l r.cell .close s
  | _ => exact ⟨fun _ _ => ht, nofun, nofun⟩

/-- Settles O9. -/
theorem cellPortLineEvents : Obligations.CellPortLineEvents := by
  refine ⟨fun p s => ⟨fun hu => ?_, fun hd => ?_⟩, fun p s => ⟨exec_cellPortLineDown_down, fun hu => ?_⟩,
    fun f s t hs ht => flushFrame_settled hs ht⟩
  · exact congrArg Host.Outcome.next (event_eq_quiet (cellLineUp_up hu) (Quiet.refl s))
  · obtain ⟨t, hx, h1, h2, h3, h4⟩ := runs_cellLineUp hd
    exact ⟨t, hx, h1, h2, h3, h4⟩
  · have h := lineDown_steps p s
    refine ⟨_, exec_cellPortLineDown_up hu, ⟨flushPort p s, _, rfl, eachContext_events _ _, rfl⟩, ?_⟩
    generalize takes s (eachContext (lossAtContext (lostAtDown p s) .linkDown) (cellLineDown p s)) = t at h
    have h1 := h.flushed.setting
    have h2 := h.followed.setting
    exact ⟨h.port, fun q hq => h.links hq, fun c hc => h.down hc, fun c hc => h.service hc, h.stored,
      fun i hi => (h2.subscribers i hi).trans (h1.subscribers i hi), h2.now.trans h1.now, h2.filters.trans h1.filters,
      h2.zones.trans h1.zones, h2.gates.trans h1.gates, h2.config.trans h1.config, h.counters, h2.pending.trans h1.pending,
      h2.mgmtNow.trans h1.mgmtNow, h2.mgmtMuted.trans h1.mgmtMuted, h2.mgmtIn.trans h1.mgmtIn,
      h2.trunkLink.trans h1.trunkLink⟩

end Sys2Proof.Machine
end

section
/-! PROOFS. What the ordinary commands may change: each is a chain of elementary changes, so it keeps the setting. -/

namespace Sys2Proof.Machine

/-! ### Ordinary commands -/

/-- A command that is one event of elementary changes. -/
theorem Moves.event_raws {f : State → State} {s t : State} (h : Moves (fun _ => False) s (f s))
    (ht : (.next (event f s) : Host.Outcome State Fault Refusal) = .next t) : Raws s t :=
  Host.Outcome.next.inj ht ▸ (event_steps h).raws

/-- The contexts' events of a cell loss are elementary changes. -/
theorem losses_raws (lost : CellIx → Bool) (cause : LossCause) (s : State) :
    Raws s (eachContext (lossAtContext lost cause) s) :=
  (eachContext_steps (fun x s => lossAtContext_moves lost cause x s) s).raws

theorem exec_drain_raws {c : CellIx} {s t : State} (h : exec (.drainDeadlineExpiry c) s = .next t) : Raws s t := by
  cases hd : drainDue c s with
  | none =>
    simp only [exec, execDrainDeadlineExpiry, hd, Host.Outcome.next.injEq] at h
    exact h ▸ .refl
  | some f =>
    simp only [exec, execDrainDeadlineExpiry, hd, Host.Outcome.next.injEq] at h
    have he : Raws s (event (enterFollowOn c f) s) :=
      (event_steps (enterFollowOn_moves c f s (drainDue_draining hd))).raws
    exact h ▸ he.trans (losses_raws _ _ _)

/-- An ordinary command is a chain of elementary changes. -/
theorem exec_ordinary_raws {c : Instr} {s t : State} (ho : ordinary c = true) (h : exec c s = .next t) : Raws s t := by
  cases c with
  | attachReq c hid cl q => exact (rxAttach_moves c hid cl q s).event_raws h
  | detachInd c hid => exact (rxDetach_moves c hid s).event_raws h
  | presence c hid q => exact (rxPresence_moves c hid q s).event_raws h
  | callReq c hid => exact (rxCallReq_moves c hid s).event_raws h
  | measRep c hid ch qs ps => exact (rxMeas_moves c hid ch qs ps s).event_raws h
  | legAck c n ch o a => exact (rxLegAck_moves c n ch o a s).event_raws h
  | legLost c ch cause => exact (rxLegLost_moves c ch cause s).event_raws h
  | pageRsp c hid q => exact (rxPageRsp_moves c hid q s).event_raws h
  | voxUplink c ch sq p => exact (rxVoxUp_moves c ch sq p s).event_raws h
  | voxDownlink ch sq p => exact (rxVoxDown_moves ch sq p s).event_raws h
  | callOpen ch hid p => exact (rxCallOpen_moves ch hid p s).event_raws h
  | callClear ch => exact (rxCallClear_moves ch s).event_raws h
  | pageReq hid n => exact (rxPageReq_moves hid n s).event_raws h
  | presenceDeadlineExpiry i => exact (presenceExpiry_moves i s).event_raws h
  | guardDeadlineExpiry x => exact (guardExpiry_moves x s).event_raws h
  | bridgeDeadlineExpiry x => exact (bridgeExpiry_moves x s).event_raws h
  | rescueDeadlineExpiry x => exact (rescueExpiry_moves x s).event_raws h
  | pendingDeadlineExpiry n => exact (pendingExpiry_moves n s).event_raws h
  | drainDeadlineExpiry c => exact exec_drain_raws h
  | pageOccasion e => exact (pageDue_moves e s).event_raws h
  | cellPortTransmitComplete p => exact (completeCellTx_moves p s).event_raws h
  | trunkTransmitComplete => exact (completeTrunkTx_moves s).event_raws h
  | sweepStep => exact (stepSweep_moves s).event_raws h
  | hrqTake => exact Host.Outcome.next.inj h ▸ (event_of_steps (takeIfRoom_steps s)).raws
  | waitingForRoomPost => exact (offerPlace_moves s).event_raws h
  | noticeRefill => exact (refill_moves s).event_raws h
  | _ => cases ho

/-- Settles O5: an ordinary command is a chain of elementary changes, and each of those keeps the setting. -/
theorem ordinaryCommandsKeepSetting : Obligations.OrdinaryCommandsKeepSetting :=
  fun _ _ _ ho h => (exec_ordinary_raws ho h).setting

end Sys2Proof.Machine
end

section
/-! PROOFS. The notice queue and the page list (R39, R171): every elementary change keeps their agreement, and with it every
step keeps the agreement of the notice queue with the records and with the settled page outcomes. -/

namespace Sys2Proof.Machine

/-! ### The settled outcome of a page entry -/

/-- Whether the outcome of a page entry is queued; `none` while none is settled. -/
def State.outcome (s : State) (e : PageIx) : Option Bool :=
  match s.page e with
  | none => none
  | some p =>
    match p.status with
    | .paging .. => none
    | .settled _ queued => some queued

theorem State.outcome_eq_some {s : State} {e : PageIx} {b : Bool} :
    s.outcome e = some b ↔ ∃ p o, s.page e = some p ∧ p.status = .settled o b := by
  unfold State.outcome
  constructor
  · intro h
    split at h
    · cases h
    · next p hp =>
      split at h
      · cases h
      · next o q hs => cases h; exact ⟨p, o, hp, hs⟩
  · rintro ⟨p, o, hp, hs⟩
    rw [hp]
    dsimp only
    rw [hs]

theorem State.outcome_of_page {s t : State} {e f : PageIx} (h : t.page e = s.page f) : t.outcome e = s.outcome f := by
  unfold State.outcome
  rw [h]

theorem State.outcome_idle {s : State} {e : PageIx} (h : s.page e = none) : s.outcome e = none := by
  unfold State.outcome
  rw [h]

/-- An entry that is free or in PAGING has no settled outcome. -/
theorem State.Unsettled.outcome {s : State} {e : PageIx} (h : s.Unsettled e) : s.outcome e = none := by
  cases ho : s.outcome e with
  | none => rfl
  | some b =>
    obtain ⟨p, o, hp, hs⟩ := State.outcome_eq_some.1 ho
    have := h p hp
    simp [PageEntry.paging, hs] at this

theorem State.outcome_setPage (s : State) (e f : PageIx) (v : Option PageEntry) :
    (s.setPage e v).outcome f = if f = e then (s.setPage e v).outcome e else s.outcome f := by
  by_cases hf : f = e
  · rw [if_pos hf, hf]
  · rw [if_neg hf]
    exact State.outcome_of_page (State.page_setPage_ne _ hf _)

theorem State.outcome_setPage_settled (s : State) (e : PageIx) (p : PageEntry) (o : PageOutcome) (b : Bool) :
    (s.setPage e (some { p with status := .settled o b })).outcome e = some b :=
  State.outcome_eq_some.2 ⟨_, o, State.page_setPage_self _ _ _, rfl⟩

/-- The agreement of the notice queue and the page list, in terms of the settled outcomes. -/
theorem State.outcomesOk_iff {s : State} : s.OutcomesOk ↔
    (∀ e, s.outcome e = some true ↔ Notice.pageOutcome e ∈ s.notices) ∧ (∀ e, s.notices.count (.pageOutcome e) ≤ 1) ∧
      (s.notices.length < Config.noticeCapacity → ∀ e, s.outcome e ≠ some false) := by
  constructor
  · intro h
    refine ⟨fun e => State.outcome_eq_some.trans (h.flagged e), h.once, fun hl e he => ?_⟩
    obtain ⟨p, o, hp, hs⟩ := State.outcome_eq_some.1 he
    exact h.waiting hl e p o hp hs
  · rintro ⟨hf, ho, hw⟩
    exact ⟨fun e => State.outcome_eq_some.symm.trans (hf e), ho,
      fun hl e p o hp hs => hw hl e (State.outcome_eq_some.2 ⟨p, o, hp, hs⟩)⟩

/-! ### What keeps the agreement -/

theorem State.OutcomesOk.same {s t : State} (h : s.OutcomesOk) (hn : t.notices = s.notices)
    (hp : ∀ e, t.outcome e = s.outcome e) : t.OutcomesOk := by
  rw [State.outcomesOk_iff] at h ⊢
  simpa only [hn, hp] using h

/-- Another notice joins the queue. -/
theorem State.OutcomesOk.push {s t : State} (h : s.OutcomesOk) (m : Notice) (hm : ∀ e, m ≠ .pageOutcome e)
    (hn : t.notices = s.notices ++ [m]) (hp : ∀ e, t.outcome e = s.outcome e) : t.OutcomesOk := by
  rw [State.outcomesOk_iff] at h ⊢
  obtain ⟨hf, ho, hw⟩ := h
  have hne : ∀ e, ¬ Notice.pageOutcome e = m := fun e k => hm e k.symm
  refine ⟨fun e => ?_, fun e => ?_, fun hl e => ?_⟩
  · rw [hp, hf, hn]
    simp [hne e]
  · rw [hn, List.count_append, List.count_singleton, if_neg (by simpa using hm e)]
    exact ho e
  · rw [hp]
    rw [hn, List.length_append] at hl
    exact hw (by omega) e

/-- The notice of a settled outcome that was not queued joins the queue. -/
theorem outcomes_pushed {s t : State} {e : PageIx}
    (hf : ∀ f, s.outcome f = some true ↔ Notice.pageOutcome f ∈ s.notices)
    (ho : ∀ f, s.notices.count (.pageOutcome f) ≤ 1) (he : s.outcome e ≠ some true)
    (hn : t.notices = s.notices ++ [.pageOutcome e]) (hq : t.outcome e = some true)
    (hp : ∀ f, f ≠ e → t.outcome f = s.outcome f)
    (hw : t.notices.length < Config.noticeCapacity → ∀ f, f ≠ e → s.outcome f ≠ some false) : t.OutcomesOk := by
  have hnot : Notice.pageOutcome e ∉ s.notices := fun k => he ((hf e).2 k)
  rw [State.outcomesOk_iff]
  refine ⟨fun f => ?_, fun f => ?_, fun hl f => ?_⟩
  · by_cases h : f = e
    · subst h; simp [hq, hn]
    · rw [hp f h, hf, hn]; simp [h]
  · rw [hn, List.count_append, List.count_singleton]
    by_cases h : f = e
    · subst h; rw [List.count_eq_zero.2 hnot]; split <;> omega
    · rw [if_neg (by simpa using fun k => h (Eq.symm k))]; exact ho f
  · by_cases h : f = e
    · subst h; simp [hq]
    · rw [hp f h]; exact hw hl f h

theorem waitingOutcome_some {s : State} {e : PageIx} (h : waitingOutcome s = some e) :
    ∃ p o, s.page e = some p ∧ p.status = .settled o false := by
  have hp := List.find?_some h
  split at hp
  · cases hp
  · next p hpage =>
    split at hp
    · cases hp
    · next o q hs =>
      cases q
      · exact ⟨p, o, hpage, hs⟩
      · cases hp

theorem waitingOutcome_none {s : State} (h : waitingOutcome s = none) (e : PageIx) : s.outcome e ≠ some false := by
  intro he
  obtain ⟨p, o, hp, hs⟩ := State.outcome_eq_some.1 he
  have := List.find?_eq_none.1 h e (mem_allIndices 16 e)
  simp [hp, hs] at this

theorem markOutcomeQueued_eq {s : State} {e : PageIx} {p : PageEntry} {o : PageOutcome} (hp : s.page e = some p)
    (hs : p.status = .settled o false) :
    markOutcomeQueued e s = s.setPage e (some { p with status := .settled o true }) := by
  unfold markOutcomeQueued
  rw [hp]
  dsimp only
  rw [hs]

/-- The refill of the one place that is free, or of none (R39): the outcomes that waited for it are served first. -/
theorem refill_outcomes {s : State} (hf : ∀ e, s.outcome e = some true ↔ Notice.pageOutcome e ∈ s.notices)
    (ho : ∀ e, s.notices.count (.pageOutcome e) ≤ 1)
    (hw : s.notices.length + 1 < Config.noticeCapacity → ∀ e, s.outcome e ≠ some false) : (refill s).OutcomesOk := by
  unfold refill
  split
  · split
    · next e he =>
      obtain ⟨p, o, hp, hs⟩ := waitingOutcome_some he
      rw [markOutcomeQueued_eq hp hs]
      have hnow : s.outcome e = some false := State.outcome_eq_some.2 ⟨p, o, hp, hs⟩
      refine outcomes_pushed hf ho (by rw [hnow]; nofun) rfl (State.outcome_setPage_settled s e p o true)
        (fun f hne => State.outcome_of_page (State.page_setPage_ne s hne _)) fun hl f _ => hw ?_ f
      exact lt_of_eq_of_lt (List.length_append (bs := [Notice.pageOutcome e])).symm hl
    · next hn =>
      have hnone : s.OutcomesOk := State.outcomesOk_iff.2 ⟨hf, ho, fun _ => waitingOutcome_none hn⟩
      split
      · exact hnone.push _ (by simp) rfl fun _ => rfl
      · exact hnone
  · next hr =>
    have hfull : ¬ s.notices.length < Config.noticeCapacity := fun h => hr (decide_eq_true h)
    exact State.outcomesOk_iff.2 ⟨hf, ho, fun hl => absurd hl hfull⟩

/-- The notice at the head leaves, its entry is freed where it is a page outcome, and its place is refilled. -/
theorem sendNotice_outcomes {s : State} (h : s.OutcomesOk) : (sendNotice s).OutcomesOk := by
  cases hn : s.notices with
  | nil => rwa [sendNotice_none hn]
  | cons n ns =>
    obtain ⟨hf, ho, hw⟩ := State.outcomesOk_iff.1 h
    have hcount : ∀ e, ns.count (.pageOutcome e) + (if n = .pageOutcome e then 1 else 0) ≤ 1 := fun e => by
      have := ho e
      rw [hn, List.count_cons] at this
      simpa [beq_iff_eq] using this
    rw [sendNotice_cons hn]
    have hroom : ns.length + 1 < Config.noticeCapacity → ∀ e, s.outcome e ≠ some false := fun hl =>
      hw (by rwa [hn, List.length_cons])
    cases n with
    | pageOutcome e =>
      have hq : s.outcome e = some true := (hf e).2 (by simp [hn])
      obtain ⟨p, o, hp, hs⟩ := State.outcome_eq_some.1 hq
      have hout : Notice.pageOutcome e ∉ ns := List.count_eq_zero.1 (by have := hcount e; simp at this; omega)
      rw [buildNotice_settled (s := { s with notices := ns }) hp hs]
      have hpage : ∀ f, State.outcome { ({ s with notices := ns } : State).setPage e none with
          trunk := { s.trunk with tx := some (.notice (.pageOutcome p.hid (some e) (some o) p.repeatFlag) s.now) } } f =
          if f = e then none else s.outcome f := fun f => by
        by_cases hfe : f = e
        · rw [if_pos hfe, hfe]
          exact State.outcome_idle (State.page_setPage_self _ e none)
        · rw [if_neg hfe]
          exact State.outcome_of_page (State.page_setPage_ne { s with notices := ns } hfe none)
      refine refill_outcomes (fun f => ?_) (fun f => ?_) fun hl f => ?_
      · refine Iff.trans (by rw [← hpage f]; rfl) (?_ : (if f = e then none else s.outcome f) = some true ↔ _ ∈ ns)
        by_cases hfe : f = e
        · subst hfe; simp [hout]
        · rw [if_neg hfe, hf, hn]; simp [hfe]
      · exact le_trans (Nat.le_add_right _ _) (hcount f)
      · refine fun k => ?_
        have k : (if f = e then none else s.outcome f) = some false := (hpage f).symm.trans k
        split at k
        · cases k
        · exact hroom hl f k
    | location i =>
      refine refill_outcomes (fun f => ?_) (fun f => le_trans (Nat.le_add_right _ _) (hcount f)) hroom
      exact (hf f).trans (by simp [hn, buildNotice])
    | callReq a i c =>
      refine refill_outcomes (fun f => ?_) (fun f => le_trans (Nat.le_add_right _ _) (hcount f)) hroom
      exact (hf f).trans (by simp [hn, buildNotice])
    | immediate a o =>
      refine refill_outcomes (fun f => ?_) (fun f => le_trans (Nat.le_add_right _ _) (hcount f)) hroom
      exact (hf f).trans (by simp [hn, buildNotice])

/-- An outcome settled on an entry that had none is queued, or waits while the queue is full. -/
theorem settlePage_outcomes {s : State} {e : PageIx} (o : PageOutcome) (h : s.OutcomesOk) (hu : s.Unsettled e) :
    (settlePage e o s).OutcomesOk := by
  obtain ⟨hf, ho, hw⟩ := State.outcomesOk_iff.1 h
  have hne : ∀ v, ∀ f, f ≠ e → (s.setPage e v).outcome f = s.outcome f := fun v f hfe =>
    State.outcome_of_page (State.page_setPage_ne s hfe v)
  rcases settlePage_cases e o s with k | ⟨p, hp, ⟨hl, k⟩ | ⟨hl, k⟩⟩ <;> rw [k]
  · exact h
  · exact outcomes_pushed hf ho (by rw [hu.outcome]; nofun) rfl (State.outcome_setPage_settled s e p o true) (hne _)
      fun _ f _ => hw hl f
  · refine State.outcomesOk_iff.2 ⟨fun f => ?_, ho, fun hlt => absurd (show s.notices.length < _ from hlt) (not_lt.2 hl)⟩
    by_cases hfe : f = e
    · subst hfe
      rw [State.outcome_setPage_settled]
      have hnot : Notice.pageOutcome f ∉ s.notices := fun k => by have := (hf f).2 k; rw [hu.outcome] at this; cases this
      simp [hnot]
    · rw [hne _ f hfe]; exact hf f

/-- Each elementary change keeps the agreement of the notice queue and the page list. -/
theorem Raw.outcomes {s t : State} (k : Raw s t) (h : s.OutcomesOk) : t.OutcomesOk := by
  cases k with
  | mark i =>
    rcases markDirty_cases i s with ⟨_, _, he⟩ | ⟨_, he⟩ <;> rw [he]
    · exact h.push (.location i) (by simp) rfl fun _ => rfl
    · exact h.same rfl fun _ => rfl
  | push n hr hn hp => exact h.push n hp rfl fun _ => rfl
  | send => exact sendNotice_outcomes h
  | refill =>
    obtain ⟨hf, ho, hw⟩ := State.outcomesOk_iff.1 h
    exact refill_outcomes hf ho fun hl => hw (by omega)
  | page e v hu hv =>
    have hnow : s.outcome e = none := State.Unsettled.outcome hu
    have hset : (s.setPage e v).outcome e = none :=
      State.Unsettled.outcome fun p hp => hv p (by rwa [State.page_setPage_self] at hp)
    refine h.same rfl fun f => ?_
    rw [State.outcome_setPage, hset, ← hnow]
    split
    · next hfe => rw [hfe]
    · rfl
  | settle e o hu => exact settlePage_outcomes o h hu
  | _ => exact h.same rfl fun _ => rfl

theorem Raws.outcomes {s t : State} (k : Raws s t) (h : s.OutcomesOk) : t.OutcomesOk := by
  induction k with
  | refl => exact h
  | tail _ k ih => exact k.outcomes ih

end Sys2Proof.Machine
end

section
/-! PROOFS. The commands outside the ordinary ones and the notice queue (R36, R39, R171): what management writes leaves the
notices, the flags of the records and the page list alone, and the rest is a chain of elementary changes. -/

namespace Sys2Proof.Machine

/-! ### The two agreements together -/

/-- A change keeps the agreement of the notice queue with the records, and with the page list. -/
structure NoticesKept (s t : State) : Prop where
  records : s.NoticesOk → t.NoticesOk
  outcomes : s.OutcomesOk → t.OutcomesOk

theorem NoticesKept.refl (s : State) : NoticesKept s s := ⟨id, id⟩

theorem NoticesKept.trans {s t u : State} (h : NoticesKept s t) (k : NoticesKept t u) : NoticesKept s u :=
  ⟨k.records ∘ h.records, k.outcomes ∘ h.outcomes⟩

theorem Raws.noticesKept {s t : State} (h : Raws s t) : NoticesKept s t := ⟨h.notices, h.outcomes⟩

theorem Moves.noticesKept {s t : State} (h : Moves (fun _ => False) s t) : NoticesKept s t := h.raws.noticesKept

theorem NoticesKept.foldl {α : Type} (f : State → α → State) (h : ∀ s a, NoticesKept s (f s a)) (l : List α) (s : State) :
    NoticesKept s (l.foldl f s) := by
  induction l generalizing s with
  | nil => exact .refl _
  | cons a l ih => exact (h s a).trans (ih _)

/-- A change that leaves the notice queue, the flags of every record and the page list alone. -/
structure FlagsKept (s t : State) : Prop where
  notices : t.notices = s.notices
  pages : t.pages = s.pages
  flags : ∀ i, (t.record i).dirty = (s.record i).dirty ∧ (t.record i).queued = (s.record i).queued

theorem FlagsKept.refl (s : State) : FlagsKept s s := ⟨rfl, rfl, fun _ => ⟨rfl, rfl⟩⟩

theorem FlagsKept.trans {s t u : State} (h : FlagsKept s t) (k : FlagsKept t u) : FlagsKept s u :=
  ⟨k.notices.trans h.notices, k.pages.trans h.pages,
    fun i => ⟨(k.flags i).1.trans (h.flags i).1, (k.flags i).2.trans (h.flags i).2⟩⟩

theorem FlagsKept.noticesKept {s t : State} (h : FlagsKept s t) : NoticesKept s t where
  records := fun k => k.same h.notices h.flags
  outcomes := fun k => k.same h.notices fun e => State.outcome_of_page (by unfold State.page; rw [h.pages])

/-- A change of other parts of the state. -/
theorem FlagsKept.other {s t : State} (hr : t.records = s.records := by rfl) (hn : t.notices = s.notices := by rfl)
    (hp : t.pages = s.pages := by rfl) : FlagsKept s t :=
  ⟨hn, hp, fun i => by unfold State.record; rw [hr]; exact ⟨rfl, rfl⟩⟩

theorem FlagsKept.setRecord {s : State} {i : RecIx} {v : Record} (hd : v.dirty = (s.record i).dirty)
    (hq : v.queued = (s.record i).queued) : FlagsKept s (s.setRecord i v) := by
  refine ⟨rfl, rfl, fun j => ?_⟩
  rw [State.record_setRecord]
  split
  · next h => rw [h]; exact ⟨hd, hq⟩
  · exact ⟨rfl, rfl⟩

/-! ### Events -/

theorem event_noticesKept {f : State → State} {s : State} (h : NoticesKept s (f s)) : NoticesKept s (event f s) :=
  (h.trans (finish_moves s _).noticesKept).trans (takes_steps s _).raws.noticesKept

theorem eachContext_noticesKept {f : Channel → State → State} (h : ∀ x s, Moves (fun _ => False) s (f x s)) (s : State) :
    NoticesKept s (eachContext f s) := (eachContext_steps h s).raws.noticesKept

/-! ### The agent -/

theorem startRequest_flagsKept (s : State) : FlagsKept s (startRequest s) := by
  unfold startRequest
  split
  · exact .other
  · exact .refl s
  · exact .refl s

theorem enqueueRequest_noticesKept (r : MgmtFrame) (s : State) : NoticesKept s (enqueueRequest r s) := by
  unfold enqueueRequest
  split
  · have hq : FlagsKept s { s with trunk := { s.trunk with mgmtIn := s.trunk.mgmtIn ++ [r] } } := .other
    exact (hq.trans (startRequest_flagsKept _)).noticesKept
  · exact (reply_moves _ s).noticesKept

theorem answered_flagsKept (tag : Tag) (a : MgmtAnswer) (s : State) : FlagsKept s (answered tag a s) := by
  rw [answered_eq]
  exact .other

theorem respond_noticesKept {tag : Tag} {fits : MgmtFrame → Bool} {op : State → State × MgmtAnswer} {s : State}
    (h : NoticesKept s (op s).1) : NoticesKept s (respond tag fits op s) := by
  by_cases hx : Executing tag fits s
  · rw [respond_answered hx rfl]
    exact h.trans (answered_flagsKept tag _ _).noticesKept
  · rw [respond_idle hx]
    exact .refl s

/-- The event of a management row. -/
theorem row_noticesKept {tag : Tag} {fits : MgmtFrame → Bool} {op : State → State × MgmtAnswer} {s : State}
    (h : NoticesKept s (op s).1) : NoticesKept s (event (respond tag fits op) s) :=
  event_noticesKept (respond_noticesKept h)

theorem row_flagsKept {tag : Tag} {fits : MgmtFrame → Bool} {op : State → State × MgmtAnswer} {s : State}
    (h : FlagsKept s (op s).1) : NoticesKept s (event (respond tag fits op) s) := row_noticesKept h.noticesKept

/-- A management row that only reads. -/
theorem read_noticesKept {tag : Tag} {fits : MgmtFrame → Bool} {op : State → State × MgmtAnswer} {s : State}
    (h : (op s).1 = s) : NoticesKept s (event (respond tag fits op) s) := row_noticesKept (by rw [h]; exact .refl s)

/-! ### Table operations -/

theorem atIndex_noticesKept {n i : Nat} {f : Fin n → State → State × MgmtAnswer} {s : State}
    (h : ∀ j, NoticesKept s (f j s).1) : NoticesKept s (atIndex n i f s).1 := by
  unfold atIndex
  split
  · exact .refl s
  · exact h _

theorem unlessLocked_flagsKept {f : State → State × MgmtAnswer} {s : State} (h : FlagsKept s (f s).1) :
    FlagsKept s (unlessLocked f s).1 := by
  unfold unlessLocked
  split
  · exact .refl s
  · exact h

/-- The flags of a notice still owed stay at a subscriber write (log 13). -/
theorem writeSubscriber_flagsKept (i : RecIx) (h : Hid) (cl g : Nat) (s : State) :
    FlagsKept s (writeSubscriber i h cl g s).1 := by
  unfold writeSubscriber
  split
  · exact .refl s
  · exact .refl s
  · split
    · exact .refl s
    · split
      · exact .refl s
      · exact .setRecord rfl rfl

theorem modifySubscriber_flagsKept (i : RecIx) (f : Enrolled → Hid × Nat × Nat) (s : State) :
    FlagsKept s (modifySubscriber i f s).1 := by
  unfold modifySubscriber
  split
  · exact .refl s
  · exact writeSubscriber_flagsKept _ _ _ _ s

theorem removeRecord_flagsKept (i : RecIx) (s : State) : FlagsKept s (removeRecord i s) := by
  unfold removeRecord
  dsimp only
  split
  · exact .refl s
  · split
    · exact .setRecord rfl rfl
    · exact .refl s
    · exact .refl s

theorem clearSubscriber_noticesKept (i : RecIx) (s : State) : NoticesKept s (clearSubscriber i s).1 := by
  unfold clearSubscriber
  split
  · exact .refl s
  · split
    · exact (removeRecord_flagsKept i s).noticesKept
    · exact (revokeRecord_moves i _ s).noticesKept.trans (removeRecord_flagsKept i _).noticesKept
    · exact .refl s

theorem evict_noticesKept (h : Hid) (s : State) : NoticesKept s (evict h s).1 := by
  unfold evict
  split
  · exact .refl s
  · next i _ =>
    split
    · split
      · exact .refl s
      · split
        · exact (removeRecord_flagsKept i s).noticesKept
        · exact (revokeRecord_moves i _ s).noticesKept
        · exact .refl s
    · exact .refl s

theorem writeFilter_flagsKept (f : FilterIx) (b : Bool) (m v : Hid) (cl g : Nat) (s : State) :
    FlagsKept s (writeFilter f b m v cl g s).1 := by
  unfold writeFilter
  split
  · exact .refl s
  · exact .refl s
  · exact .other

theorem writeZone_flagsKept (z : ZoneIx) (b : Bool) (k : Option ZoneKind) (l : Nat) (s : State) :
    FlagsKept s (unlessLocked (writeZone z b k l) s).1 := by
  refine unlessLocked_flagsKept ?_
  unfold writeZone
  split
  · exact .refl s
  · exact .refl s
  · exact .other

theorem writeGate_flagsKept (g : GateIx) (b : Bool) (z : Nat) (grp : GroupOperand) (l : Nat) (m : Option GateMode)
    (s : State) : FlagsKept s (unlessLocked (writeGate g b z grp l m) s).1 := by
  refine unlessLocked_flagsKept ?_
  unfold writeGate
  split
  · exact .refl s
  · exact .refl s
  · exact .refl s
  · exact .refl s
  · exact .other

theorem storeCell_flagsKept (c : CellIx) (w v : CellRec) (s : State) : FlagsKept s (storeCell c w v s).1 := by
  rw [storeCell_state]
  exact .other

theorem storeField_flagsKept (c : CellIx) (b : Bool) (w v : CellRec) (s : State) :
    FlagsKept s (storeField c b w v s).1 := by
  unfold storeField
  split
  · exact .refl s
  · exact storeCell_flagsKept c w v s

theorem writeCell_flagsKept (c : CellIx) (w : CellWrite) (s : State) : FlagsKept s (writeCell c w s).1 := by
  unfold writeCell
  split
  · exact .refl s
  · split
    · exact .refl s
    · split
      · exact .refl s
      · split
        · exact .refl s
        · dsimp only
          split
          · exact .refl s
          · exact storeCell_flagsKept _ _ _ s

theorem modifyCell_flagsKept (c : CellIx) (f : CellField) (s : State) : FlagsKept s (modifyCell c f s).1 := by
  unfold modifyCell
  dsimp only
  split
  · exact storeField_flagsKept _ _ _ _ s
  · split
    · exact .refl s
    · exact storeField_flagsKept _ _ _ _ s
  · split
    · exact .refl s
    · exact storeField_flagsKept _ _ _ _ s
  · exact storeField_flagsKept _ _ _ _ s
  · exact storeField_flagsKept _ _ _ _ s
  · exact storeField_flagsKept _ _ _ _ s
  · split
    · exact .refl s
    · exact storeField_flagsKept _ _ _ _ s
  · split
    · exact .refl s
    · exact storeField_flagsKept _ _ _ _ s
  · exact storeField_flagsKept _ _ _ _ s
  · exact storeField_flagsKept _ _ _ _ s
  · exact storeField_flagsKept _ _ _ _ s

theorem clearCell_flagsKept (c : CellIx) (s : State) : FlagsKept s (clearCell c s).1 := by
  unfold clearCell
  split
  · split
    · exact .refl s
    · exact .other
  · exact .refl s

theorem writeNeighbours_flagsKept (c : CellIx) (l : List NeighbourWrite) (s : State) :
    FlagsKept s (writeNeighbours c l s).1 := by
  unfold writeNeighbours
  split
  · exact .refl s
  · exact .other

theorem storeConfig_flagsKept (w v : ConfigTable) (s : State) : FlagsKept s (storeConfig w v s).1 := by
  rw [storeConfig_state]
  exact .other

theorem writeConfig_flagsKept (w : ConfigWrite) (s : State) : FlagsKept s (writeConfig w s).1 := by
  unfold writeConfig
  split
  · exact .refl s
  · exact storeConfig_flagsKept _ _ s

theorem modifyConfig_flagsKept (f : ConfigField) (s : State) : FlagsKept s (modifyConfig f s).1 := by
  unfold modifyConfig
  cases f with
  | sync p =>
    cases p with
    | none => exact .refl s
    | some p => exact .other
  | _ => exact storeConfig_flagsKept _ _ s

theorem tableWrite_noticesKept (i : Nat) (entry : TableEntry) (s : State) : NoticesKept s (tableWrite i entry s).1 := by
  unfold tableWrite
  cases entry with
  | subscriber h cl g => exact atIndex_noticesKept fun j => (writeSubscriber_flagsKept _ h cl g s).noticesKept
  | filter e m v cl g => exact atIndex_noticesKept fun j => (writeFilter_flagsKept j e m v cl g s).noticesKept
  | cell w => exact atIndex_noticesKept fun c => (writeCell_flagsKept c w s).noticesKept
  | neighbours l => exact atIndex_noticesKept fun c => (writeNeighbours_flagsKept c l s).noticesKept
  | zone p k l => exact atIndex_noticesKept fun z => (writeZone_flagsKept z p k l s).noticesKept
  | gate p z g l m => exact atIndex_noticesKept fun j => (writeGate_flagsKept j p z g l m s).noticesKept
  | config w => exact atIndex_noticesKept fun _ => (writeConfig_flagsKept w s).noticesKept
  | misfit t => exact .refl s

theorem fieldModify_noticesKept (i : Nat) (w : FieldWrite) (s : State) : NoticesKept s (fieldModify i w s).1 := by
  unfold fieldModify
  cases w with
  | subscriberHid | subscriberClearance | subscriberGroup =>
    exact atIndex_noticesKept fun j => (modifySubscriber_flagsKept _ _ s).noticesKept
  | filterEnabled | filterMask | filterValue | filterClearance | filterGroup =>
    exact atIndex_noticesKept fun j => (writeFilter_flagsKept j _ _ _ _ _ s).noticesKept
  | cell f => exact atIndex_noticesKept fun c => (modifyCell_flagsKept c f s).noticesKept
  | zonePresent | zoneKind | zoneLevel => exact atIndex_noticesKept fun z => (writeZone_flagsKept z _ _ _ s).noticesKept
  | gatePresent | gateZone | gateGroup | gateLevel | gateMode =>
    exact atIndex_noticesKept fun j => (writeGate_flagsKept j _ _ _ _ _ s).noticesKept
  | config f => exact atIndex_noticesKept fun _ => (modifyConfig_flagsKept f s).noticesKept
  | other t n => rw [modifyUnknown_state]; exact .refl s

theorem tableClear_noticesKept (t : TableId) (i : Nat) (s : State) : NoticesKept s (tableClear t i s).1 := by
  unfold tableClear
  cases t with
  | subscriber => exact atIndex_noticesKept fun j => clearSubscriber_noticesKept _ s
  | cell => exact atIndex_noticesKept fun c => (clearCell_flagsKept c s).noticesKept
  | neighbours => exact atIndex_noticesKept fun c => FlagsKept.noticesKept .other
  | zone => exact atIndex_noticesKept fun z => (unlessLocked_flagsKept .other).noticesKept
  | gate => exact atIndex_noticesKept fun z => (unlessLocked_flagsKept .other).noticesKept
  | filter => exact atIndex_noticesKept fun f => FlagsKept.noticesKept .other
  | config => exact atIndex_noticesKept fun _ => FlagsKept.noticesKept .other
  | registry | context | cellState | unknown => exact .refl s

theorem countersRead_flagsKept (n : Nat) (b : Bool) (s : State) : FlagsKept s (countersRead n b s).1 := by
  unfold countersRead
  split
  · dsimp only
    split
    · exact .other
    · exact .refl s
  · split
    · dsimp only
      split
      · exact .other
      · exact .refl s
    · exact .refl s

/-! ### Cells and sweeps -/

theorem onCell_noticesKept {n : Nat} {f : CellIx → State → State × MgmtAnswer} {s : State}
    (h : ∀ c, NoticesKept s (f c s).1) : NoticesKept s (onCell n f s).1 := by
  unfold onCell
  split
  · exact .refl s
  · exact h _

theorem enableCell_flagsKept (c : CellIx) (s : State) : FlagsKept s (enableCell c s).1 := by
  unfold enableCell refuse serviceAnswer
  split
  · split
    · exact .other
    · exact .refl s
  all_goals exact .refl s

theorem drainCell_noticesKept (f : FollowOn) (c : CellIx) (s : State) : NoticesKept s (drainCell f c s).1 := by
  unfold drainCell serviceAnswer
  split
  · exact (FlagsKept.noticesKept .other).trans (endDrainIfEmpty_moves c _).noticesKept
  all_goals exact .refl s

theorem disableLoss_noticesKept (n : Nat) (b s : State) : NoticesKept s (disableLoss n b s) := by
  unfold disableLoss
  split
  · exact .refl s
  · split
    · exact eachContext_noticesKept (fun x s => lossAtContext_moves _ _ x s) s
    · exact .refl s

theorem drainStart_noticesKept (n : Nat) (b s : State) : NoticesKept s (drainStart n b s) := by
  unfold drainStart
  split
  · exact .refl s
  · split
    · exact eachContext_noticesKept (fun x s => drainStartAt_moves _ x s) s
    · exact .refl s

theorem sweepStart_flagsKept (k : SweepOperand) (g : Nat) (s : State) : FlagsKept s (sweepStart k g s).1 := by
  unfold sweepStart
  split
  · exact .refl s
  · split
    · exact .refl s
    · exact .other

theorem sweepSuspend_flagsKept (s : State) : FlagsKept s (sweepSuspend s).1 := by
  unfold sweepSuspend
  split
  · exact .other
  all_goals exact .refl s

theorem sweepResume_flagsKept (s : State) : FlagsKept s (sweepResume s).1 := by
  unfold sweepResume
  split
  · split
    · exact .refl s
    · exact .other
  all_goals exact .refl s

theorem sweepAbort_flagsKept (s : State) : FlagsKept s (sweepAbort s).1 := by
  unfold sweepAbort
  split
  · exact .other
  · exact .refl s

/-! ### Resets and lines -/

/-- With an empty notice queue, no flag set and an empty page list, nothing is owed. -/
theorem NoticesKept.cleared {s t : State} (hn : t.notices = []) (hp : ∀ e, t.page e = none)
    (hr : ∀ i, (t.record i).dirty = false ∧ (t.record i).queued = false) : NoticesKept s t where
  records := fun _ => ⟨fun i => by simp [hn, (hr i).2], fun i => by simp [hn], fun _ i hd => by simp [(hr i).1] at hd⟩
  outcomes := fun _ => State.outcomesOk_iff.2 ⟨fun e => by simp [hn, State.outcome_idle (hp e)], fun e => by simp [hn],
    fun _ e => by simp [State.outcome_idle (hp e)]⟩

theorem powerOnReset_noticesKept (s : State) : NoticesKept s { State.reset with pending := s.pending } :=
  .cleared rfl (fun _ => rfl) fun _ => ⟨rfl, rfl⟩

/-- The RESTART drops every owed notice (R187). -/
theorem restartBlocks_noticesKept (s : State) : NoticesKept s (restartBlocks s) := by
  refine .cleared rfl (fun _ => rfl) fun i => ?_
  rw [State.record_restartBlocks]
  exact restartRecord_flags s.now i _

theorem restartAll_noticesKept (s : State) : NoticesKept s (restartAll s).1 := by
  rw [restartAll_eq]
  dsimp only
  have hc : Moves (fun _ => False) (restartBlocks s) ((allIndices 64).foldl closeAllAt (restartBlocks s)) :=
    Moves.foldl closeAllAt closeAllAt_moves _ _
  exact (restartBlocks_noticesKept s).trans hc.noticesKept

theorem cellLineUp_flagsKept (p : PortIx) (s : State) : FlagsKept s (cellLineUp p s) := by
  unfold cellLineUp
  split
  · exact .refl s
  · exact .other

theorem cellPortLineDown_noticesKept {p : PortIx} {s t : State} (h : exec (.cellPortLineDown p) s = .next t) :
    NoticesKept s t := by
  cases hl : (s.port p).link with
  | down =>
    rw [exec_cellPortLineDown_down hl] at h
    exact Host.Outcome.next.inj h ▸ .refl s
  | up =>
    rw [exec_cellPortLineDown_up hl] at h
    have hd := lineDown_steps p s
    rw [Host.Outcome.next.inj h] at hd
    have hport : FlagsKept s (s.setPort p CellPort.blank) := .other
    have hcells : FlagsKept (flushPort p s) (cellsDown p (flushPort p s)) := .other
    exact ((hport.noticesKept.trans hd.flushed.noticesKept).trans hcells.noticesKept).trans hd.followed.noticesKept

theorem trunkUp_flagsKept (s : State) : FlagsKept s (trunkUp s) := by
  unfold trunkUp
  split
  · exact .refl s
  · exact .other

theorem silentEnding_noticesKept (s : State) (x : Channel) : NoticesKept s (silentEnding s x) := by
  unfold silentEnding
  split
  · exact .refl s
  · next k hk =>
    exact (endCall_moves (State.handset_of_call hk) false .recheck).noticesKept.trans (finish_moves _ _).noticesKept

theorem trunkLineDown_noticesKept {s t : State} (h : exec .trunkLineDown s = .next t) : NoticesKept s t := by
  cases hl : s.trunk.link with
  | down =>
    rw [exec_trunkLineDown_down hl] at h
    exact Host.Outcome.next.inj h ▸ .refl s
  | up =>
    rw [exec_trunkLineDown_up hl] at h
    have hd : FlagsKept s (trunkDown s) := .other
    exact Host.Outcome.next.inj h ▸ hd.noticesKept.trans (.foldl _ silentEnding_noticesKept _ _)

theorem restartExpiry_flagsKept (c : CellIx) (s : State) : FlagsKept s (restartExpiry c s) := by
  unfold restartExpiry
  split
  · split
    · exact .other
    · exact .refl s
  all_goals exact .refl s

/-! ### Received frames -/

theorem rxMgmt_noticesKept (tag : Tag) (op : Byte) (operands : List Byte) (s : State) :
    NoticesKept s (rxMgmt tag op operands s) := by
  unfold rxMgmt rxTrunk
  split
  · split
    · exact (countMalformed_moves _ _).noticesKept
    · exact (countReceived_moves _ _).noticesKept.trans (enqueueRequest_noticesKept _ _)
  · exact .refl s

theorem parseTrunk_noticesKept {kind : Byte} {fields : List Byte} {f : State → State}
    (h : parseTrunk kind fields = some f) (s : State) : NoticesKept s (f s) := by
  unfold parseTrunk at h
  repeat' split at h
  all_goals cases h
  exacts [(rxVoxDown_moves _ _ _ s).noticesKept, (rxCallOpen_moves _ _ _ s).noticesKept,
    (rxCallClear_moves _ s).noticesKept, (rxPageReq_moves _ _ s).noticesKept, rxMgmt_noticesKept _ _ _ s]

theorem parseFrame_noticesKept {l : LinkIx} {bytes : List Byte} {f : State → State} (h : parseFrame l bytes = some f)
    (s : State) : NoticesKept s (f s) := by
  unfold parseFrame at h
  split at h
  · dsimp only at h
    split at h
    · split at h
      · split at h
        · cases h
        · exact (parseCell_moves h s).noticesKept
      · split at h
        · exact parseTrunk_noticesKept h s
        · cases h
    · cases h
  · cases h

theorem receive_noticesKept (l : LinkIx) (bytes : List Byte) (s : State) : NoticesKept s (receive l bytes s) := by
  unfold receive
  split
  · split
    · exact (countMalformed_moves l s).noticesKept
    · split
      · split
        · exact ((countReceived_moves l s).trans (countMalformed_moves l _)).noticesKept
        · next h => exact parseFrame_noticesKept h s
      · exact (countCheckFailure_moves l s).noticesKept
  · exact .refl s

/-! ### Commands and steps -/

theorem NoticesKept.of_next {s u t : State} (h : NoticesKept s u)
    (hc : (.next u : Host.Outcome State Fault Refusal) = .next t) : NoticesKept s t := Host.Outcome.next.inj hc ▸ h

theorem exec_noticesKept {c : Instr} {s t : State} (h : exec c s = .next t) : NoticesKept s t := by
  cases c with
  | powerOnReset => exact (powerOnReset_noticesKept s).of_next h
  | cellPortLineUp p => exact (event_noticesKept (cellLineUp_flagsKept p s).noticesKept).of_next h
  | cellPortLineDown p => exact cellPortLineDown_noticesKept h
  | trunkLineUp => exact (event_noticesKept (trunkUp_flagsKept s).noticesKept).of_next h
  | trunkLineDown => exact trunkLineDown_noticesKept h
  | mgmtReq tag op operands => exact (event_noticesKept (rxMgmt_noticesKept tag op operands s)).of_next h
  | badOperation tag => exact (read_noticesKept rfl).of_next h
  | readCaps tag => exact (read_noticesKept rfl).of_next h
  | tableWrite tag i entry => exact (row_noticesKept (tableWrite_noticesKept i entry s)).of_next h
  | tableRead tag b i => exact (read_noticesKept (tableRead_state b i s)).of_next h
  | fieldModify tag i w => exact (row_noticesKept (fieldModify_noticesKept i w s)).of_next h
  | tableClear tag b i => exact (row_noticesKept (tableClear_noticesKept b i s)).of_next h
  | cellEnable tag n => exact (row_noticesKept (onCell_noticesKept fun c => (enableCell_flagsKept c s).noticesKept)).of_next h
  | cellDisable tag n =>
    refine NoticesKept.of_next ?_ h
    split
    · exact (row_noticesKept (onCell_noticesKept fun _ => FlagsKept.noticesKept .other)).trans (disableLoss_noticesKept n s _)
    · exact .refl s
  | cellDrain tag n =>
    refine NoticesKept.of_next ?_ h
    split
    · exact (row_noticesKept (onCell_noticesKept fun c => drainCell_noticesKept _ c s)).trans (drainStart_noticesKept n s _)
    · exact .refl s
  | cellRestart tag n =>
    refine NoticesKept.of_next ?_ h
    split
    · exact (row_noticesKept (onCell_noticesKept fun c => drainCell_noticesKept _ c s)).trans (drainStart_noticesKept n s _)
    · exact .refl s
  | holdSet tag => exact (row_flagsKept .other).of_next h
  | holdClear tag => exact (row_flagsKept .other).of_next h
  | holdEnable tag e => exact (row_flagsKept .other).of_next h
  | holdStatus tag k => exact (row_flagsKept .other).of_next h
  | sweepStart tag k g => exact (row_flagsKept (sweepStart_flagsKept k g s)).of_next h
  | sweepSuspend tag => exact (row_flagsKept (sweepSuspend_flagsKept s)).of_next h
  | sweepResume tag => exact (row_flagsKept (sweepResume_flagsKept s)).of_next h
  | sweepAbort tag => exact (row_flagsKept (sweepAbort_flagsKept s)).of_next h
  | sweepStatus tag => exact (read_noticesKept rfl).of_next h
  | evict tag hid => exact (row_noticesKept (evict_noticesKept hid s)).of_next h
  | countersRead tag n b => exact (row_flagsKept (countersRead_flagsKept n b s)).of_next h
  | restart tag => exact (row_noticesKept (restartAll_noticesKept s)).of_next h
  | restartDeadlineExpiry c => exact (event_noticesKept (restartExpiry_flagsKept c s).noticesKept).of_next h
  | receivedFrameDiscarded l bytes => exact (event_noticesKept (receive_noticesKept l bytes s)).of_next h
  | _ => exact (exec_ordinary_raws rfl h).noticesKept

/-- Settles O18: a step runs the front command from the state without it, or counts a millisecond. -/
theorem stepKeepsNotices : Obligations.StepKeepsNotices := fun s t hs => by
  have h : NoticesKept s t := by
    cases hp : s.pending with
    | nil =>
      rw [step_idle hp] at hs
      exact (FlagsKept.noticesKept .other).of_next hs
    | cons c rest =>
      rw [step_pending hp] at hs
      have hq : FlagsKept s { s with pending := rest } := .other
      exact hq.noticesKept.trans (exec_noticesKept hs)
  exact ⟨h.records, h.outcomes⟩

end Sys2Proof.Machine
end

section
/-! PROOFS. The Location-Changed Notices (R36, R39): what one change of location writes, and which notice takes a free place
of the queue. -/

namespace Sys2Proof.Machine

/-! ### The lowest index that satisfies a test -/

/-- In a rising list, a member that satisfies a test which no lower index satisfies is what a find answers. -/
theorem find?_of_lowest {n : Nat} {p : Fin n → Bool} {i : Fin n} {l : List (Fin n)} (hl : l.Pairwise (· < ·))
    (hi : i ∈ l) (hp : p i = true) (hb : ∀ j, j < i → p j = false) : l.find? p = some i := by
  induction l with
  | nil => cases hi
  | cons j l ih =>
    rcases List.mem_cons.1 hi with rfl | hm
    · exact List.find?_cons_of_pos hp
    · have hlt := (List.pairwise_cons.1 hl).1 i hm
      rw [List.find?_cons_of_neg (by simp [hb j hlt])]
      exact ih (List.pairwise_cons.1 hl).2 hm

theorem allIndices_find? {n : Nat} {p : Fin n → Bool} {i : Fin n} (hp : p i = true) (hb : ∀ j, j < i → p j = false) :
    (allIndices n).find? p = some i :=
  find?_of_lowest (by rw [allIndices_eq]; exact List.pairwise_lt_finRange n) (mem_allIndices n i) hp hb

/-- A find in a canonical table answers the lowest index whose value, not the blank one, satisfies the test. -/
theorem Table.find_of_lowest {n : Nat} {α : Type} [DecidableEq α] {d : α} {t : Table n α} {p : Fin n → α → Bool}
    {i : Fin n} (hw : t.wf d = true) (hd : p i d = false) (hp : p i (t.get d i) = true)
    (hb : ∀ j, j < i → p j (t.get d j) = false) : t.find d p = some i := by
  refine find?_of_lowest (List.pairwise_map.2 ((canonical_iff d t.entries).1 hw).1) ?_ hp hb
  by_contra hm
  have hblank : t.get d i = d := by unfold Table.get; rw [lookupIx_none hm]; rfl
  rw [hblank, hd] at hp
  cases hp

/-! ### One change of location -/

/-- Marking a record dirty, in its two forms: with a notice, where none is queued and the queue has room, and without (R36).
-/
theorem markDirty_raised (i : RecIx) (s : State) :
    ((s.record i).queued = false → s.notices.length < 64 →
      (markDirty i s).notices = s.notices ++ [.location i] ∧
        (markDirty i s).record i = { s.record i with dirty := true, queued := true }) ∧
    ((s.record i).queued = true ∨ 64 ≤ s.notices.length →
      (markDirty i s).notices = s.notices ∧ (markDirty i s).record i = { s.record i with dirty := true }) ∧
    (∀ j, j ≠ i → (markDirty i s).record j = s.record j) ∧
    markDirty i s = { s with records := (markDirty i s).records, notices := (markDirty i s).notices } := by
  rcases markDirty_cases i s with ⟨hq, hr, h⟩ | ⟨hn, h⟩ <;> rw [h]
  · refine ⟨fun _ _ => ⟨rfl, State.record_setRecord_self s i _⟩, fun hn => ?_,
      fun j hj => State.record_setRecord_ne s hj _, rfl⟩
    rcases hn with hn | hn
    · rw [hq] at hn; cases hn
    · exact absurd hr (not_lt.2 hn)
  · refine ⟨fun hq hr => ?_, fun _ => ⟨rfl, State.record_setRecord_self s i _⟩,
      fun j hj => State.record_setRecord_ne s hj _, rfl⟩
    rcases hn with hn | hn
    · rw [hq] at hn; cases hn
    · exact absurd hr (not_lt.2 hn)

/-- What one change of location writes (R36). -/
theorem writeLocation_raised (i : RecIx) (e : Enrolled) (loc : Location) (s : State) :
    ((writeLocation i e loc s).record i).holder = holderAfter i e loc ∧
    ((writeLocation i e loc s).record i).lastChange = s.now ∧ ((writeLocation i e loc s).record i).dirty = true ∧
    ((s.record i).queued = false → s.notices.length < 64 →
      (writeLocation i e loc s).notices = s.notices ++ [.location i] ∧ ((writeLocation i e loc s).record i).queued = true) ∧
    ((s.record i).queued = true ∨ 64 ≤ s.notices.length →
      (writeLocation i e loc s).notices = s.notices ∧ ((writeLocation i e loc s).record i).queued = (s.record i).queued) ∧
    (∀ j, j ≠ i → (writeLocation i e loc s).record j = s.record j) ∧
    writeLocation i e loc s =
      { s with records := (writeLocation i e loc s).records, notices := (writeLocation i e loc s).notices } := by
  let u := s.setRecord i { s.record i with holder := holderAfter i e loc, lastChange := s.now }
  have hi : u.record i = { s.record i with holder := holderAfter i e loc, lastChange := s.now } :=
    State.record_setRecord_self s i _
  obtain ⟨hroom, hfull, hother, heq⟩ := markDirty_raised i u
  rw [hi] at hroom hfull
  have hfields : (markDirty i u).record i = { u.record i with dirty := true, queued := true } ∨
      (markDirty i u).record i = { u.record i with dirty := true } := by
    rw [hi]
    by_cases hn : (s.record i).queued = true ∨ 64 ≤ s.notices.length
    · exact .inr (hfull hn).2
    · rw [not_or, Bool.not_eq_true, not_le] at hn
      exact .inl (hroom hn.1 hn.2).2
  rw [hi] at hfields
  change ((markDirty i u).record i).holder = _ ∧ ((markDirty i u).record i).lastChange = _ ∧
    ((markDirty i u).record i).dirty = true ∧ _
  refine ⟨?_, ?_, ?_, fun hq hr => ⟨(hroom hq hr).1, ?_⟩, fun hn => ⟨(hfull hn).1, ?_⟩, fun j hj => ?_, heq⟩
  · rcases hfields with h | h <;> rw [h]
  · rcases hfields with h | h <;> rw [h]
  · rcases hfields with h | h <;> rw [h]
  · exact congrArg Record.queued (hroom hq hr).2
  · have h := congrArg Record.queued (hfull hn).2
    exact h
  · exact (hother j hj).trans (State.record_setRecord_ne s hj _)

/-! ### The refill -/

theorem refill_full {s : State} (h : 64 ≤ s.notices.length) : refill s = s := by
  unfold refill
  exact if_neg fun hr => absurd (of_decide_eq_true hr) (not_lt.2 h)

theorem refill_outcome {s : State} {e : PageIx} {p : PageEntry} {o : PageOutcome} (h : s.notices.length < 64)
    (hp : s.page e = some p) (hs : p.status = .settled o false)
    (hlow : ∀ f r v, f < e → s.page f = some r → r.status ≠ .settled v false) :
    refill s = { s.setPage e (some { p with status := .settled o true }) with
      notices := s.notices ++ [.pageOutcome e] } := by
  have hw : waitingOutcome s = some e := by
    refine allIndices_find? (by simp [hp, hs]) fun f hf => ?_
    cases hr : s.page f with
    | none => rfl
    | some r =>
      cases hst : r.status with
      | paging m d => simp [hst]
      | settled v q =>
        have hq : q ≠ false := fun hq => hlow f r v hf hr (by rw [hst, hq])
        simpa [hst] using hq
  unfold refill
  rw [if_pos (show s.noticeRoom = true from decide_eq_true h), hw]
  dsimp only
  rw [markOutcomeQueued_eq hp hs]
  rfl

theorem waitingOutcome_absent {s : State} (h : ∀ e p o, s.page e = some p → p.status ≠ .settled o false) :
    waitingOutcome s = none := by
  cases hw : waitingOutcome s with
  | none => rfl
  | some e =>
    obtain ⟨p, o, hp, hs⟩ := waitingOutcome_some hw
    exact absurd hs (h e p o hp)

theorem refill_record_lowest {s : State} {i : RecIx} (hs : s.records.wf Record.blank = true) (h : s.notices.length < 64)
    (hp : ∀ e p o, s.page e = some p → p.status ≠ .settled o false) (hd : (s.record i).dirty = true)
    (hq : (s.record i).queued = false)
    (hlow : ∀ j, j < i → (s.record j).dirty = true → (s.record j).queued = true) :
    refill s = { s.setRecord i { s.record i with queued := true } with notices := s.notices ++ [.location i] } := by
  have hw : waitingRecord s = some i := by
    refine Table.find_of_lowest hs rfl ?_ fun j hj => ?_
    · change ((s.record i).dirty && !(s.record i).queued) = true
      rw [hd, hq]
      rfl
    · change ((s.record j).dirty && !(s.record j).queued) = false
      cases hdj : (s.record j).dirty with
      | false => rfl
      | true => rw [hlow j hj hdj]; rfl
  unfold refill
  rw [if_pos (show s.noticeRoom = true from decide_eq_true h), waitingOutcome_absent hp]
  dsimp only
  rw [hw]
  rfl

theorem refill_idle {s : State} (hp : ∀ e p o, s.page e = some p → p.status ≠ .settled o false)
    (hr : ∀ i, (s.record i).dirty = true → (s.record i).queued = true) : refill s = s := by
  have hw : waitingRecord s = none := by
    cases hw : waitingRecord s with
    | none => rfl
    | some i =>
      have h : ((s.record i).dirty && !(s.record i).queued) = true := Table.find_some _ _ _ hw
      rw [Bool.and_eq_true] at h
      rw [hr i h.1] at h
      cases h.2
  unfold refill
  rw [waitingOutcome_absent hp, hw]
  exact ite_self _

/-- A refill that finds nothing to do is an event that changes nothing. -/
theorem exec_noticeRefill_idle {s : State} (h : refill s = s) : exec .noticeRefill s = .next s :=
  congrArg Host.Outcome.next (event_eq_quiet h (Quiet.refl s))

/-- Settles O13. -/
theorem locationNoticesRaised : Obligations.LocationNoticesRaised := by
  refine ⟨writeLocation_raised, fun s hs => ⟨fun h => exec_noticeRefill_idle (refill_full h),
    fun h e p o hp hst hlow => ?_, fun h hp => ⟨fun i hd hq hlow => ?_, fun hr => ?_⟩⟩⟩
  · exact runs_event rfl (refill_outcome h hp hst hlow) rfl rfl fun _ ht => ht
  · exact runs_event rfl (refill_record_lowest hs.tables.records h hp hd hq hlow) rfl rfl fun _ ht => ht
  · exact exec_noticeRefill_idle (refill_idle hp hr)

end Sys2Proof.Machine
end

section
/-! PROOFS. Attach, presence and call request (R23 to R28, R33, R81): what a frame of a handset does in each state of its
record. -/

namespace Sys2Proof.Machine

/-! ### Commands heard from a radio head -/

theorem exec_attachReq {c : CellIx} {s : State} (h : Heard c s) (hid : Hid) {claimed q : Byte} {cl : Clearance}
    {qv : Quality} (hcl : claimed.toNat = cl.val) (hq : q.toNat = qv.val) :
    exec (.attachReq c hid claimed q) s = .next (event (fun u => attach c hid cl qv (counted c u)) s) := by
  refine congrArg Host.Outcome.next (event_congr ?_)
  unfold rxAttach
  rw [byteIn_eq hcl, byteIn_eq hq]
  exact rxCell_heard h (by decide) _

theorem exec_presence {c : CellIx} {s : State} (h : Heard c s) (hid : Hid) {q : Byte} {qv : Quality}
    (hq : q.toNat = qv.val) :
    exec (.presence c hid q) s = .next (event (fun u => (locationUpdate true c hid qv (counted c u)).2) s) := by
  refine congrArg Host.Outcome.next (event_congr ?_)
  unfold rxPresence
  rw [byteIn_eq hq]
  exact rxCell_heard h (by decide) _

theorem exec_callReq {c : CellIx} {s : State} (h : Heard c s) (hid : Hid) :
    exec (.callReq c hid) s = .next (event (fun u => requestCall c hid (counted c u)) s) :=
  congrArg Host.Outcome.next (event_congr (rxCell_heard h (by decide) _))

/-! ### The attach (R24 to R26) -/

theorem attachSubject_found {h : Hid} {s : State} {i : RecIx} {e : Enrolled} (hi : s.findHid h = some i)
    (he : (s.record i).enrolled = some e) : attachSubject h s = .found i e := by
  unfold attachSubject
  rw [hi, Option.bind_some, he]
  rfl

theorem attachSubject_created {h : Hid} {s : State} {f : FilterIx} {i : RecIx} (hn : s.findHid h = none)
    (hf : chosenFilter s h = some f) (hi : freeVisitor s = some i) :
    attachSubject h s = .created i ⟨h, (s.filter f).clearance, (s.filter f).group, some f, .absent⟩ := by
  unfold attachSubject
  rw [hn, hf, hi]
  rfl

theorem attachSubject_unknown {h : Hid} {s : State} (hn : s.findHid h = none) (hf : chosenFilter s h = none) :
    attachSubject h s = .denied ⟨.unknownHandset, 0, .none⟩ := by
  unfold attachSubject
  rw [hn, hf]
  rfl

theorem attachSubject_poolFull {h : Hid} {s : State} (hn : s.findHid h = none) (hf : chosenFilter s h ≠ none)
    (hi : freeVisitor s = none) : attachSubject h s = .denied ⟨.poolFull, 0, .none⟩ := by
  unfold attachSubject
  rw [hn]
  cases hc : chosenFilter s h with
  | none => exact absurd hc hf
  | some f =>
    rw [hi]
    rfl

/-- An attach is let through the hold exactly when no hold is active, or its handset's record is found and not ABSENT (R24).
-/
theorem deferred_found {s : State} {i : RecIx} {e : Enrolled} :
    deferred s (.found i e) = false ↔ (s.hold.active = true → e.loc ≠ .absent) := by
  unfold deferred
  cases s.hold.active <;> simp

/-- With an active hold the attach of a handset that is not registered is deferred (R24). -/
theorem attach_deferred {c : CellIx} {h : Hid} {cl : Clearance} {q : Quality} {s : State} (ha : s.hold.active = true)
    (hl : ∀ i e, s.findHid h = some i → (s.record i).enrolled = some e → e.loc = .absent) :
    attach c h cl q s = sendAck c h (.defer s.config.deferBackoff) s := by
  unfold attach
  refine if_pos ?_
  cases hi : s.findHid h with
  | some i =>
    obtain ⟨e, he, -⟩ := findHid_enrolled hi
    rw [attachSubject_found hi he, deferred, ha, hl i e hi he]
    rfl
  | none =>
    cases hf : chosenFilter s h with
    | none => rw [attachSubject_unknown hi hf]; exact ha
    | some f =>
      cases hv : freeVisitor s with
      | none => rw [attachSubject_poolFull hi (hf ▸ nofun) hv]; exact ha
      | some i => rw [attachSubject_created hi hf hv]; exact ha

theorem attach_denied {c : CellIx} {h : Hid} {cl : Clearance} {q : Quality} {s : State} {d : Denial}
    (ha : s.hold.active = false) (hs : attachSubject h s = .denied d) :
    attach c h cl q s = sendAck c h (.refused d) s := by
  unfold attach
  rw [hs]
  exact if_neg (by rw [deferred, ha]; nofun)

/-- The record that an attach let through by the hold works on: one that is found, or a new visitor's (R22 to R24). -/
inductive AttachesAs (h : Hid) (s : State) (i : RecIx) (e : Enrolled) : Prop
  | found (hi : s.findHid h = some i) (he : (s.record i).enrolled = some e) (hl : s.hold.active = true → e.loc ≠ .absent)
  | created (f : FilterIx) (ha : s.hold.active = false) (hn : s.findHid h = none) (hf : chosenFilter s h = some f)
      (hi : freeVisitor s = some i)
      (he : e = ⟨h, (s.filter f).clearance, (s.filter f).group, some f, .absent⟩)

theorem AttachesAs.attach {c : CellIx} {h : Hid} {cl : Clearance} {q : Quality} {s : State} {i : RecIx} {e : Enrolled}
    (k : AttachesAs h s i e) : attach c h cl q s = checkAndAttach i e c h cl q s := by
  unfold Machine.attach
  cases k with
  | found hi he hl =>
    rw [attachSubject_found hi he]
    exact if_neg (by rw [deferred_found.2 hl]; nofun)
  | created f ha hn hf hi he =>
    rw [attachSubject_created hn hf hi, ← he]
    exact if_neg (by rw [deferred, ha]; nofun)

theorem checkAndAttach_refused {i : RecIx} {e : Enrolled} {c : CellIx} {h : Hid} {cl : Clearance} {q : Quality} {s : State}
    {d : Denial} (hd : accessCheck s (effective cl e.clearance) e.group c .register = some d) :
    checkAndAttach i e c h cl q s = sendAck c h (.refused d) s := by
  unfold checkAndAttach
  rw [hd]

theorem checkAndAttach_admitted {i : RecIx} {e : Enrolled} {c : CellIx} {h : Hid} {cl : Clearance} {q : Quality}
    {s : State} (hd : accessCheck s (effective cl e.clearance) e.group c .register = none) :
    checkAndAttach i e c h cl q s = completeAttach i e c h cl q s := by
  unfold checkAndAttach
  rw [hd]

/-- An attach outside a call writes the record's new location and is answered (R26). -/
theorem completeAttach_outside {i : RecIx} {e : Enrolled} {c : CellIx} {h : Hid} {cl : Clearance} {q : Quality}
    {s : State} (hl : ∀ a x, e.loc ≠ .engaged a x) : completeAttach i e c h cl q s =
      sendAck c h .accepted (writeLocation i e (.attached ⟨cl, c, q⟩ (presenceDeadline s)) s) := by
  unfold completeAttach
  cases hloc : e.loc with
  | absent => simp only [changeLocation_attached]
  | attached a d => simp only [changeLocation_attached]
  | engaged a x => exact absurd hloc (hl a x)

/-- An attach in a call drops the call first (R26, R85). -/
theorem completeAttach_engaged {i : RecIx} {e : Enrolled} {c : CellIx} {h : Hid} {cl : Clearance} {q : Quality}
    {s : State} {a : Attachment} {x : Channel} (hl : e.loc = .engaged a x) : completeAttach i e c h cl q s =
      sendAck c h .accepted (writeLocation i e (.attached ⟨cl, c, q⟩ (presenceDeadline s))
        (dropCall x .handsetReattached false s)) := by
  have hs : SettingKept s (dropCall x .handsetReattached false s) :=
    (dropCall_moves (P := fun _ => False) x .handsetReattached false s).raws.setting
  have hd : presenceDeadline (dropCall x .handsetReattached false s) = presenceDeadline s := by
    unfold presenceDeadline State.after
    rw [hs.now, hs.config]
  unfold completeAttach
  rw [hl]
  simp only [changeLocation_attached, hd]

/-- A command that offers one ATTACH-ACK and nothing else. -/
theorem runs_ack {cmd : Instr} {f : State → State} {s : State} {c : CellIx} {h : Hid} {r : AttachResult}
    (hc : exec cmd s = .next (event f s)) (hf : f s = sendAck c h r (counted c s)) :
    Runs cmd s fun t => EventEnd s (sendAck c h r (counted c s)) t :=
  runs_event hc hf (sendAck_hrq c h r _) (sendAck_calls c h r _) fun _ ht => ht

/-- Settles O14. -/
theorem attachNotAdmitted : Obligations.AttachNotAdmitted := by
  intro c hid claimed q cl s hh hcl hq
  have hx := exec_attachReq hh hid hcl (qv := ⟨q.toNat, hq⟩) rfl
  refine ⟨fun ha hl => ?_, fun ha hn hf => ?_, fun ha hn hf hi => ?_, fun i e d hi he hl hd => ?_,
    fun f i d ha hn hf hi hd => ?_⟩
  · exact runs_ack hx (attach_deferred (s := counted c s) ha hl)
  · exact runs_ack hx (attach_denied (s := counted c s) ha (attachSubject_unknown hn hf))
  · exact runs_ack hx (attach_denied (s := counted c s) ha (attachSubject_poolFull hn hf hi))
  · have hk : AttachesAs hid (counted c s) i e := .found hi he hl
    exact runs_ack hx (hk.attach.trans (checkAndAttach_refused hd))
  · have hk : AttachesAs hid (counted c s) i _ := .created f ha hn hf hi rfl
    exact runs_ack hx (hk.attach.trans (checkAndAttach_refused hd))

/-! ### The admitted attach (R26, R33) -/

/-- A record that an event leaves ATTACHED by one write of its location, and one ATTACH-ACK. -/
theorem attached_left {c : CellIx} {hid : Hid} {i : RecIx} {e : Enrolled} {a : Attachment} {d : Time} {s u t : State}
    (ht : EventEnd s (sendAck c hid .accepted (writeLocation i e (.attached a d) u)) t) :
    (t.record i).enrolled = some { e with loc := .attached a d } ∧ (t.record i).lastChange = u.now := by
  have hr : (sendAck c hid .accepted (writeLocation i e (.attached a d) u)).record i =
      (writeLocation i e (.attached a d) u).record i := by
    unfold State.record
    rw [sendAck_records]
  have hw := writeLocation_record i e (.attached a d) u
  rw [ht.enrolled, ht.lastChange, hr]
  exact ⟨hw.1, hw.2⟩

/-- Settles O15. -/
theorem attachAdmitted : Obligations.AttachAdmitted := by
  intro c hid claimed q cl qv s hh hcl hq
  have hx := exec_attachReq hh hid hcl hq
  refine ⟨fun i e hfound hd => ?_, fun i e a x hi he hl h0 hd => ?_⟩
  · have hk : AttachesAs hid (counted c s) i e ∧ ∀ a x, e.loc ≠ .engaged a x := by
      rcases hfound with ⟨hi, he, hl, hout⟩ | ⟨f, ha, hn, hf, hi, rfl⟩
      · exact ⟨.found hi he hl, hout⟩
      · exact ⟨.created f ha hn hf hi rfl, nofun⟩
    have hw := writeLocation_registry i e (.attached ⟨cl, c, qv⟩ (presenceDeadline s)) (counted c s)
    refine runs_event hx (hk.1.attach.trans ((checkAndAttach_admitted (s := counted c s) hd).trans (completeAttach_outside hk.2)))
      ((sendAck_hrq c hid .accepted _).trans hw.hrq) ((sendAck_calls c hid .accepted _).trans hw.calls) fun t ht => ?_
    exact ⟨(attached_left ht).1, (attached_left ht).2, ht⟩
  · have hk : AttachesAs hid (counted c s) i e := .found hi he fun _ => by rw [hl]; nofun
    have hf := hk.attach.trans ((checkAndAttach_admitted (h := hid) (q := qv) (s := counted c s) hd).trans (completeAttach_engaged hl))
    have hw := writeLocation_registry i e (.attached ⟨cl, c, qv⟩ (presenceDeadline s))
      (dropCall x .handsetReattached false (counted c s))
    have hend := (event_end_empty (f := fun u => attach c hid cl qv (counted c u)) h0 (by
      have h0' : (counted c s).hrq.total = 0 := h0
      have hle := dropCall_total_le x .handsetReattached false (counted c s)
      rw [hf, sendAck_hrq]
      change (writeLocation i e (.attached ⟨cl, c, qv⟩ (presenceDeadline s)) _).hrq.total = 0
      rw [hw.hrq]
      omega)).2
    rw [hf] at hend
    refine ⟨_, hx, ?_, (attached_left hend).1, hend⟩
    rw [State.call_congr (hend.calls.trans ((sendAck_calls c hid .accepted _).trans hw.calls)), dropCall_call]

/-! ### A location update (R28) -/

theorem locationUpdate_absent {tell : Bool} {c : CellIx} {h : Hid} {q : Quality} {s : State}
    (hl : ∀ i e, s.findHid h = some i → (s.record i).enrolled = some e → e.loc = .absent) :
    locationUpdate tell c h q s = (.notAttached, sendAck c h (.refused ⟨.notAttached, 0, .none⟩) s) := by
  unfold locationUpdate
  dsimp only
  cases hi : s.findHid h with
  | none => rfl
  | some i =>
    obtain ⟨e, he, -⟩ := findHid_enrolled hi
    dsimp only
    rw [he]
    dsimp only
    rw [hl i e hi he]
    rfl

section
variable {tell : Bool} {c : CellIx} {h : Hid} {q : Quality} {s : State} {i : RecIx} {e : Enrolled} {a : Attachment}

theorem locationUpdate_engaged {x : Channel} (hi : s.findHid h = some i) (he : (s.record i).enrolled = some e)
    (hl : e.loc = .engaged a x) : locationUpdate tell c h q s = (.engaged,
      s.setRecord i { s.record i with holder := .present { e with loc := .engaged { a with quality := q } x } }) := by
  unfold locationUpdate
  dsimp only
  rw [hi]
  dsimp only
  rw [he]
  dsimp only
  rw [hl]

theorem locationUpdate_attached {d : Time} (hi : s.findHid h = some i) (he : (s.record i).enrolled = some e)
    (hl : e.loc = .attached a d) : locationUpdate tell c h q s =
      if a.cell = c then
        (.refreshed, s.setRecord i { s.record i with
          holder := .present { e with loc := .attached { a with quality := q } (presenceDeadline s) } })
      else
        match checkStored s e a c .location with
        | none => (.moved, writeLocation i e (.attached ⟨a.claimed, c, q⟩ (presenceDeadline s)) s)
        | some v => (.revoked v, sendAck c h (.revoked v)
            (if tell then changeLocation i e .absent s else writeLocation i e .absent s)) := by
  unfold locationUpdate
  dsimp only
  rw [hi]
  dsimp only
  rw [he]
  dsimp only
  rw [hl] <;> rfl

theorem locationUpdate_refreshed {d : Time} (hi : s.findHid h = some i) (he : (s.record i).enrolled = some e)
    (hl : e.loc = .attached a d) (hc : a.cell = c) : locationUpdate tell c h q s = (.refreshed, s.setRecord i
      { s.record i with holder := .present { e with loc := .attached { a with quality := q } (presenceDeadline s) } }) := by
  rw [locationUpdate_attached hi he hl, if_pos hc]

theorem locationUpdate_moved {d : Time} (hi : s.findHid h = some i) (he : (s.record i).enrolled = some e)
    (hl : e.loc = .attached a d) (hc : a.cell ≠ c) (hv : checkStored s e a c .location = none) :
    locationUpdate tell c h q s =
      (.moved, writeLocation i e (.attached ⟨a.claimed, c, q⟩ (presenceDeadline s)) s) := by
  rw [locationUpdate_attached hi he hl, if_neg hc, hv]

theorem locationUpdate_revoked {d : Time} {v : Denial} (hi : s.findHid h = some i) (he : (s.record i).enrolled = some e)
    (hl : e.loc = .attached a d) (hc : a.cell ≠ c) (hv : checkStored s e a c .location = some v) :
    locationUpdate tell c h q s = (.revoked v, sendAck c h (.revoked v)
      (if tell then changeLocation i e .absent s else writeLocation i e .absent s)) := by
  rw [locationUpdate_attached hi he hl, if_neg hc, hv]

end

/-- Settles O16. -/
theorem presenceTable : Obligations.PresenceTable := by
  intro c hid q qv s hh hq
  have hx := exec_presence hh hid hq
  refine ⟨fun hl => ?_, fun i e hi he => ⟨fun a x hl => ?_, fun a d hl hc => ?_, fun a d hl hc hv => ?_,
    fun a d v hl hc hv => ?_⟩⟩
  · exact runs_ack hx (congrArg Prod.snd (locationUpdate_absent (s := counted c s) hl))
  · exact runs_event hx (congrArg Prod.snd (locationUpdate_engaged (s := counted c s) hi he hl)) rfl rfl fun _ ht => ht
  · exact runs_event hx (congrArg Prod.snd (locationUpdate_refreshed (s := counted c s) hi he hl hc)) rfl rfl
      fun _ ht => ht
  · have hw := writeLocation_registry i e (.attached ⟨a.claimed, c, qv⟩ (presenceDeadline s)) (counted c s)
    exact runs_event hx (congrArg Prod.snd (locationUpdate_moved (s := counted c s) hi he hl hc hv)) hw.hrq hw.calls
      fun _ ht => ht
  · have hw := changeLocation_registry i e .absent (counted c s)
    refine runs_event hx (congrArg Prod.snd (locationUpdate_revoked (tell := true) (s := counted c s) hi he hl hc hv))
      ((sendAck_hrq c hid _ _).trans hw.hrq) ((sendAck_calls c hid _ _).trans hw.calls) fun t ht => ⟨?_, ht⟩
    have hr : (sendAck c hid (.revoked v) (changeLocation i e .absent (counted c s))).record i =
        (changeLocation i e .absent (counted c s)).record i := by
      unfold State.record
      rw [sendAck_records]
    rw [ht.enrolled]
    exact (congrArg Record.enrolled hr).trans ((changeLocation_record i e .absent (counted c s)).1.trans (by simp))

/-! ### A call request (R81) -/

theorem requestCall_unattached {c : CellIx} {h : Hid} {s : State}
    (hl : ∀ i e a d, s.findHid h = some i → (s.record i).enrolled = some e → e.loc = .attached a d → a.cell ≠ c) :
    requestCall c h s = offerQuietly (.callReqRej c h (.denied ⟨.notAttached, 0, .none⟩)) s := by
  unfold requestCall
  dsimp only
  cases hi : s.findHid h with
  | none => rfl
  | some i =>
    obtain ⟨e, he, -⟩ := findHid_enrolled hi
    dsimp only
    rw [he]
    dsimp only
    cases hloc : e.loc with
    | absent => rfl
    | engaged a x => rfl
    | attached a d => exact if_neg (hl i e a d hi he hloc)

theorem requestCall_attached {c : CellIx} {h : Hid} {s : State} {i : RecIx} {e : Enrolled} {a : Attachment} {d : Time}
    (hi : s.findHid h = some i) (he : (s.record i).enrolled = some e) (hl : e.loc = .attached a d) (hc : a.cell = c) :
    requestCall c h s = match checkStored s e a c .callSetup with
      | some v => offerQuietly (.callReqRej c h (.denied v)) s
      | none =>
        if s.noticeRoom then pushNotice (.callReq h i c) s else offerQuietly (.callReqRej c h .busy) s := by
  unfold requestCall
  dsimp only
  rw [hi]
  dsimp only
  rw [he]
  dsimp only
  rw [hl]
  exact if_pos hc

theorem runs_callReqRej {c : CellIx} {h : Hid} {r : CallReject} {s : State} (hh : Heard c s)
    (hf : requestCall c h (counted c s) = offerQuietly (.callReqRej c h r) (counted c s)) :
    Runs (.callReq c h) s (EventEnd s (offerQuietly (.callReqRej c h r) (counted c s))) := by
  have hp := offerQuietly_ports (.callReqRej c h r) (counted c s)
  exact runs_event (exec_callReq hh h) hf (by rw [hp]; rfl) (by rw [hp]; rfl) fun _ ht => ht

/-- Settles O26. -/
theorem callReqJudged : Obligations.CallReqJudged := by
  intro c hid s hh
  refine ⟨fun hl => runs_callReqRej hh (requestCall_unattached (s := counted c s) hl), fun i e a d hi he hl hc => ?_⟩
  have hreq := requestCall_attached (s := counted c s) hi he hl hc
  refine ⟨fun v hv => ?_, fun hv hr => ?_, fun hv hr => ?_⟩
  · rw [show checkStored (counted c s) e a c .callSetup = some v from hv] at hreq
    exact runs_callReqRej hh hreq
  · rw [show checkStored (counted c s) e a c .callSetup = none from hv] at hreq
    exact runs_event (exec_callReq hh hid)
      (hreq.trans (if_pos (show (counted c s).noticeRoom = true from decide_eq_true hr))) rfl rfl fun _ ht => ht
  · rw [show checkStored (counted c s) e a c .callSetup = none from hv] at hreq
    exact runs_callReqRej hh (hreq.trans (if_neg fun hn => absurd (of_decide_eq_true hn) (not_lt.2 hr)))

end Sys2Proof.Machine
end

section
/-! PROOFS. The sweep step (R175, R176): what one step of a running sweep does with the record at its cursor. -/

namespace Sys2Proof.Machine

theorem exec_sweepStep (s : State) : exec .sweepStep s = .next (event stepSweep s) := rfl

theorem stepSweep_idle {s : State} (h : s.sweep.state ≠ .running) : stepSweep s = s := by
  unfold stepSweep
  exact if_neg h

theorem stepSweep_running {s : State} {k : SweepKind} {i : RecIx} (h : s.sweep.state = .running)
    (hk : s.sweep.kind = some k) (hi : s.sweep.cursor = i.val) :
    stepSweep s = { (sweepAction k i s).1 with sweep := s.sweep.stepped (sweepAction k i s).2 } := by
  unfold stepSweep
  rw [if_pos h, hk, inRange_eq hi]
  dsimp only
  rw [sweepAction_sweep]

/-- The sweep that a running step leaves, as R175 states it. -/
theorem Sweep.stepped_running {w : Sweep} {i : RecIx} (h : w.state = .running) (hi : w.cursor = i.val) (b : Bool) :
    w.stepped b = { w with
      cursor := i.val + 1
      changed := if b = true then w.changed + 1 else w.changed
      state := if i.val = 1023 then .idle else .running
      lastEnd := if i.val = 1023 then .completed else w.lastEnd } := by
  have hlast : 1024 ≤ i.val + 1 ↔ i.val = 1023 := by omega
  unfold Sweep.stepped
  rw [hi, h]
  simp only [hlast]

section
variable {k : SweepKind} {i : RecIx} {s : State} {e : Enrolled} {a : Attachment} {d : Time}

/-- On an ATTACHED record a step does what its kind says (R176). -/
theorem sweepAction_attached (he : (s.record i).enrolled = some e) (hl : e.loc = .attached a d) :
    sweepAction k i s =
      match k with
      | .revalidate =>
        match checkStored s e a a.cell .location with
        | none => (s, false)
        | some v => (sendAck a.cell e.hid (.revoked v) (changeLocation i e .absent s), true)
      | .expireVisitors => if isVisitor i = true then (changeLocation i e .absent s, true) else (s, false)
      | .purgeGroup g => if e.group = g then (changeLocation i e .absent s, true) else (s, false) := by
  unfold sweepAction revokeRecord detachRecord revoke
  rw [he]
  dsimp only
  rw [hl] <;> rfl

/-- A record that is not ATTACHED is passed over (R176). -/
theorem sweepAction_outside (h : ∀ e a d, (s.record i).enrolled = some e → e.loc ≠ .attached a d) :
    sweepAction k i s = (s, false) := by
  unfold sweepAction
  cases he : (s.record i).enrolled with
  | none => rfl
  | some e =>
    cases hl : e.loc with
    | absent => simp only [hl]
    | engaged a x => simp only [hl]
    | attached a d => exact absurd hl (h e a d he)

end

theorem isVisitor_iff (i : RecIx) : isVisitor i = true ↔ 896 ≤ i.val := decide_eq_true_iff

/-- A step that passes its record over leaves everything but the sweep. -/
theorem runs_passedOver {s : State} {k : SweepKind} {i : RecIx} {w : Sweep} (h : s.sweep.state = .running)
    (hk : s.sweep.kind = some k) (hi : s.sweep.cursor = i.val) (ha : sweepAction k i s = (s, false))
    (hw : s.sweep.stepped false = w) : Runs .sweepStep s (EventEnd s { s with sweep := w }) := by
  refine runs_event (s := s) (u := { s with sweep := w }) (exec_sweepStep s) ?_ rfl rfl fun _ ht => ht
  rw [stepSweep_running h hk hi, ha, hw]

/-- A step that detaches its record leaves it ABSENT. -/
theorem runs_sweptAway {s u : State} {k : SweepKind} {i : RecIx} {e : Enrolled} {w : Sweep} (h : s.sweep.state = .running)
    (hk : s.sweep.kind = some k) (hi : s.sweep.cursor = i.val) (ha : sweepAction k i s = (u, true))
    (hw : s.sweep.stepped true = w) (hr : u.records = (changeLocation i e .absent s).records) (hq : u.hrq = s.hrq)
    (hc : u.calls = s.calls) :
    Runs .sweepStep s fun t =>
      (t.record i).enrolled = (if isVisitor i = true then none else some { e with loc := .absent }) ∧
      EventEnd s { u with sweep := w } t := by
  refine runs_event (u := { u with sweep := w }) (exec_sweepStep s) ?_ hq hc fun t ht => ⟨?_, ht⟩
  · rw [stepSweep_running h hk hi, ha, hw]
  · have hrec : ({ u with sweep := w } : State).record i = (changeLocation i e .absent s).record i := by
      unfold State.record
      rw [← hr]
    rw [ht.enrolled, hrec, (changeLocation_record i e .absent s).1]
    simp

/-- Settles O52. -/
theorem sweepStepTaken : Obligations.SweepStepTaken := by
  intro s
  refine ⟨fun h => congrArg Host.Outcome.next (event_eq_quiet (stepSweep_idle h) (Quiet.refl s)),
    fun k i w h hk hi hw => ?_⟩
  have hstep : ∀ b, s.sweep.stepped b = w b := fun b => (Sweep.stepped_running h hi b).trans (hw b).symm
  refine ⟨fun hpass => runs_passedOver h hk hi ?_ (hstep false), fun e a d he hl => ⟨fun v hv hc => ?_, fun hg => ?_⟩⟩
  · by_cases hout : ∀ e a d, (s.record i).enrolled = some e → e.loc ≠ .attached a d
    · exact sweepAction_outside hout
    · push Not at hout
      obtain ⟨e, a, d, he, hl⟩ := hout
      have hp := hpass e a d he hl
      rw [sweepAction_attached he hl]
      cases k with
      | revalidate =>
        dsimp only at hp ⊢
        rw [hp]
      | expireVisitors => exact if_neg fun hv => absurd ((isVisitor_iff i).1 hv) (not_le.2 hp)
      | purgeGroup g => exact if_neg hp
  · have hr := changeLocation_registry i e .absent s
    refine runs_sweptAway h hk hi ?_ (hstep true) (sendAck_records a.cell e.hid (.revoked v) _)
      ((sendAck_hrq a.cell e.hid (.revoked v) _).trans hr.hrq) ((sendAck_calls a.cell e.hid (.revoked v) _).trans hr.calls)
    subst hv
    rw [sweepAction_attached he hl]
    dsimp only
    rw [hc]
  · have hr := changeLocation_registry i e .absent s
    refine runs_sweptAway h hk hi ?_ (hstep true) rfl hr.hrq hr.calls
    rw [sweepAction_attached he hl]
    rcases hg with ⟨rfl, hi'⟩ | rfl
    · exact if_pos ((isVisitor_iff i).2 hi')
    · exact if_pos rfl

end Sys2Proof.Machine
end

section
/-! PROOFS. What a write of a zone, a gate, a filter or a neighbour list stores, and the values refused (R22, R41, R42, R58,
R182, R183). -/

namespace Sys2Proof.Machine

/-! ### Indices and ranges -/

theorem inRange_val {n : Nat} (i : Fin n) : inRange n i.val = some i := inRange_eq rfl

theorem inRange_none {n v : Nat} (h : n ≤ v) : inRange n v = none := by
  unfold inRange
  rw [dif_neg (by omega)]

theorem atIndex_val {n : Nat} (i : Fin n) (f : Fin n → State → State × MgmtAnswer) (s : State) :
    atIndex n i.val f s = f i s := by
  unfold atIndex
  rw [inRange_val]

theorem gateGroupIn_operand (q : GateGroup) : gateGroupIn q.operand = some q := by
  cases q with
  | any => rfl
  | only g => exact congrArg (Option.map GateGroup.only) (inRange_val g)

theorem gateGroupIn_none {n : Nat} (h : 31 < n) : gateGroupIn (.num n) = none :=
  congrArg (Option.map GateGroup.only) (inRange_none h)

theorem unlessLocked_unlocked {s : State} (h : s.sweep.state = .idle ∨ s.sweep.kind ≠ some .revalidate)
    (f : State → State × MgmtAnswer) : unlessLocked f s = f s := by
  unfold unlessLocked
  refine if_neg fun hl => ?_
  unfold Sweep.locked Sweep.underWay at hl
  rcases h with h | h <;> simp [h] at hl

/-! ### The writes -/

section
variable (s : State)

theorem writeZone_stored (z : ZoneIx) (p : Bool) (k : ZoneKind) (l : Clearance) :
    ZoneStored z ⟨p, k, l⟩ s (writeZone z p (some k) l.val s) := by
  unfold writeZone
  rw [inRange_val]
  exact ⟨rfl, State.zone_setZone_self s z _, fun y hy => State.zone_setZone_ne s hy _, rfl⟩

theorem writeZone_kind (z : ZoneIx) (p : Bool) (n : Nat) :
    writeZone z p none n s = (s, ⟨.badValue, .field 2⟩) := rfl

theorem writeZone_level (z : ZoneIx) (p : Bool) (k : ZoneKind) {n : Nat} (h : 3 < n) :
    writeZone z p (some k) n s = (s, ⟨.badValue, .field 3⟩) := by
  unfold writeZone
  rw [inRange_none h]
  rfl

theorem writeGate_stored (g : GateIx) (p : Bool) (z : ZoneIx) (q : GateGroup) (l : Clearance) (m : GateMode) :
    GateStored g ⟨p, z, q, l, m⟩ s (writeGate g p z.val q.operand l.val (some m) s) := by
  unfold writeGate
  rw [inRange_val, gateGroupIn_operand, inRange_val]
  exact ⟨rfl, State.gate_setGate_self s g _, fun y hy => State.gate_setGate_ne s hy _, rfl⟩

theorem writeGate_zone (g : GateIx) (p : Bool) {n : Nat} (h : 15 < n) (v : GroupOperand) (o : Nat) (m : Option GateMode) :
    writeGate g p n v o m s = (s, ⟨.badValue, .field 2⟩) := by
  unfold writeGate
  rw [inRange_none h]
  rfl

theorem writeGate_group (g : GateIx) (p : Bool) (z : ZoneIx) {n : Nat} (h : 31 < n) (o : Nat) (m : Option GateMode) :
    writeGate g p z.val (.num n) o m s = (s, ⟨.badValue, .field 3⟩) := by
  unfold writeGate
  rw [inRange_val, gateGroupIn_none h]
  rfl

theorem writeGate_level (g : GateIx) (p : Bool) (z : ZoneIx) (q : GateGroup) {n : Nat} (h : 3 < n) (m : Option GateMode) :
    writeGate g p z.val q.operand n m s = (s, ⟨.badValue, .field 4⟩) := by
  unfold writeGate
  rw [inRange_val, gateGroupIn_operand, inRange_none h]
  rfl

theorem writeGate_mode (g : GateIx) (p : Bool) (z : ZoneIx) (q : GateGroup) (l : Clearance) :
    writeGate g p z.val q.operand l.val none s = (s, ⟨.badValue, .field 5⟩) := by
  unfold writeGate
  rw [inRange_val, gateGroupIn_operand, inRange_val]
  rfl

theorem writeFilter_stored (f : FilterIx) (b : Bool) (m v : Hid) (cl : Clearance) (g : Group) :
    FilterStored f ⟨b, m, v, cl, g⟩ s (writeFilter f b m v cl.val g.val s) := by
  unfold writeFilter
  rw [inRange_val, inRange_val]
  exact ⟨rfl, State.filter_setFilter_self s f _, fun y hy => State.filter_setFilter_ne s hy _, rfl⟩

theorem writeFilter_clearance (f : FilterIx) (b : Bool) (m v : Hid) {n : Nat} (h : 3 < n) (o : Nat) :
    writeFilter f b m v n o s = (s, ⟨.badValue, .field 4⟩) := by
  unfold writeFilter
  rw [inRange_none h]
  rfl

theorem writeFilter_group (f : FilterIx) (b : Bool) (m v : Hid) (cl : Clearance) {n : Nat} (h : 31 < n) :
    writeFilter f b m v cl.val n s = (s, ⟨.badValue, .field 5⟩) := by
  unfold writeFilter
  rw [inRange_val, inRange_none h]
  rfl

theorem setNeighbours_stored (c : CellIx) (l : List Neighbour) :
    NeighboursStored c l s (taken (s.setCell c { s.cell c with neighbours := l })) :=
  ⟨rfl, State.cell_setCell_self s c _, fun _ hy => State.cell_setCell_ne s hy _, rfl⟩

end

/-! ### Neighbour lists (R58) -/

/-- A neighbour list as a write carries it. -/
def carriedNeighbours (l : List Neighbour) : List NeighbourWrite := l.map fun e => ⟨e.cell.val, e.margin⟩

/-- A list of neighbours that R58 accepts whole, where `seen` are the cells of the entries before it. -/
structure NeighboursFit (c : CellIx) (seen : List Nat) (l : List Neighbour) : Prop where
  once : (l.map (·.cell)).Nodup
  owner : c ∉ l.map (·.cell)
  margins : ∀ e ∈ l, -8 ≤ e.margin ∧ e.margin ≤ 15
  fresh : ∀ e ∈ l, e.cell.val ∉ seen

theorem NeighboursFit.tail {c : CellIx} {seen : List Nat} {e : Neighbour} {l : List Neighbour}
    (h : NeighboursFit c seen (e :: l)) : NeighboursFit c (e.cell.val :: seen) l where
  once := (List.nodup_cons.1 h.once).2
  owner := fun hm => h.owner (List.mem_cons_of_mem _ hm)
  margins := fun d hd => h.margins d (List.mem_cons_of_mem _ hd)
  fresh := fun d hd hs => by
    rcases List.mem_cons.1 hs with heq | hs
    · exact (List.nodup_cons.1 h.once).1 (List.mem_map.2 ⟨d, hd, Fin.ext heq⟩)
    · exact h.fresh d (List.mem_cons_of_mem _ hd) hs

/-- The judgement passes a list that fits, up to the eighth entry, and goes on behind it. -/
theorem firstBadNeighbour_fit {c : CellIx} {l : List Neighbour} {seen : List Nat} (h : NeighboursFit c seen l) {n : Nat}
    (hn : n + l.length ≤ 9) (after : List NeighbourWrite) :
    firstBadNeighbour c n seen (carriedNeighbours l ++ after) =
      firstBadNeighbour c (n + l.length) ((l.map fun e => e.cell.val).reverse ++ seen) after := by
  induction l generalizing n seen with
  | nil => rfl
  | cons e l ih =>
    have hok : ¬ (Config.neighbourCapacity < n ∨ 63 < e.cell.val ∨ e.margin < -8 ∨ 15 < e.margin ∨
        e.cell.val = c.val ∨ e.cell.val ∈ seen) := by
      have hm := h.margins e List.mem_cons_self
      have hc : e.cell.val ≠ c.val := fun hc => h.owner (List.mem_map.2 ⟨e, List.mem_cons_self, Fin.ext hc⟩)
      have hf := h.fresh e List.mem_cons_self
      have hlt := e.cell.isLt
      have hcap : n ≤ 8 := by
        rw [List.length_cons] at hn
        omega
      simp only [not_or, not_lt]
      exact ⟨hcap, by omega, hm.1, hm.2, hc, hf⟩
    rw [List.length_cons] at hn
    have hstep : firstBadNeighbour c n seen (carriedNeighbours (e :: l) ++ after) =
        firstBadNeighbour c (n + 1) (e.cell.val :: seen) (carriedNeighbours l ++ after) := if_neg hok
    rw [hstep, ih h.tail (by omega), List.map_cons, List.reverse_cons, List.append_assoc, List.length_cons,
      Nat.add_right_comm, Nat.add_assoc]
    rfl

theorem neighboursOf_carried (l : List Neighbour) : neighboursOf (carriedNeighbours l) = l := by
  induction l with
  | nil => rfl
  | cons e l ih =>
    change (match inRange 64 e.cell.val with
      | some c => ⟨c, e.margin⟩ :: neighboursOf (carriedNeighbours l)
      | none => neighboursOf (carriedNeighbours l)) = e :: l
    rw [inRange_val, ih]

section
variable {c : CellIx} {l : List Neighbour} (h : NeighboursFit c [] l) (hl : l.length ≤ 8) (s : State)
include h hl

theorem writeNeighbours_stored : NeighboursStored c l s (writeNeighbours c (carriedNeighbours l) s) := by
  have hb := firstBadNeighbour_fit h (n := 1) (by omega) []
  rw [List.append_nil] at hb
  unfold writeNeighbours
  rw [hb, neighboursOf_carried]
  exact setNeighbours_stored s c l

theorem writeNeighbours_refused {e : NeighbourWrite} (after : List NeighbourWrite)
    (he : 63 < e.cell ∨ e.margin < -8 ∨ 15 < e.margin ∨ e.cell = c.val ∨ (∃ d ∈ l, e.cell = d.cell.val) ∨ l.length = 8) :
    writeNeighbours c (carriedNeighbours l ++ e :: after) s = (s, ⟨.badValue, .field (l.length + 1)⟩) := by
  have hbad : Config.neighbourCapacity < 1 + l.length ∨ 63 < e.cell ∨ e.margin < -8 ∨ 15 < e.margin ∨
      e.cell = c.val ∨ e.cell ∈ (l.map fun d => d.cell.val).reverse ++ [] := by
    rw [List.append_nil, List.mem_reverse, List.mem_map]
    rcases he with h | h | h | h | ⟨d, hd, h⟩ | h
    · exact .inr (.inl h)
    · exact .inr (.inr (.inl h))
    · exact .inr (.inr (.inr (.inl h)))
    · exact .inr (.inr (.inr (.inr (.inl h))))
    · exact .inr (.inr (.inr (.inr (.inr ⟨d, hd, h.symm⟩))))
    · exact .inl (by rw [h]; decide)
  unfold writeNeighbours
  rw [firstBadNeighbour_fit h (by omega), firstBadNeighbour, if_pos hbad, Nat.add_comm]
  rfl

end

/-! ### The rows -/

/-- Zones, where no sweep locks them (R41). -/
theorem zones_stored {s : State} (h : s.sweep.state = .idle ∨ s.sweep.kind ≠ some .revalidate) (z : ZoneIx) (p : Bool)
    (k : ZoneKind) (l : Clearance) :
    ZoneStored z ⟨p, k, l⟩ s (tableWrite z.val (.zone p (some k) l.val) s) ∧
    ZoneStored z { s.zone z with present := p } s (fieldModify z.val (.zonePresent p) s) ∧
    ZoneStored z { s.zone z with kind := k } s (fieldModify z.val (.zoneKind (some k)) s) ∧
    ZoneStored z { s.zone z with level := l } s (fieldModify z.val (.zoneLevel l.val) s) ∧
    ZoneStored z ⟨false, .openZone, 0⟩ s (tableClear .zone z.val s) ∧
    (∀ n, tableWrite z.val (.zone p none n) s = (s, ⟨.badValue, .field 2⟩)) ∧
    fieldModify z.val (.zoneKind none) s = (s, ⟨.badValue, .field 2⟩) ∧
    ∀ n, 3 < n → tableWrite z.val (.zone p (some k) n) s = (s, ⟨.badValue, .field 3⟩) ∧
      fieldModify z.val (.zoneLevel n) s = (s, ⟨.badValue, .field 3⟩) := by
  simp only [tableWrite, fieldModify, tableClear, atIndex_val, unlessLocked_unlocked h]
  exact ⟨writeZone_stored s z p k l, writeZone_stored s z p _ _, writeZone_stored s z _ k _, writeZone_stored s z _ _ l,
    ⟨rfl, State.zone_setZone_self s z _, fun y hy => State.zone_setZone_ne s hy _, rfl⟩, writeZone_kind s z p,
    writeZone_kind s z _ _, fun n hn => ⟨writeZone_level s z p k hn, writeZone_level s z _ _ hn⟩⟩

/-- Gates, where no sweep locks them (R42). -/
theorem gates_stored {s : State} (h : s.sweep.state = .idle ∨ s.sweep.kind ≠ some .revalidate) (g : GateIx) (p : Bool)
    (z : ZoneIx) (q : GateGroup) (l : Clearance) (m : GateMode) :
    GateStored g ⟨p, z, q, l, m⟩ s (tableWrite g.val (.gate p z.val q.operand l.val (some m)) s) ∧
    GateStored g { s.gate g with present := p } s (fieldModify g.val (.gatePresent p) s) ∧
    GateStored g { s.gate g with zone := z } s (fieldModify g.val (.gateZone z.val) s) ∧
    GateStored g { s.gate g with group := q } s (fieldModify g.val (.gateGroup q.operand) s) ∧
    GateStored g { s.gate g with level := l } s (fieldModify g.val (.gateLevel l.val) s) ∧
    GateStored g { s.gate g with mode := m } s (fieldModify g.val (.gateMode (some m)) s) ∧
    GateStored g ⟨false, 0, .only 0, 0, .any⟩ s (tableClear .gate g.val s) ∧
    (∀ n v o h, 15 < n → tableWrite g.val (.gate p n v o h) s = (s, ⟨.badValue, .field 2⟩) ∧
      fieldModify g.val (.gateZone n) s = (s, ⟨.badValue, .field 2⟩)) ∧
    (∀ n o h, 31 < n → tableWrite g.val (.gate p z.val (.num n) o h) s = (s, ⟨.badValue, .field 3⟩) ∧
      fieldModify g.val (.gateGroup (.num n)) s = (s, ⟨.badValue, .field 3⟩)) ∧
    (∀ n h, 3 < n → tableWrite g.val (.gate p z.val q.operand n h) s = (s, ⟨.badValue, .field 4⟩) ∧
      fieldModify g.val (.gateLevel n) s = (s, ⟨.badValue, .field 4⟩)) ∧
    tableWrite g.val (.gate p z.val q.operand l.val none) s = (s, ⟨.badValue, .field 5⟩) ∧
    fieldModify g.val (.gateMode none) s = (s, ⟨.badValue, .field 5⟩) := by
  simp only [tableWrite, fieldModify, tableClear, atIndex_val, unlessLocked_unlocked h]
  exact ⟨writeGate_stored s g p z q l m, writeGate_stored s g p _ _ _ _, writeGate_stored s g _ z _ _ _,
    writeGate_stored s g _ _ q _ _, writeGate_stored s g _ _ _ l _, writeGate_stored s g _ _ _ _ m,
    ⟨rfl, State.gate_setGate_self s g _, fun y hy => State.gate_setGate_ne s hy _, rfl⟩,
    fun n v o k hn => ⟨writeGate_zone s g p hn v o k, writeGate_zone s g _ hn _ _ _⟩,
    fun n o k hn => ⟨writeGate_group s g p z hn o k, writeGate_group s g _ _ hn _ _⟩,
    fun n k hn => ⟨writeGate_level s g p z q hn k, writeGate_level s g _ _ _ hn _⟩, writeGate_mode s g p z q l,
    writeGate_mode s g _ _ _ _⟩

/-- Filters (R22). -/
theorem filters_stored (s : State) (f : FilterIx) (b : Bool) (m v : Hid) (cl : Clearance) (g : Group) :
    FilterStored f ⟨b, m, v, cl, g⟩ s (tableWrite f.val (.filter b m v cl.val g.val) s) ∧
    FilterStored f { s.filter f with enabled := b } s (fieldModify f.val (.filterEnabled b) s) ∧
    FilterStored f { s.filter f with mask := m } s (fieldModify f.val (.filterMask m) s) ∧
    FilterStored f { s.filter f with value := v } s (fieldModify f.val (.filterValue v) s) ∧
    FilterStored f { s.filter f with clearance := cl } s (fieldModify f.val (.filterClearance cl.val) s) ∧
    FilterStored f { s.filter f with group := g } s (fieldModify f.val (.filterGroup g.val) s) ∧
    FilterStored f ⟨false, 0, 0, 0, 0⟩ s (tableClear .filter f.val s) ∧
    (∀ n o, 3 < n → tableWrite f.val (.filter b m v n o) s = (s, ⟨.badValue, .field 4⟩) ∧
      fieldModify f.val (.filterClearance n) s = (s, ⟨.badValue, .field 4⟩)) ∧
    ∀ n, 31 < n → tableWrite f.val (.filter b m v cl.val n) s = (s, ⟨.badValue, .field 5⟩) ∧
      fieldModify f.val (.filterGroup n) s = (s, ⟨.badValue, .field 5⟩) := by
  simp only [tableWrite, fieldModify, tableClear, atIndex_val, modifyFilter]
  exact ⟨writeFilter_stored s f b m v cl g, writeFilter_stored s f b _ _ _ _, writeFilter_stored s f _ m _ _ _,
    writeFilter_stored s f _ _ v _ _, writeFilter_stored s f _ _ _ cl _, writeFilter_stored s f _ _ _ _ g,
    ⟨rfl, State.filter_setFilter_self s f _, fun y hy => State.filter_setFilter_ne s hy _, rfl⟩,
    fun n o hn => ⟨writeFilter_clearance s f b m v hn o, writeFilter_clearance s f _ _ _ hn _⟩,
    fun n hn => ⟨writeFilter_group s f b m v cl hn, writeFilter_group s f _ _ _ _ hn⟩⟩

/-- Settles O57. -/
theorem entriesStored : Obligations.EntriesStored := by
  refine ⟨fun s h => ⟨zones_stored h, gates_stored h⟩, filters_stored, fun s c => ?_⟩
  simp only [tableWrite, tableClear, atIndex_val]
  refine ⟨setNeighbours_stored s c [], fun l hl hn ho hm => ?_⟩
  have hfit : NeighboursFit c [] l := ⟨hn, ho, hm, fun _ _ => nofun⟩
  exact ⟨writeNeighbours_stored hfit hl s, fun e after he => writeNeighbours_refused hfit hl s after he⟩

end Sys2Proof.Machine
end

section
/-! PROOFS. Subscriber writes, field writes and clears, and the eviction of a visitor (R19, R34, R183). -/

namespace Sys2Proof.Machine

/-! ### Duplicates (R183) -/

/-- The one other record that holds a HID is the duplicate. -/
theorem duplicateOf_unique {j q : RecIx} {h : Hid} {s : State} {e : Enrolled} (hq : q ≠ j)
    (he : (s.record q).enrolled = some e) (hh : e.hid = h)
    (honly : ∀ q' e', q' ≠ q → (s.record q').enrolled = some e' → e'.hid ≠ h) : duplicateOf j h s = some q := by
  cases hd : duplicateOf j h s with
  | none =>
    refine absurd ?_ (duplicateOf_none hd hq)
    unfold Record.presentHid
    rw [he, Option.map_some, hh]
  | some p =>
    have hp : (!decide (p = j) && decide ((s.record p).enrolled.map (·.hid) = some h)) = true := Table.find_some _ _ _ hd
    simp only [Bool.and_eq_true, Bool.not_eq_true', decide_eq_false_iff_not, decide_eq_true_eq,
      Option.map_eq_some_iff] at hp
    obtain ⟨-, f, hf, hfh⟩ := hp
    by_contra hne
    exact honly p f (fun h => hne (by rw [h])) hf hfh

theorem duplicateOf_absent {j : RecIx} {h : Hid} {s : State}
    (ho : ∀ q e, q ≠ j → (s.record q).enrolled = some e → e.hid ≠ h) : duplicateOf j h s = none := by
  cases hd : duplicateOf j h s with
  | none => rfl
  | some p =>
    have hp : (!decide (p = j) && decide ((s.record p).enrolled.map (·.hid) = some h)) = true := Table.find_some _ _ _ hd
    simp only [Bool.and_eq_true, Bool.not_eq_true', decide_eq_false_iff_not, decide_eq_true_eq,
      Option.map_eq_some_iff] at hp
    obtain ⟨hne, f, hf, hfh⟩ := hp
    exact absurd hfh (ho p f hne hf)

/-- Where no HID is held twice, a record's own HID has no duplicate. -/
theorem duplicateOf_own {j : RecIx} {s : State} {e : Enrolled} (hs : s.HidsOnce) (he : (s.record j).enrolled = some e) :
    duplicateOf j e.hid s = none := by
  refine duplicateOf_absent fun q f hq hf hfh => hq (hs q j e.hid ?_ ?_)
  · unfold Record.presentHid
    rw [hf, Option.map_some, hfh]
  · unfold Record.presentHid
    rw [he, Option.map_some]

/-! ### The subscriber write (R183) -/

section
variable {s : State} {j : RecIx} {h : Hid} {cl : Clearance} {g : Group}

theorem writeSubscriber_duplicate {q : RecIx} (hd : duplicateOf j h s = some q) :
    writeSubscriber j h cl.val g.val s = (s, ⟨.duplicate, .recordIndex q⟩) := by
  unfold writeSubscriber
  rw [inRange_val, inRange_val, hd]
  rfl

theorem writeSubscriber_new (hd : duplicateOf j h s = none) (he : (s.record j).enrolled = none) :
    writeSubscriber j h cl.val g.val s =
      (s.setRecord j { s.record j with holder := .present ⟨h, cl, g, none, .absent⟩, lastChange := s.now },
        ⟨.ok, .none⟩) := by
  unfold writeSubscriber
  rw [inRange_val, inRange_val, hd]
  simp only [hidInUse, subscriberRecord, subscriberHolder, he]
  rfl

theorem writeSubscriber_inUse {e : Enrolled} (hd : duplicateOf j h s = none) (he : (s.record j).enrolled = some e)
    (hl : e.loc ≠ .absent) (hh : e.hid ≠ h) : writeSubscriber j h cl.val g.val s = (s, ⟨.inUse, .none⟩) := by
  have hu : hidInUse (s.record j) h = true := by simp [hidInUse, he, hl, hh]
  unfold writeSubscriber
  rw [inRange_val, inRange_val, hd]
  exact if_pos hu

theorem writeSubscriber_held {e : Enrolled} (hd : duplicateOf j h s = none) (he : (s.record j).enrolled = some e)
    (hl : e.loc = .absent ∨ e.hid = h) : writeSubscriber j h cl.val g.val s =
      (s.setRecord j { s.record j with holder := .present { e with hid := h, clearance := cl, group := g } },
        ⟨.ok, .none⟩) := by
  have hu : hidInUse (s.record j) h = false := by rcases hl with hl | hl <;> simp [hidInUse, he, hl]
  unfold writeSubscriber
  rw [inRange_val, inRange_val, hd]
  simp only [hu, subscriberRecord, subscriberHolder, he]
  rfl

theorem writeSubscriber_clearance {n : Nat} (hn : 3 < n) (m : Nat) :
    writeSubscriber j h n m s = (s, ⟨.badValue, .field 2⟩) := by
  unfold writeSubscriber
  rw [inRange_none hn]
  rfl

theorem writeSubscriber_group {n : Nat} (hn : 31 < n) :
    writeSubscriber j h cl.val n s = (s, ⟨.badValue, .field 3⟩) := by
  unfold writeSubscriber
  rw [inRange_val, inRange_none hn]
  rfl

theorem modifySubscriber_absent (he : (s.record j).enrolled = none) (f : Enrolled → Hid × Nat × Nat) :
    modifySubscriber j f s = (s, ⟨.badIndex, .none⟩) := by
  unfold modifySubscriber
  rw [he]
  rfl

theorem modifySubscriber_present {e : Enrolled} (he : (s.record j).enrolled = some e) (f : Enrolled → Hid × Nat × Nat) :
    modifySubscriber j f s = writeSubscriber j (f e).1 (f e).2.1 (f e).2.2 s := by
  unfold modifySubscriber
  rw [he]

end

/-! ### The subscriber clear and the eviction (R34, R183) -/

theorem offerQuietly_ports_congr {s u : State} (h : u.ports = s.ports) (f : CtlFrame) :
    (offerQuietly f u).ports = (offerQuietly f s).ports := by
  unfold offerQuietly offer
  dsimp only [State.setPort, State.port]
  rw [h]
  repeat' split
  all_goals first | rfl | exact h

theorem removeRecord_absent {i : RecIx} {s : State} {e : Enrolled} (he : (s.record i).enrolled = some e)
    (hl : e.loc = .absent) : removeRecord i s = s.setRecord i
      { s.record i with holder := if (s.record i).dirty = true ∨ (s.record i).queued = true then .kept e.hid else .empty } := by
  unfold removeRecord
  dsimp only
  rw [he]
  dsimp only
  rw [hl]
  simp only [Bool.or_eq_true]

theorem revokeRecord_attached {i : RecIx} {s : State} {e : Enrolled} {a : Attachment} {d : Time}
    (he : (s.record i).enrolled = some e) (hl : e.loc = .attached a d) (v : Denial) :
    revokeRecord i v s = sendAck a.cell e.hid (.revoked v) (changeLocation i e .absent s) := by
  unfold revokeRecord
  rw [he]
  dsimp only
  rw [hl]
  rfl

section
variable {s : State} {j : RecIx} {e : Enrolled}

theorem clearSubscriber_none (he : (s.record j).enrolled = none) : clearSubscriber j s = (s, ⟨.ok, .none⟩) := by
  unfold clearSubscriber
  rw [he]
  rfl

theorem clearSubscriber_engaged {a : Attachment} {x : Channel} (he : (s.record j).enrolled = some e)
    (hl : e.loc = .engaged a x) : clearSubscriber j s = (s, ⟨.inUse, .none⟩) := by
  unfold clearSubscriber
  rw [he]
  dsimp only
  rw [hl]
  rfl

theorem clearSubscriber_absent (he : (s.record j).enrolled = some e) (hl : e.loc = .absent) :
    clearSubscriber j s = (s.setRecord j { s.record j with
      holder := if (s.record j).dirty = true ∨ (s.record j).queued = true then .kept e.hid else .empty },
      ⟨.ok, .none⟩) := by
  unfold clearSubscriber
  rw [he]
  dsimp only
  rw [hl]
  dsimp only
  rw [removeRecord_absent he hl]
  rfl

theorem clearSubscriber_attached {a : Attachment} {d : Time} (he : (s.record j).enrolled = some e)
    (hl : e.loc = .attached a d) : clearSubscriber j s =
      (removeRecord j (sendAck a.cell e.hid (.revoked ⟨.unknownHandset, 0, .none⟩) (changeLocation j e .absent s)),
        ⟨.ok, .none⟩) := by
  unfold clearSubscriber
  rw [he]
  dsimp only
  rw [hl]
  dsimp only
  rw [revokeRecord_attached he hl]
  rfl

/-- The clear of an ATTACHED subscriber: its REVOKED frame is offered, its notice is owed, and the record stops being
present (R34, R183). -/
theorem clearSubscriber_revoked {a : Attachment} {d : Time} (hv : isVisitor j = false)
    (he : (s.record j).enrolled = some e) (hl : e.loc = .attached a d) :
    ∃ t, clearSubscriber j s = (t, ⟨.ok, .none⟩) ∧
      (t.record j).enrolled = none ∧ (t.record j).hid = some e.hid ∧ (t.record j).lastChange = s.now ∧
      (t.record j).dirty = true ∧ (∀ q, q ≠ j → t.record q = s.record q) ∧
      t = { s with
        ports := (sendAck a.cell e.hid (.revoked ⟨.unknownHandset, 0, .none⟩) s).ports
        records := t.records, notices := t.notices, pages := t.pages } := by
  let w := changeLocation j e .absent s
  let u := sendAck a.cell e.hid (.revoked ⟨.unknownHandset, 0, .none⟩) w
  have hrec : ∀ q, u.record q = (writeLocation j e .absent s).record q := fun q => by
    unfold State.record
    rw [sendAck_records, changeLocation_records]
  obtain ⟨-, hchange, hdirty, -, -, hother, -⟩ := writeLocation_raised j e .absent s
  have henrolled : (u.record j).enrolled = some { e with loc := .absent } := by
    rw [hrec, (writeLocation_record j e .absent s).1, hv]
    rfl
  rw [← hrec] at hchange hdirty
  refine ⟨_, clearSubscriber_attached he hl, ?_⟩
  rw [removeRecord_absent henrolled rfl, if_pos (Or.inl hdirty)]
  refine ⟨?_, ?_, ?_, ?_, fun q hq => ?_, ?_⟩
  · rw [State.record_setRecord_self]; rfl
  · rw [State.record_setRecord_self]; rfl
  · rw [State.record_setRecord_self]; exact hchange
  · rw [State.record_setRecord_self]; exact hdirty
  · rw [State.record_setRecord_ne _ hq]
    exact (hrec q).trans (hother q hq)
  · have honly : w = { s with records := w.records, notices := w.notices, pages := w.pages } :=
      changeLocation_only j e .absent s
    have hports : u.ports = (sendAck a.cell e.hid (.revoked ⟨.unknownHandset, 0, .none⟩) s).ports :=
      offerQuietly_ports_congr (changeLocation_registry j e .absent s).ports _
    have hu : u = { w with ports := u.ports } := offerQuietly_ports _ w
    rw [hports, honly] at hu
    change u.setRecord j _ = _
    rw [hu]
    rfl

theorem evict_unknown {h : Hid} (hn : s.findHid h = none) : evict h s = (s, ⟨.badIndex, .none⟩) := by
  unfold evict
  rw [hn]
  rfl

theorem evict_subscriber {h : Hid} (hi : s.findHid h = some j) (hj : j.val < 896) :
    evict h s = (s, ⟨.badValue, .field 1⟩) := by
  unfold evict
  rw [hi]
  exact if_neg fun hv => absurd ((isVisitor_iff j).1 hv) (not_le.2 hj)

theorem evict_engaged {h : Hid} {a : Attachment} {x : Channel} (hi : s.findHid h = some j) (hj : 896 ≤ j.val)
    (he : (s.record j).enrolled = some e) (hl : e.loc = .engaged a x) : evict h s = (s, ⟨.inUse, .none⟩) := by
  unfold evict
  rw [hi]
  dsimp only
  rw [if_pos ((isVisitor_iff j).2 hj), he]
  dsimp only
  rw [hl]
  rfl

theorem evict_attached {h : Hid} {a : Attachment} {d : Time} (hi : s.findHid h = some j) (hj : 896 ≤ j.val)
    (he : (s.record j).enrolled = some e) (hl : e.loc = .attached a d) : evict h s =
      (sendAck a.cell e.hid (.revoked ⟨.unknownHandset, 0, .none⟩) (changeLocation j e .absent s), ⟨.ok, .none⟩) := by
  unfold evict
  rw [hi]
  dsimp only
  rw [if_pos ((isVisitor_iff j).2 hj), he]
  dsimp only
  rw [hl]
  dsimp only
  rw [revokeRecord_attached he hl]
  rfl

end

theorem exec_evict (tag : Tag) (h : Hid) (s : State) :
    exec (.evict tag h) s = .next (event (respond tag (asksEvict h) (evict h)) s) := rfl

theorem answered_records (tag : Tag) (a : MgmtAnswer) (s : State) : (answered tag a s).records = s.records := by
  unfold answered completeRequest startRequest sendResponse reply
  dsimp only [State.count]
  repeat' split
  all_goals rfl

/-! ### The rows -/

/-- The writes of one subscriber record. -/
theorem subscriber_written (s : State) (i : Fin 896) (h : Hid) (cl : Clearance) (g : Group) :
    (∀ q e, q ≠ subscriberIx i → (s.record q).enrolled = some e → e.hid = h →
      (∀ q' e', q' ≠ q → (s.record q').enrolled = some e' → e'.hid ≠ h) →
      tableWrite i.val (.subscriber h cl.val g.val) s = (s, ⟨.duplicate, .recordIndex q⟩) ∧
      ((s.record (subscriberIx i)).enrolled ≠ none →
        fieldModify i.val (.subscriberHid h) s = (s, ⟨.duplicate, .recordIndex q⟩))) ∧
    ((∀ q e, q ≠ subscriberIx i → (s.record q).enrolled = some e → e.hid ≠ h) →
      ((s.record (subscriberIx i)).enrolled = none → tableWrite i.val (.subscriber h cl.val g.val) s =
        (s.setRecord (subscriberIx i) { s.record (subscriberIx i) with
          holder := .present ⟨h, cl, g, none, .absent⟩, lastChange := s.now }, ⟨.ok, .none⟩)) ∧
      ∀ e, (s.record (subscriberIx i)).enrolled = some e →
        (e.loc ≠ .absent → e.hid ≠ h → tableWrite i.val (.subscriber h cl.val g.val) s = (s, ⟨.inUse, .none⟩) ∧
          fieldModify i.val (.subscriberHid h) s = (s, ⟨.inUse, .none⟩)) ∧
        (e.loc = .absent ∨ e.hid = h → tableWrite i.val (.subscriber h cl.val g.val) s =
            (s.setRecord (subscriberIx i) { s.record (subscriberIx i) with
              holder := .present { e with hid := h, clearance := cl, group := g } }, ⟨.ok, .none⟩) ∧
          fieldModify i.val (.subscriberHid h) s =
            (s.setRecord (subscriberIx i) { s.record (subscriberIx i) with
              holder := .present { e with hid := h } }, ⟨.ok, .none⟩))) := by
  simp only [tableWrite, fieldModify, atIndex_val]
  refine ⟨fun q e hq he hh honly => ?_, fun ho => ?_⟩
  · have hd := duplicateOf_unique hq he hh honly
    refine ⟨writeSubscriber_duplicate hd, fun hp => ?_⟩
    obtain ⟨f, hf⟩ := Option.ne_none_iff_exists'.1 hp
    rw [modifySubscriber_present hf]
    exact writeSubscriber_duplicate hd
  · have hd := duplicateOf_absent ho
    refine ⟨writeSubscriber_new hd, fun e he => ⟨fun hl hh => ?_, fun hl => ?_⟩⟩ <;> rw [modifySubscriber_present he]
    · exact ⟨writeSubscriber_inUse hd he hl hh, writeSubscriber_inUse hd he hl hh⟩
    · exact ⟨writeSubscriber_held hd he hl, writeSubscriber_held hd he hl⟩

/-- The field writes of one subscriber record, by whether it is present. -/
theorem subscriber_modified (s : State) (i : Fin 896) (h : Hid) (cl : Clearance) (g : Group) :
    (∀ n m, 3 < n → tableWrite i.val (.subscriber h n m) s = (s, ⟨.badValue, .field 2⟩)) ∧
    (∀ n, 31 < n → tableWrite i.val (.subscriber h cl.val n) s = (s, ⟨.badValue, .field 3⟩)) ∧
    ((s.record (subscriberIx i)).enrolled = none → ∀ n,
      fieldModify i.val (.subscriberHid h) s = (s, ⟨.badIndex, .none⟩) ∧
      fieldModify i.val (.subscriberClearance n) s = (s, ⟨.badIndex, .none⟩) ∧
      fieldModify i.val (.subscriberGroup n) s = (s, ⟨.badIndex, .none⟩)) ∧
    ∀ e, (s.record (subscriberIx i)).enrolled = some e →
      (s.HidsOnce → fieldModify i.val (.subscriberClearance cl.val) s =
          (s.setRecord (subscriberIx i) { s.record (subscriberIx i) with
            holder := .present { e with clearance := cl } }, ⟨.ok, .none⟩) ∧
        fieldModify i.val (.subscriberGroup g.val) s =
          (s.setRecord (subscriberIx i) { s.record (subscriberIx i) with
            holder := .present { e with group := g } }, ⟨.ok, .none⟩)) ∧
      (∀ n, 3 < n → fieldModify i.val (.subscriberClearance n) s = (s, ⟨.badValue, .field 2⟩)) ∧
      ∀ n, 31 < n → fieldModify i.val (.subscriberGroup n) s = (s, ⟨.badValue, .field 3⟩) := by
  simp only [tableWrite, fieldModify, atIndex_val]
  refine ⟨fun n m hn => writeSubscriber_clearance hn m, fun n hn => writeSubscriber_group hn,
    fun he n => ⟨modifySubscriber_absent he _, modifySubscriber_absent he _, modifySubscriber_absent he _⟩,
    fun e he => ?_⟩
  simp only [modifySubscriber_present he]
  refine ⟨fun hs => ?_, fun n hn => writeSubscriber_clearance hn _, fun n hn => writeSubscriber_group hn⟩
  have hd := duplicateOf_own hs he
  exact ⟨writeSubscriber_held hd he (.inr rfl), writeSubscriber_held hd he (.inr rfl)⟩

/-- Settles O56. -/
theorem subscribersManaged : Obligations.SubscribersManaged := by
  refine ⟨fun s i j r hj hr => ?_, fun s h tag => ⟨fun hn => ?_, fun j e hi he => ⟨fun hj => ?_, fun hj a x hl => ?_,
    fun hj a d hl hx => ?_⟩⟩⟩
  · subst hj hr
    refine ⟨fun h cl g => ?_, ?_⟩
    · obtain ⟨hdup, hfree⟩ := subscriber_written s i h cl g
      exact ⟨hdup, hfree, subscriber_modified s i h cl g⟩
    · simp only [tableClear, atIndex_val]
      exact ⟨clearSubscriber_none, fun e he => ⟨fun a x hl => clearSubscriber_engaged he hl, clearSubscriber_absent he,
        fun a d hl => clearSubscriber_revoked (subscriberIx_visitor i) he hl⟩⟩
  · exact runs_respond (exec_evict tag h s) (evict_unknown hn) rfl rfl
  · exact runs_respond (exec_evict tag h s) (evict_subscriber hi hj) rfl rfl
  · exact runs_respond (exec_evict tag h s) (evict_engaged hi hj he hl) rfl rfl
  · have hr := changeLocation_registry j e .absent s
    obtain ⟨t, ht, hend⟩ := runs_respond (exec_evict tag h s) (evict_attached hi hj he hl)
      ((sendAck_hrq a.cell e.hid _ _).trans hr.hrq) ((sendAck_calls a.cell e.hid _ _).trans hr.calls) hx
    refine ⟨t, ht, ?_, hend⟩
    have hrec : (answered tag ⟨.ok, .none⟩ (sendAck a.cell e.hid (.revoked ⟨.unknownHandset, 0, .none⟩)
        (changeLocation j e .absent s))).record j = (changeLocation j e .absent s).record j := by
      unfold State.record
      rw [answered_records, sendAck_records]
    rw [hend.enrolled, hrec, (changeLocation_record j e .absent s).1, if_pos ⟨rfl, (isVisitor_iff j).2 hj⟩]

end Sys2Proof.Machine
end

section
/-! PROOFS. The page occasion and the page response (R166 to R168, R171): which queues take a PAGE, and how a response
settles a page under way. -/

namespace Sys2Proof.Machine

/-! ### The offer of one PAGE (R149, R166) -/

/-- No entry has a priority below 0, so a newcomer of priority 0 evicts nothing. -/
theorem victimOf_zero (q : List CtlFrame) : victimOf 0 q = none := by
  unfold victimOf
  exact if_neg (Fin.not_lt_zero _)

/-- A PAGE that its queue takes. -/
theorem offer_page_taken {c : CellIx} {h : Hid} {s : State} (hu : (s.port (portOf c)).link = .up)
    (hr : (s.port (portOf c)).ctl.length < 24) : offer (.page c h) s = (.taken none, s.setPort (portOf c)
      { s.port (portOf c) with ctl := (s.port (portOf c)).ctl ++ [.page c h] }) := offer_room hu hr

/-- A PAGE that its port refuses changes nothing. -/
theorem offer_page_refused {c : CellIx} {h : Hid} {s : State}
    (hr : (s.port (portOf c)).link = .down ∨ 24 ≤ (s.port (portOf c)).ctl.length) :
    offer (.page c h) s = (.refusedLinkDown, s) ∨ offer (.page c h) s = (.refusedFull, s) := by
  cases hl : (s.port (portOf c)).link with
  | down => exact .inl (offer_down hl)
  | up =>
    have hfull : 24 ≤ (s.port (portOf c)).ctl.length := hr.resolve_left (by rw [hl]; nofun)
    refine .inr ?_
    unfold offer
    dsimp only [CtlFrame.dest, CtlFrame.priority]
    rw [hl]
    dsimp only
    rw [if_neg (not_lt.2 hfull), victimOf_zero]

/-- A cell that an occasion pages: it is live, and its port is UP with room. -/
def PageTaken (s : State) (c : CellIx) : Prop :=
  (s.cell c).live = true ∧ (s.port (portOf c)).link = .up ∧ (s.port (portOf c)).ctl.length < 24

theorem not_pageTaken {s : State} {c : CellIx} : ¬ PageTaken s c ↔
    (s.cell c).live = false ∨ (s.port (portOf c)).link = .down ∨ 24 ≤ (s.port (portOf c)).ctl.length := by
  unfold PageTaken
  cases (s.cell c).live <;> cases (s.port (portOf c)).link <;> simp

/-- The offer of the PAGE of a cell that is paged. -/
theorem offerPages_taken {c : CellIx} {s : State} (hc : PageTaken s c) (h : Hid) (cs : List CellIx) (n : Nat) :
    offerPages h (c :: cs) n s = offerPages h cs (n + 1) (s.setPort (portOf c)
      { s.port (portOf c) with ctl := (s.port (portOf c)).ctl ++ [.page c h] }) := by
  rw [offerPages, if_pos hc.1, offer_page_taken hc.2.1 hc.2.2]

/-- A cell that is not paged is passed over. -/
theorem offerPages_passed {c : CellIx} {s : State} (hc : ¬ PageTaken s c) (h : Hid) (cs : List CellIx) (n : Nat) :
    offerPages h (c :: cs) n s = offerPages h cs n s := by
  rw [offerPages]
  rcases not_pageTaken.1 hc with hl | hr
  · rw [if_neg (by rw [hl]; nofun)]
  · rcases offer_page_refused (h := h) hr with ho | ho <;> rw [ho] <;> exact ite_self _

/-! ### The offers to a set (R166, R167) -/

theorem livesOn_cons (s : State) (q : PortIx) (c : CellIx) (cs : List CellIx) : livesOn s q (c :: cs) =
    if (s.cell c).live = true ∧ portOf c = q then c :: livesOn s q cs else livesOn s q cs := by
  unfold livesOn
  rw [List.filter_cons]
  simp only [Bool.and_eq_true, decide_eq_true_eq]

theorem PagesOffered.nil (h : Hid) (s : State) : PagesOffered h [] s s := by
  refine ⟨rfl, fun q => ?_⟩
  simp [livesOn]

/-- A PAGE taken first, and the offers to the rest of the set. -/
theorem PagesOffered.taken {h : Hid} {c : CellIx} {cs : List CellIx} {s v : State} (hc : PageTaken s c)
    (k : PagesOffered h cs (s.setPort (portOf c)
      { s.port (portOf c) with ctl := (s.port (portOf c)).ctl ++ [.page c h] }) v) : PagesOffered h (c :: cs) s v := by
  obtain ⟨hlive, hup, hroom⟩ := hc
  refine ⟨k.1, fun q => (k.2 q).trans ?_⟩
  rw [State.port_setPort, livesOn_cons]
  by_cases hq : q = portOf c
  · subst hq
    have hlen : 24 - (s.port (portOf c)).ctl.length = 24 - ((s.port (portOf c)).ctl.length + 1) + 1 := by omega
    rw [if_pos rfl, if_pos hup, if_pos hup, if_pos ⟨hlive, rfl⟩, List.map_cons, hlen, List.take_succ_cons,
      List.length_append, List.append_assoc]
    rfl
  · have hk : ¬ ((s.cell c).live = true ∧ portOf c = q) := fun hk => hq hk.2.symm
    rw [if_neg hq, if_neg hk]
    rfl

/-- A cell passed over, and the offers to the rest of the set. -/
theorem PagesOffered.passed {h : Hid} {c : CellIx} {cs : List CellIx} {s v : State} (hc : ¬ PageTaken s c)
    (k : PagesOffered h cs s v) : PagesOffered h (c :: cs) s v := by
  refine ⟨k.1, fun q => (k.2 q).trans ?_⟩
  rw [livesOn_cons]
  split
  · next hup =>
    split
    · next hk =>
      obtain ⟨hlive, rfl⟩ := hk
      have hfull : 24 - (s.port (portOf c)).ctl.length = 0 := by
        have hlong : 24 ≤ (s.port (portOf c)).ctl.length := not_lt.1 fun hr => hc ⟨hlive, hup, hr⟩
        omega
      rw [hfull, List.take_zero, List.take_zero]
    · rfl
  · rfl

theorem offerPages_offered (h : Hid) (cs : List CellIx) (n : Nat) (s : State) :
    PagesOffered h cs s (offerPages h cs n s).2 := by
  induction cs generalizing n s with
  | nil => exact .nil h s
  | cons c cs ih =>
    by_cases hc : PageTaken s c
    · rw [offerPages_taken hc]
      exact .taken hc (ih _ _)
    · rw [offerPages_passed hc]
      exact .passed hc (ih _ _)

theorem offerPages_count_le (h : Hid) (cs : List CellIx) (n : Nat) (s : State) : n ≤ (offerPages h cs n s).1 := by
  induction cs generalizing n s with
  | nil => exact le_rfl
  | cons c cs ih =>
    by_cases hc : PageTaken s c
    · rw [offerPages_taken hc]
      exact (Nat.le_succ n).trans (ih _ _)
    · rw [offerPages_passed hc]
      exact ih _ _

/-- Where a cell of the set is paged, an offer is counted. -/
theorem offerPages_count {h : Hid} {cs : List CellIx} {s : State} (hx : ∃ c ∈ cs, PageTaken s c) (n : Nat) :
    n < (offerPages h cs n s).1 := by
  induction cs with
  | nil => obtain ⟨c, hc, -⟩ := hx; cases hc
  | cons d cs ih =>
    by_cases hd : PageTaken s d
    · rw [offerPages_taken hd]
      exact offerPages_count_le h cs (n + 1) _
    · rw [offerPages_passed hd]
      obtain ⟨c, hc, hp⟩ := hx
      rcases List.mem_cons.1 hc with rfl | hc
      · exact absurd hp hd
      · exact ih ⟨c, hc, hp⟩

/-- Where no cell of the set is paged, nothing is offered. -/
theorem offerPages_none {h : Hid} {cs : List CellIx} {s : State} (hx : ∀ c ∈ cs, ¬ PageTaken s c) (n : Nat) :
    offerPages h cs n s = (n, s) := by
  induction cs with
  | nil => rfl
  | cons d cs ih =>
    rw [offerPages_passed (hx d List.mem_cons_self)]
    exact ih fun c hc => hx c (List.mem_cons_of_mem _ hc)

/-- What was offered to the queues of a set is sent or waits at the end of the event. -/
theorem PagesOffered.sent {h : Hid} {cells : List CellIx} {s v u t : State} (k : PagesOffered h cells s v)
    (hp : u.ports = v.ports) (ht : EventEnd s u t) : PagesSent h cells s t := by
  intro before c after hcells hlive hup hroom
  have hq := k.2 (portOf c)
  rw [if_pos hup] at hq
  refine (ht.chose (portOf c)).sent _ ?_
  have hport : u.port (portOf c) = v.port (portOf c) := by
    unfold State.port
    rw [hp]
  rw [hport, hq, hcells]
  refine List.mem_append_right _ ?_
  have hsplit : livesOn s (portOf c) (before ++ c :: after) =
      livesOn s (portOf c) before ++ c :: livesOn s (portOf c) after := by
    have hc := livesOn_cons s (portOf c) c after
    rw [if_pos ⟨hlive, rfl⟩] at hc
    rw [← hc]
    exact List.filter_append ..
  obtain ⟨k, hk⟩ := Nat.exists_eq_add_of_lt (show (livesOn s (portOf c) before).length <
    24 - (s.port (portOf c)).ctl.length by omega)
  rw [hsplit, List.map_append, List.map_cons, hk, Nat.add_assoc, List.take_append, List.length_map,
    Nat.add_sub_cancel_left, List.take_succ_cons]
  exact List.mem_append_right _ List.mem_cons_self

/-! ### The occasion (R166) -/

theorem occasion_settles {e : PageIx} {s : State} {p : PageEntry} {d : Time} (hp : s.page e = some p)
    (hs : p.status = .paging 0 d) : occasion e s = settlePage e .noAnswer s := by
  unfold occasion
  rw [hp]
  dsimp only
  rw [hs]

/-- An occasion with attempts left offers its PAGEs and writes its entry. -/
theorem occasion_attempts {e : PageIx} {s : State} {p : PageEntry} {m : Nat} {d : Time} (hp : s.page e = some p)
    (hs : p.status = .paging (m + 1) d) : occasion e s = (offerPages p.hid p.cells 0 s).2.setPage e (some
      (if (offerPages p.hid p.cells 0 s).1 = 0 then
        { p with repeatFlag := true, status := .paging (m + 1) (inMs s.config.pageInterval s) }
      else { p with repeatFlag := false, status := .paging m (inMs s.config.pageInterval s) })) := by
  have hnext : (offerPages p.hid p.cells 0 s).2.after (offerPages p.hid p.cells 0 s).2.config.pageInterval =
      inMs s.config.pageInterval s := by
    rw [(offerPages_offered p.hid p.cells 0 s).1]
    rfl
  unfold occasion
  rw [hp]
  dsimp only
  rw [hs]
  dsimp only
  rw [hnext]
  split <;> rfl

theorem occasion_made {e : PageIx} {s : State} {p : PageEntry} {m : Nat} {d : Time} (hp : s.page e = some p)
    (hs : p.status = .paging m d) (hm : 0 < m) : OccasionMade e p m s (occasion e s) := by
  obtain ⟨n, rfl⟩ := Nat.exists_eq_add_one.2 hm
  rw [occasion_attempts hp hs]
  refine ⟨fun hx => ⟨_, offerPages_offered p.hid p.cells 0 s, ?_⟩, fun hx => ?_⟩
  · rw [if_neg (offerPages_count hx 0).ne']
    rfl
  · rw [offerPages_none (fun c hc => not_pageTaken.2 (hx c hc)) 0]
    rfl

theorem pageDue_due {e : PageIx} {s : State} {p : PageEntry} {m : Nat} {d : Time} (hp : s.page e = some p)
    (hs : p.status = .paging m d) (hd : due d s) : pageDue e s = occasion e s := by
  unfold pageDue
  rw [hp]
  dsimp only
  rw [hs]
  exact if_pos (passed_iff.2 hd)

theorem pageDue_idle {e : PageIx} {s : State} (h : ∀ p m d, s.page e = some p → p.status = .paging m d → ¬ due d s) :
    pageDue e s = s := by
  unfold pageDue
  split
  · rfl
  · next p hp =>
    split
    · next m d hs => exact if_neg fun hd => h p m d hp hs (passed_iff.1 hd)
    · rfl

theorem exec_pageOccasion (e : PageIx) (s : State) : exec (.pageOccasion e) s = .next (event (pageDue e) s) := rfl

/-! ### The settling of a page (R171) -/

theorem settlePage_room {e : PageIx} {s : State} {p : PageEntry} (hp : s.page e = some p) (hr : s.notices.length < 64)
    (o : PageOutcome) : settlePage e o s = { s.setPage e (some { p with status := .settled o true }) with
      notices := s.notices ++ [.pageOutcome e] } := by
  unfold settlePage
  rw [hp]
  exact if_pos (decide_eq_true hr)

theorem settlePage_full {e : PageIx} {s : State} {p : PageEntry} (hp : s.page e = some p) (hr : 64 ≤ s.notices.length)
    (o : PageOutcome) : settlePage e o s = s.setPage e (some { p with status := .settled o false }) := by
  unfold settlePage
  rw [hp]
  exact if_neg fun h => absurd (of_decide_eq_true h) (not_lt.2 hr)

theorem pageOccasion_taken {e : PageIx} {s : State} {p : PageEntry} {m : Nat} {d : Time} (hp : s.page e = some p)
    (hs : p.status = .paging m d) (hd : due d s) (hm : 0 < m) : Runs (.pageOccasion e) s fun t =>
      ∃ u, OccasionMade e p m s u ∧ EventEnd s u t ∧ PagesSent p.hid p.cells s t := by
  have hoff := offerPages_offered p.hid p.cells 0 s
  have hocc : ∃ v, occasion e s = (offerPages p.hid p.cells 0 s).2.setPage e v := by
    obtain ⟨n, rfl⟩ := Nat.exists_eq_add_one.2 hm
    exact ⟨_, occasion_attempts hp hs⟩
  obtain ⟨v, hv⟩ := hocc
  have honly : occasion e s = { s with
      ports := (offerPages p.hid p.cells 0 s).2.ports, pages := (occasion e s).pages } := by
    rw [hv, hoff.1]
    rfl
  refine runs_event (exec_pageOccasion e s) (pageDue_due hp hs hd) (by rw [honly]) (by rw [honly])
    fun t ht => ⟨_, occasion_made hp hs hm, ht, hoff.sent ?_ ht⟩
  rw [hv]
  rfl

/-! ### The response (R168) -/

/-- The page under way for a HID, where just one carries it. -/
theorem pagingEntry_unique {s : State} {hid : Hid} {e : PageIx} {p : PageEntry} (hp : s.page e = some p)
    (hh : p.hid = hid) (hpaging : p.paging = true)
    (honly : ∀ f v, f ≠ e → s.page f = some v → v.hid = hid → v.paging = false) :
    (s.pagingEntry fun p => decide (p.hid = hid)) = some e := by
  cases hf : s.pagingEntry fun p => decide (p.hid = hid) with
  | none =>
    have hn := Table.find_none _ _ _ hf e rfl
    change (match s.page e with
      | none => false
      | some p => p.paging && decide (p.hid = hid)) = false at hn
    rw [hp] at hn
    simp [hh, hpaging] at hn
  | some f =>
    have hs := Table.find_some _ _ _ hf
    change (match s.page f with
      | none => false
      | some p => p.paging && decide (p.hid = hid)) = true at hs
    cases hv : s.page f with
    | none => simp [hv] at hs
    | some v =>
      simp only [hv, Bool.and_eq_true, decide_eq_true_eq] at hs
      by_contra hne
      have := honly f v (fun h => hne (by rw [h])) hv hs.2
      rw [hs.1] at this
      cases this

theorem pagingEntry_none {s : State} {hid : Hid} (h : ∀ e p, s.page e = some p → p.hid = hid → p.paging = false) :
    (s.pagingEntry fun p => decide (p.hid = hid)) = none := by
  cases hf : s.pagingEntry fun p => decide (p.hid = hid) with
  | none => rfl
  | some f =>
    have hs := Table.find_some _ _ _ hf
    change (match s.page f with
      | none => false
      | some p => p.paging && decide (p.hid = hid)) = true at hs
    cases hv : s.page f with
    | none => simp [hv] at hs
    | some v =>
      simp only [hv, Bool.and_eq_true, decide_eq_true_eq] at hs
      have := h f v hv hs.2
      rw [hs.1] at this
      cases this

/-- A response with no page under way is a PRESENCE. -/
theorem pageResponse_presence {c : CellIx} {hid : Hid} {q : Quality} {s : State}
    (h : ∀ e p, s.page e = some p → p.hid = hid → p.paging = false) :
    pageResponse c hid q s = (locationUpdate true c hid q s).2 := by
  unfold pageResponse
  rw [pagingEntry_none h]

theorem exec_pageRsp_presence {c : CellIx} {hid : Hid} {q : Byte} {s : State} (hh : Heard c s)
    (h : ∀ e p, s.page e = some p → p.hid = hid → p.paging = false) :
    exec (.pageRsp c hid q) s = exec (.presence c hid q) s := by
  refine congrArg Host.Outcome.next (event_congr ?_)
  unfold rxPageRsp rxPresence
  cases hq : byteIn 64 q with
  | none => rfl
  | some qv =>
    rw [Option.map_some, Option.map_some, rxCell_heard hh (by decide), rxCell_heard hh (by decide)]
    exact pageResponse_presence (s := counted c s) h

theorem exec_pageRsp {c : CellIx} {s : State} (h : Heard c s) (hid : Hid) {q : Byte} {qv : Quality}
    (hq : q.toNat = qv.val) :
    exec (.pageRsp c hid q) s = .next (event (fun u => pageResponse c hid qv (counted c u)) s) := by
  refine congrArg Host.Outcome.next (event_congr ?_)
  unfold rxPageRsp
  rw [byteIn_eq hq]
  exact rxCell_heard h (by decide) _

/-- A response to a page under way settles it by what the location update answers (R168). -/
theorem pageResponse_paging {c : CellIx} {hid : Hid} {q : Quality} {s u : State} {e : PageIx} {o : PageOutcome}
    {v : UpdateOutcome} (he : (s.pagingEntry fun p => decide (p.hid = hid)) = some e)
    (hu : locationUpdate false c hid q s = (v, u))
    (hv : ((v = .refreshed ∨ v = .moved) ∧ o = .found c) ∨ ∃ d, v = .revoked d ∧ o = .refused d) :
    pageResponse c hid q s = settlePage e o u := by
  unfold pageResponse
  rw [he]
  dsimp only
  rw [hu]
  rcases hv with ⟨rfl | rfl, rfl⟩ | ⟨d, rfl, rfl⟩ <;> rfl

/-- Settles O50. -/
theorem pageAnswered : Obligations.PageAnswered := by
  refine ⟨fun c hid q s hh => ⟨exec_pageRsp_presence hh, fun qv i r a d e p hq hi hr hl hp hhid hpaging honly => ?_⟩,
    fun e s => ⟨fun h => congrArg Host.Outcome.next (event_eq_quiet (pageDue_idle h) (Quiet.refl s)),
      fun p m d hp hs hd => ⟨fun hm hn => ?_, fun hm hn => ?_, pageOccasion_taken hp hs hd⟩⟩⟩
  · have hx := exec_pageRsp hh hid hq
    have he : ((counted c s).pagingEntry fun p => decide (p.hid = hid)) = some e :=
      pagingEntry_unique (s := counted c s) hp hhid hpaging honly
    refine ⟨fun hc => ?_, fun hc hv => ?_, fun v hc hv => ?_⟩
    · have hu := locationUpdate_refreshed (tell := false) (q := qv) (s := counted c s) hi hr hl hc
      have hset := settlePage_registry e (.found c) ((counted c s).setRecord i { s.record i with
        holder := .present { r with
          loc := .attached { a with quality := qv } (inMs (s.config.presencePeriod * 60000) s) } })
      exact runs_event hx (pageResponse_paging he hu (.inl ⟨.inl rfl, rfl⟩)) hset.hrq hset.calls fun _ ht => ht
    · have hu := locationUpdate_moved (tell := false) (q := qv) (s := counted c s) hi hr hl hc hv
      have hw := writeLocation_registry i r
        (.attached ⟨a.claimed, c, qv⟩ (inMs (s.config.presencePeriod * 60000) s)) (counted c s)
      have hset := settlePage_registry e (.found c) (writeLocation i r
        (.attached ⟨a.claimed, c, qv⟩ (inMs (s.config.presencePeriod * 60000) s)) (counted c s))
      refine runs_event hx (pageResponse_paging he hu (.inl ⟨.inr rfl, rfl⟩)) (hset.hrq.trans hw.hrq)
        (hset.calls.trans hw.calls) fun t ht => ⟨?_, ht⟩
      rw [ht.enrolled]
      unfold State.record
      rw [settlePage_records]
      exact (writeLocation_record i r _ (counted c s)).1
    · have hu := locationUpdate_revoked (tell := false) (q := qv) (s := counted c s) hi hr hl hc hv
      have hw := writeLocation_registry i r .absent (counted c s)
      have hset := settlePage_registry e (.refused v) (sendAck c hid (.revoked v)
        (writeLocation i r .absent (counted c s)))
      refine runs_event hx (pageResponse_paging he hu (.inr ⟨v, rfl, rfl⟩))
        (hset.hrq.trans ((sendAck_hrq c hid (.revoked v) _).trans hw.hrq))
        (hset.calls.trans ((sendAck_calls c hid (.revoked v) _).trans hw.calls)) fun t ht => ⟨?_, ht⟩
      rw [ht.enrolled]
      unfold State.record
      rw [settlePage_records, sendAck_records]
      exact (writeLocation_record i r .absent (counted c s)).1.trans (by simp)
  · subst hm
    exact runs_event (s := s) (exec_pageOccasion e s)
      ((pageDue_due hp hs hd).trans ((occasion_settles hp hs).trans (settlePage_room hp hn _))) rfl rfl fun _ ht => ht
  · subst hm
    exact runs_event (s := s) (exec_pageOccasion e s)
      ((pageDue_due hp hs hd).trans ((occasion_settles hp hs).trans (settlePage_full hp hn _))) rfl rfl fun _ ht => ht

end Sys2Proof.Machine
end

section
/-! PROOFS. The opening and the clear of a call (R32, R77 to R80, R82, R83, R139, R140). -/

namespace Sys2Proof.Machine

/-! ### Commands of the call server -/

theorem exec_callClear {x : Channel} {ch : Byte} {s : State} (h : s.trunk.link = .up) (hx : ch.toNat = x.val) :
    exec (.callClear ch) s = .next (event (fun u => clearCall x (countReceived trunkLink u)) s) := by
  refine congrArg Host.Outcome.next (event_congr ?_)
  unfold rxCallClear
  rw [byteIn_eq hx]
  exact rxTrunk_up h (by decide) _

theorem exec_callOpen {x : Channel} {p : Priority} {ch pr : Byte} {s : State} (h : s.trunk.link = .up)
    (hx : ch.toNat = x.val) (hp : pr.toNat = p.val) (hid : Hid) :
    exec (.callOpen ch hid pr) s = .next (event (fun u => openCall x hid p (countReceived trunkLink u)) s) := by
  refine congrArg Host.Outcome.next (event_congr ?_)
  unfold rxCallOpen
  rw [byteIn_eq hx, byteIn_eq hp]
  exact rxTrunk_up h (by decide) _

/-! ### The clear (R82, R83) -/

theorem clearCall_idle {x : Channel} {s : State} (hk : s.call x = none) :
    clearCall x s = reply (.callAck x .notOpen) s := by
  unfold clearCall
  rw [hk]

theorem clearCall_call {x : Channel} {s : State} {k : Call} (hk : s.call x = some k) :
    clearCall x s = reply (.callAck x .cleared) (endCall x k false .recheck s) := by
  unfold clearCall
  rw [hk]

/-- A clear of a call, where no handover request waits, ends at its own end. -/
theorem clearCall_end {x : Channel} {k : Call} {s : State} (hk : s.call x = some k) (h0 : s.hrq.total = 0) :
    EventEnd s (reply (.callAck x .cleared) (endCall x k false .recheck (countReceived trunkLink s)))
      (event (fun u => clearCall x (countReceived trunkLink u)) s) := by
  have hf : clearCall x (countReceived trunkLink s) =
      reply (.callAck x .cleared) (endCall x k false .recheck (countReceived trunkLink s)) := clearCall_call hk
  have hend := (event_end_empty (f := fun u => clearCall x (countReceived trunkLink u)) h0 (by
    have hle : (s.hrq.without x).total ≤ s.hrq.total := Hrq.without_total_le x s.hrq
    have hq : (endCall x k false .recheck (countReceived trunkLink s)).hrq = s.hrq.without x := (endCall_ended ..).hrq
    rw [hf, reply_hrq, hq]
    omega)).2
  rwa [hf] at hend

/-- Settles O29. -/
theorem callCleared : Obligations.CallCleared := by
  intro x ch s hu hx
  have hexec := exec_callClear hu hx
  refine ⟨fun hk => ?_, fun k hk => ⟨⟨_, hexec, ?_⟩, fun h0 => ⟨_, hexec, ?_, clearCall_end hk h0⟩,
    fun h0 l g hp => ⟨_, hexec, ?_, fun hup hroom => ?_⟩⟩⟩
  · exact runs_event hexec (clearCall_idle (s := countReceived trunkLink s) hk) (reply_hrq _ _) (reply_calls _ _)
      fun _ ht => ht
  · refine event_idleKept (fun u => clearCall x (countReceived trunkLink u)) s x ?_
    rw [clearCall_call (s := countReceived trunkLink s) hk, State.call_congr (reply_calls _ _)]
    exact (endCall_ended x k false .recheck (countReceived trunkLink s)).call
  · have hrel := (endCall_recheck x k false (countReceived trunkLink s)).congr
      (reply_records (.callAck x .cleared) _) (reply_ports (.callAck x .cleared) _)
    exact (clearCall_end hk h0).handsetReleased ⟨⟨hrel.kept, hrel.revoked⟩, hrel.told⟩
  · have hslots := (endCall_ended x k false .recheck (countReceived trunkLink s)).slots l.cell
    rw [hp] at hslots
    change _ = (s.cell l.cell).occupancy - [l.cell].count l.cell at hslots
    rw [List.count_singleton_self] at hslots
    rw [(clearCall_end hk h0).cell, ← hslots]
    unfold State.cell
    rw [reply_cells]
  · have hcloses := (endCall_ended x k false .recheck (countReceived trunkLink s)).closes.entered (l.cell, x)
    rw [hp] at hcloses
    refine (clearCall_end hk h0).closing ?_
    unfold State.port at hcloses ⊢
    rw [reply_ports]
    exact hcloses (List.mem_singleton_self _) hup hroom

end Sys2Proof.Machine
end

section
/-! PROOFS. The admitted call open (R31, R32, R77 to R80, R139, R140): its transaction, the leg it opens, and the failed open
at a queue that refuses the LEG-OPEN. -/

namespace Sys2Proof.Machine

/-! ### The number of a transaction (R140) -/

/-- The search answers a number some steps on, and every number it steps over is held. -/
theorem nextTxnFrom_steps (as : List Answer) (n : Nat) (t : Txn) : ∃ k, k ≤ n ∧
    nextTxnFrom as n t = t + BitVec.ofNat 12 k ∧ ∀ j, j < k → ∃ a ∈ as, a.txn = t + BitVec.ofNat 12 j := by
  induction n generalizing t with
  | zero => exact ⟨0, le_rfl, (add_zero t).symm, fun _ => nofun⟩
  | succ n ih =>
    unfold nextTxnFrom
    split
    · next hh =>
      obtain ⟨a, ha, he⟩ := List.any_eq_true.1 hh
      obtain ⟨k, hk, hr, hb⟩ := ih (t + 1)
      have hstep : ∀ j, t + 1 + BitVec.ofNat 12 j = t + BitVec.ofNat 12 (j + 1) := fun j => by
        rw [add_assoc, Nat.add_comm j 1, BitVec.ofNat_add]
        rfl
      refine ⟨k + 1, Nat.succ_le_succ hk, hr.trans (hstep k), fun j hj => ?_⟩
      cases j with
      | zero => exact ⟨a, ha, (of_decide_eq_true he).trans (add_zero t).symm⟩
      | succ j =>
        rw [← hstep]
        exact hb j (Nat.lt_of_succ_lt_succ hj)
    · exact ⟨0, Nat.zero_le _, (add_zero t).symm, fun _ => nofun⟩

/-- Every number from the counter up to the next one is held (R140). -/
theorem nextTxn_before (s : State) {j : Nat} (hj : j < (s.nextTxn - s.txnCounter).toNat) :
    ∃ a ∈ s.answers, a.txn = s.txnCounter + BitVec.ofNat 12 j := by
  obtain ⟨k, hk, hr, hb⟩ := nextTxnFrom_steps s.answers 65 s.txnCounter
  have hdist : (s.nextTxn - s.txnCounter).toNat = k := by
    unfold State.nextTxn
    rw [hr, add_sub_cancel_left, BitVec.toNat_ofNat, Nat.mod_eq_of_lt (by omega)]
  exact hb j (hdist ▸ hj)

/-! ### Offers that a queue refuses (R149) -/

theorem victimOf_none {p : Priority} {q : List CtlFrame} (h : ∀ f ∈ q, p ≤ f.priority) : victimOf p q = none := by
  obtain ⟨-, -, hex⟩ := lowestPriority_cases p q
  unfold victimOf
  refine if_neg (not_lt.2 ?_)
  rcases hex with he | ⟨f, hf, he⟩
  · exact he.ge
  · exact he ▸ h f hf

/-- A queue that refuses a frame is left as it was (R149). -/
theorem offer_refused {f : CtlFrame} {s : State} (h : QueueRefuses f.priority f.dest s) :
    offer f s = (if (s.port (portOf f.dest)).link = .up then .refusedFull else .refusedLinkDown, s) := by
  cases hl : (s.port (portOf f.dest)).link with
  | down => exact offer_down hl
  | up =>
    obtain ⟨hfull, hp⟩ := h.resolve_left (by rw [hl]; nofun)
    unfold offer
    dsimp only
    rw [hl]
    dsimp only
    rw [if_neg (not_lt.2 hfull), victimOf_none hp]
    rfl

theorem queueRefuses_of_not_takes {c : CellIx} {s : State} (h : ¬ QueueTakes c s) : QueueRefuses 2 c s := by
  cases hl : (s.port (portOf c)).link with
  | down => exact .inl hl
  | up =>
    have hfull : ¬ ((s.port (portOf c)).ctl.length < 24 ∨ ∃ f ∈ (s.port (portOf c)).ctl, f.priority < 2) :=
      fun k => h ⟨hl, k⟩
    push Not at hfull
    exact .inr hfull

/-! ### The offer of the initial LEG-OPEN (R78) -/

section
variable {x : Channel} {k : Call} {h : Hid} {c : CellIx} {t : Txn} {s : State}

/-- An initial LEG-OPEN that its queue takes waits there, and its transaction is allocated. -/
theorem offerInitialOpen_taken (hq : QueueTakes c s) : offerInitialOpen x k h c t s =
      allocateTxn t x c (offerQuietly (.legOpen c t x h .initial) s) ∧
    .legOpen c t x h .initial ∈ ((offerQuietly (.legOpen c t x h .initial) s).port (portOf c)).ctl := by
  obtain ⟨v, rest, hv, ho⟩ := offer_taken (f := .legOpen c t x h .initial) (s := s) hq (le_refl (2 : Priority))
  unfold offerInitialOpen offerQuietly
  rw [ho]
  refine ⟨settleVictim_none hv _, ?_⟩
  change _ ∈ ((s.setPort (portOf c) _).port (portOf c)).ctl
  rw [State.port_setPort_self]
  exact List.mem_append_right _ (List.mem_singleton_self _)

/-- The cause of a failed open whose queue refuses the LEG-OPEN (R80). -/
def refusalCause (c : CellIx) (s : State) : FailCause :=
  if (s.port (portOf c)).link = .up then .queueFull else .linkDown

theorem refusalCause_ne (c : CellIx) (s : State) : refusalCause c s ≠ .timeout := by
  unfold refusalCause
  split <;> nofun

/-- An initial LEG-OPEN that its queue refuses is a failed open (R80). -/
theorem offerInitialOpen_refused (hq : ¬ QueueTakes c s) :
    offerInitialOpen x k h c t s = failedOpen x k c (refusalCause c s) s := by
  unfold offerInitialOpen refusalCause
  rw [offer_refused (f := .legOpen c t x h .initial) (s := s) (queueRefuses_of_not_takes hq)]
  cases hl : (s.port (portOf c)).link with
  | up => rw [if_pos (show (s.port (portOf (CtlFrame.legOpen c t x h .initial).dest)).link = .up from hl)]; rfl
  | down =>
    rw [if_neg (show ¬ (s.port (portOf (CtlFrame.legOpen c t x h .initial).dest)).link = .up by
      change (s.port (portOf c)).link ≠ .up
      rw [hl]
      nofun)]
    rfl

end

/-! ### The six checks passed (R76, R77) -/

theorem reserve_reserved {c : CellIx} {n : Nat} {s u : State} (h : reserve c n s = .ok u) : u = reserved c s := by
  unfold reserve at h
  dsimp only at h
  split at h
  · split at h
    · cases h
      rfl
    · cases h
  · cases h

/-- The state that an admitted open leaves before its LEG-OPEN is offered: the slot is reserved, the record ENGAGED, and
the context OPENING (R77). -/
def admitted (x : Channel) (p : Priority) (i : RecIx) (e : Enrolled) (a : Attachment) (n : Txn) (u : State) : State :=
  (changeLocation i e (.engaged a x) u).setCall x (some (newCall i p a n))

/-- What an admitted open has not touched when its LEG-OPEN is offered. -/
theorem admitted_eq (x : Channel) (p : Priority) (i : RecIx) (e : Enrolled) (a : Attachment) (n : Txn) (u : State) :
    admitted x p i e a n u = { u.setCall x (some (newCall i p a n)) with
      records := (changeLocation i e (.engaged a x) u).records
      notices := (changeLocation i e (.engaged a x) u).notices
      pages := (changeLocation i e (.engaged a x) u).pages } := by
  have h := changeLocation_only i e (.engaged a x) u
  unfold admitted RegistryOnly at *
  generalize changeLocation i e (.engaged a x) u = v at h ⊢
  rw [h]
  rfl

/-- A CALL-OPEN whose six checks pass offers its LEG-OPEN (R76, R77). -/
theorem openCall_admitted {x : Channel} {p : Priority} {hid : Hid} {s u : State} {i : RecIx} {e : Enrolled}
    {a : Attachment} {d : Time} (hx : s.call x = none) (hi : s.findHid hid = some i)
    (he : (s.record i).enrolled = some e) (hl : e.loc = .attached a d) (hh : s.hold.active = true → p = 3)
    (hc : checkStored s e a a.cell .callSetup = none) (ha : s.answers.length < 64)
    (hr : reserve a.cell (initialLimit (s.cell a.cell) p) s = .ok u) : openCall x hid p s =
      offerInitialOpen x (newCall i p a s.nextTxn) e.hid a.cell s.nextTxn (admitted x p i e a s.nextTxn u) := by
  have hhold : ¬ (s.hold.active && !decide (p = 3)) = true := by
    rw [Bool.and_eq_true]
    rintro ⟨hactive, hp⟩
    rw [hh hactive] at hp
    exact absurd hp (by decide)
  have hu := reserve_reserved hr
  have havail : u.txnAvailable = true := by
    rw [hu]
    exact decide_eq_true ha
  unfold openCall
  rw [hx]
  dsimp only
  rw [hi]
  dsimp only
  rw [he]
  dsimp only
  rw [hl]
  dsimp only
  unfold openAttached
  rw [if_neg hhold, hc]
  dsimp only
  rw [hr]
  dsimp only
  unfold admitCall
  rw [if_pos havail, hu]
  rfl

section
variable {x : Channel} {p : Priority} {i : RecIx} {e : Enrolled} {a : Attachment} {n : Txn} {s : State}

/-- The ports are as they were when the LEG-OPEN is offered. -/
theorem admitted_port (q : PortIx) : (admitted x p i e a n (reserved a.cell s)).port q = s.port q := by
  rw [admitted_eq]
  rfl

theorem admitted_takes : QueueTakes a.cell (admitted x p i e a n (reserved a.cell s)) ↔ QueueTakes a.cell s := by
  unfold QueueTakes
  rw [admitted_port]

theorem admitted_record : ((admitted x p i e a n (reserved a.cell s)).record i).enrolled =
    some { e with loc := .engaged a x } :=
  (changeLocation_record i e (.engaged a x) (reserved a.cell s)).1

theorem admitted_cell (c : CellIx) : (admitted x p i e a n (reserved a.cell s)).cell c = (reserved a.cell s).cell c := by
  rw [admitted_eq]
  rfl

theorem admitted_calls : (admitted x p i e a n (reserved a.cell s)).calls =
    (s.setCall x (some (newCall i p a n))).calls := by
  rw [admitted_eq]
  rfl

theorem admitted_hrq : (admitted x p i e a n (reserved a.cell s)).hrq = s.hrq := by
  rw [admitted_eq]
  rfl

theorem admitted_answers : (admitted x p i e a n (reserved a.cell s)).answers = s.answers := by
  rw [admitted_eq]
  rfl

/-- An OPENING context, like an IDLE one, is not in execution. -/
theorem inExecutionAt_newCall : inExecutionAt (some (newCall i p a n)) = false := rfl

theorem admitted_after (m : Nat) : (admitted x p i e a n (reserved a.cell s)).after m = inMs m s := by
  rw [admitted_eq]
  rfl

theorem admitted_config : (admitted x p i e a n (reserved a.cell s)).config = s.config := by
  rw [admitted_eq]
  rfl

theorem admitted_counter : (admitted x p i e a n (reserved a.cell s)).txnCounter = s.txnCounter := by
  rw [admitted_eq]
  rfl

end

/-! ### The two outcomes (R78, R80) -/

theorem offerQuietly_hrq (f : CtlFrame) (s : State) : (offerQuietly f s).hrq = s.hrq := by
  rw [offerQuietly_ports]

theorem offerQuietly_cells (f : CtlFrame) (s : State) : (offerQuietly f s).cells = s.cells := by
  rw [offerQuietly_ports]

theorem offerQuietly_after (f : CtlFrame) (s : State) (m : Nat) : (offerQuietly f s).after m = s.after m := by
  rw [offerQuietly_ports]
  rfl

theorem offerQuietly_config (f : CtlFrame) (s : State) : (offerQuietly f s).config = s.config := by
  rw [offerQuietly_ports]

section
variable {x : Channel} {p : Priority} {ch pr : Byte} {hid : Hid} {s : State} {i : RecIx} {e : Enrolled} {a : Attachment}

/-- An open that its queue takes ends with its LEG-OPEN waiting or sent. -/
theorem open_taken (hx : s.call x = none) (hexec : exec (.callOpen ch hid pr) s =
      .next (event (fun u => openCall x hid p (countReceived trunkLink u)) s))
    (hopen : openCall x hid p (countReceived trunkLink s) = offerInitialOpen x (newCall i p a s.nextTxn) e.hid a.cell
      s.nextTxn (admitted x p i e a s.nextTxn (reserved a.cell (countReceived trunkLink s))))
    (hq : QueueTakes a.cell s) : Runs (.callOpen ch hid pr) s fun t =>
      t.call x = some (newCall i p a s.nextTxn) ∧ (t.record i).enrolled = some { e with loc := .engaged a x } ∧
      t.answers = s.answers ++ [⟨s.nextTxn, x, a.cell, inMs s.config.legTime s, false⟩] ∧
      t.txnCounter = s.nextTxn + 1 ∧ (t.cell a.cell).occupancy = (s.cell a.cell).occupancy + 1 ∧
      OpenSent a.cell s.nextTxn x e.hid .initial t ∧
      EventEnd s (allocateTxn s.nextTxn x a.cell (offerQuietly (.legOpen a.cell s.nextTxn x e.hid .initial)
        (admitted x p i e a s.nextTxn (reserved a.cell (countReceived trunkLink s))))) t := by
  obtain ⟨hoffer, hwaits⟩ := offerInitialOpen_taken (x := x) (k := newCall i p a s.nextTxn) (h := e.hid) (t := s.nextTxn)
    (admitted_takes (x := x) (p := p) (i := i) (e := e) (n := s.nextTxn) (s := countReceived trunkLink s) |>.2 hq)
  generalize hw : admitted x p i e a s.nextTxn (reserved a.cell (countReceived trunkLink s)) = w at hopen hoffer hwaits
  have hcalls : w.calls = (s.setCall x (some (newCall i p a s.nextTxn))).calls := by rw [← hw]; exact admitted_calls
  have hf := hopen.trans hoffer
  have hend := (event_end (f := fun u => openCall x hid p (countReceived trunkLink u)) (s := s)
    (by
      rw [hf]
      change (offerQuietly _ w).hrq = s.hrq
      rw [offerQuietly_hrq, ← hw]
      exact admitted_hrq)
    (by
      rw [hf]
      unfold State.inExecution
      change _ ≤ (offerQuietly _ w).calls.count none _
      rw [offerQuietly, offer_calls, hcalls]
      exact State.inExecution_le_setCall (by rw [hx]; rfl) _)).2
  rw [hf] at hend
  refine ⟨_, hexec, ?_, ?_, ?_, ?_, ?_, (hend.chose _).sent _ hwaits, hend⟩
  · rw [State.call_congr (hend.calls.trans ((offer_calls _ w).trans hcalls))]
    exact State.call_setCall_self _ _ _
  · have hrec : (allocateTxn s.nextTxn x a.cell (offerQuietly (.legOpen a.cell s.nextTxn x e.hid .initial) w)).record i =
        w.record i := congrArg (fun rs => Table.get Record.blank rs i) (offer_records _ w)
    rw [hend.enrolled, hrec, ← hw]
    exact admitted_record
  · rw [hend.answers]
    unfold allocateTxn
    rw [offerQuietly_after, offerQuietly_config, offerQuietly, offer_answers, ← hw, admitted_after, admitted_config,
      admitted_answers]
    rfl
  · exact hend.txnCounter
  · rw [hend.cell]
    have hcell : (allocateTxn s.nextTxn x a.cell (offerQuietly (.legOpen a.cell s.nextTxn x e.hid .initial) w)).cell a.cell =
        w.cell a.cell := congrArg (fun cs => Table.get CellRec.blank cs a.cell) (offerQuietly_cells _ w)
    rw [hcell, ← hw, admitted_cell, reserved_occupancy, if_pos rfl]
    rfl

theorem setCall_setting (x : Channel) (v : Option Call) (s : State) : SettingKept s (s.setCall x v) :=
  { SettingKept.refl s with }

/-- The setting is kept up to the offer of the LEG-OPEN. -/
theorem admitted_setting {n : Txn} (he : (s.record i).enrolled = some e) (hr : reserve a.cell
      (initialLimit (s.cell a.cell) p) (countReceived trunkLink s) = .ok (reserved a.cell (countReceived trunkLink s))) :
    SettingKept s (admitted x p i e a n (reserved a.cell (countReceived trunkLink s))) := by
  have hcount : SettingKept s (countReceived trunkLink s) :=
    (countReceived_moves (P := fun _ => False) trunkLink s).raws.setting
  have hres : SettingKept (countReceived trunkLink s) (reserved a.cell (countReceived trunkLink s)) :=
    (reserve_moves (P := fun _ => False) (s := countReceived trunkLink s) (initialLimit_le (s.cell a.cell) p) hr).raws.setting
  have hchange := (changeLocation_raws (loc := .engaged a x)
    (Identified.of (s := reserved a.cell (countReceived trunkLink s)) he)).setting
  exact ((hcount.trans hres).trans hchange).trans (setCall_setting x _ _)

theorem failedOpen_counter (x : Channel) (k : Call) (c : CellIx) (cause : FailCause) (s : State) :
    (failedOpen x k c cause s).txnCounter = s.txnCounter := by
  have hslot := (releaseSlot_step c s).only
  have hrec := (releaseHandset_step .recheck k.handset (releaseSlot c s)).only
  unfold failedOpen
  dsimp only
  rw [reply_eq]
  change (releaseHandset .recheck k.handset (releaseSlot c s)).txnCounter = _
  rw [hrec]
  change (releaseSlot c s).txnCounter = _
  rw [hslot]

theorem failedOpen_inExecution {x : Channel} {k : Call} {c : CellIx} {cause : FailCause} {s : State}
    (h : inExecutionAt (s.call x) = false) : s.inExecution ≤ (failedOpen x k c cause s).inExecution := by
  have hcalls : (failedOpen x k c cause s).calls = (s.setCall x none).calls := by
    unfold failedOpen
    dsimp only
    rw [reply_calls]
    change ((releaseRecheck k.handset (releaseSlot c s)).calls.set none x none) = s.calls.set none x none
    rw [releaseRecheck_calls, releaseSlot_calls]
  have hle := State.inExecution_le_setCall h none
  unfold State.inExecution at hle ⊢
  rwa [hcalls]

/-- An open that its queue refuses ends as a failed open, with the slot given back and the handset ATTACHED again. -/
theorem open_refused (hx : s.call x = none) (hexec : exec (.callOpen ch hid pr) s =
      .next (event (fun u => openCall x hid p (countReceived trunkLink u)) s))
    (hopen : openCall x hid p (countReceived trunkLink s) = offerInitialOpen x (newCall i p a s.nextTxn) e.hid a.cell
      s.nextTxn (admitted x p i e a s.nextTxn (reserved a.cell (countReceived trunkLink s))))
    (hset : SettingKept s (admitted x p i e a s.nextTxn (reserved a.cell (countReceived trunkLink s))))
    (hc : checkStored s e a a.cell .location = none) (hq : ¬ QueueTakes a.cell s) :
    Runs (.callOpen ch hid pr) s fun t =>
      t.call x = none ∧ t.answers = s.answers ∧ t.txnCounter = s.txnCounter ∧
      (t.record i).enrolled = some { e with loc := .attached a (inMs (s.config.presencePeriod * 60000) s) } ∧
      (t.cell a.cell).occupancy = (s.cell a.cell).occupancy ∧
      EventEnd s (failedOpen x (newCall i p a s.nextTxn) a.cell (refusalCause a.cell s)
        (admitted x p i e a s.nextTxn (reserved a.cell (countReceived trunkLink s)))) t := by
  have hcause : refusalCause a.cell (admitted x p i e a s.nextTxn (reserved a.cell (countReceived trunkLink s))) =
      refusalCause a.cell s := by
    unfold refusalCause
    rw [admitted_port]
    rfl
  have hf := hopen.trans (offerInitialOpen_refused (mt (admitted_takes (s := countReceived trunkLink s)).1 hq))
  rw [hcause] at hf
  have hfail := failedOpen_failed (x := x) (k := newCall i p a s.nextTxn) a.cell (refusalCause_ne a.cell s)
    (s := admitted x p i e a s.nextTxn (reserved a.cell (countReceived trunkLink s)))
  have hrec := (hfail.handset.kept _ a x admitted_record rfl ((hset.checkStored _ a a.cell .location).trans hc)).1
  have hslot := hfail.slots a.cell
  rw [List.count_singleton_self, admitted_cell, reserved_occupancy, if_pos rfl, Nat.add_sub_cancel] at hslot
  have hend := (event_end (f := fun u => openCall x hid p (countReceived trunkLink u)) (s := s)
    (by rw [hf, failedOpen_hrq]; exact admitted_hrq)
    (by
      rw [hf]
      refine le_trans ?_ (failedOpen_inExecution ?_)
      · unfold State.inExecution
        rw [admitted_calls]
        exact State.inExecution_le_setCall (by rw [hx]; rfl) _
      · rw [State.call_congr admitted_calls, State.call_setCall_self]
        exact inExecutionAt_newCall)).2
  rw [hf] at hend
  refine ⟨_, hexec, ?_, ?_, ?_, ?_, ?_, hend⟩
  · rw [State.call_congr hend.calls]
    exact hfail.call
  · rw [hend.answers, failedOpen_answers, admitted_answers]
    rfl
  · rw [hend.txnCounter, failedOpen_counter, admitted_counter]
    rfl
  · refine (hend.enrolled i).trans (hrec.trans ?_)
    unfold inMs
    rw [hset.now, hset.config]
  · rw [hend.cell, hslot]
    rfl

end

/-- A check for a call set-up is one for a location: both stand outside a handover (R44, R50). -/
theorem checkStored_location {s : State} {e : Enrolled} {a : Attachment} {c : CellIx}
    (h : checkStored s e a c .callSetup = none) : checkStored s e a c .location = none := h

/-- Settles O28. -/
theorem callOpenAdmitted : Obligations.CallOpenAdmitted := by
  refine ⟨fun s hs => ⟨nextTxn_free hs, fun j => nextTxn_before s⟩, ?_⟩
  intro x p ch pr hid s u i e a d hs hu hch hpr hx hi he hl hh hc ha hr
  have hexec := exec_callOpen hu hch hpr hid
  have hopen := openCall_admitted (s := countReceived trunkLink s) hx hi he hl hh hc ha hr
  obtain rfl := reserve_reserved hr
  exact ⟨open_taken hx hexec hopen,
    open_refused hx hexec hopen (admitted_setting he hr) (checkStored_location hc)⟩

end Sys2Proof.Machine
end

section
/-! PROOFS. A pending open that ends without a READY (R16, R80, R126, R133, R145, R146, R150): what its event leaves, by the
phase of the context that waits for it. -/

namespace Sys2Proof.Machine

/-! ### A LEG-ACK and its outcome (R18) -/

theorem ackTxn_eq {txn : BitVec 16} {n : Txn} (h : txn.toNat = n.toNat) : ackTxn txn = some n := by
  have hlt := n.isLt
  unfold ackTxn
  rw [if_pos (by omega), h]
  exact congrArg some ((BitVec.ofNat_toNat 12 n).trans (BitVec.setWidth_eq n))

theorem exec_legAck {c : CellIx} {txn : BitVec 16} {n : Txn} {x : Channel} {ch o arg : Byte} {out : AckOutcome} {s : State}
    (h : Heard c s) (hn : txn.toNat = n.toNat) (hx : ch.toNat = x.val) (ho : ackOutcome o arg = some out) :
    exec (.legAck c txn ch o arg) s = .next (event (fun u => legAnswer c n x out (counted c u)) s) := by
  refine congrArg Host.Outcome.next (event_congr ?_)
  unfold rxLegAck
  rw [ackTxn_eq hn, byteIn_eq hx, ho]
  exact rxCell_heard h (by decide) _

/-! ### What an answer changes before its entry resolves -/

/-- What an answer may have changed before its entry resolves: the counters of its frame and of its errors, and the close
sets. -/
structure AnswerTaken (s u : State) : Prop where
  only : u = { s with counters := u.counters, device := u.device, ports := u.ports }
  inv : s.Inv → u.Inv
  links : ∀ p, (u.port p).link = (s.port p).link
  queues : ∀ p, (u.port p).ctl = (s.port p).ctl
  fallbacks : u.device.fallbacks = s.device.fallbacks
  drops : u.device.drops = s.device.drops

theorem AnswerTaken.refl (s : State) : AnswerTaken s s := ⟨rfl, id, fun _ => rfl, fun _ => rfl, rfl, rfl⟩

theorem AnswerTaken.counted (c : CellIx) (s : State) : AnswerTaken s (counted c s) :=
  ⟨rfl, (countReceived_moves (P := fun _ => False) _ s).keeps.inv, fun _ => rfl, fun _ => rfl, rfl, rfl⟩

section
variable {s u : State}

theorem AnswerTaken.call (h : AnswerTaken s u) (x : Channel) : u.call x = s.call x :=
  State.call_congr (by rw [h.only]) x

theorem AnswerTaken.answerOf (h : AnswerTaken s u) (n : Txn) : u.answerOf n = s.answerOf n := by
  rw [h.only]
  rfl

theorem AnswerTaken.record (h : AnswerTaken s u) (i : RecIx) : u.record i = s.record i := by
  rw [h.only]
  rfl

theorem AnswerTaken.cell (h : AnswerTaken s u) (c : CellIx) : u.cell c = s.cell c := by
  rw [h.only]
  rfl

theorem AnswerTaken.hrq (h : AnswerTaken s u) : u.hrq = s.hrq := by rw [h.only]

theorem AnswerTaken.calls (h : AnswerTaken s u) : u.calls = s.calls := by rw [h.only]

theorem AnswerTaken.answers (h : AnswerTaken s u) : u.answers = s.answers := by rw [h.only]

theorem AnswerTaken.trunk (h : AnswerTaken s u) : u.trunk = s.trunk := by rw [h.only]

theorem AnswerTaken.setting (h : AnswerTaken s u) : SettingKept s u := by
  have hlinks := h.links
  rw [h.only] at hlinks ⊢
  exact { SettingKept.refl s with links := hlinks }

theorem AnswerTaken.takes (h : AnswerTaken s u) {e : Enrolled} {a : Attachment} {c : CellIx} (ht : TargetTakes s e a c) :
    TargetTakes u e a c := by
  obtain ⟨hcheck, hroom, htxn, hq⟩ := ht
  refine ⟨(h.setting.checkStored e a c .handover).trans hcheck, by rwa [h.cell], by rwa [h.answers], ?_⟩
  unfold QueueTakes at hq ⊢
  rwa [h.links, h.queues]

theorem AnswerTaken.released (h : AnswerTaken s u) {i : RecIx} {t : State} (k : HandsetReleased i u t) :
    HandsetReleased i s t :=
  k.of_withdrawn h.setting (h.record i) fun p => (congrArg List.length (h.queues p)).le

theorem AnswerTaken.fallenCall (h : AnswerTaken s u) (k : Call) (l : Leg) (c : CellIx) :
    fallenCall u k l c = fallenCall s k l c := by
  rw [h.only]
  rfl

theorem AnswerTaken.passed (h : AnswerTaken s u) {x : Channel} {k : Call} {c : CellIx} {n : Txn} {d : Time} {t : State}
    (k' : AttemptPassed x k c n d u t) : AttemptPassed x k c n d s t where
  freed := fun a ha => k'.freed a ((h.answerOf n).trans ha)
  next := fun b e a hb he ha ht hroom => by
    obtain ⟨m, hcall, hans, hsent, hocc, hocc', hfall, hdrops⟩ := k'.next b e a hb (by rwa [h.record]) ha (h.takes ht)
      (by rwa [h.cell, h.queues])
    refine ⟨m, hcall, ?_, hsent, by rwa [← h.cell b.cell], by rwa [← h.cell c], hfall.trans h.fallbacks,
      hdrops.trans h.drops⟩
    rw [h.only] at hans
    exact hans
  ended := fun hr => by
    obtain ⟨hcall, hocc, hfall, hdrops, hh⟩ := k'.ended fun b hb e a he ha => by
      rw [h.cell, h.setting.checkStored]
      exact hr b hb e a (by rwa [← h.record]) ha
    exact ⟨hcall, by rwa [← h.cell c], hfall.trans h.fallbacks, by rwa [← h.drops], h.released hh⟩

end

/-! ### Through the end of the event -/

theorem AttemptPassed.atEnd {x : Channel} {k : Call} {c : CellIx} {n : Txn} {d : Time} {s r u t : State}
    (k' : AttemptPassed x k c n d r u) (h : EventEnd s u t) : AttemptPassed x k c n d r t where
  freed := fun a ha hc hx hcell => by
    rw [h.answers]
    exact k'.freed a ha hc hx hcell
  next := fun b e a hb he ha ht hroom => by
    obtain ⟨m, hcall, hans, hsent, hrest⟩ := k'.next b e a hb he ha ht hroom
    refine ⟨m, (State.call_congr h.calls x).trans hcall, by rwa [h.answers], ?_, ?_⟩
    · exact hsent.elim ((h.chose _).sent _) fun htx => .inr (by rwa [h.port_busy (by rw [htx]; nofun)])
    · rwa [h.cell, h.cell, h.device]
  ended := fun hr => by
    obtain ⟨hcall, hocc, hfall, hdrops, hh⟩ := k'.ended hr
    exact ⟨(State.call_congr h.calls x).trans hcall, by rwa [h.cell], by rwa [h.device], by rwa [h.device],
      h.handsetReleased hh⟩

/-- A reply that waits when a command has had its effect waits, or is being sent, at the end of the event (R12). -/
theorem EventEnd.reply {s u t : State} (h : EventEnd s u t) {r : Reply} (hr : r ∈ u.trunk.replies) :
    r ∈ t.trunk.replies ∨ t.trunk.tx = some (.reply r) := by
  have htrunk := h.trunk
  split at htrunk
  · rw [htrunk.1]
    exact .inl hr
  · unfold TrunkChose at htrunk
    split at htrunk
    · rw [htrunk.1]
      exact .inl hr
    · next q qs _ _ hqs =>
      rw [htrunk.1]
      rw [hqs] at hr
      exact (List.mem_cons.1 hr).elim (fun he => .inr (by rw [he])) .inl
    · next hqs _ =>
      rw [hqs] at hr
      cases hr
    · next hqs _ =>
      rw [hqs] at hr
      cases hr

/-! ### A failed open (R80) -/

theorem failedOpenResult_eq (cause : FailCause) :
    failedOpenResult cause = if cause = .timeout then .legTimeout else .legFailed cause := by
  cases cause <;> rfl

theorem failedOpen_handset (x : Channel) (k : Call) (c : CellIx) (cause : FailCause) (s : State) :
    HandsetReleased k.handset s (failedOpen x k c cause s) := by
  have h := (failedOpen_failed (x := x) (k := k) (s := s) c (cause := .sync) nofun).handset
  refine h.congr ?_ ?_
  · unfold failedOpen
    rw [reply_records, reply_records]
  · unfold failedOpen
    rw [reply_ports, reply_ports]

theorem failedOpen_reply {x : Channel} {k : Call} {c : CellIx} {cause : FailCause} {s : State} (hu : s.trunk.link = .up)
    (hr : s.trunk.replies.length < 256) : .callAck x (failedOpenResult cause) ∈ (failedOpen x k c cause s).trunk.replies := by
  have htrunk : ((releaseRecheck k.handset (releaseSlot c s)).setCall x none).trunk = s.trunk := by
    change (releaseHandset .recheck k.handset (releaseSlot c s)).trunk = _
    rw [(releaseHandset_step .recheck k.handset (releaseSlot c s)).only]
    exact (releaseSlot_step c s).trunk
  unfold failedOpen
  dsimp only
  rw [reply_queued (by rw [htrunk]; exact hu) (by rw [htrunk]; exact hr)]
  exact List.mem_append_right _ (List.mem_singleton_self _)

/-! ### The delivery of a FAIL in its event -/

section
variable {i : Instr} {f : State → State} {s u : State} {a : Answer} {k : Call} {n : Txn} {cause : FailCause}

/-- An OPENING context whose open fails is IDLE, with its answer queued. -/
theorem fail_opening (hexec : exec i s = .next (event f s))
    (hf : f s = deliverFail nextCandidate a.channel n cause (freeAnswer a u)) (hu : AnswerTaken s u)
    (hk : s.call a.channel = some k) {d : CellIx} (hp : k.phase = .opening d n) :
    Runs i s fun t => t.call a.channel = none ∧
      EventEnd s (failedOpen a.channel k d cause (freeAnswer a u)) t ∧ HandsetReleased k.handset s t ∧
      (s.trunk.link = .up → s.trunk.replies.length < 256 → ∃ r,
        r = Reply.callAck a.channel (if cause = .timeout then .legTimeout else .legFailed cause) ∧
        (r ∈ t.trunk.replies ∨ t.trunk.tx = some (.reply r))) := by
  have hkf : (freeAnswer a u).call a.channel = some k := (hu.call _).trans hk
  rw [deliverFail_opening hkf hp] at hf
  have hend := (event_end (f := f) (s := s)
    (by
      rw [hf, failedOpen_hrq]
      exact hu.hrq)
    (by
      rw [hf]
      refine le_trans (le_of_eq ?_) (failedOpen_inExecution (s := freeAnswer a u) ?_)
      · exact congrArg (fun t => Table.count none t inExecutionAt) hu.calls.symm
      · rw [hkf]
        change k.phase.inExecution = false
        rw [hp]
        rfl)).2
  rw [hf] at hend
  refine ⟨_, hexec, ?_, hend, hend.handsetReleased (hu.released (freeAnswer_released (failedOpen_handset _ _ _ _ _))), ?_⟩
  · rw [State.call_congr hend.calls, failedOpen_call, if_pos rfl]
  · intro hup hroom
    refine ⟨_, rfl, hend.reply ?_⟩
    rw [← failedOpenResult_eq]
    have htrunk : (freeAnswer a u).trunk = s.trunk := hu.trunk
    exact failedOpen_reply (by rwa [htrunk]) (by rwa [htrunk])

/-- A PREPARING context whose open fails falls back, while no handover request waits. -/
theorem fail_preparing (hexec : exec i s = .next (event f s))
    (hf : f s = deliverFail nextCandidate a.channel n cause (freeAnswer a u)) (hu : AnswerTaken s u)
    (ha : s.answerOf n = some a) (hk : s.call a.channel = some k) {l : Leg} {g : Option Time} {r : Target}
    (hp : k.phase = .preparing l g r n) (h0 : s.hrq.total = 0) : Runs i s fun t =>
      t.call a.channel = some (fallenCall s k l r.cell) ∧ t.answers = s.answers.filter (fun b => b.txn ≠ n) ∧
      (t.cell r.cell).occupancy = (s.cell r.cell).occupancy - 1 ∧
      t.device = { u.device with fallbacks := u.device.fallbacks.bump } := by
  rw [deliverFail_preparing (s := freeAnswer a u) ((hu.call _).trans hk) hp] at hf
  have hfell := freeAnswer_fellBack (fallback_fellBack a.channel k l r.cell .gone (freeAnswer a u))
  have hend := (event_end_empty (f := f) h0 (by rw [hf, hfell.hrq, hu.hrq, h0])).2
  rw [hf] at hend
  refine ⟨_, hexec, ?_, ?_, ?_, hend.device.trans hfell.device⟩
  · rw [State.call_congr hend.calls, hfell.call, hu.fallenCall]
  · rw [hend.answers, fallback_answers]
    refine (releaseSlot_answers r.cell _).trans ?_
    rw [freeAnswer_answers, answerOf_txn ha, hu.answers]
  · have hslot := hfell.slots r.cell
    rw [List.count_singleton_self, hu.cell] at hslot
    rw [hend.cell, hslot]

/-- A rescue attempt whose open fails passes on, while no handover request waits. -/
theorem fail_rescuing (hexec : exec i s = .next (event f s))
    (hf : f s = deliverFail nextCandidate a.channel n cause (freeAnswer a u)) (hu : AnswerTaken s u) (hs : s.Inv)
    (ha : s.answerOf n = some a) (hk : s.call a.channel = some k) {r : Target} {d : Time}
    (hp : k.phase = .rescuing (some (r, n)) d) (h0 : s.hrq.total = 0) : Runs i s fun t =>
      (AttemptPassed a.channel k r.cell n d s t ∧ { a with cancelled := true } ∉ t.answers) ∧
        t.device = (nextCandidate a.channel (endAttempt a.channel k r.cell d (freeAnswer a u))).device := by
  rw [deliverFail_rescuing (s := freeAnswer a u) ((hu.call _).trans hk) hp] at hf
  obtain ⟨hpassed, hno⟩ := attempt_passed (hu.inv hs) ((hu.answerOf n).trans ha) ((hu.call _).trans hk) hf
  have hle := hrqTotal_takeRel.nextCandidate a.channel (endAttempt a.channel k r.cell d (freeAnswer a u))
  rw [← hf, endAttempt_hrq] at hle
  have hfree : (freeAnswer a u).hrq = s.hrq := hu.hrq
  rw [hfree] at hle
  have hend := (event_end_empty (f := f) h0 (by omega)).2
  refine ⟨_, hexec, ⟨hu.passed (hpassed.atEnd hend), ?_⟩, ?_⟩
  · rw [hend.answers]
    exact hno
  · rw [hend.device, hf]

end

end Sys2Proof.Machine
end

section
/-! PROOFS. What a FAIL, a timeout and an eviction do to a pending open (R16, R80, R126, R133, R145, R146, R150). -/

namespace Sys2Proof.Machine

/-! ### The deadline of a pending answer (R146) -/

theorem pendingExpiry_idle {n : Txn} {s : State} (h : ∀ a, s.answerOf n = some a → ¬ due a.deadline s) :
    pendingExpiry n s = s := by
  unfold pendingExpiry
  split
  · rfl
  · next a ha => exact if_neg fun hd => h a ha (passed_iff.1 hd)

theorem pendingExpiry_due {n : Txn} {s : State} {a : Answer} (ha : s.answerOf n = some a) (hd : due a.deadline s) :
    pendingExpiry n s = resolveFail nextCandidate a .timeout s := by
  unfold pendingExpiry
  rw [ha]
  exact if_pos (passed_iff.2 hd)

theorem resolveFail_cancelled {f : Channel → State → State} {a : Answer} (h : a.cancelled = true) (cause : FailCause)
    (s : State) : resolveFail f a cause s = freeAnswer a s := if_pos h

theorem resolveFail_delivered {f : Channel → State → State} {a : Answer} {n : Txn} {s : State} (ha : s.answerOf n = some a)
    (h : a.cancelled = false) (cause : FailCause) (u : State) :
    resolveFail f a cause u = deliverFail f a.channel n cause (freeAnswer a u) := by
  unfold resolveFail
  rw [if_neg (by rw [h]; nofun), answerOf_txn ha]

/-! ### A matched FAIL (R145) -/

theorem legAnswer_fail {n : Txn} {s : State} {a : Answer} (ha : s.answerOf n = some a) (h : a.cancelled = false)
    (cause : FailCause) :
    legAnswer a.cell n a.channel (.fail cause) s = deliverFail nextCandidate a.channel n cause (freeAnswer a s) := by
  unfold legAnswer
  rw [ha]
  dsimp only
  rw [if_pos ⟨rfl, rfl⟩, if_neg (by rw [h]; nofun)]

/-! ### An eviction (R150) -/

theorem settleVictim_resolved {f : CtlFrame} {s : State} (hs : s.Inv) {n : Txn} (hn : f.openTxn = some n) :
    OpenResolved n .queueFull s (settleVictim nextCandidate (some f) s) := by
  have hbind : (some f).bind CtlFrame.openTxn = some n := hn
  cases ha : s.answerOf n with
  | none =>
    refine ⟨fun _ => ?_, fun a hb => by rw [ha] at hb; cases hb⟩
    unfold settleVictim
    rw [hbind]
    dsimp only
    rw [ha]
  | some a =>
    refine resolveFail_resolved hs ha nofun ?_
    unfold settleVictim
    rw [hbind]
    dsimp only
    rw [ha]

/-- Settles O45. -/
theorem pendingOpenFails : Obligations.PendingOpenFails := by
  refine ⟨fun n s h => ?_, fun n s a ha hd hc => ?_, fun n s a k hs ha hc hk i u cause hi => ?_, fun f s t hs ht => ?_⟩
  · exact congrArg Host.Outcome.next (event_eq_quiet (pendingExpiry_idle h) (.refl s))
  · exact runs_event (f := pendingExpiry n) rfl ((pendingExpiry_due ha hd).trans (resolveFail_cancelled hc _ _)) rfl rfl
      fun _ ht => ht
  · have hevent : ∃ f, exec i s = .next (event f s) ∧
        f s = deliverFail nextCandidate a.channel n cause (freeAnswer a u) ∧ AnswerTaken s u ∧ u.device = s.device := by
      rcases hi with ⟨rfl, hd, rfl, rfl⟩ | ⟨txn, ch, arg, hheard, hn, hch, rfl, rfl, hcause⟩
      · exact ⟨pendingExpiry n, rfl, (pendingExpiry_due ha hd).trans (resolveFail_delivered ha hc _ _), .refl _, rfl⟩
      · have hout : ackOutcome 1 arg = some (.fail cause) := by
          rcases hcause with ⟨rfl, rfl⟩ | ⟨rfl, rfl⟩ | ⟨rfl, rfl⟩ <;> rfl
        exact ⟨_, exec_legAck hheard hn hch hout, legAnswer_fail (s := counted a.cell s) ha hc cause, .counted _ _, rfl⟩
    obtain ⟨f, hexec, hf, hu, hdev⟩ := hevent
    refine ⟨fun d hp => fail_opening hexec hf hu hk hp, fun l g r hp h0 => ?_, fun r d hp h0 => ?_⟩
    · rw [← hdev]
      exact fail_preparing hexec hf hu ha hk hp h0
    · obtain ⟨t, ht, hpassed, -⟩ := fail_rescuing hexec hf hu hs ha hk hp h0
      exact ⟨t, ht, hpassed⟩
  · subst ht
    exact ⟨fun hn => settleVictim_none (fun g hg => by cases hg; exact hn) s, fun n hn => settleVictim_resolved hs hn⟩

end Sys2Proof.Machine
end

section
/-! PROOFS. A LEG-ACK that is not delivered (R141 to R145): stray, mismatched under both policies, or matched with a cancelled
entry. -/

namespace Sys2Proof.Machine

/-! ### The counter of sync errors -/

/-- The count of sync errors is the same in two states. -/
def SyncErrorsKept (s t : State) : Prop := t.device.syncErrors = s.device.syncErrors

theorem SyncErrorsKept.trans {s t u : State} (h : SyncErrorsKept s t) (k : SyncErrorsKept t u) : SyncErrorsKept s u :=
  Eq.trans k h

theorem SyncErrorsKept.of_device {s t : State} (h : t.device = s.device) : SyncErrorsKept s t :=
  congrArg DeviceCounters.syncErrors h

theorem reply_syncErrors (r : Reply) (s : State) : SyncErrorsKept s (reply r s) := by
  unfold SyncErrorsKept
  rw [reply_eq]

theorem dropCall_syncErrors (x : Channel) (cause : DropCause) (lost : Bool) (s : State) :
    SyncErrorsKept s (dropCall x cause lost s) := by
  cases hk : s.call x with
  | none =>
    rw [dropCall_none hk]
    rfl
  | some k =>
    rw [dropCall_eq hk]
    refine SyncErrorsKept.trans ?_ (reply_syncErrors _ _)
    unfold SyncErrorsKept
    rw [(endCall_ended x k lost cause.form _).device]
    rfl

theorem failedOpen_syncErrors (x : Channel) (k : Call) (c : CellIx) (cause : FailCause) (s : State) :
    SyncErrorsKept s (failedOpen x k c cause s) := by
  refine SyncErrorsKept.trans (.of_device ?_) (reply_syncErrors _ _)
  change (releaseHandset .recheck k.handset (releaseSlot c s)).device = _
  rw [(releaseHandset_step .recheck k.handset (releaseSlot c s)).only]
  exact (releaseSlot_step c s).device

theorem fallback_syncErrors (x : Channel) (k : Call) (l : Leg) (c : CellIx) (how : TargetEnd) (s : State) :
    SyncErrorsKept s (fallback x k l c how s) := by
  unfold SyncErrorsKept
  rw [(fallback_fellBack x k l c how s).device]

theorem endAttempt_syncErrors (x : Channel) (k : Call) (c : CellIx) (d : Time) (s : State) :
    SyncErrorsKept s (endAttempt x k c d s) := .of_device (releaseSlot_step c s).device

theorem tried_syncErrors {x : Channel} {i : RecIx} {c : CellIx} {s u : State} {r : TargetTry}
    (hr : tryTarget x i c .rescue false s = r) (hu : r.state = u) : SyncErrorsKept s u := by
  subst hr hu
  unfold SyncErrorsKept
  rw [tryTarget_only x i c .rescue false s]

section
variable {f : Channel → State → State} (hf : ∀ x s, SyncErrorsKept s (f x s))
include hf

theorem deliverFail_syncErrors (x : Channel) (n : Txn) (cause : FailCause) (s : State) :
    SyncErrorsKept s (deliverFail f x n cause s) := by
  unfold deliverFail
  split
  · rfl
  · split
    · split
      · exact failedOpen_syncErrors _ _ _ _ s
      · rfl
    · rfl
    · split
      · exact fallback_syncErrors _ _ _ _ _ s
      · rfl
    · rfl
    · rfl
    · split
      · exact (endAttempt_syncErrors _ _ _ _ s).trans (hf _ _)
      · rfl

theorem settleVictim_syncErrors (v : Option CtlFrame) (s : State) : SyncErrorsKept s (settleVictim f v s) := by
  unfold settleVictim
  split
  · rfl
  · split
    · rfl
    · unfold resolveFail
      split
      · rfl
      · exact deliverFail_syncErrors hf _ _ _ (freeAnswer _ s)

end

theorem passOn_syncErrors {f : Channel → CellIx → State → State} (hf : ∀ x c s, SyncErrorsKept s (f x c s)) (x : Channel)
    (s : State) : SyncErrorsKept s (passOn f x s) := by
  unfold passOn
  split
  · rfl
  · split
    · exact dropCall_syncErrors _ _ _ s
    · exact hf _ _ s

theorem rescueTry_syncErrors (n : Nat) (x : Channel) (c : CellIx) (s : State) : SyncErrorsKept s (rescueTry n x c s) := by
  induction n generalizing x c s with
  | zero => exact dropCall_syncErrors _ _ _ s
  | succ n ih =>
    have next := passOn_syncErrors ih
    unfold rescueTry
    split
    · rfl
    · split
      · next ht => exact (tried_syncErrors ht rfl).trans (next _ _)
      · next ht => exact (tried_syncErrors ht rfl).trans (next _ _)
      · next ht => exact (tried_syncErrors ht rfl).trans (settleVictim_syncErrors next _ _)

theorem nextCandidate_syncErrors (x : Channel) (s : State) : SyncErrorsKept s (nextCandidate x s) :=
  passOn_syncErrors (rescueTry_syncErrors _) x s

/-! ### The close of an unwanted READY (R142) -/

theorem holdsChannel_congr {s u : State} (h : u.calls = s.calls) (c : CellIx) (x : Channel) :
    holdsChannel u c x = holdsChannel s c x := by
  unfold holdsChannel
  rw [State.call_congr h]

theorem unwanted_ready {s u : State} (h : u.calls = s.calls) (c : CellIx) (x : Channel) (sl : Slot) :
    unwanted c x (.ready sl) u = closeUnwanted c x s u := by
  unfold unwanted closeUnwanted
  dsimp only
  rw [holdsChannel_congr h]

theorem closeAdd_ports (c : CellIx) (x : Channel) (s : State) :
    closeAdd c x s = { s with ports := (closeAdd c x s).ports } := by
  unfold closeAdd
  dsimp only
  split
  · rfl
  · split <;> rfl

theorem closeAdd_ctl (c : CellIx) (x : Channel) (s : State) (p : PortIx) :
    ((closeAdd c x s).port p).ctl = (s.port p).ctl := by
  unfold closeAdd
  dsimp only
  split
  · rfl
  · split
    · rfl
    · rw [State.port_setPort]
      split
      · next h => rw [h]
      · rfl

theorem AnswerTaken.closeUnwanted {s u : State} (h : AnswerTaken s u) (c : CellIx) (x : Channel) :
    AnswerTaken s (closeUnwanted c x s u) := by
  unfold Machine.closeUnwanted
  split
  · exact h
  · refine ⟨?_, fun hs => (closeAdd_moves (P := fun _ => False) c x u).keeps.inv (h.inv hs),
      fun p => ((closeAdd_step c x u).ports p).link.trans (h.links p),
      fun p => (closeAdd_ctl c x u p).trans (h.queues p), ?_, ?_⟩
    · rw [closeAdd_ports, h.only]
    · rw [closeAdd_ports]
      exact h.fallbacks
    · rw [closeAdd_ports]
      exact h.drops

theorem closeUnwanted_ports (c : CellIx) (x : Channel) (s u : State) :
    closeUnwanted c x s u = { u with ports := (closeUnwanted c x s u).ports } := by
  unfold closeUnwanted
  split
  · rfl
  · exact closeAdd_ports c x u

theorem closeUnwanted_device (c : CellIx) (x : Channel) (s u : State) : (closeUnwanted c x s u).device = u.device := by
  rw [closeUnwanted_ports]

theorem closeUnwanted_hrq (c : CellIx) (x : Channel) (s u : State) : (closeUnwanted c x s u).hrq = u.hrq := by
  rw [closeUnwanted_ports]

theorem closeUnwanted_calls (c : CellIx) (x : Channel) (s u : State) : (closeUnwanted c x s u).calls = u.calls := by
  rw [closeUnwanted_ports]

/-- A state in which an answer has been counted alone. -/
theorem AnswerTaken.errors (c : CellIx) (s : State) {d : DeviceCounters} (hf : d.fallbacks = s.device.fallbacks)
    (hd : d.drops = s.device.drops) : AnswerTaken s { Machine.counted c s with device := d } :=
  ⟨rfl, ((countReceived_moves (P := fun _ => False) _ s).trans (.of (.device _ fun _ => d))).keeps.inv, fun _ => rfl,
    fun _ => rfl, hf, hd⟩

/-! ### The judgement of a LEG-ACK (R142 to R145) -/

section
variable {c : CellIx} {n : Txn} {x : Channel} {s : State} {a : Answer}

theorem legAnswer_stray (ha : s.answerOf n = none) (o : AckOutcome) : legAnswer c n x o s =
    unwanted c x o (s.count fun d => { d with strayAnswers := d.strayAnswers.bump }) := by
  unfold legAnswer
  rw [ha]

theorem legAnswer_mismatched (ha : s.answerOf n = some a) (h : a.cell ≠ c ∨ a.channel ≠ x) (o : AckOutcome) :
    legAnswer c n x o s =
      syncError a (unwanted c x o (s.count fun d => { d with syncErrors := d.syncErrors.bump })) := by
  unfold legAnswer
  rw [ha]
  exact if_neg fun ⟨hc, hx⟩ => h.elim (· hc) (· hx)

theorem legAnswer_cancelled (ha : s.answerOf n = some a) (hcell : a.cell = c) (hx : a.channel = x)
    (hc : a.cancelled = true) (o : AckOutcome) : legAnswer c n x o s = unwanted c x o (freeAnswer a s) := by
  unfold legAnswer
  rw [ha]
  dsimp only
  rw [if_pos ⟨hcell, hx⟩, if_pos hc]

end

theorem ackOutcome_ready {arg : Byte} (h : arg.toNat < 12) : ∃ sl, ackOutcome 0 arg = some (.ready sl) :=
  ⟨_, congrArg (Option.map AckOutcome.ready) (byteIn_some h)⟩

theorem ackOutcome_fail {arg : Byte} (h1 : 1 ≤ arg.toNat) (h3 : arg.toNat ≤ 3) :
    ∃ cause, ackOutcome 1 arg = some (.fail cause) := by
  have harg : arg = 1 ∨ arg = 2 ∨ arg = 3 := by
    simp only [← BitVec.toNat_inj]
    have h : arg.toNat = 1 ∨ arg.toNat = 2 ∨ arg.toNat = 3 := by omega
    exact h
  rcases harg with rfl | rfl | rfl
  · exact ⟨_, rfl⟩
  · exact ⟨_, rfl⟩
  · exact ⟨_, rfl⟩

/-- A LEG-ACK whose event leaves the calls and the requests as they were. -/
theorem runs_legAck {c : CellIx} {txn : BitVec 16} {n : Txn} {x : Channel} {ch o arg : Byte} {out : AckOutcome} {s u : State}
    (h : Heard c s) (hn : txn.toNat = n.toNat) (hx : ch.toNat = x.val) (ho : ackOutcome o arg = some out)
    (hu : legAnswer c n x out (counted c s) = u) (htaken : AnswerTaken s u) :
    Runs (.legAck c txn ch o arg) s (EventEnd s u) :=
  runs_event (exec_legAck h hn hx ho) hu htaken.hrq htaken.calls fun _ ht => ht

/-- A LEG-ACK that finds no entry, or under the policy DISCARD the wrong one, closes a READY and does nothing more. -/
theorem runs_unwanted {c : CellIx} {txn : BitVec 16} {n : Txn} {x : Channel} {ch arg : Byte} {s v : State} (h : Heard c s)
    (hn : txn.toNat = n.toNat) (hx : ch.toNat = x.val) (hv : AnswerTaken s v)
    (hu : ∀ o, legAnswer c n x o (counted c s) = unwanted c x o v) :
    (arg.toNat < 12 → Runs (.legAck c txn ch 0 arg) s (EventEnd s (closeUnwanted c x s v))) ∧
    (1 ≤ arg.toNat → arg.toNat ≤ 3 → Runs (.legAck c txn ch 1 arg) s (EventEnd s v)) := by
  refine ⟨fun harg => ?_, fun h1 h3 => ?_⟩
  · obtain ⟨sl, hout⟩ := ackOutcome_ready harg
    exact runs_legAck h hn hx hout ((hu _).trans (unwanted_ready hv.calls c x sl)) (hv.closeUnwanted c x)
  · obtain ⟨cause, hout⟩ := ackOutcome_fail h1 h3
    exact runs_legAck h hn hx hout (hu _) hv

/-- A sync error under FAIL, its event and what it has counted and closed before the entry resolves (R144). -/
theorem syncError_event {c : CellIx} {txn : BitVec 16} {n : Txn} {x : Channel} {ch arg o : Byte} {s u v : State} {a : Answer}
    (h : Heard c s) (hn : txn.toNat = n.toNat) (hx : ch.toNat = x.val) (ha : s.answerOf n = some a)
    (hm : a.cell ≠ c ∨ a.channel ≠ x) (hf : s.config.sync = .fail)
    (hv : v = { counted c s with device := { s.device with syncErrors := s.device.syncErrors.bump } })
    (ho : (o = 0 ∧ arg.toNat < 12 ∧ u = closeUnwanted c x s v) ∨ (o = 1 ∧ 1 ≤ arg.toNat ∧ arg.toNat ≤ 3 ∧ u = v)) :
    AnswerTaken s u ∧ u.device = { s.device with syncErrors := s.device.syncErrors.bump } ∧
      ∃ f, exec (.legAck c txn ch o arg) s = .next (event f s) ∧ f s = resolveFail nextCandidate a .sync u := by
  have htaken : AnswerTaken s v := hv ▸ .errors c s rfl rfl
  have hjudged : ∀ out, legAnswer c n x out (counted c s) = syncError a (unwanted c x out v) := fun out => by
    rw [hv]
    exact legAnswer_mismatched (s := counted c s) ha hm out
  have hpolicy : ∀ w, AnswerTaken s w → syncError a w = resolveFail nextCandidate a .sync w := fun w hw => by
    unfold syncError
    rw [hw.setting.config, hf]
  rcases ho with ⟨rfl, harg, rfl⟩ | ⟨rfl, h1, h3, rfl⟩
  · obtain ⟨sl, hout⟩ := ackOutcome_ready harg
    have hclosed := htaken.closeUnwanted c x
    refine ⟨hclosed, by rw [closeUnwanted_device, hv], _, exec_legAck h hn hx hout, ?_⟩
    exact (hjudged _).trans (by rw [unwanted_ready htaken.calls]; exact hpolicy _ hclosed)
  · obtain ⟨cause, hout⟩ := ackOutcome_fail h1 h3
    exact ⟨htaken, by rw [hv], _, exec_legAck h hn hx hout, (hjudged _).trans (hpolicy _ htaken)⟩

/-- Settles O34. -/
theorem legAckUnwanted : Obligations.LegAckUnwanted := by
  intro c txn n x ch arg s h hn hx
  refine ⟨fun ha => ?_, fun a ha => ⟨fun hm hpol => ?_, fun u v hm hpol hv o ho => ?_, fun hcell hchan hc => ?_⟩⟩
  · exact runs_unwanted h hn hx (.errors c s rfl rfl) fun o => legAnswer_stray (s := counted c s) ha o
  · have hkeep : ∀ u, AnswerTaken s u → syncError a u = u := fun u hu => by
      unfold syncError
      rw [hu.setting.config, hpol]
    have htaken := AnswerTaken.errors c s (d := { s.device with syncErrors := s.device.syncErrors.bump }) rfl rfl
    refine runs_unwanted h hn hx htaken fun o =>
      (legAnswer_mismatched (s := counted c s) ha hm o).trans (hkeep _ ?_)
    cases o with
    | ready sl =>
      change AnswerTaken s (unwanted c x (.ready sl) { counted c s with
        device := { s.device with syncErrors := s.device.syncErrors.bump } })
      rw [unwanted_ready htaken.calls]
      exact htaken.closeUnwanted c x
    | fail cause => exact htaken
  · obtain ⟨hu, hdev, f, hexec, hf⟩ := syncError_event h hn hx ha hm hpol hv ho
    refine ⟨fun hc => ?_, fun hc hs k hk => ?_⟩
    · exact runs_event hexec (hf.trans (resolveFail_cancelled hc _ _)) hu.hrq hu.calls fun _ ht => ht
    · have hdeliver := hf.trans (resolveFail_delivered ha hc _ _)
      refine ⟨fun d hp => ?_, fun l g r hp h0 => ?_, fun r d hp h0 => ?_⟩
      · obtain ⟨t, ht, hcall, hend, hrel, -⟩ := fail_opening hexec hdeliver hu hk hp
        exact ⟨t, ht, hcall, hrel, hend⟩
      · obtain ⟨t, ht, hcall, hans, hocc, hd⟩ := fail_preparing hexec hdeliver hu ha hk hp h0
        exact ⟨t, ht, hcall, hans, hocc, hd.trans (by rw [hdev])⟩
      · obtain ⟨t, ht, ⟨hpassed, hno⟩, hd⟩ := fail_rescuing hexec hdeliver hu hs ha hk hp h0
        refine ⟨t, ht, hpassed, ?_, hno⟩
        have hkept := (endAttempt_syncErrors a.channel k r.cell d (freeAnswer a u)).trans
          (nextCandidate_syncErrors a.channel _)
        rw [hd]
        refine Eq.trans hkept ?_
        change u.device.syncErrors = _
        rw [hdev]
  · have hfree : ∀ o, legAnswer c n x o (counted c s) = unwanted c x o (freeAnswer a (counted c s)) :=
      legAnswer_cancelled (s := counted c s) ha hcell hchan hc
    refine ⟨fun harg => ?_, fun h1 h3 => ?_⟩
    · obtain ⟨sl, hout⟩ := ackOutcome_ready harg
      exact runs_event (exec_legAck h hn hx hout) ((hfree _).trans (unwanted_ready (s := s) (by rfl) c x sl))
        (closeUnwanted_hrq ..) (closeUnwanted_calls ..) fun _ ht => ht
    · obtain ⟨cause, hout⟩ := ackOutcome_fail h1 h3
      exact runs_event (exec_legAck h hn hx hout) (hfree _) rfl rfl fun _ ht => ht

end Sys2Proof.Machine
end

section
/-! PROOFS. One try of a rescue at a target (R119, R120, R122): admitted, or refused with what it reserved handed back; and
the order in which the targets of a rescue are tried. -/

namespace Sys2Proof.Machine

/-! ### The rescue order (R122) -/

theorem bestCandidate_max {cs : List Candidate} {b : Candidate} (h : bestCandidate cs = some b) :
    ∀ c ∈ cs, c.f ≤ b.f := by
  induction cs generalizing b with
  | nil => exact fun _ => nofun
  | cons d ds ih =>
    unfold bestCandidate at h
    split at h
    · next hn =>
      cases h
      rw [bestCandidate_none hn]
      exact fun c hc => (congrArg Candidate.f (List.mem_singleton.1 hc)).le
    · next e he =>
      intro c hc
      split at h
      · next hlt =>
        cases h
        rcases List.mem_cons.1 hc with rfl | hc
        · exact hlt.le
        · exact ih he c hc
      · next hle =>
        cases h
        rcases List.mem_cons.1 hc with rfl | hc
        · exact le_rfl
        · exact (ih he c hc).trans (not_lt.1 hle)

/-- The best candidate stays the best one when others are removed. -/
theorem bestCandidate_without {t : CellIx} {cs : List Candidate} {b : Candidate} (h : bestCandidate cs = some b)
    (ht : b.cell ≠ t) : bestCandidate (without t cs) = some b := by
  induction cs generalizing b with
  | nil => cases h
  | cons d ds ih =>
    have hskip : d.cell = t → without t (d :: ds) = without t ds := fun hd =>
      List.filter_cons_of_neg (by simp [hd])
    have hkeep : d.cell ≠ t → without t (d :: ds) = d :: without t ds := fun hd =>
      List.filter_cons_of_pos (by simp [hd])
    have hbest := h
    unfold bestCandidate at h
    split at h
    · next hn =>
      cases h
      rw [hkeep ht, bestCandidate_none hn]
      rfl
    · next e he =>
      split at h
      · next hlt =>
        cases h
        by_cases hd : d.cell = t
        · rw [hskip hd]
          exact ih he ht
        · rw [hkeep hd]
          unfold bestCandidate
          rw [ih he ht]
          exact if_pos hlt
      · cases h
        rw [hkeep ht]
        unfold bestCandidate
        cases hw : bestCandidate (without t ds) with
        | none => rfl
        | some c =>
          exact if_neg (not_lt.2 (bestCandidate_max hbest c
            (List.mem_cons_of_mem _ (List.mem_filter.1 (bestCandidate_mem hw)).1)))

theorem rescueOrder_mem {n : Nat} {cs : List Candidate} {d : CellIx} (h : d ∈ rescueOrder n cs) : ∃ c ∈ cs, c.cell = d := by
  induction n generalizing cs with
  | zero => cases h
  | succ n ih =>
    unfold rescueOrder at h
    split at h
    · cases h
    · next c hc =>
      rcases List.mem_cons.1 h with rfl | h
      · exact ⟨c, bestCandidate_mem hc, rfl⟩
      · obtain ⟨b, hb, hd⟩ := ih h
        exact ⟨b, (List.mem_filter.1 hb).1, hd⟩

/-- The first target tried after `t` is the best candidate elsewhere. -/
theorem rescueOrder_next {n : Nat} {cs : List Candidate} {t : CellIx} {b : Candidate} (hl : cs.length ≤ n)
    (hb : bestCandidate (without t cs) = some b) :
    ∃ rest, (rescueOrder n cs).filter (fun c => !decide (c = t)) = b.cell :: rest := by
  have hmem := bestCandidate_mem hb
  have hne := without_ne hmem
  have hcons : ∀ m, ∃ rest, (rescueOrder (m + 1) (without t cs)).filter (fun c => !decide (c = t)) = b.cell :: rest :=
    fun m => by
      unfold rescueOrder
      rw [hb]
      exact ⟨_, List.filter_cons_of_pos (by simp [hne])⟩
  cases n with
  | zero =>
    rw [List.length_eq_zero_iff.1 (Nat.le_zero.1 hl)] at hmem
    cases hmem
  | succ n =>
    unfold rescueOrder
    cases hc : bestCandidate cs with
    | none =>
      rw [bestCandidate_none hc] at hmem
      cases hmem
    | some c =>
      dsimp only
      by_cases ht : c.cell = t
      · have hshort : (without t cs).length < cs.length :=
          List.length_filter_lt_length_iff_exists.2 ⟨c, bestCandidate_mem hc, by simp [ht]⟩
        have hpos := List.length_pos_of_mem hmem
        obtain ⟨m, rfl⟩ : ∃ m, n = m + 1 := ⟨n - 1, by omega⟩
        rw [List.filter_cons_of_neg (by simp [ht]), ht, filter_without]
        exact hcons m
      · rw [bestCandidate_without hc ht] at hb
        cases hb
        exact ⟨_, List.filter_cons_of_pos (by simp [ht])⟩

theorem rescueOrder_done {n : Nat} {cs : List Candidate} {t : CellIx} (h : without t cs = []) :
    (rescueOrder n cs).filter (fun c => !decide (c = t)) = [] := by
  refine List.filter_eq_nil_iff.2 fun d hd => ?_
  obtain ⟨c, hc, rfl⟩ := rescueOrder_mem hd
  have := List.filter_eq_nil_iff.1 h c hc
  simpa using this

/-! ### A refused try -/

/-- What a refused try leaves: what it reserved is handed back. -/
structure HandedBack (s u : State) : Prop where
  only : u = { s with cells := u.cells }
  setting : SettingKept s u
  occupancy : ∀ d, (u.cell d).occupancy = (s.cell d).occupancy

theorem HandedBack.refl (s : State) : HandedBack s s := ⟨rfl, .refl s, fun _ => rfl⟩

theorem releaseSlot_inService {c : CellIx} {s : State} (h : (s.cell c).service = .inService) :
    releaseSlot c s = s.setCell c { s.cell c with
      occupancy := (s.cell c).occupancy - 1
      congested := congestedAfterRelease (s.cell c) ((s.cell c).occupancy - 1) } := by
  unfold releaseSlot endDrainIfEmpty
  dsimp only
  rw [State.cell_setCell_self]
  dsimp only
  rw [h]

theorem handedBack {c : CellIx} {s : State} (hs : (s.cell c).service = .inService)
    (hr : (s.cell c).occupancy < (s.cell c).capacity) : HandedBack s (releaseSlot c (reserved c s)) := by
  have hserve : ((reserved c s).cell c).service = .inService := by
    unfold reserved
    rw [State.cell_setCell_self]
    exact hs
  refine ⟨?_, ?_, fun d => ?_⟩
  · rw [releaseSlot_inService hserve]
    rfl
  · exact ((reserve_moves (P := fun _ => False) (s := s) le_rfl (reserve_ok hs hr)).trans
      (releaseSlot_moves c (reserved c s))).raws.setting
  · rw [(releaseSlot_step c (reserved c s)).slots d, reserved_occupancy]
    by_cases hd : d = c
    · rw [hd, if_pos rfl, List.count_singleton_self]
      omega
    · rw [if_neg hd, List.count_cons_of_ne (Ne.symm hd)]
      rfl

section
variable {x : Channel} {i : RecIx} {c : CellIx} {s : State} {e : Enrolled} {a : Attachment} {code : HoCode}

/-- A try at a target that passes the tests of access and capacity offers its LEG-OPEN. -/
theorem tryTarget_offers (he : (s.record i).enrolled = some e) (ha : e.loc.attachment = some a)
    (hc : checkStored s e a c .handover = none) (hr : (s.cell c).occupancy < (s.cell c).capacity) :
    tryTarget x i c .rescue false s = offerTargetOpen x e.hid c .rescue (reserved c s) := by
  unfold tryTarget
  rw [he]
  dsimp only
  rw [ha]
  dsimp only
  rw [hc]
  dsimp only
  rw [Bool.false_and, if_neg nofun, reserve_ok (accessCheck_inService hc).2 hr]

theorem tryTarget_denied (he : (s.record i).enrolled = some e) (ha : e.loc.attachment = some a)
    (h : TargetRefuses s e a c code) : ∃ u, HandedBack s u ∧ tryTarget x i c .rescue false s = .refused code u := by
  rcases h with ⟨v, hv, rfl⟩ | ⟨hc, ⟨hfull, rfl⟩ | ⟨hr, hans, rfl⟩⟩
  · refine ⟨s, .refl s, ?_⟩
    unfold tryTarget
    rw [he]
    dsimp only
    rw [ha]
    dsimp only
    rw [hv]
  · refine ⟨s, .refl s, ?_⟩
    unfold tryTarget
    rw [he]
    dsimp only
    rw [ha]
    dsimp only
    rw [hc]
    dsimp only
    rw [Bool.false_and, if_neg nofun, reserve_full (accessCheck_inService hc).2 hfull]
    rfl
  · refine ⟨_, handedBack (accessCheck_inService hc).2 hr, ?_⟩
    rw [tryTarget_offers he ha hc hr]
    unfold offerTargetOpen
    exact if_neg fun h => absurd (of_decide_eq_true h) (not_lt.2 hans)

theorem tryTarget_queueRefused (he : (s.record i).enrolled = some e) (ha : e.loc.attachment = some a)
    (hc : checkStored s e a c .handover = none) (hr : (s.cell c).occupancy < (s.cell c).capacity)
    (hans : s.answers.length < 64) (hq : QueueRefuses 3 c s) :
    ∃ u, HandedBack s u ∧ tryTarget x i c .rescue false s = .queueRefused u := by
  refine ⟨_, handedBack (accessCheck_inService hc).2 hr, ?_⟩
  rw [tryTarget_offers he ha hc hr]
  unfold offerTargetOpen
  rw [if_pos (show (reserved c s).txnAvailable = true from decide_eq_true hans),
    offer_refused (f := .legOpen c (reserved c s).nextTxn x e.hid .rescue) (s := reserved c s) hq]
  by_cases hl : ((reserved c s).port
      (portOf (CtlFrame.legOpen c (reserved c s).nextTxn x e.hid .rescue).dest)).link = .up
  · rw [if_pos hl]
  · rw [if_neg hl]

/-- A refused target of an ACTIVE context is counted, and the next one is tried. -/
theorem preemptiveRescue_refused (he : (s.record i).enrolled = some e) (ha : e.loc.attachment = some a)
    (h : RescueRefused s e a c code) : ∃ u, HandedBack s u ∧ ∀ t ts,
      preemptiveRescue x i t (c :: ts) s = preemptiveRescue x i t ts (countRefusal code u) := by
  rcases h with h | ⟨hc, hr, hans, hq, rfl⟩
  · obtain ⟨u, hu, htry⟩ := tryTarget_denied (x := x) he ha h
    refine ⟨u, hu, fun t ts => ?_⟩
    rw [preemptiveRescue, htry]
  · obtain ⟨u, hu, htry⟩ := tryTarget_queueRefused (x := x) he ha hc hr hans hq
    refine ⟨u, hu, fun t ts => ?_⟩
    rw [preemptiveRescue, htry]

theorem preemptiveRescue_admitted (he : (s.record i).enrolled = some e) (ha : e.loc.attachment = some a)
    (ht : TargetTakes s e a c) (t : CellIx) (ts : List CellIx) : ∃ u, TargetTried x c e.hid .rescue s u ∧
      preemptiveRescue x i t (c :: ts) s = beginPreparing x ⟨c, .rescue, .rescue⟩ s.nextTxn u := by
  obtain ⟨v, u, htry, hv, hu⟩ := tryTarget_admitted (x := x) (role := .rescue) (b := false) he ha ht rfl
  refine ⟨u, hu, ?_⟩
  rw [preemptiveRescue, htry]
  exact settleVictim_none hv _

/-- A refused target of a RESCUING context is counted and leaves the candidate list, and the best one left is tried. -/
theorem rescueTry_refused {k : Call} (hk : s.call x = some k) (he : (s.record k.handset).enrolled = some e)
    (ha : e.loc.attachment = some a) (h : RescueRefused s e a c code) : ∃ u, HandedBack s u ∧ ∀ n,
      rescueTry (n + 1) x c s = passOn (rescueTry n) x (dropCandidate x c (countRefusal code u)) := by
  rcases h with h | ⟨hc, hr, hans, hq, rfl⟩
  · obtain ⟨u, hu, htry⟩ := tryTarget_denied (x := x) he ha h
    refine ⟨u, hu, fun n => ?_⟩
    rw [rescueTry, hk]
    dsimp only
    rw [htry]
  · obtain ⟨u, hu, htry⟩ := tryTarget_queueRefused (x := x) he ha hc hr hans hq
    refine ⟨u, hu, fun n => ?_⟩
    rw [rescueTry, hk]
    dsimp only
    rw [htry]

end

end Sys2Proof.Machine
end

section
/-! PROOFS. The take of a RESCUE request that waits alone (R117, R118, R120, R122, R123, R132). -/

namespace Sys2Proof.Machine

/-! ### The state that a try starts from -/

/-- A try in `w` starts from the slots, the pending answers and the time of `s`. -/
structure TryFrom (s w : State) : Prop where
  answers : w.answers = s.answers
  counter : w.txnCounter = s.txnCounter
  legTime : inMs w.config.legTime w = inMs s.config.legTime s
  occupancy : ∀ d, (w.cell d).occupancy = (s.cell d).occupancy

theorem TryFrom.nextTxn {s w : State} (h : TryFrom s w) : w.nextTxn = s.nextTxn := by
  unfold State.nextTxn
  rw [h.answers, h.counter]

theorem TryFrom.trans {s v w : State} (h : TryFrom s v) (k : TryFrom v w) : TryFrom s w where
  answers := k.answers.trans h.answers
  counter := k.counter.trans h.counter
  legTime := k.legTime.trans h.legTime
  occupancy := fun d => (k.occupancy d).trans (h.occupancy d)

theorem HandedBack.tryFrom {s u : State} (h : HandedBack s u) : TryFrom s u where
  answers := by rw [h.only]
  counter := by rw [h.only]
  legTime := by rw [h.only]; rfl
  occupancy := h.occupancy

theorem TryFrom.nothing {s w t : State} (h : TryFrom s w) (hc : t.cells = w.cells) (ha : t.answers = w.answers)
    (hn : t.txnCounter = w.txnCounter) : NothingOpened s t where
  occupancy := fun d => by
    rw [← h.occupancy d]
    unfold State.cell
    rw [hc]
  answers := ha.trans h.answers
  counter := hn.trans h.counter

/-- A try that was admitted opens the target, once its event has ended. -/
theorem TargetTried.opened {x : Channel} {c : CellIx} {h : Hid} {role : Role} {s w u v b t : State}
    (hu : TargetTried x c h role w u) (hw : TryFrom s w) (hv : v = { u with calls := v.calls }) (hend : EventEnd b v t) :
    TargetOpened x c h role s t where
  occupancy := by
    have := hu.cells c
    rw [if_pos rfl, hw.occupancy] at this
    rw [hend.cell, hv]
    exact this
  answers := by
    rw [hend.answers, hv]
    change u.answers = _
    rw [hu.answers, hw.answers, hw.nextTxn, hw.legTime]
  counter := by
    rw [hend.txnCounter, hv]
    change u.txnCounter = _
    rw [hu.counter, hw.nextTxn]
  sent := by
    rw [← hw.nextTxn]
    refine (hend.chose _).sent _ ?_
    rw [hv]
    exact hu.waits

theorem TargetTried.device {x : Channel} {c : CellIx} {h : Hid} {role : Role} {w u : State}
    (hu : TargetTried x c h role w u) : u.device = w.device := by
  rw [hu.only]

/-- An ACTIVE context whose target is admitted is PREPARING at the end of the event. -/
theorem preparing_end {x : Channel} {c : CellIx} {hid : Hid} {s w u b t : State} {k : Call} {l : Leg} {g : Option Time}
    (hu : TargetTried x c hid .rescue w u) (hw : TryFrom s w) (hk : w.call x = some k) (hp : k.phase = .active l g)
    (hend : EventEnd b (beginPreparing x ⟨c, .rescue, .rescue⟩ w.nextTxn u) t) :
    t.call x = some { k with phase := .preparing l g ⟨c, .rescue, .rescue⟩ s.nextTxn } ∧
      TargetOpened x c hid .rescue s t ∧ t.device = w.device := by
  refine ⟨?_, hu.opened hw rfl hend, hend.device.trans hu.device⟩
  rw [State.call_congr hend.calls, ← hw.nextTxn]
  unfold beginPreparing
  rw [State.call_modCall, if_pos rfl, State.call_congr hu.only.calls, hk, Option.map_some, hp]

/-- A RESCUING context whose target is admitted has its attempt at the end of the event. -/
theorem attempt_end {x : Channel} {c : CellIx} {hid : Hid} {s w u b t : State} {k : Call} {d : Time}
    (hu : TargetTried x c hid .rescue w u) (hw : TryFrom s w) (hk : w.call x = some k) (hp : k.phase = .rescuing none d)
    (hend : EventEnd b (beginAttempt x c w.nextTxn u) t) :
    t.call x = some { k with phase := .rescuing (some (⟨c, .rescue, .rescue⟩, s.nextTxn)) d } ∧
      TargetOpened x c hid .rescue s t ∧ t.device = w.device := by
  refine ⟨?_, hu.opened hw rfl hend, hend.device.trans hu.device⟩
  rw [State.call_congr hend.calls, ← hw.nextTxn]
  exact beginAttempt_call ((State.call_congr hu.only.calls x).trans hk) hp

/-! ### Targets that take the handset after a refusal -/

theorem HandedBack.takes {s u : State} (h : HandedBack s u) {e : Enrolled} {a : Attachment} {c : CellIx}
    (ht : TargetTakes s e a c) : TargetTakes u e a c := by
  obtain ⟨hcheck, hroom, hans, hq⟩ := ht
  refine ⟨(h.setting.checkStored e a c .handover).trans hcheck, ?_, ?_, ?_⟩
  · rwa [h.occupancy, h.setting.capacity]
  · rwa [h.only]
  · rw [h.only]
    exact hq

theorem HandedBack.calls {s u : State} (h : HandedBack s u) : u.calls = s.calls := by rw [h.only]

theorem HandedBack.record {s u : State} (h : HandedBack s u) (i : RecIx) : u.record i = s.record i := by
  rw [h.only]
  rfl

theorem HandedBack.device {s u : State} (h : HandedBack s u) : u.device = s.device := by rw [h.only]

/-! ### The judgement of a RESCUE request (R118, R122) -/

theorem judgeRequest_active {r : Request} {s : State} {k : Call} {l : Leg} {g : Option Time} (hr : r.kind = .rescue)
    (hk : s.call r.channel = some k) (hp : k.phase = .active l g) : judgeRequest r s =
      preemptiveRescue r.channel k.handset r.target
        (r.target :: (rescueOrder k.candidates.length k.candidates).filter fun c => !decide (c = r.target)) s := by
  unfold judgeRequest
  rw [hk]
  dsimp only
  rw [hp, hr]

theorem judgeRequest_rescuing {r : Request} {s : State} {k : Call} {d : Time} (hr : r.kind = .rescue)
    (hk : s.call r.channel = some k) (hp : k.phase = .rescuing none d) :
    judgeRequest r s = rescueTry (1023 + 1) r.channel r.target s := by
  unfold judgeRequest
  rw [hk]
  dsimp only
  rw [hp, hr]

/-- A RESCUE request judged on a context that it finds ACTIVE, or RESCUING without a target, leaves none waiting for room
where no other one waits. -/
theorem judgeRequest_rescue_served {r : Request} {s : State} {k : Call} (hr : r.kind = .rescue)
    (hk : s.call r.channel = some k) (hp : (∃ l g, k.phase = .active l g) ∨ ∃ d, k.phase = .rescuing none d)
    (ho : s.OthersServed r.channel) : (judgeRequest r s).NobodyWaits := by
  rcases hp with ⟨l, g, hp⟩ | ⟨d, hp⟩
  · refine judgeRequest_served (ho.nobody fun j hj => ?_) r
    obtain rfl : k = j := Option.some.inj (hk.symm.trans hj)
    unfold Call.waitsForRoom
    rw [hp]
  · rw [judgeRequest_rescuing hr hk hp]
    exact rescueTry_served _ _ _ ho

section
variable {r : Request} {s : State} {k : Call} {e : Enrolled} {a : Attachment} {code : HoCode} {b : Candidate}
  (hr : r.kind = .rescue) (hk : s.call r.channel = some k) (he : (s.record k.handset).enrolled = some e)
  (ha : e.loc.attachment = some a)
include hr hk he ha

/-- The target of an ACTIVE context takes the leg. -/
theorem active_taken {l : Leg} {g : Option Time} (hp : k.phase = .active l g) (ht : TargetTakes s e a r.target) :
    ∃ u, TargetTried r.channel r.target e.hid .rescue s u ∧
      judgeRequest r s = beginPreparing r.channel ⟨r.target, .rescue, .rescue⟩ s.nextTxn u := by
  rw [judgeRequest_active hr hk hp]
  exact preemptiveRescue_admitted he ha ht _ _

/-- The target of an ACTIVE context refuses, and the best candidate left takes the leg. -/
theorem active_next {l : Leg} {g : Option Time} (hp : k.phase = .active l g) (hf : RescueRefused s e a r.target code)
    (hb : bestCandidate (without r.target k.candidates) = some b) (ht : TargetTakes s e a b.cell) :
    ∃ w u, HandedBack s w ∧ TargetTried r.channel b.cell e.hid .rescue (countRefusal code w) u ∧
      judgeRequest r s = beginPreparing r.channel ⟨b.cell, .rescue, .rescue⟩ (countRefusal code w).nextTxn u := by
  obtain ⟨w, hw, hnext⟩ := preemptiveRescue_refused (x := r.channel) he ha hf
  obtain ⟨rest, horder⟩ := rescueOrder_next le_rfl hb
  obtain ⟨u, hu, htaken⟩ := preemptiveRescue_admitted (x := r.channel) (s := countRefusal code w)
    (by rw [← he]; exact congrArg Record.enrolled (hw.record k.handset)) ha (hw.takes ht) r.target rest
  refine ⟨w, u, hw, hu, ?_⟩
  rw [judgeRequest_active hr hk hp, horder, hnext, htaken]

/-- The target of an ACTIVE context refuses, and no candidate is left. -/
theorem active_exhausted {l : Leg} {g : Option Time} (hp : k.phase = .active l g)
    (hf : RescueRefused s e a r.target code) (hb : without r.target k.candidates = []) :
    ∃ w, HandedBack s w ∧ judgeRequest r s = refuseRequest r.channel r.target (countRefusal code w) := by
  obtain ⟨w, hw, hnext⟩ := preemptiveRescue_refused (x := r.channel) he ha hf
  refine ⟨w, hw, ?_⟩
  rw [judgeRequest_active hr hk hp, rescueOrder_done hb, hnext]
  rfl

/-- The target of a RESCUING context takes the leg. -/
theorem rescuing_taken {d : Time} (hp : k.phase = .rescuing none d) (ht : TargetTakes s e a r.target) :
    ∃ u, TargetTried r.channel r.target e.hid .rescue s u ∧
      judgeRequest r s = beginAttempt r.channel r.target s.nextTxn u := by
  rw [judgeRequest_rescuing hr hk hp]
  obtain ⟨u, htry, hu⟩ := rescueTry_admitted 1023 hk he ha ht
  exact ⟨u, hu, htry⟩

/-- The target of a RESCUING context refuses: it is counted and leaves the candidate list before the rescue passes on. -/
theorem rescuing_refused {d : Time} (hp : k.phase = .rescuing none d) (hf : RescueRefused s e a r.target code) :
    ∃ w v, HandedBack s w ∧ v = { countRefusal code w with calls := v.calls } ∧
      v.call r.channel = some { k with candidates := without r.target k.candidates } ∧
      judgeRequest r s = passOn (rescueTry (1022 + 1)) r.channel v := by
  obtain ⟨w, hw, hnext⟩ := rescueTry_refused hk he ha hf
  refine ⟨w, _, hw, rfl, ?_, (judgeRequest_rescuing hr hk hp).trans (hnext 1023)⟩
  rw [dropCandidate_call, if_pos rfl]
  change (w.call r.channel).map _ = _
  rw [State.call_congr hw.calls, hk, Option.map_some, filter_without]

end

/-! ### The take of the one request that waits (R117) -/

theorem takeOne_alone {s : State} {r : Request} (h : s.hrq.urgent ++ s.hrq.normal = [r]) :
    takeOne s = judgeRequest r (setPosted r.channel false { s with hrq := ⟨[], []⟩ }) := by
  have hnext : s.hrq.next = some (r, ⟨[], []⟩) := by
    unfold Hrq.next
    rcases List.append_eq_singleton_iff.1 h with ⟨hu, hn⟩ | ⟨hu, hn⟩
    · rw [hu, hn]
    · rw [hu, hn]
  unfold takeOne
  rw [hnext]

/-- A take after which no request waits, nor a context for room, ends at its own end. -/
theorem take_end {s : State} (hx : s.inExecution < 16) (h0 : (takeOne s).hrq.total = 0) (hn : (takeOne s).NobodyWaits) :
    exec .hrqTake s = .next (finish s (takeOne s)) ∧ EventEnd s (takeOne s) (finish s (takeOne s)) ∧
      (finish s (takeOne s)).hrq = ⟨[], []⟩ := by
  obtain ⟨hev, hend⟩ := event_end_nobody (f := takeIfRoom) (s := s) (if_pos hx) hn h0
  rw [hev] at hend
  exact ⟨congrArg Host.Outcome.next hev, hend, hend.hrq.trans (Hrq.total_zero h0)⟩

/-- The state in which the one request that waits is judged: its flag is cleared, and the queue is empty. -/
def judgedIn (r : Request) (s : State) : State := setPosted r.channel false { s with hrq := ⟨[], []⟩ }

theorem judgedIn_call {r : Request} {s : State} {k : Call} (hk : s.call r.channel = some k) :
    (judgedIn r s).call r.channel = some { k with posted := false } := by
  unfold judgedIn setPosted
  rw [State.call_modCall, if_pos rfl]
  exact congrArg (Option.map _) hk

theorem judgedIn_tryFrom (r : Request) (s : State) : TryFrom s (judgedIn r s) := ⟨rfl, rfl, rfl, fun _ => rfl⟩

/-- The take of a RESCUE request that waits alone, of a context ACTIVE or RESCUING without a target. -/
theorem runs_rescueTake {s : State} {r : Request} {k : Call} (h : s.hrq.urgent ++ s.hrq.normal = [r])
    (hx : s.inExecution < 16) (hw : ∀ y j, s.call y = some j → j.waitsForRoom = false) (hk : s.call r.channel = some k)
    (hr : r.kind = .rescue) (hp : (∃ l g, k.phase = .active l g) ∨ ∃ d, k.phase = .rescuing none d) :
    Runs .hrqTake s fun t => EventEnd s (judgeRequest r (judgedIn r s)) t ∧ t.hrq = ⟨[], []⟩ := by
  have htake : takeOne s = judgeRequest r (judgedIn r s) := takeOne_alone h
  have hserved : (judgeRequest r (judgedIn r s)).NobodyWaits := by
    refine judgeRequest_rescue_served hr (judgedIn_call hk) hp fun y j hy hj => hw y j ?_
    rw [← hj]
    exact (modCall_others r.channel _ { s with hrq := ⟨[], []⟩ } y hy).symm
  have hzero : (judgeRequest r (judgedIn r s)).hrq.total = 0 :=
    Nat.le_zero.1 (hrqTotal_takeRel.judgeRequest r (judgedIn r s))
  rw [← htake] at hserved hzero ⊢
  obtain ⟨hexec, hend, hempty⟩ := take_end hx hzero hserved
  exact ⟨_, hexec, hend, hempty⟩

/-! ### A drop in RESCUING without a target -/

theorem dropCall_refusals (x : Channel) (cause : DropCause) (lost : Bool) (s : State) :
    (dropCall x cause lost s).device.refusals = s.device.refusals := by
  cases hk : s.call x with
  | none => rw [dropCall_none hk]
  | some k =>
    rw [dropCall_eq hk, reply_eq]
    change (endCall x k lost cause.form _).device.refusals = _
    rw [(endCall_ended x k lost cause.form _).device]
    rfl

/-- The end of a call takes no number, and leaves the time and CONFIG. -/
theorem endCall_fixed (x : Channel) (k : Call) (lost : Bool) (form : ReleaseForm) (s : State) :
    (endCall x k lost form s).txnCounter = s.txnCounter ∧ (endCall x k lost form s).now = s.now ∧
      (endCall x k lost form s).config = s.config := by
  have hremove := hrqRemove_only x s
  have hlegs := (legsEnded_step x k lost (hrqRemove x s)).only
  have hrelease := (releaseHandset_step form k.handset (legsEnded x k lost (hrqRemove x s))).only
  rw [endCall_eq]
  generalize releaseHandset form k.handset (legsEnded x k lost (hrqRemove x s)) = w at hrelease ⊢
  generalize legsEnded x k lost (hrqRemove x s) = v at hlegs hrelease
  generalize hrqRemove x s = u at hremove hlegs
  rw [hrelease, hlegs, hremove]
  exact ⟨rfl, rfl, rfl⟩

theorem dropCall_fixed {x : Channel} {k : Call} {s : State} (hk : s.call x = some k) (cause : DropCause) (lost : Bool) :
    (dropCall x cause lost s).txnCounter = s.txnCounter ∧ (dropCall x cause lost s).now = s.now ∧
      (dropCall x cause lost s).config = s.config := by
  rw [dropCall_eq hk, reply_eq]
  exact endCall_fixed x k lost cause.form _

theorem dropCall_tryFrom {x : Channel} {k : Call} {s : State} {d : Time} (hk : s.call x = some k)
    (hp : k.phase = .rescuing none d) (cause : DropCause) : TryFrom s (dropCall x cause false s) := by
  obtain ⟨hcounter, hnow, hconfig⟩ := dropCall_fixed hk cause false
  refine ⟨dropCall_answers (fun j hj => ?_) _ _, hcounter, ?_, fun c => ?_⟩
  · obtain rfl : k = j := Option.some.inj (hk.symm.trans hj)
    rw [hp]
    rfl
  · unfold inMs
    rw [hnow, hconfig]
  · rw [dropCall_slots hk cause false c, hp]
    rfl

/-! ### The statement -/

theorem countRefusal_tryFrom {s w : State} (h : TryFrom s w) (code : HoCode) : TryFrom s (countRefusal code w) :=
  ⟨h.answers, h.counter, h.legTime, h.occupancy⟩

section
variable {s t : State} {r : Request} {k : Call} {e : Enrolled} {a : Attachment} {code : HoCode}
  (hr : r.kind = .rescue) (hk : s.call r.channel = some k) (he : (s.record k.handset).enrolled = some e)
  (ha : e.loc.attachment = some a) (hf : RescueRefused s e a r.target code)
  (hend : EventEnd s (judgeRequest r (judgedIn r s)) t)
include hr hk he ha hf hend

/-- An ACTIVE context whose targets all refuse stays ACTIVE under R121. -/
theorem active_stays {l : Leg} {g : Option Time} (hp : k.phase = .active l g)
    (hb : without r.target k.candidates = []) :
    t.call r.channel = some { fallenCall s k l r.target with posted := false } ∧ NothingOpened s t ∧
      t.device = { s.device with refusals := s.device.refusals.bump code } := by
  obtain ⟨w, hw, hj⟩ := active_exhausted (s := judgedIn r s) hr (judgedIn_call hk) he ha hp hf hb
  rw [hj] at hend
  have hfrom := (judgedIn_tryFrom r s).trans hw.tryFrom
  refine ⟨?_, hfrom.nothing hend.cells hend.answers hend.txnCounter, ?_⟩
  · rw [State.call_congr hend.calls]
    unfold refuseRequest
    rw [State.call_modCall, if_pos rfl]
    change (w.call r.channel).map _ = _
    rw [State.call_congr hw.calls, judgedIn_call hk, Option.map_some]
    dsimp only
    rw [hp, hw.only]
    rfl
  · rw [hend.device]
    change ({ w.device with refusals := w.device.refusals.bump code } : DeviceCounters) = _
    rw [hw.device]
    rfl

/-- A RESCUING call whose targets all refuse is dropped RESCUE_FAILED. -/
theorem rescuing_dropped {d : Time} (hp : k.phase = .rescuing none d) (hb : without r.target k.candidates = []) :
    t.call r.channel = none ∧ NothingOpened s t ∧ t.device.refusals = s.device.refusals.bump code ∧
      t.device.drops = s.device.drops.bump .rescueFailed ∧ HandsetReleased k.handset s t := by
  obtain ⟨w, v, hw, hv, hcall, hj⟩ := rescuing_refused (s := judgedIn r s) hr (judgedIn_call hk) he ha hp hf
  have hdrop : judgeRequest r (judgedIn r s) = dropCall r.channel .rescueFailed false v := by
    rw [hj]
    unfold passOn
    rw [hcall]
    dsimp only
    rw [hb]
    rfl
  rw [hdrop] at hend
  have hdropped := dropCall_dropped (cause := .rescueFailed) hcall rfl false
  have hset : SettingKept s v := by
    refine SettingKept.trans (t := w) ?_ ?_
    · exact SettingKept.trans (t := judgedIn r s) { SettingKept.refl s with } hw.setting
    · rw [hv]
      exact { SettingKept.refl w with }
  have hrecords : ∀ i, v.record i = s.record i := fun i => by
    rw [hv]
    exact hw.record i
  have hports : ∀ p, v.port p = s.port p := fun p => by
    rw [hv, hw.only]
    rfl
  have hdevice : v.device = { s.device with refusals := s.device.refusals.bump code } := by
    rw [hv]
    change ({ w.device with refusals := w.device.refusals.bump code } : DeviceCounters) = _
    rw [hw.device]
    rfl
  have hfrom : TryFrom s v := by
    rw [hv]
    exact ((judgedIn_tryFrom r s).trans hw.tryFrom).trans ⟨rfl, rfl, rfl, fun _ => rfl⟩
  refine ⟨?_, (hfrom.trans (dropCall_tryFrom hcall hp .rescueFailed)).nothing hend.cells hend.answers hend.txnCounter,
    ?_, ?_, ?_⟩
  · rw [State.call_congr hend.calls]
    exact hdropped.call
  · rw [hend.device, dropCall_refusals, hdevice]
  · rw [hend.device, hdropped.drops, hdevice]
  · exact hend.handsetReleased (dropCall_released (k := { k with
      posted := false, candidates := without r.target k.candidates }) hcall rfl false hset hrecords fun p => by
        rw [hports]
        exact Nat.le_succ _)

end

/-- Settles O43. -/
theorem rescueRequestTaken : Obligations.RescueRequestTaken := by
  intro s r k e a hs h hx hw hk _ hr he ha
  refine ⟨fun l g hp => ?_, fun d hp => ?_⟩
  · obtain ⟨t, ht, hend, hempty⟩ := runs_rescueTake h hx hw hk hr (.inl ⟨l, g, hp⟩)
    refine ⟨fun htakes => ⟨t, ht, ?_⟩, fun code hf => ⟨fun b hb htakes => ⟨t, ht, ?_⟩, fun hb => ⟨t, ht, ?_⟩⟩⟩
    · obtain ⟨u, hu, hj⟩ := active_taken (s := judgedIn r s) hr (judgedIn_call hk) he ha hp htakes
      rw [hj] at hend
      obtain ⟨hcall, hopened, hdev⟩ := preparing_end hu (judgedIn_tryFrom r s) (judgedIn_call hk) hp hend
      exact ⟨hcall, hempty, hopened, hdev⟩
    · obtain ⟨w, u, hback, hu, hj⟩ := active_next (s := judgedIn r s) hr (judgedIn_call hk) he ha hp hf hb htakes
      rw [hj] at hend
      obtain ⟨hcall, hopened, hdev⟩ := preparing_end hu
        (countRefusal_tryFrom ((judgedIn_tryFrom r s).trans hback.tryFrom) code)
        ((State.call_congr hback.calls r.channel).trans (judgedIn_call hk)) hp hend
      refine ⟨hcall, hempty, hopened, hdev.trans ?_⟩
      change ({ w.device with refusals := w.device.refusals.bump code } : DeviceCounters) = _
      rw [hback.device]
      rfl
    · obtain ⟨hcall, hnothing, hdev⟩ := active_stays hr hk he ha hf hend hp hb
      exact ⟨hcall, hempty, hnothing, hdev⟩
  · obtain ⟨t, ht, hend, hempty⟩ := runs_rescueTake h hx hw hk hr (.inr ⟨d, hp⟩)
    refine ⟨fun htakes => ⟨t, ht, ?_⟩, fun code hf => ⟨fun b hb htakes => ⟨t, ht, ?_⟩, fun hb => ⟨t, ht, ?_⟩⟩⟩
    · obtain ⟨u, hu, hj⟩ := rescuing_taken (s := judgedIn r s) hr (judgedIn_call hk) he ha hp htakes
      rw [hj] at hend
      obtain ⟨hcall, hopened, hdev⟩ := attempt_end hu (judgedIn_tryFrom r s) (judgedIn_call hk) hp hend
      exact ⟨hcall, hempty, hopened, hdev⟩
    · obtain ⟨w, v, hback, hv, hcall, hj⟩ := rescuing_refused (s := judgedIn r s) hr (judgedIn_call hk) he ha hp hf
      have hfrom : TryFrom s v := by
        rw [hv]
        exact (countRefusal_tryFrom ((judgedIn_tryFrom r s).trans hback.tryFrom) code).trans ⟨rfl, rfl, rfl, fun _ => rfl⟩
      have htakes' : TargetTakes v e a b.cell := by
        rw [hv]
        exact hback.takes htakes
      obtain ⟨u, htry, hu⟩ := rescueTry_admitted 1022 hcall
        (by rw [← he, hv]; exact congrArg Record.enrolled (hback.record k.handset)) ha htakes'
      rw [hj, passOn_best hcall hb, htry] at hend
      obtain ⟨hcall', hopened, hdev⟩ := attempt_end hu hfrom hcall hp hend
      refine ⟨hcall', hempty, hopened, hdev.trans ?_⟩
      rw [hv]
      change ({ w.device with refusals := w.device.refusals.bump code } : DeviceCounters) = _
      rw [hback.device]
      rfl
    · obtain ⟨hcall, hnothing, hrest⟩ := rescuing_dropped hr hk he ha hf hend hp hb
      exact ⟨hcall, hempty, hnothing, hrest⟩

end Sys2Proof.Machine
end

section
/-! PROOFS. The loss of a serving leg (R93, R94, R127), by the phase of its call. -/

namespace Sys2Proof.Machine

/-! ### The loss of the serving leg in each phase (R94) -/

theorem releaseSlot_now (c : CellIx) (s : State) : (releaseSlot c s).now = s.now := by
  rw [(releaseSlot_step c s).only]

theorem releaseSlot_config (c : CellIx) (s : State) : (releaseSlot c s).config = s.config := by
  rw [(releaseSlot_step c s).only]

theorem rescueDeadline_released (c : CellIx) (s : State) :
    rescueDeadline (releaseSlot c s) = inMs s.config.rescueLimit s := by
  unfold rescueDeadline State.after inMs
  rw [releaseSlot_now, releaseSlot_config]

theorem postRescue_best {x : Channel} {s : State} {k : Call} {b : Candidate} (hk : s.call x = some k)
    (hb : bestCandidate k.candidates = some b) : postRescue x s = hrqPost ⟨x, b.cell, .rescue, s.now⟩ s := by
  unfold postRescue
  rw [hk]
  dsimp only
  rw [hb]

/-- The call that has lost its serving leg and waits for a rescue (R94). -/
def rescuedCall (s : State) (k : Call) : Call := { k with phase := .rescuing none (inMs s.config.rescueLimit s) }

section
variable {x : Channel} {cause : DropCause} {s : State} {k : Call} {l : Leg} {g : Option Time}

theorem servingLegLoss_dropped (hk : s.call x = some k) (hp : k.phase = .active l g) (hc : k.candidates = []) :
    servingLegLoss x cause s = dropCall x cause true (releaseSlot l.cell s) := by
  unfold servingLegLoss
  rw [hk]
  dsimp only
  rw [hp]
  dsimp only
  rw [hc]
  rfl

theorem servingLegLoss_posted {b : Candidate} (hk : s.call x = some k) (hp : k.phase = .active l g)
    (hb : bestCandidate k.candidates = some b) : servingLegLoss x cause s =
      hrqPost ⟨x, b.cell, .rescue, s.now⟩ ((releaseSlot l.cell s).setCall x (some (rescuedCall s k))) := by
  have hne : k.candidates.isEmpty = false := by
    cases hc : k.candidates with
    | nil =>
      rw [hc] at hb
      cases hb
    | cons d ds => rfl
  unfold servingLegLoss
  rw [hk]
  dsimp only
  rw [hp]
  dsimp only
  rw [hne, if_neg nofun, rescueDeadline_released]
  refine (postRescue_best (k := rescuedCall s k) (State.call_setCall_self _ _ _) hb).trans ?_
  change hrqPost ⟨x, b.cell, .rescue, (releaseSlot l.cell s).now⟩ _ = _
  rw [releaseSlot_now]

theorem servingLegLoss_preparing {r : Target} {n : Txn} (hk : s.call x = some k) (hp : k.phase = .preparing l g r n) :
    servingLegLoss x cause s = (releaseSlot l.cell s).setCall x (some { k with
      phase := .rescuing (some ({ r with role := .rescue }, n)) (inMs s.config.rescueLimit s) }) := by
  unfold servingLegLoss
  rw [hk]
  dsimp only
  rw [hp]
  dsimp only
  rw [rescueDeadline_released]

theorem servingLegLoss_bridging {r : Target} {sl : Slot} {d : Time} (hk : s.call x = some k)
    (hp : k.phase = .bridging l g r sl d) :
    servingLegLoss x cause s = commit x k none r sl false (releaseSlot l.cell s) := by
  unfold servingLegLoss
  rw [hk]
  dsimp only
  rw [hp]

end

/-! ### A commit whose old leg is lost (R130, R131) -/

theorem committedCall_released (c : CellIx) (s : State) (k : Call) (r : CellIx) (sl : Slot) :
    committedCall (releaseSlot c s) k r sl = committedCall s k r sl := by
  unfold committedCall inMs lastQuality
  rw [releaseSlot_now, releaseSlot_config, (releaseSlot_step c s).record]

/-- What a commit after the loss of the old leg leaves. -/
structure CommittedAlone (x : Channel) (k : Call) (r : Target) (sl : Slot) (s t : State) : Prop where
  call : t.call x = some (committedCall s k r.cell sl)
  others : ∀ y, y ≠ x → t.call y = s.call y
  cells : t.cells = s.cells
  closes : ∀ p, (t.port p).closes = (s.port p).closes
  device : t.device = { s.device with committed := s.device.committed.bump r.kind }
  hrq : t.hrq = s.hrq

theorem withdrawHo_closes (x : Channel) (s : State) (p : PortIx) : ((withdrawHo x s).port p).closes = (s.port p).closes := by
  have hfold : ∀ (l : List PortIx) (u : State), ((l.foldl (withdrawHoAt x) u).port p).closes = (u.port p).closes := fun l => by
    induction l with
    | nil => exact fun _ => rfl
    | cons q l ih =>
      intro u
      refine (ih _).trans ?_
      unfold withdrawHoAt
      rw [State.port_setPort]
      split
      · next h => rw [h]
      · rfl
  exact hfold _ s

theorem withdrawHo_cells (x : Channel) (s : State) : (withdrawHo x s).cells = s.cells := by
  have hfold : ∀ (l : List PortIx) (u : State), (l.foldl (withdrawHoAt x) u).cells = u.cells := fun l => by
    induction l with
    | nil => exact fun _ => rfl
    | cons q l ih => exact fun u => ih _
  exact hfold _ s

theorem commit_alone (x : Channel) (k : Call) (r : Target) (sl : Slot) (s : State) :
    CommittedAlone x k r sl s (commit x k none r sl false s) := by
  rw [commit_eq]
  have hmove := moveHandset_only k.handset r.cell (s.setCall x (some (committedCall s k r.cell sl)))
  unfold RegistryOnly at hmove
  generalize moveHandset k.handset r.cell (s.setCall x (some (committedCall s k r.cell sl))) = v at hmove ⊢
  have hstep := withdrawHo_step x v
  have hcloses := withdrawHo_closes x v
  have hcells := withdrawHo_cells x v
  generalize withdrawHo x v = w at hstep hcloses hcells ⊢
  have hcall : ∀ y, w.call y = (s.setCall x (some (committedCall s k r.cell sl))).call y := fun y => by
    rw [hstep.call, hmove]
    rfl
  refine ⟨(hcall x).trans (State.call_setCall_self _ _ _), fun y hy => (hcall y).trans (State.call_setCall_ne _ hy _), ?_,
    fun p => ?_, ?_, ?_⟩
  · change w.cells = _
    rw [hcells, hmove]
    rfl
  · change (w.port p).closes = _
    rw [hcloses, hmove]
    rfl
  · change ({ w.device with committed := w.device.committed.bump r.kind } : DeviceCounters) = _
    rw [hstep.device, hmove]
    rfl
  · change w.hrq = _
    rw [hstep.hrq, hmove]
    rfl

theorem releaseSlot_closes (c : CellIx) (s : State) (p : PortIx) : ((releaseSlot c s).port p).closes = (s.port p).closes := by
  unfold releaseSlot endDrainIfEmpty
  dsimp only
  split
  · rfl
  · rfl
  · split
    · unfold enterFollowOn
      dsimp only
      split
      · rfl
      · exact offerQuietly_closes _ _ p
    · rfl
  · rfl

theorem EventEnd.closes {s u t : State} (h : EventEnd s u t) (p : PortIx) {q : CellIx × Channel}
    (hq : q ∈ (t.port p).closes) : q ∈ (u.port p).closes := (h.chose p).drain.closes.subset hq

end Sys2Proof.Machine
end

section
/-! PROOFS. A LEG-LOST (R93, R94, R127): the loss of an initial open, of a serving leg in each phase, and of a target leg. -/

namespace Sys2Proof.Machine

/-! ### The LEG-LOST as received -/

theorem exec_legLost {c : CellIx} {x : Channel} {ch cause : Byte} {s : State} (h : Heard c s) (hx : ch.toNat = x.val) :
    exec (.legLost c ch cause) s = .next (event (fun u => legLostAt c x cause (counted c u)) s) := by
  refine congrArg Host.Outcome.next (event_congr ?_)
  unfold rxLegLost
  rw [byteIn_eq hx]
  exact rxCell_heard h (by decide) _

/-- The state in which a loss that is taken has its effect: the frame is counted, and the loss recorded (R93). -/
def lossRecorded (c : CellIx) (x : Channel) (cause : Byte) (s : State) : State := recordLoss x cause (counted c s)

section
variable {c : CellIx} {x : Channel} {cause : Byte} {s : State} {k : Call}

theorem lossRecorded_call (hk : s.call x = some k) :
    (lossRecorded c x cause s).call x = some { k with lossCause := some cause } :=
  recordLoss_call (s := counted c s) hk cause

theorem lossRecorded_keeps (c : CellIx) (x : Channel) (cause : Byte) (s : State) :
    Keeps s (lossRecorded c x cause s) ∧ SettingKept s (lossRecorded c x cause s) := by
  have h := (countReceived_moves (P := fun _ => False) (linkOf (portOf c)) s).trans (recordLoss_moves x cause (counted c s))
  exact ⟨h.keeps, h.raws.setting⟩

/-- A loss that is recorded changes no phase. -/
theorem lossRecorded_phases (c : CellIx) (x : Channel) (cause : Byte) (s : State) :
    PhasesKept s (lossRecorded c x cause s) := by
  cases hk : s.call x with
  | none =>
    refine PhasesKept.trans (t := counted c s) (.of_calls rfl) fun y => ?_
    change ((counted c s).modCall x _ |>.call y).map _ = _
    rw [State.call_modCall]
    split
    · next hy => rw [hy, show (counted c s).call x = none from hk]; rfl
    · rfl
  | some k =>
    refine PhasesKept.trans (t := counted c s) (.of_calls rfl) fun y => ?_
    change ((counted c s).modCall x _ |>.call y).map _ = _
    rw [State.call_modCall]
    split
    · next hy => rw [hy, show (counted c s).call x = some k from hk]; rfl
    · rfl

theorem legLostAt_unheld (h : ∀ k, s.call x = some k → (∀ l, k.phase.serving = some l → l.cell ≠ c) ∧
    (∀ d n, k.phase = .opening d n → d ≠ c) ∧ ∀ l g r sl d, k.phase = .bridging l g r sl d → r.cell ≠ c) :
    legLostAt c x cause s = s := by
  unfold legLostAt
  cases hk : s.call x with
  | none => rfl
  | some k =>
    obtain ⟨hserving, hopening, htarget⟩ := h k hk
    dsimp only
    split
    · next hp => exact if_neg (hopening _ _ hp)
    · next hp => exact if_neg (hserving _ (by rw [hp]; rfl))
    · next hp => exact if_neg (hserving _ (by rw [hp]; rfl))
    · next hp =>
      rw [if_neg (hserving _ (by rw [hp]; rfl))]
      exact if_neg (htarget _ _ _ _ _ hp)
    · rfl

theorem legLostAt_opening {n : Txn} (hk : s.call x = some k) (hp : k.phase = .opening c n) : legLostAt c x cause s =
    failedOpen x { k with lossCause := some cause } c .legLost (cancelTxn n (recordLoss x cause s)) := by
  unfold legLostAt
  rw [hk]
  dsimp only
  rw [hp]
  exact if_pos rfl

theorem legLostAt_serving {l : Leg} (hk : s.call x = some k) (hl : k.phase.serving = some l) (hc : l.cell = c) :
    legLostAt c x cause s = servingLegLoss x .radioLost (recordLoss x cause s) := by
  unfold legLostAt
  rw [hk]
  dsimp only
  cases hp : k.phase with
  | opening d n =>
    rw [hp] at hl
    cases hl
  | active m g =>
    rw [hp] at hl
    cases hl
    exact if_pos hc
  | preparing m g r n =>
    rw [hp] at hl
    cases hl
    exact if_pos hc
  | bridging m g r sl d =>
    rw [hp] at hl
    cases hl
    exact if_pos hc
  | rescuing a d =>
    rw [hp] at hl
    cases hl

theorem legLostAt_target {l : Leg} {g : Option Time} {r : Target} {sl : Slot} {d : Time} (hk : s.call x = some k)
    (hp : k.phase = .bridging l g r sl d) (hl : l.cell ≠ c) (hr : r.cell = c) : legLostAt c x cause s =
      fallback x { k with lossCause := some cause } l r.cell .lost (recordLoss x cause s) := by
  unfold legLostAt
  rw [hk]
  dsimp only
  rw [hp]
  dsimp only
  rw [if_neg hl, if_pos hr]

end

/-! ### The loss in each phase -/

/-- A drop counts itself and what the reply queue could not take, and no more. -/
theorem dropCall_legsLost (x : Channel) (cause : DropCause) (lost : Bool) (s : State) :
    (dropCall x cause lost s).device.legsLost = s.device.legsLost := by
  cases hk : s.call x with
  | none => rw [dropCall_none hk]
  | some k =>
    rw [dropCall_eq hk, reply_eq]
    change (endCall x k lost cause.form _).device.legsLost = _
    rw [(endCall_ended x k lost cause.form _).device]
    rfl

section
variable {c : CellIx} {x : Channel} {ch cause : Byte} {s : State} {k : Call} (h : Heard c s) (hx : ch.toNat = x.val)
  (hk : s.call x = some k)
include h hx hk

/-- An initial open that is lost fails. -/
theorem lost_opening {n : Txn} (hp : k.phase = .opening c n) : Runs (.legLost c ch cause) s fun t =>
    t.call x = none ∧ HandsetReleased k.handset s t ∧
    EventEnd s (failedOpen x { k with lossCause := some cause } c .legLost
      (cancelTxn n (recordLoss x cause (counted c s)))) t := by
  have hf : legLostAt c x cause (counted c s) = _ := legLostAt_opening (s := counted c s) hk hp
  have hstep := cancelTxn_step n (lossRecorded c x cause s)
  have hcall := (hstep.call x).trans (lossRecorded_call (c := c) (cause := cause) hk)
  have hset : SettingKept s (cancelTxn n (lossRecorded c x cause s)) :=
    (lossRecorded_keeps c x cause s).2.trans (cancelTxn_moves (P := fun _ => False) n _).raws.setting
  have hin : s.inExecution ≤ (cancelTxn n (lossRecorded c x cause s)).inExecution := by
    have hle := State.inExecution_le_setCall (s := s) (x := x) (by rw [hk]; change k.phase.inExecution = false; rw [hp]; rfl)
      (some { k with lossCause := some cause })
    have hcalls : (cancelTxn n (lossRecorded c x cause s)).calls =
        (s.setCall x (some { k with lossCause := some cause })).calls := by
      rw [cancelTxn_calls]
      change ((counted c s).calls.set none x ((s.call x).map _)) = _
      rw [hk]
      rfl
    unfold State.inExecution at hle ⊢
    rwa [hcalls]
  have hend := (event_end (f := fun u => legLostAt c x cause (counted c u)) (s := s)
    (by
      rw [hf, failedOpen_hrq]
      exact hstep.hrq)
    (by
      rw [hf]
      refine hin.trans (failedOpen_inExecution ?_)
      rw [hcall]
      change k.phase.inExecution = false
      rw [hp]
      rfl)).2
  rw [hf] at hend
  refine ⟨_, exec_legLost h hx, ?_, hend.handsetReleased ?_, hend⟩
  · rw [State.call_congr hend.calls, failedOpen_call, if_pos rfl]
  · exact HandsetReleased.of_withdrawn hset (hstep.record k.handset) (fun p => (hstep.ports p).length)
      (failedOpen_handset x { k with lossCause := some cause } c .legLost (cancelTxn n (lossRecorded c x cause s)))

/-- An ACTIVE call without a candidate is dropped. -/
theorem lost_dropped {l : Leg} {g : Option Time} (hp : k.phase = .active l g) (hl : l.cell = c) (hn : k.candidates = [])
    (h0 : s.hrq.total = 0) : Runs (.legLost c ch cause) s fun t =>
      t.call x = none ∧ (t.cell c).occupancy = (s.cell c).occupancy - 1 ∧
      t.device.legsLost = s.device.legsLost.bump ∧ t.device.drops = s.device.drops.bump .radioLost ∧
      HandsetReleased k.handset s t := by
  have hrec := lossRecorded_call (c := c) (cause := cause) hk
  have hf : legLostAt c x cause (counted c s) =
      dropCall x .radioLost true (releaseSlot l.cell (lossRecorded c x cause s)) :=
    (legLostAt_serving (s := counted c s) hk (by rw [hp]; rfl) hl).trans (servingLegLoss_dropped hrec hp hn)
  have hstep := releaseSlot_step l.cell (lossRecorded c x cause s)
  have hcall := (hstep.call x).trans hrec
  have hset : SettingKept s (releaseSlot l.cell (lossRecorded c x cause s)) :=
    (lossRecorded_keeps c x cause s).2.trans (releaseSlot_moves (P := fun _ => False) l.cell _).raws.setting
  have hdropped := dropCall_dropped (cause := .radioLost) hcall rfl true
  have hslots := (hstep.slots c).trans (congrArg _ (by rw [hl, List.count_singleton_self]))
  have hdrop := dropCall_slots hcall .radioLost true c
  dsimp only at hdrop
  rw [hp] at hdrop
  have hend := (event_end_empty (f := fun u => legLostAt c x cause (counted c u)) h0
    (by
      rw [hf]
      refine Nat.le_zero.1 ((dropCall_total_le _ _ _ _).trans (le_of_eq ?_))
      rw [hstep.hrq]
      exact h0)).2
  rw [hf] at hend
  refine ⟨_, exec_legLost h hx, ?_, ?_, ?_, ?_, ?_⟩
  · rw [State.call_congr hend.calls, hdropped.call]
  · rw [hend.cell, hdrop]
    exact hslots
  · rw [hend.device, dropCall_legsLost, hstep.device]
    rfl
  · rw [hend.device, hdropped.drops, hstep.device]
    rfl
  · exact hend.handsetReleased (dropCall_released (k := { k with lossCause := some cause }) hcall rfl true hset
      hstep.record fun p => (hstep.ports p).length)

/-- A PREPARING call keeps its open as the rescue attempt. -/
theorem lost_preparing (hs : s.Inv) {l : Leg} {g : Option Time} {r : Target} {n : Txn}
    (hp : k.phase = .preparing l g r n) (hl : l.cell = c) : Runs (.legLost c ch cause) s
      (EventEnd s ((releaseSlot c (recordLoss x cause (counted c s))).setCall x (some { k with
        lossCause := some cause
        phase := .rescuing (some ({ r with role := .rescue }, n)) (inMs s.config.rescueLimit s) }))) := by
  have hf : legLostAt c x cause (counted c s) = (releaseSlot c (lossRecorded c x cause s)).setCall x (some { k with
      lossCause := some cause
      phase := .rescuing (some ({ r with role := .rescue }, n)) (inMs s.config.rescueLimit s) }) := by
    rw [legLostAt_serving (s := counted c s) hk (by rw [hp]; rfl) hl]
    refine (servingLegLoss_preparing (lossRecorded_call (c := c) (cause := cause) hk) hp).trans ?_
    rw [hl]
    rfl
  have hstep := releaseSlot_step c (lossRecorded c x cause s)
  refine ⟨_, exec_legLost h hx, ?_⟩
  have hend := event_end_running (f := fun u => legLostAt c x cause (counted c u)) hs
    (((countReceived_moves (P := fun _ => False) _ s).trans (legLostAt_moves c x cause _)).keeps.inv hs)
    (by rw [hf]; exact hstep.hrq) fun y hy => by
      rw [hf, State.call_setCall]
      split
      · rfl
      · rwa [hstep.call, (lossRecorded_phases c x cause s).inExecutionAt]
  rw [hf] at hend
  exact hend

/-- A bridge that loses its serving leg commits at once, with no close. -/
theorem lost_committed {l : Leg} {g : Option Time} {r : Target} {slot : Slot} {d : Time}
    (hp : k.phase = .bridging l g r slot d) (hl : l.cell = c) (h0 : s.hrq.total = 0) :
    Runs (.legLost c ch cause) s fun t =>
      t.call x = some { committedCall s k r.cell slot with lossCause := some cause } ∧
      (t.cell c).occupancy = (s.cell c).occupancy - 1 ∧
      (∀ y, (c, y) ∈ (t.port (portOf c)).closes → (c, y) ∈ (s.port (portOf c)).closes) ∧
      t.device = { s.device with
        legsLost := s.device.legsLost.bump, committed := s.device.committed.bump r.kind } := by
  have hf : legLostAt c x cause (counted c s) = commit x { k with lossCause := some cause } none r slot false
      (releaseSlot c (lossRecorded c x cause s)) := by
    rw [legLostAt_serving (s := counted c s) hk (by rw [hp]; rfl) hl]
    refine (servingLegLoss_bridging (lossRecorded_call (c := c) (cause := cause) hk) hp).trans ?_
    rw [hl]
  have hstep := releaseSlot_step c (lossRecorded c x cause s)
  have hcommit := commit_alone x { k with lossCause := some cause } r slot (releaseSlot c (lossRecorded c x cause s))
  have hend := (event_end_empty (f := fun u => legLostAt c x cause (counted c u)) h0
    (by rw [hf, hcommit.hrq, hstep.hrq]; exact h0)).2
  rw [hf] at hend
  refine ⟨_, exec_legLost h hx, ?_, ?_, fun y hy => ?_, ?_⟩
  · rw [State.call_congr hend.calls, hcommit.call, committedCall_released]
    rfl
  · have hslot := (hstep.slots.congr hcommit.cells) c
    rw [List.count_singleton_self] at hslot
    rw [hend.cell]
    exact hslot
  · have := hend.closes (portOf c) hy
    rw [hcommit.closes, releaseSlot_closes] at this
    exact this
  · rw [hend.device, hcommit.device, hstep.device]
    rfl

/-- A bridge that loses its target leg falls back, with no close. -/
theorem lost_fallen {l : Leg} {g : Option Time} {r : Target} {slot : Slot} {d : Time}
    (hp : k.phase = .bridging l g r slot d) (hl : l.cell ≠ c) (hr : r.cell = c) (h0 : s.hrq.total = 0) :
    Runs (.legLost c ch cause) s fun t =>
      t.call x = some { fallenCall s k l c with lossCause := some cause } ∧
      (t.cell c).occupancy = (s.cell c).occupancy - 1 ∧
      (∀ y, (c, y) ∈ (t.port (portOf c)).closes → (c, y) ∈ (s.port (portOf c)).closes) ∧
      t.device = { s.device with
        legsLost := s.device.legsLost.bump, fallbacks := s.device.fallbacks.bump } := by
  have hf : legLostAt c x cause (counted c s) =
      fallback x { k with lossCause := some cause } l c .lost (lossRecorded c x cause s) := by
    rw [legLostAt_target (s := counted c s) hk hp hl hr, hr]
    rfl
  have hfell := fallback_fellBack x { k with lossCause := some cause } l c .lost (lossRecorded c x cause s)
  have hend := (event_end_empty (f := fun u => legLostAt c x cause (counted c u)) h0
    (by rw [hf, hfell.hrq]; exact h0)).2
  rw [hf] at hend
  refine ⟨_, exec_legLost h hx, ?_, ?_, fun y hy => ?_, ?_⟩
  · rw [State.call_congr hend.calls, hfell.call]
    rfl
  · have hslot := hfell.slots c
    rw [List.count_singleton_self] at hslot
    rw [hend.cell]
    exact hslot
  · exact (hfell.closes.2 (portOf c) c y (hend.closes (portOf c) hy)).elim id fun hno => nomatch hno.2.1
  · rw [hend.device, hfell.device]
    rfl

end

/-! ### The RESCUE that a loss posts (R94, R117) -/

/-- The state in which an ACTIVE call that has lost its serving leg posts its RESCUE. -/
def rescuePosting (c : CellIx) (x : Channel) (cause : Byte) (k : Call) (s : State) : State :=
  (releaseSlot c (lossRecorded c x cause s)).setCall x (some { k with
    lossCause := some cause, phase := .rescuing none (inMs s.config.rescueLimit s) })

section
variable {c : CellIx} {x : Channel} {cause : Byte} {s : State} {k : Call} {l : Leg} {g : Option Time} {b : Candidate}

theorem legLostAt_posted (hk : s.call x = some k) (hp : k.phase = .active l g) (hl : l.cell = c)
    (hb : bestCandidate k.candidates = some b) : legLostAt c x cause (counted c s) =
      hrqPost ⟨x, b.cell, .rescue, s.now⟩ (rescuePosting c x cause k s) := by
  rw [legLostAt_serving (s := counted c s) hk (by rw [hp]; rfl) hl]
  refine (servingLegLoss_posted (lossRecorded_call (c := c) (cause := cause) hk) hp hb).trans ?_
  rw [hl]
  rfl

theorem rescuePosting_hrq : (rescuePosting c x cause k s).hrq = s.hrq := (releaseSlot_step c (lossRecorded c x cause s)).hrq

theorem rescuePosting_call (y : Channel) : (rescuePosting c x cause k s).call y =
    if y = x then some { k with lossCause := some cause, phase := .rescuing none (inMs s.config.rescueLimit s) }
    else (lossRecorded c x cause s).call y := by
  unfold rescuePosting
  rw [State.call_setCall, (releaseSlot_step c (lossRecorded c x cause s)).call]

theorem rescuePosting_wf (hs : s.Inv) : (rescuePosting c x cause k s).calls.wf none = true := by
  refine Table.wf_set _ _ _ _ ?_
  rw [releaseSlot_calls]
  exact ((lossRecorded_keeps c x cause s).1.inv hs).tables.calls

/-- As many contexts are in execution after the post as before the event. -/
theorem rescuePosting_inExecution (hs : s.Inv) (hk : s.call x = some k) (hp : k.phase = .active l g) (r : Request) :
    (hrqPost r (rescuePosting c x cause k s)).inExecution = s.inExecution := by
  have hwf := rescuePosting_wf (c := c) (x := x) (cause := cause) (k := k) hs
  have hpost := (hrqPost_phases r (rescuePosting c x cause k s)).inExecution hwf
    ((hrqPost_moves (P := fun _ => False) _ _).raws.calls_wf hwf)
  have hat : ∀ y, inExecutionAt ((rescuePosting c x cause k s).call y) = inExecutionAt (s.call y) := fun y => by
    rw [rescuePosting_call]
    split
    · next hy =>
      rw [hy, hk]
      change false = k.phase.inExecution
      rw [hp]
      rfl
    · exact (lossRecorded_phases c x cause s).inExecutionAt y
  exact hpost.trans (le_antisymm (State.inExecution_mono hwf hs.tables.calls fun y hy => by rwa [← hat])
    (State.inExecution_mono hs.tables.calls hwf fun y hy => by rwa [hat]))

end

/-- An event that posts the one request that waits, which is taken in the same event, and whose take leaves none. -/
theorem event_takes_one {f : State → State} {s u : State} {r : Request} (hf : f s = u) (h0 : s.hrq.total = 0)
    (hu : u.hrq.urgent ++ u.hrq.normal = [r]) (hx : u.inExecution < 16)
    (hw : ∀ w, EventEnd s u w → (judgeRequest r (judgedIn r w)).NobodyWaits) :
    ∃ w, EventEnd s u w ∧ EventEnd w (judgeRequest r (judgedIn r w)) (event f s) ∧ (event f s).hrq = ⟨[], []⟩ := by
  have hend := finish_end s u (by omega)
  have hserved := hw _ hend
  have hev : event f s = takes s (finish s u) := by
    unfold event
    rw [hf]
  generalize finish s u = w at hend hserved hev
  have htake : takeOne w = judgeRequest r (judgedIn r w) := takeOne_alone (by rw [hend.hrq]; exact hu)
  have hin : w.inExecution < 16 := by
    unfold State.inExecution at hx ⊢
    rwa [hend.calls]
  have hzero : (judgeRequest r (judgedIn r w)).hrq.total = 0 :=
    Nat.le_zero.1 (hrqTotal_takeRel.judgeRequest r (judgedIn r w))
  have hone : w.hrq.total = 1 := by
    rw [hend.hrq]
    unfold Hrq.total
    rw [← List.length_append, hu]
    rfl
  rw [← htake] at hserved hzero
  obtain ⟨-, hnext, hempty⟩ := take_end hin hzero hserved
  have hloop : takes s w = finish w (takeOne w) := by
    unfold takes
    rw [if_neg fun h => by
      have := congrArg Hrq.total h.1
      omega]
    unfold Config.takeFuel takeLoop
    rw [if_neg (not_or.2 ⟨by omega, not_le.2 hin⟩)]
    unfold takeLoop
    rw [if_pos (.inl (by rw [hempty]; rfl))]
  rw [hev, hloop]
  refine ⟨w, hend, ?_, hempty⟩
  rw [← htake]
  exact hnext

section
variable {c : CellIx} {x : Channel} {cause : Byte} {s w : State} {k : Call} {b : CellIx}

/-- The state that a loss leaves when its slot is released, where the cell is IN_SERVICE. -/
theorem released_inService (hs : (s.cell c).service = .inService) :
    releaseSlot c (lossRecorded c x cause s) = { lossRecorded c x cause s with
      cells := (releaseSlot c (lossRecorded c x cause s)).cells } := by
  rw [releaseSlot_inService (s := lossRecorded c x cause s) hs]
  rfl

section
variable (h0 : s.hrq.total = 0)
include h0

theorem rescuePosted : hrqPost ⟨x, b, .rescue, s.now⟩ (rescuePosting c x cause k s) =
    setPosted x true { rescuePosting c x cause k s with hrq := Hrq.append ⟨x, b, .rescue, s.now⟩ ⟨[], []⟩ } :=
  hrqPost_empty (s := rescuePosting c x cause k s) (rescuePosting_hrq.trans (Hrq.total_zero h0)) _

variable (hw : EventEnd s (hrqPost ⟨x, b, .rescue, s.now⟩ (rescuePosting c x cause k s)) w)
include hw

theorem rescuePosted_call : w.call x = some { k with
    lossCause := some cause, phase := .rescuing none (inMs s.config.rescueLimit s), posted := true } := by
  rw [State.call_congr hw.calls, rescuePosted h0]
  unfold setPosted
  rw [State.call_modCall, if_pos rfl]
  change ((rescuePosting c x cause k s).call x).map _ = _
  rw [rescuePosting_call, if_pos rfl]
  rfl

theorem rescuePosted_others {y : Channel} (hy : y ≠ x) : w.call y = s.call y := by
  rw [State.call_congr hw.calls, rescuePosted h0]
  unfold setPosted
  rw [modCall_others _ _ _ _ hy]
  change (rescuePosting c x cause k s).call y = _
  rw [rescuePosting_call, if_neg hy]
  exact modCall_others x _ (counted c s) y hy

end

end

section
variable {s u w p : State}

/-- A take that follows the post of its request starts from the slots, the answers and the time that the post left. -/
theorem judgedIn_from (hw : EventEnd s u w) (hu : u = { p with calls := u.calls, hrq := u.hrq }) (r : Request) :
    TryFrom p (judgedIn r w) where
  answers := hw.answers.trans (by rw [hu])
  counter := hw.txnCounter.trans (by rw [hu])
  legTime := by
    change w.now + BitVec.ofNat 32 w.config.legTime = _
    rw [hw.now, hw.config, hu]
    rfl
  occupancy := fun d => by
    change (w.cell d).occupancy = _
    rw [hw.cell, hu]
    rfl

theorem judgedIn_takes (hw : EventEnd s u w) (hu : u = { p with calls := u.calls, hrq := u.hrq }) (r : Request)
    (hp : ∀ q, p.port q = s.port q) {e : Enrolled} {a : Attachment} {c : CellIx} (ht : TargetTakes p e a c) :
    TargetTakes (judgedIn r w) e a c := by
  refine ht.congr (hw.cells.trans (by rw [hu])) (hw.zones.trans (by rw [hu])) (hw.gates.trans (by rw [hu]))
    (hw.answers.trans (by rw [hu])) ((hw.port_same ?_).trans (hp _).symm)
  rw [← hp, hu]
  rfl

end

section
variable {c b : CellIx} {x : Channel} {cause : Byte} {s p : State}
  (hp : p = { lossRecorded c x cause s with cells := p.cells }) (hslots : SlotsReleased [c] s p) (hb : b ≠ c)
include hp hslots hb

theorem released_takes (hset : SettingKept s p) {e : Enrolled} {a : Attachment} (ht : TargetTakes s e a b) :
    TargetTakes p e a b := by
  obtain ⟨hcheck, hroom, hans, hq⟩ := ht
  refine ⟨(hset.checkStored e a b .handover).trans hcheck, ?_, ?_, ?_⟩
  · rw [hslots b, hset.capacity, List.count_cons_of_ne (Ne.symm hb)]
    exact hroom
  · rw [hp]
    exact hans
  · rw [hp]
    exact hq

theorem released_opened {hid : Hid} {role : Role} {t : State} (h : TargetOpened x b hid role p t) :
    TargetOpened x b hid role s t := by
  have hocc := h.occupancy
  rw [hslots b, List.count_cons_of_ne (Ne.symm hb)] at hocc
  rw [hp] at h
  exact ⟨hocc, h.answers, h.counter, h.sent⟩

end

section
variable {c : CellIx} {x : Channel} {ch cause : Byte} {s : State} {k : Call} {l : Leg} {g : Option Time} {b : Candidate}
  (h : Heard c s) (hx : ch.toNat = x.val) (hs : s.Inv) (hk : s.call x = some k) (hp : k.phase = .active l g)
  (hl : l.cell = c) (hb : bestCandidate k.candidates = some b)
include h hx hs hk hp hl hb

/-- With 16 contexts in execution the RESCUE of a lost ACTIVE call waits. -/
theorem lost_waits (hfull : 16 ≤ s.inExecution) : Runs (.legLost c ch cause) s
    (EventEnd s (hrqPost ⟨x, b.cell, .rescue, s.now⟩ (rescuePosting c x cause k s))) := by
  refine ⟨_, exec_legLost h hx, event_end_full (legLostAt_posted hk hp hl hb) ?_ ?_⟩
  · have := hrqPost_total (s := rescuePosting c x cause k s) (by rw [rescuePosting_hrq]; exact hs.hrq)
      ⟨x, b.cell, .rescue, s.now⟩
    rwa [rescuePosting_hrq] at this
  · rwa [rescuePosting_inExecution hs hk hp]

/-- With room for its take, the RESCUE of a lost ACTIVE call is taken in the same event. -/
theorem lost_attempted (hservice : (s.cell c).service = .inService) (h0 : s.hrq.total = 0) (hroom : s.inExecution < 16)
    (hserved : ∀ y j, s.call y = some j → j.waitsForRoom = false) {e : Enrolled} {a : Attachment}
    (he : (s.record k.handset).enrolled = some e) (ha : e.loc.attachment = some a) (ht : TargetTakes s e a b.cell) :
    Runs (.legLost c ch cause) s fun t =>
      t.call x = some { k with
        lossCause := some cause, posted := false
        phase := .rescuing (some (⟨b.cell, .rescue, .rescue⟩, s.nextTxn)) (inMs s.config.rescueLimit s) } ∧
      t.hrq = ⟨[], []⟩ ∧ TargetOpened x b.cell e.hid .rescue s t ∧ (t.cell c).occupancy = (s.cell c).occupancy - 1 ∧
      t.device = { s.device with legsLost := s.device.legsLost.bump } := by
  have hne : b.cell ≠ c := fun hbc => (hs.contexts x k hk).list.other c (by rw [hp, ← hl]; rfl)
    (List.mem_map.2 ⟨b, bestCandidate_mem hb, hbc⟩)
  obtain ⟨w, hposted, hend, hempty⟩ := event_takes_one (f := fun u => legLostAt c x cause (counted c u))
    (legLostAt_posted hk hp hl hb) h0 (by rw [rescuePosted h0]; rfl)
    (by rw [rescuePosting_inExecution hs hk hp]; exact hroom) fun w hw =>
      judgeRequest_rescue_served rfl (judgedIn_call (rescuePosted_call h0 hw)) (.inr ⟨_, rfl⟩) fun y j hy hj =>
        hserved y j (by rw [← hj, ← rescuePosted_others h0 hw hy]; exact (modCall_others x _ _ y hy).symm)
  have honly := released_inService (x := x) (cause := cause) hservice
  have hslots : SlotsReleased [c] s _ := (releaseSlot_step c (lossRecorded c x cause s)).slots
  have hset : SettingKept s (releaseSlot c (lossRecorded c x cause s)) :=
    (lossRecorded_keeps c x cause s).2.trans (releaseSlot_moves (P := fun _ => False) c _).raws.setting
  have hu : hrqPost ⟨x, b.cell, .rescue, s.now⟩ (rescuePosting c x cause k s) = { releaseSlot c (lossRecorded c x cause s) with
      calls := (hrqPost ⟨x, b.cell, .rescue, s.now⟩ (rescuePosting c x cause k s)).calls
      hrq := (hrqPost ⟨x, b.cell, .rescue, s.now⟩ (rescuePosting c x cause k s)).hrq } := by
    rw [rescuePosted h0]
    rfl
  have henrolled : (w.record k.handset).enrolled = some e := by
    rw [hposted.enrolled, hu, ← he]
    exact congrArg Record.enrolled ((releaseSlot_step c (lossRecorded c x cause s)).record k.handset)
  have hcall := judgedIn_call (r := ⟨x, b.cell, .rescue, s.now⟩) (rescuePosted_call h0 hposted)
  have hfrom := judgedIn_from hposted hu ⟨x, b.cell, .rescue, s.now⟩
  have hdevice : w.device = { s.device with legsLost := s.device.legsLost.bump } := by
    rw [hposted.device, hu]
    exact (releaseSlot_step c (lossRecorded c x cause s)).device
  generalize releaseSlot c (lossRecorded c x cause s) = p at honly hslots hset hu hfrom
  have htakes := judgedIn_takes hposted hu ⟨x, b.cell, .rescue, s.now⟩ (fun q => by rw [honly]; rfl)
    (released_takes honly hslots hne hset ht)
  obtain ⟨u, htried, hj⟩ := rescuing_taken (s := judgedIn ⟨x, b.cell, .rescue, s.now⟩ w) rfl hcall henrolled ha rfl htakes
  rw [hj] at hend
  obtain ⟨hcall', hopened, hdev⟩ := attempt_end htried hfrom hcall rfl hend
  refine ⟨_, exec_legLost h hx, ?_, hempty, released_opened honly hslots hne hopened, ?_, hdev.trans hdevice⟩
  · rw [honly] at hcall'
    exact hcall'
  · have hocc := htried.cells c
    rw [if_neg (Ne.symm hne), hfrom.occupancy, hslots c, List.count_singleton_self] at hocc
    rw [hend.cell]
    exact hocc

end

/-- Settles O35. -/
theorem legLostJudged : Obligations.LegLostJudged := by
  intro c x ch cause s hs h hx
  refine ⟨fun hn => ?_, fun k hk => ⟨fun n hp => lost_opening h hx hk hp, fun l g hp hl hn h0 => lost_dropped h hx hk hp hl hn h0,
    fun l g r n hp hl => lost_preparing h hx hk hs hp hl, fun l g b hp hl hb hfull => ?_,
    fun l g r slot d hp hl h0 => lost_committed h hx hk hp hl h0,
    fun l g r slot d hp hl hr h0 => lost_fallen h hx hk hp hl hr h0,
    fun l g b e a hp hl hb hservice h0 hroom hserved he ha ht =>
      lost_attempted h hx hs hk hp hl hb hservice h0 hroom hserved he ha ht⟩⟩
  · refine (exec_legLost h hx).trans (congrArg Host.Outcome.next (event_eq_quiet ?_ (quiet_counted c s)))
    exact legLostAt_unheld (s := counted c s) hn
  · exact lost_waits h hx hs hk hp hl hb hfull

end Sys2Proof.Machine
end

section
/-! PROOFS. The chain of tries that passes a rescue on (R122, R133), evictions included (R150): a property that each of its
pieces keeps, it keeps. -/

namespace Sys2Proof.Machine

/-! ### The outcomes of an offer (R149) -/

theorem offer_outcome (f : CtlFrame) (s : State) :
    (offer f s = (.refusedFull, s) ∨ offer f s = (.refusedLinkDown, s)) ∨ ∃ v rest,
      (∀ g ∈ rest, g ∈ (s.port (portOf f.dest)).ctl) ∧ (∀ g, v = some g → g ∈ (s.port (portOf f.dest)).ctl) ∧
      offer f s = (.taken v, s.setPort (portOf f.dest) { s.port (portOf f.dest) with ctl := rest ++ [f] }) := by
  unfold offer
  dsimp only
  split
  · exact .inl (.inr rfl)
  · split
    · exact .inr ⟨none, _, fun _ => id, fun _ => nofun, rfl⟩
    · split
      · exact .inl (.inl rfl)
      · next v rest hv =>
        obtain ⟨hmem, -, hrest⟩ := victimOf_mem hv
        exact .inr ⟨some v, rest, hrest, fun g hg => Option.some.inj hg ▸ hmem, rfl⟩

/-! ### The two outcomes of a try (R119, R120) -/

theorem reserve_admits {c : CellIx} {n : Nat} {s u : State} (h : reserve c n s = .ok u) :
    (s.cell c).service = .inService ∧ (s.cell c).occupancy < n := by
  unfold reserve at h
  dsimp only at h
  split at h
  · next hs =>
    split at h
    · next hl => exact ⟨hs, hl⟩
    · cases h
  · cases h

/-- A try at cell `c` for channel `x` is admitted: the cell is IN_SERVICE, a number is free, and the queue of its port takes
the LEG-OPEN, with the victim `v`, and is left as in `w`. -/
structure Admits (x : Channel) (c : CellIx) (h : Hid) (role : Role) (s : State) (v : Option CtlFrame) (w : State) : Prop where
  service : (s.cell c).service = .inService
  number : s.answers.length < 64
  offered : offer (.legOpen c s.nextTxn x h role) (reserved c s) = (.taken v, w)

/-- A try is refused, with what it reserved handed back, or admitted. -/
theorem tryTarget_outcome (x : Channel) (i : RecIx) (c : CellIx) (role : Role) (b : Bool) (s : State) :
    (∃ u, HandedBack s u ∧ ((∃ code, tryTarget x i c role b s = .refused code u) ∨
      tryTarget x i c role b s = .queueRefused u)) ∨
    ∃ h v w, Admits x c h role s v w ∧
      tryTarget x i c role b s = .admitted s.nextTxn v (allocateTxn s.nextTxn x c w) := by
  unfold tryTarget
  split
  · exact .inl ⟨s, .refl s, .inl ⟨_, rfl⟩⟩
  · next e _ =>
    split
    · exact .inl ⟨s, .refl s, .inl ⟨_, rfl⟩⟩
    · split
      · exact .inl ⟨s, .refl s, .inl ⟨_, rfl⟩⟩
      · split
        · exact .inl ⟨s, .refl s, .inl ⟨_, rfl⟩⟩
        · split
          · exact .inl ⟨s, .refl s, .inl ⟨_, rfl⟩⟩
          · next hu =>
            obtain ⟨hs, hl⟩ := reserve_admits hu
            obtain rfl := reserve_reserved hu
            have hback := handedBack hs hl
            unfold offerTargetOpen
            split
            · next hn =>
              rcases offer_outcome (.legOpen c (reserved c s).nextTxn x e.hid role) (reserved c s) with
                (ho | ho) | ⟨v, rest, -, -, ho⟩
              · rw [ho]
                exact .inl ⟨_, hback, .inr rfl⟩
              · rw [ho]
                exact .inl ⟨_, hback, .inr rfl⟩
              · rw [ho]
                exact .inr ⟨e.hid, v, _, ⟨hs, of_decide_eq_true hn, ho⟩, rfl⟩
            · exact .inl ⟨_, hback, .inl ⟨_, rfl⟩⟩

/-- What an admitted try leaves of its queue: some of the entries, and its LEG-OPEN; its victim was an entry. -/
theorem Admits.queue {x : Channel} {c : CellIx} {h : Hid} {role : Role} {s w : State} {v : Option CtlFrame}
    (ha : Admits x c h role s v w) : ∃ rest, (∀ g ∈ rest, g ∈ (s.port (portOf c)).ctl) ∧
      (∀ g, v = some g → g ∈ (s.port (portOf c)).ctl) ∧
      w = (reserved c s).setPort (portOf c) { s.port (portOf c) with ctl := rest ++ [.legOpen c s.nextTxn x h role] } := by
  have ho := ha.offered
  rcases offer_outcome (.legOpen c s.nextTxn x h role) (reserved c s) with (hr | hr) | ⟨v', rest, hrest, hv, hr⟩
  · rw [hr] at ho
    cases ho
  · rw [hr] at ho
    cases ho
  · rw [hr] at ho
    cases ho
    exact ⟨rest, hrest, hv, rfl⟩

/-! ### The chain -/

theorem dropCandidate_noOpen {y : Channel} {d : CellIx} {s : State} (h : s.NoOpen y) : (dropCandidate y d s).NoOpen y :=
  fun k hk => by
    rw [dropCandidate_call, if_pos rfl] at hk
    obtain ⟨j, hj, rfl⟩ := Option.map_eq_some_iff.1 hk
    exact h j hj

/-- The state after an admitted rescue attempt, before its victim is settled. -/
def attempted (y : Channel) (d : CellIx) (s w : State) : State :=
  beginAttempt y d s.nextTxn (allocateTxn s.nextTxn y d w)

/-- A property that every piece of a chain of rescue tries keeps, where `T y d s` holds of the tries that are made, and
`Q n` of the transactions that are evicted. -/
structure ChainInv (P : State → Prop) (T : Channel → CellIx → State → Prop) (Q : Txn → Prop) : Prop where
  dropped : ∀ {s y} cause lost, P s → s.NoOpen y → P (dropCall y cause lost s)
  failed : ∀ {s y k d n} cause, P s → s.call y = some k → k.phase = .opening d n → P (failedOpen y k d cause s)
  fallen : ∀ {s y k l g r n}, P s → s.call y = some k → k.phase = .preparing l g r n → P (fallback y k l r.cell .gone s)
  ended : ∀ {s y k r n d}, P s → s.call y = some k → k.phase = .rescuing (some (r, n)) d → P (endAttempt y k r.cell d s)
  freed : ∀ {s a}, P s → Q a.txn → P (freeAnswer a s)
  best : ∀ {s y k b}, P s → s.call y = some k → bestCandidate k.candidates = some b → T y b.cell s
  refused : ∀ {s y d u} code, P s → HandedBack s u → P (dropCandidate y d (countRefusal code u))
  admitted : ∀ {s y k d h v w}, P s → s.call y = some k → s.NoOpen y → T y d s → Admits y d h .rescue s v w →
    P (attempted y d s w)
  victim : ∀ {s y d h v w}, P s → Admits y d h .rescue s v w → ∀ f n, v = some f → f.openTxn = some n → Q n

section
variable {P : State → Prop} {T : Channel → CellIx → State → Prop} {Q : Txn → Prop} (hc : ChainInv P T Q)
include hc

theorem ChainInv.deliverFail {f : Channel → State → State} (hf : ∀ {y u}, P u → u.NoOpen y → P (f y u)) {s : State}
    (h : P s) (y : Channel) (n : Txn) (cause : FailCause) : P (deliverFail f y n cause s) := by
  unfold Machine.deliverFail
  split
  · exact h
  · next k hk =>
    split
    · next hp =>
      split
      · exact hc.failed _ h hk hp
      · exact h
    · exact h
    · next hp =>
      split
      · exact hc.fallen h hk hp
      · exact h
    · exact h
    · exact h
    · next hp =>
      split
      · refine hf (hc.ended h hk hp) fun j hj => ?_
        rw [endAttempt_call, if_pos rfl] at hj
        cases hj
        rfl
      · exact h

theorem ChainInv.settleVictim {f : Channel → State → State} (hf : ∀ {y u}, P u → u.NoOpen y → P (f y u)) {s : State}
    (h : P s) {v : Option CtlFrame} (hv : ∀ g n, v = some g → g.openTxn = some n → Q n) : P (settleVictim f v s) := by
  unfold Machine.settleVictim
  split
  · exact h
  · next n hn =>
    split
    · exact h
    · next a ha =>
      obtain ⟨g, hg, hgn⟩ := Option.bind_eq_some_iff.1 hn
      have hq : Q a.txn := answerOf_txn ha ▸ hv g n hg hgn
      unfold resolveFail
      split
      · exact hc.freed h hq
      · exact hc.deliverFail hf (hc.freed h hq) _ _ _

theorem ChainInv.passOn {f : Channel → CellIx → State → State}
    (hf : ∀ {y d u}, P u → u.NoOpen y → (∀ k, u.call y = some k → T y d u) → P (f y d u)) {s : State} (h : P s)
    {y : Channel} (hn : s.NoOpen y) : P (passOn f y s) := by
  unfold Machine.passOn
  split
  · exact h
  · next k hk =>
    split
    · exact hc.dropped _ _ h hn
    · next b hb => exact hf h hn fun _ _ => hc.best h hk hb

theorem ChainInv.rescueTry (n : Nat) {y : Channel} {d : CellIx} {s : State} (h : P s) (hn : s.NoOpen y)
    (ht : ∀ k, s.call y = some k → T y d s) : P (rescueTry n y d s) := by
  induction n generalizing y d s with
  | zero => exact hc.dropped _ _ h hn
  | succ n ih =>
    have next : ∀ {z u}, P u → u.NoOpen z → P (Machine.passOn (Machine.rescueTry n) z u) :=
      fun hu hz => hc.passOn ih hu hz
    unfold Machine.rescueTry
    split
    · exact h
    · next k hk =>
      have refused : ∀ {code u}, HandedBack s u →
          P (Machine.passOn (Machine.rescueTry n) y (dropCandidate y d (countRefusal code u))) := fun {code u} hu =>
        next (hc.refused code h hu) (dropCandidate_noOpen fun j hj => hn j ((State.call_congr hu.calls y).symm.trans hj))
      rcases tryTarget_outcome y k.handset d .rescue false s with ⟨u, hu, ⟨code, htry⟩ | htry⟩ | ⟨hid, v, w, ha, htry⟩
      · rw [htry]
        exact refused hu
      · rw [htry]
        exact refused hu
      · rw [htry]
        exact hc.settleVictim next (hc.admitted h hk hn (ht k hk) ha) (hc.victim h ha)

/-- What every piece keeps, the chain keeps. -/
theorem ChainInv.nextCandidate {y : Channel} {s : State} (h : P s) (hn : s.NoOpen y) : P (nextCandidate y s) :=
  hc.passOn (hc.rescueTry _) h hn

end

end Sys2Proof.Machine
end

section
/-! PROOFS. A cell that is out of service is taken up by no context (R46, R60, R141): no take, no chain of rescue tries, and no
share of a cell loss gives a context a leg or an open there. -/

namespace Sys2Proof.Machine

/-! ### The cells that a context holds (R141) -/

/-- The cells of the initial open, the serving leg and the target of a phase. -/
def Phase.heldCells : Phase → List CellIx
  | .opening d _ => [d]
  | .active l _ => [l.cell]
  | .preparing l _ t _ => [l.cell, t.cell]
  | .bridging l _ t _ _ => [l.cell, t.cell]
  | .rescuing none _ => []
  | .rescuing (some (t, _)) _ => [t.cell]

theorem holdsChannel_iff {s : State} {c : CellIx} {x : Channel} :
    holdsChannel s c x = true ↔ ∃ k, s.call x = some k ∧ c ∈ k.phase.heldCells := by
  unfold holdsChannel
  cases hk : s.call x with
  | none => exact ⟨nofun, fun ⟨_, h, _⟩ => nomatch h⟩
  | some k =>
    refine Iff.trans ?_ ⟨fun h => ⟨k, rfl, h⟩, fun ⟨j, hj, h⟩ => by cases hj; exact h⟩
    dsimp only
    cases k.phase with
    | rescuing a d =>
      cases a with
      | none => exact ⟨nofun, nofun⟩
      | some a => simp [Phase.heldCells, eq_comm (a := c)]
    | _ => simp [Phase.heldCells, eq_comm (a := c)]

theorem Phase.serving_held {p : Phase} {l : Leg} (h : p.serving = some l) : l.cell ∈ p.heldCells := by
  cases p with
  | opening d n => cases h
  | rescuing a d => cases h
  | active m g =>
    cases h
    exact List.mem_cons_self
  | preparing m g r n =>
    cases h
    exact List.mem_cons_self
  | bridging m g r sl d =>
    cases h
    exact List.mem_cons_self

/-- Cell `c`, where it is not IN_SERVICE, is held by no context that did not hold it. -/
structure NotTaken (c : CellIx) (s t : State) : Prop where
  setting : SettingKept s t
  held : (s.cell c).service ≠ .inService → ∀ x k, t.call x = some k → c ∈ k.phase.heldCells →
    ∃ j, s.call x = some j ∧ c ∈ j.phase.heldCells

section
variable {c : CellIx} {s t u : State}

theorem NotTaken.refl (c : CellIx) (s : State) : NotTaken c s s := ⟨.refl s, fun _ _ k hk h => ⟨k, hk, h⟩⟩

theorem NotTaken.service (h : NotTaken c s t) (hs : (s.cell c).service ≠ .inService) : (t.cell c).service ≠ .inService :=
  mt (Service.follows_inService (h.setting.service c)).1 hs

theorem NotTaken.trans (h : NotTaken c s t) (k : NotTaken c t u) : NotTaken c s u where
  setting := h.setting.trans k.setting
  held := fun hs x j hj hc => by
    obtain ⟨i, hi, hci⟩ := k.held (h.service hs) x j hj hc
    exact h.held hs x i hi hci

theorem NotTaken.of_phases (hs : SettingKept s t) (hp : PhasesKept s t) : NotTaken c s t where
  setting := hs
  held := fun _ x k hk hc => by
    have hx := hp x
    rw [hk] at hx
    obtain ⟨j, hj, hjk⟩ := Option.map_eq_some_iff.1 hx.symm
    exact ⟨j, hj, hjk ▸ hc⟩

/-- A change of one context, which holds no cell more than it did, but one that is IN_SERVICE. -/
theorem NotTaken.of_one {x : Channel} (hs : SettingKept s t) (ho : ∀ y, y ≠ x → t.call y = s.call y)
    (hx : (s.cell c).service ≠ .inService → ∀ k, t.call x = some k → c ∈ k.phase.heldCells →
      ∃ j, s.call x = some j ∧ c ∈ j.phase.heldCells) : NotTaken c s t where
  setting := hs
  held := fun hsv y k hk hc => by
    by_cases hy : y = x
    · subst hy
      exact hx hsv k hk hc
    · exact ⟨k, (ho y hy).symm.trans hk, hc⟩

theorem NotTaken.unheld (h : NotTaken c s t) (hs : (s.cell c).service ≠ .inService) {x : Channel}
    (hx : holdsChannel s c x = false) : holdsChannel t c x = false := by
  refine Bool.eq_false_iff.2 fun ht => ?_
  obtain ⟨k, hk, hc⟩ := holdsChannel_iff.1 ht
  rw [holdsChannel_iff.2 (h.held hs x k hk hc)] at hx
  cases hx

end

/-! ### The pieces of a chain -/

section
variable {c : CellIx} {s u w : State} {x : Channel} {k : Call}

theorem dropCall_notTaken (x : Channel) (cause : DropCause) (lost : Bool) (s : State) :
    NotTaken c s (dropCall x cause lost s) :=
  .of_one (dropCall_moves (P := fun _ => False) x cause lost s).raws.setting
    (fun _ hy => dropCall_others hy cause lost s) fun _ j hj _ => by
      rw [dropCall_call] at hj
      cases hj

theorem failedOpen_notTaken (hk : s.call x = some k) (d : CellIx) (cause : FailCause) :
    NotTaken c s (failedOpen x k d cause s) :=
  .of_one (failedOpen_moves (P := fun _ => False) (State.handset_of_call hk) d cause).raws.setting
    (fun y hy => (failedOpen_call x k d cause s y).trans (if_neg hy)) fun _ j hj _ => by
      rw [failedOpen_call, if_pos rfl] at hj
      cases hj

theorem fallback_notTaken (hk : s.call x = some k) {l : Leg} (hl : k.phase.serving = some l) (d : CellIx) (how : TargetEnd) :
    NotTaken c s (fallback x k l d how s) := by
  have hfell := fallback_fellBack x k l d how s
  refine .of_one (fallback_moves (P := fun _ => False) hk hl d how).raws.setting hfell.others fun _ j hj hc => ?_
  rw [hfell.call] at hj
  cases hj
  exact ⟨k, hk, List.mem_singleton.1 hc ▸ Phase.serving_held hl⟩

theorem endAttempt_notTaken (hk : s.call x = some k) (d : CellIx) (dl : Time) : NotTaken c s (endAttempt x k d dl s) :=
  .of_one (endAttempt_moves (P := fun _ => False) hk d dl).raws.setting
    (fun y hy => (endAttempt_call x k d dl s y).trans (if_neg hy)) fun _ j hj hc => by
      rw [endAttempt_call, if_pos rfl] at hj
      cases hj
      cases hc

theorem freeAnswer_notTaken (a : Answer) (s : State) : NotTaken c s (freeAnswer a s) :=
  .of_phases (freeAnswer_setting a s) (.of_calls rfl)

theorem modCall_phases {f : Call → Call} (hf : ∀ k, (f k).phase = k.phase) (x : Channel) (s : State) :
    PhasesKept s (s.modCall x f) := fun y => by
  rw [State.call_modCall]
  split
  · next hy =>
    rw [hy, Option.map_map]
    cases s.call x with
    | none => rfl
    | some k => exact congrArg some (hf k)
  · rfl

theorem dropCandidate_phases (y : Channel) (d : CellIx) (s : State) : PhasesKept s (dropCandidate y d s) := by
  refine modCall_phases ?_ y s
  exact fun _ => rfl

theorem dropCandidate_notTaken (hu : HandedBack s u) (y : Channel) (d : CellIx) (code : HoCode) :
    NotTaken c s (dropCandidate y d (countRefusal code u)) :=
  (NotTaken.of_phases (t := u) hu.setting (.of_calls hu.calls)).trans
    (.of_phases ((countRefusal_moves (P := fun _ => False) code u).trans (dropCandidate_moves y d _)).raws.setting
      (dropCandidate_phases y d (countRefusal code u)))

theorem Admits.setting {d : CellIx} {h : Hid} {role : Role} {v : Option CtlFrame} (ha : Admits x d h role s v w) (n : Txn) :
    SettingKept s (allocateTxn n x d w) := by
  obtain ⟨rest, -, -, hw⟩ := ha.queue
  have hlinks : ∀ p, ((reserved d s).setPort (portOf d) { s.port (portOf d) with
      ctl := rest ++ [.legOpen d s.nextTxn x h role] } |>.port p).link = (s.port p).link := fun p => by
    rw [State.port_setPort]
    split
    · next hp => rw [hp]
    · rfl
  have hcell : ∀ e, ((reserved d s).cell e).stored = (s.cell e).stored ∧
      ((reserved d s).cell e).neighbours = (s.cell e).neighbours ∧
      ((reserved d s).cell e).service = (s.cell e).service := fun e => by
    unfold reserved
    rw [State.cell_setCell]
    split
    · next he =>
      rw [he]
      exact ⟨rfl, rfl, rfl⟩
    · exact ⟨rfl, rfl, rfl⟩
  rw [hw]
  exact { SettingKept.refl s with
    links := hlinks
    stored := fun e => (hcell e).1
    neighbours := fun e => (hcell e).2.1
    service := fun e => .inl (hcell e).2.2 }

theorem Admits.calls {d : CellIx} {h : Hid} {role : Role} {v : Option CtlFrame} (ha : Admits x d h role s v w) :
    w.calls = s.calls := by
  obtain ⟨rest, -, -, hw⟩ := ha.queue
  rw [hw]
  rfl

/-- A phase to which an admitted target is added holds what it held, and the target's cell. -/
theorem admitted_notTaken {d : CellIx} {h : Hid} {role : Role} {v : Option CtlFrame} {f : Call → Call}
    (ha : Admits x d h role s v w) (n : Txn)
    (hf : ∀ k, c ∈ (f k).phase.heldCells → c = d ∨ c ∈ k.phase.heldCells) :
    NotTaken c s ((allocateTxn n x d w).modCall x f) := by
  refine .of_one (x := x) ((ha.setting n).trans { SettingKept.refl _ with }) (fun y hy => ?_) fun hs k hk hc => ?_
  · exact (modCall_others x f (allocateTxn n x d w) y hy).trans (State.call_congr ha.calls y)
  · rw [State.call_modCall, if_pos rfl] at hk
    obtain ⟨j, hj, rfl⟩ := Option.map_eq_some_iff.1 hk
    refine ⟨j, (State.call_congr ha.calls x).symm.trans hj, (hf j hc).resolve_left fun hcd => ?_⟩
    exact hs (hcd ▸ ha.service)

theorem attempted_notTaken {d : CellIx} {h : Hid} {v : Option CtlFrame} (ha : Admits x d h .rescue s v w) :
    NotTaken c s (attempted x d s w) :=
  admitted_notTaken ha s.nextTxn fun k hc => by
    split at hc
    · exact .inl (List.mem_singleton.1 hc)
    · exact .inr hc
    · exact .inr hc
    · exact .inr hc
    · exact .inr hc

theorem beginPreparing_notTaken {d : CellIx} {h : Hid} {role : Role} {kind : ReqKind} {v : Option CtlFrame}
    (ha : Admits x d h role s v w) (n : Txn) :
    NotTaken c s (beginPreparing x ⟨d, role, kind⟩ n (allocateTxn n x d w)) :=
  admitted_notTaken ha n fun k hc => by
    split at hc
    · next hp =>
      rw [hp]
      rcases List.mem_cons.1 hc with rfl | hc
      · exact .inr List.mem_cons_self
      · exact .inl (List.mem_singleton.1 hc)
    · exact .inr hc
    · exact .inr hc
    · exact .inr hc
    · exact .inr hc

end

/-- The chain that passes a rescue on takes up no cell that is out of service. -/
theorem notTaken_chain {c : CellIx} {b : State} : ChainInv (NotTaken c b) (fun _ _ _ => True) fun _ => True where
  dropped := fun cause lost h _ => h.trans (dropCall_notTaken _ cause lost _)
  failed := fun cause h hk _ => h.trans (failedOpen_notTaken hk _ cause)
  fallen := fun h hk hp => h.trans (fallback_notTaken hk (by rw [hp]; rfl) _ _)
  ended := fun h hk _ => h.trans (endAttempt_notTaken hk _ _)
  freed := fun h _ => h.trans (freeAnswer_notTaken _ _)
  best := fun _ _ _ => trivial
  refused := fun code h hu => h.trans (dropCandidate_notTaken hu _ _ code)
  admitted := fun h _ _ _ ha => h.trans (attempted_notTaken ha)
  victim := fun _ _ _ _ _ _ => trivial

/-! ### The takes (R117 to R123) -/

section
variable {c : CellIx}

theorem refuseRequest_notTaken (x : Channel) (d : CellIx) (s : State) : NotTaken c s (refuseRequest x d s) := by
  refine .of_one (refuseRequest_moves (P := fun _ => False) x d s).raws.setting (modCall_others x _ s) fun _ k hk hc => ?_
  unfold refuseRequest at hk
  rw [State.call_modCall, if_pos rfl] at hk
  obtain ⟨j, hj, rfl⟩ := Option.map_eq_some_iff.1 hk
  refine ⟨j, hj, ?_⟩
  split at hc
  · next hp =>
    rw [hp]
    exact hc
  all_goals exact hc

theorem settleVictim_notTaken (v : Option CtlFrame) (s : State) : NotTaken c s (settleVictim nextCandidate v s) :=
  notTaken_chain.settleVictim (fun h hn => notTaken_chain.nextCandidate h hn) (.refl c s) fun _ _ _ _ => trivial

theorem takeHandover_notTaken (r : Request) (i : RecIx) (s : State) : NotTaken c s (takeHandover r i s) := by
  have refused : ∀ {u : State} (f : DeviceCounters → DeviceCounters), HandedBack s u →
      NotTaken c s (refuseRequest r.channel r.target (u.count f)) := fun {u} f hu =>
    (NotTaken.of_phases (t := u.count f) (hu.setting.trans { SettingKept.refl u with }) (.of_calls hu.calls)).trans
      (refuseRequest_notTaken _ _ _)
  unfold takeHandover
  dsimp only
  split
  · exact refused _ (.refl s)
  · rcases tryTarget_outcome r.channel i r.target .handover (!r.kind.urgent) s with
      ⟨u, hu, ⟨code, htry⟩ | htry⟩ | ⟨hid, v, w, ha, htry⟩
    · rw [htry]
      exact refused _ hu
    · rw [htry]
      exact refused _ hu
    · rw [htry]
      exact (beginPreparing_notTaken ha _).trans (settleVictim_notTaken _ _)

theorem preemptiveRescue_notTaken (x : Channel) (i : RecIx) (d : CellIx) (ts : List CellIx) (s : State) :
    NotTaken c s (preemptiveRescue x i d ts s) := by
  induction ts generalizing s with
  | nil => exact refuseRequest_notTaken x d s
  | cons e ts ih =>
    have refused : ∀ {u : State} (code : HoCode), HandedBack s u →
        NotTaken c s (preemptiveRescue x i d ts (countRefusal code u)) := fun {u} code hu =>
      (NotTaken.of_phases (t := countRefusal code u) (hu.setting.trans { SettingKept.refl u with })
        (.of_calls hu.calls)).trans (ih _)
    unfold preemptiveRescue
    rcases tryTarget_outcome x i e .rescue false s with ⟨u, hu, ⟨code, htry⟩ | htry⟩ | ⟨hid, v, w, ha, htry⟩
    · rw [htry]
      exact refused _ hu
    · rw [htry]
      exact refused _ hu
    · rw [htry]
      exact (beginPreparing_notTaken ha _).trans (settleVictim_notTaken _ _)

theorem judgeRequest_notTaken (r : Request) (s : State) : NotTaken c s (judgeRequest r s) := by
  unfold judgeRequest
  split
  · exact .refl c s
  · next k hk =>
    split
    · exact .refl c s
    · split
      · exact preemptiveRescue_notTaken _ _ _ _ s
      · exact takeHandover_notTaken _ _ s
      · exact takeHandover_notTaken _ _ s
      · exact takeHandover_notTaken _ _ s
    · exact .refl c s
    · exact .refl c s
    · next hp =>
      split
      · refine notTaken_chain.rescueTry _ (.refl c s) (fun j hj => ?_) fun _ _ => trivial
        obtain rfl : k = j := Option.some.inj (hk.symm.trans hj)
        rw [hp]
        rfl
      · exact .refl c s
      · exact .refl c s
      · exact .refl c s
    · exact .refl c s

theorem takeOne_notTaken (s : State) : NotTaken c s (takeOne s) := by
  unfold takeOne
  split
  · exact .refl c s
  · next r q _ =>
    refine NotTaken.trans (.of_phases (t := setPosted r.channel false { s with hrq := q }) ?_ ?_) (judgeRequest_notTaken _ _)
    · exact SettingKept.trans (t := { s with hrq := q }) { SettingKept.refl s with }
        (setPosted_moves (P := fun _ => False) r.channel false { s with hrq := q }).raws.setting
    · exact setPosted_phases r.channel false { s with hrq := q }

theorem postRescue_phases (x : Channel) (s : State) : PhasesKept s (postRescue x s) := by
  unfold postRescue
  split
  · exact .refl s
  · split
    · exact .refl s
    · exact hrqPost_phases _ s

theorem offerPlace_phases (s : State) : PhasesKept s (offerPlace s) := by
  unfold offerPlace
  split
  · split
    · exact .refl s
    · exact postRescue_phases _ s
  · exact .refl s

theorem offerPlaces_phases (n : Nat) (s : State) : PhasesKept s (offerPlaces n s) := by
  induction n generalizing s with
  | zero => exact .refl s
  | succ n ih => exact (offerPlace_phases s).trans (ih _)

theorem finish_notTaken (s u : State) : NotTaken c u (finish s u) :=
  .of_phases (finish_moves (P := fun _ => False) s u).raws.setting
    ((offerPlaces_phases _ u).trans (.of_calls (finish_spec s u).calls))

theorem takeLoop_notTaken (n : Nat) (s : State) : NotTaken c s (takeLoop n s) := by
  induction n generalizing s with
  | zero => exact .refl c s
  | succ n ih =>
    unfold takeLoop
    split
    · exact .refl c s
    · exact ((takeOne_notTaken s).trans (finish_notTaken s _)).trans (ih _)

theorem takes_notTaken (s u : State) : NotTaken c u (takes s u) := by
  unfold takes
  split
  · exact .refl c u
  · exact takeLoop_notTaken _ u

/-- What follows the effect of an event takes up no cell that is out of service. -/
theorem event_notTaken (f : State → State) (s : State) : NotTaken c (f s) (event f s) :=
  (finish_notTaken s (f s)).trans (takes_notTaken s _)

end

end Sys2Proof.Machine
end

section
/-! PROOFS. A cell loss reaches each context (R70, R71, R95, R141): after the event of a context it holds the lost cell no
more, and no later event gives it back. -/

namespace Sys2Proof.Machine

/-! ### The share of a context's open or serving leg, by its phase (R95) -/

/-- The loss of the serving leg of a context by a cause. -/
def servedLoss (cause : LossCause) (x : Channel) (s : State) : State :=
  match cause with
  | .cellDisabled => dropCall x .cellDisabled false s
  | .cellDrained => dropCall x .cellDrained false s
  | .linkDown => servingLegLoss x .linkDown s

section
variable {lost : CellIx → Bool} {cause : LossCause} {x : Channel} {s : State} {k : Call}

theorem loseServing_idle (hk : s.call x = none) : loseServing lost cause x s = s := by
  unfold loseServing
  rw [hk]

theorem loseServing_opening {d : CellIx} {n : Txn} (hk : s.call x = some k) (hp : k.phase = .opening d n) :
    loseServing lost cause x s = if lost d then failedOpen x k d cause.fail (cancelTxn n s) else s := by
  unfold loseServing
  rw [hk]
  dsimp only
  rw [hp]

theorem loseServing_serving {l : Leg} (hk : s.call x = some k) (hs : k.phase.serving = some l) :
    loseServing lost cause x s = if lost l.cell then servedLoss cause x s else s := by
  unfold loseServing
  rw [hk]
  dsimp only
  split
  · next hp =>
    rw [hp] at hs
    cases hs
  all_goals
    rw [hs]
    rfl

theorem loseServing_unserved (hk : s.call x = some k) (ho : ∀ d n, k.phase ≠ .opening d n) (hs : k.phase.serving = none) :
    loseServing lost cause x s = s := by
  unfold loseServing
  rw [hk]
  dsimp only
  split
  · next hp => exact absurd hp (ho _ _)
  all_goals rw [hs]

end

/-! ### The share of a context's target, by its phase (R135) -/

section
variable {lost : CellIx → Bool} {how : TargetEnd} {x : Channel} {s : State} {k : Call}

theorem loseTarget_idle (hk : s.call x = none) : loseTarget lost how x s = s := by
  unfold loseTarget
  rw [hk]

theorem loseTarget_kept (hk : s.call x = some k) (h : ∀ r, k.phase.target = some r → lost r.cell = false) :
    loseTarget lost how x s = s := by
  unfold loseTarget
  rw [hk]
  dsimp only
  split
  · rfl
  · rfl
  · next r n hp => exact if_neg (by rw [h r (by rw [hp]; rfl)]; nofun)
  · next r sl d hp => exact if_neg (by rw [h r (by rw [hp]; rfl)]; nofun)
  · rfl
  · next r n d hp => exact if_neg (by rw [h r (by rw [hp]; rfl)]; nofun)

theorem loseTarget_preparing {l : Leg} {g : Option Time} {r : Target} {n : Txn} (hk : s.call x = some k)
    (hp : k.phase = .preparing l g r n) (hl : lost r.cell = true) :
    loseTarget lost how x s = fallback x k l r.cell (.cancel n) s := by
  unfold loseTarget
  rw [hk]
  dsimp only
  rw [hp]
  exact if_pos hl

theorem loseTarget_bridging {l : Leg} {g : Option Time} {r : Target} {sl : Slot} {d : Time} (hk : s.call x = some k)
    (hp : k.phase = .bridging l g r sl d) (hl : lost r.cell = true) :
    loseTarget lost how x s = fallback x k l r.cell how s := by
  unfold loseTarget
  rw [hk]
  dsimp only
  rw [hp]
  exact if_pos hl

theorem loseTarget_rescuing {r : Target} {n : Txn} {d : Time} (hk : s.call x = some k)
    (hp : k.phase = .rescuing (some (r, n)) d) (hl : lost r.cell = true) :
    loseTarget lost how x s = nextCandidate x (endAttempt x k r.cell d (cancelTxn n s)) := by
  unfold loseTarget
  rw [hk]
  dsimp only
  rw [hp]
  exact if_pos hl

end

/-- What becomes of a READY target leg by a cause of a cell loss (R95, R135). -/
def LossCause.targetEnd : LossCause → TargetEnd
  | .linkDown => .lost
  | .cellDisabled => .close
  | .cellDrained => .close

theorem lossAtContext_eq (lost : CellIx → Bool) (cause : LossCause) (x : Channel) (s : State) :
    lossAtContext lost cause x s = loseServing lost cause x (loseTarget lost cause.targetEnd x s) := by
  cases cause <;> rfl

/-! ### The share of one context takes up no cell that is out of service -/

section
variable {c : CellIx} {s : State} {x : Channel} {k : Call}

theorem releaseSlot_notTaken (d : CellIx) (s : State) : NotTaken c s (releaseSlot d s) :=
  .of_phases (releaseSlot_moves (P := fun _ => False) d s).raws.setting (.of_calls (releaseSlot_calls d s))

theorem cancelTxn_notTaken (n : Txn) (s : State) : NotTaken c s (cancelTxn n s) :=
  .of_phases (cancelTxn_moves (P := fun _ => False) n s).raws.setting (.of_calls (cancelTxn_calls n s))

theorem Phase.target_held {p : Phase} {r : Target} (h : p.target = some r) : r.cell ∈ p.heldCells := by
  cases p with
  | opening d n => cases h
  | active l g => cases h
  | preparing l g t n =>
    cases h
    exact List.mem_cons_of_mem _ (List.mem_singleton_self _)
  | bridging l g t sl d =>
    cases h
    exact List.mem_cons_of_mem _ (List.mem_singleton_self _)
  | rescuing a d =>
    cases a with
    | none => cases h
    | some a =>
      cases h
      exact List.mem_singleton_self _

/-- A cell that an established context holds is its serving cell or its target's. -/
theorem Phase.held_cases {p : Phase} (ho : ∀ d n, p ≠ .opening d n) (h : c ∈ p.heldCells) :
    (∃ l, p.serving = some l ∧ l.cell = c) ∨ ∃ r, p.target = some r ∧ r.cell = c := by
  cases p with
  | opening d n => exact absurd rfl (ho d n)
  | active l g => exact .inl ⟨l, rfl, (List.mem_singleton.1 h).symm⟩
  | preparing l g t n =>
    rcases List.mem_cons.1 h with rfl | h
    · exact .inl ⟨l, rfl, rfl⟩
    · exact .inr ⟨t, rfl, (List.mem_singleton.1 h).symm⟩
  | bridging l g t sl d =>
    rcases List.mem_cons.1 h with rfl | h
    · exact .inl ⟨l, rfl, rfl⟩
    · exact .inr ⟨t, rfl, (List.mem_singleton.1 h).symm⟩
  | rescuing a d =>
    cases a with
    | none => cases h
    | some a => exact .inr ⟨a.1, rfl, (List.mem_singleton.1 h).symm⟩

theorem endAttempt_noOpen (x : Channel) (k : Call) (d : CellIx) (dl : Time) (s : State) :
    (endAttempt x k d dl s).NoOpen x := fun j hj => by
  rw [endAttempt_call, if_pos rfl] at hj
  cases hj
  rfl

/-- The chain that follows the end of an attempt gives its context no cell that is out of service. -/
theorem attemptLost_notTaken (hk : s.call x = some k) (d : CellIx) (dl : Time) (n : Txn) :
    NotTaken c s (nextCandidate x (endAttempt x k d dl (cancelTxn n s))) :=
  notTaken_chain.nextCandidate ((cancelTxn_notTaken n s).trans
    (endAttempt_notTaken ((State.call_congr (cancelTxn_calls n s) x).trans hk) d dl)) (endAttempt_noOpen x k d dl _)

theorem loseTarget_notTaken (lost : CellIx → Bool) (how : TargetEnd) (x : Channel) (s : State) :
    NotTaken c s (loseTarget lost how x s) := by
  unfold loseTarget
  split
  · exact .refl c s
  · next k hk =>
    split
    · exact .refl c s
    · exact .refl c s
    · next hp =>
      split
      · exact fallback_notTaken hk (by rw [hp]; rfl) _ _
      · exact .refl c s
    · next hp =>
      split
      · exact fallback_notTaken hk (by rw [hp]; rfl) _ _
      · exact .refl c s
    · exact .refl c s
    · split
      · exact attemptLost_notTaken hk _ _ _
      · exact .refl c s

/-- A rewrite of one context, which then holds no cell more than it did. -/
theorem setCall_notTaken {j : Call} (hk : s.call x = some k) (hj : ∀ d ∈ j.phase.heldCells, d ∈ k.phase.heldCells) :
    NotTaken c s (s.setCall x (some j)) :=
  .of_one (setCall_setting x _ s) (fun _ hy => State.call_setCall_ne _ hy _) fun _ i hi hc => by
    rw [State.call_setCall_self] at hi
    cases hi
    exact ⟨k, hk, hj c hc⟩

theorem commit_notTaken (hk : s.call x = some k) {r : Target} (hr : k.phase.target = some r) (sl : Slot) :
    NotTaken c s (commit x k none r sl false s) := by
  have hc := commit_alone x k r sl s
  refine .of_one (commit_moves (P := fun _ => False) hk none r sl false).raws.setting hc.others fun _ j hj hd => ?_
  rw [hc.call] at hj
  cases hj
  exact ⟨k, hk, List.mem_singleton.1 hd ▸ Phase.target_held hr⟩

theorem servingLegLoss_notTaken (x : Channel) (cause : DropCause) (s : State) : NotTaken c s (servingLegLoss x cause s) := by
  unfold servingLegLoss
  split
  · exact .refl c s
  · next k hk =>
    have hcall : ∀ d, (releaseSlot d s).call x = some k := fun d => (State.call_congr (releaseSlot_calls d s) x).trans hk
    split
    · exact .refl c s
    · next l _ _ =>
      dsimp only
      split
      · exact (releaseSlot_notTaken l.cell s).trans (dropCall_notTaken _ _ _ _)
      · exact ((releaseSlot_notTaken l.cell s).trans (setCall_notTaken (hcall _) fun _ h => by cases h)).trans
          (.of_phases (postRescue_moves (P := fun _ => False) x _).raws.setting (postRescue_phases x _))
    · next l _ r n hp =>
      refine (releaseSlot_notTaken l.cell s).trans (setCall_notTaken (hcall _) fun d hd => ?_)
      rw [hp]
      exact List.mem_cons_of_mem _ hd
    · next l _ r sl _ hp =>
      exact (releaseSlot_notTaken l.cell s).trans (commit_notTaken (hcall _) (by rw [hp]; rfl) sl)
    · exact .refl c s

theorem servedLoss_notTaken (cause : LossCause) (x : Channel) (s : State) : NotTaken c s (servedLoss cause x s) := by
  cases cause with
  | cellDisabled => exact dropCall_notTaken _ _ _ s
  | cellDrained => exact dropCall_notTaken _ _ _ s
  | linkDown => exact servingLegLoss_notTaken _ _ s

theorem loseServing_notTaken (lost : CellIx → Bool) (cause : LossCause) (x : Channel) (s : State) :
    NotTaken c s (loseServing lost cause x s) := by
  cases hk : s.call x with
  | none =>
    rw [loseServing_idle hk]
    exact .refl c s
  | some k =>
    cases hs : k.phase.serving with
    | some l =>
      rw [loseServing_serving hk hs]
      split
      · exact servedLoss_notTaken cause x s
      · exact .refl c s
    | none =>
      by_cases ho : ∃ d n, k.phase = .opening d n
      · obtain ⟨d, n, hp⟩ := ho
        rw [loseServing_opening hk hp]
        split
        · exact (cancelTxn_notTaken _ s).trans
            (failedOpen_notTaken ((State.call_congr (cancelTxn_calls _ s) x).trans hk) _ _)
        · exact .refl c s
      · rw [loseServing_unserved hk (fun d n hp => ho ⟨d, n, hp⟩) hs]
        exact .refl c s

theorem lossAtContext_notTaken (lost : CellIx → Bool) (cause : LossCause) (x : Channel) (s : State) :
    NotTaken c s (lossAtContext lost cause x s) :=
  (loseTarget_notTaken _ _ x s).trans (loseServing_notTaken _ _ x _)

end

/-! ### After its share, a context holds the lost cell no more -/

section
variable {c : CellIx} {lost : CellIx → Bool} {s : State} {x : Channel} (hl : lost c = true)
  (hs : (s.cell c).service ≠ .inService)
include hl hs

/-- After the share of its target a context has no target at the lost cell. -/
theorem loseTarget_left {how : TargetEnd} {k : Call} (hk : (loseTarget lost how x s).call x = some k) {r : Target}
    (hr : k.phase.target = some r) : r.cell ≠ c := by
  cases hj : s.call x with
  | none =>
    rw [loseTarget_idle hj, hj] at hk
    cases hk
  | some j =>
    by_cases hlost : ∃ t, j.phase.target = some t ∧ lost t.cell = true
    · obtain ⟨t, ht, htl⟩ := hlost
      cases hp : j.phase with
      | opening d n =>
        rw [hp] at ht
        cases ht
      | active l g =>
        rw [hp] at ht
        cases ht
      | preparing l g t' n =>
        rw [hp] at ht
        cases ht
        rw [loseTarget_preparing hj hp htl, (fallback_fellBack x j l t.cell (.cancel n) s).call] at hk
        cases hk
        cases hr
      | bridging l g t' sl d =>
        rw [hp] at ht
        cases ht
        rw [loseTarget_bridging hj hp htl, (fallback_fellBack x j l t.cell how s).call] at hk
        cases hk
        cases hr
      | rescuing a d =>
        rw [hp] at ht
        cases a with
        | none => cases ht
        | some a =>
          cases ht
          rw [loseTarget_rescuing hj hp htl] at hk
          intro hrc
          have hfrom : (cancelTxn a.2 s).call x = some j := (State.call_congr (cancelTxn_calls a.2 s) x).trans hj
          have hmid := (cancelTxn_notTaken (c := c) a.2 s).trans (endAttempt_notTaken hfrom a.1.cell d)
          have hchain := notTaken_chain.nextCandidate (NotTaken.refl c (endAttempt x j a.1.cell d (cancelTxn a.2 s)))
            (endAttempt_noOpen x j a.1.cell d _)
          obtain ⟨i, hi, hci⟩ := hchain.held (hmid.service hs) x k hk (hrc ▸ Phase.target_held hr)
          rw [endAttempt_call, if_pos rfl] at hi
          cases hi
          cases hci
    · have hkept : ∀ t, j.phase.target = some t → lost t.cell = false := fun t ht =>
        Bool.eq_false_iff.2 fun htl => hlost ⟨t, ht, htl⟩
      rw [loseTarget_kept hj hkept, hj] at hk
      cases hk
      intro hrc
      have := hkept r hr
      rw [hrc, hl] at this
      cases this

omit hl hs in
/-- A context that has lost its serving leg holds its target's cell at most. -/
theorem servedLoss_held {cause : LossCause} {j k : Call} {l : Leg} (hj : s.call x = some j) (hl : j.phase.serving = some l)
    (hk : (servedLoss cause x s).call x = some k) (hc : c ∈ k.phase.heldCells) :
    ∃ r, j.phase.target = some r ∧ r.cell = c := by
  cases cause with
  | cellDisabled =>
    rw [show servedLoss .cellDisabled x s = dropCall x .cellDisabled false s from rfl, dropCall_call] at hk
    cases hk
  | cellDrained =>
    rw [show servedLoss .cellDrained x s = dropCall x .cellDrained false s from rfl, dropCall_call] at hk
    cases hk
  | linkDown =>
    change (servingLegLoss x .linkDown s).call x = some k at hk
    cases hp : j.phase with
    | opening d n =>
      rw [hp] at hl
      cases hl
    | rescuing a d =>
      rw [hp] at hl
      cases hl
    | active m g =>
      cases hb : bestCandidate j.candidates with
      | none =>
        rw [servingLegLoss_dropped hj hp (bestCandidate_none hb), dropCall_call] at hk
        cases hk
      | some b =>
        rw [servingLegLoss_posted hj hp hb] at hk
        have hphase := hrqPost_phases ⟨x, b.cell, .rescue, s.now⟩
          ((releaseSlot m.cell s).setCall x (some (rescuedCall s j))) x
        rw [hk, State.call_setCall_self] at hphase
        have hrest : k.phase = (rescuedCall s j).phase := Option.some.inj hphase
        rw [hrest] at hc
        cases hc
    | preparing m g r n =>
      rw [servingLegLoss_preparing hj hp, State.call_setCall_self] at hk
      cases hk
      exact ⟨r, rfl, (List.mem_singleton.1 hc).symm⟩
    | bridging m g r sl d =>
      rw [servingLegLoss_bridging hj hp, (commit_alone x j r sl _).call] at hk
      cases hk
      exact ⟨r, rfl, (List.mem_singleton.1 hc).symm⟩

/-- After the share of its serving leg too, a context holds the lost cell no more. -/
theorem lossAtContext_unheld (cause : LossCause) : holdsChannel (lossAtContext lost cause x s) c x = false := by
  refine Bool.eq_false_iff.2 fun ht => ?_
  obtain ⟨k, hk, hc⟩ := holdsChannel_iff.1 ht
  rw [lossAtContext_eq] at hk
  have hleft := @loseTarget_left c lost s x hl hs cause.targetEnd
  generalize loseTarget lost cause.targetEnd x s = u at hk hleft
  cases hj : u.call x with
  | none =>
    rw [loseServing_idle hj, hj] at hk
    cases hk
  | some j =>
    have hfree : ∀ r, j.phase.target = some r → r.cell ≠ c := fun r hr => hleft hj hr
    have hkept : (∀ d n, j.phase ≠ .opening d n) → (∀ l, j.phase.serving = some l → l.cell ≠ c) → c ∉ j.phase.heldCells :=
      fun ho hserve hheld => by
        rcases Phase.held_cases ho hheld with ⟨l, hl', hlc⟩ | ⟨r, hr, hrc⟩
        · exact hserve l hl' hlc
        · exact hfree r hr hrc
    cases hserve : j.phase.serving with
    | some l =>
      rw [loseServing_serving hj hserve] at hk
      split at hk
      · obtain ⟨r, hr, hrc⟩ := servedLoss_held hj hserve hk hc
        exact hfree r hr hrc
      · next hno =>
        obtain rfl : j = k := Option.some.inj (hj.symm.trans hk)
        refine hkept (fun d n hp => by rw [hp] at hserve; cases hserve) (fun m hm hmc => hno ?_) hc
        rw [hserve] at hm
        cases hm
        rwa [hmc]
    | none =>
      by_cases ho : ∃ d n, j.phase = .opening d n
      · obtain ⟨d, n, hp⟩ := ho
        rw [loseServing_opening hj hp] at hk
        split at hk
        · rw [failedOpen_call, if_pos rfl] at hk
          cases hk
        · next hno =>
          obtain rfl : j = k := Option.some.inj (hj.symm.trans hk)
          rw [hp] at hc
          exact hno (List.mem_singleton.1 hc ▸ hl)
      · have hopen : ∀ d n, j.phase ≠ .opening d n := fun d n hp => ho ⟨d, n, hp⟩
        rw [loseServing_unserved hj hopen hserve] at hk
        obtain rfl : j = k := Option.some.inj (hj.symm.trans hk)
        exact hkept hopen (fun l hl' => by rw [hserve] at hl'; cases hl') hc

/-- After the events of all contexts none holds the lost cell. -/
theorem eachLoss_unheld {cause : LossCause} {t : State} (h : EachContext (lossAtContext lost cause) s t) :
    NotTaken c s t ∧ ∀ y, holdsChannel t c y = false := by
  obtain ⟨u, rfl, rfl, hstep⟩ := h
  have hall : ∀ n, n ≤ 128 → NotTaken c (u 0) (u n) ∧ ∀ y : Channel, y.val < n → holdsChannel (u n) c y = false := by
    intro n
    induction n with
    | zero => exact fun _ => ⟨.refl c _, fun y hy => absurd hy (Nat.not_lt_zero _)⟩
    | succ n ih =>
      intro hn
      obtain ⟨hbefore, hfree⟩ := ih (Nat.le_of_succ_le hn)
      have hserv := hbefore.service hs
      obtain ⟨hidle, hevent⟩ := hstep ⟨n, hn⟩
      by_cases hcall : (u n).call ⟨n, hn⟩ = none
      · have heq : u (n + 1) = u n := hidle hcall
        rw [heq]
        refine ⟨hbefore, fun y hy => ?_⟩
        rcases Nat.lt_succ_iff_lt_or_eq.1 hy with hy | hy
        · exact hfree y hy
        · obtain rfl : y = ⟨n, hn⟩ := Fin.ext hy
          unfold holdsChannel
          rw [hcall]
      · have heq : u (n + 1) = event (lossAtContext lost cause ⟨n, hn⟩) (u n) := hevent hcall
        have hshare := lossAtContext_notTaken (c := c) lost cause ⟨n, hn⟩ (u n)
        have hend := event_notTaken (c := c) (lossAtContext lost cause ⟨n, hn⟩) (u n)
        rw [heq]
        refine ⟨(hbefore.trans hshare).trans hend, fun y hy => hend.unheld (hshare.service hserv) ?_⟩
        rcases Nat.lt_succ_iff_lt_or_eq.1 hy with hy | hy
        · exact hshare.unheld hserv (hfree y hy)
        · obtain rfl : y = ⟨n, hn⟩ := Fin.ext hy
          exact lossAtContext_unheld hl hserv cause
  obtain ⟨hkept, hfree⟩ := hall 128 le_rfl
  exact ⟨hkept, fun y => hfree y y.isLt⟩

end

end Sys2Proof.Machine
end

section
/-! PROOFS. The events of a cell loss at the contexts (R66, R68, R70, R71), after a disable, the end of a drain and the
line-down of a port. -/

namespace Sys2Proof.Machine

/-- After the contexts' events of a cell loss, and what follows them, no context holds the lost cell. -/
theorem lossEvents_unheld {c : CellIx} {lost : CellIx → Bool} (cause : LossCause) {s : State} (hl : lost c = true)
    (hs : (s.cell c).service ≠ .inService) :
    NotTaken c s (eachContext (lossAtContext lost cause) s) ∧
      ∀ y, holdsChannel (eachContext (lossAtContext lost cause) s) c y = false :=
  eachLoss_unheld hl hs (eachContext_events _ s)

/-! ### A disable (R66) -/

theorem exec_cellDisable {tag : Tag} {c : CellIx} {s : State} (hp : (s.cell c).present = true)
    (hw : (s.cell c).service.working = true) (hx : Executing tag (asksFor 0x11) s) :
    exec (.cellDisable tag c.val) s = .next (eachContext (lossAtContext (fun d => decide (d = c)) .cellDisabled)
      (event (respond tag (asksFor 0x11) (onCell c.val disableCell)) s)) := by
  have hn : namedCell c.val s = some c := by
    unfold namedCell
    rw [inRange_eq rfl]
    exact if_pos hp
  change execCellDisable tag c.val s = _
  unfold execCellDisable disableLoss
  rw [if_pos (executes_iff.2 hx), hn]
  dsimp only
  rw [if_pos hw]

theorem onCell_disable {c : CellIx} {s : State} (hp : (s.cell c).present = true) :
    onCell c.val disableCell s =
      (s.setCell c { s.cell c with service := .outOfService }, ⟨.ok, .service .outOfService⟩) := by
  have hn : namedCell c.val s = some c := by
    unfold namedCell
    rw [inRange_eq rfl]
    exact if_pos hp
  unfold onCell
  rw [hn]
  dsimp only
  unfold disableCell serviceAnswer
  rw [State.cell_setCell_self]
  rfl

theorem disabled_loss {tag : Tag} {c : CellIx} {s : State} (hp : (s.cell c).present = true)
    (hw : (s.cell c).service.working = true) (hx : Executing tag (asksFor 0x11) s) :
    Runs (.cellDisable tag c.val) s fun t => (∀ x, holdsChannel t c x = false) ∧
      ∃ u, EventEnd s (answered tag ⟨.ok, .service .outOfService⟩
          (s.setCell c { s.cell c with service := .outOfService })) u ∧
        EachContext (lossAtContext (fun d => decide (d = c)) .cellDisabled) u t := by
  have hu := respond_answered hx (onCell_disable hp)
  have hend := event_end_still (f := respond tag (asksFor 0x11) (onCell c.val disableCell)) (s := s)
    (by rw [hu, answered_hrq]; rfl) (by rw [hu, answered_calls]; rfl)
  rw [hu] at hend
  have hservice : ((event (respond tag (asksFor 0x11) (onCell c.val disableCell)) s).cell c).service = .outOfService := by
    rw [hend.cell, answered_eq]
    exact congrArg CellRec.service (State.cell_setCell_self _ _ _)
  exact ⟨_, exec_cellDisable hp hw hx, (lossEvents_unheld _ (decide_eq_true rfl) (by rw [hservice]; nofun)).2, _, hend,
    eachContext_events _ _⟩

/-! ### The end of a drain (R68) -/

theorem FollowOn.service_ne (s : State) (f : FollowOn) : f.service s ≠ .inService := by cases f <;> nofun

theorem drained_loss {c : CellIx} {s : State} {f : FollowOn} {d : Time} (hs : (s.cell c).service = .draining f d)
    (hd : due d s) : Runs (.drainDeadlineExpiry c) s fun t =>
      (∀ x, holdsChannel t c x = false) ∧ ∃ u, EventEnd s (enterFollowOn c f s) u ∧
        EachContext (lossAtContext (fun d => decide (d = c)) .cellDrained) u t := by
  have hstep := enterFollowOn_step c f s
  have hend : EventEnd s (enterFollowOn c f s) (event (enterFollowOn c f) s) :=
    event_end_still hstep.hrq (by rw [hstep.only])
  have hservice : ((event (enterFollowOn c f) s).cell c).service = f.service s := by
    rw [hend.cell, enterFollowOn_service]
  exact ⟨_, exec_drain_due hs hd,
    (lossEvents_unheld _ (decide_eq_true rfl) (by rw [hservice]; exact f.service_ne s)).2, _, hend,
    eachContext_events _ _⟩

/-! ### The line-down of a port (R71) -/

theorem cellLineDown_service {p : PortIx} {c : CellIx} (hc : portOf c = p) (s : State) :
    ((cellLineDown p s).cell c).service ≠ .inService := by
  have hdown : ((cellsDown p (flushPort p s)).cell c).service ≠ .inService := by
    rw [cellsDown_cell]
    unfold downCell
    rw [if_pos hc]
    nofun
  exact (finish_notTaken s (cellsDown p (flushPort p s))).service hdown

theorem lineDown_loss {c : CellIx} {s : State} (hup : (s.port (portOf c)).link = .up) :
    Runs (.cellPortLineDown (portOf c)) s fun t =>
      ((s.cell c).service.working = true → ∀ x, holdsChannel t c x = false) ∧
      ∃ u, EachContext (lossAtContext (lostAtDown (portOf c) s) .linkDown) (cellLineDown (portOf c) s) u ∧
        t = takes s u := by
  refine ⟨_, exec_cellPortLineDown_up hup, fun hw x => ?_, _, eachContext_events _ _, rfl⟩
  have hlost : lostAtDown (portOf c) s c = true := by
    unfold lostAtDown
    rw [hw, decide_eq_true rfl]
    rfl
  have hservice := cellLineDown_service (c := c) rfl s
  obtain ⟨hkept, hfree⟩ := lossEvents_unheld .linkDown hlost hservice
  exact (takes_notTaken s _).unheld (hkept.service hservice) (hfree x)

end Sys2Proof.Machine
end

section
/-! PROOFS. The share of one context in a cell loss (R95), where the open, the target of an established call, or nothing of the
call is lost. -/

namespace Sys2Proof.Machine

/-! ### Queued LEG-OPENs -/

/-- Every LEG-OPEN that waits in a queue of `t` waited there in `s`. -/
def OpensFrom (s t : State) : Prop := ∀ p, ∀ o ∈ (t.port p).ctl, ∀ n, o.openTxn = some n → o ∈ (s.port p).ctl

theorem OpensFrom.trans {s t u : State} (h : OpensFrom s t) (k : OpensFrom t u) : OpensFrom s u :=
  fun p o ho n hn => h p o (k p o ho n hn) n hn

theorem OpensFrom.of_ports {s t : State} (h : t.ports = s.ports) : OpensFrom s t := fun p o ho _ _ => by
  unfold State.port at ho ⊢
  rwa [← h]

theorem PortStep.opens {m : Nat} {a b : CellPort} (h : PortStep m a b) {o : CtlFrame} (ho : o ∈ b.ctl) {n : Txn}
    (hn : o.openTxn = some n) : o ∈ a.ctl :=
  (h.entries o ho).resolve_right fun hown => by
    rw [CtlFrame.openTxn_of_owner hown] at hn
    cases hn

theorem RadioStep.opensFrom {m : Nat} {as : List (CellIx × Channel)} {cs : List CellIx} {s t : State}
    (h : RadioStep m as cs s t) : OpensFrom s t := fun p _ ho _ hn => (h.ports p).opens ho hn

theorem HandsetStep.opensFrom {s t : State} (h : HandsetStep s t) : OpensFrom s t :=
  fun p _ ho _ hn => (h.ports p).opens ho hn

theorem OpenCancelled.kept {n : Txn} {s t u : State} (h : OpenCancelled n s t) (ha : u.answers = t.answers)
    (ho : OpensFrom t u) : OpenCancelled n s u := h.stays ha fun p o hm hn => ho p o hm n hn

theorem failedOpen_opens (x : Channel) (k : Call) (c : CellIx) (cause : FailCause) (s : State) :
    OpensFrom s (failedOpen x k c cause s) := by
  have hh := releaseHandset_step .recheck k.handset (releaseSlot c s)
  unfold failedOpen
  exact (releaseSlot_step c s).opensFrom.trans (hh.opensFrom.trans (.of_ports (reply_ports _ _)))

theorem endCall_opens (x : Channel) (k : Call) (lost : Bool) (form : ReleaseForm) (s : State) :
    OpensFrom s (endCall x k lost form s) := by
  have hports : (hrqRemove x s).ports = s.ports := by rw [hrqRemove_only]
  rw [endCall_eq]
  exact (OpensFrom.of_ports hports).trans ((legsEnded_step x k lost _).opensFrom.trans
    ((releaseHandset_step form k.handset _).opensFrom.trans (.of_ports rfl)))

theorem dropCall_opens (x : Channel) (cause : DropCause) (lost : Bool) (s : State) :
    OpensFrom s (dropCall x cause lost s) := by
  cases hk : s.call x with
  | none =>
    rw [dropCall_none hk]
    exact .of_ports rfl
  | some k =>
    rw [dropCall_eq hk]
    exact (endCall_opens x k lost cause.form (s.count fun d => { d with drops := d.drops.bump cause })).trans
      (.of_ports (reply_ports _ _))

theorem fallback_opens (x : Channel) (k : Call) (l : Leg) (c : CellIx) (how : TargetEnd) (s : State) :
    OpensFrom s (fallback x k l c how s) := by
  have h := (targetLeft_step x c how s).opensFrom
  rw [fallback_eq]
  generalize targetLeft x c how s = u at h ⊢
  exact h.trans (.of_ports rfl)

theorem endAttempt_opens (x : Channel) (k : Call) (c : CellIx) (d : Time) (s : State) :
    OpensFrom s (endAttempt x k c d s) :=
  (releaseSlot_step c s).opensFrom.trans (.of_ports rfl)

/-! ### From before the cancellation -/

theorem LegsClosed.of_step {m : Nat} {x : Channel} {as cs : List CellIx} {s w t : State} (hw : RadioStep m [] as s w)
    (h : LegsClosed x cs w t) : LegsClosed x cs s t := by
  obtain ⟨hin, hnew⟩ := h
  refine ⟨fun c hc hu hr => hin c hc (((hw.ports _).link).trans hu) ?_, fun p c y hy => ?_⟩
  · have : _ ≤ _ + 0 := hw.closes.length (portOf c)
    omega
  · exact (hnew p c y hy).imp_left fun hy => (hw.closes.new p (c, y) hy).resolve_right fun ⟨hm, _⟩ => nomatch hm

theorem cancelTxn_setting (n : Txn) (s : State) : SettingKept s (cancelTxn n s) :=
  (cancelTxn_moves (P := fun _ => False) n s).raws.setting

theorem HandsetReleased.of_cancelled {n : Txn} {i : RecIx} {s t : State} (h : HandsetReleased i (cancelTxn n s) t) :
    HandsetReleased i s t :=
  h.of_withdrawn (cancelTxn_setting n s) ((cancelTxn_step n s).record i) fun p => ((cancelTxn_step n s).ports p).length

/-! ### The open of an OPENING context (R80, R95) -/

theorem LossCause.fail_ne_timeout (cause : LossCause) : cause.fail ≠ .timeout := by cases cause <;> nofun

theorem openLost {x : Channel} {k : Call} {d : CellIx} {n : Txn} {cause : FailCause} {s : State} (hc : cause ≠ .timeout) :
    OpenFailed x k d cause s (failedOpen x k d cause (cancelTxn n s)) ∧
      OpenCancelled n s (failedOpen x k d cause (cancelTxn n s)) := by
  have hstep := cancelTxn_step n s
  have hfail := failedOpen_failed (x := x) (k := k) (s := cancelTxn n s) d hc
  refine ⟨⟨hfail.call, fun y hy => (hfail.others y hy).trans (hstep.call y), hstep.slots.trans hfail.slots,
    hfail.closes.of_step hstep, fun hu hr => ?_, hfail.handset.of_cancelled⟩,
    (cancelTxn_cancelled n s).kept (failedOpen_answers _ _ _ _ _) (failedOpen_opens _ _ _ _ _)⟩
  rw [← hstep.trunk] at hu hr ⊢
  exact hfail.answer hu hr

/-! ### The target of an established call (R124, R135) -/

/-- A fallback that cancels the target's open. -/
theorem fallback_cancelled (x : Channel) (k : Call) (l : Leg) (c : CellIx) (n : Txn) (s : State) :
    OpenCancelled n s (fallback x k l c (.cancel n) s) := by
  have hstep : OpensFrom (cancelOpen s (c, n)) (targetLeft x c (.cancel n) s) :=
    (withdrawHo_step x (abandonTarget x c (.cancel n) s)).opensFrom
  refine (cancelOpen_cancelled s (c, n)).kept (fallback_answers x k l c (.cancel n) s) ?_
  rw [fallback_eq]
  generalize targetLeft x c (.cancel n) s = u at hstep ⊢
  exact hstep.trans (.of_ports rfl)

theorem LossCause.targetEnd_closed (cause : LossCause) (c : CellIx) :
    cause.targetEnd.closed c = if cause = .linkDown then [] else [c] := by cases cause <;> rfl

/-- A lost target leg is closed or lost, and no pending answer changes. -/
theorem fallback_loss_answers (x : Channel) (k : Call) (l : Leg) (c : CellIx) (cause : LossCause) (s : State) :
    (fallback x k l c cause.targetEnd s).answers = s.answers := by
  rw [fallback_answers]
  cases cause with
  | linkDown => exact releaseSlot_answers c s
  | cellDisabled => exact closeLeg_answers x s c
  | cellDrained => exact closeLeg_answers x s c

/-! ### The share of a context, by what it loses -/

section
variable {lost : CellIx → Bool} {cause : LossCause} {x : Channel} {s : State} {k : Call} (hk : s.call x = some k)
include hk

/-- A context whose serving leg is kept loses nothing more, once its target is settled. -/
theorem loseServing_kept (ho : ∀ d n, k.phase = .opening d n → lost d = false)
    (hs : ∀ l, k.phase.serving = some l → lost l.cell = false) : loseServing lost cause x s = s := by
  cases hserve : k.phase.serving with
  | some l =>
    rw [loseServing_serving hk hserve]
    exact if_neg (by rw [hs l hserve]; nofun)
  | none =>
    by_cases hopen : ∃ d n, k.phase = .opening d n
    · obtain ⟨d, n, hp⟩ := hopen
      rw [loseServing_opening hk hp]
      exact if_neg (by rw [ho d n hp]; nofun)
    · exact loseServing_unserved hk (fun d n hp => hopen ⟨d, n, hp⟩) hserve

theorem loss_nothing (ho : ∀ d n, k.phase = .opening d n → lost d = false)
    (hs : ∀ l, k.phase.serving = some l → lost l.cell = false)
    (ht : ∀ r, k.phase.target = some r → lost r.cell = false) : lossAtContext lost cause x s = s := by
  rw [lossAtContext_eq, loseTarget_kept hk ht]
  exact loseServing_kept hk ho hs

theorem loss_opening {d : CellIx} {n : Txn} (hp : k.phase = .opening d n) (hd : lost d = true) :
    lossAtContext lost cause x s = failedOpen x k d cause.fail (cancelTxn n s) := by
  have ht : ∀ r, k.phase.target = some r → lost r.cell = false := fun r hr => by
    rw [hp] at hr
    cases hr
  rw [lossAtContext_eq, loseTarget_kept hk ht, loseServing_opening hk hp]
  exact if_pos hd

omit hk in
/-- A context that has fallen back to a kept serving leg loses nothing more. -/
theorem loseServing_fallen {l : Leg} {c : CellIx} {how : TargetEnd} (hl : lost l.cell = false) :
    loseServing lost cause x (fallback x k l c how s) = fallback x k l c how s :=
  loseServing_kept (fallback_fellBack x k l c how s).call nofun fun m hm => by
    cases hm
    exact hl

theorem loss_preparing {l : Leg} {g : Option Time} {r : Target} {n : Txn} (hp : k.phase = .preparing l g r n)
    (hr : lost r.cell = true) (hl : lost l.cell = false) :
    lossAtContext lost cause x s = fallback x k l r.cell (.cancel n) s := by
  rw [lossAtContext_eq, loseTarget_preparing hk hp hr]
  exact loseServing_fallen hl

theorem loss_bridging {l : Leg} {g : Option Time} {r : Target} {sl : Slot} {d : Time}
    (hp : k.phase = .bridging l g r sl d) (hr : lost r.cell = true) (hl : lost l.cell = false) :
    lossAtContext lost cause x s = fallback x k l r.cell cause.targetEnd s := by
  rw [lossAtContext_eq, loseTarget_bridging hk hp hr]
  exact loseServing_fallen hl

/-- A context that keeps its target goes on to its serving leg. -/
theorem loss_serving {l : Leg} (hl : k.phase.serving = some l) (hlost : lost l.cell = true)
    (ht : ∀ r, k.phase.target = some r → lost r.cell = false) : lossAtContext lost cause x s = servedLoss cause x s := by
  rw [lossAtContext_eq, loseTarget_kept hk ht, loseServing_serving hk hl]
  exact if_pos hlost

end

end Sys2Proof.Machine
end

section
/-! PROOFS. A rescue attempt whose target is lost (R133, R135, R147): its open is cancelled, and the chain that passes it on
neither offers that open again nor frees its marked entry. -/

namespace Sys2Proof.Machine

/-! ### What an admitted attempt adds -/

section
variable {y : Channel} {d : CellIx} {h : Hid} {s w : State} {v : Option CtlFrame}

theorem attempted_call (ha : Admits y d h .rescue s v w) {z : Channel} {k : Call}
    (hk : (attempted y d s w).call z = some k) : ∃ j, s.call z = some j ∧ k.candidates = j.candidates ∧
      (z ≠ y → k = j) ∧ ((∃ a e, j.phase = .rescuing a e) → ∃ a e, k.phase = .rescuing a e) := by
  have hcall : ∀ z, (allocateTxn s.nextTxn y d w).call z = s.call z := State.call_congr ha.calls
  unfold attempted beginAttempt at hk
  rw [State.call_modCall] at hk
  split at hk
  · next hz =>
    obtain ⟨j, hj, rfl⟩ := Option.map_eq_some_iff.1 hk
    refine ⟨j, hz ▸ (hcall y).symm.trans hj, ?_, fun hne => absurd hz hne, fun ⟨a, e, hp⟩ => ?_⟩
    · split <;> rfl
    · rw [hp]
      exact ⟨_, _, rfl⟩
  · exact ⟨k, (hcall z).symm.trans hk, rfl, fun _ => rfl, id⟩

theorem attempted_queued (ha : Admits y d h .rescue s v w) {p : PortIx} {o : CtlFrame}
    (ho : o ∈ ((attempted y d s w).port p).ctl) : o ∈ (s.port p).ctl ∨ o = .legOpen d s.nextTxn y h .rescue := by
  obtain ⟨rest, hrest, -, hw⟩ := ha.queue
  have hport : (attempted y d s w).port p = w.port p := rfl
  rw [hport, hw, State.port_setPort] at ho
  split at ho
  · next hp =>
    subst hp
    exact (List.mem_append.1 ho).imp (hrest o) List.mem_singleton.1
  · exact .inl ho

theorem attempted_answers (ha : Admits y d h .rescue s v w) : ∃ t, (attempted y d s w).answers =
    s.answers ++ [⟨s.nextTxn, y, d, t, false⟩] := by
  obtain ⟨rest, -, -, hw⟩ := ha.queue
  have hans : w.answers = s.answers := by
    rw [hw]
    rfl
  exact ⟨_, congrArg (· ++ _) hans⟩

theorem Admits.evicted (ha : Admits y d h .rescue s v w) {f : CtlFrame} (hf : v = some f) :
    f ∈ (s.port (portOf d)).ctl := by
  obtain ⟨rest, -, hv, -⟩ := ha.queue
  exact hv f hf

end

theorem HandedBack.opens {s u : State} (h : HandedBack s u) (y : Channel) (d : CellIx) (code : HoCode) :
    OpensFrom s (dropCandidate y d (countRefusal code u)) := by
  have hports : u.ports = s.ports := by rw [h.only]
  exact .of_ports hports

/-! ### A context in RESCUING ends or stays so -/

/-- The context of a channel is IDLE or RESCUING. -/
def State.RescuesAt (x : Channel) (s : State) : Prop := ∀ k, s.call x = some k → ∃ a d, k.phase = .rescuing a d

section
variable {x y : Channel} {s t : State}

theorem State.RescuesAt.of_one (h : s.RescuesAt x) (ho : ∀ z, z ≠ y → t.call z = s.call z)
    (hy : x = y → t.RescuesAt y) : t.RescuesAt x := fun k hk => by
  by_cases hxy : x = y
  · subst hxy
    exact hy rfl k hk
  · exact h k ((ho x hxy).symm.trans hk)

theorem State.RescuesAt.of_phases (h : s.RescuesAt x) (hp : PhasesKept s t) : t.RescuesAt x := fun k hk => by
  have hx := hp x
  rw [hk] at hx
  obtain ⟨j, hj, hjk⟩ := Option.map_eq_some_iff.1 hx.symm
  obtain ⟨a, d, hr⟩ := h j hj
  exact ⟨a, d, hjk.symm.trans hr⟩

end

/-- The chain that passes a rescue on leaves a RESCUING context so, or IDLE. -/
theorem rescuesAt_chain {x : Channel} : ChainInv (State.RescuesAt x) (fun _ _ _ => True) fun _ => True where
  dropped := fun cause lost h _ => h.of_one (fun z hz => dropCall_others hz cause lost _) fun _ k hk => by
    rw [dropCall_call] at hk
    cases hk
  failed := fun {s y k d n} cause h _ _ => h.of_one
    (fun z hz => (failedOpen_call y k d cause s z).trans (if_neg hz)) fun _ j hj => by
      rw [failedOpen_call, if_pos rfl] at hj
      cases hj
  fallen := fun {s y k l g r n} h hk hp => h.of_one (fallback_fellBack y k l r.cell .gone s).others fun hxy => by
    subst hxy
    obtain ⟨a, d, hr⟩ := h k hk
    rw [hp] at hr
    cases hr
  ended := fun {s y k r n d} h hk _ => h.of_one (fun z hz => (endAttempt_call y k r.cell d s z).trans (if_neg hz))
    fun _ j hj => by
      rw [endAttempt_call, if_pos rfl] at hj
      cases hj
      exact ⟨_, _, rfl⟩
  freed := fun h _ => h
  best := fun _ _ _ => trivial
  refused := fun {s y d u} code h hu => (h.of_phases (.of_calls hu.calls)).of_phases
    (dropCandidate_phases y d (countRefusal code u))
  admitted := fun h _ _ _ ha k hk => by
    obtain ⟨j, hj, -, -, hr⟩ := attempted_call ha hk
    exact hr (h j hj)
  victim := fun _ _ _ _ _ _ => trivial

/-! ### The cancelled open is not offered again -/

/-- The candidates of a channel's context are some of those it had. -/
def CandidatesFrom (x : Channel) (s t : State) : Prop :=
  ∀ k, t.call x = some k → ∃ j, s.call x = some j ∧ ∀ b ∈ k.candidates, ∃ e ∈ j.candidates, e.cell = b.cell

theorem CandidatesFrom.of_one {x y : Channel} {s t : State} (ho : ∀ z, z ≠ y → t.call z = s.call z)
    (hy : CandidatesFrom y s t) : CandidatesFrom x s t := fun k hk => by
  by_cases hxy : x = y
  · subst hxy
    exact hy k hk
  · exact ⟨k, (ho x hxy).symm.trans hk, fun b hb => ⟨b, hb, rfl⟩⟩

/-- The queue of its port holds no LEG-OPEN of transaction `n` of channel `x` toward cell `c`, which is no candidate
of its context. -/
structure Unoffered (x : Channel) (c : CellIx) (n : Txn) (s : State) : Prop where
  clear : ∀ k, s.call x = some k → ∀ b ∈ k.candidates, b.cell ≠ c
  absent : ∀ h role, .legOpen c n x h role ∉ (s.port (portOf c)).ctl

theorem Unoffered.of_fewer {x : Channel} {c : CellIx} {n : Txn} {s t : State} (h : Unoffered x c n s) (ho : OpensFrom s t)
    (hc : CandidatesFrom x s t) : Unoffered x c n t where
  clear := fun k hk b hb => by
    obtain ⟨j, hj, hfrom⟩ := hc k hk
    obtain ⟨e, he, heb⟩ := hfrom b hb
    exact heb ▸ h.clear j hj e he
  absent := fun hid role hm => h.absent hid role (ho _ _ hm n rfl)

theorem freeAnswer_opens (a : Answer) (s : State) : OpensFrom s (freeAnswer a s) := (freeAnswer_step a s).opensFrom

theorem unoffered_chain {x : Channel} {c : CellIx} {n : Txn} :
    ChainInv (Unoffered x c n) (fun y d _ => y = x → d ≠ c) fun _ => True where
  dropped := fun {s y} cause lost h _ => h.of_fewer (dropCall_opens y cause lost s)
    (.of_one (fun z hz => dropCall_others hz cause lost s) fun k hk => by
      rw [dropCall_call] at hk
      cases hk)
  failed := fun {s y k d m} cause h _ _ => h.of_fewer (failedOpen_opens y k d cause s)
    (.of_one (fun z hz => (failedOpen_call y k d cause s z).trans (if_neg hz)) fun j hj => by
      rw [failedOpen_call, if_pos rfl] at hj
      cases hj)
  fallen := fun {s y k l g r m} h hk _ => h.of_fewer (fallback_opens y k l r.cell .gone s)
    (.of_one (fallback_fellBack y k l r.cell .gone s).others fun j hj => by
      rw [(fallback_fellBack y k l r.cell .gone s).call] at hj
      cases hj
      refine ⟨k, hk, fun b hb => ?_⟩
      obtain ⟨e, he, rfl⟩ := List.mem_map.1 hb
      exact ⟨e, he, by split <;> rfl⟩)
  ended := fun {s y k r m d} h hk _ => h.of_fewer (endAttempt_opens y k r.cell d s)
    (.of_one (fun z hz => (endAttempt_call y k r.cell d s z).trans (if_neg hz)) fun j hj => by
      rw [endAttempt_call, if_pos rfl] at hj
      cases hj
      exact ⟨k, hk, fun b hb => ⟨b, (List.mem_filter.1 hb).1, rfl⟩⟩)
  freed := fun {s a} h _ => h.of_fewer (freeAnswer_opens a s) fun k hk => ⟨k, hk, fun b hb => ⟨b, hb, rfl⟩⟩
  best := fun h hk hb hyx => h.clear _ (hyx ▸ hk) _ (bestCandidate_mem hb)
  refused := fun {s y d u} code h hu => h.of_fewer (hu.opens y d code) fun k hk => by
    rw [dropCandidate_call] at hk
    split at hk
    · next hx =>
      obtain ⟨j, hj, rfl⟩ := Option.map_eq_some_iff.1 hk
      exact ⟨j, (State.call_congr hu.calls x).symm.trans (hx ▸ hj), fun b hb => ⟨b, (List.mem_filter.1 hb).1, rfl⟩⟩
    · exact ⟨k, (State.call_congr hu.calls x).symm.trans hk, fun b hb => ⟨b, hb, rfl⟩⟩
  admitted := fun h _ _ ht ha => ⟨fun k hk => by
      obtain ⟨j, hj, hcs, -⟩ := attempted_call ha hk
      exact hcs ▸ h.clear j hj, fun hid role hm => by
      rcases attempted_queued ha hm with hq | he
      · exact h.absent hid role hq
      · cases he
        exact ht rfl rfl⟩
  victim := fun _ _ _ _ _ _ => trivial

/-! ### The marked entry stays -/

/-- An entry of transaction `n` stands, and no queue holds a LEG-OPEN of that transaction. -/
structure Marked (m : Answer) (n : Txn) (s : State) : Prop where
  entry : m ∈ s.answers
  sent : ∀ p, ∀ o ∈ (s.port p).ctl, o.openTxn ≠ some n

theorem Marked.of_same {m : Answer} {n : Txn} {s t : State} (h : Marked m n s) (ha : t.answers = s.answers)
    (ho : OpensFrom s t) : Marked m n t := ⟨ha.symm ▸ h.entry, fun p o hm hn => h.sent p o (ho p o hm n hn) hn⟩

theorem marked_chain {m : Answer} {n : Txn} (hm : m.txn = n) :
    ChainInv (Marked m n) (fun _ _ _ => True) fun k => k ≠ n where
  dropped := fun {s y} cause lost h hn => h.of_same (dropCall_answers hn cause lost) (dropCall_opens y cause lost s)
  failed := fun {s y k d i} cause h _ _ => h.of_same (failedOpen_answers _ _ _ _ _) (failedOpen_opens y k d cause s)
  fallen := fun {s y k l g r i} h _ _ => h.of_same
    ((fallback_answers _ _ _ _ _ _).trans (releaseSlot_answers r.cell s)) (fallback_opens y k l r.cell .gone s)
  ended := fun {s y k r i d} h _ _ => h.of_same (endAttempt_answers _ _ _ _ _) (endAttempt_opens y k r.cell d s)
  freed := fun {s a} h ha => ⟨by
      rw [freeAnswer_answers]
      exact List.mem_filter.2 ⟨h.entry, decide_eq_true fun he => ha (he.symm.trans hm)⟩,
    fun p o ho hn => h.sent p o (freeAnswer_opens a s p o ho n hn) hn⟩
  best := fun _ _ _ => trivial
  refused := fun {s y d u} code h hu => h.of_same (by
      change u.answers = s.answers
      rw [hu.only]) (hu.opens y d code)
  admitted := fun {s y k d hid v w} h _ _ _ ha => ⟨by
      obtain ⟨t, hans⟩ := attempted_answers ha
      rw [hans]
      exact List.mem_append_left _ h.entry, fun p o ho hn => by
      rcases attempted_queued ha ho with hq | rfl
      · exact h.sent p o hq hn
      · exact nextTxn_free ha.number.le m h.entry (hm.trans (Option.some.inj hn).symm)⟩
  victim := fun h ha f i hf hi he => h.sent _ f (ha.evicted hf) (hi.trans (congrArg some he))

end Sys2Proof.Machine
end

section
/-! PROOFS. The loss of the target of a rescue attempt (R133, R135): the attempt passes on, and its open is cancelled. -/

namespace Sys2Proof.Machine

/-! ### The cancellation of the attempt's open -/

theorem cancelTxn_stays {n : Txn} {s : State} {p : PortIx} {f : CtlFrame} (hf : f ∈ (s.port p).ctl)
    (hn : f.openTxn = none) : f ∈ ((cancelTxn n s).port p).ctl := by
  unfold cancelTxn
  split
  · exact hf
  · split
    · exact hf
    · split
      · exact freeAnswer_stays hf hn
      · exact hf

theorem cancelTxn_length (n : Txn) (s : State) : (cancelTxn n s).answers.length ≤ s.answers.length := by
  unfold cancelTxn
  split
  · exact le_rfl
  · split
    · exact le_rfl
    · split
      · rw [freeAnswer_answers]
        exact List.length_filter_le _ _
      · exact (List.length_map _).le

section
variable {n : Txn} {s : State} {a : Answer} (ha : s.answerOf n = some a) (hc : a.cancelled = false)
include ha hc

/-- An entry that waits for an answer does not outlast the cancellation as it is. -/
theorem cancelTxn_ended : a ∉ (cancelTxn n s).answers := fun hm => by
  have htxn := answerOf_txn ha
  obtain ⟨hqueued, hsent⟩ := cancelTxn_cancelled n s a ha hc
  by_cases hq : ∃ o ∈ (s.port (portOf a.cell)).ctl, o.openTxn = some n
  · rw [(hqueued hq).1] at hm
    exact of_decide_eq_true (List.mem_filter.1 hm).2 htxn
  · rw [hsent fun o ho hn => hq ⟨o, ho, hn⟩] at hm
    obtain ⟨b, -, hb⟩ := List.mem_map.1 hm
    split at hb
    · rw [← hb] at hc
      cases hc
    · next hne => exact hne (hb ▸ htxn)

/-- Where its LEG-OPEN still waits, it is not marked either. -/
theorem cancelTxn_unmarked (hq : ∃ o ∈ (s.port (portOf a.cell)).ctl, o.openTxn = some n) :
    { a with cancelled := true } ∉ (cancelTxn n s).answers := fun hm => by
  have htxn : a.txn = n := answerOf_txn ha
  obtain ⟨hqueued, -⟩ := cancelTxn_cancelled n s a ha hc
  rw [(hqueued hq).1] at hm
  exact of_decide_eq_true (List.mem_filter.1 hm).2 htxn

/-- Where none waits, it is marked. -/
theorem cancelTxn_marked (hq : ∀ p, ∀ o ∈ (s.port p).ctl, o.openTxn ≠ some n) :
    Marked { a with cancelled := true } n (cancelTxn n s) where
  entry := by
    obtain ⟨-, hsent⟩ := cancelTxn_cancelled n s a ha hc
    rw [hsent (hq _)]
    exact List.mem_map.2 ⟨a, List.mem_of_find?_eq_some ha, if_pos (answerOf_txn ha)⟩
  sent := fun p o ho hn => hq p o ((cancelTxn_step n s).opensFrom p o ho n hn) hn

end

/-! ### The end of the attempt -/

theorem cancelTxn_cells (n : Txn) (s : State) : (cancelTxn n s).cells = s.cells := by
  unfold cancelTxn
  split
  · rfl
  · split
    · rfl
    · split <;> rfl

theorem endAttempt_port (x : Channel) (k : Call) (c : CellIx) (d : Time) (s : State) (p : PortIx) :
    (endAttempt x k c d s).port p = (releaseSlot c s).port p := rfl

theorem endAttempt_cells (x : Channel) (k : Call) (c : CellIx) (d : Time) (s : State) :
    (endAttempt x k c d s).cells = (releaseSlot c s).cells := rfl

theorem cancelled_left {x : Channel} {k : Call} {s : State} (hk : s.call x = some k) (n : Txn) (c : CellIx) (d : Time) :
    AttemptLeft x k c d s (endAttempt x k c d (cancelTxn n s)) := by
  have hw := cancelTxn_step n s
  have hcall : (cancelTxn n s).call x = some k := (hw.call x).trans hk
  have hcells : (cancelTxn n s).cell c = s.cell c := by
    unfold State.cell
    rw [cancelTxn_cells]
  have hstep := hw.trans (releaseSlot_step c (cancelTxn n s))
  refine ⟨?_, (cancelTxn_setting n s).trans (endAttempt_moves (P := fun _ => False) hcall c d).raws.setting,
    hstep.device, hstep.record, hstep.slots.congr (endAttempt_cells x k c d _), fun p => ?_, ?_, fun h p => ?_⟩
  · rw [endAttempt_call, if_pos rfl, filter_without]
  · rw [endAttempt_port]
    exact (hstep.ports p).length
  · rw [endAttempt_answers]
    exact cancelTxn_length n s
  · have hports : (endAttempt x k c d (cancelTxn n s)).port p = (cancelTxn n s).port p := by
      rw [endAttempt_port]
      unfold State.port
      rw [releaseSlot_ports (by rwa [hcells])]
    rw [hports]
    exact ⟨(hw.ports p).length, fun f hf hn => cancelTxn_stays hf hn⟩

/-! ### The attempt passes on -/

section
variable {x : Channel} {k : Call} {c : CellIx} {n : Txn} {d : Time} {s t : State} (hk : s.call x = some k)
  (ht : t = nextCandidate x (endAttempt x k c d (cancelTxn n s)))
include hk ht

theorem cancelled_from : PassedFrom (cancelTxn n s).answers x c t := by
  have hleft := cancelled_left hk n c d
  rw [ht]
  refine PassedFrom.nextCandidate ⟨fun j hj b hb => ?_, fun b hb => .inl ?_⟩ (endAttempt_noOpen x k c d _)
  · rw [hleft.call] at hj
    cases hj
    exact without_ne hb
  · rwa [endAttempt_answers] at hb

theorem attemptLost_passed (hs : s.Inv) : AttemptPassed x k c n d s t where
  freed := fun a ha hc hch hcell hm => ((cancelled_from hk ht).answers a hm).elim (cancelTxn_ended ha hc)
    fun ⟨_, hno⟩ => hno ⟨hch, hcell⟩
  next := fun _ _ _ hb he hat htake hroom => attempt_next (cancelled_left hk n c d) ht hb he hat htake hroom
  ended := attempt_ended (cancelled_left hk n c d) (hs.contexts x k hk) ht

theorem attemptLost_cancelled : AttemptCancelled x c n s t := fun a ha hc hch hcell => by
  have hleft := cancelled_left hk n c d
  have hnone := endAttempt_noOpen x k c d (cancelTxn n s)
  have hopens := endAttempt_opens x k c d (cancelTxn n s)
  subst hcell
  refine ⟨fun hq => ⟨fun hm => ?_, fun h role => ?_⟩, fun hq => ?_⟩
  · exact ((cancelled_from hk ht).answers _ hm).elim (cancelTxn_unmarked ha hc hq) fun ⟨hf, _⟩ => nomatch hf
  · have hfrom : Unoffered x a.cell n (endAttempt x k a.cell d (cancelTxn n s)) := by
      refine ⟨fun j hj b hb => ?_, fun hid role' hm => ?_⟩
      · rw [hleft.call] at hj
        cases hj
        exact without_ne hb
      · obtain ⟨hqueued, -⟩ := cancelTxn_cancelled n s a ha hc
        exact (hqueued hq).2 _ (hopens _ _ hm n rfl) rfl
    rw [ht]
    exact (unoffered_chain.nextCandidate hfrom hnone).absent h role
  · have hfrom : Marked { a with cancelled := true } n (endAttempt x k a.cell d (cancelTxn n s)) :=
      (cancelTxn_marked ha hc hq).of_same (endAttempt_answers _ _ _ _ _) hopens
    have htxn : ({ a with cancelled := true } : Answer).txn = n := answerOf_txn (a := a) ha
    rw [ht]
    exact ((marked_chain htxn).nextCandidate hfrom hnone).entry

end

/-- After the share of an attempt's target, its context has no open or serving leg to lose. -/
theorem loss_rescuing {lost : CellIx → Bool} {cause : LossCause} {x : Channel} {s : State} {k : Call} {r : Target} {n : Txn}
    {d : Time} (hk : s.call x = some k) (hp : k.phase = .rescuing (some (r, n)) d) (hl : lost r.cell = true) :
    lossAtContext lost cause x s = nextCandidate x (endAttempt x k r.cell d (cancelTxn n s)) := by
  rw [lossAtContext_eq, loseTarget_rescuing hk hp hl]
  have hstart : (endAttempt x k r.cell d (cancelTxn n s)).RescuesAt x := fun j hj => by
    rw [endAttempt_call, if_pos rfl] at hj
    cases hj
    exact ⟨_, _, rfl⟩
  have hend := rescuesAt_chain.nextCandidate hstart (endAttempt_noOpen x k r.cell d _)
  generalize nextCandidate x (endAttempt x k r.cell d (cancelTxn n s)) = u at hend ⊢
  cases hj : u.call x with
  | none => exact loseServing_idle hj
  | some j =>
    obtain ⟨a, e, hr⟩ := hend j hj
    exact loseServing_unserved hj (fun _ _ ho => by rw [hr] at ho; cases ho) (by rw [hr]; rfl)

end Sys2Proof.Machine
end

section
/-! PROOFS. The loss of the serving leg of a call (R84, R94, R95): by a disable or a drain it ends the call, by a line-down it
ends an ACTIVE call or begins its rescue. -/

namespace Sys2Proof.Machine

theorem SlotsReleased.swap {c d : CellIx} {s t : State} (h : SlotsReleased [c, d] s t) : SlotsReleased [d, c] s t :=
  fun e => by
    rw [h e, (List.Perm.swap d c []).count_eq e]

/-! ### The end of a call with its legs and opens (R82) -/

theorem dropCall_closes {x : Channel} {k : Call} {s : State} (hk : s.call x = some k) (cause : DropCause) (lost : Bool) :
    LegsClosed x (k.phase.legCells lost) s (dropCall x cause lost s) := by
  have hports : (dropCall x cause lost s).ports =
      (endCall x k lost cause.form (s.count fun d => { d with drops := d.drops.bump cause })).ports := by
    rw [dropCall_eq hk, reply_ports]
  refine (ClosesAdded.legs (t := endCall x k lost cause.form (s.count fun d => { d with drops := d.drops.bump cause }))
    (endCall_ended x k lost cause.form _).closes).congr fun p => ?_
  unfold State.port
  rw [hports]

theorem closeLegs_answers (x : Channel) (cs : List CellIx) (s : State) : (cs.foldl (closeLeg x) s).answers = s.answers := by
  induction cs generalizing s with
  | nil => rfl
  | cons c cs ih => exact (ih _).trans (closeLeg_answers x s c)

theorem legsEnded_cancelled {x : Channel} {k : Call} {c : CellIx} {n : Txn} (ho : k.phase.opens = [(c, n)]) (lost : Bool)
    (s : State) : OpenCancelled n s (legsEnded x k lost s) := by
  have h := cancelOpen_cancelled s (c, n)
  unfold legsEnded
  rw [ho, List.foldl_cons, List.foldl_nil]
  generalize cancelOpen s (c, n) = u at h ⊢
  exact (h.kept (withdrawHo_answers x u) (withdrawHo_step x u).opensFrom).kept (closeLegs_answers x _ _)
    (foldl_closeLeg_step x _ _).opensFrom

theorem endCall_cancels {x : Channel} {k : Call} {c : CellIx} {n : Txn} (ho : k.phase.opens = [(c, n)]) (lost : Bool)
    (form : ReleaseForm) (s : State) : OpenCancelled n s (endCall x k lost form s) := by
  have hlegs : OpenCancelled n (hrqRemove x s) (legsEnded x k lost (hrqRemove x s)) := legsEnded_cancelled ho lost _
  have hh := releaseHandset_step form k.handset (legsEnded x k lost (hrqRemove x s))
  have hend : OpenCancelled n (hrqRemove x s) (endCall x k lost form s) := by
    rw [endCall_eq]
    refine hlegs.kept ?_ (hh.opensFrom.trans (.of_ports rfl))
    change (releaseHandset form k.handset _).answers = _
    rw [hh.only]
  generalize endCall x k lost form s = t at hend
  rw [hrqRemove_only] at hend
  exact hend

/-- A dropped call cancels its open, also where it has a leg. -/
theorem dropCall_cancels {x : Channel} {k : Call} {s : State} {c : CellIx} {n : Txn} (hk : s.call x = some k)
    (ho : k.phase.opens = [(c, n)]) (cause : DropCause) (lost : Bool) : OpenCancelled n s (dropCall x cause lost s) := by
  have h : OpenCancelled n s (endCall x k lost cause.form (s.count fun d => { d with drops := d.drops.bump cause })) :=
    endCall_cancels ho lost cause.form (s.count fun d => { d with drops := d.drops.bump cause })
  rw [dropCall_eq hk]
  exact h.kept (reply_answers _ _) (.of_ports (reply_ports _ _))

/-! ### An ACTIVE call that loses its leg without a close (R94) -/

/-- What may come before the loss of the leg of channel `x` in the same event: at most one frame offered to each port. -/
structure BeforeLoss (x : Channel) (s v : State) : Prop where
  setting : SettingKept s v
  records : ∀ i, v.record i = s.record i
  lengths : ∀ p, (v.port p).ctl.length ≤ (s.port p).ctl.length + 1
  hrq : v.hrq = s.hrq
  drops : v.device.drops = s.device.drops
  trunk : v.trunk = s.trunk
  others : ∀ y, y ≠ x → v.call y = s.call y

theorem BeforeLoss.refl (x : Channel) (s : State) : BeforeLoss x s s :=
  ⟨.refl s, fun _ => rfl, fun _ => Nat.le_succ _, rfl, rfl, rfl, fun _ _ => rfl⟩

/-- The release of the handset of a call that ends with no leg and no open left. -/
theorem endCall_unlegged {x : Channel} {k : Call} {lost : Bool} {s u : State} (hs : SettingKept s u)
    (hr : ∀ j, u.record j = s.record j) (hp : ∀ p, (u.port p).ctl.length ≤ (s.port p).ctl.length + 3)
    (ho : k.phase.opens = []) (hl : k.phase.legCells lost = []) :
    HandsetReleased k.handset s (endCall x k lost .recheck u) := by
  have hended : legsEnded x k lost (hrqRemove x u) = withdrawHo x (hrqRemove x u) := by
    unfold legsEnded
    rw [ho, hl, List.foldl_nil, List.foldl_nil]
  have hstep := withdrawHo_step x (hrqRemove x u)
  have hports : (hrqRemove x u).ports = u.ports := by rw [hrqRemove_only]
  have hset := (hs.trans (hrqRemove_setting x u)).trans (legsEnded_setting x k lost _)
  rw [hended] at hset
  have h := releaseRecheck_handset (i := k.handset) hset (fun j => by
      rw [hstep.record, ← hr]
      unfold State.record
      rw [hrqRemove_records])
    (fun p => by
      have h1 := (hstep.ports p).length
      have h2 := hp p
      unfold State.port at h1 h2 ⊢
      rw [hports] at h1
      omega)
  rw [endCall_eq, hended]
  exact ⟨⟨h.kept, h.revoked⟩, h.told⟩

section
variable {x : Channel} {cause : DropCause} {s v : State} {k : Call} {l : Leg} {g : Option Time} (hv : BeforeLoss x s v)
  (hk : v.call x = some k) (hp : k.phase = .active l g)
include hk hp

/-- Without a candidate the call is dropped. -/
theorem activeLost_dropped (hv : BeforeLoss x s v) (hf : cause.form = .recheck) (hc : k.candidates = []) :
    CallDropped x k cause s (servingLegLoss x cause v) ∧
      (servingLegLoss x cause v).device.fallbacks = v.device.fallbacks := by
  have hrel := releaseSlot_step l.cell v
  have hcall : (releaseSlot l.cell v).call x = some k := (hrel.call x).trans hk
  have hdrop := dropCall_dropped hcall hf true
  rw [servingLegLoss_dropped hk hp hc]
  have hreleased : HandsetReleased k.handset s (dropCall x cause true (releaseSlot l.cell v)) := by
    have h := endCall_unlegged (x := x) (k := k) (lost := true)
      (u := (releaseSlot l.cell v).count fun d => { d with drops := d.drops.bump cause })
      ((hv.setting.trans (releaseSlot_moves (P := fun _ => False) l.cell v).raws.setting).trans
        { SettingKept.refl (releaseSlot l.cell v) with })
      (fun j => (hrel.record j).trans (hv.records j))
      (fun p => by
        have h1 : ((releaseSlot l.cell v).port p).ctl.length ≤ _ := (hrel.ports p).length
        have h2 := hv.lengths p
        change ((releaseSlot l.cell v).port p).ctl.length ≤ _
        omega) (by rw [hp]; rfl) (by rw [hp]; rfl)
    rw [dropCall_eq hcall, hf]
    exact h.congr (reply_records (.callDrop x cause) _) (reply_ports (.callDrop x cause) _)
  refine ⟨⟨hdrop.call, fun y hy => (hdrop.others y hy).trans ((hrel.call y).trans (hv.others y hy)), ?_, ?_,
    fun hu hr => ?_, hreleased⟩, (dropCall_device hcall cause true).1.trans (by rw [hrel.device])⟩
  · rw [hdrop.hrq, hrel.hrq, hv.hrq]
  · rw [hdrop.drops, hrel.device, hv.drops]
  · have ht : (releaseSlot l.cell v).trunk = s.trunk := hrel.trunk.trans hv.trunk
    rw [← ht] at hu hr ⊢
    exact hdrop.answer hu hr

/-- With a candidate its rescue begins. -/
theorem activeLost_rescued (hv : BeforeLoss x s v) {b : Candidate} (hb : bestCandidate k.candidates = some b) :
    RescueBegins x k b.cell v.device s (servingLegLoss x cause v) := by
  have hrel := releaseSlot_step l.cell v
  have hcall : rescuedCall v k = rescuedCall s k := by
    unfold rescuedCall inMs
    rw [hv.setting.now, hv.setting.config]
  rw [servingLegLoss_posted hk hp hb, hcall, hv.setting.now]
  refine ⟨_, rfl, hrel.hrq.trans hv.hrq, hrel.device, fun y hy => ?_, State.call_setCall_self _ _ _⟩
  exact (State.call_setCall_ne _ hy _).trans ((hrel.call y).trans (hv.others y hy))

theorem activeLost_slots : SlotsReleased [l.cell] v (servingLegLoss x cause v) := by
  have hrel := releaseSlot_step l.cell v
  have hcall : (releaseSlot l.cell v).call x = some k := (hrel.call x).trans hk
  cases hb : bestCandidate k.candidates with
  | none =>
    have hdrop := dropCall_slots hcall cause true
    rw [servingLegLoss_dropped hk hp (bestCandidate_none hb)]
    rw [hp] at hdrop
    exact hrel.slots.trans hdrop
  | some b =>
    rw [servingLegLoss_posted hk hp hb, (hrqPost_request _ _).only]
    exact hrel.slots.congr rfl

theorem activeLost_closes : LegsClosed x [] v (servingLegLoss x cause v) := by
  have hrel := releaseSlot_step l.cell v
  have hcall : (releaseSlot l.cell v).call x = some k := (hrel.call x).trans hk
  cases hb : bestCandidate k.candidates with
  | none =>
    have hdrop := dropCall_closes hcall cause true
    rw [servingLegLoss_dropped hk hp (bestCandidate_none hb)]
    rw [hp] at hdrop
    exact hdrop.of_step hrel
  | some b =>
    rw [servingLegLoss_posted hk hp hb, (hrqPost_request _ _).only]
    exact (ClosesAdded.legs (cs := []) hrel.closes).congr fun _ => rfl

/-- It has no open to touch. -/
theorem activeLost_opens : (servingLegLoss x cause v).answers = v.answers ∧ OpensFrom v (servingLegLoss x cause v) := by
  have hrel := releaseSlot_step l.cell v
  have hcall : (releaseSlot l.cell v).call x = some k := (hrel.call x).trans hk
  cases hb : bestCandidate k.candidates with
  | none =>
    rw [servingLegLoss_dropped hk hp (bestCandidate_none hb)]
    refine ⟨(dropCall_answers (fun j hj => ?_) cause true).trans (releaseSlot_answers l.cell v),
      hrel.opensFrom.trans (dropCall_opens x cause true _)⟩
    obtain rfl : k = j := Option.some.inj (hcall.symm.trans hj)
    rw [hp]
    rfl
  | some b =>
    rw [servingLegLoss_posted hk hp hb, (hrqPost_request _ _).only]
    exact ⟨releaseSlot_answers l.cell v, hrel.opensFrom.trans (.of_ports rfl)⟩

end

end Sys2Proof.Machine
end

section
/-! PROOFS. The share of one context in a cell loss (R95): its serving leg, its target, or both. -/

namespace Sys2Proof.Machine

/-- A property of the candidates that a rewrite of each keeps. -/
theorem bestCandidate_map {f : Candidate → Candidate} (hf : ∀ d, (f d).f = d.f) (cs : List Candidate) :
    bestCandidate (cs.map f) = (bestCandidate cs).map f := by
  induction cs with
  | nil => rfl
  | cons d cs ih =>
    rw [List.map_cons]
    unfold bestCandidate
    rw [ih]
    cases bestCandidate cs with
    | none => rfl
    | some e =>
      dsimp only [Option.map_some]
      rw [hf, hf]
      split <;> rfl

theorem fallenCall_best {s : State} {k : Call} {l : Leg} {c : CellIx} {b : Candidate}
    (hb : bestCandidate k.candidates = some b) :
    ∃ d, bestCandidate (fallenCall s k l c).candidates = some d ∧ d.cell = b.cell := by
  refine ⟨_, (bestCandidate_map (fun d => ?_) k.candidates).trans (congrArg (Option.map _) hb), ?_⟩
  · split <;> rfl
  · dsimp only
    split <;> rfl

theorem LegsClosed.none_trans {x : Channel} {s t u : State} (h : LegsClosed x [] s t) (k : LegsClosed x [] t u) :
    LegsClosed x [] s u := by
  obtain ⟨-, h⟩ := h
  obtain ⟨-, k⟩ := k
  exact ⟨nofun, fun p c y hy => (k p c y hy).elim (h p c y) fun ⟨_, hm, _⟩ => nomatch hm⟩

theorem LegsClosed.of_released {m : Nat} {x : Channel} {cs : List CellIx} {s w t : State} (hw : RadioStep m [] cs s w)
    (ht : ∀ p, (t.port p).closes = (w.port p).closes) : LegsClosed x [] s t :=
  LegsClosed.of_step hw ⟨nofun, fun p c y hy => .inl (by rwa [← ht])⟩

/-! ### The serving leg alone, by a disable or a drain (R84) -/

section
variable {x : Channel} {s : State} {k : Call} {l : Leg} {g : Option Time} (cause : DropCause) (hk : s.call x = some k)
include hk

theorem dropCall_active (hp : k.phase = .active l g) : SlotsReleased [l.cell] s (dropCall x cause false s) ∧
    LegsClosed x [l.cell] s (dropCall x cause false s) := by
  have hslots := dropCall_slots hk cause false
  have hcloses := dropCall_closes hk cause false
  rw [hp] at hslots hcloses
  exact ⟨hslots, hcloses⟩

theorem dropCall_preparing {r : Target} {n : Txn} (hp : k.phase = .preparing l g r n) :
    SlotsReleased [l.cell, r.cell] s (dropCall x cause false s) ∧ LegsClosed x [l.cell] s (dropCall x cause false s) ∧
      OpenCancelled n s (dropCall x cause false s) := by
  have hslots := dropCall_slots hk cause false
  have hcloses := dropCall_closes hk cause false
  have hopens : k.phase.opens = [(r.cell, n)] := by
    rw [hp]
    rfl
  rw [hp] at hslots hcloses
  exact ⟨SlotsReleased.swap hslots, hcloses, dropCall_cancels hk hopens cause false⟩

theorem dropCall_bridging {r : Target} {sl : Slot} {d : Time} (hp : k.phase = .bridging l g r sl d) :
    SlotsReleased [l.cell, r.cell] s (dropCall x cause false s) ∧
      LegsClosed x [l.cell, r.cell] s (dropCall x cause false s) := by
  have hslots := dropCall_slots hk cause false
  have hcloses := dropCall_closes hk cause false
  rw [hp] at hslots hcloses
  exact ⟨hslots, hcloses⟩

end

/-! ### The serving leg alone, by a line-down (R94) -/

section
variable {x : Channel} {cause : DropCause} {s : State} {k : Call} {l : Leg} {g : Option Time} (hk : s.call x = some k)
include hk

theorem lineLoss_preparing {r : Target} {n : Txn} (hp : k.phase = .preparing l g r n) :
    SlotsReleased [l.cell] s (servingLegLoss x cause s) ∧ LegsClosed x [] s (servingLegLoss x cause s) ∧
      (servingLegLoss x cause s).answers = s.answers ∧ (servingLegLoss x cause s).device = s.device ∧
      (servingLegLoss x cause s).call x = some { k with
        phase := .rescuing (some ({ r with role := .rescue }, n)) (inMs s.config.rescueLimit s) } := by
  have hrel := releaseSlot_step l.cell s
  rw [servingLegLoss_preparing hk hp]
  exact ⟨hrel.slots.congr rfl, .of_released hrel fun _ => rfl, releaseSlot_answers l.cell s, hrel.device,
    State.call_setCall_self _ _ _⟩

theorem lineLoss_bridging {r : Target} {sl : Slot} {d : Time} (hp : k.phase = .bridging l g r sl d) :
    SlotsReleased [l.cell] s (servingLegLoss x cause s) ∧ LegsClosed x [] s (servingLegLoss x cause s) ∧
      (servingLegLoss x cause s).call x = some (committedCall s k r.cell sl) ∧
      (servingLegLoss x cause s).device = { s.device with committed := s.device.committed.bump r.kind } := by
  have hrel := releaseSlot_step l.cell s
  have hcommit := commit_alone x k r sl (releaseSlot l.cell s)
  rw [servingLegLoss_bridging hk hp]
  refine ⟨hrel.slots.congr hcommit.cells, .of_released hrel hcommit.closes, ?_, ?_⟩
  · rw [hcommit.call, committedCall_released]
  · rw [hcommit.device, hrel.device]

end

/-! ### Both legs on a port that goes down (R95) -/

theorem fallback_before {x : Channel} {k : Call} {l : Leg} {s : State} (hk : s.call x = some k)
    (hl : k.phase.serving = some l) (c : CellIx) (how : TargetEnd) : BeforeLoss x s (fallback x k l c how s) := by
  have hstep := targetLeft_step x c how s
  have hfell := fallback_fellBack x k l c how s
  have hset := (fallback_moves (P := fun _ => False) hk hl c how).raws.setting
  have hparts : (∀ i, (fallback x k l c how s).record i = s.record i) ∧ (fallback x k l c how s).trunk = s.trunk ∧
      ∀ p, ((fallback x k l c how s).port p).ctl.length ≤ (s.port p).ctl.length + 1 := by
    rw [fallback_eq]
    generalize targetLeft x c how s = u at hstep ⊢
    exact ⟨hstep.record, hstep.trunk, fun p => (hstep.ports p).length⟩
  obtain ⟨hrecords, htrunk, hlengths⟩ := hparts
  exact ⟨hset, hrecords, hlengths, hfell.hrq, by rw [hfell.device], htrunk, hfell.others⟩

section
variable {lost : CellIx → Bool} {x : Channel} {s : State} {k : Call} {l : Leg} {r : Target} (hk : s.call x = some k)
  (hs : k.phase.serving = some l) (ht : k.phase.target = some r) (hl : lost l.cell = true) (hr : lost r.cell = true)
include hk hs ht hl hr

/-- The target goes first, with no close; then the serving leg is lost from ACTIVE. -/
theorem loss_both : ∃ how : TargetEnd, how.closed r.cell = [] ∧
    (∀ m g q n, k.phase = .preparing m g q n → how = .cancel n) ∧
    lossAtContext lost .linkDown x s = servingLegLoss x .linkDown (fallback x k l r.cell how s) := by
  have hserve : ∀ how, loseServing lost .linkDown x (fallback x k l r.cell how s) =
      servingLegLoss x .linkDown (fallback x k l r.cell how s) := fun how =>
    (loseServing_serving (fallback_fellBack x k l r.cell how s).call rfl).trans (if_pos hl)
  rw [lossAtContext_eq]
  cases hp : k.phase with
  | opening d n =>
    rw [hp] at hs
    cases hs
  | active m g =>
    rw [hp] at ht
    cases ht
  | preparing m g q n =>
    rw [hp] at hs ht
    cases hs
    cases ht
    refine ⟨.cancel n, rfl, fun _ _ _ _ he => by cases he; rfl, ?_⟩
    rw [loseTarget_preparing hk hp hr]
    exact hserve _
  | bridging m g q sl d =>
    rw [hp] at hs ht
    cases hs
    cases ht
    refine ⟨.lost, rfl, nofun, ?_⟩
    rw [loseTarget_bridging hk hp hr]
    exact hserve _
  | rescuing a d =>
    rw [hp] at hs
    cases hs

/-- What the loss of both legs leaves. -/
theorem loss_both_share {t : State} (hend : t = lossAtContext lost .linkDown x s) :
    SlotsReleased [r.cell, l.cell] s t ∧ LegsClosed x [] s t ∧
      (∀ g n, k.phase = .preparing l g r n → OpenCancelled n s t) ∧
      (k.candidates = [] → CallDropped x k .linkDown s t ∧ t.device.fallbacks = s.device.fallbacks.bump) ∧
      ∀ b, bestCandidate k.candidates = some b →
        RescueBegins x (fallenCall s k l r.cell) b.cell { s.device with fallbacks := s.device.fallbacks.bump } s t := by
  obtain ⟨how, hclosed, hcancel, heq⟩ := loss_both hk hs ht hl hr
  have hfell := fallback_fellBack x k l r.cell how s
  have hbefore := fallback_before hk hs r.cell how
  obtain ⟨hans, hopens⟩ := activeLost_opens (cause := .linkDown) hfell.call rfl
  rw [hend, heq]
  refine ⟨hfell.slots.trans (activeLost_slots hfell.call rfl), ?_, fun g n hp => ?_, fun hc => ?_, fun b hb => ?_⟩
  · have hcloses := hfell.closes
    rw [hclosed] at hcloses
    exact hcloses.none_trans (activeLost_closes hfell.call rfl)
  · have hstart := fallback_cancelled x k l r.cell n s
    rw [← hcancel l g r n hp] at hstart
    exact hstart.kept hans hopens
  · obtain ⟨hdrop, hfall⟩ := activeLost_dropped (cause := .linkDown) hfell.call rfl hbefore rfl
      (by
        change k.candidates.map _ = []
        rw [hc]
        rfl)
    refine ⟨⟨hdrop.call, hdrop.others, hdrop.hrq, hdrop.drops, hdrop.answer, hdrop.handset⟩, ?_⟩
    rw [hfall, hfell.device]
  · obtain ⟨d, hd, hcell⟩ := fallenCall_best (s := s) (l := l) (c := r.cell) hb
    have hrescue := activeLost_rescued (cause := .linkDown) hfell.call rfl hbefore hd
    rw [hcell, hfell.device] at hrescue
    exact hrescue

end

end Sys2Proof.Machine
end

section
/-! PROOFS. The statement on cell losses: the contexts' events, and the share of one context (R66, R68, R70, R71, R95). -/

namespace Sys2Proof.Machine

/-- A cause of a cell loss with its FAIL cause and its drop cause. -/
structure CauseOf (cause : LossCause) (fc : FailCause) (dc : DropCause) : Prop where
  fail : cause.fail = fc
  form : dc.form = .recheck
  served : cause ≠ .linkDown → ∀ x s, servedLoss cause x s = dropCall x dc false s

theorem causeOf {cause : LossCause} {fc : FailCause} {dc : DropCause}
    (h : (cause, fc, dc) ∈ [(LossCause.cellDisabled, FailCause.cellDisabled, DropCause.cellDisabled),
      (.cellDrained, .cellDrained, .cellDrained), (.linkDown, .linkDown, .linkDown)]) : CauseOf cause fc dc := by
  simp only [List.mem_cons, Prod.mk.injEq, List.not_mem_nil, or_false] at h
  obtain ⟨rfl, rfl, rfl⟩ | ⟨rfl, rfl, rfl⟩ | ⟨rfl, rfl, rfl⟩ := h
  · exact ⟨rfl, rfl, fun _ _ _ => rfl⟩
  · exact ⟨rfl, rfl, fun _ _ _ => rfl⟩
  · exact ⟨rfl, rfl, fun h => absurd rfl h⟩

section
variable {lost : CellIx → Bool} {cause : LossCause} {x : Channel} {s t : State} {k : Call} (hk : s.call x = some k)
include hk

/-- The target is lost, and no serving leg. -/
theorem loss_target (hs : s.Inv) (hend : t = lossAtContext lost cause x s) {r : Target}
    (hlost : lost r.cell = true) (hl : ∀ l, k.phase.serving = some l → lost l.cell = false) :
    (∀ l g n, k.phase = .preparing l g r n → FellBack x k l r.cell [] s t ∧ OpenCancelled n s t) ∧
    (∀ l g sl d, k.phase = .bridging l g r sl d →
      FellBack x k l r.cell (if cause = .linkDown then [] else [r.cell]) s t ∧ t.answers = s.answers) ∧
    ∀ n d, k.phase = .rescuing (some (r, n)) d → AttemptPassed x k r.cell n d s t ∧ AttemptCancelled x r.cell n s t := by
  refine ⟨fun l g n hp => ?_, fun l g sl d hp => ?_, fun n d hp => ?_⟩
  · rw [hend, loss_preparing hk hp hlost (hl l (by rw [hp]; rfl))]
    exact ⟨fallback_fellBack x k l r.cell (.cancel n) s, fallback_cancelled x k l r.cell n s⟩
  · rw [hend, loss_bridging hk hp hlost (hl l (by rw [hp]; rfl)), ← cause.targetEnd_closed]
    exact ⟨fallback_fellBack x k l r.cell cause.targetEnd s, fallback_loss_answers x k l r.cell cause s⟩
  · have ht := hend.trans (loss_rescuing hk hp hlost)
    exact ⟨attemptLost_passed hk ht hs, attemptLost_cancelled hk ht⟩

/-- The serving leg is lost by a disable or a drain, and no target. -/
theorem loss_served {dc : DropCause} (hend : t = dropCall x dc false s) (hf : dc.form = .recheck) (l : Leg) :
    CallDropped x k dc s t ∧ t.device.fallbacks = s.device.fallbacks ∧
      (∀ g, k.phase = .active l g → SlotsReleased [l.cell] s t ∧ LegsClosed x [l.cell] s t) ∧
      (∀ g r n, k.phase = .preparing l g r n →
        SlotsReleased [l.cell, r.cell] s t ∧ LegsClosed x [l.cell] s t ∧ OpenCancelled n s t) ∧
      ∀ g r sl d, k.phase = .bridging l g r sl d →
        SlotsReleased [l.cell, r.cell] s t ∧ LegsClosed x [l.cell, r.cell] s t := by
  rw [hend]
  exact ⟨dropCall_dropped hk hf false, (dropCall_device hk dc false).1, fun g hp => dropCall_active dc hk hp,
    fun g r n hp => dropCall_preparing dc hk hp, fun g r sl d hp => dropCall_bridging dc hk hp⟩

/-- The serving leg is lost by a line-down, and no target. -/
theorem loss_line (hend : t = servingLegLoss x .linkDown s) {l : Leg} (hl : k.phase.serving = some l) :
    SlotsReleased [l.cell] s t ∧ LegsClosed x [] s t ∧
      (∀ g, k.phase = .active l g →
        (k.candidates = [] → CallDropped x k .linkDown s t ∧ t.device.fallbacks = s.device.fallbacks) ∧
        ∀ b, bestCandidate k.candidates = some b → RescueBegins x k b.cell s.device s t) ∧
      (∀ g r n, k.phase = .preparing l g r n → t.answers = s.answers ∧ t.device = s.device ∧ t.call x = some { k with
        phase := .rescuing (some ({ r with role := .rescue }, n)) (inMs s.config.rescueLimit s) }) ∧
      ∀ g r sl d, k.phase = .bridging l g r sl d → t.call x = some (committedCall s k r.cell sl) ∧
        t.device = { s.device with committed := s.device.committed.bump r.kind } := by
  rw [hend]
  cases hp : k.phase with
  | opening d n =>
    rw [hp] at hl
    cases hl
  | rescuing a d =>
    rw [hp] at hl
    cases hl
  | active m g =>
    rw [hp] at hl
    cases hl
    exact ⟨activeLost_slots hk hp, activeLost_closes hk hp,
      fun _ _ => ⟨activeLost_dropped hk hp (.refl x s) rfl, fun b hb => activeLost_rescued hk hp (.refl x s) hb⟩,
      nofun, nofun⟩
  | preparing m g r n =>
    rw [hp] at hl
    cases hl
    obtain ⟨hslots, hcloses, hshare⟩ := lineLoss_preparing (cause := .linkDown) hk hp
    refine ⟨hslots, hcloses, nofun, fun _ _ _ he => ?_, nofun⟩
    cases he
    exact hshare
  | bridging m g r sl d =>
    rw [hp] at hl
    cases hl
    obtain ⟨hslots, hcloses, hshare⟩ := lineLoss_bridging (cause := .linkDown) hk hp
    refine ⟨hslots, hcloses, nofun, nofun, fun _ _ _ _ he => ?_⟩
    cases he
    exact hshare

end

/-- Settles O24: after the contexts' events none holds the lost cell, because each share takes it away and nothing gives a
cell that is out of service back; the share of one context goes by what it loses. -/
theorem cellLossReachesEveryContext : Obligations.CellLossReachesEveryContext := by
  refine ⟨fun c s => ⟨fun tag hp hw hx => disabled_loss hp hw hx, fun f d hs hd => drained_loss hs hd, lineDown_loss⟩,
    fun lost cause fc dc x s t k hs hk hend hcause => ?_⟩
  obtain ⟨hfail, hform, hserved⟩ := causeOf hcause
  refine ⟨fun ho hl hr => hend.trans (loss_nothing hk ho hl hr), fun d n hp hd => ?_,
    fun r _ hlost hl => loss_target hk hs hend hlost hl, fun l hl hlost hr => ?_, fun l r hl hr hll hlr hline => ?_⟩
  · rw [hend, loss_opening hk hp hd, hfail]
    exact openLost (hfail ▸ cause.fail_ne_timeout)
  · have ht := hend.trans (loss_serving hk hl hlost hr)
    refine ⟨fun hc => loss_served hk (ht.trans (hserved hc x s)) hform l, fun hline => ?_⟩
    subst hline
    exact loss_line hk ht hl
  · subst hline
    exact loss_both_share hk hl hr hll hlr hend

end Sys2Proof.Machine
end

section
/-! PROOFS. The statement on the access check (R46 to R50): the gate search, the two tests on a found gate, and the order of
the chain. -/

namespace Sys2Proof.Machine

/-! ### The gate search (R48) -/

theorem Gate.serves_iff {s : State} {z : ZoneIx} {grp : Group} {g : GateIx} :
    (s.gate g).serves z grp = true ↔ GateServes s z grp g := by
  unfold Gate.serves GateServes
  cases (s.gate g).group <;> simp [and_assoc]

theorem Gate.serves_eq_false {s : State} {z : ZoneIx} {grp : Group} {g : GateIx} (h : ¬ GateServes s z grp g) :
    (s.gate g).serves z grp = false := Bool.eq_false_iff.2 fun hs => h (Gate.serves_iff.1 hs)

theorem findGate_none {s : State} {z : ZoneIx} {grp : Group} (h : ∀ g, ¬ GateServes s z grp g) : findGate s z grp = none :=
  List.find?_eq_none.2 fun g _ hs => h g (Gate.serves_iff.1 hs)

theorem findGate_lowest {s : State} {z : ZoneIx} {grp : Group} {g : GateIx} (hg : GateServes s z grp g)
    (hlow : ∀ h, h < g → ¬ GateServes s z grp h) : findGate s z grp = some g :=
  allIndices_find? (Gate.serves_iff.2 hg) fun h hh => Gate.serves_eq_false (hlow h hh)

/-! ### The found gate: clearance, then mode (R49, R50) -/

theorem gateVerdict_eq (s : State) (e : Clearance) (g : GateIx) (p : Purpose) : gateVerdict s e g p =
    if (s.gate g).level.val < e.val then some ⟨.clearance, g.val, .gate⟩
    else if (s.gate g).mode = .inCallOnly ∧ p ≠ .handover then some ⟨.gateMode, g.val, .gate⟩
    else none := by
  unfold gateVerdict
  by_cases he : (s.gate g).level < e
  · rw [if_neg he.not_ge, if_pos (Fin.lt_def.1 he)]
    rfl
  · rw [if_pos (not_lt.1 he), if_neg (mt Fin.lt_def.2 he)]
    cases (s.gate g).mode with
    | any => exact (if_neg fun h => nomatch h.1).symm
    | inCallOnly =>
      by_cases hp : p = .handover
      · exact (if_pos hp).trans (if_neg fun h => h.2 hp).symm
      · exact (if_neg hp).trans (if_pos ⟨rfl, hp⟩).symm

/-! ### The zone (R47, R48) -/

section Zone

variable {s : State} {e : Clearance} {grp : Group} {z : ZoneIx} {p : Purpose}

theorem zoneVerdict_absent (h : (s.zone z).present = false) :
    zoneVerdict s e grp z p = some ⟨.zoneAbsent, z.val, .zone⟩ := if_neg (by rw [h]; nofun)

theorem zoneVerdict_closed (h : (s.zone z).present = true) (hk : (s.zone z).kind = .closed) :
    zoneVerdict s e grp z p = some ⟨.zoneClosed, z.val, .zone⟩ := by
  unfold zoneVerdict
  rw [if_pos h, hk]
  rfl

theorem zoneVerdict_open (h : (s.zone z).present = true) (hk : (s.zone z).kind = .openZone) :
    zoneVerdict s e grp z p = if (s.zone z).level.val < e.val then some ⟨.clearance, z.val, .zone⟩ else none := by
  unfold zoneVerdict
  rw [if_pos h, hk]
  by_cases he : (s.zone z).level < e
  · exact (if_neg he.not_ge).trans (if_pos he).symm
  · exact (if_pos (not_lt.1 he)).trans (if_neg he).symm

theorem zoneVerdict_missed (h : (s.zone z).present = true) (hk : (s.zone z).kind = .gated)
    (hg : ∀ g, ¬ GateServes s z grp g) : zoneVerdict s e grp z p = some ⟨.gateMiss, z.val, .zone⟩ := by
  unfold zoneVerdict
  rw [if_pos h, hk, findGate_none hg]
  rfl

theorem zoneVerdict_found (h : (s.zone z).present = true) (hk : (s.zone z).kind = .gated) {g : GateIx}
    (hg : GateServes s z grp g) (hlow : ∀ h, h < g → ¬ GateServes s z grp h) :
    zoneVerdict s e grp z p = gateVerdict s e g p := by
  unfold zoneVerdict
  rw [if_pos h, hk, findGate_lowest hg hlow]

end Zone

/-! ### The cell (R46) -/

section Cell

variable {s : State} {e : Clearance} {grp : Group} {c : CellIx} {p : Purpose}

theorem accessCheck_unknown (h : (s.cell c).present = false) :
    accessCheck s e grp c p = some ⟨.cellUnknown, c.val, .cell⟩ := if_neg (by rw [h]; nofun)

theorem accessCheck_unavailable (h : (s.cell c).present = true) (hs : (s.cell c).service ≠ .inService) :
    accessCheck s e grp c p = some ⟨.cellUnavailable, c.val, .cell⟩ := (if_pos h).trans (if_neg hs)

theorem accessCheck_zone (h : (s.cell c).present = true) (hs : (s.cell c).service = .inService) :
    accessCheck s e grp c p = zoneVerdict s e grp (s.cell c).zone p := (if_pos h).trans (if_pos hs)

end Cell

/-- Settles O20: the tests on the cell leave the verdict to its zone, and a gated zone leaves it to the found gate. -/
theorem accessCheckChain : Obligations.AccessCheckChain := by
  refine fun s e grp c p => ⟨accessCheck_unknown, accessCheck_unavailable, fun hp hs z hz => ?_⟩
  subst hz
  rw [accessCheck_zone hp hs]
  refine ⟨zoneVerdict_absent, zoneVerdict_closed, zoneVerdict_open, fun hpres hk =>
    ⟨zoneVerdict_missed hpres hk, fun g hg hlow => ?_⟩⟩
  exact (zoneVerdict_found hpres hk hg hlow).trans (gateVerdict_eq s e g p)

end Sys2Proof.Machine
end

section
/-! PROOFS. Occupancy as a ledger (R60, R139, R147): what the books say of a state while one context's legs and opens are
in the middle of a change. -/

namespace Sys2Proof.Machine

/-! ### What the contexts hold -/

/-- The cells of the established legs of a channel's context (R60). -/
def State.legs (s : State) (x : Channel) : List CellIx := (s.call x).elim [] fun k => k.phase.legCells false

/-- The pending opens of a channel's context (R60). -/
def State.opens (s : State) (x : Channel) : List (CellIx × Txn) := (s.call x).elim [] fun k => k.phase.opens

/-- The established legs at a cell of every context but one. -/
def State.legsBut (s : State) (x : Channel) (c : CellIx) : Nat :=
  (((allIndices 128).erase x).map fun y => (s.legs y).count c).sum

/-- A live open of a channel to a cell: an entry, not cancelled, that waits for the answer (R139, R147). -/
def State.Waits (s : State) (x : Channel) (c : CellIx) (n : Txn) : Prop :=
  ∃ a ∈ s.answers, a.txn = n ∧ a.channel = x ∧ a.cell = c ∧ a.cancelled = false

/-- Occupancy means what R60 says, and no transaction number stands twice (R140). -/
structure State.Booked (s : State) : Prop where
  once : (s.answers.map (·.txn)).Nodup
  books : s.OccupancyOk

/-- Occupancy means what R60 says when channel `x` is taken to hold `legs` and `opens`, whatever its context holds. -/
structure Books (x : Channel) (legs : List CellIx) (opens : List (CellIx × Txn)) (s : State) : Prop where
  once : (s.answers.map (·.txn)).Nodup
  occupancy : ∀ c, (s.cell c).occupancy = s.legsBut x c + legs.count c + s.opensAt c
  own : ∀ c n, (c, n) ∈ opens ↔ s.Waits x c n
  others : ∀ y, y ≠ x → ∀ c n, (c, n) ∈ s.opens y ↔ s.Waits y c n

theorem State.mem_opens {s : State} {x : Channel} {o : CellIx × Txn} :
    o ∈ s.opens x ↔ ∃ k, s.call x = some k ∧ o ∈ k.phase.opens := by
  unfold State.opens
  cases s.call x <;> simp

theorem State.legs_of_call {s : State} {x : Channel} {k : Call} (h : s.call x = some k) :
    s.legs x = k.phase.legCells false := by
  unfold State.legs
  rw [h]
  rfl

theorem State.opens_of_call {s : State} {x : Channel} {k : Call} (h : s.call x = some k) : s.opens x = k.phase.opens := by
  unfold State.opens
  rw [h]
  rfl

theorem State.legsAt_split (s : State) (x : Channel) (c : CellIx) :
    s.legsAt c = s.legsBut x c + (s.legs x).count c :=
  ((Nat.add_comm _ _).trans (List.sum_map_erase (fun y => (s.legs y).count c) (mem_allIndices 128 x))).symm

/-- The books of a state, read with what one of its contexts holds. -/
theorem books_iff {s : State} {x : Channel} : Books x (s.legs x) (s.opens x) s ↔ s.Booked := by
  constructor
  · intro h
    refine ⟨h.once, fun c => ?_, fun y c n => ?_⟩
    · rw [s.legsAt_split x c]
      exact h.occupancy c
    · rw [← State.mem_opens]
      by_cases hy : y = x
      · rw [hy]
        exact h.own c n
      · exact h.others y hy c n
  · intro h
    refine ⟨h.once, fun c => ?_, fun c n => State.mem_opens.trans (h.books.opens x c n),
      fun y _ c n => State.mem_opens.trans (h.books.opens y c n)⟩
    rw [← s.legsAt_split x c]
    exact h.books.occupancy c

theorem State.Booked.books_of_call {s : State} {x : Channel} {k : Call} (h : s.Booked) (hk : s.call x = some k) :
    Books x (k.phase.legCells false) k.phase.opens s := by
  have := (books_iff (x := x)).2 h
  rwa [State.legs_of_call hk, State.opens_of_call hk] at this

theorem State.Booked.books_of_idle {s : State} {x : Channel} (h : s.Booked) (hk : s.call x = none) : Books x [] [] s := by
  have := (books_iff (x := x)).2 h
  unfold State.legs State.opens at this
  rwa [hk] at this

/-! ### What leaves the books alone -/

theorem State.legs_congr {s t : State} {y : Channel} (h : (t.call y).map (·.phase) = (s.call y).map (·.phase)) :
    t.legs y = s.legs y := by
  have hmap : ∀ u : State, u.legs y = ((u.call y).map (·.phase)).elim [] (Phase.legCells false) := fun u => by
    rw [Option.elim_map]
    rfl
  rw [hmap, hmap, h]

theorem State.opens_congr {s t : State} {y : Channel} (h : (t.call y).map (·.phase) = (s.call y).map (·.phase)) :
    t.opens y = s.opens y := by
  have hmap : ∀ u : State, u.opens y = ((u.call y).map (·.phase)).elim [] Phase.opens := fun u => by
    rw [Option.elim_map]
    rfl
  rw [hmap, hmap, h]

/-- A change that keeps occupancies, pending answers, and the legs and opens of contexts. -/
structure BooksKept (s t : State) : Prop where
  occupancy : ∀ c, (t.cell c).occupancy = (s.cell c).occupancy
  answers : t.answers = s.answers
  legs : ∀ y, t.legs y = s.legs y
  opens : ∀ y, t.opens y = s.opens y

theorem BooksKept.refl (s : State) : BooksKept s s := ⟨fun _ => rfl, rfl, fun _ => rfl, fun _ => rfl⟩

theorem BooksKept.trans {s t u : State} (h : BooksKept s t) (k : BooksKept t u) : BooksKept s u :=
  ⟨fun c => (k.occupancy c).trans (h.occupancy c), k.answers.trans h.answers, fun y => (k.legs y).trans (h.legs y),
    fun y => (k.opens y).trans (h.opens y)⟩

/-- A change that keeps the phases of contexts. -/
theorem BooksKept.of_phases {s t : State} (h : PhasesKept s t) (hc : ∀ c, (t.cell c).occupancy = (s.cell c).occupancy)
    (ha : t.answers = s.answers) : BooksKept s t :=
  ⟨hc, ha, fun y => State.legs_congr (h y), fun y => State.opens_congr (h y)⟩

/-- A change of other parts of the state. -/
theorem BooksKept.other {s t : State} (hc : t.cells = s.cells) (ha : t.answers = s.answers) (hp : t.calls = s.calls) :
    BooksKept s t :=
  .of_phases (.of_calls hp) (fun c => by unfold State.cell; rw [hc]) ha

theorem BooksKept.after {s t u : State} (h : BooksKept t u) (hc : t.cells = s.cells) (ha : t.answers = s.answers)
    (hp : t.calls = s.calls) : BooksKept s u := (BooksKept.other hc ha hp).trans h

theorem BooksKept.count (f : DeviceCounters → DeviceCounters) (s : State) : BooksKept s (s.count f) := .other rfl rfl rfl

theorem BooksKept.setCell {s : State} {c : CellIx} {v : CellRec} (h : v.occupancy = (s.cell c).occupancy) :
    BooksKept s (s.setCell c v) := by
  refine .of_phases (.refl _) (fun d => ?_) rfl
  rw [State.cell_setCell]
  split
  · next hd => rw [hd, h]
  · rfl

/-- A rewrite of a call that keeps what it holds. -/
theorem BooksKept.modCall {f : Call → Call}
    (hf : ∀ k, (f k).phase.legCells false = k.phase.legCells false ∧ (f k).phase.opens = k.phase.opens) (x : Channel)
    (s : State) : BooksKept s (s.modCall x f) := by
  refine ⟨fun _ => rfl, rfl, fun y => ?_, fun y => ?_⟩
  · unfold State.legs
    rw [State.call_modCall]
    split
    · next hy =>
      rw [hy, Option.elim_map]
      exact congrArg (fun g => (s.call x).elim [] g) (funext fun k => (hf k).1)
    · rfl
  · unfold State.opens
    rw [State.call_modCall]
    split
    · next hy =>
      rw [hy, Option.elim_map]
      exact congrArg (fun g => (s.call x).elim [] g) (funext fun k => (hf k).2)
    · rfl

theorem BooksKept.setCall {s : State} {x : Channel} {k j : Call} (hk : s.call x = some k)
    (hl : j.phase.legCells false = k.phase.legCells false) (ho : j.phase.opens = k.phase.opens) :
    BooksKept s (s.setCall x (some j)) := by
  have := BooksKept.modCall (f := fun i => if i = k then j else i) (fun i => by
    split
    · next hi => exact hi ▸ ⟨hl, ho⟩
    · exact ⟨rfl, rfl⟩) x s
  unfold State.modCall at this
  rwa [hk, Option.map_some, if_pos rfl] at this

theorem BooksKept.foldl {α : Type} (f : State → α → State) (h : ∀ s a, BooksKept s (f s a)) (l : List α) (s : State) :
    BooksKept s (l.foldl f s) := by
  induction l generalizing s with
  | nil => exact .refl _
  | cons a l ih => exact (h s a).trans (ih _)

/-- The legs of the other contexts are counted one by one. -/
theorem State.legsBut_congr {s t : State} {x : Channel} (h : ∀ y, y ≠ x → t.legs y = s.legs y) (c : CellIx) :
    t.legsBut x c = s.legsBut x c := by
  have hn : (allIndices 128).Nodup := by rw [allIndices_eq]; exact List.nodup_finRange 128
  unfold State.legsBut
  refine congrArg List.sum (List.map_congr_left fun y hy => ?_)
  rw [h y (hn.mem_erase_iff.1 hy).1]

theorem State.legs_of_calls {s t : State} (h : t.calls = s.calls) (y : Channel) : t.legs y = s.legs y :=
  State.legs_congr (PhasesKept.of_calls h y)

theorem State.opens_of_calls {s t : State} (h : t.calls = s.calls) (y : Channel) : t.opens y = s.opens y :=
  State.opens_congr (PhasesKept.of_calls h y)

section
variable {x : Channel} {legs : List CellIx} {opens : List (CellIx × Txn)} {s t : State}

/-- The books stand while no occupancy, no pending answer and nothing that another context holds changes. -/
theorem Books.congr (h : Books x legs opens s) (hc : ∀ c, (t.cell c).occupancy = (s.cell c).occupancy)
    (ha : t.answers = s.answers) (hl : ∀ y, y ≠ x → t.legs y = s.legs y) (ho : ∀ y, y ≠ x → t.opens y = s.opens y) :
    Books x legs opens t := by
  have hw : ∀ y c n, t.Waits y c n ↔ s.Waits y c n := fun y c n => by unfold State.Waits; rw [ha]
  refine ⟨by rw [ha]; exact h.once, fun c => ?_, fun c n => (h.own c n).trans (hw x c n).symm, fun y hy c n => ?_⟩
  · rw [hc, State.legsBut_congr hl, h.occupancy c]
    unfold State.opensAt
    rw [ha]
  · rw [ho y hy, hw]
    exact h.others y hy c n

theorem Books.kept (h : Books x legs opens s) (k : BooksKept s t) : Books x legs opens t :=
  h.congr k.occupancy k.answers (fun y _ => k.legs y) fun y _ => k.opens y

/-- The context in the middle of a change may be rewritten. -/
theorem Books.setCall (h : Books x legs opens s) (v : Option Call) : Books x legs opens (s.setCall x v) :=
  h.congr (fun _ => rfl) rfl (fun y hy => by unfold State.legs; rw [State.call_setCall_ne _ hy])
    fun y hy => by unfold State.opens; rw [State.call_setCall_ne _ hy]

theorem Books.modCall (h : Books x legs opens s) (f : Call → Call) : Books x legs opens (s.modCall x f) := h.setCall _

/-- The change is over when the context holds what the books say. -/
theorem Books.booked (h : Books x legs opens s) (hl : s.legs x = legs) (ho : s.opens x = opens) : s.Booked :=
  books_iff.1 (by rw [hl, ho]; exact h)

theorem Books.booked_of_call {k : Call} (h : Books x legs opens s) (hk : s.call x = some k)
    (hl : k.phase.legCells false = legs) (ho : k.phase.opens = opens) : s.Booked :=
  h.booked ((State.legs_of_call hk).trans hl) ((State.opens_of_call hk).trans ho)

/-- The context ends IDLE. -/
theorem Books.booked_idle (h : Books x [] [] s) : (s.setCall x none).Booked := by
  refine (h.setCall none).booked ?_ ?_
  · unfold State.legs
    rw [State.call_setCall_self]
    rfl
  · unfold State.opens
    rw [State.call_setCall_self]
    rfl

/-- The context ends with a call. -/
theorem Books.booked_set {k : Call} (h : Books x legs opens s) (hl : k.phase.legCells false = legs)
    (ho : k.phase.opens = opens) : (s.setCall x (some k)).Booked :=
  (h.setCall _).booked_of_call (State.call_setCall_self _ _ _) hl ho

theorem State.Booked.kept (h : s.Booked) (k : BooksKept s t) : t.Booked := by
  have hx := ((books_iff (x := 0)).2 h).kept k
  exact hx.booked (k.legs 0) (k.opens 0)

end

/-! ### Slots and opens of the context in the middle of a change -/

section
variable {x : Channel} {legs : List CellIx} {opens : List (CellIx × Txn)} {s t : State}

/-- A slot is handed back (R60). -/
theorem Books.release {c : CellIx} (h : Books x (c :: legs) opens s) : Books x legs opens (releaseSlot c s) := by
  have hr := releaseSlot_step c s
  refine ⟨by rw [releaseSlot_answers]; exact h.once, fun d => ?_, fun d n => ?_, fun y hy d n => ?_⟩
  · have hb : (releaseSlot c s).legsBut x d = s.legsBut x d :=
      State.legsBut_congr (fun y _ => State.legs_of_calls (releaseSlot_calls c s) y) d
    have ho : (releaseSlot c s).opensAt d = s.opensAt d := by
      unfold State.opensAt
      rw [releaseSlot_answers]
    rw [hr.slots d, hb, ho, h.occupancy d, List.count_cons, List.count_singleton]
    split <;> omega
  · unfold State.Waits
    rw [releaseSlot_answers]
    exact h.own d n
  · unfold State.Waits State.opens
    rw [releaseSlot_answers, hr.call]
    exact h.others y hy d n

theorem closeAdd_booksKept (c : CellIx) (y : Channel) (s : State) : BooksKept s (closeAdd c y s) := by
  have h := (closeAdd_step c y s).slots
  exact .of_phases (.of_calls (closeAdd_calls c y s)) h (closeAdd_answers c y s)

/-- A leg is closed (R82). -/
theorem Books.close {c : CellIx} (h : Books x (c :: legs) opens s) (y : Channel) : Books x legs opens (closeLeg y s c) :=
  (h.kept (closeAdd_booksKept c y s)).release

theorem Books.closeAll {cs : List CellIx} (h : Books x (cs ++ legs) opens s) (y : Channel) :
    Books x legs opens (cs.foldl (closeLeg y) s) := by
  induction cs generalizing s with
  | nil => exact h
  | cons c cs ih => exact ih (h.close y)

/-- A slot is reserved (R60). -/
theorem Books.reserved {c : CellIx} (h : Books x legs opens s) : Books x (c :: legs) opens (reserved c s) := by
  refine ⟨h.once, fun d => ?_, h.own, h.others⟩
  have hb : (Machine.reserved c s).legsBut x d = s.legsBut x d := State.legsBut_congr (fun _ _ => rfl) d
  have ho : (Machine.reserved c s).opensAt d = s.opensAt d := rfl
  rw [reserved_occupancy, h.occupancy d, hb, ho, List.count_cons]
  by_cases hd : d = c
  · simp [hd]
    omega
  · simp [hd, Ne.symm hd]

end

/-! ### Entries of the pending-answer list -/

/-- An entry `a` of the list leaves it, or stays only as cancelled (R139, R147). -/
structure EntryGone (a : Answer) (s t : State) : Prop where
  cells : t.cells = s.cells
  calls : t.calls = s.calls
  split : ∃ as mid bs, s.answers = as ++ a :: bs ∧ t.answers = as ++ mid ++ bs ∧ (∀ b ∈ as ++ bs, b.txn ≠ a.txn) ∧
    (mid = [] ∨ mid = [{ a with cancelled := true }])

theorem entry_split {as : List Answer} (h : (as.map (·.txn)).Nodup) {a : Answer} (ha : a ∈ as) :
    ∃ us vs, as = us ++ a :: vs ∧ ∀ b ∈ us ++ vs, b.txn ≠ a.txn := by
  obtain ⟨us, vs, rfl⟩ := List.append_of_mem ha
  refine ⟨us, vs, rfl, fun b hb he => ?_⟩
  have hn : (a.txn :: (us ++ vs).map (·.txn)).Nodup := by
    rw [List.map_append] at h ⊢
    exact (List.perm_middle.nodup_iff).1 h
  exact (List.nodup_cons.1 hn).1 (he ▸ List.mem_map_of_mem hb)

theorem freeAnswer_gone {s : State} {a : Answer} (h : (s.answers.map (·.txn)).Nodup) (ha : a ∈ s.answers) :
    EntryGone a s (freeAnswer a s) := by
  obtain ⟨us, vs, he, hne⟩ := entry_split h ha
  refine ⟨rfl, rfl, us, [], vs, he, ?_, hne, .inl rfl⟩
  rw [freeAnswer_answers, he, List.append_nil, List.filter_append, List.filter_cons_of_neg (by simp),
    List.filter_eq_self.2 fun b hb => by simpa using hne b (List.mem_append_left _ hb),
    List.filter_eq_self.2 fun b hb => by simpa using hne b (List.mem_append_right _ hb)]

theorem markCancelled_gone {s : State} {a : Answer} (h : (s.answers.map (·.txn)).Nodup) (ha : a ∈ s.answers) :
    EntryGone a s (markCancelled a.txn s) := by
  obtain ⟨us, vs, he, hne⟩ := entry_split h ha
  have same : ∀ l : List Answer, (∀ b ∈ l, b.txn ≠ a.txn) →
      (l.map fun b => if b.txn = a.txn then { b with cancelled := true } else b) = l := fun l hl =>
    (List.map_congr_left fun b hb => if_neg (hl b hb)).trans (List.map_id' l)
  refine ⟨rfl, rfl, us, [{ a with cancelled := true }], vs, he, ?_, hne, .inr rfl⟩
  unfold markCancelled
  rw [he, List.map_append, List.map_cons, if_pos rfl, same us fun b hb => hne b (List.mem_append_left _ hb),
    same vs fun b hb => hne b (List.mem_append_right _ hb), List.append_assoc]
  rfl

section
variable {x : Channel} {legs : List CellIx} {opens : List (CellIx × Txn)} {s t : State} {a : Answer}

theorem EntryGone.once (h : EntryGone a s t) (hs : (s.answers.map (·.txn)).Nodup) : (t.answers.map (·.txn)).Nodup := by
  obtain ⟨as, mid, bs, he, ht, -, rfl | rfl⟩ := h.split
  · rw [ht, List.append_nil]
    rw [he] at hs
    exact hs.sublist ((List.append_sublist_append_left as).2 (List.sublist_cons_self a bs) |>.map _)
  · rw [ht, List.append_assoc, List.map_append]
    rw [he, List.map_append] at hs
    exact hs

/-- The live opens left are those of the other transactions. -/
theorem EntryGone.waits (h : EntryGone a s t) (y : Channel) (c : CellIx) (n : Txn) :
    t.Waits y c n ↔ s.Waits y c n ∧ n ≠ a.txn := by
  obtain ⟨as, mid, bs, he, ht, hne, hmid⟩ := h.split
  have hm : ∀ b ∈ mid, b.cancelled = true := by
    rcases hmid with rfl | rfl
    · nofun
    · exact fun b hb => by rw [List.mem_singleton.1 hb]
  unfold State.Waits
  rw [he, ht]
  constructor
  · rintro ⟨b, hb, rfl, hx, hc, hl⟩
    have hb' : b ∈ as ++ bs := by
      rcases List.mem_append.1 hb with hb | hb
      · rcases List.mem_append.1 hb with hb | hb
        · exact List.mem_append_left _ hb
        · rw [hm b hb] at hl
          cases hl
      · exact List.mem_append_right _ hb
    refine ⟨⟨b, ?_, rfl, hx, hc, hl⟩, hne b hb'⟩
    simp only [List.mem_append, List.mem_cons] at hb' ⊢
    tauto
  · rintro ⟨⟨b, hb, rfl, hx, hc, hl⟩, hn⟩
    refine ⟨b, ?_, rfl, hx, hc, hl⟩
    have : b ≠ a := fun k => hn (k ▸ rfl)
    simp only [List.mem_append, List.mem_cons] at hb ⊢
    tauto

/-- A live open less is counted at the entry's cell, where the entry was one. -/
theorem EntryGone.opensAt (h : EntryGone a s t) (d : CellIx) :
    s.opensAt d = t.opensAt d + if a.cancelled = false ∧ d = a.cell then 1 else 0 := by
  obtain ⟨as, mid, bs, he, ht, -, hmid⟩ := h.split
  have hm : (mid.filter fun b => decide (b.cell = d) && !b.cancelled) = [] := by
    rcases hmid with rfl | rfl
    · rfl
    · exact List.filter_cons_of_neg (by simp)
  unfold State.opensAt
  rw [he, ht, List.filter_append, List.filter_append, List.filter_append, hm, List.append_nil, List.length_append,
    List.length_append, List.filter_cons]
  by_cases hd : a.cell = d <;> cases a.cancelled <;> simp [hd, eq_comm (a := d)]
  omega

/-- An entry of the context in the middle of a change goes: its slot is held until it is released (R147). -/
theorem Books.entryGone {c : CellIx} {n : Txn} (h : Books x legs [(c, n)] s) (hn : a.txn = n) (hc : a.cell = c)
    (hl : a.cancelled = false) (g : EntryGone a s t) : Books x (c :: legs) [] t := by
  subst hn hc
  refine ⟨g.once h.once, fun d => ?_, fun d n => ?_, fun y hy d n => ?_⟩
  · have hcell : t.cell d = s.cell d := by unfold State.cell; rw [g.cells]
    rw [hcell, h.occupancy d, g.opensAt d, State.legsBut_congr (s := s) (t := t) fun y _ => State.legs_of_calls g.calls y,
      List.count_cons]
    by_cases hd : d = a.cell
    · simp [hd, hl]; omega
    · simp [hd, Ne.symm hd]
  · rw [g.waits, ← h.own]
    simp
  · have ho : t.opens y = s.opens y := State.opens_of_calls g.calls y
    rw [g.waits, ho, h.others y hy]
    refine ⟨fun k => ⟨k, ?_⟩, And.left⟩
    rintro rfl
    obtain ⟨b, hb, hbn, hby, -⟩ := k
    obtain ⟨e, he, hen, hex, -⟩ := (h.own a.cell a.txn).1 List.mem_cons_self
    have : b = e := List.inj_on_of_nodup_map h.once hb he (hbn.trans hen.symm)
    exact hy (hby.symm.trans (this ▸ hex))

/-- A cancelled entry goes: it was no live open. -/
theorem Books.cancelledGone (h : Books x legs opens s) (ha : a ∈ s.answers) (hl : a.cancelled = true)
    (g : EntryGone a s t) : Books x legs opens t := by
  have hw : ∀ y d n, t.Waits y d n ↔ s.Waits y d n := fun y d n => by
    rw [g.waits]
    refine and_iff_left_of_imp ?_
    rintro ⟨b, hb, rfl, -, -, hb'⟩ he
    rw [List.inj_on_of_nodup_map h.once hb ha he, hl] at hb'
    cases hb'
  refine ⟨g.once h.once, fun d => ?_, fun d n => (h.own d n).trans (hw x d n).symm, fun y hy d n => ?_⟩
  · have hcell : t.cell d = s.cell d := by unfold State.cell; rw [g.cells]
    rw [hcell, h.occupancy d, g.opensAt d, State.legsBut_congr (s := s) (t := t) fun y _ => State.legs_of_calls g.calls y,
      if_neg (by rw [hl]; rintro ⟨k, -⟩; cases k), Nat.add_zero]
  · have ho : t.opens y = s.opens y := State.opens_of_calls g.calls y
    rw [ho, hw]
    exact h.others y hy d n

/-- The entry of a pending open (R139). -/
theorem Books.entry {c : CellIx} {n : Txn} (h : Books x legs [(c, n)] s) : ∃ a, s.answerOf n = some a ∧ a ∈ s.answers ∧
    a.txn = n ∧ a.cell = c ∧ a.channel = x ∧ a.cancelled = false := by
  obtain ⟨a, ha, hn, hx, hc, hl⟩ := (h.own c n).1 List.mem_cons_self
  cases hf : s.answerOf n with
  | none => exact absurd hn (by simpa using List.find?_eq_none.1 hf a ha)
  | some b =>
    have hb := List.mem_of_find?_eq_some hf
    obtain rfl : b = a := List.inj_on_of_nodup_map h.once hb ha ((answerOf_txn hf).trans hn.symm)
    exact ⟨b, rfl, ha, hn, hc, hx, hl⟩

/-- A pending open is cancelled: its slot is held until it is released (R147). -/
theorem Books.cancelTxn {c : CellIx} {n : Txn} (h : Books x legs [(c, n)] s) : Books x (c :: legs) [] (cancelTxn n s) := by
  obtain ⟨a, hf, ha, hn, hc, -, hl⟩ := h.entry
  unfold Machine.cancelTxn
  rw [hf]
  dsimp only
  rw [if_neg (by rw [hl]; nofun)]
  split
  · exact h.entryGone hn hc hl (freeAnswer_gone h.once ha)
  · subst hn
    exact h.entryGone rfl hc hl (markCancelled_gone h.once ha)

theorem Books.cancelOpen {c : CellIx} {n : Txn} (h : Books x legs [(c, n)] s) : Books x legs [] (cancelOpen s (c, n)) :=
  h.cancelTxn.release

/-- A call has at most one pending open. -/
theorem Phase.opens_cases (p : Phase) : p.opens = [] ∨ ∃ o, p.opens = [o] := by
  cases p with
  | rescuing r d => cases r <;> simp [Phase.opens]
  | _ => simp [Phase.opens]

theorem Books.cancelAll {p : Phase} (h : Books x legs p.opens s) : Books x legs [] (p.opens.foldl Machine.cancelOpen s) := by
  rcases p.opens_cases with ho | ⟨⟨c, n⟩, ho⟩ <;> rw [ho] at h ⊢
  · exact h
  · exact h.cancelOpen

/-- An entry is allocated to a slot that is held, under a number that no entry has (R139, R140). -/
theorem Books.allocate {c : CellIx} {n : Txn} (h : Books x (c :: legs) [] s) (hf : ∀ a ∈ s.answers, a.txn ≠ n) :
    Books x legs [(c, n)] (allocateTxn n x c s) := by
  have hw : ∀ y d m, (allocateTxn n x c s).Waits y d m ↔ s.Waits y d m ∨ (m = n ∧ y = x ∧ d = c) := fun y d m => by
    change (∃ a ∈ s.answers ++ [_], _) ↔ _
    simp only [List.mem_append, List.mem_singleton, or_and_right, exists_or, exists_eq_left]
    refine or_congr Iff.rfl ?_
    simp only [and_true]
    exact and_congr eq_comm (and_congr eq_comm eq_comm)
  have hno : ∀ y d, ¬ s.Waits y d n := fun y d ⟨a, ha, hn, _⟩ => hf a ha hn
  refine ⟨?_, fun d => ?_, fun d m => ?_, fun y hy d m => ?_⟩
  · change ((s.answers ++ [_]).map _).Nodup
    rw [List.map_append, List.map_singleton]
    refine List.nodup_append.2 ⟨h.once, List.nodup_singleton _, ?_⟩
    simp only [List.mem_map, List.mem_singleton]
    rintro _ ⟨a, ha, rfl⟩ _ rfl
    exact hf a ha
  · have ho : (allocateTxn n x c s).opensAt d = s.opensAt d + if d = c then 1 else 0 := by
      change ((s.answers ++ [_]).filter _).length = _
      rw [List.filter_append, List.length_append]
      unfold State.opensAt
      by_cases hd : d = c
      · simp [hd]
      · simp [hd, Ne.symm hd]
    have hb : (allocateTxn n x c s).legsBut x d = s.legsBut x d := State.legsBut_congr (fun _ _ => rfl) d
    have hc := h.occupancy d
    rw [List.count_cons] at hc
    change (s.cell d).occupancy = _
    rw [ho, hb, hc]
    by_cases hd : d = c
    · simp [hd]; omega
    · simp [hd, Ne.symm hd]
  · rw [hw, ← h.own]
    simp [and_comm]
  · rw [hw]
    exact (h.others y hy d m).trans (or_iff_left fun k => hy k.2.1).symm

end

end Sys2Proof.Machine
end

section
/-! PROOFS. The ledger of occupancy over the endings of calls and opens, the fallbacks and the chain of rescue tries (R60, R80,
R82, R122, R124, R133). -/

namespace Sys2Proof.Machine

/-! ### Operations beside the books -/

section
variable {s t : State}

theorem RegistryOnly.booksKept (h : RegistryOnly s t) : BooksKept s t := by
  unfold RegistryOnly at h
  rw [h]
  exact .other rfl rfl rfl

theorem HandsetStep.booksKept (h : HandsetStep s t) : BooksKept s t := by
  rw [h.only]
  exact .other rfl rfl rfl

theorem RequestStep.booksKept (h : RequestStep s t) (hp : PhasesKept s t) : BooksKept s t :=
  .of_phases hp (fun c => by rw [h.only]; rfl) (by rw [h.only])

theorem EventEnd.booksKept {b : State} (h : EventEnd b s t) : BooksKept s t := .other h.cells h.answers h.calls

theorem offer_booksKept (f : CtlFrame) (s : State) : BooksKept s (offer f s).2 := by
  have h := offerQuietly_ports f s
  unfold offerQuietly at h
  rw [h]
  exact .other rfl rfl rfl

theorem reply_booksKept (r : Reply) (s : State) : BooksKept s (reply r s) :=
  .other (reply_cells r s) (reply_answers r s) (reply_calls r s)

theorem RadioStep.booksKept {n : Nat} {as : List (CellIx × Channel)} (h : RadioStep n as [] s t)
    (ha : t.answers = s.answers) : BooksKept s t :=
  .of_phases (fun y => by rw [h.call]) h.slots ha

theorem withdrawHo_booksKept (x : Channel) (s : State) : BooksKept s (withdrawHo x s) :=
  (withdrawHo_step x s).booksKept (withdrawHo_answers x s)

theorem hrqRemove_phases (x : Channel) (s : State) : PhasesKept s (hrqRemove x s) := by
  unfold hrqRemove
  split
  · exact .refl s
  · exact PhasesKept.trans (t := { s with hrq := s.hrq.without x }) (.of_calls rfl) (setPosted_phases x false _)

theorem hrqRemove_booksKept (x : Channel) (s : State) : BooksKept s (hrqRemove x s) :=
  .of_phases (hrqRemove_phases x s) (fun c => by rw [hrqRemove_only]; rfl) (by rw [hrqRemove_only])

theorem hrqPost_booksKept (r : Request) (s : State) : BooksKept s (hrqPost r s) :=
  (hrqPost_request r s).booksKept (hrqPost_phases r s)

theorem postRescue_booksKept (x : Channel) (s : State) : BooksKept s (postRescue x s) :=
  (postRescue_request x s).booksKept (postRescue_phases x s)

theorem offerPlace_booksKept (s : State) : BooksKept s (offerPlace s) :=
  (offerPlace_request s).booksKept (offerPlace_phases s)

/-- The end of an event touches no books. -/
theorem finish_booksKept (b s : State) : BooksKept s (finish b s) :=
  ((offerPlaces_request _ s).booksKept (offerPlaces_phases _ s)).trans (finish_spec b s).booksKept

theorem HandedBack.booksKept (h : HandedBack s t) : BooksKept s t :=
  .of_phases (.of_calls h.calls) h.occupancy (by rw [h.only])

theorem setPosted_booksKept (x : Channel) (b : Bool) (s : State) : BooksKept s (setPosted x b s) := by
  refine .modCall ?_ x s
  exact fun _ => ⟨rfl, rfl⟩

theorem dropCandidate_booksKept (x : Channel) (c : CellIx) (s : State) : BooksKept s (dropCandidate x c s) := by
  refine .modCall ?_ x s
  exact fun _ => ⟨rfl, rfl⟩

/-- A refused context stays ACTIVE on its leg (R121). -/
theorem refuseRequest_booksKept (x : Channel) (c : CellIx) (s : State) : BooksKept s (refuseRequest x c s) := by
  refine .modCall (fun k => ?_) x s
  cases hp : k.phase <;> dsimp only
  case active => exact ⟨rfl, rfl⟩
  all_goals exact ⟨congrArg _ hp, congrArg _ hp⟩

end

/-! ### The end of a call, of an open, of a target -/

section
variable {x : Channel} {k : Call} {s : State}

/-- The legs and opens of a call go with it (R82). -/
theorem Books.endCall {lost : Bool} (h : Books x (k.phase.legCells lost) k.phase.opens s) (form : ReleaseForm) :
    (endCall x k lost form s).Booked := by
  have hopens := (h.kept (hrqRemove_booksKept x s)).cancelAll.kept (withdrawHo_booksKept x _)
  rw [← List.append_nil (k.phase.legCells lost)] at hopens
  exact ((hopens.closeAll x).kept (releaseHandset_step form k.handset _).booksKept).booked_idle

theorem Books.dropCall {lost : Bool} (h : Books x (k.phase.legCells lost) k.phase.opens s) (hk : s.call x = some k)
    (cause : DropCause) : (dropCall x cause lost s).Booked := by
  rw [dropCall_eq hk]
  exact ((h.kept (.count _ s)).endCall cause.form).kept (reply_booksKept _ _)

theorem dropCall_booked (h : s.Booked) (x : Channel) (cause : DropCause) : (Machine.dropCall x cause false s).Booked := by
  cases hk : s.call x with
  | none =>
    rw [dropCall_none hk]
    exact h
  | some k => exact (h.books_of_call hk).dropCall hk cause

/-- The reserve of a failed open goes with its context (R80). -/
theorem Books.failedOpen {c : CellIx} (h : Books x [c] [] s) (k : Call) (cause : FailCause) :
    (failedOpen x k c cause s).Booked :=
  (h.release.kept (releaseHandset_step .recheck k.handset _).booksKept).booked_idle.kept (reply_booksKept _ _)

/-- A fallback gives up the target, and keeps the serving leg (R124). -/
theorem Books.fallen {l : Leg} {c : CellIx} {how : TargetEnd} (h : Books x [l.cell] [] (abandonTarget x c how s)) :
    (fallback x k l c how s).Booked := by
  have hleft : Books x [l.cell] [] (targetLeft x c how s) := h.kept (withdrawHo_booksKept x _)
  rw [fallback_eq]
  exact (hleft.booked_set (k := fallenCall s k l c) rfl rfl).kept (.count _ _)

theorem Books.fallbackOpen {l : Leg} {c : CellIx} {n : Txn} (h : Books x [l.cell] [(c, n)] s) :
    (fallback x k l c (.cancel n) s).Booked := Books.fallen (how := .cancel n) h.cancelOpen

theorem Books.fallback {l : Leg} {c : CellIx} (h : Books x [c, l.cell] [] s) {how : TargetEnd} (hh : ∀ n, how ≠ .cancel n) :
    (fallback x k l c how s).Booked := by
  refine Books.fallen ?_
  cases how with
  | cancel n => exact absurd rfl (hh n)
  | gone => exact h.release
  | close => exact h.close x
  | lost => exact h.release

/-- The reserve of a rescue attempt is handed back (R133). -/
theorem Books.endAttempt {c : CellIx} {d : Time} (h : Books x [c] [] s) : (endAttempt x k c d s).Booked :=
  (h.release.booked_set (k := { k with phase := .rescuing none d }) rfl rfl).kept (dropCandidate_booksKept x c _)

/-- The target becomes the serving leg (R130). -/
theorem Books.committed {t : Target} (h : Books x [t.cell] [] s) (k : Call) (slot : Slot) (b : Bool) :
    (commit x k none t slot b s).Booked := by
  have hset := h.booked_set (k := { k with
    phase := .active ⟨t.cell, slot⟩ (some (settleDeadline s))
    fs := (candidateF t.cell k.candidates).getD (16 * lastQuality s k.handset)
    candidates := [], posted := false, handovers := k.handovers.bump }) rfl rfl
  unfold commit
  exact ((hset.kept (moveHandset_only _ _ _).booksKept).kept (withdrawHo_booksKept x _)).kept (.count _ _)

theorem commit_old (x : Channel) (k : Call) (l : Leg) (t : Target) (slot : Slot) (b : Bool) (s : State) :
    commit x k (some l) t slot b s = commit x k none t slot b (closeLeg x s l.cell) := rfl

end

end Sys2Proof.Machine
end

section
/-! PROOFS. The ledger of occupancy over the chain of rescue tries, the takes of the handover controller, and the end of an
event (R117 to R124, R133, R150). -/

namespace Sys2Proof.Machine

/-! ### Entries that resolve as FAIL (R80, R126, R133, R146, R150, R155) -/

/-- A context in RESCUING, if it is not IDLE, has no attempt. -/
def State.Adrift (x : Channel) (s : State) : Prop := ∀ k, s.call x = some k → ∃ d, k.phase = .rescuing none d

/-- An operation that keeps the books, from a context without an attempt. -/
def PassesBooked (f : Channel → State → State) : Prop := ∀ x s, s.Booked → s.Adrift x → (f x s).Booked

theorem endAttempt_adrift (x : Channel) (k : Call) (c : CellIx) (d : Time) (s : State) : (endAttempt x k c d s).Adrift x :=
  fun j hj => by
    rw [endAttempt_call, if_pos rfl] at hj
    cases hj
    exact ⟨d, rfl⟩

theorem dropCandidate_adrift {x : Channel} {c : CellIx} {s : State} (h : s.Adrift x) : (dropCandidate x c s).Adrift x :=
  fun j hj => by
    rw [dropCandidate_call, if_pos rfl] at hj
    obtain ⟨k, hk, rfl⟩ := Option.map_eq_some_iff.1 hj
    exact h k hk

theorem Phase.eq_of_opens {p : Phase} {c : CellIx} {n : Txn} (h : p.opens = [(c, n)]) :
    p = .opening c n ∨ (∃ l g r, r.cell = c ∧ p = .preparing l g r n) ∨
      ∃ r d, r.cell = c ∧ p = .rescuing (some (r, n)) d := by
  cases p with
  | opening d m =>
    cases h
    exact .inl rfl
  | preparing l g r m =>
    cases h
    exact .inr (.inl ⟨l, g, r, rfl, rfl⟩)
  | rescuing a d =>
    cases a with
    | none => cases h
    | some a =>
      cases h
      exact .inr (.inr ⟨a.1, d, rfl, rfl⟩)
  | active l g => cases h
  | bridging l g r sl d => cases h

/-- The context of an open whose entry was freed gives up the slot (R80, R126, R133). -/
theorem Books.deliverFail {next : Channel → State → State} (hn : PassesBooked next) {x : Channel} {c : CellIx} {n : Txn}
    {s : State} {k : Call} (hk : s.call x = some k) (ho : k.phase.opens = [(c, n)])
    (h : Books x (c :: k.phase.legCells false) [] s) (cause : FailCause) : (deliverFail next x n cause s).Booked := by
  unfold Machine.deliverFail
  rw [hk]
  dsimp only
  rcases Phase.eq_of_opens ho with hp | ⟨l, g, r, rfl, hp⟩ | ⟨r, d, rfl, hp⟩ <;> rw [hp] at h ⊢ <;> dsimp only <;>
    rw [if_pos rfl]
  · exact Books.failedOpen h k cause
  · exact Books.fallback h nofun
  · exact hn x _ (Books.endAttempt h) (endAttempt_adrift x k r.cell d s)

theorem State.Booked.open_of_answer {s : State} (h : s.Booked) {a : Answer} (ha : a ∈ s.answers)
    (hl : a.cancelled = false) : ∃ k, s.call a.channel = some k ∧ k.phase.opens = [(a.cell, a.txn)] := by
  obtain ⟨k, hk, ho⟩ := (h.books.opens a.channel a.cell a.txn).2 ⟨a, ha, rfl, rfl, rfl, hl⟩
  refine ⟨k, hk, ?_⟩
  rcases k.phase.opens_cases with hp | ⟨o, hp⟩ <;> rw [hp] at ho
  · cases ho
  · rw [hp, List.mem_singleton.1 ho]

/-- The entry of a live open is freed; its context still holds the slot. -/
theorem State.Booked.freed {s : State} (h : s.Booked) {a : Answer} (ha : a ∈ s.answers) (hl : a.cancelled = false) :
    ∃ k, (freeAnswer a s).call a.channel = some k ∧ s.call a.channel = some k ∧ k.phase.opens = [(a.cell, a.txn)] ∧
      Books a.channel (a.cell :: k.phase.legCells false) [] (freeAnswer a s) := by
  obtain ⟨k, hk, ho⟩ := h.open_of_answer ha hl
  have hb := h.books_of_call hk
  rw [ho] at hb
  exact ⟨k, hk, hk, ho, hb.entryGone rfl rfl hl (freeAnswer_gone h.once ha)⟩

theorem State.Booked.freedCancelled {s : State} (h : s.Booked) {a : Answer} (ha : a ∈ s.answers)
    (hl : a.cancelled = true) : (freeAnswer a s).Booked :=
  books_iff.1 (((books_iff (x := 0)).2 h).cancelledGone ha hl (freeAnswer_gone h.once ha))

theorem State.Booked.resolveFail {next : Channel → State → State} (hn : PassesBooked next) {s : State} (h : s.Booked)
    {a : Answer} (ha : a ∈ s.answers) (cause : FailCause) : (resolveFail next a cause s).Booked := by
  unfold Machine.resolveFail
  split
  · next hl => exact h.freedCancelled ha hl
  · next hl =>
    obtain ⟨k, hk, -, ho, hb⟩ := h.freed ha (Bool.eq_false_of_not_eq_true hl)
    exact hb.deliverFail hn hk ho cause

theorem State.mem_of_answerOf {s : State} {n : Txn} {a : Answer} (h : s.answerOf n = some a) : a ∈ s.answers :=
  List.mem_of_find?_eq_some h

theorem State.Booked.settleVictim {next : Channel → State → State} (hn : PassesBooked next) {s : State} (h : s.Booked)
    (v : Option CtlFrame) : (settleVictim next v s).Booked := by
  unfold Machine.settleVictim
  split
  · exact h
  · split
    · exact h
    · next a ha => exact h.resolveFail hn (State.mem_of_answerOf ha) .queueFull

/-! ### Tries at a target (R119, R120, R122) -/

/-- An admitted try takes one slot for one open (R120). -/
theorem Books.admitted {x : Channel} {c : CellIx} {hid : Hid} {role : Role} {v : Option CtlFrame} {legs : List CellIx}
    {s w : State} (h : Books x legs [] s) (ha : Admits x c hid role s v w) :
    Books x legs [(c, s.nextTxn)] (allocateTxn s.nextTxn x c w) := by
  obtain ⟨rest, -, -, hw⟩ := ha.queue
  have hb : Books x (c :: legs) [] w := by
    rw [hw]
    exact h.reserved.kept (.other rfl rfl rfl)
  have hf : ∀ a ∈ w.answers, a.txn ≠ s.nextTxn := by
    rw [hw]
    exact nextTxn_free ha.number.le
  exact hb.allocate hf

theorem State.Booked.beginAttempt {x : Channel} {c : CellIx} {hid : Hid} {v : Option CtlFrame} {s w : State} {k : Call}
    (h : s.Booked) (hk : s.call x = some k) (hx : s.Adrift x) (ha : Admits x c hid .rescue s v w) :
    (attempted x c s w).Booked := by
  obtain ⟨d, hp⟩ := hx k hk
  have hb := h.books_of_call hk
  rw [hp] at hb
  have hcall : (allocateTxn s.nextTxn x c w).call x = some k := (State.call_congr ha.calls x).trans hk
  refine ((hb.admitted ha).modCall _).booked_of_call (k := { k with
    phase := .rescuing (some (⟨c, .rescue, .rescue⟩, s.nextTxn)) d }) ?_ rfl rfl
  unfold attempted Machine.beginAttempt
  rw [State.call_modCall, if_pos rfl, hcall]
  dsimp only [Option.map]
  rw [hp]

theorem State.Booked.passOn {f : Channel → CellIx → State → State}
    (hf : ∀ x c s, s.Booked → s.Adrift x → (f x c s).Booked) : PassesBooked (passOn f) := fun x s h hx => by
  unfold Machine.passOn
  split
  · exact h
  · split
    · exact dropCall_booked h x .rescueFailed
    · exact hf x _ s h hx

/-- The chain of rescue tries keeps the books, evictions included (R122, R133, R150). -/
theorem rescueTry_booked (n : Nat) (x : Channel) (c : CellIx) (s : State) (h : s.Booked) (hx : s.Adrift x) :
    (rescueTry n x c s).Booked := by
  induction n generalizing x c s with
  | zero => exact dropCall_booked h x .rescueFailed
  | succ n ih =>
    have next : PassesBooked (passOn (rescueTry n)) := State.Booked.passOn ih
    unfold rescueTry
    split
    · exact h
    · next k hk =>
      have refused : ∀ (code : HoCode) (u : State), HandedBack s u →
          (passOn (rescueTry n) x (dropCandidate x c (countRefusal code u))).Booked := fun code u hu =>
        next x _ (((h.kept hu.booksKept).kept (.count _ u)).kept (dropCandidate_booksKept x c _))
          (dropCandidate_adrift fun j hj => hx j ((State.call_congr hu.calls x).symm.trans hj))
      rcases tryTarget_outcome x k.handset c .rescue false s with ⟨u, hu, ⟨code, htry⟩ | htry⟩ | ⟨hid, v, w, ha, htry⟩
      · rw [htry]
        exact refused code u hu
      · rw [htry]
        exact refused .queueFull u hu
      · rw [htry]
        exact (h.beginAttempt hk hx ha).settleVictim next v

theorem nextCandidate_booked : PassesBooked nextCandidate := State.Booked.passOn (rescueTry_booked _)

/-! ### Takes (R117 to R123) -/

theorem State.Booked.beginPreparing {x : Channel} {c : CellIx} {hid : Hid} {role r : Role} {kind : ReqKind}
    {v : Option CtlFrame} {s w : State} {k : Call} {l : Leg} {g : Option Time} (h : s.Booked) (hk : s.call x = some k)
    (hp : k.phase = .active l g) (ha : Admits x c hid role s v w) :
    (beginPreparing x ⟨c, r, kind⟩ s.nextTxn (allocateTxn s.nextTxn x c w)).Booked := by
  have hb := h.books_of_call hk
  rw [hp] at hb
  have hcall : (allocateTxn s.nextTxn x c w).call x = some k := (State.call_congr ha.calls x).trans hk
  refine ((hb.admitted ha).modCall _).booked_of_call (k := { k with
    phase := .preparing l g ⟨c, r, kind⟩ s.nextTxn }) ?_ rfl rfl
  unfold Machine.beginPreparing
  rw [State.call_modCall, if_pos rfl, hcall]
  dsimp only [Option.map]
  rw [hp]

section
variable {s : State} {k : Call} {l : Leg} {g : Option Time}

theorem takeHandover_booked {r : Request} (i : RecIx) (h : s.Booked) (hk : s.call r.channel = some k)
    (hp : k.phase = .active l g) : (takeHandover r i s).Booked := by
  have refused : ∀ (f : DeviceCounters → DeviceCounters) (u : State), HandedBack s u →
      (refuseRequest r.channel r.target (u.count f)).Booked := fun f u hu =>
    ((h.kept hu.booksKept).kept (.count f u)).kept (refuseRequest_booksKept _ _ _)
  unfold takeHandover
  dsimp only
  split
  · exact refused _ s (.refl s)
  · rcases tryTarget_outcome r.channel i r.target .handover (!r.kind.urgent) s with
      ⟨u, hu, ⟨code, htry⟩ | htry⟩ | ⟨hid, v, w, ha, htry⟩
    · rw [htry]
      exact refused _ u hu
    · rw [htry]
      exact refused _ u hu
    · rw [htry]
      exact (h.beginPreparing hk hp ha).settleVictim nextCandidate_booked v

theorem preemptiveRescue_booked {x : Channel} (i : RecIx) (c : CellIx) (ts : List CellIx) (h : s.Booked)
    (hk : s.call x = some k) (hp : k.phase = .active l g) : (preemptiveRescue x i c ts s).Booked := by
  induction ts generalizing s with
  | nil => exact h.kept (refuseRequest_booksKept x c s)
  | cons t ts ih =>
    have refused : ∀ (code : HoCode) (u : State), HandedBack s u →
        (preemptiveRescue x i c ts (countRefusal code u)).Booked := fun code u hu =>
      ih ((h.kept hu.booksKept).kept (.count _ u)) ((State.call_congr hu.calls x).trans hk)
    unfold preemptiveRescue
    rcases tryTarget_outcome x i t .rescue false s with ⟨u, hu, ⟨code, htry⟩ | htry⟩ | ⟨hid, v, w, ha, htry⟩
    · rw [htry]
      exact refused code u hu
    · rw [htry]
      exact refused .queueFull u hu
    · rw [htry]
      exact (h.beginPreparing hk hp ha).settleVictim nextCandidate_booked v

end

theorem judgeRequest_booked (r : Request) {s : State} (h : s.Booked) : (judgeRequest r s).Booked := by
  unfold judgeRequest
  split
  · exact h
  · next k hk =>
    split
    · exact h
    · next hp =>
      split
      · exact preemptiveRescue_booked _ _ _ h hk hp
      · exact takeHandover_booked _ h hk hp
      · exact takeHandover_booked _ h hk hp
      · exact takeHandover_booked _ h hk hp
    · exact h
    · exact h
    · next d hp =>
      split
      · refine rescueTry_booked _ _ _ s h fun j hj => ⟨d, ?_⟩
        rwa [← Option.some.inj (hk.symm.trans hj)]
      · exact h
      · exact h
      · exact h
    · exact h

theorem takeOne_booked {s : State} (h : s.Booked) : (takeOne s).Booked := by
  unfold takeOne
  split
  · exact h
  · next r q _ =>
    have hq : BooksKept s { s with hrq := q } := .other rfl rfl rfl
    exact judgeRequest_booked r ((h.kept hq).kept (setPosted_booksKept r.channel false _))

theorem takeLoop_booked (n : Nat) {s : State} (h : s.Booked) : (takeLoop n s).Booked := by
  induction n generalizing s with
  | zero => exact h
  | succ n ih =>
    unfold takeLoop
    split
    · exact h
    · exact ih ((takeOne_booked h).kept (finish_booksKept s _))

theorem takes_booked (b : State) {s : State} (h : s.Booked) : (takes b s).Booked := by
  unfold takes
  split
  · exact h
  · exact takeLoop_booked _ h

/-- The books are kept by an event whose own effect keeps them. -/
theorem event_booked {f : State → State} {s : State} (h : (f s).Booked) : (event f s).Booked :=
  takes_booked s (h.kept (finish_booksKept s _))

theorem State.Booked.foldl {α : Type} {f : State → α → State} (hf : ∀ s a, s.Booked → (f s a).Booked) (l : List α)
    {s : State} (h : s.Booked) : (l.foldl f s).Booked := by
  induction l generalizing s with
  | nil => exact h
  | cons a l ih => exact ih (hf s a h)

theorem eachContext_booked {f : Channel → State → State} (hf : ∀ x s, s.Booked → (f x s).Booked) {s : State}
    (h : s.Booked) : (eachContext f s).Booked := by
  rw [eachContext_eq]
  refine h.foldl (fun u x hu => ?_) _
  unfold contextEvent
  split
  · exact hu
  · exact event_booked (hf x u hu)

end Sys2Proof.Machine
end

section
/-! PROOFS. The ledger of occupancy over answers, losses, voice, attaches and calls: what the owning blocks do with a frame or a
deadline keeps it (R60). -/

namespace Sys2Proof.Machine

section
variable {x : Channel} {k : Call} {s : State}

theorem Books.swap {c d : CellIx} {opens : List (CellIx × Txn)} (h : Books x [c, d] opens s) : Books x [d, c] opens s :=
  { h with occupancy := fun e => by rw [h.occupancy e, (List.Perm.swap d c []).count_eq] }

/-! ### The loss of a serving leg (R94), and a drain start or cell loss at a context (R67, R95, R135) -/

theorem servingLegLoss_booked (h : s.Booked) (x : Channel) (cause : DropCause) : (servingLegLoss x cause s).Booked := by
  unfold servingLegLoss
  split
  · exact h
  · next k hk =>
    have hb := h.books_of_call hk
    split
    · exact h
    · next l g hp =>
      rw [hp] at hb
      have hleft : Books x [] [] (releaseSlot l.cell s) := hb.release
      dsimp only
      split
      · refine Books.dropCall (k := k) ?_ ((State.call_congr (releaseSlot_calls _ s) x).trans hk) cause
        rw [hp]
        exact hleft
      · exact (hleft.booked_set rfl rfl).kept (postRescue_booksKept x _)
    · next l g t n hp =>
      rw [hp] at hb
      have hleft : Books x [] [(t.cell, n)] (releaseSlot l.cell s) := hb.release
      exact hleft.booked_set rfl rfl
    · next l g t slot d hp =>
      rw [hp] at hb
      exact Books.committed hb.release k slot false
    · exact h

theorem loseTarget_booked (h : s.Booked) (lost : CellIx → Bool) {how : TargetEnd} (hh : ∀ n, how ≠ .cancel n) (x : Channel) :
    (loseTarget lost how x s).Booked := by
  unfold loseTarget
  split
  · exact h
  · next k hk =>
    have hb := h.books_of_call hk
    split
    · exact h
    · exact h
    · next l g t n hp =>
      rw [hp] at hb
      split
      · exact Books.fallbackOpen hb
      · exact h
    · next l g t slot d hp =>
      rw [hp] at hb
      split
      · exact Books.fallback (Books.swap hb) hh
      · exact h
    · exact h
    · next t n d hp =>
      rw [hp] at hb
      split
      · exact nextCandidate_booked x _ (Books.endAttempt (Books.cancelTxn hb)) (endAttempt_adrift x k t.cell d _)
      · exact h

theorem loseServing_booked (h : s.Booked) (lost : CellIx → Bool) (cause : LossCause) (x : Channel) :
    (loseServing lost cause x s).Booked := by
  have served : ∀ l : Leg, (if lost l.cell then servedLoss cause x s else s).Booked := fun l => by
    split
    · cases cause with
      | linkDown => exact servingLegLoss_booked h x _
      | _ => exact dropCall_booked h x _
    · exact h
  unfold loseServing
  split
  · exact h
  · next k hk =>
    split
    · next c n hp =>
      have hb := h.books_of_call hk
      rw [hp] at hb
      split
      · exact (Books.cancelTxn hb).failedOpen k _
      · exact h
    all_goals
      split
      · exact h
      · exact served _

theorem lossAtContext_booked (lost : CellIx → Bool) (cause : LossCause) (x : Channel) (s : State) (h : s.Booked) :
    (lossAtContext lost cause x s).Booked := by
  unfold lossAtContext
  refine loseServing_booked (loseTarget_booked h lost (fun n => ?_) x) lost cause x
  cases cause <;> nofun

theorem drainStartAt_booked (c : CellIx) (x : Channel) (s : State) (h : s.Booked) : (drainStartAt c x s).Booked := by
  have ht := loseTarget_booked h (fun d => decide (d = c)) (how := .close) nofun x
  unfold drainStartAt
  dsimp only
  split
  · exact ht
  · split
    · split
      · split
        · exact ht
        · exact ht.kept (hrqPost_booksKept _ _)
      · exact ht
    all_goals exact ht

/-! ### Answers (R79, R125, R133, R141 to R145) -/

theorem Books.offerHoCmd {l : Leg} {t : Target} (h : Books x [t.cell, l.cell] [] s) (k : Call) (g : Option Time) (n : Txn)
    (slot : Slot) (hid : Hid) : (offerHoCmd x k l g t n slot hid s).Booked := by
  have hu := h.kept (offer_booksKept (.hoCmd l.cell n x hid t.cell slot) s)
  unfold Machine.offerHoCmd
  split <;> next heq => 
    rw [heq] at hu
    first
      | exact (hu.swap.booked_set rfl rfl).settleVictim nextCandidate_booked _
      | exact Books.fallback hu nofun

/-- The context of an open whose entry was freed takes the slot as its leg (R79, R125, R133). -/
theorem Books.deliverReady {c : CellIx} {n : Txn} (hk : s.call x = some k) (ho : k.phase.opens = [(c, n)])
    (h : Books x (c :: k.phase.legCells false) [] s) (slot : Slot) : (deliverReady x n slot s).Booked := by
  unfold Machine.deliverReady
  rw [hk]
  dsimp only
  rcases Phase.eq_of_opens ho with hp | ⟨l, g, r, rfl, hp⟩ | ⟨r, d, rfl, hp⟩ <;> rw [hp] at h ⊢ <;> dsimp only <;>
    rw [if_pos rfl]
  · exact (h.booked_set rfl rfl).kept (reply_booksKept _ _)
  · exact Books.offerHoCmd h k g n slot _
  · exact Books.committed h k slot true

theorem unwanted_booksKept (c : CellIx) (x : Channel) (o : AckOutcome) (s : State) : BooksKept s (unwanted c x o s) := by
  unfold unwanted
  split
  · split
    · exact .refl s
    · exact closeAdd_booksKept c x s
  · exact .refl s

theorem legAnswer_booked (c : CellIx) (n : Txn) (x : Channel) (o : AckOutcome) (h : s.Booked) : (legAnswer c n x o s).Booked := by
  unfold legAnswer
  split
  · exact h.kept ((BooksKept.count _ s).trans (unwanted_booksKept c x o _))
  · next a ha =>
    have hm := State.mem_of_answerOf ha
    obtain rfl := answerOf_txn ha
    split
    · next hcx =>
      obtain ⟨rfl, rfl⟩ := hcx
      dsimp only
      split
      · next hl => exact (h.freedCancelled hm hl).kept (unwanted_booksKept _ _ o _)
      · next hl =>
        obtain ⟨k, hk, -, ho, hb⟩ := h.freed hm (Bool.eq_false_of_not_eq_true hl)
        split
        · exact hb.deliverReady hk ho _
        · exact hb.deliverFail nextCandidate_booked hk ho _
    · have hu := (BooksKept.count (fun d => { d with syncErrors := d.syncErrors.bump }) s).trans (unwanted_booksKept c x o _)
      unfold syncError
      split
      · exact h.kept hu
      · exact (h.kept hu).resolveFail nextCandidate_booked (by rw [hu.answers]; exact hm) .sync

theorem recordLoss_booksKept (x : Channel) (cause : Byte) (s : State) : BooksKept s (recordLoss x cause s) := by
  refine BooksKept.trans (t := s.modCall x fun k => { k with lossCause := some cause }) (.modCall ?_ x s) (.count _ _)
  exact fun _ => ⟨rfl, rfl⟩

theorem legLostAt_booked (c : CellIx) (x : Channel) (cause : Byte) (h : s.Booked) : (legLostAt c x cause s).Booked := by
  have hr := recordLoss_booksKept x cause s
  unfold legLostAt
  split
  · exact h
  · next k hk =>
    have hb := (h.books_of_call hk).kept hr
    dsimp only
    split
    · next d n hp =>
      rw [hp] at hb
      split
      · exact (Books.cancelTxn hb).failedOpen _ _
      · exact h
    · split
      · exact servingLegLoss_booked (h.kept hr) x _
      · exact h
    · split
      · exact servingLegLoss_booked (h.kept hr) x _
      · exact h
    · next l g t slot d hp =>
      rw [hp] at hb
      split
      · exact servingLegLoss_booked (h.kept hr) x _
      · split
        · exact Books.fallback (Books.swap hb) nofun
        · exact h
    · exact h

/-! ### Voice and reports (R88 to R92, R96) -/

theorem trunkVoice_booksKept (v : Vox) (s : State) : BooksKept s (trunkVoice v s) := by
  rw [trunkVoice_only]
  exact .other rfl rfl rfl

theorem laneVoice_booksKept (c : CellIx) (v : Vox) (s : State) : BooksKept s (laneVoice c v s) := by
  unfold laneVoice
  dsimp only
  split
  · exact .refl s
  · exact .other rfl rfl rfl

theorem forwardVoice_booksKept {v : Vox} (hk : s.call v.channel = some k) : BooksKept s (forwardVoice v k s) :=
  (BooksKept.setCall (j := { k with nextSeq := some (v.seq + 1), staleRun := 0 }) hk rfl rfl).trans (trunkVoice_booksKept v _)

theorem servingVoice_booksKept {v : Vox} (hk : s.call v.channel = some k) : BooksKept s (servingVoice v k s) := by
  unfold servingVoice
  split
  · exact forwardVoice_booksKept hk
  · exact .setCall hk rfl rfl

theorem countStrayVoice_booksKept (l : LinkIx) (s : State) : BooksKept s (countStrayVoice l s) := .other rfl rfl rfl

theorem uplinkVoice_booked (c : CellIx) (v : Vox) (h : s.Booked) : (uplinkVoice c v s).Booked := by
  have stray := h.kept (countStrayVoice_booksKept (linkOf (portOf c)) s)
  unfold uplinkVoice
  dsimp only
  split
  · exact stray
  · next k hk =>
    split
    · exact stray
    · split
      · exact h.kept (servingVoice_booksKept hk)
      · exact stray
    · split
      · exact h.kept (servingVoice_booksKept hk)
      · exact stray
    · next l g t slot d hp =>
      split
      · exact h.kept (servingVoice_booksKept hk)
      · split
        · unfold targetVoice
          split
          · have hb := (h.books_of_call hk).kept (forwardVoice_booksKept hk)
            rw [hp] at hb
            rw [commit_old]
            exact Books.committed (Books.close hb _) _ slot false
          · exact h.kept (.setCall hk rfl rfl)
        · exact stray
    · exact stray

theorem downlinkVoice_booksKept (v : Vox) (s : State) : BooksKept s (downlinkVoice v s) := by
  have stray := countStrayVoice_booksKept trunkLink s
  unfold downlinkVoice
  dsimp only
  split
  · exact stray
  · split
    · exact stray
    · exact laneVoice_booksKept _ v s
    · exact laneVoice_booksKept _ v s
    · exact (laneVoice_booksKept _ v s).trans (laneVoice_booksKept _ v _)
    · exact stray

theorem measReport_booksKept (c : CellIx) (hid : Hid) (x : Channel) (q : Quality) (ps : List (CellIx × Quality)) (s : State) :
    BooksKept s (measReport c hid x q ps s) := by
  unfold measReport
  dsimp only
  split
  · exact .count _ s
  · next k hk =>
    have heval : BooksKept s (s.setCall x (some (evaluate s c q ps k))) := .setCall hk rfl rfl
    split
    · split
      · unfold takeReport
        dsimp only
        split
        · exact heval
        · split
          · exact heval
          · exact heval.trans (hrqPost_booksKept _ _)
      · exact .count _ s
    all_goals exact .count _ s

/-! ### Attaches and calls (R24 to R33, R76 to R83) -/

theorem offerQuietly_booksKept (f : CtlFrame) (s : State) : BooksKept s (offerQuietly f s) := offer_booksKept f s

theorem completeAttach_booked (i : RecIx) (e : Enrolled) (c : CellIx) (hid : Hid) (cl : Clearance) (q : Quality)
    (h : s.Booked) : (completeAttach i e c hid cl q s).Booked := by
  have located : ∀ {u : State} (loc : Location), u.Booked → (sendAck c hid .accepted (changeLocation i e loc u)).Booked :=
    fun loc hu => (hu.kept (changeLocation_only i e loc _).booksKept).kept (offerQuietly_booksKept _ _)
  unfold completeAttach
  dsimp only
  split
  · exact located _ h
  · exact located _ h
  · exact located _ (dropCall_booked h _ _)

theorem checkAndAttach_booked (i : RecIx) (e : Enrolled) (c : CellIx) (hid : Hid) (cl : Clearance) (q : Quality)
    (h : s.Booked) : (checkAndAttach i e c hid cl q s).Booked := by
  unfold checkAndAttach
  split
  · exact h.kept (offerQuietly_booksKept _ s)
  · exact completeAttach_booked i e c hid cl q h

theorem attach_booked (c : CellIx) (hid : Hid) (cl : Clearance) (q : Quality) (h : s.Booked) :
    (attach c hid cl q s).Booked := by
  unfold attach
  dsimp only
  split
  · exact h.kept (offerQuietly_booksKept _ s)
  · split
    · exact h.kept (offerQuietly_booksKept _ s)
    · exact checkAndAttach_booked _ _ c hid cl q h
    · exact checkAndAttach_booked _ _ c hid cl q h

theorem detach_booked (hid : Hid) (h : s.Booked) : (detach hid s).Booked := by
  unfold detach
  split
  · exact h
  · split
    · exact h
    · split
      · exact h
      · exact h.kept (changeLocation_only _ _ _ s).booksKept
      · exact dropCall_booked h _ _

/-- The reserved slot of an admitted call is held by its open, or handed back (R78, R80). -/
theorem Books.offerInitialOpen {c : CellIx} {n : Txn} (h : Books x [c] [] s) (hk : s.call x = some k)
    (hp : k.phase = .opening c n) (hf : ∀ a ∈ s.answers, a.txn ≠ n) (hid : Hid) :
    (offerInitialOpen x k hid c n s).Booked := by
  have ho := offer_booksKept (.legOpen c n x hid .initial) s
  have hc := offer_calls (.legOpen c n x hid .initial) s
  have hu := h.kept ho
  unfold Machine.offerInitialOpen
  split <;> next heq =>
    rw [heq] at hu ho hc
    first
      | exact Books.failedOpen hu k _
      | exact ((hu.allocate (by rw [ho.answers]; exact hf)).booked_of_call (k := k)
          ((State.call_congr hc x).trans hk) (by rw [hp]; rfl) (by rw [hp]; rfl)).settleVictim nextCandidate_booked _

theorem Books.admitCall {a : Attachment} (h : Books x [a.cell] [] s) (hx : s.call x = none) (p : Priority) (i : RecIx)
    (e : Enrolled) : (admitCall x p i e a s).Booked := by
  have he := (changeLocation_only i e (.engaged a x) s).booksKept
  unfold Machine.admitCall
  split
  · next hn =>
    refine Books.offerInitialOpen (k := newCall i p a s.nextTxn) ((h.kept he).setCall _) (State.call_setCall_self _ _ _) rfl ?_ _
    rw [State.setCall_answers]
    rw [he.answers]
    exact nextTxn_free (of_decide_eq_true hn : s.answers.length < Config.answerCapacity).le
  · refine State.Booked.kept ?_ (reply_booksKept _ _)
    refine h.release.booked ?_ ?_
    · unfold State.legs
      rw [State.call_congr (releaseSlot_calls a.cell s), hx]
      rfl
    · unfold State.opens
      rw [State.call_congr (releaseSlot_calls a.cell s), hx]
      rfl

theorem openCall_booked (x : Channel) (hid : Hid) (p : Priority) (h : s.Booked) : (openCall x hid p s).Booked := by
  unfold openCall
  dsimp only
  split
  · exact h.kept (reply_booksKept _ s)
  · next hx =>
    split
    · exact h.kept (reply_booksKept _ s)
    · split
      · exact h.kept (reply_booksKept _ s)
      · split
        · exact h.kept (reply_booksKept _ s)
        · exact h.kept (reply_booksKept _ s)
        · unfold openAttached
          split
          · exact h.kept (reply_booksKept _ s)
          · split
            · exact h.kept (reply_booksKept _ s)
            · split
              · exact h.kept (reply_booksKept _ s)
              · next hu =>
                obtain rfl := reserve_reserved hu
                exact Books.admitCall (h.books_of_idle hx).reserved hx _ _ _

theorem clearCall_booked (x : Channel) (h : s.Booked) : (clearCall x s).Booked := by
  unfold clearCall
  split
  · exact h.kept (reply_booksKept _ s)
  · next k hk => exact ((h.books_of_call hk).endCall .recheck).kept (reply_booksKept _ _)

theorem requestCall_booksKept (c : CellIx) (hid : Hid) (s : State) : BooksKept s (requestCall c hid s) := by
  unfold requestCall
  dsimp only
  repeat' split
  all_goals first
    | exact offerQuietly_booksKept _ s
    | exact .other rfl rfl rfl

/-! ### Deadlines (R16) and flushed frames (R155) -/

theorem guardExpiry_booksKept (x : Channel) (s : State) : BooksKept s (guardExpiry x s) := by
  unfold guardExpiry
  split
  · exact .refl s
  · next k hk =>
    split
    · exact .refl s
    · split
      · refine .setCall hk ?_ ?_ <;> cases k.phase <;> rfl
      · exact .refl s

theorem bridgeExpiry_booked (x : Channel) (h : s.Booked) : (bridgeExpiry x s).Booked := by
  unfold bridgeExpiry
  split
  · exact h
  · next k hk =>
    split
    · next l g t slot d hp =>
      have hb := h.books_of_call hk
      rw [hp] at hb
      split
      · exact Books.fallback (Books.swap hb) nofun
      · exact h
    all_goals exact h

theorem rescueExpiry_booked (x : Channel) (h : s.Booked) : (rescueExpiry x s).Booked := by
  unfold rescueExpiry
  split
  · exact h
  · split
    · split
      · exact dropCall_booked h x _
      · exact h
    all_goals exact h

theorem pendingExpiry_booked (n : Txn) (h : s.Booked) : (pendingExpiry n s).Booked := by
  unfold pendingExpiry
  split
  · exact h
  · next a ha =>
    split
    · exact h.resolveFail nextCandidate_booked (State.mem_of_answerOf ha) .timeout
    · exact h

theorem flushFrame_booked (s : State) (f : CtlFrame) (h : s.Booked) : (flushFrame s f).Booked := by
  unfold flushFrame
  cases f with
  | legOpen c n y hid r =>
    dsimp only
    split
    · exact h
    · next a ha => exact h.resolveFail nextCandidate_booked (State.mem_of_answerOf ha) .linkDown
  | hoCmd c n y hid t sl =>
    dsimp only
    split
    · exact h
    · next k hk =>
      split
      · next l g r slot d hp =>
        have hb := h.books_of_call hk
        rw [hp] at hb
        exact Books.fallback (Books.swap hb) nofun
      all_goals exact h
  | _ => exact h

theorem silentEnding_booked (s : State) (x : Channel) (h : s.Booked) : (silentEnding s x).Booked := by
  unfold silentEnding
  split
  · exact h
  · next k hk => exact ((h.books_of_call hk).endCall .recheck).kept (finish_booksKept s _)

end

end Sys2Proof.Machine
end

section
/-! PROOFS. The ledger of occupancy over the registry, paging, the ports and the management: nearly all of it changes no
occupancy, no pending answer and no phase; a RESTART empties the books. With these every step keeps the ledger (R60). -/

namespace Sys2Proof.Machine

section
variable {s t : State}

/-! ### Registry and paging -/

theorem sendAck_booksKept (c : CellIx) (h : Hid) (a : AttachResult) (s : State) : BooksKept s (sendAck c h a s) :=
  offerQuietly_booksKept _ s

theorem changeLocation_booksKept (i : RecIx) (e : Enrolled) (loc : Location) (s : State) :
    BooksKept s (changeLocation i e loc s) := (changeLocation_only i e loc s).booksKept

theorem locationUpdate_booksKept (tell : Bool) (c : CellIx) (h : Hid) (q : Quality) (s : State) :
    BooksKept s (locationUpdate tell c h q s).2 := by
  unfold locationUpdate
  dsimp only
  split
  · exact sendAck_booksKept _ _ _ s
  · split
    · exact sendAck_booksKept _ _ _ s
    · next e _ =>
      split
      · exact sendAck_booksKept _ _ _ s
      · exact .other rfl rfl rfl
      · split
        · exact .other rfl rfl rfl
        · split
          · exact (writeLocation_only _ e _ s).booksKept
          · refine BooksKept.trans ?_ (sendAck_booksKept _ _ _ _)
            cases tell
            · exact (writeLocation_only _ e .absent s).booksKept
            · exact changeLocation_booksKept _ e .absent s

theorem settlePage_booksKept (e : PageIx) (o : PageOutcome) (s : State) : BooksKept s (settlePage e o s) :=
  (settlePage_only e o s).booksKept

theorem pageResponse_booksKept (c : CellIx) (h : Hid) (q : Quality) (s : State) : BooksKept s (pageResponse c h q s) := by
  have hu := fun tell => locationUpdate_booksKept tell c h q s
  unfold pageResponse
  split
  · exact hu true
  · have ht := hu false
    split <;> next heq => 
      rw [heq] at ht
      first
        | exact ht
        | exact ht.trans (settlePage_booksKept _ _ _)

theorem offerPages_booksKept (h : Hid) (cs : List CellIx) (n : Nat) (s : State) : BooksKept s (offerPages h cs n s).2 := by
  induction cs generalizing n s with
  | nil => exact .refl s
  | cons c cs ih =>
    have ho := offer_booksKept (.page c h) s
    unfold offerPages
    split
    · split <;> next heq =>
        rw [heq] at ho
        exact ho.trans (ih _ _)
    · exact ih n s

theorem occasion_booksKept (e : PageIx) (s : State) : BooksKept s (occasion e s) := by
  unfold occasion
  split
  · exact .refl s
  · next p _ =>
    split
    · exact .refl s
    · exact settlePage_booksKept _ _ s
    · have ho := offerPages_booksKept p.hid p.cells 0 s
      dsimp only
      split <;> exact ho.trans (.other rfl rfl rfl)

theorem immediateOutcome_booksKept (h : Hid) (o : PageOutcome) (s : State) : BooksKept s (immediateOutcome h o s) := by
  unfold immediateOutcome
  split <;> exact .other rfl rfl rfl

theorem pageRequest_booksKept (h : Hid) (a : Nat) (s : State) : BooksKept s (pageRequest h a s) := by
  unfold pageRequest
  split
  · exact immediateOutcome_booksKept _ _ s
  · split
    · exact immediateOutcome_booksKept _ _ s
    · split
      · exact immediateOutcome_booksKept _ _ s
      · exact immediateOutcome_booksKept _ _ s
      · split
        · split
          · exact .refl s
          · split
            · exact .refl s
            · exact .other rfl rfl rfl
        · split
          · exact immediateOutcome_booksKept _ _ s
          · exact (occasion_booksKept _ _).after rfl rfl rfl

theorem pageDue_booksKept (e : PageIx) (s : State) : BooksKept s (pageDue e s) := by
  unfold pageDue
  split
  · exact .refl s
  · split
    · split
      · exact occasion_booksKept e s
      · exact .refl s
    · exact .refl s

theorem presenceExpiry_booksKept (i : RecIx) (s : State) : BooksKept s (presenceExpiry i s) := by
  unfold presenceExpiry
  split
  · exact .refl s
  · split
    · split
      · exact changeLocation_booksKept i _ .absent s
      · exact .refl s
    · exact .refl s
    · exact .refl s

theorem detachRecord_booksKept (i : RecIx) (s : State) : BooksKept s (detachRecord i s) := by
  unfold detachRecord
  split
  · exact .refl s
  · split
    · exact .refl s
    · exact changeLocation_booksKept i _ .absent s
    · exact .refl s

theorem revokeRecord_booksKept (i : RecIx) (d : Denial) (s : State) : BooksKept s (revokeRecord i d s) := by
  unfold revokeRecord
  split
  · exact .refl s
  · split
    · exact .refl s
    · exact (revoke_step i _ _ d s).booksKept
    · exact .refl s

theorem removeRecord_booksKept (i : RecIx) (s : State) : BooksKept s (removeRecord i s) := by
  unfold removeRecord
  dsimp only
  split
  · exact .refl s
  · split
    · exact .other rfl rfl rfl
    · exact .refl s
    · exact .refl s

theorem stepSweep_booksKept (s : State) : BooksKept s (stepSweep s) := by
  have act : ∀ k i, BooksKept s (sweepAction k i s).1 := fun k i => by
    unfold sweepAction
    split
    · exact .refl s
    · split
      · exact .refl s
      · exact .refl s
      · cases k with
        | revalidate =>
          dsimp only
          split
          · exact .refl s
          · exact revokeRecord_booksKept i _ s
        | expireVisitors =>
          dsimp only
          split
          · exact detachRecord_booksKept i s
          · exact .refl s
        | purgeGroup g =>
          dsimp only
          split
          · exact detachRecord_booksKept i s
          · exact .refl s
  unfold stepSweep
  split
  · split
    · next k i _ _ => exact (act k i).trans (.other rfl rfl rfl)
    · exact .refl s
    · exact .refl s
  · exact .refl s

/-! ### The ports and the trunk -/

theorem choosePort_booksKept (s : State) (p : PortIx) : BooksKept s (choosePort s p) := by
  rw [choosePort_eq]
  exact .other rfl rfl rfl

theorem completeCellTx_booksKept (p : PortIx) (s : State) : BooksKept s (completeCellTx p s) := by
  unfold completeCellTx
  split
  · exact .refl s
  · exact (choosePort_booksKept _ p).after rfl rfl rfl

theorem TrunkSide.booksKept (h : TrunkSide s t) : BooksKept s t := .other h.cells h.answers h.calls

theorem completeTrunkTx_booksKept (s : State) : BooksKept s (completeTrunkTx s) := by
  unfold completeTrunkTx
  split
  · exact .refl s
  · exact (chooseTrunk_spec _).side.booksKept.after rfl rfl rfl

theorem refill_booksKept (s : State) : BooksKept s (refill s) := (refill_spec s).side.booksKept

/-! ### Received frames -/

theorem countReceived_booksKept (l : LinkIx) (s : State) : BooksKept s (countReceived l s) := .other rfl rfl rfl
theorem countMalformed_booksKept (l : LinkIx) (s : State) : BooksKept s (countMalformed l s) := .other rfl rfl rfl
theorem countUnknownCell_booksKept (l : LinkIx) (s : State) : BooksKept s (countUnknownCell l s) := .other rfl rfl rfl
theorem countCheckFailure_booksKept (l : LinkIx) (s : State) : BooksKept s (countCheckFailure l s) := .other rfl rfl rfl

/-- What an action does with a frame, on every booked state. -/
def Books.KeptBy (f : State → State) : Prop := ∀ s : State, s.Booked → (f s).Booked

theorem BooksKept.keptBy {f : State → State} (h : ∀ s, BooksKept s (f s)) : Books.KeptBy f := fun s hs => hs.kept (h s)

theorem rxCell_booked (c : CellIx) (len : Nat) (act : Option (State → State)) (h : ∀ f, act = some f → Books.KeptBy f) :
    Books.KeptBy (rxCell c len act) := fun s hs => by
  unfold rxCell
  dsimp only
  split
  · have hr := hs.kept (countReceived_booksKept (linkOf (portOf c)) s)
    split
    · exact hs.kept (countMalformed_booksKept _ s)
    · split
      · exact hr.kept (countMalformed_booksKept _ _)
      · next f =>
        split
        · exact h f rfl _ hr
        · exact hr.kept (countUnknownCell_booksKept _ _)
  · exact hs

theorem rxTrunk_booked (len : Nat) (act : Option (State → State)) (h : ∀ f, act = some f → Books.KeptBy f) :
    Books.KeptBy (rxTrunk len act) := fun s hs => by
  unfold rxTrunk
  split
  · have hr := hs.kept (countReceived_booksKept trunkLink s)
    split
    · exact hs.kept (countMalformed_booksKept _ s)
    · split
      · exact hr.kept (countMalformed_booksKept _ _)
      · next f => exact h f rfl _ hr
  · exact hs

theorem rxAttach_booked (c : CellIx) (h : Hid) (cl q : Byte) : Books.KeptBy (rxAttach c h cl q) := by
  refine rxCell_booked _ _ _ fun f hf t ht => ?_
  split at hf <;> cases hf
  exact attach_booked _ _ _ _ ht

theorem rxDetach_booked (c : CellIx) (h : Hid) : Books.KeptBy (rxDetach c h) :=
  rxCell_booked _ _ _ fun f hf t ht => by cases hf; exact detach_booked _ ht

theorem rxPresence_booked (c : CellIx) (h : Hid) (q : Byte) : Books.KeptBy (rxPresence c h q) := by
  refine rxCell_booked _ _ _ fun f hf t ht => ?_
  obtain ⟨qv, -, rfl⟩ := Option.map_eq_some_iff.1 hf
  exact ht.kept (locationUpdate_booksKept _ _ _ _ t)

theorem rxCallReq_booked (c : CellIx) (h : Hid) : Books.KeptBy (rxCallReq c h) :=
  rxCell_booked _ _ _ fun f hf t ht => by cases hf; exact ht.kept (requestCall_booksKept _ _ t)

theorem rxMeas_booked (c : CellIx) (h : Hid) (ch qs : Byte) (ps : List (Byte × Byte)) : Books.KeptBy (rxMeas c h ch qs ps) := by
  refine rxCell_booked _ _ _ fun f hf t ht => ?_
  split at hf <;> cases hf
  exact ht.kept (measReport_booksKept _ _ _ _ _ t)

theorem rxLegAck_booked (c : CellIx) (n : BitVec 16) (ch o a : Byte) : Books.KeptBy (rxLegAck c n ch o a) := by
  refine rxCell_booked _ _ _ fun f hf t ht => ?_
  split at hf <;> cases hf
  exact legAnswer_booked _ _ _ _ ht

theorem rxLegLost_booked (c : CellIx) (ch cause : Byte) : Books.KeptBy (rxLegLost c ch cause) := by
  refine rxCell_booked _ _ _ fun f hf t ht => ?_
  obtain ⟨x, -, rfl⟩ := Option.map_eq_some_iff.1 hf
  exact legLostAt_booked _ _ _ ht

theorem rxPageRsp_booked (c : CellIx) (h : Hid) (q : Byte) : Books.KeptBy (rxPageRsp c h q) := by
  refine rxCell_booked _ _ _ fun f hf t ht => ?_
  obtain ⟨qv, -, rfl⟩ := Option.map_eq_some_iff.1 hf
  exact ht.kept (pageResponse_booksKept _ _ _ t)

theorem rxVoxUp_booked (c : CellIx) (ch sq : Byte) (p : List Byte) : Books.KeptBy (rxVoxUp c ch sq p) := by
  refine rxCell_booked _ _ _ fun f hf t ht => ?_
  split at hf
  · obtain ⟨x, -, rfl⟩ := Option.map_eq_some_iff.1 hf
    exact uplinkVoice_booked _ _ ht
  · cases hf

theorem rxVoxDown_booked (ch sq : Byte) (p : List Byte) : Books.KeptBy (rxVoxDown ch sq p) := by
  refine rxTrunk_booked _ _ fun f hf t ht => ?_
  split at hf
  · obtain ⟨x, -, rfl⟩ := Option.map_eq_some_iff.1 hf
    exact ht.kept (downlinkVoice_booksKept _ t)
  · cases hf

theorem rxCallOpen_booked (ch : Byte) (h : Hid) (p : Byte) : Books.KeptBy (rxCallOpen ch h p) := by
  refine rxTrunk_booked _ _ fun f hf t ht => ?_
  split at hf <;> cases hf
  exact openCall_booked _ _ _ ht

theorem rxCallClear_booked (ch : Byte) : Books.KeptBy (rxCallClear ch) := by
  refine rxTrunk_booked _ _ fun f hf t ht => ?_
  obtain ⟨x, -, rfl⟩ := Option.map_eq_some_iff.1 hf
  exact clearCall_booked _ ht

theorem rxPageReq_booked (h : Hid) (n : Byte) : Books.KeptBy (rxPageReq h n) := by
  refine rxTrunk_booked _ _ fun f hf t ht => ?_
  split at hf <;> cases hf
  exact ht.kept (pageRequest_booksKept _ _ t)

theorem startRequest_booksKept (s : State) : BooksKept s (startRequest s) := by
  unfold startRequest
  split
  · exact .other rfl rfl rfl
  · exact .refl s
  · exact .refl s

theorem enqueueRequest_booksKept (r : MgmtFrame) (s : State) : BooksKept s (enqueueRequest r s) := by
  unfold enqueueRequest
  split
  · exact (startRequest_booksKept _).after rfl rfl rfl
  · exact reply_booksKept _ s

theorem rxMgmt_booked (tag : Tag) (op : Byte) (operands : List Byte) : Books.KeptBy (rxMgmt tag op operands) :=
  rxTrunk_booked _ _ fun f hf t ht => by cases hf; exact ht.kept (enqueueRequest_booksKept _ t)

theorem parseCell_booked {c : CellIx} {kind : Byte} {fields : List Byte} {f : State → State}
    (h : parseCell c kind fields = some f) : Books.KeptBy f := by
  unfold parseCell at h
  repeat' split at h
  all_goals cases h
  exacts [rxAttach_booked _ _ _ _, rxDetach_booked _ _, rxPresence_booked _ _ _, rxCallReq_booked _ _,
    rxMeas_booked _ _ _ _ _, rxLegAck_booked _ _ _ _ _, rxLegLost_booked _ _ _, rxPageRsp_booked _ _ _,
    rxVoxUp_booked _ _ _ _]

theorem parseTrunk_booked {kind : Byte} {fields : List Byte} {f : State → State} (h : parseTrunk kind fields = some f) :
    Books.KeptBy f := by
  unfold parseTrunk at h
  repeat' split at h
  all_goals cases h
  exacts [rxVoxDown_booked _ _ _, rxCallOpen_booked _ _ _, rxCallClear_booked _, rxPageReq_booked _ _, rxMgmt_booked _ _ _]

theorem parseFrame_booked {l : LinkIx} {bytes : List Byte} {f : State → State} (h : parseFrame l bytes = some f) :
    Books.KeptBy f := by
  unfold parseFrame at h
  dsimp only at h
  repeat' split at h
  all_goals first
    | cases h
    | exact parseCell_booked h
    | exact parseTrunk_booked h

theorem receive_booked (l : LinkIx) (bytes : List Byte) : Books.KeptBy (receive l bytes) := fun s hs => by
  unfold receive
  split
  · split
    · exact hs.kept (countMalformed_booksKept l s)
    · split
      · split
        · exact (hs.kept (countReceived_booksKept l s)).kept (countMalformed_booksKept l _)
        · next h => exact parseFrame_booked h s hs
      · exact hs.kept (countCheckFailure_booksKept l s)
  · exact hs

/-! ### Table operations -/

theorem answered_booksKept (tag : Tag) (a : MgmtAnswer) (s : State) : BooksKept s (answered tag a s) := by
  rw [answered_eq]
  exact .other rfl rfl rfl

/-- A management row keeps the ledger when its operation does. -/
theorem row_booked {tag : Tag} {fits : MgmtFrame → Bool} {op : State → State × MgmtAnswer}
    (h : Books.KeptBy fun s => (op s).1) : Books.KeptBy (event (respond tag fits op)) := fun s hs => by
  refine event_booked ?_
  by_cases hx : Executing tag fits s
  · rw [respond_answered hx rfl]
    exact (h s hs).kept (answered_booksKept tag _ _)
  · rw [respond_idle hx]
    exact hs

theorem row_booksKept {tag : Tag} {fits : MgmtFrame → Bool} {op : State → State × MgmtAnswer}
    (h : ∀ s, BooksKept s (op s).1) : Books.KeptBy (event (respond tag fits op)) := row_booked (BooksKept.keptBy h)

/-- A management row that only reads. -/
theorem read_booked {tag : Tag} {fits : MgmtFrame → Bool} {op : State → State × MgmtAnswer} (h : ∀ s, (op s).1 = s) :
    Books.KeptBy (event (respond tag fits op)) := row_booksKept fun s => by rw [h]; exact .refl s

theorem atIndex_booksKept {n i : Nat} {f : Fin n → State → State × MgmtAnswer} (h : ∀ j, BooksKept s (f j s).1) :
    BooksKept s (atIndex n i f s).1 := by
  unfold atIndex
  split
  · exact .refl s
  · exact h _

theorem unlessLocked_booksKept {f : State → State × MgmtAnswer} (h : BooksKept s (f s).1) :
    BooksKept s (unlessLocked f s).1 := by
  unfold unlessLocked
  split
  · exact .refl s
  · exact h

theorem writeSubscriber_booksKept (i : RecIx) (h : Hid) (cl g : Nat) (s : State) :
    BooksKept s (writeSubscriber i h cl g s).1 := by
  unfold writeSubscriber
  split
  · exact .refl s
  · exact .refl s
  · split
    · exact .refl s
    · split
      · exact .refl s
      · exact .other rfl rfl rfl

theorem modifySubscriber_booksKept (i : RecIx) (f : Enrolled → Hid × Nat × Nat) (s : State) :
    BooksKept s (modifySubscriber i f s).1 := by
  unfold modifySubscriber
  split
  · exact .refl s
  · exact writeSubscriber_booksKept _ _ _ _ s

theorem clearSubscriber_booksKept (i : RecIx) (s : State) : BooksKept s (clearSubscriber i s).1 := by
  unfold clearSubscriber
  split
  · exact .refl s
  · split
    · exact removeRecord_booksKept i s
    · exact (revokeRecord_booksKept i _ s).trans (removeRecord_booksKept i _)
    · exact .refl s

theorem evict_booksKept (h : Hid) (s : State) : BooksKept s (evict h s).1 := by
  unfold evict
  split
  · exact .refl s
  · next i _ =>
    split
    · split
      · exact .refl s
      · split
        · exact removeRecord_booksKept i s
        · exact revokeRecord_booksKept i _ s
        · exact .refl s
    · exact .refl s

theorem writeFilter_booksKept (f : FilterIx) (b : Bool) (m v : Hid) (cl g : Nat) (s : State) :
    BooksKept s (writeFilter f b m v cl g s).1 := by
  unfold writeFilter
  split
  · exact .refl s
  · exact .refl s
  · exact .other rfl rfl rfl

theorem writeZone_booksKept (z : ZoneIx) (b : Bool) (k : Option ZoneKind) (l : Nat) (s : State) :
    BooksKept s (unlessLocked (writeZone z b k l) s).1 := by
  refine unlessLocked_booksKept ?_
  unfold writeZone
  split
  · exact .refl s
  · exact .refl s
  · exact .other rfl rfl rfl

theorem writeGate_booksKept (g : GateIx) (b : Bool) (z : Nat) (grp : GroupOperand) (l : Nat) (m : Option GateMode)
    (s : State) : BooksKept s (unlessLocked (writeGate g b z grp l m) s).1 := by
  refine unlessLocked_booksKept ?_
  unfold writeGate
  split
  · exact .refl s
  · exact .refl s
  · exact .refl s
  · exact .refl s
  · exact .other rfl rfl rfl

/-! A stored cell record keeps the occupancy of the cell (R60): only what management loads is written. -/

theorem storeCell_booksKept {c : CellIx} {w v : CellRec} (h : v.occupancy = (s.cell c).occupancy) :
    BooksKept s (storeCell c w v s).1 := by
  rw [storeCell_state]
  exact .setCell h

theorem storeField_booksKept {c : CellIx} {b : Bool} {w v : CellRec} (h : v.occupancy = (s.cell c).occupancy) :
    BooksKept s (storeField c b w v s).1 := by
  unfold storeField
  split
  · exact .refl s
  · exact storeCell_booksKept h

theorem writeCell_booksKept (c : CellIx) (w : CellWrite) (s : State) : BooksKept s (writeCell c w s).1 := by
  unfold writeCell
  split
  · exact .refl s
  · split
    · exact .refl s
    · split
      · exact .refl s
      · split
        · exact .refl s
        · dsimp only
          split
          · exact .refl s
          · exact storeCell_booksKept rfl

theorem modifyCell_booksKept (c : CellIx) (f : CellField) (s : State) : BooksKept s (modifyCell c f s).1 := by
  unfold modifyCell
  cases f with
  | present | guard | upper | lower | shift | dwell | resume => exact storeField_booksKept rfl
  | zone =>
    dsimp only
    split
    · exact .refl s
    · exact storeField_booksKept rfl
  | capacity | hysteresis | floor =>
    dsimp only
    split
    · exact .refl s
    · exact storeField_booksKept rfl

/-- A cell record is cleared only with no leg and no open to the cell (R57). -/
theorem clearCell_booksKept (c : CellIx) (s : State) : BooksKept s (clearCell c s).1 := by
  unfold clearCell
  split
  · split
    · exact .refl s
    · next h => exact .setCell (Nat.eq_zero_of_not_pos h).symm
  · exact .refl s

theorem writeNeighbours_booksKept (c : CellIx) (l : List NeighbourWrite) (s : State) :
    BooksKept s (writeNeighbours c l s).1 := by
  unfold writeNeighbours
  split
  · exact .refl s
  · exact .setCell rfl

theorem storeConfig_booksKept (w v : ConfigTable) (s : State) : BooksKept s (storeConfig w v s).1 := by
  rw [storeConfig_state]
  exact .other rfl rfl rfl

theorem writeConfig_booksKept (w : ConfigWrite) (s : State) : BooksKept s (writeConfig w s).1 := by
  unfold writeConfig
  split
  · exact .refl s
  · exact storeConfig_booksKept _ _ s

theorem modifyConfig_booksKept (f : ConfigField) (s : State) : BooksKept s (modifyConfig f s).1 := by
  unfold modifyConfig
  cases f with
  | sync p =>
    cases p with
    | none => exact .refl s
    | some p => exact .other rfl rfl rfl
  | _ => exact storeConfig_booksKept _ _ s

theorem tableWrite_booksKept (i : Nat) (entry : TableEntry) (s : State) : BooksKept s (tableWrite i entry s).1 := by
  unfold tableWrite
  cases entry with
  | subscriber h cl g => exact atIndex_booksKept fun j => writeSubscriber_booksKept _ h cl g s
  | filter e m v cl g => exact atIndex_booksKept fun j => writeFilter_booksKept j e m v cl g s
  | cell w => exact atIndex_booksKept fun c => writeCell_booksKept c w s
  | neighbours l => exact atIndex_booksKept fun c => writeNeighbours_booksKept c l s
  | zone p k l => exact atIndex_booksKept fun z => writeZone_booksKept z p k l s
  | gate p z g l m => exact atIndex_booksKept fun j => writeGate_booksKept j p z g l m s
  | config w => exact atIndex_booksKept fun _ => writeConfig_booksKept w s
  | misfit t => exact .refl s

theorem fieldModify_booksKept (i : Nat) (w : FieldWrite) (s : State) : BooksKept s (fieldModify i w s).1 := by
  unfold fieldModify
  cases w with
  | subscriberHid | subscriberClearance | subscriberGroup =>
    exact atIndex_booksKept fun j => modifySubscriber_booksKept _ _ s
  | filterEnabled | filterMask | filterValue | filterClearance | filterGroup =>
    exact atIndex_booksKept fun j => writeFilter_booksKept j _ _ _ _ _ s
  | cell f => exact atIndex_booksKept fun c => modifyCell_booksKept c f s
  | zonePresent | zoneKind | zoneLevel => exact atIndex_booksKept fun z => writeZone_booksKept z _ _ _ s
  | gatePresent | gateZone | gateGroup | gateLevel | gateMode =>
    exact atIndex_booksKept fun j => writeGate_booksKept j _ _ _ _ _ s
  | config f => exact atIndex_booksKept fun _ => modifyConfig_booksKept f s
  | other t n => rw [modifyUnknown_state]; exact .refl s

theorem tableClear_booksKept (t : TableId) (i : Nat) (s : State) : BooksKept s (tableClear t i s).1 := by
  unfold tableClear
  cases t with
  | subscriber => exact atIndex_booksKept fun j => clearSubscriber_booksKept _ s
  | cell => exact atIndex_booksKept fun c => clearCell_booksKept c s
  | neighbours => exact atIndex_booksKept fun c => .setCell rfl
  | zone => exact atIndex_booksKept fun z => unlessLocked_booksKept (.other rfl rfl rfl)
  | gate => exact atIndex_booksKept fun z => unlessLocked_booksKept (.other rfl rfl rfl)
  | filter => exact atIndex_booksKept fun f => .other rfl rfl rfl
  | config => exact atIndex_booksKept fun _ => .other rfl rfl rfl
  | registry | context | cellState | unknown => exact .refl s

theorem countersRead_booksKept (n : Nat) (b : Bool) (s : State) : BooksKept s (countersRead n b s).1 := by
  unfold countersRead
  split
  · cases b
    · exact .refl s
    · exact .other rfl rfl rfl
  · split
    · cases b
      · exact .refl s
      · exact .other rfl rfl rfl
    · exact .refl s

/-! ### Cells and sweeps -/

theorem onCell_booksKept {n : Nat} {f : CellIx → State → State × MgmtAnswer} (h : ∀ c, BooksKept s (f c s).1) :
    BooksKept s (onCell n f s).1 := by
  unfold onCell
  split
  · exact .refl s
  · exact h _

/-- A service state is no entry of the ledger. -/
theorem serve_booksKept (c : CellIx) (v : Service) (s : State) : BooksKept s (s.setCell c { s.cell c with service := v }) :=
  .setCell rfl

theorem enableCell_booksKept (c : CellIx) (s : State) : BooksKept s (enableCell c s).1 := by
  unfold enableCell refuse serviceAnswer
  split
  · split
    · exact .setCell rfl
    · exact .refl s
  all_goals exact .refl s

theorem enterFollowOn_booksKept (c : CellIx) (f : FollowOn) (s : State) : BooksKept s (enterFollowOn c f s) := by
  cases f with
  | outOfService => exact .setCell rfl
  | restarting => exact (serve_booksKept c _ s).trans (offerQuietly_booksKept _ _)

theorem endDrainIfEmpty_booksKept (c : CellIx) (s : State) : BooksKept s (endDrainIfEmpty c s) := by
  unfold endDrainIfEmpty
  split
  · exact .refl s
  · exact .refl s
  · split
    · exact enterFollowOn_booksKept c _ s
    · exact .refl s
  · exact .refl s

theorem drainCell_booksKept (f : FollowOn) (c : CellIx) (s : State) : BooksKept s (drainCell f c s).1 := by
  unfold drainCell serviceAnswer
  split
  · exact (serve_booksKept c _ s).trans (endDrainIfEmpty_booksKept c _)
  all_goals exact .refl s

theorem disableLoss_booked (n : Nat) (b : State) (h : s.Booked) : (disableLoss n b s).Booked := by
  unfold disableLoss
  split
  · exact h
  · split
    · exact eachContext_booked (lossAtContext_booked _ _) h
    · exact h

theorem drainStart_booked (n : Nat) (b : State) (h : s.Booked) : (drainStart n b s).Booked := by
  unfold drainStart
  split
  · exact h
  · split
    · exact eachContext_booked (drainStartAt_booked _) h
    · exact h

theorem sweepStart_booksKept (k : SweepOperand) (g : Nat) (s : State) : BooksKept s (sweepStart k g s).1 := by
  unfold sweepStart
  split
  · exact .refl s
  · split
    · exact .refl s
    · exact .other rfl rfl rfl

theorem sweepSuspend_booksKept (s : State) : BooksKept s (sweepSuspend s).1 := by
  unfold sweepSuspend
  split
  · exact .other rfl rfl rfl
  all_goals exact .refl s

theorem sweepResume_booksKept (s : State) : BooksKept s (sweepResume s).1 := by
  unfold sweepResume
  split
  · split
    · exact .refl s
    · exact .other rfl rfl rfl
  all_goals exact .refl s

theorem sweepAbort_booksKept (s : State) : BooksKept s (sweepAbort s).1 := by
  unfold sweepAbort
  split
  · exact .other rfl rfl rfl
  · exact .refl s

/-! ### Resets, lines and deadlines -/

/-- With every context IDLE and no answer pending, an occupancy of 0 in every cell keeps the books. -/
theorem State.Booked.empty (hc : ∀ x, t.call x = none) (ha : t.answers = []) (ho : ∀ c, (t.cell c).occupancy = 0) :
    t.Booked where
  once := by simp [ha]
  books :=
    { occupancy := fun c => by
        have hl : t.legsAt c = 0 := List.sum_eq_zero fun n hn => by
          obtain ⟨x, -, rfl⟩ := List.mem_map.1 hn
          rw [hc]
          rfl
        rw [ho, hl]
        simp [State.opensAt, ha]
      opens := fun x c n => by simp [hc, ha] }

theorem powerOnReset_booked (s : State) : State.Booked { State.reset with pending := s.pending } :=
  .empty (fun _ => rfl) rfl fun _ => rfl

theorem restartBlocks_booked (s : State) : (restartBlocks s).Booked :=
  .empty (fun _ => rfl) rfl fun c => by rw [State.cell_restartBlocks]; rfl

theorem closeAllAt_booksKept (s : State) (c : CellIx) : BooksKept s (closeAllAt s c) := by
  unfold closeAllAt
  split
  · exact offerQuietly_booksKept _ s
  · exact .refl s

theorem restartAll_booked : Books.KeptBy fun s => (restartAll s).1 := fun s _ => by
  change ((restartAll s).1).Booked
  rw [restartAll_eq]
  dsimp only
  exact (restartBlocks_booked s).foldl (fun u c hu => hu.kept (closeAllAt_booksKept u c)) _

theorem BooksKept.updateCells {f : CellIx → CellRec → CellRec} (hb : ∀ c, f c CellRec.blank = CellRec.blank)
    (ht : ∀ c r, f c (f c r) = f c r) (ho : ∀ c r, (f c r).occupancy = r.occupancy) (s : State) :
    BooksKept s { s with cells := s.cells.update CellRec.blank f } :=
  .of_phases (.refl _) (fun c => by
    have h : State.cell { s with cells := s.cells.update CellRec.blank f } c = f c (s.cell c) :=
      Table.get_update _ _ _ hb ht c
    rw [h, ho]) rfl

theorem cellLineUp_booksKept (p : PortIx) (s : State) : BooksKept s (cellLineUp p s) := by
  unfold cellLineUp
  split
  · exact .refl s
  · have hp : BooksKept s (s.setPort p { CellPort.blank with link := .up }) := .other rfl rfl rfl
    refine hp.trans (.updateCells (resumeCell_blank p) (resumeCell_twice p) (fun c r => ?_) _)
    unfold resumeCell
    split <;> rfl

theorem cellsDown_booksKept (p : PortIx) (s : State) : BooksKept s (cellsDown p s) := by
  refine .updateCells (downCell_blank p) (downCell_twice p) (fun c r => ?_) s
  unfold downCell
  split <;> rfl

/-- A line-down frees what waits in the port's queue, and puts the port's cells out of service (R86). -/
theorem cellLineDown_booked (p : PortIx) (h : s.Booked) : (cellLineDown p s).Booked := by
  have hp : BooksKept s (s.setPort p CellPort.blank) := .other rfl rfl rfl
  have hf : (flushPort p s).Booked := (h.kept hp).foldl flushFrame_booked _
  exact (hf.kept (cellsDown_booksKept p _)).kept (finish_booksKept s _)

theorem trunkUp_booksKept (s : State) : BooksKept s (trunkUp s) := by
  unfold trunkUp
  split
  · exact .refl s
  · exact .other rfl rfl rfl

theorem trunkDown_booksKept (s : State) : BooksKept s (trunkDown s) := .other rfl rfl rfl

theorem restartExpiry_booksKept (c : CellIx) (s : State) : BooksKept s (restartExpiry c s) := by
  unfold restartExpiry
  split
  · split
    · exact .setCell rfl
    · exact .refl s
  all_goals exact .refl s

theorem takeIfRoom_booked (h : s.Booked) : (takeIfRoom s).Booked := by
  unfold takeIfRoom
  split
  · exact takeOne_booked h
  · exact h

/-! ### Commands and steps -/

theorem State.Booked.of_next {u : State} (h : u.Booked) (hc : (.next u : Host.Outcome State Fault Refusal) = .next t) :
    t.Booked := Host.Outcome.next.inj hc ▸ h

theorem State.Booked.event_next {f : State → State} (h : s.Booked) (hf : Books.KeptBy f)
    (hc : (.next (event f s) : Host.Outcome State Fault Refusal) = .next t) : t.Booked := (event_booked (hf s h)).of_next hc

theorem State.Booked.kept_next {f : State → State} (h : s.Booked) (hf : ∀ s, BooksKept s (f s))
    (hc : (.next (event f s) : Host.Outcome State Fault Refusal) = .next t) : t.Booked :=
  h.event_next (BooksKept.keptBy hf) hc

theorem State.Booked.row_next {f : State → State} (h : s.Booked) (hf : Books.KeptBy (event f))
    (hc : (.next (event f s) : Host.Outcome State Fault Refusal) = .next t) : t.Booked := (hf s h).of_next hc

theorem exec_booked {c : Instr} (h : s.Booked) (hc : exec c s = .next t) : t.Booked := by
  cases c with
  | powerOnReset => exact (powerOnReset_booked s).of_next hc
  | cellPortLineUp p => exact h.kept_next (cellLineUp_booksKept p) hc
  | cellPortLineDown p =>
    cases hl : (s.port p).link with
    | down =>
      rw [exec_cellPortLineDown_down hl] at hc
      exact h.of_next hc
    | up =>
      rw [exec_cellPortLineDown_up hl] at hc
      exact (takes_booked s (eachContext_booked (lossAtContext_booked _ _) (cellLineDown_booked p h))).of_next hc
  | trunkLineUp => exact h.kept_next trunkUp_booksKept hc
  | trunkLineDown =>
    cases hl : s.trunk.link with
    | down =>
      rw [exec_trunkLineDown_down hl] at hc
      exact h.of_next hc
    | up =>
      rw [exec_trunkLineDown_up hl] at hc
      exact ((h.kept (trunkDown_booksKept s)).foldl silentEnding_booked _).of_next hc
  | attachReq c hid cl q => exact h.event_next (rxAttach_booked c hid cl q) hc
  | detachInd c hid => exact h.event_next (rxDetach_booked c hid) hc
  | presence c hid q => exact h.event_next (rxPresence_booked c hid q) hc
  | callReq c hid => exact h.event_next (rxCallReq_booked c hid) hc
  | measRep c hid ch qs ps => exact h.event_next (rxMeas_booked c hid ch qs ps) hc
  | legAck c n ch o a => exact h.event_next (rxLegAck_booked c n ch o a) hc
  | legLost c ch cause => exact h.event_next (rxLegLost_booked c ch cause) hc
  | pageRsp c hid q => exact h.event_next (rxPageRsp_booked c hid q) hc
  | voxUplink c ch sq p => exact h.event_next (rxVoxUp_booked c ch sq p) hc
  | voxDownlink ch sq p => exact h.event_next (rxVoxDown_booked ch sq p) hc
  | callOpen ch hid p => exact h.event_next (rxCallOpen_booked ch hid p) hc
  | callClear ch => exact h.event_next (rxCallClear_booked ch) hc
  | pageReq hid n => exact h.event_next (rxPageReq_booked hid n) hc
  | mgmtReq tag op operands => exact h.event_next (rxMgmt_booked tag op operands) hc
  | badOperation tag => exact h.row_next (read_booked fun _ => rfl) hc
  | readCaps tag => exact h.row_next (read_booked fun _ => rfl) hc
  | tableWrite tag i entry => exact h.row_next (row_booksKept (tableWrite_booksKept i entry)) hc
  | tableRead tag b i => exact h.row_next (read_booked (tableRead_state b i)) hc
  | fieldModify tag i w => exact h.row_next (row_booksKept (fieldModify_booksKept i w)) hc
  | tableClear tag b i => exact h.row_next (row_booksKept (tableClear_booksKept b i)) hc
  | cellEnable tag n => exact h.row_next (row_booksKept fun s => onCell_booksKept fun c => enableCell_booksKept c s) hc
  | cellDisable tag n =>
    refine State.Booked.of_next ?_ hc
    split
    · exact disableLoss_booked n s (row_booksKept (fun s => onCell_booksKept fun c => serve_booksKept c _ s) s h)
    · exact h
  | cellDrain tag n =>
    refine State.Booked.of_next ?_ hc
    split
    · exact drainStart_booked n s (row_booksKept (fun s => onCell_booksKept fun c => drainCell_booksKept _ c s) s h)
    · exact h
  | cellRestart tag n =>
    refine State.Booked.of_next ?_ hc
    split
    · exact drainStart_booked n s (row_booksKept (fun s => onCell_booksKept fun c => drainCell_booksKept _ c s) s h)
    · exact h
  | holdSet tag => exact h.row_next (row_booksKept fun _ => .other rfl rfl rfl) hc
  | holdClear tag => exact h.row_next (row_booksKept fun _ => .other rfl rfl rfl) hc
  | holdEnable tag e => exact h.row_next (row_booksKept fun _ => .other rfl rfl rfl) hc
  | holdStatus tag k => exact h.row_next (row_booksKept fun _ => .other rfl rfl rfl) hc
  | sweepStart tag k g => exact h.row_next (row_booksKept (sweepStart_booksKept k g)) hc
  | sweepSuspend tag => exact h.row_next (row_booksKept sweepSuspend_booksKept) hc
  | sweepResume tag => exact h.row_next (row_booksKept sweepResume_booksKept) hc
  | sweepAbort tag => exact h.row_next (row_booksKept sweepAbort_booksKept) hc
  | sweepStatus tag => exact h.row_next (read_booked fun _ => rfl) hc
  | evict tag hid => exact h.row_next (row_booksKept (evict_booksKept hid)) hc
  | countersRead tag n b => exact h.row_next (row_booksKept (countersRead_booksKept n b)) hc
  | restart tag => exact h.row_next (row_booked restartAll_booked) hc
  | presenceDeadlineExpiry i => exact h.kept_next (presenceExpiry_booksKept i) hc
  | guardDeadlineExpiry x => exact h.kept_next (guardExpiry_booksKept x) hc
  | bridgeDeadlineExpiry x => exact h.event_next (fun _ hs => bridgeExpiry_booked x hs) hc
  | rescueDeadlineExpiry x => exact h.event_next (fun _ hs => rescueExpiry_booked x hs) hc
  | pendingDeadlineExpiry n => exact h.event_next (fun _ hs => pendingExpiry_booked n hs) hc
  | drainDeadlineExpiry c =>
    cases hd : drainDue c s with
    | none =>
      simp only [exec, execDrainDeadlineExpiry, hd] at hc
      exact h.of_next hc
    | some f =>
      simp only [exec, execDrainDeadlineExpiry, hd] at hc
      exact (eachContext_booked (lossAtContext_booked _ _)
        (event_booked (h.kept (enterFollowOn_booksKept c f s)))).of_next hc
  | restartDeadlineExpiry c => exact h.kept_next (restartExpiry_booksKept c) hc
  | pageOccasion e => exact h.kept_next (pageDue_booksKept e) hc
  | cellPortTransmitComplete p => exact h.kept_next (completeCellTx_booksKept p) hc
  | trunkTransmitComplete => exact h.kept_next completeTrunkTx_booksKept hc
  | sweepStep => exact h.kept_next stepSweep_booksKept hc
  | hrqTake => exact h.event_next (fun _ hs => takeIfRoom_booked hs) hc
  | waitingForRoomPost => exact h.kept_next offerPlace_booksKept hc
  | noticeRefill => exact h.kept_next refill_booksKept hc
  | receivedFrameDiscarded l bytes => exact h.event_next (receive_booked l bytes) hc

/-- Settles O25: a step runs the front command from the state without it, or counts a millisecond. -/
theorem stepKeepsOccupancy : Obligations.StepKeepsOccupancy := fun s t hi ho hs => by
  have h : s.Booked := ⟨hi.answers.once, ho⟩
  cases hp : s.pending with
  | nil =>
    rw [step_idle hp] at hs
    have hq : State.Booked { s with now := s.now + 1 } := h.kept (.other rfl rfl rfl)
    exact (hq.of_next hs).books
  | cons c rest =>
    rw [step_pending hp] at hs
    have hq : State.Booked { s with pending := rest } := h.kept (.other rfl rfl rfl)
    exact (exec_booked hq hs).books

end

end Sys2Proof.Machine
end

section
/-! PROOFS. Reserves and releases at a cell, and the end of its drain (R60 to R63, R68, R69). -/

namespace Sys2Proof.Machine

section
variable {c : CellIx} {s : State}

/-! ### The follow-on of a drain -/

/-- The ports after a cell enters its follow-on: a restart offers CELL-RESTART (R69). -/
def FollowOn.ports (c : CellIx) (s : State) : FollowOn → Table 4 CellPort
  | .outOfService => s.ports
  | .restarting => (offerQuietly (.cellRestart c) s).ports

theorem FollowOn.ports_setCell (f : FollowOn) (c d : CellIx) (v : CellRec) (s : State) :
    f.ports c (s.setCell d v) = f.ports c s := by
  cases f with
  | outOfService => rfl
  | restarting => exact offerQuietly_ports_congr (u := s.setCell d v) (s := s) rfl (.cellRestart c)

/-- The end of a drain writes the service state of the cell, and the ports. -/
structure Drained (c : CellIx) (f : FollowOn) (s t : State) : Prop where
  only : t = { s with cells := t.cells, ports := f.ports c s }
  same : t.cell c = { s.cell c with service := f.service s }
  others : ∀ d, d ≠ c → t.cell d = s.cell d

theorem enterFollowOn_drained (c : CellIx) (f : FollowOn) (s : State) : Drained c f s (enterFollowOn c f s) := by
  cases f with
  | outOfService => exact ⟨rfl, State.cell_setCell_self _ _ _, fun d hd => State.cell_setCell_ne _ hd _⟩
  | restarting =>
    have ho := offerQuietly_ports (.cellRestart c)
      (s.setCell c { s.cell c with service := .restarting (s.after (s.config.restartTime * 1000)) })
    have hp := offerQuietly_ports_congr (s := s)
      (u := s.setCell c { s.cell c with service := .restarting (s.after (s.config.restartTime * 1000)) }) rfl (.cellRestart c)
    rw [hp] at ho
    refine ⟨ho.trans ?_, (congrArg (·.cell c) ho).trans (State.cell_setCell_self _ _ _), fun d hd =>
      (congrArg (·.cell d) ho).trans (State.cell_setCell_ne _ hd _)⟩
    unfold enterFollowOn
    rw [ho]
    rfl

/-- A drain goes on while a leg or an open is left (R68). -/
theorem endDrainIfEmpty_occupied (h : ∀ f d, (s.cell c).service = .draining f d → (s.cell c).occupancy ≠ 0) :
    endDrainIfEmpty c s = s := by
  unfold endDrainIfEmpty
  split
  · rfl
  · rfl
  · next f d hs => exact if_neg (h f d hs)
  · rfl

theorem endDrainIfEmpty_empty {f : FollowOn} {d : Time} (hs : (s.cell c).service = .draining f d)
    (ho : (s.cell c).occupancy = 0) : endDrainIfEmpty c s = enterFollowOn c f s := by
  unfold endDrainIfEmpty
  rw [hs]
  exact if_pos ho

/-! ### Releases -/

/-- The record of a cell after a release (R60, R63). -/
def CellRec.released (r : CellRec) : CellRec :=
  { r with occupancy := r.occupancy - 1, congested := r.congested && decide (r.lower < r.occupancy - 1) }

theorem releaseSlot_eq (c : CellIx) (s : State) : releaseSlot c s = endDrainIfEmpty c (s.setCell c (s.cell c).released) := by
  unfold releaseSlot CellRec.released congestedAfterRelease
  simp only [← Nat.not_le, decide_not]

theorem releaseSlot_occupied (h : ∀ f d, (s.cell c).service = .draining f d → 1 < (s.cell c).occupancy) :
    releaseSlot c s = s.setCell c (s.cell c).released := by
  rw [releaseSlot_eq]
  refine endDrainIfEmpty_occupied fun f d hs => ?_
  rw [State.cell_setCell_self] at hs ⊢
  exact Nat.sub_ne_zero_of_lt (h f d hs)

/-- The release of the last slot of a cell in DRAINING (R68). -/
theorem releaseSlot_last {f : FollowOn} {d : Time} (hs : (s.cell c).service = .draining f d) (ho : (s.cell c).occupancy ≤ 1) :
    releaseSlot c s = { s with cells := (releaseSlot c s).cells, ports := f.ports c s } ∧
      (∀ d, d ≠ c → (releaseSlot c s).cell d = s.cell d) ∧
      (releaseSlot c s).cell c = { s.cell c with occupancy := 0, congested := false, service := f.service s } := by
  have hrec : (s.cell c).released = { s.cell c with occupancy := 0, congested := false } := by
    have h0 : (s.cell c).occupancy - 1 = 0 := by omega
    unfold CellRec.released
    rw [h0]
    simp
  have hset := State.cell_setCell_self s c (s.cell c).released
  have hend : releaseSlot c s = enterFollowOn c f (s.setCell c (s.cell c).released) := by
    rw [releaseSlot_eq]
    exact endDrainIfEmpty_empty (d := d) (by rw [hset]; exact hs) (by rw [hset, hrec])
  have hd := enterFollowOn_drained c f (s.setCell c (s.cell c).released)
  rw [← hend] at hd
  refine ⟨hd.only.trans ?_, fun e he => (hd.others e he).trans (State.cell_setCell_ne _ he _), ?_⟩
  · rw [FollowOn.ports_setCell]
    rfl
  · rw [hd.same, hset, hrec]
    cases f <;> rfl

end

/-- Settles O21. -/
theorem occupancyReports : Obligations.OccupancyReports := by
  intro c s
  refine ⟨if_pos rfl, fun p hp => if_neg hp, fun limit hs => if_neg hs, fun limit hs hl => ?_, fun limit hs hl => ?_,
    fun h => ?_, fun d hs ho => releaseSlot_last hs ho, fun d hs ho => releaseSlot_last hs ho⟩
  · unfold reserve
    dsimp only
    rw [if_pos hs, if_neg (Nat.not_lt.2 hl)]
  · exact ⟨_, reserve_ok hs hl, rfl, fun d hd => State.cell_setCell_ne _ hd _, State.cell_setCell_self _ _ _⟩
  · rw [releaseSlot_occupied h]
    exact ⟨rfl, fun d hd => State.cell_setCell_ne _ hd _, State.cell_setCell_self _ _ _⟩

end Sys2Proof.Machine
end

section
/-! PROOFS. The four commands on cells (R64 to R69): refused, or leading to a service state; a drain ends at once where the
cell is empty. -/

namespace Sys2Proof.Machine

section
variable {c : CellIx} {n : Nat} {tag : Tag} {f : FollowOn} {s t : State}

/-! ### The cell that a command names -/

theorem namedCell_val (hp : (s.cell c).present = true) : namedCell c.val s = some c := by
  unfold namedCell
  rw [inRange_val]
  exact if_pos hp

theorem namedCell_absent (h : ∀ c : CellIx, n = c.val → (s.cell c).present = false) : namedCell n s = none := by
  unfold namedCell inRange
  split
  · next hn => exact if_neg (Bool.eq_false_iff.1 (h ⟨n, hn⟩ rfl))
  · rfl

theorem onCell_val (hp : (s.cell c).present = true) (op : CellIx → State → State × MgmtAnswer) :
    onCell c.val op s = op c s := by
  unfold onCell
  rw [namedCell_val hp]

theorem onCell_absent (h : ∀ c : CellIx, n = c.val → (s.cell c).present = false)
    (op : CellIx → State → State × MgmtAnswer) : onCell n op s = (s, ⟨.badIndex, .none⟩) := by
  unfold onCell
  rw [namedCell_absent h]
  rfl

/-! ### The operations on a cell -/

theorem enableCell_refused (h : (s.cell c).service ≠ .outOfService) :
    enableCell c s = (s, ⟨.wrongState, .service (s.cell c).service.name⟩) := by
  unfold enableCell serviceAnswer
  split
  · next hs => exact absurd hs h
  all_goals rfl

theorem enableCell_down (h : (s.cell c).service = .outOfService) (hl : (s.port (portOf c)).link = .down) :
    enableCell c s = (s, ⟨.linkDown, .none⟩) := by
  unfold enableCell
  rw [h, hl]
  rfl

theorem enableCell_up (h : (s.cell c).service = .outOfService) (hl : (s.port (portOf c)).link = .up) :
    enableCell c s = (s.setCell c { s.cell c with service := .inService }, ⟨.ok, .service .inService⟩) := by
  unfold enableCell serviceAnswer
  rw [h, hl]
  dsimp only
  rw [State.cell_setCell_self]
  rfl

theorem drainCell_refused (h : (s.cell c).service ≠ .inService) :
    drainCell f c s = (s, ⟨.wrongState, .service (s.cell c).service.name⟩) := by
  unfold drainCell serviceAnswer
  split
  · next hs => exact absurd hs h
  all_goals rfl

theorem drainCell_occupied (h : (s.cell c).service = .inService) (ho : 0 < (s.cell c).occupancy) :
    drainCell f c s = (s.setCell c { s.cell c with service := .draining f (inMs (s.config.drainTime * 1000) s) },
      ⟨.ok, .service .draining⟩) := by
  unfold drainCell serviceAnswer
  rw [h]
  dsimp only
  rw [endDrainIfEmpty_occupied fun _ _ _ => by rw [State.cell_setCell_self]; exact Nat.ne_of_gt ho, State.cell_setCell_self]
  rfl

/-- With occupancy 0 the drain ends at once, and the answer carries the follow-on (R68). -/
theorem drainCell_empty (h : (s.cell c).service = .inService) (ho : (s.cell c).occupancy = 0) :
    ∃ u, drainCell f c s = (u, ⟨.ok, .service (f.service s).name⟩) ∧ Drained c f s u := by
  have hset := State.cell_setCell_self s c
    { s.cell c with service := .draining f (s.after (s.config.drainTime * 1000)) }
  have hend := enterFollowOn_drained c f
    (s.setCell c { s.cell c with service := .draining f (s.after (s.config.drainTime * 1000)) })
  have hd : Drained c f s (enterFollowOn c f
      (s.setCell c { s.cell c with service := .draining f (s.after (s.config.drainTime * 1000)) })) := by
    refine ⟨hend.only.trans ?_, hend.same.trans ?_, fun d hd => (hend.others d hd).trans (State.cell_setCell_ne _ hd _)⟩
    · rw [FollowOn.ports_setCell]
      rfl
    · rw [hset]
      cases f <;> rfl
  refine ⟨_, ?_, hd⟩
  unfold drainCell serviceAnswer
  rw [h]
  dsimp only
  rw [endDrainIfEmpty_empty (f := f) (by rw [hset]) (by rw [hset]; exact ho), hd.same]

/-! ### The contexts' part of a command -/

theorem drainStart_none (h : ∀ c, namedCell n s = some c → (s.cell c).service ≠ .inService ∨ (s.cell c).occupancy = 0) :
    drainStart n s t = t := by
  unfold drainStart
  split
  · rfl
  · next c hn => exact if_neg fun ⟨hs, ho⟩ => (h c hn).elim (· hs) (Nat.ne_of_gt ho)

theorem drainStart_some (hp : (s.cell c).present = true) (hs : (s.cell c).service = .inService)
    (ho : 0 < (s.cell c).occupancy) : drainStart c.val s t = eachContext (drainStartAt c) t := by
  unfold drainStart
  rw [namedCell_val hp]
  exact if_pos ⟨hs, ho⟩

theorem disableLoss_none (h : ∀ c, namedCell n s = some c → (s.cell c).service.working = false) : disableLoss n s t = t := by
  unfold disableLoss
  split
  · rfl
  · next c hn => exact if_neg (Bool.eq_false_iff.1 (h c hn))

/-! ### The commands, while their request is in execution -/

theorem exec_disable (hx : Executing tag (asksFor 0x11) s) : exec (.cellDisable tag n) s =
    .next (disableLoss n s (event (respond tag (asksFor 0x11) (onCell n disableCell)) s)) :=
  congrArg Host.Outcome.next (if_pos (executes_iff.2 hx))

theorem exec_drain (hx : Executing tag (asksFor 0x12) s) : exec (.cellDrain tag n) s =
    .next (drainStart n s (event (respond tag (asksFor 0x12) (onCell n (drainCell .outOfService))) s)) :=
  congrArg Host.Outcome.next (if_pos (executes_iff.2 hx))

theorem exec_restart (hx : Executing tag (asksFor 0x13) s) : exec (.cellRestart tag n) s =
    .next (drainStart n s (event (respond tag (asksFor 0x13) (onCell n (drainCell .restarting))) s)) :=
  congrArg Host.Outcome.next (if_pos (executes_iff.2 hx))

theorem enable_answers {u : State} {a : MgmtAnswer} (ho : onCell n enableCell s = (u, a)) (hq : u.hrq = s.hrq)
    (hc : u.calls = s.calls) : Answers (.cellEnable tag n) tag (asksFor 0x10) s a u := runs_respond rfl ho hq hc

/-- A disable of a cell that works for no context. -/
theorem disable_answers (h : ∀ c, namedCell n s = some c → (s.cell c).service.working = false) {u : State} {a : MgmtAnswer}
    (ho : onCell n disableCell s = (u, a)) (hq : u.hrq = s.hrq) (hc : u.calls = s.calls) :
    Answers (.cellDisable tag n) tag (asksFor 0x11) s a u := fun hx =>
  runs_respond ((exec_disable hx).trans (by rw [disableLoss_none h])) ho hq hc hx

/-- A drain that starts at no context. -/
theorem drain_answers (h : ∀ c, namedCell n s = some c → (s.cell c).service ≠ .inService ∨ (s.cell c).occupancy = 0)
    {u : State} {a : MgmtAnswer} (ho : onCell n (drainCell .outOfService) s = (u, a)) (hq : u.hrq = s.hrq)
    (hc : u.calls = s.calls) : Answers (.cellDrain tag n) tag (asksFor 0x12) s a u := fun hx =>
  runs_respond ((exec_drain hx).trans (by rw [drainStart_none h])) ho hq hc hx

theorem restart_answers (h : ∀ c, namedCell n s = some c → (s.cell c).service ≠ .inService ∨ (s.cell c).occupancy = 0)
    {u : State} {a : MgmtAnswer} (ho : onCell n (drainCell .restarting) s = (u, a)) (hq : u.hrq = s.hrq)
    (hc : u.calls = s.calls) : Answers (.cellRestart tag n) tag (asksFor 0x13) s a u := fun hx =>
  runs_respond ((exec_restart hx).trans (by rw [drainStart_none h])) ho hq hc hx

/-- A cell that a command names is the one with that index. -/
theorem namedCell_eq {d : CellIx} (hp : (s.cell c).present = true) (hd : namedCell c.val s = some d) : d = c := by
  rw [namedCell_val hp] at hd
  exact (Option.some.inj hd).symm

/-- A disable of a working cell: the event of the command, then the contexts' events (R66). -/
theorem disable_started (hx : Executing tag (asksFor 0x11) s) (hp : (s.cell c).present = true)
    (hw : (s.cell c).service.working = true) :
    ∃ u, exec (.cellDisable tag c.val) s = .next (eachContext (lossAtContext (fun d => decide (d = c)) .cellDisabled) u) ∧
      EventEnd s (answered tag ⟨.ok, .service .outOfService⟩ (s.setCell c { s.cell c with service := .outOfService })) u := by
  have hu := respond_answered hx (onCell_disable hp)
  have hend := event_end_still (f := respond tag (asksFor 0x11) (onCell c.val disableCell)) (s := s)
    (by rw [hu, answered_hrq]; rfl) (by rw [hu, answered_calls]; rfl)
  rw [hu] at hend
  exact ⟨_, exec_cellDisable hp hw hx, hend⟩

/-- A drain start at an occupied cell: the event of the command, then the contexts' events. -/
theorem drain_started {i : Instr} {fits : MgmtFrame → Bool} (hx : Executing tag fits s)
    (hi : exec i s = .next (drainStart c.val s (event (respond tag fits (onCell c.val (drainCell f))) s)))
    (hp : (s.cell c).present = true) (hs : (s.cell c).service = .inService) (ho : 0 < (s.cell c).occupancy) :
    ∃ u, exec i s = .next (eachContext (drainStartAt c) u) ∧
      EventEnd s (answered tag ⟨.ok, .service .draining⟩
        (s.setCell c { s.cell c with service := .draining f (inMs (s.config.drainTime * 1000) s) })) u := by
  have hu := respond_answered hx ((onCell_val hp _).trans (drainCell_occupied (f := f) hs ho))
  have hend := event_end_still (f := respond tag fits (onCell c.val (drainCell f))) (s := s)
    (by rw [hu, answered_hrq]; rfl) (by rw [hu, answered_calls]; rfl)
  rw [hu] at hend
  rw [drainStart_some hp hs ho] at hi
  exact ⟨_, hi, hend⟩

theorem drainStarts_setting (c : CellIx) (s : State) : SettingKept s (eachContext (drainStartAt c) s) :=
  (eachContext_steps (fun x s => drainStartAt_moves c x s) s).raws.setting

end

/-- Settles O22. -/
theorem cellCommandsAnswered : Obligations.CellCommandsAnswered := by
  refine ⟨fun tag n s => ⟨fun h => ?_, ?_⟩, fun tag c s hp hs => ⟨fun ho => ?_, fun ho => ?_⟩⟩
  · have hn := namedCell_absent h
    have none : ∀ {P : CellIx → Prop} (c : CellIx), namedCell n s = some c → P c := fun c hc => by
      rw [hn] at hc
      cases hc
    exact ⟨enable_answers (onCell_absent h _) rfl rfl, disable_answers none (onCell_absent h _) rfl rfl,
      drain_answers none (onCell_absent h _) rfl rfl, restart_answers none (onCell_absent h _) rfl rfl⟩
  · rintro c rfl hp
    have hv := onCell_val hp
    refine ⟨fun h => enable_answers ((hv _).trans (enableCell_refused h)) rfl rfl,
      fun h hl => enable_answers ((hv _).trans (enableCell_down h hl)) rfl rfl,
      fun h hl => enable_answers ((hv _).trans (enableCell_up h hl)) rfl rfl, fun h => ?_, fun h => ?_, fun h hx => ?_⟩
    · have hidle : ∀ d, namedCell c.val s = some d → (s.cell d).service ≠ .inService ∨ (s.cell d).occupancy = 0 :=
        fun d hd => by rw [namedCell_eq hp hd]; exact .inl h
      exact ⟨drain_answers hidle ((hv _).trans (drainCell_refused h)) rfl rfl,
        restart_answers hidle ((hv _).trans (drainCell_refused h)) rfl rfl⟩
    · have hidle : (s.cell c).service.working = false := by rcases h with h | ⟨d, h⟩ <;> rw [h] <;> rfl
      exact disable_answers (fun d hd => by rw [namedCell_eq hp hd]; exact hidle) (onCell_disable hp) rfl rfl
    · have hw : (s.cell c).service.working = true := by rcases h with h | ⟨f, d, h⟩ <;> rw [h] <;> rfl
      obtain ⟨u, hi, hu⟩ := disable_started hx hp hw
      have hset := (losses_raws (fun d => decide (d = c)) .cellDisabled u).setting
      have hserve : (u.cell c).service = .outOfService := by
        rw [hu.cell, answered_eq]
        exact congrArg CellRec.service (State.cell_setCell_self _ _ _)
      refine ⟨_, hi, ?_, u, hset, hu⟩
      rw [← hserve]
      exact Service.follows_settled (hset.service c) fun f d hd => by rw [hserve] at hd; cases hd
  · have hidle : ∀ d, namedCell c.val s = some d → (s.cell d).service ≠ .inService ∨ (s.cell d).occupancy = 0 :=
      fun d hd => by rw [namedCell_eq hp hd]; exact .inr ho
    constructor
    · intro hx
      obtain ⟨u, hu, hd⟩ := drainCell_empty (f := .outOfService) hs ho
      obtain ⟨t, ht, hend⟩ := drain_answers (tag := tag) hidle ((onCell_val hp _).trans hu) (by rw [hd.only])
        (by rw [hd.only]) hx
      exact ⟨t, ht, u, hd.only, hd.same, hd.others, hend⟩
    · intro hx
      obtain ⟨u, hu, hd⟩ := drainCell_empty (f := .restarting) hs ho
      obtain ⟨t, ht, hend⟩ := restart_answers (tag := tag) hidle ((onCell_val hp _).trans hu) (by rw [hd.only])
        (by rw [hd.only]) hx
      exact ⟨t, ht, u, hd.only, hd.same, hd.others, hend⟩
  · constructor
    · intro hx
      obtain ⟨u, hi, hu⟩ := drain_started hx (exec_drain hx) hp hs ho
      exact ⟨_, hi, u, drainStarts_setting c u, hu⟩
    · intro hx
      obtain ⟨u, hi, hu⟩ := drain_started hx (exec_restart hx) hp hs ho
      exact ⟨_, hi, u, drainStarts_setting c u, hu⟩

end Sys2Proof.Machine
end

section
/-! PROOFS. What a write of a cell record or of CONFIG stores, clamps and refuses (R56, R57, R59, R182, R184). -/

namespace Sys2Proof.Machine

/-! ### The clamps (R57) -/

theorem clampTo_zero (hi v : Nat) : clampTo 0 hi v = min v hi := Nat.zero_max _

theorem CellRec.clampGuard_eq (r : CellRec) : r.clampGuard = { r with guard := min r.guard (r.capacity - 1) } := by
  unfold CellRec.clampGuard
  rw [clampTo_zero]

theorem CellRec.clampLower_eq (r : CellRec) : r.clampLower = { r with lower := min r.lower (r.upper - 1) } := by
  unfold CellRec.clampLower
  rw [clampTo_zero]

theorem CellRec.clampShift_eq (r : CellRec) : r.clampShift = { r with shift := min r.shift 4 } := by
  unfold CellRec.clampShift
  rw [clampTo_zero]

/-- A capacity settles the guard and both watermarks, in this order. -/
theorem CellRec.clampLoad_eq (r : CellRec) : r.clampLoad = { r with
    guard := min r.guard (r.capacity - 1), upper := max 1 (min r.upper r.capacity)
    lower := min r.lower (max 1 (min r.upper r.capacity) - 1) } := by
  unfold CellRec.clampLoad
  rw [CellRec.clampGuard_eq, CellRec.clampLower_eq]
  rfl

/-! ### The tests of the state of the cell (R56) -/

section
variable {b : Bool} {held new : CellRec}

theorem judgeCell_structural (hb : b = true) (hs : held.service ≠ .outOfService) : judgeCell b held new = some .structural :=
  if_pos (by simp [hb, hs])

theorem judgeCell_passes (hs : b = true → held.service = .outOfService) : judgeCell b held new =
    if new.capacity < held.occupancy then some .inUse
    else if new.present = false ∧ 0 < held.occupancy then some .inUse else none :=
  if_neg (by simpa using hs)

theorem judgeCell_taken (hs : b = true → held.service = .outOfService) (hc : held.occupancy ≤ new.capacity)
    (hp : new.present = false → held.occupancy = 0) : judgeCell b held new = none := by
  rw [judgeCell_passes hs, if_neg (Nat.not_lt.2 hc), if_neg fun ⟨h, ho⟩ => Nat.ne_of_gt ho (hp h)]

theorem judgeCell_inUse (hs : b = true → held.service = .outOfService)
    (h : new.capacity < held.occupancy ∨ new.present = false ∧ 0 < held.occupancy) :
    judgeCell b held new = some .inUse := by
  rw [judgeCell_passes hs]
  rcases h with h | h
  · exact if_pos h
  · rw [if_pos h, ite_self]

end

theorem structuralDiffers_iff {a b : CellRec} : structuralDiffers a b = true ↔
    a.present ≠ b.present ∨ a.zone ≠ b.zone ∨ a.capacity ≠ b.capacity ∨ a.guard ≠ b.guard := by
  simp only [structuralDiffers, Bool.not_eq_true', Bool.and_eq_false_iff, decide_eq_false_iff_not, or_assoc, ne_eq]

/-! ### Writes of a cell record -/

section
variable {c : CellIx} {b : Bool} {w v : CellRec} {s : State}

theorem storeCell_stored (c : CellIx) (w v : CellRec) (s : State) : CellStored c w.stored v s (storeCell c w v s) := by
  refine ⟨?_, ?_, fun d hd => ?_, ?_⟩
  · unfold storeCell taken
    split <;> rfl
  · rw [storeCell_state, State.cell_setCell_self]
  · rw [storeCell_state, State.cell_setCell_ne s hd]
  · rw [storeCell_state]
    rfl

theorem storeField_stored (h : judgeCell b (s.cell c) w = none) : CellStored c w.stored v s (storeField c b w v s) := by
  unfold storeField
  rw [h]
  exact storeCell_stored c w v s

theorem storeField_refused {r : MgmtResult} (h : judgeCell b (s.cell c) w = some r) :
    storeField c b w v s = (s, ⟨r, .none⟩) := by
  unfold storeField
  rw [h]
  rfl

end

section
variable {c : CellIx} {w : CellWrite} {z : ZoneIx} {s : State}

theorem writeCell_zone (h : 15 < w.zone) : writeCell c w s = (s, ⟨.badValue, .field 2⟩) := by
  unfold writeCell
  rw [inRange_none h]
  rfl

theorem writeCell_capacity (hz : w.zone = z.val) (h : w.capacity < 1 ∨ 12 < w.capacity) :
    writeCell c w s = (s, ⟨.badValue, .field 3⟩) := by
  unfold writeCell
  rw [inRange_eq hz]
  exact if_pos h

variable (hz : w.zone = z.val) (hl : 1 ≤ w.capacity) (hu : w.capacity ≤ 12)
include hz hl hu

theorem writeCell_hysteresis (h : 15 < w.hysteresis) : writeCell c w s = (s, ⟨.badValue, .field 7⟩) := by
  unfold writeCell
  rw [inRange_eq hz]
  dsimp only
  rw [if_neg (by omega), if_pos h]
  rfl

theorem writeCell_floor (hh : w.hysteresis ≤ 15) (h : 63 < w.floor) : writeCell c w s = (s, ⟨.badValue, .field 8⟩) := by
  unfold writeCell
  rw [inRange_eq hz]
  dsimp only
  rw [if_neg (by omega), if_neg (by omega), if_pos h]
  rfl

/-- A write whose values are in range is one of all fields, structural where a structural field differs (R56). -/
theorem writeCell_judged (hh : w.hysteresis ≤ 15) (hf : w.floor ≤ 63) : writeCell c w s =
    storeField c (structuralDiffers (s.cell c) ((s.cell c).written z w)) ((s.cell c).written z w)
      ((s.cell c).written z w).clampLoad.clampShift.clampDwell.rejudged s := by
  unfold writeCell storeField
  rw [inRange_eq hz]
  dsimp only
  rw [if_neg (by omega), if_neg (by omega), if_neg (by omega)]

end

/-- All clamps of a CELL write (R57). -/
theorem CellRec.clamps_eq (r : CellRec) : r.clampLoad.clampShift.clampDwell = { r with
    guard := min r.guard (r.capacity - 1), upper := max 1 (min r.upper r.capacity)
    lower := min r.lower (max 1 (min r.upper r.capacity) - 1), shift := min r.shift 4, dwell := max 1 (min r.dwell 7) } := by
  rw [CellRec.clampShift_eq, CellRec.clampLoad_eq]
  rfl

/-- The fields as they would be stored are those carried. -/
theorem CellRec.stored_written (r : CellRec) {z : ZoneIx} {w : CellWrite} (hz : w.zone = z.val) : (r.written z w).stored = w := by
  obtain ⟨_, zone, _⟩ := w
  obtain rfl : zone = z.val := hz
  rfl

/-! ### CONFIG (R184) -/

theorem storeConfig_stored (w v : ConfigTable) (s : State) : ConfigStored w v s (storeConfig w v s) := by
  unfold ConfigStored storeConfig taken
  split <;> rfl

theorem config_stored (w v : ConfigTable) {u : ConfigTable} (h : v = u) (s : State) : ConfigStored w u s (storeConfig w v s) :=
  h ▸ storeConfig_stored w v s

theorem configClamped_items (w : ConfigWrite) (p : SyncPolicy) : configClamped (configItems w p) =
    ⟨max 1 (min w.presencePeriod 255), max 1 (min w.deferBackoff 60), max 50 (min w.legTime 2000),
      max 20 (min w.bridgeTime 1000), min w.settleInterval 255, min w.retryInterval 255, max 200 (min w.rescueLimit 5000),
      max 100 (min w.pageInterval 2000), max 1 (min w.drainTime 255), max 1 (min w.restartTime 255), p⟩ := by
  unfold configClamped
  rw [clampTo_zero, clampTo_zero]
  rfl

/-- Settles O58. -/
theorem cellAndConfigWritten : Obligations.CellAndConfigWritten := by
  refine ⟨fun s c w => ?_, fun s c => ?_, ?_⟩
  · simp only [tableWrite, atIndex_val]
    refine ⟨writeCell_zone, fun z hz => ⟨writeCell_capacity hz, fun hl hu => ⟨writeCell_hysteresis hz hl hu,
      writeCell_floor hz hl hu, fun hh hf r hr => ?_⟩⟩⟩
    subst hr
    rw [writeCell_judged hz hl hu hh hf]
    refine ⟨fun v upper hupper hv hs hc hp => ?_, fun hs hd => ?_, fun hs hd => ?_⟩
    · have hj : judgeCell (structuralDiffers (s.cell c) ((s.cell c).written z w)) (s.cell c) ((s.cell c).written z w) = none := by
        refine judgeCell_taken (fun hd => hs.elim id fun ⟨h1, h2, h3, h4⟩ => ?_) hc hp
        rcases structuralDiffers_iff.1 hd with h | h | h | h
        · exact absurd h1.symm h
        · exact absurd h2.symm h
        · exact absurd h3.symm h
        · exact absurd h4.symm h
      have hv : ((s.cell c).written z w).clampLoad.clampShift.clampDwell.rejudged = judgedAgain v := by
        rw [CellRec.clamps_eq, hv, hupper]
        rfl
      have hstored := storeField_stored (v := judgedAgain v) hj
      rw [CellRec.stored_written _ hz] at hstored
      rw [hv]
      exact hstored
    · refine storeField_refused (judgeCell_structural (structuralDiffers_iff.2 ?_) hs)
      rcases hd with h | h | h | h
      · exact .inl h.symm
      · exact .inr (.inl h.symm)
      · exact .inr (.inr (.inl h.symm))
      · exact .inr (.inr (.inr h.symm))
    · exact storeField_refused (judgeCell_inUse (fun _ => hs) hd)
  · simp only [tableClear, atIndex_val]
    refine ⟨fun hs => if_neg hs, fun hs ho => ?_, fun hs ho => ?_⟩
    · unfold clearCell
      rw [if_pos hs, if_pos ho]
      rfl
    · unfold clearCell
      rw [if_pos hs, if_neg (by omega)]
      exact ⟨rfl, State.cell_setCell_self s c _, fun d hd => State.cell_setCell_ne s hd _, rfl⟩
  · rintro s _ n rfl
    have hix : ∀ f : Fin 1 → State → State × MgmtAnswer, atIndex 1 0 f s = f 0 s := fun f => atIndex_val 0 f s
    simp only [tableWrite, fieldModify, tableClear, hix]
    refine ⟨fun w p hp => ?_, fun w hw => ?_, fun f carried stored hm => ?_, rfl, rfl⟩
    · unfold writeConfig
      rw [hp]
      exact config_stored _ _ (configClamped_items w p) s
    · unfold writeConfig
      rw [hw]
      rfl
    · simp only [List.mem_cons, Prod.mk.injEq, List.not_mem_nil, or_false] at hm
      have sync : ∀ p, ConfigStored { s.config with sync := p } { s.config with sync := p } s
          (taken { s with config := { s.config with sync := p } }) := fun p => congrArg (Prod.mk _) (if_pos rfl).symm
      rcases hm with ⟨rfl, rfl, rfl⟩ | ⟨rfl, rfl, rfl⟩ | ⟨rfl, rfl, rfl⟩ | ⟨rfl, rfl, rfl⟩ | ⟨rfl, rfl, rfl⟩ |
        ⟨rfl, rfl, rfl⟩ | ⟨rfl, rfl, rfl⟩ | ⟨rfl, rfl, rfl⟩ | ⟨rfl, rfl, rfl⟩ | ⟨rfl, rfl, rfl⟩ | ⟨rfl, rfl, rfl⟩ |
        ⟨rfl, rfl, rfl⟩
      exacts [storeConfig_stored _ _ s, storeConfig_stored _ _ s, storeConfig_stored _ _ s, storeConfig_stored _ _ s,
        config_stored _ _ (by rw [clampTo_zero]) s, config_stored _ _ (by rw [clampTo_zero]) s, storeConfig_stored _ _ s,
        storeConfig_stored _ _ s, storeConfig_stored _ _ s, storeConfig_stored _ _ s, sync .discard, sync .fail]

end Sys2Proof.Machine
end

section
/-! PROOFS. FIELD_MODIFY of each field of a cell (R56, R57, R59, R182): what is stored, clamped, judged again or refused. -/

namespace Sys2Proof.Machine

section
variable {c : CellIx} {s : State}

/-- A structural field of a cell that is not OUT_OF_SERVICE (R56). -/
theorem modifyCell_structural {f : CellField} (hf : (∃ b, f = .present b) ∨ (∃ z : ZoneIx, f = .zone z.val) ∨
    (∃ m, 1 ≤ m ∧ m ≤ 12 ∧ f = .capacity m) ∨ (∃ m, f = .guard m)) (hs : (s.cell c).service ≠ .outOfService) :
    modifyCell c f s = (s, ⟨.structural, .none⟩) := by
  rcases hf with ⟨b, rfl⟩ | ⟨z, rfl⟩ | ⟨m, hl, hu, rfl⟩ | ⟨m, rfl⟩
  · exact storeField_refused (judgeCell_structural rfl hs)
  · unfold modifyCell
    dsimp only
    rw [inRange_val]
    exact storeField_refused (judgeCell_structural rfl hs)
  · unfold modifyCell
    dsimp only
    rw [if_neg (by omega)]
    exact storeField_refused (judgeCell_structural rfl hs)
  · exact storeField_refused (judgeCell_structural rfl hs)

/-! ### The structural fields of a cell OUT_OF_SERVICE -/

theorem modifyCell_present (hs : (s.cell c).service = .outOfService) (hc : (s.cell c).occupancy ≤ (s.cell c).capacity)
    {b : Bool} (hb : b = true ∨ (s.cell c).occupancy = 0) :
    CellStored c { (s.cell c).stored with present := b } { s.cell c with present := b } s (modifyCell c (.present b) s) :=
  storeField_stored (w := { s.cell c with present := b }) (judgeCell_taken (fun _ => hs) hc fun h =>
    hb.elim (fun ht => absurd (ht.symm.trans h) nofun) id)

theorem modifyCell_absent (hs : (s.cell c).service = .outOfService) (ho : 0 < (s.cell c).occupancy) :
    modifyCell c (.present false) s = (s, ⟨.inUse, .none⟩) :=
  storeField_refused (judgeCell_inUse (fun _ => hs) (.inr ⟨rfl, ho⟩))

theorem modifyCell_capacity_inUse (hs : (s.cell c).service = .outOfService) {n : Nat} (hl : 1 ≤ n) (hu : n ≤ 12)
    (ho : n < (s.cell c).occupancy) : modifyCell c (.capacity n) s = (s, ⟨.inUse, .none⟩) := by
  unfold modifyCell
  dsimp only
  rw [if_neg (by omega)]
  exact storeField_refused (judgeCell_inUse (fun _ => hs) (.inl ho))

end

/-! ### Fields that leave the presence and the capacity of a cell that meets the invariant -/

section
variable {c : CellIx} {s : State} (ho : (s.cell c).Ok)
include ho

/-- A field that leaves the presence and the capacity passes the tests for IN_USE. -/
theorem judgeCell_live {b : Bool} {w : CellRec} (hs : b = true → (s.cell c).service = .outOfService)
    (hc : w.capacity = (s.cell c).capacity) (hp : w.present = (s.cell c).present) : judgeCell b (s.cell c) w = none :=
  judgeCell_taken hs (hc ▸ ho.occupancy) fun h => (ho.absent (hp.symm.trans h)).2.1

/-- What a field stores where nothing refuses it. -/
theorem storeField_live {b : Bool} {w v u : CellRec} (hs : b = true → (s.cell c).service = .outOfService)
    (hc : w.capacity = (s.cell c).capacity) (hp : w.present = (s.cell c).present) (hv : v = u) :
    CellStored c w.stored u s (storeField c b w v s) := hv ▸ storeField_stored (judgeCell_live ho hs hc hp)

theorem modifyCell_zone (hs : (s.cell c).service = .outOfService) (z : ZoneIx) :
    CellStored c { (s.cell c).stored with zone := z.val } { s.cell c with zone := z } s (modifyCell c (.zone z.val) s) := by
  unfold modifyCell
  dsimp only
  rw [inRange_val]
  exact storeField_live ho (w := { s.cell c with zone := z }) (fun _ => hs) rfl rfl rfl

/-- A capacity settles the guard and the watermarks, and the congested flag is judged again (log 38). -/
theorem modifyCell_capacity (hs : (s.cell c).service = .outOfService) {n : Nat} (hl : 1 ≤ n) (hu : n ≤ 12)
    (hn : (s.cell c).occupancy ≤ n) {upper : Nat} (hupper : upper = max 1 (min (s.cell c).upper n)) :
    CellStored c { (s.cell c).stored with capacity := n } (judgedAgain { s.cell c with
      capacity := n, guard := min (s.cell c).guard (n - 1), upper := upper, lower := min (s.cell c).lower (upper - 1) }) s
      (modifyCell c (.capacity n) s) := by
  have hj : judgeCell true (s.cell c) { s.cell c with capacity := n } = none :=
    judgeCell_taken (fun _ => hs) hn fun h => (ho.absent h).2.1
  have hv : ({ s.cell c with capacity := n } : CellRec).clampLoad = { s.cell c with
      capacity := n, guard := min (s.cell c).guard (n - 1), upper := upper, lower := min (s.cell c).lower (upper - 1) } := by
    rw [CellRec.clampLoad_eq, hupper]
  unfold modifyCell
  dsimp only
  rw [if_neg (by omega), hv]
  exact storeField_stored hj

theorem modifyCell_guard (hs : (s.cell c).service = .outOfService) (n : Nat) :
    CellStored c { (s.cell c).stored with guard := n } { s.cell c with guard := min n ((s.cell c).capacity - 1) } s
      (modifyCell c (.guard n) s) :=
  storeField_live ho (w := { s.cell c with guard := n }) (fun _ => hs) rfl rfl (CellRec.clampGuard_eq _)

/-- An upper watermark settles the lower one. -/
theorem modifyCell_upper {n upper : Nat} (hupper : upper = max 1 (min n (s.cell c).capacity)) :
    CellStored c { (s.cell c).stored with upper := n } (judgedAgain { s.cell c with
      upper := upper, lower := min (s.cell c).lower (upper - 1) }) s (modifyCell c (.upper n) s) := by
  refine storeField_live ho (w := { s.cell c with upper := n }) nofun rfl rfl ?_
  rw [CellRec.clampLower_eq, hupper]
  rfl

theorem modifyCell_lower (n : Nat) :
    CellStored c { (s.cell c).stored with lower := n } (judgedAgain { s.cell c with lower := min n ((s.cell c).upper - 1) }) s
      (modifyCell c (.lower n) s) := by
  refine storeField_live ho (w := { s.cell c with lower := n }) nofun rfl rfl ?_
  rw [CellRec.clampLower_eq]
  rfl

theorem modifyCell_hysteresis {n : Nat} (hn : n ≤ 15) :
    CellStored c { (s.cell c).stored with hysteresis := n } { s.cell c with hysteresis := n } s
      (modifyCell c (.hysteresis n) s) := by
  unfold modifyCell
  dsimp only
  rw [if_neg (by omega)]
  exact storeField_live ho (w := { s.cell c with hysteresis := n }) nofun rfl rfl rfl

theorem modifyCell_floor {n : Nat} (hn : n ≤ 63) :
    CellStored c { (s.cell c).stored with floor := n } { s.cell c with floor := n } s (modifyCell c (.floor n) s) := by
  unfold modifyCell
  dsimp only
  rw [if_neg (by omega)]
  exact storeField_live ho (w := { s.cell c with floor := n }) nofun rfl rfl rfl

theorem modifyCell_shift (n : Nat) :
    CellStored c { (s.cell c).stored with shift := n } { s.cell c with shift := min n 4 } s (modifyCell c (.shift n) s) :=
  storeField_live ho (w := { s.cell c with shift := n }) nofun rfl rfl (CellRec.clampShift_eq _)

theorem modifyCell_dwell (n : Nat) :
    CellStored c { (s.cell c).stored with dwell := n } { s.cell c with dwell := max 1 (min n 7) } s
      (modifyCell c (.dwell n) s) :=
  storeField_live ho (w := { s.cell c with dwell := n }) nofun rfl rfl rfl

theorem modifyCell_resume (b : Bool) :
    CellStored c { (s.cell c).stored with resume := b } { s.cell c with resume := b } s (modifyCell c (.resume b) s) :=
  storeField_live ho (w := { s.cell c with resume := b }) nofun rfl rfl rfl

end

/-! ### Values out of range (R182): judged before the state of the cell (log 14) -/

section
variable (c : CellIx) (s : State) {n : Nat}

theorem modifyCell_zone_refused (hn : 15 < n) : modifyCell c (.zone n) s = (s, ⟨.badValue, .field 2⟩) := by
  unfold modifyCell
  dsimp only
  rw [inRange_none hn]
  rfl

theorem modifyCell_capacity_refused (hn : n < 1 ∨ 12 < n) : modifyCell c (.capacity n) s = (s, ⟨.badValue, .field 3⟩) :=
  if_pos hn

theorem modifyCell_hysteresis_refused (hn : 15 < n) : modifyCell c (.hysteresis n) s = (s, ⟨.badValue, .field 7⟩) :=
  if_pos hn

theorem modifyCell_floor_refused (hn : 63 < n) : modifyCell c (.floor n) s = (s, ⟨.badValue, .field 8⟩) := if_pos hn

end

/-- Settles O59. -/
theorem cellFieldsManaged : Obligations.CellFieldsManaged := by
  rintro s c _ n hi rfl
  have ho := hi.cells c
  simp only [fieldModify, atIndex_val]
  exact ⟨fun f => modifyCell_structural,
    fun hs => ⟨fun b => modifyCell_present hs ho.occupancy, modifyCell_absent hs, modifyCell_zone ho hs,
      fun hl hu => ⟨modifyCell_capacity_inUse hs hl hu, fun hn upper => modifyCell_capacity ho hs hl hu hn⟩,
      modifyCell_guard ho hs n⟩,
    fun upper => modifyCell_upper ho, modifyCell_lower ho n, modifyCell_hysteresis ho, modifyCell_floor ho,
    modifyCell_shift ho n, modifyCell_dwell ho n, modifyCell_resume ho, modifyCell_zone_refused c s,
    modifyCell_capacity_refused c s, modifyCell_hysteresis_refused c s, modifyCell_floor_refused c s⟩

end Sys2Proof.Machine
end

section
/-! PROOFS. A cell that is out of service becomes the target of no context (R60, R109): no take, no chain of rescue tries, and
no share of a drain start gives a context a target there. -/

namespace Sys2Proof.Machine

/-! ### What takes keep (R117 to R123) -/

/-- A property that every piece of a take keeps, and of the end of an event. -/
structure TakesInv (P : State → Prop) : Prop where
  chain : ChainInv P (fun _ _ _ => True) fun _ => True
  handed : ∀ {s u} f, P s → HandedBack s u → P (u.count f)
  passed : ∀ {s} x c, P s → P (refuseRequest x c s)
  prepared : ∀ {s x c h role kind v w}, P s → Admits x c h role s v w →
    P (beginPreparing x ⟨c, role, kind⟩ s.nextTxn (allocateTxn s.nextTxn x c w))
  unposted : ∀ {s} x q, P s → P (setPosted x false { s with hrq := q })
  finished : ∀ {s} b, P s → P (finish b s)

section
variable {P : State → Prop} (hP : TakesInv P)
include hP

theorem TakesInv.settleVictim {s : State} (h : P s) (v : Option CtlFrame) : P (settleVictim nextCandidate v s) :=
  hP.chain.settleVictim (fun hu hn => hP.chain.nextCandidate hu hn) h fun _ _ _ _ => trivial

theorem TakesInv.takeHandover {s : State} (h : P s) (r : Request) (i : RecIx) : P (takeHandover r i s) := by
  unfold Machine.takeHandover
  dsimp only
  split
  · exact hP.passed _ _ (hP.handed _ h (.refl s))
  · rcases tryTarget_outcome r.channel i r.target .handover (!r.kind.urgent) s with
      ⟨u, hu, ⟨code, htry⟩ | htry⟩ | ⟨hid, v, w, ha, htry⟩
    · rw [htry]
      exact hP.passed _ _ (hP.handed _ h hu)
    · rw [htry]
      exact hP.passed _ _ (hP.handed _ h hu)
    · rw [htry]
      exact hP.settleVictim (hP.prepared h ha) v

theorem TakesInv.preemptiveRescue (x : Channel) (i : RecIx) (c : CellIx) (ts : List CellIx) {s : State} (h : P s) :
    P (preemptiveRescue x i c ts s) := by
  induction ts generalizing s with
  | nil => exact hP.passed x c h
  | cons e ts ih =>
    unfold Machine.preemptiveRescue
    rcases tryTarget_outcome x i e .rescue false s with ⟨u, hu, ⟨code, htry⟩ | htry⟩ | ⟨hid, v, w, ha, htry⟩
    · rw [htry]
      exact ih (hP.handed _ h hu)
    · rw [htry]
      exact ih (hP.handed _ h hu)
    · rw [htry]
      exact hP.settleVictim (hP.prepared h ha) v

theorem TakesInv.judgeRequest {s : State} (h : P s) (r : Request) : P (judgeRequest r s) := by
  unfold Machine.judgeRequest
  split
  · exact h
  · next k hk =>
    split
    · exact h
    · split
      · exact hP.preemptiveRescue _ _ _ _ h
      · exact hP.takeHandover h _ _
      · exact hP.takeHandover h _ _
      · exact hP.takeHandover h _ _
    · exact h
    · exact h
    · next hp =>
      split
      · refine hP.chain.rescueTry _ h (fun j hj => ?_) fun _ _ => trivial
        obtain rfl : k = j := Option.some.inj (hk.symm.trans hj)
        rw [hp]
        rfl
      · exact h
      · exact h
      · exact h
    · exact h

theorem TakesInv.takeOne {s : State} (h : P s) : P (takeOne s) := by
  unfold Machine.takeOne
  split
  · exact h
  · exact hP.judgeRequest (hP.unposted _ _ h) _

theorem TakesInv.takeLoop (n : Nat) {s : State} (h : P s) : P (takeLoop n s) := by
  induction n generalizing s with
  | zero => exact h
  | succ n ih =>
    unfold Machine.takeLoop
    split
    · exact h
    · exact ih (hP.finished s (hP.takeOne h))

/-- What the effect of an event leaves, what follows it keeps. -/
theorem TakesInv.event {f : State → State} {s : State} (h : P (f s)) : P (event f s) := by
  unfold Machine.event takes
  split
  · exact hP.finished s h
  · exact hP.takeLoop _ (hP.finished s h)

end

/-! ### A context without a target at a cell out of service -/

/-- Cell `c` is not IN_SERVICE and is not the target of the context of channel `y`. -/
structure Unaimed (c : CellIx) (y : Channel) (s : State) : Prop where
  service : (s.cell c).service ≠ .inService
  free : ∀ k r, s.call y = some k → k.phase.target = some r → r.cell ≠ c

section
variable {c : CellIx} {x y : Channel} {s t u w : State} {k : Call}

theorem SettingKept.unserved (h : SettingKept s t) (hs : (s.cell c).service ≠ .inService) : (t.cell c).service ≠ .inService :=
  mt (Service.follows_inService (h.service c)).1 hs

/-- A change of one context, which leaves it no target at the cell. -/
theorem Unaimed.of_one (h : Unaimed c y s) (hs : SettingKept s t) (ho : ∀ z, z ≠ x → t.call z = s.call z)
    (hx : x = y → ∀ k r, t.call y = some k → k.phase.target = some r → r.cell ≠ c) : Unaimed c y t where
  service := hs.unserved h.service
  free := fun k r hk hr => by
    by_cases hxy : x = y
    · exact hx hxy k r hk hr
    · exact h.free k r ((ho y fun he => hxy he.symm).symm.trans hk) hr

theorem Unaimed.of_phases (h : Unaimed c y s) (hs : SettingKept s t) (hp : PhasesKept s t) : Unaimed c y t where
  service := hs.unserved h.service
  free := fun k r hk hr => by
    have hy := hp y
    rw [hk] at hy
    obtain ⟨j, hj, hjk⟩ := Option.map_eq_some_iff.1 hy.symm
    exact h.free j r hj (hjk ▸ hr)

theorem Unaimed.dropCall (h : Unaimed c y s) (x : Channel) (cause : DropCause) (lost : Bool) :
    Unaimed c y (dropCall x cause lost s) :=
  h.of_one (dropCall_notTaken (c := c) x cause lost s).setting (fun _ hz => dropCall_others hz cause lost s)
    fun hxy j _ hj => by
      rw [← hxy, dropCall_call] at hj
      cases hj

theorem Unaimed.fallback (h : Unaimed c y s) (hk : s.call x = some k) {l : Leg} (hl : k.phase.serving = some l)
    (d : CellIx) (how : TargetEnd) : Unaimed c y (fallback x k l d how s) := by
  have hfell := fallback_fellBack x k l d how s
  refine h.of_one (fallback_notTaken (c := c) hk hl d how).setting hfell.others fun hxy j r hj hr => ?_
  subst hxy
  rw [hfell.call] at hj
  cases hj
  cases hr

theorem Unaimed.endAttempt (h : Unaimed c y s) (hk : s.call x = some k) (d : CellIx) (dl : Time) :
    Unaimed c y (endAttempt x k d dl s) :=
  h.of_one (endAttempt_notTaken (c := c) hk d dl).setting (fun z hz => (endAttempt_call x k d dl s z).trans (if_neg hz))
    fun hxy j r hj hr => by
      rw [hxy, endAttempt_call, if_pos rfl] at hj
      cases hj
      cases hr

/-- A context to which an admitted target is added aims at a cell IN_SERVICE, or where it did. -/
theorem Unaimed.admitted (h : Unaimed c y s) {d : CellIx} {hid : Hid} {role : Role} {v : Option CtlFrame} {f : Call → Call}
    (ha : Admits x d hid role s v w) (n : Txn)
    (hf : ∀ k r, (f k).phase.target = some r → r.cell = d ∨ k.phase.target = some r) :
    Unaimed c y ((allocateTxn n x d w).modCall x f) := by
  refine h.of_one (x := x) ((ha.setting n).trans { SettingKept.refl _ with }) (fun z hz => ?_) fun hxy k r hk hr => ?_
  · exact (modCall_others x f (allocateTxn n x d w) z hz).trans (State.call_congr ha.calls z)
  · subst hxy
    rw [State.call_modCall, if_pos rfl] at hk
    obtain ⟨j, hj, rfl⟩ := Option.map_eq_some_iff.1 hk
    rcases hf j r hr with hrd | hrj
    · exact fun hrc => h.service (hrc ▸ hrd ▸ ha.service)
    · exact h.free j r ((State.call_congr ha.calls x).symm.trans hj) hrj

theorem Unaimed.refuseRequest (h : Unaimed c y s) (x : Channel) (d : CellIx) : Unaimed c y (refuseRequest x d s) := by
  refine h.of_one (refuseRequest_notTaken (c := c) x d s).setting (modCall_others x _ s) fun hxy k r hk hr => ?_
  subst hxy
  unfold Machine.refuseRequest at hk
  rw [State.call_modCall, if_pos rfl] at hk
  obtain ⟨j, hj, rfl⟩ := Option.map_eq_some_iff.1 hk
  refine h.free j r hj ?_
  split at hr
  · cases hr
  all_goals exact hr

end

/-- The chain that passes a rescue on gives no context a target out of service. -/
theorem unaimed_chain {c : CellIx} {y : Channel} : ChainInv (Unaimed c y) (fun _ _ _ => True) fun _ => True where
  dropped := fun cause lost h _ => h.dropCall _ cause lost
  failed := fun {s z k d n} cause h hk _ => h.of_one (failedOpen_notTaken (c := c) hk d cause).setting
    (fun x hx => (failedOpen_call z k d cause s x).trans (if_neg hx)) fun hzy j r hj => by
      rw [hzy, failedOpen_call, if_pos rfl] at hj
      cases hj
  fallen := fun h hk hp => h.fallback hk (by rw [hp]; rfl) _ _
  ended := fun h hk _ => h.endAttempt hk _ _
  freed := fun {s a} h _ => h.of_phases (freeAnswer_setting a s) (.of_calls rfl)
  best := fun _ _ _ => trivial
  refused := fun {s z d u} code h hu => by
    have hcall : PhasesKept s u := .of_calls hu.calls
    exact h.of_phases (dropCandidate_notTaken (c := c) hu z d code).setting
      (hcall.trans (dropCandidate_phases z d (countRefusal code u)))
  admitted := fun h _ _ _ ha => h.admitted ha _ fun k r hr => by
    split at hr
    · cases hr
      exact .inl rfl
    all_goals exact .inr hr
  victim := fun _ _ _ _ _ _ => trivial

theorem unaimed_takes {c : CellIx} {y : Channel} : TakesInv (Unaimed c y) where
  chain := unaimed_chain
  handed := fun {s u} f h hu => h.of_phases (hu.setting.trans { SettingKept.refl u with }) (.of_calls hu.calls)
  passed := fun x d h => h.refuseRequest x d
  prepared := fun h ha => h.admitted ha _ fun k r hr => by
    split at hr
    · cases hr
      exact .inl rfl
    all_goals exact .inr hr
  unposted := fun {s} x q h => h.of_phases
    (SettingKept.trans (t := { s with hrq := q }) { SettingKept.refl s with }
      (setPosted_moves (P := fun _ => False) x false { s with hrq := q }).raws.setting)
    (setPosted_phases x false { s with hrq := q })
  finished := fun {s} b h => h.of_phases (finish_moves (P := fun _ => False) b s).raws.setting
    ((offerPlaces_phases _ s).trans (.of_calls (finish_spec b s).calls))

/-! ### The share of a drain start -/

section
variable {c : CellIx} {x y : Channel} {s : State}

theorem Unaimed.loseTarget (h : Unaimed c y s) (lost : CellIx → Bool) (how : TargetEnd) (x : Channel) :
    Unaimed c y (loseTarget lost how x s) := by
  unfold Machine.loseTarget
  split
  · exact h
  · next k hk =>
    split
    · exact h
    · exact h
    · next hp =>
      split
      · exact h.fallback hk (by rw [hp]; rfl) _ _
      · exact h
    · next hp =>
      split
      · exact h.fallback hk (by rw [hp]; rfl) _ _
      · exact h
    · exact h
    · next r n d hp =>
      split
      · have hcall : (cancelTxn n s).call x = some k := (State.call_congr (cancelTxn_calls n s) x).trans hk
        have hcancelled : Unaimed c y (cancelTxn n s) := h.of_phases (cancelTxn_setting n s) (.of_calls (cancelTxn_calls n s))
        exact unaimed_chain.nextCandidate (hcancelled.endAttempt hcall _ _) (endAttempt_noOpen x k _ _ _)
      · exact h

theorem drainStartAt_phases (c : CellIx) (x : Channel) (s : State) :
    PhasesKept (loseTarget (fun d => decide (d = c)) .close x s) (drainStartAt c x s) := by
  unfold drainStartAt
  dsimp only
  generalize loseTarget (fun d => decide (d = c)) .close x s = u
  split
  · exact .refl u
  · split
    · split
      · split
        · exact .refl u
        · exact hrqPost_phases _ u
      · exact .refl u
    all_goals exact .refl u

theorem drainStartAt_setting (c : CellIx) (x : Channel) (s : State) : SettingKept s (drainStartAt c x s) :=
  (drainStartAt_moves (P := fun _ => False) c x s).raws.setting

/-- A share of a drain start aims no other context at the cell. -/
theorem Unaimed.drainStartAt (h : Unaimed c y s) (x : Channel) : Unaimed c y (drainStartAt c x s) where
  service := (drainStartAt_setting c x s).unserved h.service
  free := fun k r hk hr => by
    have hp := drainStartAt_phases c x s y
    rw [hk] at hp
    obtain ⟨j, hj, hjk⟩ := Option.map_eq_some_iff.1 hp.symm
    exact (h.loseTarget _ _ x).free j r hj (hjk ▸ hr)

/-- After its share a context has no target at the cell. -/
theorem drainStartAt_unaimed (hs : (s.cell c).service ≠ .inService) (x : Channel) : Unaimed c x (drainStartAt c x s) where
  service := (drainStartAt_setting c x s).unserved hs
  free := fun k r hk hr => by
    have hp := drainStartAt_phases c x s x
    rw [hk] at hp
    obtain ⟨j, hj, hjk⟩ := Option.map_eq_some_iff.1 hp.symm
    exact loseTarget_left (decide_eq_true rfl) hs hj (hjk ▸ hr)

/-- After the events of all contexts none has a target at the cell. -/
theorem eachDrain_unaimed {t : State} (hs : (s.cell c).service ≠ .inService) (h : EachContext (drainStartAt c) s t)
    (y : Channel) : Unaimed c y t := by
  obtain ⟨u, rfl, rfl, hstep⟩ := h
  have hall : ∀ n, n ≤ 128 → ((u n).cell c).service ≠ .inService ∧ ∀ y : Channel, y.val < n → Unaimed c y (u n) := by
    intro n
    induction n with
    | zero => exact fun _ => ⟨hs, fun y hy => absurd hy (Nat.not_lt_zero _)⟩
    | succ n ih =>
      intro hn
      obtain ⟨hserv, hfree⟩ := ih (Nat.le_of_succ_le hn)
      obtain ⟨hidle, hevent⟩ := hstep ⟨n, hn⟩
      by_cases hcall : (u n).call ⟨n, hn⟩ = none
      · have heq : u (n + 1) = u n := hidle hcall
        rw [heq]
        refine ⟨hserv, fun y hy => ?_⟩
        rcases Nat.lt_succ_iff_lt_or_eq.1 hy with hy | hy
        · exact hfree y hy
        · obtain rfl : y = ⟨n, hn⟩ := Fin.ext hy
          exact ⟨hserv, fun k _ hk => by rw [hcall] at hk; cases hk⟩
      · have heq : u (n + 1) = event (drainStartAt c ⟨n, hn⟩) (u n) := hevent hcall
        rw [heq]
        have hown := unaimed_takes.event (drainStartAt_unaimed hserv ⟨n, hn⟩)
        refine ⟨hown.service, fun y hy => ?_⟩
        rcases Nat.lt_succ_iff_lt_or_eq.1 hy with hy | hy
        · exact unaimed_takes.event ((hfree y hy).drainStartAt ⟨n, hn⟩)
        · obtain rfl : y = ⟨n, hn⟩ := Fin.ext hy
          exact hown
  exact (hall 128 le_rfl).2 y y.isLt

end

end Sys2Proof.Machine
end

section
/-! PROOFS. The share of one context in a drain start (R67, R109, R135), and the statement on drain starts. -/

namespace Sys2Proof.Machine

/-! ### The live candidate of highest F (R109) -/

/-- A candidate above those before it, and not below those after it, is the best one. -/
theorem bestCandidate_split {before after : List Candidate} {d : Candidate} (hb : ∀ b ∈ before, b.f < d.f)
    (ha : ∀ b ∈ after, b.f ≤ d.f) : bestCandidate (before ++ d :: after) = some d := by
  induction before with
  | nil =>
    rw [List.nil_append]
    unfold bestCandidate
    split
    · rfl
    · next e he => exact if_neg (Nat.not_lt.2 (ha e (bestCandidate_mem he)))
  | cons b bs ih =>
    rw [List.cons_append]
    unfold bestCandidate
    rw [ih fun e he => hb e (List.mem_cons_of_mem _ he)]
    exact if_pos (hb b List.mem_cons_self)

section
variable {s : State}

theorem bestLive_split {cs before after : List Candidate} {d : Candidate} (hcs : cs = before ++ d :: after)
    (hd : (s.cell d.cell).live = true) (hb : ∀ b ∈ before, (s.cell b.cell).live = true → b.f < d.f)
    (ha : ∀ b ∈ after, (s.cell b.cell).live = true → b.f ≤ d.f) : bestLive s cs = some d := by
  unfold bestLive
  rw [hcs, List.filter_append, List.filter_cons, if_pos hd]
  refine bestCandidate_split (fun b hm => ?_) fun b hm => ?_
  · obtain ⟨hm, hlive⟩ := List.mem_filter.1 hm
    exact hb b hm hlive
  · obtain ⟨hm, hlive⟩ := List.mem_filter.1 hm
    exact ha b hm hlive

theorem bestLive_none {cs : List Candidate} (h : ∀ d ∈ cs, (s.cell d.cell).live = false) : bestLive s cs = none := by
  unfold bestLive
  rw [List.filter_eq_nil_iff.2 fun d hd => Bool.eq_false_iff.1 (h d hd)]
  rfl

end

/-! ### The share, after that of the target -/

section
variable {c : CellIx} {x : Channel} {s u : State} {k : Call} {l : Leg} {g : Option Time}
  (hu : loseTarget (fun d => decide (d = c)) .close x s = u)
include hu

/-- A context that is not ACTIVE at the cell with its request flag clear has the share of its target alone. -/
theorem drainStartAt_target (h : ∀ k l g, u.call x = some k → k.phase = .active l g → l.cell = c → k.posted = true) :
    drainStartAt c x s = u := by
  unfold drainStartAt
  rw [hu]
  dsimp only
  split
  · rfl
  · next k hk =>
    split
    · next l g hp =>
      refine if_neg fun ⟨hc, hpost⟩ => ?_
      rw [h k l g hk hp hc] at hpost
      cases hpost
    all_goals rfl

variable (hk : u.call x = some k) (hp : k.phase = .active l g) (hc : l.cell = c) (hpost : k.posted = false)
include hk hp hc hpost

theorem drainStartAt_unposted (hb : bestLive u k.candidates = none) : drainStartAt c x s = u := by
  unfold drainStartAt
  rw [hu]
  dsimp only
  rw [hk]
  dsimp only
  rw [hp]
  dsimp only
  rw [if_pos ⟨hc, hpost⟩, hb]

theorem drainStartAt_posts {b : Candidate} (hb : bestLive u k.candidates = some b) :
    drainStartAt c x s = hrqPost ⟨x, b.cell, .drain, u.now⟩ u := by
  unfold drainStartAt
  rw [hu]
  dsimp only
  rw [hk]
  dsimp only
  rw [hp]
  dsimp only
  rw [if_pos ⟨hc, hpost⟩, hb]

end

/-! ### The share, by the phase of the context -/

section
variable {c : CellIx} {x : Channel} {s : State} {k : Call} (hk : s.call x = some k)
include hk

/-- A context whose target is elsewhere, or that has none, keeps it. -/
theorem drainTarget_kept (h : ∀ r, k.phase.target = some r → r.cell ≠ c) :
    loseTarget (fun d => decide (d = c)) .close x s = s := loseTarget_kept hk fun r hr => decide_eq_false (h r hr)

theorem drainStartAt_nothing (ht : ∀ r, k.phase.target = some r → r.cell ≠ c)
    (ha : ∀ l g, k.phase = .active l g → l.cell ≠ c ∨ k.posted = true) : drainStartAt c x s = s :=
  drainStartAt_target (drainTarget_kept hk ht) fun j l g hj hp hc => by
    obtain rfl : k = j := Option.some.inj (hk.symm.trans hj)
    exact (ha l g hp).resolve_left fun hne => hne hc

omit hk in
theorem Phase.target_of_active {p : Phase} {l : Leg} {g : Option Time} (h : p = .active l g) {P : Target → Prop} (r : Target)
    (hr : p.target = some r) : P r := by
  rw [h] at hr
  cases hr

/-- ACTIVE at the cell with its request flag clear, a context posts DRAIN toward its best live candidate (R109). -/
theorem drainStartAt_active {l : Leg} {g : Option Time} (hp : k.phase = .active l g) (hc : l.cell = c)
    (hpost : k.posted = false) :
    ((∀ d ∈ k.candidates, (s.cell d.cell).live = false) → drainStartAt c x s = s) ∧
      ∀ before d after, k.candidates = before ++ d :: after → (s.cell d.cell).live = true →
        (∀ b ∈ before, (s.cell b.cell).live = true → b.f < d.f) →
        (∀ b ∈ after, (s.cell b.cell).live = true → b.f ≤ d.f) →
        drainStartAt c x s = hrqPost ⟨x, d.cell, .drain, s.now⟩ s := by
  have hkept := drainTarget_kept (c := c) hk (Phase.target_of_active hp)
  exact ⟨fun h => drainStartAt_unposted hkept hk hp hc hpost (bestLive_none h), fun _ _ _ hcs hd hb ha =>
    drainStartAt_posts hkept hk hp hc hpost (bestLive_split hcs hd hb ha)⟩

omit hk in
/-- A context that has fallen back to a serving leg elsewhere has no more to do. -/
theorem drainStartAt_fallen {l : Leg} {how : TargetEnd} (hl : l.cell ≠ c)
    (hu : loseTarget (fun d => decide (d = c)) .close x s = fallback x k l c how s) :
    drainStartAt c x s = fallback x k l c how s :=
  drainStartAt_target hu fun j m g hj hp hc => by
    rw [(fallback_fellBack x k l c how s).call] at hj
    cases hj
    cases hp
    exact absurd hc hl

theorem drainStartAt_preparing {l : Leg} {g : Option Time} {r : Target} {n : Txn} (hp : k.phase = .preparing l g r n)
    (hr : r.cell = c) (hl : l.cell ≠ c) : drainStartAt c x s = fallback x k l c (.cancel n) s := by
  subst hr
  exact drainStartAt_fallen hl (loseTarget_preparing hk hp (decide_eq_true rfl))

theorem drainStartAt_bridging {l : Leg} {g : Option Time} {r : Target} {sl : Slot} {d : Time}
    (hp : k.phase = .bridging l g r sl d) (hr : r.cell = c) (hl : l.cell ≠ c) :
    drainStartAt c x s = fallback x k l c .close s := by
  subst hr
  exact drainStartAt_fallen hl (loseTarget_bridging hk hp (decide_eq_true rfl))

/-- An attempt at the cell passes on, and its context is RESCUING still, or IDLE. -/
theorem drainStartAt_rescuing {r : Target} {n : Txn} {d : Time} (hp : k.phase = .rescuing (some (r, n)) d) (hr : r.cell = c) :
    drainStartAt c x s = nextCandidate x (endAttempt x k c d (cancelTxn n s)) := by
  subst hr
  have hstart : (endAttempt x k r.cell d (cancelTxn n s)).RescuesAt x := fun j hj => by
    rw [endAttempt_call, if_pos rfl] at hj
    cases hj
    exact ⟨_, _, rfl⟩
  have hend := rescuesAt_chain.nextCandidate hstart (endAttempt_noOpen x k r.cell d _)
  refine drainStartAt_target (loseTarget_rescuing hk hp (decide_eq_true rfl)) fun j l g hj hact _ => ?_
  obtain ⟨a, e, hres⟩ := hend j hj
  rw [hres] at hact
  cases hact

end

theorem FellBack.occupancy {x : Channel} {k : Call} {l : Leg} {c : CellIx} {closed : List CellIx} {s t : State}
    (h : FellBack x k l c closed s t) : (t.cell c).occupancy = (s.cell c).occupancy - 1 := by
  rw [h.slots c, List.count_singleton_self]

/-- The READY leg that a fallback gives up waits to be closed (R154). -/
theorem fallback_closing (x : Channel) (k : Call) (l : Leg) (c : CellIx) (s : State)
    (hu : (s.port (portOf c)).link = .up) (hr : (s.port (portOf c)).closes.length < 256) :
    (c, x) ∈ ((fallback x k l c .close s).port (portOf c)).closes := by
  have hclose := (targetLeft_step x c .close s).closes
  rw [fallback_eq]
  generalize targetLeft x c .close s = u at hclose ⊢
  exact hclose.entered (c, x) (List.mem_singleton_self _) hu hr

/-- The contexts' events of a drain start aim no context at the cell. -/
theorem drain_runs {tag : Tag} {fits : MgmtFrame → Bool} {c : CellIx} {f : FollowOn} {i : Instr} {s : State}
    (hx : Executing tag fits s)
    (hi : exec i s = .next (drainStart c.val s (event (respond tag fits (onCell c.val (drainCell f))) s)))
    (hp : (s.cell c).present = true) (hs : (s.cell c).service = .inService) (ho : 0 < (s.cell c).occupancy) :
    Runs i s fun t =>
      (∃ u, EventEnd s (answered tag ⟨.ok, .service .draining⟩
          (s.setCell c { s.cell c with service := .draining f (inMs (s.config.drainTime * 1000) s) })) u ∧
        EachContext (drainStartAt c) u t) ∧
      ∀ x k r, t.call x = some k → k.phase.target = some r → r.cell ≠ c := by
  obtain ⟨u, hexec, hend⟩ := drain_started hx hi hp hs ho
  have hservice : (u.cell c).service = .draining f (inMs (s.config.drainTime * 1000) s) := by
    rw [hend.cell, answered_eq]
    exact congrArg CellRec.service (State.cell_setCell_self _ _ _)
  have heach := eachContext_events (drainStartAt c) u
  exact ⟨_, hexec, ⟨u, hend, heach⟩, fun x => (eachDrain_unaimed (by rw [hservice]; nofun) heach x).free⟩

/-- Settles O23: each share takes the target at the cell away, and nothing aims a context at a cell out of service. -/
theorem drainStartReachesContexts : Obligations.DrainStartReachesContexts := by
  refine ⟨fun tag c f i s hp hs ho hi => ?_, fun c x s k hinv hs hk => ⟨drainStartAt_nothing hk, fun l g =>
    drainStartAt_active hk, fun l g r n hp hr hl t ht => ?_, fun l g r sl d hp hr hl t ht => ?_, fun r n d hp hr t ht => ?_⟩⟩
  · rcases hi with ⟨rfl, rfl, hx⟩ | ⟨rfl, rfl, hx⟩
    · exact drain_runs hx (exec_drain hx) hp hs ho
    · exact drain_runs hx (exec_restart hx) hp hs ho
  · have hfell := fallback_fellBack x k l c (.cancel n) s
    rw [ht, drainStartAt_preparing hk hp hr hl]
    exact ⟨hfell.call, hfell.others, hfell.occupancy, hfell.device, hfell.hrq, fallback_cancelled x k l c n s⟩
  · have hfell := fallback_fellBack x k l c .close s
    rw [ht, drainStartAt_bridging hk hp hr hl]
    exact ⟨hfell.call, hfell.others, hfell.occupancy, hfell.device, hfell.hrq,
      (fallback_answers x k l c .close s).trans (closeLeg_answers x s c), fallback_closing x k l c s, hfell.withdrawn⟩
  · have heq := ht.trans (drainStartAt_rescuing hk hp hr)
    exact ⟨attemptLost_passed hk heq hinv, attemptLost_cancelled hk heq⟩

end Sys2Proof.Machine
end
